-- ==== Sys2Proof/Word.lean ====
section
/-! DEFINITION. The word types of the Fliuz 9 and the numbering of its cores and threads (R1, R4, R9, R11). -/

namespace Sys2Proof

/-- A byte of memory. -/
abbrev Byte := BitVec 8
/-- A 32-bit register or instruction word. -/
abbrev Word := BitVec 32
/-- A register pair, an address or a 64-bit special register. -/
abbrev DWord := BitVec 64

/-- The global number of a core from its die (0-3), cluster (0-11) and `CORE` (0-31). -/
def coreNo (die cluster core : Nat) : Nat := (die * 12 + cluster) * 32 + core
/-- `CORE` of a global core number. -/
def coreIndex (c : Nat) : Nat := c % 32
/-- `CLUSTER` of a global core number. -/
def coreCluster (c : Nat) : Nat := c / 32 % 12
/-- `DIE` of a global core number. -/
def coreDie (c : Nat) : Nat := c / 384
/-- The global number of a cluster. -/
def clusterNo (c : Nat) : Nat := c / 32
/-- C-cores are `CORE` 0-27, S-cores 28-31 (R61). -/
def isSCore (c : Nat) : Bool := 28 ≤ c % 32

/-- The global number of a thread from its core, `SLOT` and `LANE`. Where the rules leave a point open: log 12 (DESIGN CHOICE, safe). -/
def threadNo (core slot lane : Nat) : Nat := (core * 16 + slot) * 64 + lane
/-- `LANE` of a thread number. -/
def threadLane (t : Nat) : Nat := t % 64
/-- `SLOT` of a thread number. -/
def threadSlot (t : Nat) : Nat := t / 64 % 16
/-- The core of a thread number. Where the rules leave a point open: log 12 (DESIGN CHOICE, safe). -/
def threadCore (t : Nat) : Nat := t / 1024
/-- The crew of a thread: its core and slot as one number. -/
def threadCrew (t : Nat) : Nat := t / 64

end Sys2Proof
end

