-- ==== Sys2Proof/Config.lean ====
section
/-! DEFINITION. Constants without a body: values the spec leaves open. No proof can see what they are. -/

namespace Sys2Proof

/-- The tangent of `FSIN` (false) or `FCOS` (true) of ±∞ with a nonzero input tangent (DESIGN CHOICE, safe: log 13). -/
opaque Config.trigTangent : Bool → Nat → Nat → Nat
/-- A free 32-bit value for the n-th open value of a run (DESIGN CHOICE, safe: log 8). -/
opaque Config.freeWord : Nat → Word
/-- A free byte: the first number counts open values, the second places within one (DESIGN CHOICE, safe: log 8). -/
opaque Config.freeByte : Nat → Nat → Byte
/-- What a line reads as, byte by byte, under a key it was not written under (logs 7, 8): key generation of the reader
and of the line, address, stored byte. -/
opaque Config.foreignByte : Nat → Nat → Nat → Byte → Byte

/-- The feature bits 0-9 that the part offers (R388, R389; log 5). -/
opaque Config.offered : DWord
/-- Word k of the n-th unlock nonce drawn (R386; log 6). -/
opaque Config.nonce : Nat → Nat → DWord
/-- The fused hashes of the RSA (false) and SLH-DSA (true) public keys (R402; log 9). -/
opaque Config.fusedHash : Bool → List Byte
/-- The fused minimum SVN (R402; log 9). -/
opaque Config.minSvn : Nat
/-- Byte k of the attestation signature of a message, RSA-3072 (false) or SLH-DSA-SHA2-192s (true) (R404; log 9). -/
opaque Config.attest : Bool → List Byte → Nat → Byte
/-- Byte k of the unit identifier (R404; log 9). -/
opaque Config.unitId : Nat → Byte
/-- Whether a debug token names a unit identifier and a nonce (R405; log 9). -/
opaque Config.tokenNames : List Byte → List Byte → List DWord → Bool
/-- Whether a Viaduct port has a link partner (R413; log 9). -/
opaque Config.linkPartner : Nat → Bool

end Sys2Proof
end

