-- ==== Sys2Proof/Machine/Num.lean ====
section
/-! DEFINITION. The number formats of R88-R103: bit patterns as `Nat`, exact values, the rounding of R93-R95 and R101,
and the arithmetic that instructions and engines share. -/

namespace Sys2Proof.Machine

/-- An IEEE format: exponent and fraction widths (R88). -/
structure IeeeFmt where
  ebits : Nat
  mbits : Nat
deriving DecidableEq, Repr

/-- binary64. -/
def b64 : IeeeFmt := ⟨11, 52⟩
/-- binary32. -/
def b32 : IeeeFmt := ⟨8, 23⟩
/-- binary16. -/
def b16 : IeeeFmt := ⟨5, 10⟩
/-- BF16. -/
def bf16 : IeeeFmt := ⟨8, 7⟩

/-- The exponent bias. -/
def IeeeFmt.bias (f : IeeeFmt) : Nat := 2 ^ (f.ebits - 1) - 1
/-- The width in bits. -/
def IeeeFmt.width (f : IeeeFmt) : Nat := 1 + f.ebits + f.mbits
/-- The exponent field of infinities and NaNs. -/
def IeeeFmt.topExp (f : IeeeFmt) : Nat := 2 ^ f.ebits - 1
/-- The weight of the sign bit. -/
def IeeeFmt.signWeight (f : IeeeFmt) : Nat := 2 ^ (f.ebits + f.mbits)
/-- The smallest exponent of a normal number. -/
def IeeeFmt.emin (f : IeeeFmt) : Int := 1 - (f.bias : Int)
/-- The pattern of an infinity. -/
def IeeeFmt.inf (f : IeeeFmt) (neg : Bool) : Nat := neg.toNat * f.signWeight + f.topExp * 2 ^ f.mbits
/-- The pattern of the largest finite number. -/
def IeeeFmt.maxFinite (f : IeeeFmt) (neg : Bool) : Nat := f.inf neg - 1
/-- The pattern of a zero. -/
def IeeeFmt.zero (f : IeeeFmt) (neg : Bool) : Nat := neg.toNat * f.signWeight
/-- The canonical quiet NaN (R90). -/
def IeeeFmt.canonNaN (f : IeeeFmt) : Nat := f.topExp * 2 ^ f.mbits + 2 ^ (f.mbits - 1)

/-- The sign bit of a pattern. -/
def signBit (f : IeeeFmt) (x : Nat) : Bool := decide (x / f.signWeight % 2 = 1)
/-- The exponent field of a pattern. -/
def expField (f : IeeeFmt) (x : Nat) : Nat := x / 2 ^ f.mbits % 2 ^ f.ebits
/-- The fraction field of a pattern. -/
def fracField (f : IeeeFmt) (x : Nat) : Nat := x % 2 ^ f.mbits
/-- Whether a pattern is a NaN. -/
def isNaN (f : IeeeFmt) (x : Nat) : Bool := expField f x == f.topExp && fracField f x != 0
/-- Whether a pattern is a signalling NaN: the top fraction bit clear (R88). -/
def isSNaN (f : IeeeFmt) (x : Nat) : Bool := isNaN f x && fracField f x / 2 ^ (f.mbits - 1) == 0
/-- Whether a pattern is an infinity. -/
def isInf (f : IeeeFmt) (x : Nat) : Bool := expField f x == f.topExp && fracField f x == 0
/-- Whether a pattern is a zero. -/
def isZero (f : IeeeFmt) (x : Nat) : Bool := expField f x == 0 && fracField f x == 0
/-- `quiet(x)` of R96. -/
def quiet (f : IeeeFmt) (x : Nat) : Nat :=
  if fracField f x / 2 ^ (f.mbits - 1) = 0 then x + 2 ^ (f.mbits - 1) else x
/-- A pattern with its sign bit flipped. -/
def flipSign (f : IeeeFmt) (x : Nat) : Nat := if signBit f x then x - f.signWeight else x + f.signWeight
/-- A pattern with its sign bit cleared. -/
def clearSign (f : IeeeFmt) (x : Nat) : Nat := if signBit f x then x - f.signWeight else x

/-- The value of a pattern: a NaN, an infinity, or (-1)^neg · m · 2^e with signed zeros. -/
inductive FVal where
  | nan
  | inf (neg : Bool)
  | fin (neg : Bool) (m : Nat) (e : Int)
deriving DecidableEq, Repr

/-- The value a pattern stands for (R88). -/
def fval (f : IeeeFmt) (x : Nat) : FVal :=
  if expField f x = f.topExp then
    (if fracField f x = 0 then .inf (signBit f x) else .nan)
  else if expField f x = 0 then .fin (signBit f x) (fracField f x) (f.emin - (f.mbits : Int))
  else .fin (signBit f x) (2 ^ f.mbits + fracField f x) ((expField f x : Int) - (f.bias : Int) - (f.mbits : Int))

/-- NV, invalid (R65). -/
def flNV : Word := 1
/-- DZ, divide by zero (R65). -/
def flDZ : Word := 2
/-- OF, overflow (R65). -/
def flOF : Word := 4
/-- UF, underflow (R65). -/
def flUF : Word := 8
/-- NX, inexact (R65). -/
def flNX : Word := 16
/-- TG, a tangent computed by rule is infinite or NaN (R65). -/
def flTG : Word := 32
/-- ZS, a conversion into Z8 or Z6 saturates (R65). -/
def flZS : Word := 64

/-- A flag, if a condition holds. -/
def flagIf (b : Bool) (w : Word) : Word := if b then w else 0

/-- A result pattern with the flags it raises. -/
structure FRes where
  bits : Nat
  flags : Word
deriving DecidableEq, Repr

/-- Rounding modes by their `FCR.RM` codes (R64, R93). -/
inductive RMode where
  | rne | rtz | rdn | rup | rna
deriving DecidableEq, Repr

/-- The mode of an `FCR.RM` value; 5-7 never stand in `FCR` (R64). -/
def rmodeOf (n : Nat) : RMode :=
  if n = 1 then .rtz else if n = 2 then .rdn else if n = 3 then .rup else if n = 4 then .rna else .rne

/-- Number of significant bits. -/
def bitLen (m : Nat) : Nat := if m = 0 then 0 else Nat.log2 m + 1

/-- Whether rounding goes to the larger magnitude, from the kept part `q`, the dropped part `r` of `sh` bits, and
whether something nonzero lies below `r` (R93). -/
def roundsUp (mode : RMode) (neg : Bool) (q r sh : Nat) (sticky : Bool) : Bool :=
  let half := 2 ^ sh
  match mode with
  | .rne => decide (2 * r > half) || (decide (2 * r = half) && (sticky || q % 2 == 1))
  | .rtz => false
  | .rdn => neg && (r != 0 || sticky)
  | .rup => !neg && (r != 0 || sticky)
  | .rna => decide (2 * r ≥ half)

/-- `m` with its `sh` low bits rounded away, and whether that is inexact. -/
def roundShift (mode : RMode) (neg : Bool) (m sh : Nat) (sticky : Bool) : Nat × Bool :=
  let q := m / 2 ^ sh
  let r := m % 2 ^ sh
  (if roundsUp mode neg q r sh sticky then q + 1 else q,
   r != 0 || sticky)

/-- The overflowed result of R94. -/
def overflowed (f : IeeeFmt) (mode : RMode) (neg : Bool) : FRes :=
  let toInf : Bool := match mode with
    | .rne | .rna => true | .rtz => false | .rdn => neg | .rup => !neg
  ⟨if toInf then f.inf neg else f.maxFinite neg, flOF ||| flNX⟩

/-- `round` of R96 on (-1)^neg · v, where v is m · 2^e, or lies strictly between m · 2^e and (m + 1) · 2^e when `sticky`
(then m must hold two bits more than the format's precision). A zero m gives a zero of the sign. -/
def roundFin (f : IeeeFmt) (mode : RMode) (neg : Bool) (m0 : Nat) (e0 : Int) (sticky : Bool) : FRes :=
  if m0 = 0 then ⟨f.zero neg, flagIf sticky flNX⟩
  else
    let prec := f.mbits + 1
    let grow := (prec + 2) - bitLen m0
    let m := m0 * 2 ^ grow
    let e := e0 - (grow : Int)
    let len := bitLen m
    let top : Int := (len : Int) - 1 + e
    let un := roundShift mode neg m (len - prec) sticky
    let top' : Int := if un.1 = 2 ^ prec then top + 1 else top
    if top' > (f.bias : Int) then overflowed f mode neg
    else if top ≥ f.emin then
      let frac := if un.1 = 2 ^ prec then 0 else un.1 - 2 ^ f.mbits
      ⟨neg.toNat * f.signWeight + ((top' + (f.bias : Int)).toNat) * 2 ^ f.mbits + frac, flagIf un.2 flNX⟩
    else
      let sh := (f.emin - (f.mbits : Int) - e).toNat
      let r := roundShift mode neg m sh sticky
      ⟨neg.toNat * f.signWeight + r.1, flagIf r.2 flNX ||| flagIf (r.2 && decide (top' < f.emin)) flUF⟩

/-- `round` of R96 on the rational (-1)^neg · num / den, den nonzero; a zero numerator gives a zero of the sign. -/
def roundRat (f : IeeeFmt) (mode : RMode) (neg : Bool) (num den : Nat) : FRes :=
  if num = 0 then ⟨f.zero neg, 0⟩
  else
    let k := (f.mbits + 4 + bitLen den) - bitLen num
    let q := num * 2 ^ k / den
    roundFin f mode neg q (-(k : Int)) (num * 2 ^ k % den != 0)

/-- The first NaN operand of a list, made quiet (R90). -/
def firstNaN (f : IeeeFmt) : List Nat → Option Nat
  | [] => none
  | x :: xs => if isNaN f x then some (quiet f x) else firstNaN f xs

/-- NV, if a signalling NaN stands among the operands (R90). -/
def snanFlag (f : IeeeFmt) (xs : List Nat) : Word := flagIf (xs.any (isSNaN f)) flNV

/-- The canonical NaN with NV: an invalid operation (R90, R97). -/
def invalid (f : IeeeFmt) : FRes := ⟨f.canonNaN, flNV⟩

/-- The NaN rule of R90, or else the result of the operation on numbers. -/
def orNaN (f : IeeeFmt) (xs : List Nat) (r : FRes) : FRes :=
  match firstNaN f xs with
  | some n => ⟨n, snanFlag f xs⟩
  | none => r

/-- The signed integer of a magnitude. -/
def signed (neg : Bool) (m : Nat) : Int := if neg then -(m : Int) else (m : Int)

/-- The sign of an exact zero sum of two signed values (R93). -/
def zeroSumSign (mode : RMode) (n1 n2 : Bool) : Bool := if n1 = n2 then n1 else mode == .rdn

/-- The rounded sum of two values (R93, R97): the shared end of addition and of the FMA forms. -/
def sumFVal (f : IeeeFmt) (mode : RMode) : FVal → FVal → FRes
  | .nan, _ => invalid f
  | _, .nan => invalid f
  | .inf n1, .inf n2 => if n1 = n2 then ⟨f.inf n1, 0⟩ else invalid f
  | .inf n1, .fin .. => ⟨f.inf n1, 0⟩
  | .fin .., .inf n2 => ⟨f.inf n2, 0⟩
  | .fin n1 m1 e1, .fin n2 m2 e2 =>
    let e := if e1 ≤ e2 then e1 else e2
    let v := signed n1 (m1 * 2 ^ (e1 - e).toNat) + signed n2 (m2 * 2 ^ (e2 - e).toNat)
    if v = 0 then
      ⟨f.zero (zeroSumSign mode n1 n2), 0⟩
    else roundFin f mode (decide (v < 0)) v.natAbs e false

/-- The exact product of two values; `nan` for 0 × ∞. -/
def mulFVal : FVal → FVal → FVal
  | .nan, _ => .nan
  | _, .nan => .nan
  | .inf n1, .inf n2 => .inf (n1 != n2)
  | .inf n1, .fin n2 m _ => if m = 0 then .nan else .inf (n1 != n2)
  | .fin n1 m _, .inf n2 => if m = 0 then .nan else .inf (n1 != n2)
  | .fin n1 m1 e1, .fin n2 m2 e2 => .fin (n1 != n2) (m1 * m2) (e1 + e2)

/-- A value with its sign flipped. -/
def negFVal : FVal → FVal
  | .nan => .nan
  | .inf n => .inf !n
  | .fin n m e => .fin (!n) m e

/-- A value rounded to a format (R93); a NaN is an invalid operation here. -/
def roundFVal (f : IeeeFmt) (mode : RMode) : FVal → FRes
  | .nan => invalid f
  | .inf n => ⟨f.inf n, 0⟩
  | .fin n m e => roundFin f mode n m e false

/-- Addition (R124). -/
def fpAdd (f : IeeeFmt) (mode : RMode) (a b : Nat) : FRes :=
  orNaN f [a, b] (sumFVal f mode (fval f a) (fval f b))
/-- Subtraction (R124). -/
def fpSub (f : IeeeFmt) (mode : RMode) (a b : Nat) : FRes :=
  orNaN f [a, b] (sumFVal f mode (fval f a) (negFVal (fval f b)))
/-- Multiplication (R124). -/
def fpMul (f : IeeeFmt) (mode : RMode) (a b : Nat) : FRes :=
  orNaN f [a, b] (roundFVal f mode (mulFVal (fval f a) (fval f b)))

/-- Division of two values (R124). -/
def divFVal (f : IeeeFmt) (mode : RMode) : FVal → FVal → FRes
  | .nan, _ => invalid f
  | _, .nan => invalid f
  | .inf _, .inf _ => invalid f
  | .inf n1, .fin n2 _ _ => ⟨f.inf (n1 != n2), 0⟩
  | .fin n1 _ _, .inf n2 => ⟨f.zero (n1 != n2), 0⟩
  | .fin n1 m1 e1, .fin n2 m2 e2 =>
    if m2 = 0 then (if m1 = 0 then invalid f else ⟨f.inf (n1 != n2), flDZ⟩)
    else if m1 = 0 then ⟨f.zero (n1 != n2), 0⟩
    else
      let k := (f.mbits + 4 + bitLen m2) - bitLen m1
      roundFin f mode (n1 != n2) (m1 * 2 ^ k / m2) (e1 - e2 - (k : Int)) (m1 * 2 ^ k % m2 != 0)

/-- Division (R124). -/
def fpDiv (f : IeeeFmt) (mode : RMode) (a b : Nat) : FRes :=
  orNaN f [a, b] (divFVal f mode (fval f a) (fval f b))

/-- The integer square root, one result bit per unit of fuel. -/
def isqrtLoop (n : Nat) : Nat → Nat → Nat
  | 0, r => r
  | k + 1, r =>
    let r' := r + 2 ^ k
    isqrtLoop n k (if r' * r' ≤ n then r' else r)
/-- The integer square root. -/
def isqrt (n : Nat) : Nat := isqrtLoop n (bitLen n / 2 + 1) 0

/-- Square root of a value (R124): √-0 = -0. -/
def sqrtFVal (f : IeeeFmt) (mode : RMode) : FVal → FRes
  | .nan => invalid f
  | .inf n => if n then invalid f else ⟨f.inf false, 0⟩
  | .fin n m e =>
    if m = 0 then ⟨f.zero n, 0⟩
    else if n then invalid f
    else
      let k := 2 * (f.mbits + 4)
      let odd := (e % 2).toNat
      let m' := m * 2 ^ (k + odd)
      let r := isqrt m'
      roundFin f mode false r ((e - (odd : Int)) / 2 - ((f.mbits + 4 : Nat) : Int)) (r * r != m')

/-- Square root (R124). -/
def fpSqrt (f : IeeeFmt) (mode : RMode) (a : Nat) : FRes := orNaN f [a] (sqrtFVal f mode (fval f a))

/-- `±(a × b) ± c`, rounded once (R128): NV is raised for 0 × ∞ even beside a quiet NaN c. -/
def fpFma (f : IeeeFmt) (mode : RMode) (negProd negC : Bool) (a b c : Nat) : FRes :=
  let prod := mulFVal (fval f a) (fval f b)
  let badProd := !isNaN f a && !isNaN f b && prod == .nan
  match firstNaN f [a, b, c] with
  | some n => ⟨n, snanFlag f [a, b, c] ||| flagIf badProd flNV⟩
  | none =>
    if badProd then invalid f
    else sumFVal f mode (if negProd then negFVal prod else prod) (if negC then negFVal (fval f c) else fval f c)

/-- A pattern as an ordered integer, -0 below +0, for numbers (R125). -/
def orderKey (f : IeeeFmt) (x : Nat) : Int :=
  if signBit f x then -((x - f.signWeight : Nat) : Int) - 1 else (x : Int)

/-- Which operand a selection returns: `false` is a, `true` is b (R125, R79). -/
def selectsB (f : IeeeFmt) (wantMax propagate : Bool) (a b : Nat) : Bool :=
  if isNaN f a then (if isNaN f b then false else !propagate)
  else if isNaN f b then propagate
  else if wantMax then decide (orderKey f b > orderKey f a) else decide (orderKey f b < orderKey f a)

/-- Minimum and maximum in the two NaN rules (R125). -/
def fpSelect (f : IeeeFmt) (wantMax propagate : Bool) (a b : Nat) : FRes :=
  let x := if selectsB f wantMax propagate a b then b else a
  ⟨if isNaN f x then quiet f x else x, snanFlag f [a, b]⟩

/-- Rounding to an integral value in the same format (R126): no NX. -/
def fpRnd (f : IeeeFmt) (mode : RMode) (a : Nat) : FRes :=
  match fval f a with
  | .nan => ⟨quiet f a, snanFlag f [a]⟩
  | .inf _ => ⟨a, 0⟩
  | .fin n m e =>
    if e ≥ 0 then ⟨a, 0⟩
    else
      let r := (roundShift mode n m (-e).toNat false).1
      ⟨(roundFin f .rne n r 0 false).bits, 0⟩

/-- The one-hot class mask of R127. -/
def fpClass (f : IeeeFmt) (a : Nat) : Nat :=
  let n := signBit f a
  2 ^ (if isNaN f a then (if isSNaN f a then 8 else 9)
    else if isInf f a then (if n then 0 else 7)
    else if isZero f a then (if n then 3 else 4)
    else if expField f a = 0 then (if n then 2 else 5)
    else (if n then 1 else 6))

/-- The order of two values (R140): `none` is unordered; -0 and +0 are equal. -/
def fcmp : FVal → FVal → Option Ordering
  | .nan, _ => none
  | _, .nan => none
  | .inf n1, .inf n2 => some (if n1 = n2 then .eq else if n1 then .lt else .gt)
  | .inf n1, .fin .. => some (if n1 then .lt else .gt)
  | .fin .., .inf n2 => some (if n2 then .gt else .lt)
  | .fin n1 m1 e1, .fin n2 m2 e2 =>
    let e := if e1 ≤ e2 then e1 else e2
    let x := signed n1 (m1 * 2 ^ (e1 - e).toNat)
    let y := signed n2 (m2 * 2 ^ (e2 - e).toNat)
    some (if x < y then .lt else if x = y then .eq else .gt)

/-- The truth of a compare of R140 by its fn code, and NV. -/
def fpCompare (f : IeeeFmt) (fn a b : Nat) : Bool × Word :=
  let o := fcmp (fval f a) (fval f b)
  let lt := o == some .lt
  let eq := o == some .eq
  let gt := o == some .gt
  let un := o == none
  let r : Bool :=
    if fn = 0 then eq else if fn = 1 then lt || gt else if fn = 2 then lt else if fn = 3 then lt || eq
    else if fn = 4 then gt else if fn = 5 then gt || eq else if fn = 6 then un || eq else if fn = 7 then un || lt || gt
    else if fn = 8 then un || lt else if fn = 9 then un || lt || eq else if fn = 10 then un || gt
    else if fn = 11 then un || gt || eq else if fn = 12 then !un else un
  (r, if 2 ≤ fn ∧ fn ≤ 5 then flagIf un flNV else snanFlag f [a, b])

/-- A NaN carried to another IEEE format (R91). -/
def nanConvert (src dst : IeeeFmt) (a : Nat) : Nat :=
  let q := fracField src (quiet src a)
  let fr := if dst.mbits ≥ src.mbits then q * 2 ^ (dst.mbits - src.mbits) else q / 2 ^ (src.mbits - dst.mbits)
  (signBit src a).toNat * dst.signWeight + dst.topExp * 2 ^ dst.mbits + fr

/-- A conversion between IEEE formats (R91, R135). -/
def fpConvert (src dst : IeeeFmt) (mode : RMode) (a : Nat) : FRes :=
  if isNaN src a then ⟨nanConvert src dst a, snanFlag src [a]⟩ else roundFVal dst mode (fval src a)

/-- The tapered formats: width and exponent bits (R99). -/
structure ZFmt where
  n : Nat
  es : Nat
deriving DecidableEq, Repr

/-- Z8. -/
def z8 : ZFmt := ⟨8, 2⟩
/-- Z6. -/
def z6 : ZFmt := ⟨6, 1⟩

/-- The pattern NaR. -/
def ZFmt.nar (z : ZFmt) : Nat := 2 ^ (z.n - 1)
/-- The pattern of maxpos. -/
def ZFmt.maxpos (z : ZFmt) : Nat := 2 ^ (z.n - 1) - 1

/-- The length of the leading run of bits equal to `b` in the low `k` bits of `x`, from the top. -/
def leadRun (x : Nat) (b : Bool) : Nat → Nat
  | 0 => 0
  | k + 1 => if decide (x / 2 ^ k % 2 = 1) = b then leadRun x b k + 1 else 0

/-- `decode_z` of R100. -/
def zval (z : ZFmt) (p0 : Nat) : FVal :=
  let p := p0 % 2 ^ z.n
  if p = 0 then .fin false 0 0
  else if p = z.nar then .nan
  else
    let neg := decide (p ≥ z.nar)
    let q := if neg then 2 ^ z.n - p else p
    let k := z.n - 1
    let one := decide (q / 2 ^ (k - 1) % 2 = 1)
    let run := leadRun q one k
    let reg : Int := if one then (run : Int) - 1 else -(run : Int)
    let rem := k - (run + 1)
    let tail := q % 2 ^ rem
    let ebits := if rem ≥ z.es then tail / 2 ^ (rem - z.es) else tail * 2 ^ (z.es - rem)
    let fb := rem - z.es
    .fin neg (2 ^ fb + tail % 2 ^ fb) (reg * ((2 ^ z.es : Nat) : Int) + (ebits : Int) - (fb : Int))

/-- `round_z` of R101 on (-1)^neg · v, v as in `roundFin`. -/
def roundZ (z : ZFmt) (neg : Bool) (m : Nat) (e : Int) (sticky : Bool) : FRes :=
  if m = 0 then ⟨0, 0⟩
  else
    let len := bitLen m
    let top : Int := (len : Int) - 1 + e
    let us : Int := ((2 ^ z.es : Nat) : Int)
    let maxTop : Int := us * ((z.n : Int) - 2)
    let k := z.n - 1
    let sgn := fun (q : Nat) => if neg then 2 ^ z.n - q else q
    if top > maxTop ∨ (top = maxTop ∧ (m ≠ 2 ^ (len - 1) ∨ sticky = true)) then ⟨sgn z.maxpos, flZS ||| flNX⟩
    else
      let reg := top.fdiv us
      let ex := (top - reg * us).toNat
      let frac := m - 2 ^ (len - 1)
      -- S: regime, exponent bits and fraction bits, as an integer of `total` bits
      let regLen := if reg ≥ 0 then reg.toNat + 2 else (-reg).toNat + 1
      let regBits := if reg ≥ 0 then 2 ^ (reg.toNat + 2) - 2 else 1
      let total := regLen + z.es + (len - 1)
      let body := (regBits * 2 ^ z.es + ex) * 2 ^ (len - 1) + frac
      let pad := (k + 1) - total
      let body' := body * 2 ^ pad
      let sh := total + pad - k
      let q := body' / 2 ^ sh
      let r := body' % 2 ^ sh
      let up := decide (2 * r > 2 ^ sh) || (decide (2 * r = 2 ^ sh) && (sticky || q % 2 == 1))
      let q1 := if up then q + 1 else q
      let q2 := if q1 = 0 then 1 else q1
      ⟨sgn q2, flagIf (r != 0 || sticky) flNX⟩

/-- A value into a tapered format (R103): NaN and infinities become NaR. -/
def zOfFVal (z : ZFmt) : FVal → FRes
  | .nan => ⟨z.nar, 0⟩
  | .inf _ => ⟨z.nar, 0⟩
  | .fin n m e => roundZ z n m e false

/-- A pattern of an IEEE format into a tapered format (R103). -/
def zOfIeee (z : ZFmt) (f : IeeeFmt) (a : Nat) : FRes :=
  let r := zOfFVal z (fval f a)
  ⟨r.bits, r.flags ||| snanFlag f [a]⟩

/-- A tapered pattern into an IEEE format (R103). -/
def ieeeOfZ (z : ZFmt) (f : IeeeFmt) (mode : RMode) (a : Nat) : FRes :=
  match zval z a with
  | .nan => ⟨f.canonNaN, 0⟩
  | .inf n => ⟨f.inf n, 0⟩
  | .fin n m e => roundFin f mode n m e false

/-- A tapered pattern as a two's-complement integer (R102). -/
def zSigned (z : ZFmt) (a : Nat) : Int :=
  let p := a % 2 ^ z.n
  if p ≥ z.nar then (p : Int) - ((2 ^ z.n : Nat) : Int) else (p : Int)

/-- The least and the largest integer of a width, signed or not. -/
def intLo (width : Nat) (sgn : Bool) : Int := if sgn then -((2 ^ (width - 1) : Nat) : Int) else 0
/-- See `intLo`. -/
def intHi (width : Nat) (sgn : Bool) : Int := if sgn then ((2 ^ (width - 1) : Nat) : Int) - 1 else ((2 ^ width : Nat) : Int) - 1
/-- An integer as a pattern of a width, modulo 2^width. -/
def intBits (width : Nat) (v : Int) : Nat := (v % ((2 ^ width : Nat) : Int)).toNat
/-- A pattern of a width as an integer. -/
def intOfBits (width : Nat) (sgn : Bool) (x : Nat) : Int :=
  let y := x % 2 ^ width
  if sgn && decide (y ≥ 2 ^ (width - 1)) then (y : Int) - ((2 ^ width : Nat) : Int) else (y : Int)

/-- A value into an integer format (R109). -/
def intOfFVal (width : Nat) (sgn : Bool) (mode : RMode) : FVal → FRes
  | .nan => ⟨0, flNV⟩
  | .inf n => ⟨intBits width (if n then intLo width sgn else intHi width sgn), flNV⟩
  | .fin n m e =>
    let r := if e ≥ 0 then (m * 2 ^ e.toNat, false) else roundShift mode n m (-e).toNat false
    let v := signed n r.1
    if v < intLo width sgn then ⟨intBits width (intLo width sgn), flNV⟩
    else if v > intHi width sgn then ⟨intBits width (intHi width sgn), flNV⟩
    else ⟨intBits width v, flagIf r.2 flNX⟩

/-- An integer as a value. -/
def fvalOfInt (v : Int) : FVal := .fin (decide (v < 0)) v.natAbs 0

/-- An integer clipped to a format (R136). -/
def clipInt (width : Nat) (sgn : Bool) (v : Int) : Int :=
  if v < intLo width sgn then intLo width sgn else if v > intHi width sgn then intHi width sgn else v

/-- A format of the conversion table of R46. -/
inductive CvtFmt where
  | ieee (f : IeeeFmt)
  | z (f : ZFmt)
  | int (width : Nat) (sgn : Bool)
deriving DecidableEq, Repr

/-- The format of a code of R46; codes above 9 are refused before. -/
def cvtFmt (code : Nat) : CvtFmt :=
  if code = 0 then .ieee b64 else if code = 1 then .ieee b32 else if code = 2 then .ieee b16
  else if code = 3 then .ieee bf16 else if code = 4 then .z z8 else if code = 5 then .z z6
  else if code = 6 then .int 32 true else if code = 7 then .int 32 false
  else if code = 8 then .int 64 true else .int 64 false

/-- Whether a format code of R46 uses a pair. -/
def cvtWide (code : Nat) : Bool := code == 0 || code == 8 || code == 9

/-- The conversion of R134-R136 on bit patterns, the narrow bits already cut out. -/
def convert (src dst : CvtFmt) (mode : RMode) (a : Nat) : FRes :=
  match src, dst with
  | .ieee f, .ieee g => fpConvert f g mode (a % 2 ^ f.width)
  | .ieee f, .z z => zOfIeee z f (a % 2 ^ f.width)
  | .ieee f, .int w sgn =>
    let x := a % 2 ^ f.width
    intOfFVal w sgn mode (fval f x)
  | .z z, .ieee f => ieeeOfZ z f mode a
  | .z z, .z y => zOfFVal y (zval z a)
  | .z z, .int w sgn => intOfFVal w sgn mode (zval z a)
  | .int w sgn, .ieee f => roundFVal f mode (fvalOfInt (intOfBits w sgn a))
  | .int w sgn, .z z => zOfFVal z (fvalOfInt (intOfBits w sgn a))
  | .int w sgn, .int w' sgn' => ⟨intBits w' (clipInt w' sgn' (intOfBits w sgn a)), 0⟩

/-- binary32 of a value of which the rounding is RNE (R96). -/
def rne32 (v : FVal) : FRes := roundFVal b32 .rne v

/-- `round_acc26` of R105 on a value: a value is again given back, with OVF and UNF as OF and UF. -/
def roundAcc26 : FVal → FVal × Word
  | .nan => (.nan, 0)
  | .inf n => (.inf n, 0)
  | .fin n m e =>
    if m = 0 then (.fin false 0 0, 0)
    else
      let len := bitLen m
      let sh := len - 18
      let q := (roundShift .rne n m sh false).1
      let e' := e + (sh : Int)
      let top : Int := (bitLen q : Int) - 1 + e'
      if top ≥ 128 then (.inf n, flOF)
      else if top < -126 then (.fin n 0 0, flUF)
      else (.fin n q e', 0)

/-- The exact sum of two values: `nan` for opposite infinities; an exact zero takes its sign by R93. -/
def addFVal (mode : RMode) : FVal → FVal → FVal
  | .nan, _ => .nan
  | _, .nan => .nan
  | .inf n1, .inf n2 => if n1 = n2 then .inf n1 else .nan
  | .inf n1, .fin .. => .inf n1
  | .fin .., .inf n2 => .inf n2
  | .fin n1 m1 e1, .fin n2 m2 e2 =>
    let e := if e1 ≤ e2 then e1 else e2
    let v := signed n1 (m1 * 2 ^ (e1 - e).toNat) + signed n2 (m2 * 2 ^ (e2 - e).toNat)
    .fin (if v = 0 then zeroSumSign mode n1 n2 else decide (v < 0)) v.natAbs e

end Sys2Proof.Machine
end

