-- ==== Sys2Proof/Syntax.lean ====
section
/-! DEFINITION. The instructions and events of the Fliuz 9: one constructor for each row of
spec/opcode_table.json. The first 237 rows are 32-bit instruction words; their arguments are the
word's fields, each as wide as the encoding makes it (R34, R44-R47). The other rows are events that
have no encoding (spec/95_what_each_step_holds.md): the acts of the host, the Hive, the engines and the
memory system; their arguments name the object they act on. Cores and threads are named by their
global numbers (`Sys2Proof.coreNo`, `Sys2Proof.threadNo`, assumption 12). -/

namespace Sys2Proof

/-- One step of the part: an instruction word, or an event. -/
inductive Instr where
  /-- IADD (R114): Adds two 32-bit registers modulo 2^32 with zero tangents. -/
  | iadd (d a b : BitVec 6) (n : Bool) (p : BitVec 3)
  /-- ISUB (R114): Subtracts two 32-bit registers modulo 2^32. -/
  | isub (d a b : BitVec 6) (n : Bool) (p : BitVec 3)
  /-- IMUL (R114): Writes the low 32 bits of a product. -/
  | imul (d a b : BitVec 6) (n : Bool) (p : BitVec 3)
  /-- IMULH (R114): Writes the high 32 bits of the signed product. -/
  | imulh (d a b : BitVec 6) (n : Bool) (p : BitVec 3)
  /-- IMULHU (R114): Writes the high 32 bits of the unsigned product. -/
  | imulhu (d a b : BitVec 6) (n : Bool) (p : BitVec 3)
  /-- AND (R114): Bitwise AND of two registers. -/
  | and (d a b : BitVec 6) (n : Bool) (p : BitVec 3)
  /-- OR (R114): Bitwise OR of two registers. -/
  | or (d a b : BitVec 6) (n : Bool) (p : BitVec 3)
  /-- XOR (R114): Bitwise XOR of two registers. -/
  | xor (d a b : BitVec 6) (n : Bool) (p : BitVec 3)
  /-- ANDN (R114): a AND NOT b. -/
  | andn (d a b : BitVec 6) (n : Bool) (p : BitVec 3)
  /-- SHL (R114): Shifts left by b[4:0]. -/
  | shl (d a b : BitVec 6) (n : Bool) (p : BitVec 3)
  /-- SHR (R114): Logical shift right by b[4:0]. -/
  | shr (d a b : BitVec 6) (n : Bool) (p : BitVec 3)
  /-- SRA (R114): Arithmetic shift right by b[4:0]. -/
  | sra (d a b : BitVec 6) (n : Bool) (p : BitVec 3)
  /-- ROTL (R114): Rotates left by b[4:0]. -/
  | rotl (d a b : BitVec 6) (n : Bool) (p : BitVec 3)
  /-- MIN (R114): Signed minimum of two registers. -/
  | min (d a b : BitVec 6) (n : Bool) (p : BitVec 3)
  /-- MAX (R114): Signed maximum of two registers. -/
  | max (d a b : BitVec 6) (n : Bool) (p : BitVec 3)
  /-- ABSD (R114): Absolute signed difference modulo 2^32. -/
  | absd (d a b : BitVec 6) (n : Bool) (p : BitVec 3)
  /-- MINU (R115): Unsigned minimum. -/
  | minu (d a b : BitVec 6) (n : Bool) (p : BitVec 3)
  /-- MAXU (R115): Unsigned maximum. -/
  | maxu (d a b : BitVec 6) (n : Bool) (p : BitVec 3)
  /-- POPC (R115): Counts set bits of a. -/
  | popc (d a : BitVec 6) (n : Bool) (p : BitVec 3)
  /-- CLZ (R115): Counts leading zeros of a. -/
  | clz (d a : BitVec 6) (n : Bool) (p : BitVec 3)
  /-- CTZ (R115): Counts trailing zeros of a. -/
  | ctz (d a : BitVec 6) (n : Bool) (p : BitVec 3)
  /-- BREV (R115): Reverses the bits of a. -/
  | brev (d a : BitVec 6) (n : Bool) (p : BitVec 3)
  /-- BFX (R116): Extracts a zero-extended bit field. -/
  | bfx (d a b : BitVec 6) (n : Bool) (p : BitVec 3)
  /-- BFI (R116): Inserts a bit field into the old destination. -/
  | bfi (d a b : BitVec 6) (n : Bool) (p : BitVec 3)
  /-- SEL (R117): Selects a or b by a predicate in every thread, carrying tangents. -/
  | sel (d a b : BitVec 6) (n : Bool) (s : BitVec 3)
  /-- LEA (R118): Writes a + (b << 2). -/
  | lea (d a b : BitVec 6) (n : Bool) (p : BitVec 3)
  /-- IDIV (R115): Signed quotient with R108 corner cases. -/
  | idiv (d a b : BitVec 6) (n : Bool) (p : BitVec 3)
  /-- IDIVU (R115): Unsigned quotient. -/
  | idivu (d a b : BitVec 6) (n : Bool) (p : BitVec 3)
  /-- IREM (R115): Signed remainder. -/
  | irem (d a b : BitVec 6) (n : Bool) (p : BitVec 3)
  /-- IREMU (R115): Unsigned remainder. -/
  | iremu (d a b : BitVec 6) (n : Bool) (p : BitVec 3)
  /-- IADD64 (R119): 64-bit add of pairs. -/
  | iadd64 (d a b : BitVec 6) (n : Bool) (p : BitVec 3)
  /-- ISUB64 (R119): 64-bit subtract of pairs. -/
  | isub64 (d a b : BitVec 6) (n : Bool) (p : BitVec 3)
  /-- SHL64 (R119): 64-bit shift left by b[5:0]. -/
  | shl64 (d a b : BitVec 6) (n : Bool) (p : BitVec 3)
  /-- SHR64 (R119): 64-bit logical shift right. -/
  | shr64 (d a b : BitVec 6) (n : Bool) (p : BitVec 3)
  /-- SRA64 (R119): 64-bit arithmetic shift right. -/
  | sra64 (d a b : BitVec 6) (n : Bool) (p : BitVec 3)
  /-- MOV64 (R119): Copies a pair with its tangents. -/
  | mov64 (d a : BitVec 6) (n : Bool) (p : BitVec 3)
  /-- LEA64 (R119): Pair a plus sign-extended b shifted by 2. -/
  | lea64 (d a b : BitVec 6) (n : Bool) (p : BitVec 3)
  /-- IMUL64 (R119): Low 64 bits of a 64-bit product. -/
  | imul64 (d a b : BitVec 6) (n : Bool) (p : BitVec 3)
  /-- IMAD (R120): Writes the low 32 bits of a*b + c. -/
  | imad (d a b c : BitVec 6) (n p : Bool)
  /-- IADDI (R121): Adds a sign-extended 12-bit immediate. -/
  | iaddi (d a : BitVec 6) (i : BitVec 12) (n p : Bool)
  /-- IADDI64 (R121): Adds a sign-extended immediate to a pair. -/
  | iaddi64 (d a : BitVec 6) (i : BitVec 12) (n p : Bool)
  /-- ANDI (R121): AND with a sign-extended immediate. -/
  | andi (d a : BitVec 6) (i : BitVec 12) (n p : Bool)
  /-- ORI (R121): OR with a sign-extended immediate. -/
  | ori (d a : BitVec 6) (i : BitVec 12) (n p : Bool)
  /-- XORI (R121): XOR with a sign-extended immediate. -/
  | xori (d a : BitVec 6) (i : BitVec 12) (n p : Bool)
  /-- SHFI (R122): Shifts by a constant of the kind and amount in its immediate. -/
  | shfi (d a : BitVec 6) (k : BitVec 4) (m : BitVec 6) (n p : Bool)
  /-- LUI (R123): Writes imm20 << 12. -/
  | lui (d : BitVec 6) (i : BitVec 20)
  /-- AUIPC (R123): Writes the pair PC + sext(imm20 << 12). -/
  | auipc (d : BitVec 6) (i : BitVec 20)
  /-- FADD (R124): binary32 add, rounded in FCR.RM. -/
  | fadd (d a b : BitVec 6) (n : Bool) (p : BitVec 3)
  /-- FSUB (R124): binary32 subtract. -/
  | fsub (d a b : BitVec 6) (n : Bool) (p : BitVec 3)
  /-- FMUL (R124): binary32 multiply. -/
  | fmul (d a b : BitVec 6) (n : Bool) (p : BitVec 3)
  /-- FDIV (R124): binary32 divide. -/
  | fdiv (d a b : BitVec 6) (n : Bool) (p : BitVec 3)
  /-- FSQRT (R124): binary32 square root. -/
  | fsqrt (d a : BitVec 6) (n : Bool) (p : BitVec 3)
  /-- FMIN (R125): binary32 minimumNumber. -/
  | fmin (d a b : BitVec 6) (n : Bool) (p : BitVec 3)
  /-- FMAX (R125): binary32 maximumNumber. -/
  | fmax (d a b : BitVec 6) (n : Bool) (p : BitVec 3)
  /-- FMINM (R125): binary32 IEEE minimum. -/
  | fminm (d a b : BitVec 6) (n : Bool) (p : BitVec 3)
  /-- FMAXM (R125): binary32 IEEE maximum. -/
  | fmaxm (d a b : BitVec 6) (n : Bool) (p : BitVec 3)
  /-- FABS (R124): Clears the sign bit. -/
  | fabs (d a : BitVec 6) (n : Bool) (p : BitVec 3)
  /-- FNEG (R124): Flips the sign bit. -/
  | fneg (d a : BitVec 6) (n : Bool) (p : BitVec 3)
  /-- FCPYS (R124): Magnitude of a with the sign of b. -/
  | fcpys (d a b : BitVec 6) (n : Bool) (p : BitVec 3)
  /-- FRND (R126): Rounds binary32 to an integral value in a selected mode. -/
  | frnd (d a : BitVec 6) (m : BitVec 2) (n : Bool) (p : BitVec 3)
  /-- FCLASS (R127): Writes a one-hot class mask. -/
  | fclass (d a : BitVec 6) (n : Bool) (p : BitVec 3)
  /-- FFMA (R128): binary32 fused a*b + c, rounded once. -/
  | ffma (d a b c : BitVec 6) (n p : Bool)
  /-- FFMS (R128): binary32 fused a*b - c. -/
  | ffms (d a b c : BitVec 6) (n p : Bool)
  /-- FFNMA (R128): binary32 fused c - a*b. -/
  | ffnma (d a b c : BitVec 6) (n p : Bool)
  /-- DADD (R124): binary64 add of pairs. -/
  | dadd (d a b : BitVec 6) (n : Bool) (p : BitVec 3)
  /-- DSUB (R124): binary64 subtract. -/
  | dsub (d a b : BitVec 6) (n : Bool) (p : BitVec 3)
  /-- DMUL (R124): binary64 multiply. -/
  | dmul (d a b : BitVec 6) (n : Bool) (p : BitVec 3)
  /-- DDIV (R124): binary64 divide. -/
  | ddiv (d a b : BitVec 6) (n : Bool) (p : BitVec 3)
  /-- DSQRT (R124): binary64 square root. -/
  | dsqrt (d a : BitVec 6) (n : Bool) (p : BitVec 3)
  /-- DMIN (R125): binary64 minimumNumber. -/
  | dmin (d a b : BitVec 6) (n : Bool) (p : BitVec 3)
  /-- DMAX (R125): binary64 maximumNumber. -/
  | dmax (d a b : BitVec 6) (n : Bool) (p : BitVec 3)
  /-- DMINM (R125): binary64 IEEE minimum. -/
  | dminm (d a b : BitVec 6) (n : Bool) (p : BitVec 3)
  /-- DMAXM (R125): binary64 IEEE maximum. -/
  | dmaxm (d a b : BitVec 6) (n : Bool) (p : BitVec 3)
  /-- DABS (R124): Clears the sign bit of a pair. -/
  | dabs (d a : BitVec 6) (n : Bool) (p : BitVec 3)
  /-- DNEG (R124): Flips the sign bit of a pair. -/
  | dneg (d a : BitVec 6) (n : Bool) (p : BitVec 3)
  /-- DCPYS (R124): binary64 copy-sign. -/
  | dcpys (d a b : BitVec 6) (n : Bool) (p : BitVec 3)
  /-- DRND (R126): Rounds binary64 to an integral value. -/
  | drnd (d a : BitVec 6) (m : BitVec 2) (n : Bool) (p : BitVec 3)
  /-- DCLASS (R127): Class mask of a pair into a single register. -/
  | dclass (d a : BitVec 6) (n : Bool) (p : BitVec 3)
  /-- DFMA (R128): binary64 fused a*b + c. -/
  | dfma (d a b c : BitVec 6) (n p : Bool)
  /-- DFMS (R128): binary64 fused a*b - c. -/
  | dfms (d a b c : BitVec 6) (n p : Bool)
  /-- HADD2 (R130): Packed binary16 add. -/
  | hadd2 (d a b : BitVec 6) (n : Bool) (p : BitVec 3)
  /-- HSUB2 (R130): Packed binary16 subtract. -/
  | hsub2 (d a b : BitVec 6) (n : Bool) (p : BitVec 3)
  /-- HMUL2 (R130): Packed binary16 multiply. -/
  | hmul2 (d a b : BitVec 6) (n : Bool) (p : BitVec 3)
  /-- HMIN2 (R130): Packed binary16 minimumNumber. -/
  | hmin2 (d a b : BitVec 6) (n : Bool) (p : BitVec 3)
  /-- HMAX2 (R130): Packed binary16 maximumNumber. -/
  | hmax2 (d a b : BitVec 6) (n : Bool) (p : BitVec 3)
  /-- HABS2 (R130): Clears the sign of each binary16 element. -/
  | habs2 (d a : BitVec 6) (n : Bool) (p : BitVec 3)
  /-- HNEG2 (R130): Flips the sign of each binary16 element. -/
  | hneg2 (d a : BitVec 6) (n : Bool) (p : BitVec 3)
  /-- HFMA2 (R130): Packed binary16 fused multiply-add. -/
  | hfma2 (d a b c : BitVec 6) (n p : Bool)
  /-- VADD_H2 (R131): Packed 16-bit wrapping add. -/
  | vaddH2 (d a b : BitVec 6) (n : Bool) (p : BitVec 3)
  /-- VSUB_H2 (R131): Packed 16-bit wrapping subtract. -/
  | vsubH2 (d a b : BitVec 6) (n : Bool) (p : BitVec 3)
  /-- VADDS_H2 (R131): Packed 16-bit saturating add. -/
  | vaddsH2 (d a b : BitVec 6) (n : Bool) (p : BitVec 3)
  /-- VSUBS_H2 (R131): Packed 16-bit saturating subtract. -/
  | vsubsH2 (d a b : BitVec 6) (n : Bool) (p : BitVec 3)
  /-- VMAX_H2 (R131): Packed 16-bit signed maximum. -/
  | vmaxH2 (d a b : BitVec 6) (n : Bool) (p : BitVec 3)
  /-- VMIN_H2 (R131): Packed 16-bit signed minimum. -/
  | vminH2 (d a b : BitVec 6) (n : Bool) (p : BitVec 3)
  /-- ACS_H2 (R132): Trellis add-compare-select that also shifts two decisions into SURV. -/
  | acsH2 (d a b : BitVec 6) (n : Bool) (p : BitVec 3)
  /-- FEXP2 (R133): Correctly rounded 2^a. -/
  | fexp2 (d a : BitVec 6) (n : Bool) (p : BitVec 3)
  /-- FLOG2 (R133): Correctly rounded log2 a. -/
  | flog2 (d a : BitVec 6) (n : Bool) (p : BitVec 3)
  /-- FSIN (R133): Correctly rounded sine. -/
  | fsin (d a : BitVec 6) (n : Bool) (p : BitVec 3)
  /-- FCOS (R133): Correctly rounded cosine. -/
  | fcos (d a : BitVec 6) (n : Bool) (p : BitVec 3)
  /-- FRCP (R133): Correctly rounded reciprocal. -/
  | frcp (d a : BitVec 6) (n : Bool) (p : BitVec 3)
  /-- FRSQ (R133): Correctly rounded reciprocal square root. -/
  | frsq (d a : BitVec 6) (n : Bool) (p : BitVec 3)
  /-- FTANH (R133): Correctly rounded tanh. -/
  | ftanh (d a : BitVec 6) (n : Bool) (p : BitVec 3)
  /-- CVT (R135): Converts a between the formats named by fn and b in the selected mode. -/
  | cvt (d a : BitVec 6) (s : BitVec 4) (m : BitVec 2) (f : BitVec 4) (n : Bool) (p : BitVec 3)
  /-- ZPACK_Z8 (R137): Rounds two binary32 values into Z8 bytes. -/
  | zpackZ8 (d a b : BitVec 6) (n : Bool) (p : BitVec 3)
  /-- ZPACK_Z6 (R137): Rounds two binary32 values into Z6 fields. -/
  | zpackZ6 (d a b : BitVec 6) (n : Bool) (p : BitVec 3)
  /-- ZUNPK_Z8 (R137): Widens a Z8 value exactly to binary32. -/
  | zunpkZ8 (d a : BitVec 6) (n : Bool) (p : BitVec 3)
  /-- ZUNPK_Z6 (R137): Widens a Z6 value exactly to binary32. -/
  | zunpkZ6 (d a : BitVec 6) (n : Bool) (p : BitVec 3)
  /-- ZSCALE (R138): Scales a binary32 value by an E8 code. -/
  | zscale (d a b : BitVec 6) (n : Bool) (p : BitVec 3)
  /-- CMPI (R139): Integer compare writing a predicate. -/
  | cmpi (d a b : BitVec 6) (f : BitVec 4) (n : Bool) (p : BitVec 3)
  /-- CMPF (R140): binary32 compare writing a predicate. -/
  | cmpf (d a b : BitVec 6) (f : BitVec 4) (n : Bool) (p : BitVec 3)
  /-- CMPD (R140): binary64 compare writing a predicate. -/
  | cmpd (d a b : BitVec 6) (f : BitVec 4) (n : Bool) (p : BitVec 3)
  /-- CMPH2 (R141): Compares two packed binary16 elements into two predicates. -/
  | cmph2 (d a b : BitVec 6) (f : BitVec 3) (n : Bool) (p : BitVec 3)
  /-- CMPZ (R141): Compares Z8 or Z6 patterns as signed integers. -/
  | cmpz (d a b : BitVec 6) (f : BitVec 3) (n : Bool) (p : BitVec 3)
  /-- PAND (R142): Predicate AND. -/
  | pand (d a b : BitVec 6) (n : Bool) (p : BitVec 3)
  /-- POR (R142): Predicate OR. -/
  | por (d a b : BitVec 6) (n : Bool) (p : BitVec 3)
  /-- PXOR (R142): Predicate XOR. -/
  | pxor (d a b : BitVec 6) (n : Bool) (p : BitVec 3)
  /-- PNOT (R142): Predicate NOT. -/
  | pnot (d a : BitVec 6) (n : Bool) (p : BitVec 3)
  /-- PMOV (R142): Predicate copy. -/
  | pmov (d a : BitVec 6) (n : Bool) (p : BitVec 3)
  /-- PSET (R142): Sets a predicate from register a being nonzero. -/
  | pset (d a : BitVec 6) (n : Bool) (p : BitVec 3)
  /-- GSET (R231): Resolves a crew guard slot from a predicate. -/
  | gset (d a : BitVec 6) (n : Bool) (p : BitVec 3)
  /-- GSET_OPEN (R231): Returns a crew guard slot to PENDING. -/
  | gsetOpen (d : BitVec 6) (n : Bool) (p : BitVec 3)
  /-- MOV (R143): Copies a register with its tangents. -/
  | mov (d a : BitVec 6) (n : Bool) (p : BitVec 3)
  /-- SRD (R143): Reads a special register. -/
  | srd (d b : BitVec 6) (n : Bool) (p : BitVec 3)
  /-- SWR (R145): Writes a special register with its checks and effects. -/
  | swr (a b : BitVec 6) (n : Bool) (p : BitVec 3)
  /-- LDK_W (R143): Reads a 32-bit uniform kernel value. -/
  | ldkW (d a : BitVec 6) (n : Bool) (p : BitVec 3)
  /-- LDK_D (R143): Reads a 64-bit uniform kernel value into a pair. -/
  | ldkD (d a : BitVec 6) (n : Bool) (p : BitVec 3)
  /-- TSEED (R147): Copies a primal and seeds one slot with a unit tangent. -/
  | tseed (d a : BitVec 6) (w : Bool) (k : BitVec 3) (n : Bool) (p : BitVec 3)
  /-- TGET (R147): Reads a tangent slot as a primal. -/
  | tget (d a : BitVec 6) (k : BitVec 3) (n : Bool) (p : BitVec 3)
  /-- TSET (R147): Writes one tangent slot of d. -/
  | tset (d a : BitVec 6) (k : BitVec 3) (n : Bool) (p : BitVec 3)
  /-- TZERO (R147): Copies a primal with zero tangents. -/
  | tzero (d a : BitVec 6) (w n : Bool) (p : BitVec 3)
  /-- TMOV (R147): Copies a's tangent slots into d. -/
  | tmov (d a : BitVec 6) (w n : Bool) (p : BitVec 3)
  /-- DEXT (R148): Re-evaluates a dexel to first order at a parameter step. -/
  | dext (d a b : BitVec 6) (n : Bool) (p : BitVec 3)
  /-- FOOT (R149): Computes a texture filter footprint from screen tangents. -/
  | foot (d a : BitVec 6) (n : Bool) (p : BitVec 3)
  /-- MOTV (R150): Reads the motion vector from TIME slots. -/
  | motv (d a : BitVec 6) (n : Bool) (p : BitVec 3)
  /-- LD (R156): Loads from a global or local-aperture address on a counter. -/
  | ld (d a : BitVec 6) (o : BitVec 9) (s k : BitVec 2) (p : Bool)
  /-- ST (R156): Stores a primal to a pair address on a counter. -/
  | st (d a : BitVec 6) (o : BitVec 9) (s k : BitVec 2) (p : Bool)
  /-- LDS (R156): Loads from a local offset. -/
  | lds (d a : BitVec 6) (o : BitVec 9) (s k : BitVec 2) (p : Bool)
  /-- STS (R156): Stores to a local offset. -/
  | sts (d a : BitVec 6) (o : BitVec 9) (s k : BitVec 2) (p : Bool)
  /-- LDT (R85): Loads a whole dexel record. -/
  | ldt (d a : BitVec 6) (o : BitVec 9) (s : Bool) (k : BitVec 2) (p : Bool)
  /-- STT (R85): Stores a whole dexel record. -/
  | stt (d a : BitVec 6) (o : BitVec 9) (s : Bool) (k : BitVec 2) (p : Bool)
  /-- LDC (R157): Reads the constant block through the constant cache. -/
  | ldc (d a : BitVec 6) (o : BitVec 9) (s k : BitVec 2) (p : Bool)
  /-- PRF (R158): Prefetches a line into L1 without faulting. -/
  | prf (a : BitVec 6) (o : BitVec 9) (s : BitVec 2) (p : Bool)
  /-- ATOM (R164): Atomic read-modify-write returning the old value. -/
  | atom (d a b : BitVec 6) (f : BitVec 4) (s : BitVec 3) (p : Bool)
  /-- RED (R164): Atomic reduction returning nothing. -/
  | red (a b : BitVec 6) (f : BitVec 4) (s : BitVec 3) (p : Bool)
  /-- FENCE (R286): Waits until earlier accesses are performed at a scope. -/
  | fence (s : BitVec 3) (n : Bool) (p : BitVec 3)
  /-- WATCH (R289): Arms the thread's watch on a line. -/
  | watch (a : BitVec 6) (n : Bool) (p : BitVec 3)
  /-- WAITM (R289): Waits for the watch to fire or a tick limit. -/
  | waitm (d a : BitVec 6) (n : Bool) (p : BitVec 3)
  /-- BAR (R287): Arrives at a cohort barrier and waits for the phase. -/
  | bar (a : BitVec 6) (s : BitVec 3) (n : Bool) (p : BitVec 3)
  /-- BARA (R287): Releases at a scope and records arrival at a barrier. -/
  | bara (a : BitVec 6) (s : BitVec 3) (n : Bool) (p : BitVec 3)
  /-- BARW (R287): Waits for the phase of an outstanding arrival. -/
  | barw (a : BitVec 6) (n : Bool) (p : BitVec 3)
  /-- SEAL (R280): Returns and advances the open copy batch number. -/
  | seal (d : BitVec 6) (n : Bool) (p : BitVec 3)
  /-- WAITB (R281): Waits for copies of batches up to n to complete. -/
  | waitb (a : BitVec 6) (n : Bool) (p : BitVec 3)
  /-- TRIG (R290): Fences at package scope and marks the thread triggered. -/
  | trig (n : Bool) (p : BitVec 3)
  /-- FLUSHD (R291): Node-wide wait that is a flush point of a deterministic node. -/
  | flushd (n : Bool) (p : BitVec 3)
  /-- LGET_AT (R223): Rendezvous read of a value from an absolute lane. -/
  | lgetAt (d a b : BitVec 6) (n : Bool) (p : BitVec 3)
  /-- LGET_LOWER (R223): Rendezvous read from lane L - k. -/
  | lgetLower (d a b : BitVec 6) (n : Bool) (p : BitVec 3)
  /-- LGET_HIGHER (R223): Rendezvous read from lane L + k. -/
  | lgetHigher (d a b : BitVec 6) (n : Bool) (p : BitVec 3)
  /-- LGET_FLIP (R223): Rendezvous read from lane L XOR k. -/
  | lgetFlip (d a b : BitVec 6) (n : Bool) (p : BitVec 3)
  /-- PUSH (R224): Rendezvous send to a target lane; highest source wins. -/
  | push (d a b : BitVec 6) (n : Bool) (p : BitVec 3)
  /-- VOTE_AND (R227): Rendezvous AND vote of a predicate. -/
  | voteAnd (d a b : BitVec 6) (n : Bool) (p : BitVec 3)
  /-- VOTE_OR (R227): Rendezvous OR vote of a predicate. -/
  | voteOr (d a b : BitVec 6) (n : Bool) (p : BitVec 3)
  /-- VOTE_EQV (R227): Rendezvous equivalence vote. -/
  | voteEqv (d a b : BitVec 6) (n : Bool) (p : BitVec 3)
  /-- BALLOT (R227): Rendezvous gathering a predicate bit per named lane into a pair. -/
  | ballot (d a b : BitVec 6) (n : Bool) (p : BitVec 3)
  /-- BFLY (R225): Rendezvous butterfly exchange in word or half mode. -/
  | bfly (d a b : BitVec 6) (n : Bool) (p : BitVec 3)
  /-- COMPRESS (R226): Rendezvous packing of participants' values. -/
  | compress (d a b : BitVec 6) (n : Bool) (p : BitVec 3)
  /-- EXPAND (R226): Rendezvous spreading of packed values to participants. -/
  | expand (d a b : BitVec 6) (n : Bool) (p : BitVec 3)
  /-- HIST (R228): Increments a lane-private 16-bit histogram bin. -/
  | hist (d a b : BitVec 6) (n : Bool) (p : BitVec 3)
  /-- HMERGE (R229): Rendezvous sum of two 16-bit bins over participants. -/
  | hmerge (d a b : BitVec 6) (n : Bool) (p : BitVec 3)
  /-- OSMX (R230): Folds a value into an online softmax state. -/
  | osmx (d a : BitVec 6) (n : Bool) (p : BitVec 3)
  /-- OSMXF (R230): Merges two online softmax states. -/
  | osmxf (d a : BitVec 6) (n : Bool) (p : BitVec 3)
  /-- BRA (R167): Predicated relative branch with reconvergence point. -/
  | bra (p : BitVec 3) (n : Bool) (t : BitVec 13) (r : BitVec 9)
  /-- CALL (R170): Pushes a frame and calls a relative target. -/
  | call (s : BitVec 26)
  /-- NOP (R173): Does nothing but invalidate its latch. -/
  | nop (n : Bool) (p : BitVec 3)
  /-- YIELD (R173): Ranks the group last at the next selection. -/
  | yield (n : Bool) (p : BitVec 3)
  /-- BRX (R169): Transfers to the address in a pair. -/
  | brx (a : BitVec 6) (n : Bool) (p : BitVec 3)
  /-- CALLI (R170): Pushes a frame and calls the address in a pair. -/
  | calli (a : BitVec 6) (n : Bool) (p : BitVec 3)
  /-- RET (R171): Pops a frame and returns. -/
  | ret (n : Bool) (p : BitVec 3)
  /-- EXIT (R173): Closes loops, waits for counters and ends the thread. -/
  | exit (n : Bool) (p : BitVec 3)
  /-- BRK (R173): Breakpoint: stops the lane under a session or traps. -/
  | brk (a : BitVec 6) (n : Bool) (p : BitVec 3)
  /-- LOOP (R174): Opens a hardware loop with a register count. -/
  | loop (c : BitVec 6) (l : BitVec 8)
  /-- LOOPI (R174): Opens a hardware loop with an immediate count. -/
  | loopi (c : BitVec 12) (l : BitVec 8)
  /-- TRAP (R188): Enters the next trap level with Software Trap. -/
  | trap (a : BitVec 6) (n : Bool) (p : BitVec 3)
  /-- ERET (R185): Returns from the current trap level. -/
  | eret (n : Bool) (p : BitVec 3)
  /-- SRDP (R189): Reads a special or privileged register at level 2. -/
  | srdp (d b : BitVec 6) (n : Bool) (p : BitVec 3)
  /-- SWRP (R189): Writes a special or privileged register at level 2. -/
  | swrp (a b : BitVec 6) (n : Bool) (p : BitVec 3)
  /-- HALT (R190): Ends the thread as a fatal fault and fails the node. -/
  | halt (a : BitVec 6) (n : Bool) (p : BitVec 3)
  /-- FORK (R235): Starts an engine program per crew. -/
  | fork (a b : BitVec 6) (n : Bool) (p : BitVec 3)
  /-- RDVZ (R239): Thread-form rendezvous with engine programs at a point. -/
  | rdvz (a b : BitVec 6) (n : Bool) (p : BitVec 3)
  /-- RDVZ_ENGINE (R239): Engine-form wait at a rendezvous point, optionally ending. -/
  | rdvzEngine (a b : BitVec 6) (n : Bool) (p : BitVec 3)
  /-- MBURST (R240): Starts the Girder ramp-up and opens a window. -/
  | mburst (a : BitVec 6) (n : Bool) (p : BitVec 3)
  /-- CPY_G2S (R277): Per-lane copy from global memory to scratchpad. -/
  | cpyG2s (a b : BitVec 6)
  /-- CPY_S2G (R277): Per-lane copy from scratchpad to global memory. -/
  | cpyS2g (a b : BitVec 6)
  /-- CPY_G2G (R277): Per-lane global-to-global copy. -/
  | cpyG2g (a b : BitVec 6)
  /-- CPY_GATH (R277): Per-lane indexed gather into scratchpad. -/
  | cpyGath (a b : BitVec 6) (v : BitVec 3)
  /-- CPY_FILL (R277): Per-lane fill with a 32-bit pattern. -/
  | cpyFill (a b : BitVec 6)
  /-- CPY_MAP (R282): Binds a scratchpad region to a global range. -/
  | cpyMap (a b : BitVec 6)
  /-- CPY_UNMAP (R284): Writes back and unbinds a region. -/
  | cpyUnmap (b : BitVec 6)
  /-- CPY_WB (R284): Writes back a region's dirty bytes. -/
  | cpyWb (b : BitVec 6)
  /-- MTX_MWLD (R249): Loads a weight tile into a bank. -/
  | mtxMwld (a b : BitVec 6)
  /-- MTX_MWSCL (R250): Loads a bank's column scale codes. -/
  | mtxMwscl (a b : BitVec 6)
  /-- MTX_MSWAP (R251): Toggles or sets the active bank. -/
  | mtxMswap (v : BitVec 3)
  /-- MTX_MSTR (R252): Streams one pass of activation rows into a tile. -/
  | mtxMstr (a b : BitVec 6)
  /-- MTX_MPROM (R255): Sets the promotion interval. -/
  | mtxMprom (v : BitVec 3)
  /-- MTX_MZERO (R258): Zeroes one or two tiles. -/
  | mtxMzero (b : BitVec 6)
  /-- MTX_MRD (R259): Reads 8 tile elements into registers. -/
  | mtxMrd (d a : BitVec 6)
  /-- MTX_MWR (R259): Writes 8 tile elements from registers. -/
  | mtxMwr (a b : BitVec 6)
  /-- MTX_MOUT (R260): Converts a tile and writes it to memory. -/
  | mtxMout (d a b : BitVec 6) (v : BitVec 3)
  /-- MTX_MDRAIN (R262): Applies an optimiser update from a gradient tile. -/
  | mtxMdrain (d a b : BitVec 6) (v : BitVec 3)
  /-- MTX_MSTAT (R265): Reads the array status or fault address. -/
  | mtxMstat (d : BitVec 6) (v : BitVec 3)
  /-- SPL_SCFG (R304): Loads the Scarab camera configuration. -/
  | splScfg (a : BitVec 6)
  /-- SPL_SPROJ (R308): Projects Gaussians with tangents. -/
  | splSproj (d a : BitVec 6)
  /-- SPL_SBIN (R311): Emits tile-depth keys. -/
  | splSbin (d a : BitVec 6)
  /-- SPL_SSORT (R312): Sorts keys and writes the tile table. -/
  | splSsort (d a : BitVec 6)
  /-- SPL_SBLEND (R313): Blends pixels front to back. -/
  | splSblend (d a : BitVec 6)
  /-- SPL_SREPL (R316): Replays blends back to front and reduces gradients. -/
  | splSrepl (d a : BitVec 6)
  /-- SLV_CFG (R293): Sets the cohort's singularity threshold. -/
  | slvCfg (a : BitVec 6)
  /-- SLV_LU (R295): Batched LU factorisation with pivoting. -/
  | slvLu (d a : BitVec 6)
  /-- SLV_LUS (R295): Batched solve from LU factors. -/
  | slvLus (d a : BitVec 6)
  /-- SLV_CHOL (R295): Batched Cholesky factorisation. -/
  | slvChol (d a : BitVec 6)
  /-- SLV_CHS (R295): Batched solve from Cholesky factors. -/
  | slvChs (d a : BitVec 6)
  /-- SLV_CG (R295): Batched conjugate-gradient iterations. -/
  | slvCg (d a : BitVec 6)
  /-- SLV_JAC (R295): Batched Jacobi iterations. -/
  | slvJac (d a : BitVec 6)
  /-- COL_GRP (R417): Binds a collective handle to a group and replies the rank. -/
  | colGrp (d a b : BitVec 6)
  /-- COL_GRP_FREE (R417): Frees a handle after its commands complete. -/
  | colGrpFree (b : BitVec 6)
  /-- COL_ARED (R419): All-reduce in fixed tree order. -/
  | colAred (d a : BitVec 6)
  /-- COL_RSC (R419): Reduce-scatter. -/
  | colRsc (d a : BitVec 6)
  /-- COL_AGATH (R419): All-gather in rank order. -/
  | colAgath (d a : BitVec 6)
  /-- COL_BCAST (R419): Broadcast from a root rank. -/
  | colBcast (d a : BitVec 6)
  /-- COL_PUT (R422): One-sided write into a member's window. -/
  | colPut (d a : BitVec 6)
  /-- COL_WAIT (R424): Waits until a handle's receive count reaches a threshold. -/
  | colWait (d a b : BitVec 6)
  /-- GRF_LAUNCH (R336): Launches a child node record from a thread. -/
  | grfLaunch (d a : BitVec 6) (v : Bool)
  /-- GRF_QPUT (R338): Appends a record to the next stage queue. -/
  | grfQput (b : BitVec 6)
  /-- GRF_QGET (R338): Takes the oldest record of the stage queue. -/
  | grfQget (d : BitVec 6)
  /-- GRF_NSIG (R337): Decrements a node record's PRED as a release. -/
  | grfNsig (a : BitVec 6)
  /-- PRB_MARK (R378): Writes a mark record to the observation buffer. -/
  | prbMark (a b : BitVec 6)
  /-- PRB_SAMP (R378): Marks the lane's next global access for sampling. -/
  | prbSamp
  /-- PRB_RDX (R378): Reads a bin of the reuse histogram. -/
  | prbRdx (d a : BitVec 6)
  /-- PACKAGE_RESET (R387): Power-on or CXL conventional reset stops the dies, zeroises keys and resets registers. -/
  | packageReset
  /-- PKGRST (R387): A write of 1 to PKGRST resets the package. -/
  | pkgrst (value : BitVec 64)
  /-- FWGO (R402): Verifies the firmware image's two signatures and boots it or halts. -/
  | fwgo (value : BitVec 64)
  /-- START (R389): Commits accepted features, extends MEAS1 and enters phase 2. -/
  | start (value : BitVec 64)
  /-- ATTGO (R404): Produces a signed attestation report. -/
  | attgo (value : BitVec 64)
  /-- DBGNONCE_READ (R386): A read of DBGNONCE0 draws a fresh unlock nonce. -/
  | dbgnonceRead
  /-- DBGGO (R405): Verifies a debug token and enters D2. -/
  | dbggo (value : BitVec 64)
  /-- DBGSESS_OPEN (R405): Opens a D1 debug session on an eligible context. -/
  | dbgsessOpen (asid : Nat)
  /-- DBGSESS_CLOSE (R407): Closes a debug session and clears its breakpoints. -/
  | dbgsessClose
  /-- DBGRES_SAME (R376): Resumes a stopped lane at the same instruction. -/
  | dbgresSame (die cluster core slot lane : Nat)
  /-- DBGRES_NEXT (R376): Resumes a lane stopped at BRK at the next instruction. -/
  | dbgresNext (die cluster core slot lane : Nat)
  /-- INV_RANGE (R391): Starts an invalidation of a page range of an ASID. -/
  | invRange (ch asid : Nat)
  /-- INV_ASID (R391): Starts an invalidation of a whole ASID. -/
  | invAsid (ch asid : Nat)
  /-- CONTEXT_REFRESH (R391): Rereads a context entry, drawing or destroying its key. -/
  | contextRefresh (ch asid : Nat)
  /-- INVALIDATION_DONE (R347): Invalidation completes once all four steps are done; DONE is set. -/
  | invalidationDone (ch : Nat)
  /-- PORT_RESET (R413): Restarts training of a DOWN or LOST port. -/
  | portReset (port : Nat)
  /-- PWR_P0 (R406): Moves a die to full clock. -/
  | pwrP0 (die : Nat)
  /-- PWR_P1 (R406): Moves a die to half core clock. -/
  | pwrP1 (die : Nat)
  /-- PWR_P2 (R406): Stops clause opening and placement on a die. -/
  | pwrP2 (die : Nat)
  /-- PWR_P3 (R406): Pre-empts, writes back and powers off a die. -/
  | pwrP3 (die : Nat)
  /-- P3_WAKE (R406): An access homed on a P3 die wakes it through P2. -/
  | p3Wake (die : Nat)
  /-- REGISTER_WRITE (R386): Write to a BAR 0 or BAR 2 register without behaviour of its own. -/
  | registerWrite (bar2 : Bool) (offset : Nat) (value : BitVec 64)
  /-- HOST_HDM_ACCESS (R401): Host CXL.mem access to the device's HDM range. -/
  | hostHdmAccess (write : Bool) (addr size : Nat) (value : BitVec 64)
  /-- SUBMISSION_WORD_FIRE (R392): The Hive's watch on a submission word fires and it takes records. -/
  | submissionWordFire (asid word : Nat)
  /-- FAULT_RESPONSE (R345): A nonzero RESP resolves every requester of a fault record. -/
  | faultResponse (die index : Nat)
  /-- CORE_DUMP (R382): The dump engine writes a core dump of a halted core. -/
  | coreDump (die : Nat)
  /-- UNIT_PLACE (R329): The Hive places the next unit of a ready node. -/
  | unitPlace (die kind : Nat)
  /-- PLACING_DONE (R194): Scratchpad zeroing ends and slots become RESIDENT. -/
  | placingDone (core slot : Nat)
  /-- SLOT_RETIRE (R194): A RETIRING slot drops its state and becomes FREE. -/
  | slotRetire (core slot : Nat)
  /-- CLUSTER_MODE_SWITCH (R330): A drained cluster changes fused mode. -/
  | clusterModeSwitch (die cluster : Nat)
  /-- WAITLIM_EXPIRY (R331): A node waiting past WAITLIM causes pre-emption of lower-priority cohorts. -/
  | waitlimExpiry (die kind : Nat)
  /-- COHORT_SAVE (R214): A core saves a pre-empted cohort into its image. -/
  | cohortSave (cohort : Nat)
  /-- FLUSHD_MAKE_ROOM (R292): The Hive saves and places cohorts so a FLUSHD can complete. -/
  | flushdMakeRoom (node : Nat)
  /-- NODE_RETIRE (R326): A node's retirement waits for writes, writes status and releases successors. -/
  | nodeRetire (node : Nat)
  /-- NODE_TRIGGER (R340): A node whose cohorts all triggered releases its successors early. -/
  | nodeTrigger (node : Nat)
  /-- COPY_NODE_RUN (R325): The Hive performs a copy node. -/
  | copyNodeRun (node : Nat)
  /-- SIGNAL_NODE_RUN (R325): The Hive stores a signal node's value as a system release. -/
  | signalNodeRun (node : Nat)
  /-- CLAUSE_OPEN (R201): The core opens the next clause from a parked group or the Swarm Table. -/
  | clauseOpen (core : Nat)
  /-- PARKED_GROUP_RESUME (R207): A parked group whose wait has ended retakes an open clause. -/
  | parkedGroupResume (index : Nat)
  /-- DEFERRAL_RELEASE (R205): Deferred threads become eligible once every not-taken thread has met a condition. -/
  | deferralRelease (thread : Nat)
  /-- DEFERRAL_EXPIRY (R206): A deferral expires after 4,096 core cycles. -/
  | deferralExpiry (thread : Nat)
  /-- RENDEZVOUS_COMPLETE (R218): A rendezvous instance completes when every named lane has arrived. -/
  | rendezvousComplete (core slot : Nat) (pc : BitVec 64) (level : Nat)
  /-- DEBUG_STOP (R376): A lane reaching a breakpoint stops and a stop record is written. -/
  | debugStop (thread : Nat)
  /-- THREAD_EXIT_COMPLETE (R162): A thread in EXIT ends once its counters read 0. -/
  | threadExitComplete (thread : Nat)
  /-- LOAD_DATA_RETURN (R160): Load data arrive, write the register and decrement the counter. -/
  | loadDataReturn (access : Nat)
  /-- WRITE_ARRIVAL_HOME (R351): A write arrives at its home and receives its GWCT. -/
  | writeArrivalHome (access : Nat)
  /-- WAITM_TIMEOUT (R289): WAITM's tick limit is reached and it returns 0. -/
  | waitmTimeout (thread : Nat)
  /-- LEASE_EXPIRY (R350): A copy's lease ends and it may no longer be read. -/
  | leaseExpiry (copy : Nat)
  /-- STACK_ROW_FILL (R198): A stack-cache row is filled from backing memory. -/
  | stackRowFill (core slot offset : Nat)
  /-- GUARD_HEAD (R233): A guarded entry at a queue head runs, waits or is discarded. -/
  | guardHead (core cls : Nat)
  /-- COMMAND_REPLY (R160): An engine reply is written and dc3 decrements. -/
  | commandReply (core cls : Nat)
  /-- COPY_COMPLETE (R278): A copy's writes are performed at completion. -/
  | copyComplete (core : Nat)
  /-- ARRAY_ROW_EXIT (R254): A row leaves the array and a full interval is promoted. -/
  | arrayRowExit (core : Nat)
  /-- ARRAY_RAMP_UP_DONE (R257): Ramp-up filler cycles end and waiting rows enter. -/
  | arrayRampUpDone (core : Nat)
  /-- ARRAY_RAMP_DOWN (R257): After 16 idle cycles the array ramps down to IDLE. -/
  | arrayRampDown (core : Nat)
  /-- MBURST_WINDOW_EXPIRY (R240): An MBURST window ends without matrix work. -/
  | mburstWindowExpiry (core : Nat)
  /-- BARRIER_PHASE_COMPLETE (R287): A barrier phase completes and waiting threads go on. -/
  | barrierPhaseComplete (cohort barrier : Nat)
  /-- FLUSHD_COMPLETE (R291): Every thread of the grid has reached FLUSHD and the wait completes. -/
  | flushdComplete (node : Nat)
  /-- QUEUE_RECORD_DELIVER (R338): A waiting QGET receives a record or end of stream. -/
  | queueRecordDeliver (core : Nat)
  /-- FLIT_RECEIVE (R410): A flit is delivered in sequence order to its destination. -/
  | flitReceive (source chan seq tag die kind : Nat) (args : List Nat) (payload : List (BitVec 8))
  /-- FLIT_CRC_RETRY (R408): A flit failing CRC is resent from the retry buffer. -/
  | flitCrcRetry (port : Nat)
  /-- LINK_FAILURE (R413): An UP port's link fails and it enters TRAINING. -/
  | linkFailure (port : Nat)
  /-- TRAINING_SUCCESS (R413): A training port becomes UP. -/
  | trainingSuccess (port : Nat)
  /-- RETRAIN_TIMEOUT (R413): A port not UP within RETRAIN becomes LOST and rerouting starts. -/
  | retrainTimeout (port : Nat)
  /-- COLLECTIVE_INSTANCE_COMPLETE (R419): A collective instance completes at a member and results are written. -/
  | collectiveInstanceComplete (die asid handle : Nat)
  /-- COLLECTIVE_TIMEOUT (R421): A collective command exceeds COLTO and fails its handle. -/
  | collectiveTimeout (core : Nat)
  /-- PUT_DELIVERED (R423): A PUT's writes are performed and RCV increments. -/
  | putDelivered (put : Nat)
  /-- CICADA_SAMPLE (R381): Every P cycles a core writes a stall record per live thread. -/
  | cicadaSample (core : Nat)
  /-- REQUEST_SAMPLE_COMPLETE (R379): A sampled access completes and its queueing record is written. -/
  | requestSampleComplete (access : Nat) (queueing : List Nat)
  /-- SOFT_ERROR (R384): An SRAM error is corrected or poisons its line or register. -/
  | softError (corrected : Bool) (place a b c : Nat)
  /-- STORE_PERFORMED (R160): A store, STT element or RED is performed. Its GWCT returns to the issuer, is merged into WCT, and the store's dependency counter decrements. -/
  | storePerformed (access : Nat)
  /-- HOST_RECALL (R361): The host invalidates or recalls a shared copy of a host-memory line held by a die under CXL.cache, which fires a watch on that line. -/
  | hostRecall (line : Nat)
  /-- OPEN_INTERVAL_WAIT_EXPIRY (R267): After 65,536 core cycles of waiting for an array with no open interval, the Hive starts the save of the cohort that holds the array. -/
  | openIntervalWaitExpiry (core : Nat)
  /-- COMMAND_COMPLETE (R232): An engine command without a reply finishes its work (for example MWLD, MWSCL, SCFG, SLV.CFG or QPUT), and the next queue entry may start. -/
  | commandComplete (core cls : Nat)
  /-- HDM_DECODER_PROGRAM (R401): The host programs the device's CXL HDM decoder, which places the 4 TiB HDM range in host address space. -/
  | hdmDecoderProgram (base : Nat)
deriving DecidableEq, Repr

end Sys2Proof
end

