-- ==== Sys2Proof/WellFormed.lean ====
section
/-! DEFINITION. Well-formed instructions: the field values that the opcode map assigns (R44, R46, R47), and nw 0 in an instruction that
writes no register or pair (R39).
Every other field value of a constructor is an operand matter, checked when the instruction runs (R49, R51). -/

namespace Sys2Proof

/-- The field values for which a constructor stands for an assigned word. That nw is such a field in an instruction without a register result is a reading of
R39 (DEDUCED, unsafe: log 44). -/
def wellFormed : Instr → Bool
  | .cvt _ _ _ _ f _ _ => decide (f.toNat ≤ 9)
  | .cmpf _ _ _ f n _ => decide (f.toNat ≤ 13) && !n
  | .cmpd _ _ _ f n _ => decide (f.toNat ≤ 13) && !n
  | .cmpz _ _ _ f n _ => decide (f.toNat ≤ 5) && !n
  | .atom _ _ _ f _ _ => decide (f.toNat ≤ 13)
  | .red _ _ f _ _ => (f.toNat ≤ 12 && f.toNat != 8 && f.toNat != 9)
  | .rdvz _ b n _ => decide (1 ≤ b.toNat ∧ b.toNat ≤ 3) && !n
  | .cpyGath _ _ v => decide (v.toNat ≤ 4)
  | .mtxMswap v => decide (v.toNat ≤ 2)
  | .mtxMprom v => decide (v.toNat ≤ 2)
  | .mtxMout _ _ _ v => decide (v.toNat ≤ 2)
  | .mtxMdrain _ _ _ v => decide (v.toNat ≤ 1)
  | .mtxMstat _ v => decide (v.toNat ≤ 2)
  | .pand _ _ _ n _ => !n
  | .por _ _ _ n _ => !n
  | .pxor _ _ _ n _ => !n
  | .pnot _ _ n _ => !n
  | .pmov _ _ n _ => !n
  | .pset _ _ n _ => !n
  | .gset _ _ n _ => !n
  | .gsetOpen _ n _ => !n
  | .cmpi _ _ _ _ n _ => !n
  | .cmph2 _ _ _ _ n _ => !n
  | .swr _ _ n _ => !n
  | .swrp _ _ n _ => !n
  | .nop n _ => !n
  | .yield n _ => !n
  | .brx _ n _ => !n
  | .calli _ n _ => !n
  | .ret n _ => !n
  | .exit n _ => !n
  | .brk _ n _ => !n
  | .trap _ n _ => !n
  | .eret n _ => !n
  | .halt _ n _ => !n
  | .fence _ n _ => !n
  | .watch _ n _ => !n
  | .bar _ _ n _ => !n
  | .bara _ _ n _ => !n
  | .barw _ n _ => !n
  | .waitb _ n _ => !n
  | .trig n _ => !n
  | .flushd n _ => !n
  | .voteAnd _ _ _ n _ => !n
  | .voteOr _ _ _ n _ => !n
  | .voteEqv _ _ _ n _ => !n
  | .fork _ _ n _ => !n
  | .mburst _ n _ => !n
  | .rdvzEngine _ _ n _ => !n
  | _ => true

end Sys2Proof
end

