-- ==== Sys2Proof/Decode.lean ====
section
/-! DEFINITION. The clause header, the instruction decoder and the encoder (R29, R34, R44-R47). -/

namespace Sys2Proof

/-- A decode fault that the word alone decides (R51, orders 2 and 5). -/
inductive DecodeErr where
  /-- Illegal Instruction: reserved major, unassigned member or variant, nonzero zero field. -/
  | instruction
  /-- Illegal Operand: a field the member does not use is not zero, or a wrong reply bit (R39). -/
  | operand
  /-- Fewer than the four bytes of a word. -/
  | short
deriving DecidableEq, Repr

/-- Bits [31:26]. -/
def opF (w : Word) : BitVec 6 := BitVec.ofNat 6 (w.toNat / 2 ^ 26)
/-- Bits [25:20]. -/
def dF (w : Word) : BitVec 6 := BitVec.ofNat 6 (w.toNat / 2 ^ 20)
/-- Bits [19:14]. -/
def aF (w : Word) : BitVec 6 := BitVec.ofNat 6 (w.toNat / 2 ^ 14)
/-- Bits [13:8]. -/
def bF (w : Word) : BitVec 6 := BitVec.ofNat 6 (w.toNat / 2 ^ 8)
/-- Format F: bits [7:2]. -/
def cF (w : Word) : BitVec 6 := BitVec.ofNat 6 (w.toNat / 2 ^ 2)
/-- Formats A and X: bits [7:4]. -/
def fnF (w : Word) : BitVec 4 := BitVec.ofNat 4 (w.toNat / 2 ^ 4)
/-- Format A: bit 3. -/
def nF (w : Word) : Bool := decide (w.toNat / 2 ^ 3 % 2 = 1)
/-- Format A: bits [2:0]. -/
def pF (w : Word) : BitVec 3 := BitVec.ofNat 3 w.toNat
/-- Formats F and I: bit 1. -/
def n1F (w : Word) : Bool := decide (w.toNat / 2 % 2 = 1)
/-- Formats F, I, M and X: bit 0. -/
def p0F (w : Word) : Bool := decide (w.toNat % 2 = 1)
/-- Format I: bits [13:2]. -/
def immF (w : Word) : BitVec 12 := BitVec.ofNat 12 (w.toNat / 2 ^ 2)
/-- Format U: bits [19:0]. -/
def imm20F (w : Word) : BitVec 20 := BitVec.ofNat 20 w.toNat
/-- Format M: bits [13:5]. -/
def offF (w : Word) : BitVec 9 := BitVec.ofNat 9 (w.toNat / 2 ^ 5)
/-- Format M: bits [4:3]. -/
def szF (w : Word) : BitVec 2 := BitVec.ofNat 2 (w.toNat / 2 ^ 3)
/-- Format M: bits [2:1]. -/
def dcF (w : Word) : BitVec 2 := BitVec.ofNat 2 (w.toNat / 2)
/-- Format X: bits [3:1]. -/
def scF (w : Word) : BitVec 3 := BitVec.ofNat 3 (w.toNat / 2)
/-- Format B: bits [25:23]. -/
def bpF (w : Word) : BitVec 3 := BitVec.ofNat 3 (w.toNat / 2 ^ 23)
/-- Format B: bit 22. -/
def bnF (w : Word) : Bool := decide (w.toNat / 2 ^ 22 % 2 = 1)
/-- Format B: bits [21:9]. -/
def btF (w : Word) : BitVec 13 := BitVec.ofNat 13 (w.toNat / 2 ^ 9)
/-- Format B: bits [8:0]. -/
def brF (w : Word) : BitVec 9 := BitVec.ofNat 9 w.toNat
/-- Format J: bits [25:0]. -/
def s26F (w : Word) : BitVec 26 := BitVec.ofNat 26 w.toNat
/-- Format LOOP: bits [19:12]. -/
def llF (w : Word) : BitVec 8 := BitVec.ofNat 8 (w.toNat / 2 ^ 12)
/-- Format LOOPI: bits [25:14]. -/
def lcF (w : Word) : BitVec 12 := BitVec.ofNat 12 (w.toNat / 2 ^ 14)
/-- Format LOOPI: bits [13:6]. -/
def lilF (w : Word) : BitVec 8 := BitVec.ofNat 8 (w.toNat / 2 ^ 6)
/-- Format C: bits [7:5], the variant. -/
def vF (w : Word) : BitVec 3 := BitVec.ofNat 3 (w.toNat / 2 ^ 5)
/-- Format C: bits [4:1], the command. -/
def cmdF (w : Word) : BitVec 4 := BitVec.ofNat 4 (w.toNat / 2)
/-- Format C: bit 0, the reply bit. -/
def repF (w : Word) : Bool := decide (w.toNat % 2 = 1)

/-- A format-A word (R110). -/
def encA (op d a b : BitVec 6) (fn : BitVec 4) (n : Bool) (p : BitVec 3) : Word :=
  BitVec.ofNat 32 (op.toNat * 2 ^ 26 + d.toNat * 2 ^ 20 + a.toNat * 2 ^ 14 + b.toNat * 2 ^ 8 + fn.toNat * 2 ^ 4
    + n.toNat * 2 ^ 3 + p.toNat)
/-- A format-F word (R110). -/
def encF (op d a b c : BitVec 6) (n p : Bool) : Word :=
  BitVec.ofNat 32 (op.toNat * 2 ^ 26 + d.toNat * 2 ^ 20 + a.toNat * 2 ^ 14 + b.toNat * 2 ^ 8 + c.toNat * 2 ^ 2
    + n.toNat * 2 + p.toNat)
/-- A format-I word (R34). -/
def encI (op d a : BitVec 6) (imm : BitVec 12) (n p : Bool) : Word :=
  BitVec.ofNat 32 (op.toNat * 2 ^ 26 + d.toNat * 2 ^ 20 + a.toNat * 2 ^ 14 + imm.toNat * 2 ^ 2 + n.toNat * 2 + p.toNat)
/-- A format-U word (R34). -/
def encU (op d : BitVec 6) (imm : BitVec 20) : Word :=
  BitVec.ofNat 32 (op.toNat * 2 ^ 26 + d.toNat * 2 ^ 20 + imm.toNat)
/-- A format-M word (R34). -/
def encM (op d a : BitVec 6) (off : BitVec 9) (size dc : BitVec 2) (p : Bool) : Word :=
  BitVec.ofNat 32 (op.toNat * 2 ^ 26 + d.toNat * 2 ^ 20 + a.toNat * 2 ^ 14 + off.toNat * 2 ^ 5 + size.toNat * 2 ^ 3
    + dc.toNat * 2 + p.toNat)
/-- A format-X word (R34). -/
def encX (op d a b : BitVec 6) (fn : BitVec 4) (scope : BitVec 3) (p : Bool) : Word :=
  BitVec.ofNat 32 (op.toNat * 2 ^ 26 + d.toNat * 2 ^ 20 + a.toNat * 2 ^ 14 + b.toNat * 2 ^ 8 + fn.toNat * 2 ^ 4
    + scope.toNat * 2 + p.toNat)
/-- A format-B word (R34). -/
def encB (op : BitVec 6) (p : BitVec 3) (n : Bool) (t : BitVec 13) (r : BitVec 9) : Word :=
  BitVec.ofNat 32 (op.toNat * 2 ^ 26 + p.toNat * 2 ^ 23 + n.toNat * 2 ^ 22 + t.toNat * 2 ^ 9 + r.toNat)
/-- A format-J word (R34). -/
def encJ (op : BitVec 6) (s : BitVec 26) : Word := BitVec.ofNat 32 (op.toNat * 2 ^ 26 + s.toNat)
/-- A LOOP word (R34). -/
def encLoop (op c : BitVec 6) (l : BitVec 8) : Word :=
  BitVec.ofNat 32 (op.toNat * 2 ^ 26 + c.toNat * 2 ^ 20 + l.toNat * 2 ^ 12)
/-- A LOOPI word (R34). -/
def encLoopi (op : BitVec 6) (c : BitVec 12) (l : BitVec 8) : Word :=
  BitVec.ofNat 32 (op.toNat * 2 ^ 26 + c.toNat * 2 ^ 14 + l.toNat * 2 ^ 6)
/-- A format-C word (R34, R47): fn7 is variant·16 + command. -/
def encC (op d a b : BitVec 6) (v : BitVec 3) (cmd : BitVec 4) (reply : Bool) : Word :=
  BitVec.ofNat 32 (op.toNat * 2 ^ 26 + d.toNat * 2 ^ 20 + a.toNat * 2 ^ 14 + b.toNat * 2 ^ 8 + v.toNat * 2 ^ 5
    + cmd.toNat * 2 + reply.toNat)

/-- An instruction, if the word's zero fields and variant are legal (else Illegal Instruction) and then its
unused operand fields are zero (else Illegal Operand): orders 2 and 5 of R51. -/
def need (instr oper : List Bool) (i : Instr) : Except DecodeErr Instr :=
  if instr.all (· == true) then (if oper.all (· == true) then .ok i else .error .operand) else .error .instruction

/-- Major 0x01 (R44). -/
def decodeOp01 (w : Word) : Except DecodeErr Instr :=
  match (fnF w).toNat with
  | 0 => need [] [] (.iadd (dF w) (aF w) (bF w) (nF w) (pF w))
  | 1 => need [] [] (.isub (dF w) (aF w) (bF w) (nF w) (pF w))
  | 2 => need [] [] (.imul (dF w) (aF w) (bF w) (nF w) (pF w))
  | 3 => need [] [] (.imulh (dF w) (aF w) (bF w) (nF w) (pF w))
  | 4 => need [] [] (.imulhu (dF w) (aF w) (bF w) (nF w) (pF w))
  | 5 => need [] [] (.and (dF w) (aF w) (bF w) (nF w) (pF w))
  | 6 => need [] [] (.or (dF w) (aF w) (bF w) (nF w) (pF w))
  | 7 => need [] [] (.xor (dF w) (aF w) (bF w) (nF w) (pF w))
  | 8 => need [] [] (.andn (dF w) (aF w) (bF w) (nF w) (pF w))
  | 9 => need [] [] (.shl (dF w) (aF w) (bF w) (nF w) (pF w))
  | 10 => need [] [] (.shr (dF w) (aF w) (bF w) (nF w) (pF w))
  | 11 => need [] [] (.sra (dF w) (aF w) (bF w) (nF w) (pF w))
  | 12 => need [] [] (.rotl (dF w) (aF w) (bF w) (nF w) (pF w))
  | 13 => need [] [] (.min (dF w) (aF w) (bF w) (nF w) (pF w))
  | 14 => need [] [] (.max (dF w) (aF w) (bF w) (nF w) (pF w))
  | 15 => need [] [] (.absd (dF w) (aF w) (bF w) (nF w) (pF w))
  | _ => .error .instruction

/-- Major 0x02 (R44). -/
def decodeOp02 (w : Word) : Except DecodeErr Instr :=
  match (fnF w).toNat with
  | 0 => need [] [] (.minu (dF w) (aF w) (bF w) (nF w) (pF w))
  | 1 => need [] [] (.maxu (dF w) (aF w) (bF w) (nF w) (pF w))
  | 2 => need [] [decide (bF w = 0)] (.popc (dF w) (aF w) (nF w) (pF w))
  | 3 => need [] [decide (bF w = 0)] (.clz (dF w) (aF w) (nF w) (pF w))
  | 4 => need [] [decide (bF w = 0)] (.ctz (dF w) (aF w) (nF w) (pF w))
  | 5 => need [] [decide (bF w = 0)] (.brev (dF w) (aF w) (nF w) (pF w))
  | 6 => need [] [] (.bfx (dF w) (aF w) (bF w) (nF w) (pF w))
  | 7 => need [] [] (.bfi (dF w) (aF w) (bF w) (nF w) (pF w))
  | 8 => need [] [] (.sel (dF w) (aF w) (bF w) (nF w) (pF w))
  | 9 => need [] [] (.lea (dF w) (aF w) (bF w) (nF w) (pF w))
  | 10 => need [] [] (.idiv (dF w) (aF w) (bF w) (nF w) (pF w))
  | 11 => need [] [] (.idivu (dF w) (aF w) (bF w) (nF w) (pF w))
  | 12 => need [] [] (.irem (dF w) (aF w) (bF w) (nF w) (pF w))
  | 13 => need [] [] (.iremu (dF w) (aF w) (bF w) (nF w) (pF w))
  | _ => .error .instruction

/-- Major 0x03 (R44). -/
def decodeOp03 (w : Word) : Except DecodeErr Instr :=
  match (fnF w).toNat with
  | 0 => need [] [] (.iadd64 (dF w) (aF w) (bF w) (nF w) (pF w))
  | 1 => need [] [] (.isub64 (dF w) (aF w) (bF w) (nF w) (pF w))
  | 2 => need [] [] (.shl64 (dF w) (aF w) (bF w) (nF w) (pF w))
  | 3 => need [] [] (.shr64 (dF w) (aF w) (bF w) (nF w) (pF w))
  | 4 => need [] [] (.sra64 (dF w) (aF w) (bF w) (nF w) (pF w))
  | 5 => need [] [decide (bF w = 0)] (.mov64 (dF w) (aF w) (nF w) (pF w))
  | 6 => need [] [] (.lea64 (dF w) (aF w) (bF w) (nF w) (pF w))
  | 7 => need [] [] (.imul64 (dF w) (aF w) (bF w) (nF w) (pF w))
  | _ => .error .instruction

/-- Major 0x0D (R44). -/
def decodeOp0D (w : Word) : Except DecodeErr Instr :=
  match (fnF w).toNat with
  | 0 => need [] [] (.fadd (dF w) (aF w) (bF w) (nF w) (pF w))
  | 1 => need [] [] (.fsub (dF w) (aF w) (bF w) (nF w) (pF w))
  | 2 => need [] [] (.fmul (dF w) (aF w) (bF w) (nF w) (pF w))
  | 3 => need [] [] (.fdiv (dF w) (aF w) (bF w) (nF w) (pF w))
  | 4 => need [] [decide (bF w = 0)] (.fsqrt (dF w) (aF w) (nF w) (pF w))
  | 5 => need [] [] (.fmin (dF w) (aF w) (bF w) (nF w) (pF w))
  | 6 => need [] [] (.fmax (dF w) (aF w) (bF w) (nF w) (pF w))
  | 7 => need [] [] (.fminm (dF w) (aF w) (bF w) (nF w) (pF w))
  | 8 => need [] [] (.fmaxm (dF w) (aF w) (bF w) (nF w) (pF w))
  | 9 => need [] [decide (bF w = 0)] (.fabs (dF w) (aF w) (nF w) (pF w))
  | 10 => need [] [decide (bF w = 0)] (.fneg (dF w) (aF w) (nF w) (pF w))
  | 11 => need [] [] (.fcpys (dF w) (aF w) (bF w) (nF w) (pF w))
  | 12 => need [] [decide ((bF w).toNat < 4)] (.frnd (dF w) (aF w) ((bF w).setWidth 2) (nF w) (pF w))
  | 13 => need [] [decide (bF w = 0)] (.fclass (dF w) (aF w) (nF w) (pF w))
  | _ => .error .instruction

/-- Major 0x11 (R44). -/
def decodeOp11 (w : Word) : Except DecodeErr Instr :=
  match (fnF w).toNat with
  | 0 => need [] [] (.dadd (dF w) (aF w) (bF w) (nF w) (pF w))
  | 1 => need [] [] (.dsub (dF w) (aF w) (bF w) (nF w) (pF w))
  | 2 => need [] [] (.dmul (dF w) (aF w) (bF w) (nF w) (pF w))
  | 3 => need [] [] (.ddiv (dF w) (aF w) (bF w) (nF w) (pF w))
  | 4 => need [] [decide (bF w = 0)] (.dsqrt (dF w) (aF w) (nF w) (pF w))
  | 5 => need [] [] (.dmin (dF w) (aF w) (bF w) (nF w) (pF w))
  | 6 => need [] [] (.dmax (dF w) (aF w) (bF w) (nF w) (pF w))
  | 7 => need [] [] (.dminm (dF w) (aF w) (bF w) (nF w) (pF w))
  | 8 => need [] [] (.dmaxm (dF w) (aF w) (bF w) (nF w) (pF w))
  | 9 => need [] [decide (bF w = 0)] (.dabs (dF w) (aF w) (nF w) (pF w))
  | 10 => need [] [decide (bF w = 0)] (.dneg (dF w) (aF w) (nF w) (pF w))
  | 11 => need [] [] (.dcpys (dF w) (aF w) (bF w) (nF w) (pF w))
  | 12 => need [] [decide ((bF w).toNat < 4)] (.drnd (dF w) (aF w) ((bF w).setWidth 2) (nF w) (pF w))
  | 13 => need [] [decide (bF w = 0)] (.dclass (dF w) (aF w) (nF w) (pF w))
  | _ => .error .instruction

/-- Major 0x14 (R44). -/
def decodeOp14 (w : Word) : Except DecodeErr Instr :=
  match (fnF w).toNat with
  | 0 => need [] [] (.hadd2 (dF w) (aF w) (bF w) (nF w) (pF w))
  | 1 => need [] [] (.hsub2 (dF w) (aF w) (bF w) (nF w) (pF w))
  | 2 => need [] [] (.hmul2 (dF w) (aF w) (bF w) (nF w) (pF w))
  | 3 => need [] [] (.hmin2 (dF w) (aF w) (bF w) (nF w) (pF w))
  | 4 => need [] [] (.hmax2 (dF w) (aF w) (bF w) (nF w) (pF w))
  | 5 => need [] [decide (bF w = 0)] (.habs2 (dF w) (aF w) (nF w) (pF w))
  | 6 => need [] [decide (bF w = 0)] (.hneg2 (dF w) (aF w) (nF w) (pF w))
  | _ => .error .instruction

/-- Major 0x16 (R44). -/
def decodeOp16 (w : Word) : Except DecodeErr Instr :=
  match (fnF w).toNat with
  | 0 => need [] [] (.vaddH2 (dF w) (aF w) (bF w) (nF w) (pF w))
  | 1 => need [] [] (.vsubH2 (dF w) (aF w) (bF w) (nF w) (pF w))
  | 2 => need [] [] (.vaddsH2 (dF w) (aF w) (bF w) (nF w) (pF w))
  | 3 => need [] [] (.vsubsH2 (dF w) (aF w) (bF w) (nF w) (pF w))
  | 4 => need [] [] (.vmaxH2 (dF w) (aF w) (bF w) (nF w) (pF w))
  | 5 => need [] [] (.vminH2 (dF w) (aF w) (bF w) (nF w) (pF w))
  | 6 => need [] [] (.acsH2 (dF w) (aF w) (bF w) (nF w) (pF w))
  | _ => .error .instruction

/-- Major 0x17 (R44). -/
def decodeOp17 (w : Word) : Except DecodeErr Instr :=
  match (fnF w).toNat with
  | 0 => need [] [decide (bF w = 0)] (.fexp2 (dF w) (aF w) (nF w) (pF w))
  | 1 => need [] [decide (bF w = 0)] (.flog2 (dF w) (aF w) (nF w) (pF w))
  | 2 => need [] [decide (bF w = 0)] (.fsin (dF w) (aF w) (nF w) (pF w))
  | 3 => need [] [decide (bF w = 0)] (.fcos (dF w) (aF w) (nF w) (pF w))
  | 4 => need [] [decide (bF w = 0)] (.frcp (dF w) (aF w) (nF w) (pF w))
  | 5 => need [] [decide (bF w = 0)] (.frsq (dF w) (aF w) (nF w) (pF w))
  | 6 => need [] [decide (bF w = 0)] (.ftanh (dF w) (aF w) (nF w) (pF w))
  | _ => .error .instruction

/-- Major 0x19 (R44). -/
def decodeOp19 (w : Word) : Except DecodeErr Instr :=
  match (fnF w).toNat with
  | 0 => need [] [] (.zpackZ8 (dF w) (aF w) (bF w) (nF w) (pF w))
  | 1 => need [] [] (.zpackZ6 (dF w) (aF w) (bF w) (nF w) (pF w))
  | 2 => need [] [decide (bF w = 0)] (.zunpkZ8 (dF w) (aF w) (nF w) (pF w))
  | 3 => need [] [decide (bF w = 0)] (.zunpkZ6 (dF w) (aF w) (nF w) (pF w))
  | 4 => need [] [] (.zscale (dF w) (aF w) (bF w) (nF w) (pF w))
  | _ => .error .instruction

/-- Major 0x1E (R44). -/
def decodeOp1E (w : Word) : Except DecodeErr Instr :=
  match (fnF w).toNat with
  | 0 => need [] [!nF w] (.pand (dF w) (aF w) (bF w) (nF w) (pF w))
  | 1 => need [] [!nF w] (.por (dF w) (aF w) (bF w) (nF w) (pF w))
  | 2 => need [] [!nF w] (.pxor (dF w) (aF w) (bF w) (nF w) (pF w))
  | 3 => need [] [decide (bF w = 0), !nF w] (.pnot (dF w) (aF w) (nF w) (pF w))
  | 4 => need [] [decide (bF w = 0), !nF w] (.pmov (dF w) (aF w) (nF w) (pF w))
  | 5 => need [] [decide (bF w = 0), !nF w] (.pset (dF w) (aF w) (nF w) (pF w))
  | 6 => if bF w = 1 then need [] [decide (aF w = 0), !nF w] (.gsetOpen (dF w) (nF w) (pF w))
      else need [] [decide (bF w = 0), !nF w] (.gset (dF w) (aF w) (nF w) (pF w))
  | _ => .error .instruction

/-- Major 0x1F (R44). -/
def decodeOp1F (w : Word) : Except DecodeErr Instr :=
  match (fnF w).toNat with
  | 0 => need [] [decide (bF w = 0)] (.mov (dF w) (aF w) (nF w) (pF w))
  | 1 => need [] [decide (aF w = 0)] (.srd (dF w) (bF w) (nF w) (pF w))
  | 2 => need [] [decide (dF w = 0), !nF w] (.swr (aF w) (bF w) (nF w) (pF w))
  | 3 => need [] [decide (bF w = 0)] (.ldkW (dF w) (aF w) (nF w) (pF w))
  | 4 => need [] [decide (bF w = 0)] (.ldkD (dF w) (aF w) (nF w) (pF w))
  | _ => .error .instruction

/-- Major 0x20 (R44). -/
def decodeOp20 (w : Word) : Except DecodeErr Instr :=
  match (fnF w).toNat with
  | 0 => need [] [decide ((bF w).toNat < 16)] (.tseed (dF w) (aF w) (decide ((bF w).toNat / 8 % 2 = 1)) ((bF w).setWidth 3) (nF w) (pF w))
  | 1 => need [] [decide ((bF w).toNat < 8)] (.tget (dF w) (aF w) ((bF w).setWidth 3) (nF w) (pF w))
  | 2 => need [] [decide ((bF w).toNat < 8)] (.tset (dF w) (aF w) ((bF w).setWidth 3) (nF w) (pF w))
  | 3 => need [] [decide (((bF w).toNat = 0 ∨ (bF w).toNat = 8))] (.tzero (dF w) (aF w) (decide ((bF w).toNat / 8 % 2 = 1)) (nF w) (pF w))
  | 4 => need [] [decide (((bF w).toNat = 0 ∨ (bF w).toNat = 8))] (.tmov (dF w) (aF w) (decide ((bF w).toNat / 8 % 2 = 1)) (nF w) (pF w))
  | 5 => need [] [] (.dext (dF w) (aF w) (bF w) (nF w) (pF w))
  | 6 => need [] [decide (bF w = 0)] (.foot (dF w) (aF w) (nF w) (pF w))
  | 7 => need [] [decide (bF w = 0)] (.motv (dF w) (aF w) (nF w) (pF w))
  | _ => .error .instruction

/-- Major 0x2B (R44). -/
def decodeOp2B (w : Word) : Except DecodeErr Instr :=
  match (fnF w).toNat with
  | 0 => need [] [decide (dF w = 0), decide (aF w = 0), decide ((bF w).toNat < 8), !nF w] (.fence ((bF w).setWidth 3) (nF w) (pF w))
  | 1 => need [] [decide (dF w = 0), decide (bF w = 0), !nF w] (.watch (aF w) (nF w) (pF w))
  | 2 => need [] [decide (bF w = 0)] (.waitm (dF w) (aF w) (nF w) (pF w))
  | 3 => need [] [decide (dF w = 0), decide ((bF w).toNat < 8), !nF w] (.bar (aF w) ((bF w).setWidth 3) (nF w) (pF w))
  | 4 => need [] [decide (dF w = 0), decide ((bF w).toNat < 8), !nF w] (.bara (aF w) ((bF w).setWidth 3) (nF w) (pF w))
  | 5 => need [] [decide (dF w = 0), decide (bF w = 0), !nF w] (.barw (aF w) (nF w) (pF w))
  | 6 => need [] [decide (aF w = 0), decide (bF w = 0)] (.seal (dF w) (nF w) (pF w))
  | 7 => need [] [decide (dF w = 0), decide (bF w = 0), !nF w] (.waitb (aF w) (nF w) (pF w))
  | 8 => need [] [decide (dF w = 0), decide (aF w = 0), decide (bF w = 0), !nF w] (.trig (nF w) (pF w))
  | 9 => need [] [decide (dF w = 0), decide (aF w = 0), decide (bF w = 0), !nF w] (.flushd (nF w) (pF w))
  | _ => .error .instruction

/-- Major 0x2C (R44). -/
def decodeOp2C (w : Word) : Except DecodeErr Instr :=
  match (fnF w).toNat with
  | 0 => need [] [] (.lgetAt (dF w) (aF w) (bF w) (nF w) (pF w))
  | 1 => need [] [] (.lgetLower (dF w) (aF w) (bF w) (nF w) (pF w))
  | 2 => need [] [] (.lgetHigher (dF w) (aF w) (bF w) (nF w) (pF w))
  | 3 => need [] [] (.lgetFlip (dF w) (aF w) (bF w) (nF w) (pF w))
  | 4 => need [] [] (.push (dF w) (aF w) (bF w) (nF w) (pF w))
  | 5 => need [] [!nF w] (.voteAnd (dF w) (aF w) (bF w) (nF w) (pF w))
  | 6 => need [] [!nF w] (.voteOr (dF w) (aF w) (bF w) (nF w) (pF w))
  | 7 => need [] [!nF w] (.voteEqv (dF w) (aF w) (bF w) (nF w) (pF w))
  | 8 => need [] [] (.ballot (dF w) (aF w) (bF w) (nF w) (pF w))
  | 9 => need [] [] (.bfly (dF w) (aF w) (bF w) (nF w) (pF w))
  | 10 => need [] [] (.compress (dF w) (aF w) (bF w) (nF w) (pF w))
  | 11 => need [] [] (.expand (dF w) (aF w) (bF w) (nF w) (pF w))
  | _ => .error .instruction

/-- Major 0x2D (R44). -/
def decodeOp2D (w : Word) : Except DecodeErr Instr :=
  match (fnF w).toNat with
  | 0 => need [] [] (.hist (dF w) (aF w) (bF w) (nF w) (pF w))
  | 1 => need [] [] (.hmerge (dF w) (aF w) (bF w) (nF w) (pF w))
  | 2 => need [] [decide (bF w = 0)] (.osmx (dF w) (aF w) (nF w) (pF w))
  | 3 => need [] [decide (bF w = 0)] (.osmxf (dF w) (aF w) (nF w) (pF w))
  | _ => .error .instruction

/-- Major 0x30 (R44). -/
def decodeOp30 (w : Word) : Except DecodeErr Instr :=
  match (fnF w).toNat with
  | 0 => need [] [decide (dF w = 0), decide (aF w = 0), decide (bF w = 0), !nF w] (.nop (nF w) (pF w))
  | 1 => need [] [decide (dF w = 0), decide (aF w = 0), decide (bF w = 0), !nF w] (.yield (nF w) (pF w))
  | 2 => need [] [decide (dF w = 0), decide (bF w = 0), !nF w] (.brx (aF w) (nF w) (pF w))
  | 3 => need [] [decide (dF w = 0), decide (bF w = 0), !nF w] (.calli (aF w) (nF w) (pF w))
  | 4 => need [] [decide (dF w = 0), decide (aF w = 0), decide (bF w = 0), !nF w] (.ret (nF w) (pF w))
  | 5 => need [] [decide (dF w = 0), decide (aF w = 0), decide (bF w = 0), !nF w] (.exit (nF w) (pF w))
  | 6 => need [] [decide (dF w = 0), decide (bF w = 0), !nF w] (.brk (aF w) (nF w) (pF w))
  | _ => .error .instruction

/-- Major 0x33 (R44). -/
def decodeOp33 (w : Word) : Except DecodeErr Instr :=
  match (fnF w).toNat with
  | 0 => need [] [decide (dF w = 0), decide (bF w = 0), !nF w] (.trap (aF w) (nF w) (pF w))
  | 1 => need [] [decide (dF w = 0), decide (aF w = 0), decide (bF w = 0), !nF w] (.eret (nF w) (pF w))
  | 2 => need [] [decide (aF w = 0)] (.srdp (dF w) (bF w) (nF w) (pF w))
  | 3 => need [] [decide (dF w = 0), !nF w] (.swrp (aF w) (bF w) (nF w) (pF w))
  | 4 => need [] [decide (dF w = 0), decide (bF w = 0), !nF w] (.halt (aF w) (nF w) (pF w))
  | _ => .error .instruction

/-- Major 0x38 (R44, R47). -/
def decodeOp38 (w : Word) : Except DecodeErr Instr :=
  match (cmdF w).toNat with
  | 0 => need [decide (vF w = 0)] [decide (dF w = 0), decide (repF w = false)] (.cpyG2s (aF w) (bF w))
  | 1 => need [decide (vF w = 0)] [decide (dF w = 0), decide (repF w = false)] (.cpyS2g (aF w) (bF w))
  | 2 => need [decide (vF w = 0)] [decide (dF w = 0), decide (repF w = false)] (.cpyG2g (aF w) (bF w))
  | 3 => need [decide ((vF w).toNat ≤ 4)] [decide (dF w = 0), decide (repF w = false)] (.cpyGath (aF w) (bF w) (vF w))
  | 4 => need [decide (vF w = 0)] [decide (dF w = 0), decide (repF w = false)] (.cpyFill (aF w) (bF w))
  | 5 => need [decide (vF w = 0)] [decide (dF w = 0), decide (repF w = false)] (.cpyMap (aF w) (bF w))
  | 6 => need [decide (vF w = 0)] [decide (dF w = 0), decide (aF w = 0), decide (repF w = false)] (.cpyUnmap (bF w))
  | 7 => need [decide (vF w = 0)] [decide (dF w = 0), decide (aF w = 0), decide (repF w = false)] (.cpyWb (bF w))
  | _ => .error .instruction

/-- Major 0x39 (R44, R47). -/
def decodeOp39 (w : Word) : Except DecodeErr Instr :=
  match (cmdF w).toNat with
  | 0 => need [decide (vF w = 0)] [decide (dF w = 0), decide (repF w = false)] (.mtxMwld (aF w) (bF w))
  | 1 => need [decide (vF w = 0)] [decide (dF w = 0), decide (repF w = false)] (.mtxMwscl (aF w) (bF w))
  | 2 => need [decide ((vF w).toNat ≤ 2)] [decide (dF w = 0), decide (aF w = 0), decide (bF w = 0), decide (repF w = false)] (.mtxMswap (vF w))
  | 3 => need [decide (vF w = 0)] [decide (dF w = 0), decide (repF w = false)] (.mtxMstr (aF w) (bF w))
  | 4 => need [decide ((vF w).toNat ≤ 2)] [decide (dF w = 0), decide (aF w = 0), decide (bF w = 0), decide (repF w = false)] (.mtxMprom (vF w))
  | 5 => need [decide (vF w = 0)] [decide (dF w = 0), decide (aF w = 0), decide (repF w = false)] (.mtxMzero (bF w))
  | 6 => need [decide (vF w = 0)] [decide (bF w = 0), decide (repF w = true)] (.mtxMrd (dF w) (aF w))
  | 7 => need [decide (vF w = 0)] [decide (dF w = 0), decide (repF w = false)] (.mtxMwr (aF w) (bF w))
  | 8 => need [decide ((vF w).toNat ≤ 2)] [decide (repF w = true)] (.mtxMout (dF w) (aF w) (bF w) (vF w))
  | 9 => need [decide ((vF w).toNat ≤ 1)] [decide (repF w = true)] (.mtxMdrain (dF w) (aF w) (bF w) (vF w))
  | 10 => need [decide ((vF w).toNat ≤ 2)] [decide (aF w = 0), decide (bF w = 0), decide (repF w = true)] (.mtxMstat (dF w) (vF w))
  | _ => .error .instruction

/-- Major 0x3A (R44, R47). -/
def decodeOp3A (w : Word) : Except DecodeErr Instr :=
  match (cmdF w).toNat with
  | 0 => need [decide (vF w = 0)] [decide (dF w = 0), decide (bF w = 0), decide (repF w = false)] (.splScfg (aF w))
  | 1 => need [decide (vF w = 0)] [decide (bF w = 0), decide (repF w = true)] (.splSproj (dF w) (aF w))
  | 2 => need [decide (vF w = 0)] [decide (bF w = 0), decide (repF w = true)] (.splSbin (dF w) (aF w))
  | 3 => need [decide (vF w = 0)] [decide (bF w = 0), decide (repF w = true)] (.splSsort (dF w) (aF w))
  | 4 => need [decide (vF w = 0)] [decide (bF w = 0), decide (repF w = true)] (.splSblend (dF w) (aF w))
  | 5 => need [decide (vF w = 0)] [decide (bF w = 0), decide (repF w = true)] (.splSrepl (dF w) (aF w))
  | _ => .error .instruction

/-- Major 0x3B (R44, R47). -/
def decodeOp3B (w : Word) : Except DecodeErr Instr :=
  match (cmdF w).toNat with
  | 0 => need [decide (vF w = 0)] [decide (dF w = 0), decide (bF w = 0), decide (repF w = false)] (.slvCfg (aF w))
  | 1 => need [decide (vF w = 0)] [decide (bF w = 0), decide (repF w = true)] (.slvLu (dF w) (aF w))
  | 2 => need [decide (vF w = 0)] [decide (bF w = 0), decide (repF w = true)] (.slvLus (dF w) (aF w))
  | 3 => need [decide (vF w = 0)] [decide (bF w = 0), decide (repF w = true)] (.slvChol (dF w) (aF w))
  | 4 => need [decide (vF w = 0)] [decide (bF w = 0), decide (repF w = true)] (.slvChs (dF w) (aF w))
  | 5 => need [decide (vF w = 0)] [decide (bF w = 0), decide (repF w = true)] (.slvCg (dF w) (aF w))
  | 6 => need [decide (vF w = 0)] [decide (bF w = 0), decide (repF w = true)] (.slvJac (dF w) (aF w))
  | _ => .error .instruction

/-- Major 0x3C (R44, R47). -/
def decodeOp3C (w : Word) : Except DecodeErr Instr :=
  match (cmdF w).toNat with
  | 0 => if vF w = 0 then need [] [decide (repF w = true)] (.colGrp (dF w) (aF w) (bF w))
      else if vF w = 1 then need [] [decide (dF w = 0), decide (aF w = 0), decide (repF w = false)] (.colGrpFree (bF w))
      else .error .instruction
  | 1 => need [decide (vF w = 0)] [decide (bF w = 0), decide (repF w = true)] (.colAred (dF w) (aF w))
  | 2 => need [decide (vF w = 0)] [decide (bF w = 0), decide (repF w = true)] (.colRsc (dF w) (aF w))
  | 3 => need [decide (vF w = 0)] [decide (bF w = 0), decide (repF w = true)] (.colAgath (dF w) (aF w))
  | 4 => need [decide (vF w = 0)] [decide (bF w = 0), decide (repF w = true)] (.colBcast (dF w) (aF w))
  | 5 => need [decide (vF w = 0)] [decide (bF w = 0), decide (repF w = true)] (.colPut (dF w) (aF w))
  | 6 => need [decide (vF w = 0)] [decide (repF w = true)] (.colWait (dF w) (aF w) (bF w))
  | _ => .error .instruction

/-- Major 0x3D (R44, R47). -/
def decodeOp3D (w : Word) : Except DecodeErr Instr :=
  match (cmdF w).toNat with
  | 0 => need [decide ((vF w).toNat < 2)] [decide (bF w = 0), decide (repF w = true)] (.grfLaunch (dF w) (aF w) (decide ((vF w).toNat = 1)))
  | 1 => need [decide (vF w = 0)] [decide (dF w = 0), decide (aF w = 0), decide (repF w = false)] (.grfQput (bF w))
  | 2 => need [decide (vF w = 0)] [decide (aF w = 0), decide (bF w = 0), decide (repF w = true)] (.grfQget (dF w))
  | 3 => need [decide (vF w = 0)] [decide (dF w = 0), decide (bF w = 0), decide (repF w = false)] (.grfNsig (aF w))
  | _ => .error .instruction

/-- Major 0x3E (R44, R47). -/
def decodeOp3E (w : Word) : Except DecodeErr Instr :=
  match (cmdF w).toNat with
  | 0 => need [decide (vF w = 0)] [decide (dF w = 0), decide (repF w = false)] (.prbMark (aF w) (bF w))
  | 1 => need [decide (vF w = 0)] [decide (dF w = 0), decide (aF w = 0), decide (bF w = 0), decide (repF w = false)] (.prbSamp)
  | 2 => need [decide (vF w = 0)] [decide (bF w = 0), decide (repF w = true)] (.prbRdx (dF w) (aF w))
  | _ => .error .instruction

/-- Major 0x3F (R44). -/
def decodeOp3F (w : Word) : Except DecodeErr Instr :=
  match (fnF w).toNat with
  | 0 => need [] [decide (dF w = 0), !nF w] (.fork (aF w) (bF w) (nF w) (pF w))
  | 1 => need [] [decide (dF w = 0), decide (1 ≤ (bF w).toNat ∧ (bF w).toNat ≤ 3), !nF w] (.rdvz (aF w) (bF w) (nF w) (pF w))
  | 2 => need [] [decide (dF w = 0), decide (bF w = 0), !nF w] (.mburst (aF w) (nF w) (pF w))
  | _ => .error .instruction

/-- The words of major opcode `op` (R44). -/
def decodeMajor (op : Nat) (w : Word) : Except DecodeErr Instr :=
  match op with
  | 1 => decodeOp01 w
  | 2 => decodeOp02 w
  | 3 => decodeOp03 w
  | 4 => need [] [] (.imad (dF w) (aF w) (bF w) (cF w) (n1F w) (p0F w))
  | 5 => need [] [] (.iaddi (dF w) (aF w) (immF w) (n1F w) (p0F w))
  | 6 => need [] [] (.iaddi64 (dF w) (aF w) (immF w) (n1F w) (p0F w))
  | 7 => need [] [] (.andi (dF w) (aF w) (immF w) (n1F w) (p0F w))
  | 8 => need [] [] (.ori (dF w) (aF w) (immF w) (n1F w) (p0F w))
  | 9 => need [] [] (.xori (dF w) (aF w) (immF w) (n1F w) (p0F w))
  | 10 => need [] [decide ((immF w).toNat / 64 % 4 = 0)] (.shfi (dF w) (aF w) (BitVec.ofNat 4 ((immF w).toNat / 256)) ((immF w).setWidth 6) (n1F w) (p0F w))
  | 11 => need [] [] (.lui (dF w) (imm20F w))
  | 12 => need [] [] (.auipc (dF w) (imm20F w))
  | 13 => decodeOp0D w
  | 14 => need [] [] (.ffma (dF w) (aF w) (bF w) (cF w) (n1F w) (p0F w))
  | 15 => need [] [] (.ffms (dF w) (aF w) (bF w) (cF w) (n1F w) (p0F w))
  | 16 => need [] [] (.ffnma (dF w) (aF w) (bF w) (cF w) (n1F w) (p0F w))
  | 17 => decodeOp11 w
  | 18 => need [] [] (.dfma (dF w) (aF w) (bF w) (cF w) (n1F w) (p0F w))
  | 19 => need [] [] (.dfms (dF w) (aF w) (bF w) (cF w) (n1F w) (p0F w))
  | 20 => decodeOp14 w
  | 21 => need [] [] (.hfma2 (dF w) (aF w) (bF w) (cF w) (n1F w) (p0F w))
  | 22 => decodeOp16 w
  | 23 => decodeOp17 w
  | 24 => need [decide ((fnF w).toNat ≤ 9)] [] (.cvt (dF w) (aF w) (BitVec.ofNat 4 ((bF w).toNat / 4)) ((bF w).setWidth 2) (fnF w) (nF w) (pF w))
  | 25 => decodeOp19 w
  | 26 => need [] [!nF w] (.cmpi (dF w) (aF w) (bF w) (fnF w) (nF w) (pF w))
  | 27 => need [decide ((fnF w).toNat ≤ 13)] [!nF w] (.cmpf (dF w) (aF w) (bF w) (fnF w) (nF w) (pF w))
  | 28 => need [decide ((fnF w).toNat ≤ 13)] [!nF w] (.cmpd (dF w) (aF w) (bF w) (fnF w) (nF w) (pF w))
  | 29 => if (fnF w).toNat < 8 then need [] [!nF w] (.cmph2 (dF w) (aF w) (bF w) ((fnF w).setWidth 3) (nF w) (pF w))
      else need [decide (((fnF w).setWidth 3).toNat ≤ 5)] [!nF w] (.cmpz (dF w) (aF w) (bF w) ((fnF w).setWidth 3) (nF w) (pF w))
  | 30 => decodeOp1E w
  | 31 => decodeOp1F w
  | 32 => decodeOp20 w
  | 33 => need [] [] (.ld (dF w) (aF w) (offF w) (szF w) (dcF w) (p0F w))
  | 34 => need [] [] (.st (dF w) (aF w) (offF w) (szF w) (dcF w) (p0F w))
  | 35 => need [] [] (.lds (dF w) (aF w) (offF w) (szF w) (dcF w) (p0F w))
  | 36 => need [] [] (.sts (dF w) (aF w) (offF w) (szF w) (dcF w) (p0F w))
  | 37 => need [] [decide (2 ≤ (szF w).toNat)] (.ldt (dF w) (aF w) (offF w) (decide ((szF w).toNat = 3)) (dcF w) (p0F w))
  | 38 => need [] [decide (2 ≤ (szF w).toNat)] (.stt (dF w) (aF w) (offF w) (decide ((szF w).toNat = 3)) (dcF w) (p0F w))
  | 39 => need [] [] (.ldc (dF w) (aF w) (offF w) (szF w) (dcF w) (p0F w))
  | 40 => need [] [decide (dF w = 0), decide (dcF w = 0)] (.prf (aF w) (offF w) (szF w) (p0F w))
  | 41 => need [decide ((fnF w).toNat ≤ 13)] [] (.atom (dF w) (aF w) (bF w) (fnF w) (scF w) (p0F w))
  | 42 => need [((fnF w).toNat ≤ 12 && (fnF w).toNat != 8 && (fnF w).toNat != 9)] [decide (dF w = 0)] (.red (aF w) (bF w) (fnF w) (scF w) (p0F w))
  | 43 => decodeOp2B w
  | 44 => decodeOp2C w
  | 45 => decodeOp2D w
  | 46 => need [] [] (.bra (bpF w) (bnF w) (btF w) (brF w))
  | 47 => need [] [] (.call (s26F w))
  | 48 => decodeOp30 w
  | 49 => need [decide (w.toNat % 4096 = 0)] [] (.loop (dF w) (llF w))
  | 50 => need [decide (w.toNat % 64 = 0)] [] (.loopi (lcF w) (lilF w))
  | 51 => decodeOp33 w
  | 56 => decodeOp38 w
  | 57 => decodeOp39 w
  | 58 => decodeOp3A w
  | 59 => decodeOp3B w
  | 60 => decodeOp3C w
  | 61 => decodeOp3D w
  | 62 => decodeOp3E w
  | 63 => decodeOp3F w
  | _ => .error .instruction

/-- The thread decoder (R34, R44-R47): the instruction of a word, or the decode fault that the word alone
earns. Operand codes that depend on the kernel or the latches are checked when the instruction runs (R49). -/
def decode (w : Word) : Except DecodeErr Instr := decodeMajor (opF w).toNat w

/-- The word of an instruction (R34, R44-R47); an event has none. -/
def encode : Instr → Option Word
  | .iadd d a b n p => some (encA 1 d a (b) (0) n p)
  | .isub d a b n p => some (encA 1 d a (b) (1) n p)
  | .imul d a b n p => some (encA 1 d a (b) (2) n p)
  | .imulh d a b n p => some (encA 1 d a (b) (3) n p)
  | .imulhu d a b n p => some (encA 1 d a (b) (4) n p)
  | .and d a b n p => some (encA 1 d a (b) (5) n p)
  | .or d a b n p => some (encA 1 d a (b) (6) n p)
  | .xor d a b n p => some (encA 1 d a (b) (7) n p)
  | .andn d a b n p => some (encA 1 d a (b) (8) n p)
  | .shl d a b n p => some (encA 1 d a (b) (9) n p)
  | .shr d a b n p => some (encA 1 d a (b) (10) n p)
  | .sra d a b n p => some (encA 1 d a (b) (11) n p)
  | .rotl d a b n p => some (encA 1 d a (b) (12) n p)
  | .min d a b n p => some (encA 1 d a (b) (13) n p)
  | .max d a b n p => some (encA 1 d a (b) (14) n p)
  | .absd d a b n p => some (encA 1 d a (b) (15) n p)
  | .minu d a b n p => some (encA 2 d a (b) (0) n p)
  | .maxu d a b n p => some (encA 2 d a (b) (1) n p)
  | .popc d a n p => some (encA 2 d a (0) (2) n p)
  | .clz d a n p => some (encA 2 d a (0) (3) n p)
  | .ctz d a n p => some (encA 2 d a (0) (4) n p)
  | .brev d a n p => some (encA 2 d a (0) (5) n p)
  | .bfx d a b n p => some (encA 2 d a (b) (6) n p)
  | .bfi d a b n p => some (encA 2 d a (b) (7) n p)
  | .sel d a b n s => some (encA 2 d a (b) (8) n s)
  | .lea d a b n p => some (encA 2 d a (b) (9) n p)
  | .idiv d a b n p => some (encA 2 d a (b) (10) n p)
  | .idivu d a b n p => some (encA 2 d a (b) (11) n p)
  | .irem d a b n p => some (encA 2 d a (b) (12) n p)
  | .iremu d a b n p => some (encA 2 d a (b) (13) n p)
  | .iadd64 d a b n p => some (encA 3 d a (b) (0) n p)
  | .isub64 d a b n p => some (encA 3 d a (b) (1) n p)
  | .shl64 d a b n p => some (encA 3 d a (b) (2) n p)
  | .shr64 d a b n p => some (encA 3 d a (b) (3) n p)
  | .sra64 d a b n p => some (encA 3 d a (b) (4) n p)
  | .mov64 d a n p => some (encA 3 d a (0) (5) n p)
  | .lea64 d a b n p => some (encA 3 d a (b) (6) n p)
  | .imul64 d a b n p => some (encA 3 d a (b) (7) n p)
  | .imad d a b c n p => some (encF 4 d a b c n p)
  | .iaddi d a i n p => some (encI 5 d a i n p)
  | .iaddi64 d a i n p => some (encI 6 d a i n p)
  | .andi d a i n p => some (encI 7 d a i n p)
  | .ori d a i n p => some (encI 8 d a i n p)
  | .xori d a i n p => some (encI 9 d a i n p)
  | .shfi d a k m n p => some (encI 10 d a (BitVec.ofNat 12 (k.toNat * 256 + m.toNat)) n p)
  | .lui d i => some (encU 11 d i)
  | .auipc d i => some (encU 12 d i)
  | .fadd d a b n p => some (encA 13 d a (b) (0) n p)
  | .fsub d a b n p => some (encA 13 d a (b) (1) n p)
  | .fmul d a b n p => some (encA 13 d a (b) (2) n p)
  | .fdiv d a b n p => some (encA 13 d a (b) (3) n p)
  | .fsqrt d a n p => some (encA 13 d a (0) (4) n p)
  | .fmin d a b n p => some (encA 13 d a (b) (5) n p)
  | .fmax d a b n p => some (encA 13 d a (b) (6) n p)
  | .fminm d a b n p => some (encA 13 d a (b) (7) n p)
  | .fmaxm d a b n p => some (encA 13 d a (b) (8) n p)
  | .fabs d a n p => some (encA 13 d a (0) (9) n p)
  | .fneg d a n p => some (encA 13 d a (0) (10) n p)
  | .fcpys d a b n p => some (encA 13 d a (b) (11) n p)
  | .frnd d a m n p => some (encA 13 d a (m.setWidth 6) (12) n p)
  | .fclass d a n p => some (encA 13 d a (0) (13) n p)
  | .ffma d a b c n p => some (encF 14 d a b c n p)
  | .ffms d a b c n p => some (encF 15 d a b c n p)
  | .ffnma d a b c n p => some (encF 16 d a b c n p)
  | .dadd d a b n p => some (encA 17 d a (b) (0) n p)
  | .dsub d a b n p => some (encA 17 d a (b) (1) n p)
  | .dmul d a b n p => some (encA 17 d a (b) (2) n p)
  | .ddiv d a b n p => some (encA 17 d a (b) (3) n p)
  | .dsqrt d a n p => some (encA 17 d a (0) (4) n p)
  | .dmin d a b n p => some (encA 17 d a (b) (5) n p)
  | .dmax d a b n p => some (encA 17 d a (b) (6) n p)
  | .dminm d a b n p => some (encA 17 d a (b) (7) n p)
  | .dmaxm d a b n p => some (encA 17 d a (b) (8) n p)
  | .dabs d a n p => some (encA 17 d a (0) (9) n p)
  | .dneg d a n p => some (encA 17 d a (0) (10) n p)
  | .dcpys d a b n p => some (encA 17 d a (b) (11) n p)
  | .drnd d a m n p => some (encA 17 d a (m.setWidth 6) (12) n p)
  | .dclass d a n p => some (encA 17 d a (0) (13) n p)
  | .dfma d a b c n p => some (encF 18 d a b c n p)
  | .dfms d a b c n p => some (encF 19 d a b c n p)
  | .hadd2 d a b n p => some (encA 20 d a (b) (0) n p)
  | .hsub2 d a b n p => some (encA 20 d a (b) (1) n p)
  | .hmul2 d a b n p => some (encA 20 d a (b) (2) n p)
  | .hmin2 d a b n p => some (encA 20 d a (b) (3) n p)
  | .hmax2 d a b n p => some (encA 20 d a (b) (4) n p)
  | .habs2 d a n p => some (encA 20 d a (0) (5) n p)
  | .hneg2 d a n p => some (encA 20 d a (0) (6) n p)
  | .hfma2 d a b c n p => some (encF 21 d a b c n p)
  | .vaddH2 d a b n p => some (encA 22 d a (b) (0) n p)
  | .vsubH2 d a b n p => some (encA 22 d a (b) (1) n p)
  | .vaddsH2 d a b n p => some (encA 22 d a (b) (2) n p)
  | .vsubsH2 d a b n p => some (encA 22 d a (b) (3) n p)
  | .vmaxH2 d a b n p => some (encA 22 d a (b) (4) n p)
  | .vminH2 d a b n p => some (encA 22 d a (b) (5) n p)
  | .acsH2 d a b n p => some (encA 22 d a (b) (6) n p)
  | .fexp2 d a n p => some (encA 23 d a (0) (0) n p)
  | .flog2 d a n p => some (encA 23 d a (0) (1) n p)
  | .fsin d a n p => some (encA 23 d a (0) (2) n p)
  | .fcos d a n p => some (encA 23 d a (0) (3) n p)
  | .frcp d a n p => some (encA 23 d a (0) (4) n p)
  | .frsq d a n p => some (encA 23 d a (0) (5) n p)
  | .ftanh d a n p => some (encA 23 d a (0) (6) n p)
  | .cvt d a s m f n p => some (encA 24 d a (s ++ m) (f) n p)
  | .zpackZ8 d a b n p => some (encA 25 d a (b) (0) n p)
  | .zpackZ6 d a b n p => some (encA 25 d a (b) (1) n p)
  | .zunpkZ8 d a n p => some (encA 25 d a (0) (2) n p)
  | .zunpkZ6 d a n p => some (encA 25 d a (0) (3) n p)
  | .zscale d a b n p => some (encA 25 d a (b) (4) n p)
  | .cmpi d a b f n p => some (encA 26 d a (b) (f) n p)
  | .cmpf d a b f n p => some (encA 27 d a (b) (f) n p)
  | .cmpd d a b f n p => some (encA 28 d a (b) (f) n p)
  | .cmph2 d a b f n p => some (encA 29 d a (b) (0#1 ++ f) n p)
  | .cmpz d a b f n p => some (encA 29 d a (b) (1#1 ++ f) n p)
  | .pand d a b n p => some (encA 30 d a (b) (0) n p)
  | .por d a b n p => some (encA 30 d a (b) (1) n p)
  | .pxor d a b n p => some (encA 30 d a (b) (2) n p)
  | .pnot d a n p => some (encA 30 d a (0) (3) n p)
  | .pmov d a n p => some (encA 30 d a (0) (4) n p)
  | .pset d a n p => some (encA 30 d a (0) (5) n p)
  | .gset d a n p => some (encA 30 d a (0) (6) n p)
  | .gsetOpen d n p => some (encA 30 d 0 (1) (6) n p)
  | .mov d a n p => some (encA 31 d a (0) (0) n p)
  | .srd d b n p => some (encA 31 d 0 (b) (1) n p)
  | .swr a b n p => some (encA 31 0 a (b) (2) n p)
  | .ldkW d a n p => some (encA 31 d a (0) (3) n p)
  | .ldkD d a n p => some (encA 31 d a (0) (4) n p)
  | .tseed d a w k n p => some (encA 32 d a (BitVec.ofNat 6 (w.toNat * 8 + k.toNat)) (0) n p)
  | .tget d a k n p => some (encA 32 d a (k.setWidth 6) (1) n p)
  | .tset d a k n p => some (encA 32 d a (k.setWidth 6) (2) n p)
  | .tzero d a w n p => some (encA 32 d a (BitVec.ofNat 6 (w.toNat * 8)) (3) n p)
  | .tmov d a w n p => some (encA 32 d a (BitVec.ofNat 6 (w.toNat * 8)) (4) n p)
  | .dext d a b n p => some (encA 32 d a (b) (5) n p)
  | .foot d a n p => some (encA 32 d a (0) (6) n p)
  | .motv d a n p => some (encA 32 d a (0) (7) n p)
  | .ld d a o s k p => some (encM 33 d a o s k p)
  | .st d a o s k p => some (encM 34 d a o s k p)
  | .lds d a o s k p => some (encM 35 d a o s k p)
  | .sts d a o s k p => some (encM 36 d a o s k p)
  | .ldt d a o s k p => some (encM 37 d a o (BitVec.ofNat 2 (2 + s.toNat)) k p)
  | .stt d a o s k p => some (encM 38 d a o (BitVec.ofNat 2 (2 + s.toNat)) k p)
  | .ldc d a o s k p => some (encM 39 d a o s k p)
  | .prf a o s p => some (encM 40 0 a o s 0 p)
  | .atom d a b f s p => some (encX 41 d a b f s p)
  | .red a b f s p => some (encX 42 0 a b f s p)
  | .fence s n p => some (encA 43 0 0 (s.setWidth 6) (0) n p)
  | .watch a n p => some (encA 43 0 a (0) (1) n p)
  | .waitm d a n p => some (encA 43 d a (0) (2) n p)
  | .bar a s n p => some (encA 43 0 a (s.setWidth 6) (3) n p)
  | .bara a s n p => some (encA 43 0 a (s.setWidth 6) (4) n p)
  | .barw a n p => some (encA 43 0 a (0) (5) n p)
  | .seal d n p => some (encA 43 d 0 (0) (6) n p)
  | .waitb a n p => some (encA 43 0 a (0) (7) n p)
  | .trig n p => some (encA 43 0 0 (0) (8) n p)
  | .flushd n p => some (encA 43 0 0 (0) (9) n p)
  | .lgetAt d a b n p => some (encA 44 d a (b) (0) n p)
  | .lgetLower d a b n p => some (encA 44 d a (b) (1) n p)
  | .lgetHigher d a b n p => some (encA 44 d a (b) (2) n p)
  | .lgetFlip d a b n p => some (encA 44 d a (b) (3) n p)
  | .push d a b n p => some (encA 44 d a (b) (4) n p)
  | .voteAnd d a b n p => some (encA 44 d a (b) (5) n p)
  | .voteOr d a b n p => some (encA 44 d a (b) (6) n p)
  | .voteEqv d a b n p => some (encA 44 d a (b) (7) n p)
  | .ballot d a b n p => some (encA 44 d a (b) (8) n p)
  | .bfly d a b n p => some (encA 44 d a (b) (9) n p)
  | .compress d a b n p => some (encA 44 d a (b) (10) n p)
  | .expand d a b n p => some (encA 44 d a (b) (11) n p)
  | .hist d a b n p => some (encA 45 d a (b) (0) n p)
  | .hmerge d a b n p => some (encA 45 d a (b) (1) n p)
  | .osmx d a n p => some (encA 45 d a (0) (2) n p)
  | .osmxf d a n p => some (encA 45 d a (0) (3) n p)
  | .bra p n t r => some (encB 46 p n t r)
  | .call s => some (encJ 47 s)
  | .nop n p => some (encA 48 0 0 (0) (0) n p)
  | .yield n p => some (encA 48 0 0 (0) (1) n p)
  | .brx a n p => some (encA 48 0 a (0) (2) n p)
  | .calli a n p => some (encA 48 0 a (0) (3) n p)
  | .ret n p => some (encA 48 0 0 (0) (4) n p)
  | .exit n p => some (encA 48 0 0 (0) (5) n p)
  | .brk a n p => some (encA 48 0 a (0) (6) n p)
  | .loop c l => some (encLoop 49 c l)
  | .loopi c l => some (encLoopi 50 c l)
  | .trap a n p => some (encA 51 0 a (0) (0) n p)
  | .eret n p => some (encA 51 0 0 (0) (1) n p)
  | .srdp d b n p => some (encA 51 d 0 (b) (2) n p)
  | .swrp a b n p => some (encA 51 0 a (b) (3) n p)
  | .halt a n p => some (encA 51 0 a (0) (4) n p)
  | .fork a b n p => some (encA 63 0 a (b) (0) n p)
  | .rdvz a b n p => some (encA 63 0 a (b) (1) n p)
  | .rdvzEngine a b n p => some (encA 63 0 a (b) (1) n p)
  | .mburst a n p => some (encA 63 0 a (0) (2) n p)
  | .cpyG2s a b => some (encC 56 0 a b (0) 0 false)
  | .cpyS2g a b => some (encC 56 0 a b (0) 1 false)
  | .cpyG2g a b => some (encC 56 0 a b (0) 2 false)
  | .cpyGath a b v => some (encC 56 0 a b (v) 3 false)
  | .cpyFill a b => some (encC 56 0 a b (0) 4 false)
  | .cpyMap a b => some (encC 56 0 a b (0) 5 false)
  | .cpyUnmap b => some (encC 56 0 0 b (0) 6 false)
  | .cpyWb b => some (encC 56 0 0 b (0) 7 false)
  | .mtxMwld a b => some (encC 57 0 a b (0) 0 false)
  | .mtxMwscl a b => some (encC 57 0 a b (0) 1 false)
  | .mtxMswap v => some (encC 57 0 0 0 (v) 2 false)
  | .mtxMstr a b => some (encC 57 0 a b (0) 3 false)
  | .mtxMprom v => some (encC 57 0 0 0 (v) 4 false)
  | .mtxMzero b => some (encC 57 0 0 b (0) 5 false)
  | .mtxMrd d a => some (encC 57 d a 0 (0) 6 true)
  | .mtxMwr a b => some (encC 57 0 a b (0) 7 false)
  | .mtxMout d a b v => some (encC 57 d a b (v) 8 true)
  | .mtxMdrain d a b v => some (encC 57 d a b (v) 9 true)
  | .mtxMstat d v => some (encC 57 d 0 0 (v) 10 true)
  | .splScfg a => some (encC 58 0 a 0 (0) 0 false)
  | .splSproj d a => some (encC 58 d a 0 (0) 1 true)
  | .splSbin d a => some (encC 58 d a 0 (0) 2 true)
  | .splSsort d a => some (encC 58 d a 0 (0) 3 true)
  | .splSblend d a => some (encC 58 d a 0 (0) 4 true)
  | .splSrepl d a => some (encC 58 d a 0 (0) 5 true)
  | .slvCfg a => some (encC 59 0 a 0 (0) 0 false)
  | .slvLu d a => some (encC 59 d a 0 (0) 1 true)
  | .slvLus d a => some (encC 59 d a 0 (0) 2 true)
  | .slvChol d a => some (encC 59 d a 0 (0) 3 true)
  | .slvChs d a => some (encC 59 d a 0 (0) 4 true)
  | .slvCg d a => some (encC 59 d a 0 (0) 5 true)
  | .slvJac d a => some (encC 59 d a 0 (0) 6 true)
  | .colGrp d a b => some (encC 60 d a b (0) 0 true)
  | .colGrpFree b => some (encC 60 0 0 b (1) 0 false)
  | .colAred d a => some (encC 60 d a 0 (0) 1 true)
  | .colRsc d a => some (encC 60 d a 0 (0) 2 true)
  | .colAgath d a => some (encC 60 d a 0 (0) 3 true)
  | .colBcast d a => some (encC 60 d a 0 (0) 4 true)
  | .colPut d a => some (encC 60 d a 0 (0) 5 true)
  | .colWait d a b => some (encC 60 d a b (0) 6 true)
  | .grfLaunch d a v => some (encC 61 d a 0 (BitVec.ofNat 3 v.toNat) 0 true)
  | .grfQput b => some (encC 61 0 0 b (0) 1 false)
  | .grfQget d => some (encC 61 d 0 0 (0) 2 true)
  | .grfNsig a => some (encC 61 0 a 0 (0) 3 false)
  | .prbMark a b => some (encC 62 0 a b (0) 0 false)
  | .prbSamp => some (encC 62 0 0 0 (0) 1 false)
  | .prbRdx d a => some (encC 62 d a 0 (0) 2 true)
  | .packageReset => none
  | .pkgrst _ => none
  | .fwgo _ => none
  | .start _ => none
  | .attgo _ => none
  | .dbgnonceRead => none
  | .dbggo _ => none
  | .dbgsessOpen _ => none
  | .dbgsessClose => none
  | .dbgresSame _ _ _ _ _ => none
  | .dbgresNext _ _ _ _ _ => none
  | .invRange _ _ => none
  | .invAsid _ _ => none
  | .contextRefresh _ _ => none
  | .invalidationDone _ => none
  | .portReset _ => none
  | .pwrP0 _ => none
  | .pwrP1 _ => none
  | .pwrP2 _ => none
  | .pwrP3 _ => none
  | .p3Wake _ => none
  | .registerWrite _ _ _ => none
  | .hostHdmAccess _ _ _ _ => none
  | .submissionWordFire _ _ => none
  | .faultResponse _ _ => none
  | .coreDump _ => none
  | .unitPlace _ _ => none
  | .placingDone _ _ => none
  | .slotRetire _ _ => none
  | .clusterModeSwitch _ _ => none
  | .waitlimExpiry _ _ => none
  | .cohortSave _ => none
  | .flushdMakeRoom _ => none
  | .nodeRetire _ => none
  | .nodeTrigger _ => none
  | .copyNodeRun _ => none
  | .signalNodeRun _ => none
  | .clauseOpen _ => none
  | .parkedGroupResume _ => none
  | .deferralRelease _ => none
  | .deferralExpiry _ => none
  | .rendezvousComplete _ _ _ _ => none
  | .debugStop _ => none
  | .threadExitComplete _ => none
  | .loadDataReturn _ => none
  | .writeArrivalHome _ => none
  | .waitmTimeout _ => none
  | .leaseExpiry _ => none
  | .stackRowFill _ _ _ => none
  | .guardHead _ _ => none
  | .commandReply _ _ => none
  | .copyComplete _ => none
  | .arrayRowExit _ => none
  | .arrayRampUpDone _ => none
  | .arrayRampDown _ => none
  | .mburstWindowExpiry _ => none
  | .barrierPhaseComplete _ _ => none
  | .flushdComplete _ => none
  | .queueRecordDeliver _ => none
  | .flitReceive _ _ _ _ _ _ _ _ => none
  | .flitCrcRetry _ => none
  | .linkFailure _ => none
  | .trainingSuccess _ => none
  | .retrainTimeout _ => none
  | .collectiveInstanceComplete _ _ _ => none
  | .collectiveTimeout _ => none
  | .putDelivered _ => none
  | .cicadaSample _ => none
  | .requestSampleComplete _ _ => none
  | .softError _ _ _ _ _ => none
  | .storePerformed _ => none
  | .hostRecall _ => none
  | .openIntervalWaitExpiry _ => none
  | .commandComplete _ _ => none
  | .hdmDecoderProgram _ => none

/-- The decoder of engine programs, where it differs from the thread decoder: `RDVZ` has its engine form
(R236, R239). Register fields of an engine program are read under R237 when the word runs. -/
def decodeEngine (w : Word) : Except DecodeErr Instr :=
  if (opF w).toNat = 63 ∧ (fnF w).toNat = 1 then
    need [] [decide (dF w = 0), !nF w] (.rdvzEngine (aF w) (bF w) (nF w) (pF w))
  else decode w

/-- A word from four bytes, the first the least significant (R11), and the bytes that follow it. -/
def wordOfBytes : List Byte → Option (Word × List Byte)
  | b0 :: b1 :: b2 :: b3 :: rest =>
    some (BitVec.ofNat 32 (b0.toNat + b1.toNat * 2 ^ 8 + b2.toNat * 2 ^ 16 + b3.toNat * 2 ^ 24), rest)
  | _ => none

/-- The four bytes of a word as memory holds them (R11). -/
def bytesOfWord (w : Word) : List Byte :=
  [BitVec.ofNat 8 w.toNat, BitVec.ofNat 8 (w.toNat / 2 ^ 8), BitVec.ofNat 8 (w.toNat / 2 ^ 16),
    BitVec.ofNat 8 (w.toNat / 2 ^ 24)]

/-- The decoder on bytes: the first instruction and the bytes after it, or the reason there is none. -/
def decodeBytes (bs : List Byte) : Except DecodeErr (Instr × List Byte) :=
  match wordOfBytes bs with
  | none => .error .short
  | some (w, rest) =>
    match decode w with
    | .ok i => .ok (i, rest)
    | .error e => .error e

/-- The fields of a clause header (R29). -/
structure Header where
  /-- Number of instruction words, 1-15. -/
  count : Nat
  /-- Class: 0 thread, 1 matrix, 2 copy, 3 splat, 4 solver, 5 collective. -/
  cls : Nat
  /-- WAIT bits, bit I for `dcI`. -/
  wait : BitVec 4
  /-- Guard slot, 0 for none. -/
  guard : Nat
  /-- Sense of the guard. -/
  sense : Bool
  /-- The yield hint. -/
  yields : Bool
deriving DecidableEq, Repr

/-- The fields of a header word, legal or not. -/
def headerFields (w : Word) : Header :=
  { count := w.toNat / 2 ^ 24 % 16, cls := w.toNat / 2 ^ 21 % 8, wait := BitVec.ofNat 4 (w.toNat / 2 ^ 17)
    guard := w.toNat / 2 ^ 14 % 8, sense := decide (w.toNat / 2 ^ 13 % 2 = 1)
    yields := decide (w.toNat / 2 ^ 12 % 2 = 1) }

/-- The TAG of R29. -/
def isTagged (w : Word) : Bool := w.toNat / 2 ^ 28 == 0b1011

/-- The header check of R29; `none` is an Illegal Clause. -/
def decodeHeader (w : Word) : Option Header :=
  let h := headerFields w
  if isTagged w && h.count != 0 && decide (h.cls < 6) && w.toNat % 4096 == 0 then some h else none

/-- A control transfer in the sense of R32, judged from the word: `BRA`, `CALL`, `BRX`, `CALLI`, `RET`,
`EXIT`, `BRK`, `LOOP`, `LOOPI`. -/
def isTransfer (w : Word) : Bool :=
  let op := (opF w).toNat
  op == 0x2E || op == 0x2F || op == 0x31 || op == 0x32
    || (op == 0x30 && 2 ≤ (fnF w).toNat && (fnF w).toNat ≤ 6)

/-- The word formats of R34, with the FMT codes of R55. -/
inductive Fmt where
  | a | f | i | u | m | x | b | j | loop | loopi | c | none
deriving DecidableEq, Repr

/-- The format a major opcode chooses (R34, R44). -/
def fmtOf (op : Nat) : Fmt :=
  if op = 0 ∨ (0x34 ≤ op ∧ op ≤ 0x37) then .none
  else if op = 0x04 ∨ (0x0E ≤ op ∧ op ≤ 0x10) ∨ op = 0x12 ∨ op = 0x13 ∨ op = 0x15 then .f
  else if 0x05 ≤ op ∧ op ≤ 0x0A then .i
  else if op = 0x0B ∨ op = 0x0C then .u
  else if 0x21 ≤ op ∧ op ≤ 0x28 then .m
  else if op = 0x29 ∨ op = 0x2A then .x
  else if op = 0x2E then .b
  else if op = 0x2F then .j
  else if op = 0x31 then .loop
  else if op = 0x32 then .loopi
  else if 0x38 ≤ op ∧ op ≤ 0x3E then .c
  else .a

/-- FMT code of `TFLD1` (R55). -/
def Fmt.code : Fmt → Nat
  | .a => 1 | .f => 2 | .i => 3 | .u => 4 | .m => 5 | .x => 6 | .b => 7 | .j => 8 | .loop => 9 | .loopi => 10
  | .c => 11 | .none => 15

/-- The predicate of a word as a format-A code (R35, R55): code 7 where the format has none. `SEL` executes in
every thread (R45), so its field is read as code 7. -/
def predOf (w : Word) : BitVec 3 :=
  match fmtOf (opF w).toNat with
  | .a => if (opF w).toNat = 0x02 ∧ (fnF w).toNat = 8 then 7 else pF w
  | .f | .i | .m | .x => if p0F w then 0 else 7
  | .b => bpF w
  | _ => 7

/-- `TFLD0` of a word (R55). -/
def tfld0 (w : Word) : Word :=
  let fmt := fmtOf (opF w).toNat
  let flag : Bool := match fmt with
    | .a => nF w | .f | .i => n1F w | .c => repF w | .b => bnF w | _ => false
  let fn : Nat := match fmt with
    | .a | .x => (fnF w).toNat | .c => w.toNat / 2 % 128 | _ => 0
  let c : Nat := match fmt with | .f => (cF w).toNat | _ => 0
  let b : Nat := match fmt with | .a | .f | .x | .c => (bF w).toNat | _ => 0
  let a : Nat := match fmt with | .a | .f | .i | .m | .x | .c => (aF w).toNat | _ => 0
  let d : Nat := match fmt with
    | .a | .f | .i | .u | .m | .x | .c | .loop => (dF w).toNat | _ => 0
  BitVec.ofNat 32 (flag.toNat * 2 ^ 31 + fn * 2 ^ 24 + c * 2 ^ 18 + b * 2 ^ 12 + a * 2 ^ 6 + d)

/-- `TFLD1` of a word (R55). -/
def tfld1 (w : Word) : Word :=
  let fmt := fmtOf (opF w).toNat
  let len : Nat := match fmt with
    | .b => (brF w).toNat | .loop => (llF w).toNat | .loopi => (lilF w).toNat | _ => 0
  let scope : Nat := match fmt with | .x => (scF w).toNat | _ => 0
  let dc : Nat := match fmt with | .m => (dcF w).toNat | _ => 0
  let size : Nat := match fmt with | .m => (szF w).toNat | _ => 0
  let pred : Nat := match fmt with
    | .a => (pF w).toNat | .f | .i | .m | .x => if p0F w then 0 else 7 | .b => (bpF w).toNat | _ => 7
  BitVec.ofNat 32 (len * 2 ^ 20 + scope * 2 ^ 17 + dc * 2 ^ 15 + size * 2 ^ 13 + pred * 2 ^ 10
    + fmt.code * 2 ^ 6 + (opF w).toNat)

/-- `TVAL` of a word for Illegal Instruction and Illegal Operand (R56): its immediate field, unscaled. -/
def immediateOf (w : Word) : DWord :=
  match fmtOf (opF w).toNat with
  | .i => (immF w).signExtend 64
  | .m => (offF w).signExtend 64
  | .b => (btF w).signExtend 64
  | .j => (s26F w).signExtend 64
  | .u => (imm20F w).setWidth 64
  | .loopi => (lcF w).setWidth 64
  | _ => 0

/-- What a word needs beside legal fields (R51, orders 3 and 4; R48): the feature bit of R388, the lowest
trap level, and the core kind (0 any, 1 C-core, 2 S-core). -/
structure Gate where
  feature : Option Nat
  level : Nat
  kind : Nat
deriving DecidableEq, Repr

/-- The gate of a word (R51, R388). -/
def gateOf (w : Word) : Gate :=
  let op := (opF w).toNat
  let fn := (fnF w).toNat
  let z6 : Bool := (op == 0x18 && (fn == 5 || (bF w).toNat / 4 == 5)) || (op == 0x19 && (fn == 1 || fn == 3))
    || (op == 0x1D && 11 ≤ fn)
  if z6 then ⟨some 1, 0, 0⟩
  else if op == 0x3A then ⟨some 3, 0, 2⟩
  else if op == 0x3B then ⟨some 4, 0, 0⟩
  else if op == 0x3C then ⟨some 8, 0, 0⟩
  else if op == 0x39 then ⟨none, 0, 1⟩
  else if op == 0x3D && (cmdF w).toNat == 0 then ⟨some 7, 0, 0⟩
  else if op == 0x33 && fn == 1 then ⟨none, 1, 0⟩
  else if op == 0x33 && 2 ≤ fn then ⟨none, 2, 0⟩
  else if op == 0x3F && fn == 2 then ⟨none, 0, 1⟩
  else ⟨none, 0, 0⟩

/-- The decoder in the host's numbering: the first word's bits are bits 31..0 of `w`, the bits above `nbits`
are zero. A word that the thread decoder refuses is tried as a word of an engine program. -/
def decodeTableWord (nbits w : Nat) : Option Instr :=
  match decodeBytes (bytesOfWord (BitVec.ofNat 32 (w % 2 ^ nbits))) with
  | .ok (i, _) => some i
  | .error _ =>
    match decodeEngine (BitVec.ofNat 32 (w % 2 ^ nbits)) with
    | .ok i => some i
    | .error _ => none

end Sys2Proof
end

