-- ==== Sys2Proof/Machine/State.lean ====
section
/-! DEFINITION. The machine's state as plain data. Rule numbers name the rule of spec/ that gives a field; fields of the
model's own are named as such. -/

namespace Sys2Proof.Machine

/-- Data by number, in ascending order of the numbers; a number not listed has the default its reader names. -/
abbrev Map (α : Type) := List (Nat × α)

/-- The entry at a number. -/
def getK {α : Type} : Map α → Nat → Option α
  | [], _ => none
  | (k, v) :: m, i => if k = i then some v else getK m i

/-- A map with an entry set. -/
def putK {α : Type} : Map α → Nat → α → Map α
  | [], i, x => [(i, x)]
  | (k, v) :: m, i, x => if k = i then (i, x) :: m else if i < k then (i, x) :: (k, v) :: m else (k, v) :: putK m i x

/-- A map without the entries of a number. -/
def delK {α : Type} (m : Map α) (i : Nat) : Map α := m.filter (fun e => e.1 != i)

/-- A 32-bit value with its tangent slots (R74): slot bits, +0 where the list ends. -/
structure Dexel where
  val : Word
  tan : List Word
deriving DecidableEq, Repr

/-- 0 with zero tangents. -/
def Dexel.zero : Dexel := ⟨0, []⟩

/-- A bypass latch (R40). A latch of width 32 holds a zero high part (R57). -/
structure Latch where
  valid : Bool
  wide : Bool
  lo : Dexel
  hi : Dexel
deriving DecidableEq, Repr

/-- An invalid latch. -/
def Latch.invalid : Latch := ⟨false, false, Dexel.zero, Dexel.zero⟩
/-- The four bypass latches (R40). -/
structure Latches where
  l0 : Latch
  l1 : Latch
  l2 : Latch
  l3 : Latch
deriving DecidableEq, Repr
/-- The four latches at the start of a clause (R40). -/
def noLatches : Latches := ⟨Latch.invalid, Latch.invalid, Latch.invalid, Latch.invalid⟩

/-- The trap record of a level (R52, R55, R57): `TLATV` is the validity and width of `lats`. -/
structure TrapRec where
  cause : Word
  pc : DWord
  val : DWord
  word : Word
  fld0 : Word
  fld1 : Word
  cla : DWord
  lats : Latches
deriving DecidableEq, Repr

/-- A record of zeros. -/
def TrapRec.zero : TrapRec := ⟨0, 0, 0, 0, 0, 0, 0, noLatches⟩

/-- An open hardware loop (R174). -/
structure Loop where
  lc : Word
  start : DWord
  stop : DWord
deriving DecidableEq, Repr

/-- An entry of the Cocoon's undo log (R210): the value a register or predicate had. -/
inductive Undo where
  | reg (n : Nat) (old : Dexel)
  | pred (n : Nat) (old : Bool)
deriving DecidableEq, Repr

/-- The Cocoon of a lane (R210): the faulted instruction, its logged operands, the snapshot and the undo entries;
`fault` is the number of its device fault's record and `va` the address of its first faulting byte. -/
structure Cocoon where
  word : Word
  pc : DWord
  cla : DWord
  hdr : Header
  code : List Word
  addr : DWord
  data : List Dexel
  lats : Latches
  fsr : Word
  undo : List Undo
  fault : Nat
  va : Nat
deriving DecidableEq, Repr

/-- An engine fault waiting to be reported to a thread (R238): its point of report, `TVAL` and the word that
`TWORD` and `TFLD0`, `TFLD1` describe (none: the word at the point of report). -/
structure Report where
  point : Nat
  cause : Nat
  val : DWord
  word : Option Word
deriving DecidableEq, Repr

/-- What a thread does (R199, R203, R204, R207). -/
inductive Status where
  /-- At a clause boundary, or eligible. -/
  | ready
  /-- In an open clause. -/
  | issuing
  /-- In a parked group. -/
  | parked
  /-- Held as the taken side of a split (R204). -/
  | deferred
  /-- Waiting in `EXIT` for its counters (R162). -/
  | exiting
  /-- Exited. -/
  | exited
  /-- Halted by `HALT` (R190). -/
  | halted
  /-- In a fault wait at a fetch (R182). -/
  | fetchWait
  /-- Stopped by a debugger (R376). -/
  | stopped
  /-- In a saved cohort, or held while its cohort is saved (R214). -/
  | held
deriving DecidableEq, Repr

/-- The launch constants of a thread (R28, R59, R61, R323). -/
structure Launch where
  regs : Nat
  tcount : Nat
  t16 : Bool
  ndecl : Nat
  params : List Nat
  stack : Nat
  constBase : DWord
  kargs : List Byte
  asid : Nat
  node : Nat
  cohort : Nat
  crew : Nat
  coh : Word × Word × Word
  grid : Word × Word × Word
  stage : Nat
  det : Bool
  feats : DWord
deriving DecidableEq, Repr

/-- What a blocked instruction of a thread has already done (R217, R286-R292): its kind and two numbers. -/
structure WaitRec where
  kind : Nat
  a : Nat
  b : Nat
deriving DecidableEq, Repr

/-- A thread (R59). Registers and predicates not listed are zero and false. `zeros` holds the tick at which each counter last came
to 0 (R199); `loopBuf` the clauses of its open loops that stand in the loop buffer, header first (R8, R177, R182); `answers` the
pages, with the cause, of the fetches that the driver has declared fatal to it (R182, R428); `buffered` counts its entries in a
deterministic node's buffer (R364). -/
structure Thread where
  lc : Launch
  regs : Map Dexel
  preds : Map Bool
  lats : Latches
  dc : Map Nat
  zeros : Map Nat
  fcr : Word
  fsr : Word
  sp : Word
  slim : Word
  loops : List Loop
  loopBuf : Map (List Word)
  surv : Word
  wct : Nat
  thandler : DWord
  shandler : DWord
  ksave0 : DWord
  ksave1 : DWord
  stkbase : DWord
  level : Nat
  rec1 : TrapRec
  rec2 : TrapRec
  pc : DWord
  cla : DWord
  cocoon : Option Cocoon
  watch : Option (Nat × Bool)
  triggered : Bool
  sampMark : Bool
  stopReq : Bool
  batch : Nat
  yielded : Bool
  status : Status
  since : Nat
  busy : List Nat
  wait : Option WaitRec
  answers : List (Nat × Nat)
  reports : List Report
  buffered : Nat
  poison : List Nat
deriving DecidableEq, Repr

/-- The reuse-distance unit of a die (R380): tag registers (line, counter), the next register, L2 accesses that matched
none since the last sample, and the 16 bins. -/
structure Reuse where
  tags : List (Nat × Nat)
  next : Nat
  misses : Nat
  bins : Map Nat
deriving DecidableEq, Repr

/-- An issue group running a clause (R201): its core, member threads, clause header address, header, instruction
words as fetched (R182), the index of the next word, and whether it is a lane running ahead under its Cocoon (R209). -/
structure Group where
  core : Nat
  members : List Nat
  cla : DWord
  hdr : Header
  code : List Word
  idx : Nat
  ahead : Bool
deriving DecidableEq, Repr

/-- The taken side of a split held back (R204): the thread, the join, the not-taken threads it still waits for, and
its die's core-cycle count at which the deferral starts (R206, R3). -/
structure Deferral where
  thread : Nat
  join : DWord
  waits : List Nat
  start : Nat
deriving DecidableEq, Repr

/-- A cached translation (R341): level 0 core, 1 cluster, 2 die, and the unit of that level; a virtual base and size
(bytes), the physical base, the leaf's R, W, X bits and lease class (R343), and whether it holds an uncorrectable error (R384). -/
structure TlbEntry where
  level : Nat
  unit : Nat
  asid : Nat
  va : Nat
  size : Nat
  pa : Nat
  r : Bool
  w : Bool
  x : Bool
  lclass : Nat
  bad : Bool
deriving DecidableEq, Repr

/-- A copy of a line with its lease (R349, R350): `place` is a core's L1 (0), a cluster's fused L1 (1) or a die's L2 (2)
with its `unit`; `expiry` the tick E; `born` the sequence number of its fill (R355). -/
structure Copy where
  id : Nat
  place : Nat
  unit : Nat
  line : Nat
  data : List Byte
  expiry : Nat
  born : Nat
  stamp : Nat
  key : Nat
deriving DecidableEq, Repr

/-- What an access in flight is. -/
inductive AccKind where
  /-- A load whose data have not returned (R160). -/
  | load
  /-- A store on its way to its home, or to being performed (R160, R354). -/
  | store
  /-- An atomic whose old value has not returned. -/
  | atom
  /-- A reduction. -/
  | red
deriving DecidableEq, Repr

/-- A thread's global access in flight (R160, R351): the counter it holds, the destination registers with the values to
come, the elements it has still to write (physical address first; R86), the virtual address of the first of them, and, once they are all
at their home, the GWCT. `after` lists the accesses of other threads, not yet at their homes, whose bytes it returns (R353); `stages` has
a bit for each stage that a sampled one passes, QMC in bit 4 to QL1 in bit 0 (R379). -/
structure Access where
  id : Nat
  kind : AccKind
  thread : Nat
  core : Nat
  dc : Nat
  dests : List (Nat × Dexel)
  writes : List (Nat × List Byte)
  va : Nat
  scope : Nat
  stamp : Nat
  arrived : Bool
  gwct : Nat
  issued : Nat
  pc : DWord
  sampled : Bool
  after : List Nat
  stages : Nat
deriving DecidableEq, Repr

/-- Who waits for a device fault (R344, R345). Where the rules leave a point open: log 34 (DEDUCED, unsafe). -/
inductive Requester where
  /-- A thread's Cocoon (R208). -/
  | cocoon (thread : Nat)
  /-- A thread at a fetch or at a transfer (R182, R428). -/
  | fetch (thread : Nat)
  /-- A thread at a `WATCH` (R289). -/
  | watch (thread : Nat)
  /-- The engine of a class at its queue head on a core (R247, R279). -/
  | engine (core cls : Nat)
  /-- The Hive at an item of a kind (R429): its number. -/
  | hive (kind item : Nat)
deriving DecidableEq, Repr

/-- A pending record of a die's fault buffer (R344). -/
structure FaultRec where
  asid : Nat
  page : Nat
  count : Nat
  reqs : List Requester
deriving DecidableEq, Repr

/-- A slot-lease table entry (R194): state 0 FREE, 1 PLACING, 2 RESIDENT, 3 RETIRING; node, cohort, crew number,
footprint F and scratchpad units. -/
structure SlotLease where
  state : Nat
  node : Nat
  cohort : Nat
  foot : Nat
  units : Nat
deriving DecidableEq, Repr

/-- An entry of a core's Swarm Table (R199): its set, key (PC, level, node), members, age, the YIELD rank (R33) and its way. -/
structure SwarmEntry where
  set : Nat
  pc : DWord
  level : Nat
  node : Nat
  members : List Nat
  age : Nat
  last : Bool
  way : Nat
deriving DecidableEq, Repr

/-- A row of a core's stack cache (R197): slot, window offset, the bytes by 16·lane + offset, those that are dirty, when it was
last used, the ASID of its tag, and the lanes whose 16 bytes hold an uncorrectable error (R384). -/
structure StackRow where
  slot : Nat
  off : Nat
  data : Map Byte
  dirty : List Nat
  used : Nat
  asid : Nat
  poison : List Nat
deriving DecidableEq, Repr

/-- An operand of a queue entry in one lane: the a registers and the b registers read at issue. -/
structure LaneOps where
  lane : Nat
  thread : Nat
  a : List Word
  b : List Word
  batch : Nat
deriving DecidableEq, Repr

/-- An entry of an engine queue (R232): the word and its address, the crew, the lanes with their operands, GUARD and SENSE,
whether it comes from an engine program, the engine's progress on it (0 not started), numbers that its command keeps
between its start and its end, and the rows of memory an `MTX` command read at issue (R249, R256): address, stamp, bytes. -/
structure QEntry where
  id : Nat
  word : Word
  pc : DWord
  crew : Nat
  cohort : Nat
  ops : List LaneOps
  guard : Nat
  sense : Bool
  prog : Bool
  phase : Nat
  aux : List Nat
  seen : List (Nat × Nat × List Byte)
deriving DecidableEq, Repr

/-- A running engine program (R235): class, crew, e registers, header and code of its clause, position, open loops,
the `RDVZ` point where it waits with its end flag, its FORK order, and when it last came to its turn (R236). -/
structure Prog where
  cls : Nat
  crew : Nat
  regs : Map Word
  pc : DWord
  cla : DWord
  hdr : Option Header
  code : List Word
  idx : Nat
  loops : List Loop
  waiting : Option (Nat × Bool)
  order : Nat
  turn : Nat
deriving DecidableEq, Repr

/-- An engine fault of a stopped program, for the next `RDVZ` that names its class (R238). -/
structure ProgFault where
  cls : Nat
  cause : Nat
  addr : DWord
  word : Word
deriving DecidableEq, Repr

/-- A crew (R5, R231): its cohort, `CREW`, core and slot, launched lanes, guard slots g1-g7 (0 PENDING, 1 TRUE, 2 FALSE),
programs and their faults. -/
structure Crew where
  cohort : Nat
  idx : Nat
  lanes : Nat
  guards : List Nat
  progs : List Prog
  faults : List ProgFault
deriving DecidableEq, Repr

/-- A scratchpad region map (R282, R283): bound range, global base, flags, the granules filled, the dirty byte offsets. -/
structure Region where
  off : Nat
  len : Nat
  base : Nat
  flags : Nat
  filled : List Nat
  dirty : List Nat
  stale : Bool
deriving DecidableEq, Repr

/-- A barrier (R287): its phase, the arrivals at it (thread, widest scope), and each thread's last arrival phase. -/
structure Barrier where
  phase : Nat
  arrivals : List (Nat × Nat)
  last : Map Nat
deriving DecidableEq, Repr

/-- A saved thread (R214): crew index and lane, its state, the crew's guard slots being kept in the cohort. -/
structure SavedThread where
  crew : Nat
  lane : Nat
  thread : Thread
  parked : Option Group
deriving DecidableEq, Repr

/-- A weight bank of the Girder array (R243, R267): elements as bit patterns in k-major order, 64 column codes, and the
pair and control word of its last `MWLD` and `MWSCL` with the address of the command (the model's own: log 29). -/
structure Bank where
  valid : Bool
  fmt : Nat
  w : List Nat
  scales : List Nat
  load : Option (Nat × Nat × DWord)
  scl : Option (Nat × Nat × DWord)
deriving DecidableEq, Repr

/-- A promotion interval (R243, R254): tile, passes formed, format kind (0 Z8 or Z6, 1 16-bit, 2 binary32, 3 binary64),
column codes, row codes, partials at 64·m + j as scaled integers or bits, and the rows formed. -/
structure Interval where
  tile : Nat
  count : Nat
  kind : Nat
  sw : List Nat
  sa : Map Nat
  parts : Map Nat
  formed : List Nat
deriving DecidableEq, Repr

/-- A row of an `MSTR` that waits for the array or is in it (R251, R252): its row number, elements, format and scale code,
whether it is its command's last row, its bank once it has entered, the interval promoted when it leaves, and the command whose
last row it is (R266). -/
structure ArrayRow where
  m : Nat
  tile : Nat
  fmt : Nat
  elems : List Nat
  sa : Nat
  last : Bool
  bank : Nat
  promote : Option Interval
  src : Option QEntry
deriving DecidableEq, Repr

/-- The Girder array and accumulator memory of a core (R242, R243, R257); a tile element is at 4096·tile + 64·row +
column, and `poison` lists the elements with an uncorrectable error (R266). `ramp`: 0 IDLE, 1 RAMPING up, 2 BUSY, 3 ramp-down,
4 ramp-down with a ramp-up to follow. -/
structure Girder where
  owner : Option Nat
  bank0 : Bank
  bank1 : Bank
  active : Nat
  interval : Nat
  opened : Option Interval
  tiles : Map Word
  ovf : Bool
  unf : Bool
  faultCode : Nat
  faultAddr : DWord
  ramp : Nat
  burst : Bool
  feed : List ArrayRow
  rows : List ArrayRow
  poison : List Nat
deriving DecidableEq, Repr

/-- The Scarab pipeline of a core (R299): the bytes of CAMERA (empty: absent), CUTOFF, TG, LASTF. -/
structure Scarab where
  owner : Option Nat
  camera : List Byte
  cutoff : Word
  tg : Bool
  faultCode : Nat
  faultAddr : DWord
deriving DecidableEq, Repr

/-- A cohort (R6, R193, R271): node, number j and stage, its crews (core·16 + slot) in `CREW` order, SCRATCH units, scratchpad bytes,
region maps, barriers, solver threshold, stack block, save slot and image, saved guard slots, arrays and pipelines (by the lowest
`CREW` on their core) and withdrawn queue entries, the largest `WCT` that has written its scratchpad (R353), when it was placed,
the core-cycle count at which its save was asked for (R267), and its state: 0 placing, 1 resident, 2 saving, 3 saved, 4 retiring,
5 resident with a save asked for that waits for an open interval (R267). -/
structure Cohort where
  node : Nat
  j : Nat
  stage : Nat
  crews : List Nat
  units : Nat
  scratch : List Host.Cell
  regions : Map Region
  barriers : Map Barrier
  tau : DWord
  block : Option Nat
  slot : Option Nat
  saved : List SavedThread
  savedCrews : List Crew
  savedGirders : Map Girder
  savedScarabs : Map Scarab
  withdrawn : List (Nat × QEntry)
  wct : Nat
  placed : Nat
  asked : Nat
  state : Nat
deriving DecidableEq, Repr

/-- An entry of a deterministic node's buffer (R166, R364): logical cohort, `CREW`, `LANE`, n, the cohort, the function
code (a format-X fn), the place (global physical address at issue, or a local offset), its virtual address, operands,
whether it is a `RED`, the cohort's stage, and its thread's `WCT` at issue (R353). -/
structure BufEntry where
  j : Nat
  crew : Nat
  lane : Nat
  n : Nat
  cohort : Nat
  fn : Nat
  loc : Bool
  addr : Nat
  va : Nat
  b0 : DWord
  b1 : DWord
  red : Bool
  stage : Nat
  stamp : Nat
deriving DecidableEq, Repr

/-- What an interval of a deterministic node wrote in a line (R365, R366): offsets, cohorts that wrote it, whether one of
those writes was no buffered entry, and cohorts applied at cohort flush points with whether all were commuting `RED`s. -/
structure LineLog where
  offs : List Nat
  cohorts : List Nat
  direct : Bool
  flushed : List Nat
  commuting : Bool
deriving DecidableEq, Repr

/-- A launch of a deterministic node held until a flush point (R336): logical cohort, `CREW`, `LANE`, n, the child's node, and the
cohort with its stage. -/
structure HeldLaunch where
  j : Nat
  crew : Nat
  lane : Nat
  n : Nat
  child : Nat
  cohort : Nat
  stage : Nat
deriving DecidableEq, Repr

/-- The kernel descriptor's values that a launch needs (R28). -/
structure Kernel where
  entry : DWord
  constBase : DWord
  kargSize : Nat
  regs : Nat
  tcount : Nat
  t16 : Bool
  crews : Nat
  stages : Nat
  params : List Nat
  scratch : Nat
  stack : Nat
  flags : Nat
  codeSize : Nat
  featReq : DWord
deriving DecidableEq, Repr

/-- A node the Hive knows (R323-R331, R340). `bases` holds the bytes that locations had at flush points (R166): key 0 since
the last node-wide one, key c + 1 since the last one of cohort c; a local byte has an address above 2^62. `phase`: 0 waiting for predecessors held in State, 1 in the ready pool,
2 all units placed, 3 retiring, 5 held until a flush point (R336); copy and signal nodes: 1 ready, 2 running. `stepDone`: 0 before the
flush point of retirement, 1 before the status block, 2 + k with k successors treated; `retireTick` is the tick at which its writes were all performed (R326, step 1), `trigThreads` counts `TRIG`s, `trigDone` the
successors an early trigger has treated, and `answer` is the cause of a fault that the driver declared fatal. -/
structure Node where
  addr : Nat
  die : Nat
  kind : Nat
  prio : Nat
  det : Bool
  fused : Bool
  spread : Bool
  asid : Nat
  kernel : Kernel
  kargs : List Byte
  grid : Nat × Nat × Nat
  stages : Nat
  crews : Nat
  lanes : Nat
  nsucc : Nat
  succ : Nat
  sigAddr : Nat
  sigVal : DWord
  status : Nat
  save : Nat
  saveSlots : Nat
  lcores : Nat
  opnds : List (Nat × Nat × Nat)
  phase : Nat
  ready : Nat
  pooled : Bool
  nextUnit : Nat
  retired : Nat
  failed : Option Nat
  sticky : Nat
  saves : Nat
  start : Option Nat
  maxGwct : Nat
  triggered : Bool
  trigThreads : Nat
  trigDone : Nat
  answer : Nat
  interval : Nat
  bases : Map (Map Byte)
  buffer : List BufEntry
  lines : Map LineLog
  odEvents : Nat
  odLines : List Nat
  message : List Byte
  held : List HeldLaunch
  children : Nat
  parent : Option Nat
  queues : Map (List (List Word))
  bindings : Map Nat
  stepDone : Nat
  retireTick : Option Nat
deriving DecidableEq, Repr

/-- A node record to be checked (R324): the die of the Hive, the ASID it is read under, its address, the tick it is due, and
whether it became ready through a predecessor. -/
structure Check where
  id : Nat
  die : Nat
  asid : Nat
  va : Nat
  at' : Nat
  succ : Bool
deriving DecidableEq, Repr

/-- A collective handle that is not FREE (R414-R423): state 1 BOUND or 2 FAILED, tag, members (identifier + 2^20·die),
rank, window, RCV and the number of the next command. -/
structure Handle where
  state : Nat
  tag : Nat
  members : List Nat
  rank : Nat
  win : Nat
  winLen : Nat
  rcv : Nat
  next : Nat
deriving DecidableEq, Repr

/-- A collective command that has left its queue head (R419, R421): its core, entry, die, handle number (R414), instance
number (of a `WAIT` the threshold), the tick it left, its descriptor, the source bytes, and whether the driver declared a
fault of its destination fatal. -/
structure ColCmd where
  core : Nat
  entry : QEntry
  die : Nat
  handle : Nat
  k : Nat
  left : Nat
  cmd : Nat
  typ : Nat
  op : Nat
  count : Nat
  rank : Nat
  src : Nat
  dst : Nat
  data : List Byte
  fatal : Bool
deriving DecidableEq, Repr

/-- What a member of a group has given to an instance (R419), as it has come to the member on a die: the tag, its rank, instance, command,
type, operation, count, root and source bytes, and whether every flit of it is there (R408). -/
structure Contribution where
  die : Nat
  tag : Nat
  rank : Nat
  k : Nat
  cmd : Nat
  typ : Nat
  op : Nat
  count : Nat
  root : Nat
  data : List Byte
  whole : Bool
deriving DecidableEq, Repr

/-- A `PUT` on its way into a window of this package (R422, R423): its stream (source package, target die, channel), the
target's tag, offset and bytes, the number of its last flit, the local command that waits for it (0: none), whether its bytes are
written, their GWCT, and whether every flit of it is there (R408). -/
structure Put where
  id : Nat
  source : Nat
  die : Nat
  chan : Nat
  tag : Nat
  off : Nat
  data : List Byte
  seq : Nat
  sender : Nat
  written : Bool
  gwct : Nat
  whole : Bool
deriving DecidableEq, Repr

/-- A flit (R408, R410): source or destination package, channel, sequence number, tag, target die, kind, arguments, up to 224 payload
bytes, the port it has left by, and the command that sent it (0: none). The kinds are the model's own: 0 a `PUT`, 1 an
acknowledgement, 2 a contribution or the matching of one, 3 firmware management, 4 a refusal, 5 a flit given up by its sender. The
arguments of kinds 0 and 2 begin with the flit's place in its transfer and the number of the transfer's flits. Where the rules leave a point open: log 39 (DESIGN CHOICE, safe). -/
structure Flit where
  peer : Nat
  chan : Nat
  seq : Nat
  tag : Nat
  die : Nat
  kind : Nat
  args : List Nat
  payload : List Byte
  port : Option Nat
  sender : Nat
deriving DecidableEq, Repr

/-- A Viaduct port (R411, R413): STATE, RETRAINS, RETRIES, and when it entered TRAINING. -/
structure Port where
  state : Nat
  retrains : Nat
  retries : Nat
  since : Nat
deriving DecidableEq, Repr

/-- A host access to the HDM range that is not over (R362, R401, R406): its number, whether it writes, address, bytes, value, and the
GWCT of a write that has been served. -/
structure HostAccess where
  id : Nat
  write : Bool
  addr : Nat
  size : Nat
  value : DWord
  gwct : Option Nat
deriving DecidableEq, Repr

/-- What the device has answered the host: the data of a read, with CXL poison or not (R400), or the acknowledgement of a write (R362). -/
inductive HostReply where
  | data (id : Nat) (value : DWord) (poison : Bool)
  | ack (id : Nat)
deriving DecidableEq, Repr

/-- An invalidation channel (R391): the command's KIND, ASID, first address and pages, BUSY, DONE, ERR. -/
structure Inval where
  kind : Nat
  asid : Nat
  va : Nat
  pages : Nat
  busy : Bool
  done : Bool
  err : Nat
deriving DecidableEq, Repr

/-- A core dump due or under way (R382, R383): die, core, ASID, the faulting thread, its cause word, PC and TVAL, the tick,
and secondary records written and counted. -/
structure Dump where
  die : Nat
  core : Nat
  asid : Nat
  thread : Nat
  cause : Nat
  pc : DWord
  val : DWord
  at' : Nat
  written : Nat
  counted : Nat
deriving DecidableEq, Repr

/-- Why the machine can stop with a fault. The spec makes every fault an exception, an engine fault or an error report, each of which
is a next state. -/
inductive Fault where
  /-- Raised by nothing, and so safe: no step of the model ends in a fault. -/
  | never
deriving DecidableEq, Repr

/-- Why an instruction is refused. -/
inductive Refusal where
  /-- An instruction without a meaning in the model, which `exec` would name. Raised by nothing now, and safe. -/
  | notModelled (mnemonic : String)
deriving DecidableEq, Repr

/-- The machine. The fields `elapse`, `turns`, `agenda` and `seqno` are the model's own: the ticks that coming steps take,
which agent moves next, the events due, and a counter for fresh numbers and free values. -/
structure State where
  /-- Threads by number, 1024·core + 64·slot + lane (R59; numbering: log 12). -/
  threads : Map Thread
  /-- Issue groups with an open clause (R201). -/
  opens : List Group
  /-- The model's own: which of `opens` issues now. -/
  cur : Nat
  /-- Parked groups (R207). -/
  parked : List Group
  /-- Taken sides of splits held back (R204). -/
  deferrals : List Deferral
  /-- Halted cores (R183, R382). -/
  halted : List Nat
  /-- Core dumps due or under way (R383). -/
  dumps : List Dump
  /-- Slot-lease tables, by 16·core + slot (R194). -/
  slots : Map SlotLease
  /-- Resident crews, by 16·core + slot (R231). -/
  crews : Map Crew
  /-- Cohorts by number (R193). -/
  cohorts : Map Cohort
  /-- Nodes that the Hives know (R323, R327). -/
  nodes : Map Node
  /-- Swarm Tables by core (R199). -/
  swarm : Map (List SwarmEntry)
  /-- Stack caches by core (R197). -/
  rows : Map (List StackRow)
  /-- Engine queues, by 8·core + class (R232). -/
  queues : Map (List QEntry)
  /-- Memory by physical address (R398): bytes that differ from log 1's. -/
  mem : List Host.Cell
  /-- GWCT of lines (R351). -/
  gwct : Map Nat
  /-- The largest WCT stamp of the writes of each line (R353). -/
  stamps : Map Nat
  /-- Copies of lines with their leases (R349, R350). -/
  copies : List Copy
  /-- The sequence number of the last acquire at cluster scope made on each core (R355, R358). -/
  acquired : Map Nat
  /-- Accesses in flight, oldest first (R160). -/
  access : List Access
  /-- Cached translations, oldest first (R341; log 14). -/
  tlb : List TlbEntry
  /-- Fault records pending, by 1024·die + record (R344). -/
  faults : Map FaultRec
  /-- ASIDs whose context entry has been read as valid (R390). -/
  valid : List Nat
  /-- The key of each ASID, a generation number; 0 is zeroised (R399; log 7). -/
  keys : Map Nat
  /-- The model's own: the next generation of a key (DESIGN CHOICE, unsafe: log 7). -/
  nextKey : Nat
  /-- The key generation that a line was written under (R399). -/
  lineKeys : Map Nat
  /-- Poisoned lines (R384). -/
  poison : List Nat
  /-- BAR 0 registers by offset; one not listed has its reset value (R386). -/
  bar0 : Map DWord
  /-- BAR 2 registers by offset; one not listed has its reset value (R411). -/
  bar2 : Map DWord
  /-- Watches on submission words: ASID, word, line (R392). -/
  subWatch : List (Nat × Nat × Nat)
  /-- Submission words whose watch has fired: ASID, word (R392). -/
  subFired : List (Nat × Nat)
  /-- Reuse-distance units by die (R380; log 3). -/
  reuse : Map Reuse
  /-- Fused clusters (R274; log 3). -/
  fusedClusters : List Nat
  /-- Clusters that drain to switch their mode (R330). -/
  draining : List Nat
  /-- Girder arrays and accumulator memories by core (R242, R243). -/
  girders : Map Girder
  /-- Scarab pipelines by core (R299). -/
  scarabs : Map Scarab
  /-- Collective handles that are not FREE (R414). -/
  handles : Map Handle
  /-- Collective commands that have left their queue head (R419). -/
  colCmds : List ColCmd
  /-- What members have given to instances (R419). -/
  contribs : List Contribution
  /-- `PUT`s on their way into windows of this package (R422). -/
  puts : List Put
  /-- Flits that have arrived ahead of their turn (R410). -/
  inbox : List Flit
  /-- Flits to send, or sent and not yet acknowledged (R408, R410). -/
  outbox : List Flit
  /-- The next sequence number of each inbound stream (R410). -/
  inSeq : Map Nat
  /-- The next sequence number of each outbound stream (R410). -/
  outSeq : Map Nat
  /-- REFUSALS (R411). -/
  refusals : Nat
  /-- Viaduct ports; one not listed is DOWN (R411, R413). -/
  ports : Map Port
  /-- Core cycles of the die at a core's last Cicada sample, by core, and at the last write of a die's P, by 1536 + die (R381). -/
  cicadaAt : Map Nat
  /-- Accesses of each core since its last sample (R379; log 3). -/
  sampCount : Map Nat
  /-- Invalidation channels by number (R391). -/
  inval : Map Inval
  /-- MEAS0-7; one not listed is zero (R403). -/
  meas : Map (List Byte)
  /-- The ASID under a debug session (R375, R407). -/
  session : Option Nat
  /-- The power state of each die and the reason of a refusal: 0-3 P0-P3, 4 waking, 5 saving for P3, 6 in P3 with an access that
  waits for it (R406). -/
  power : Map (Nat × Nat)
  /-- Which core a shared engine serves next: by cluster for the solver, 48 + die for the collective engine (R293, R419). -/
  solverTurn : Map Nat
  /-- The HDM decoder's base, once programmed (R401; log 3). -/
  hdmBase : Option Nat
  /-- Host accesses that are not over, oldest first (R362, R406). -/
  hostQueue : List HostAccess
  /-- The model's own: what the host was answered, oldest first. -/
  hostReplies : List HostReply
  /-- MSI-X vectors that the host was signalled with, oldest first (R385, R394). -/
  msix : List Nat
  /-- Node records to be checked (R324, R429). -/
  checks : List Check
  /-- Dies whose dump is aborted (R383). -/
  dumpAborts : List Nat
  /-- `SPAN` (R3). -/
  span : Nat
  /-- Core cycles that have passed on each die, in twentieths of a cycle (R3). -/
  cycles : Map Nat
  /-- The model's own: a counter for fresh numbers and free values. -/
  seqno : Nat
  /-- The model's own: the ticks that coming steps take (DESIGN CHOICE, unsafe: log 2). -/
  elapse : List Nat
  /-- The model's own: which agent moves next (DESIGN CHOICE, unsafe: log 10). -/
  turns : List Nat
  /-- The model's own: the events due, first first (DESIGN CHOICE, unsafe: log 10). -/
  agenda : List Instr
deriving DecidableEq, Repr

/-- The machine after a package reset (R387, R3): no thread, cohort or node; memory as log 1 says; registers at their
reset values (R386, R411), those without one as log 3 says; `SPAN` 0. -/
def State.reset : State :=
  { threads := [], opens := [], cur := 0, parked := [], deferrals := [], halted := [], dumps := [], slots := [], crews := []
    cohorts := [], nodes := [], swarm := [], rows := [], queues := [], mem := [], gwct := [], stamps := [], copies := []
    acquired := [], access := [], tlb := [], faults := [], valid := [], keys := [], nextKey := 1, lineKeys := [], poison := [], bar0 := []
    bar2 := [], subWatch := [], subFired := [], reuse := [], fusedClusters := [], draining := [], girders := [], scarabs := []
    handles := [], colCmds := [], contribs := [], puts := [], inbox := [], outbox := [], inSeq := [], outSeq := []
    refusals := 0, ports := [], cicadaAt := [], sampCount := [], inval := [], meas := [], session := none, power := [], solverTurn := []
    hdmBase := none, hostQueue := [], hostReplies := [], msix := [], checks := [], dumpAborts := [], span := 0, cycles := [], seqno := 0, elapse := [], turns := []
    agenda := [] }

end Sys2Proof.Machine
end

