-- ==== Sys2Proof/Machine/Operands.lean ====
section
/-! DEFINITION. Operand codes: registers, pairs, latches and predicates read and written (R36-R42, R62, R74), the registers a word
touches (R161), and the special registers' widths (R144, R189). -/

namespace Sys2Proof.Machine

/-- Slot k of a dexel. -/
def Dexel.slot (x : Dexel) (k : Nat) : Word := x.tan.getD k 0

/-- Register n of a thread; `v0` reads 0 with zero tangents (R36). -/
def readReg (th : Thread) (n : Nat) : Dexel := if n = 0 then Dexel.zero else (getK th.regs n).getD Dexel.zero

/-- Whether an undo log holds a register. -/
def loggedReg (us : List Undo) (n : Nat) : Bool := us.any fun u => match u with | .reg m _ => m == n | .pred .. => false
/-- Whether an undo log holds a predicate. -/
def loggedPred (us : List Undo) (n : Nat) : Bool := us.any fun u => match u with | .pred m _ => m == n | .reg .. => false

/-- The Cocoon after a register's old value is logged, once (R210). -/
def logReg (th : Thread) (n : Nat) : Option Cocoon :=
  th.cocoon.map fun c => if loggedReg c.undo n then c else { c with undo := c.undo ++ [.reg n (readReg th n)] }

/-- A thread with register n written; a write of `v0` is discarded (R36). -/
def writeReg (th : Thread) (n : Nat) (x : Dexel) : Thread :=
  if n = 0 then th
  else { th with regs := putK th.regs n x, cocoon := logReg th n, poison := th.poison.filter (· != n) }

/-- A thread with pair n written. -/
def writePair (th : Thread) (n : Nat) (lo hi : Dexel) : Thread :=
  if n = 0 then th else writeReg (writeReg th n lo) (n + 1) hi

/-- Predicate n of a thread; code 7 reads true (R38). -/
def readPred (th : Thread) (n : Nat) : Bool := if n = 7 then true else (getK th.preds n).getD false

/-- A thread with predicate n written. -/
def writePred (th : Thread) (n : Nat) (b : Bool) : Thread :=
  { th with
    preds := putK th.preds n b
    cocoon := th.cocoon.map fun c =>
      if loggedPred c.undo n then c else { c with undo := c.undo ++ [.pred n (readPred th n)] } }

/-- Latch k of four (R40). -/
def Latches.get (l : Latches) (k : Nat) : Latch := if k = 0 then l.l0 else if k = 1 then l.l1 else if k = 2 then l.l2 else l.l3
/-- Four latches with latch k set. -/
def Latches.set (l : Latches) (k : Nat) (x : Latch) : Latches :=
  if k = 0 then { l with l0 := x } else if k = 1 then { l with l1 := x } else if k = 2 then { l with l2 := x } else { l with l3 := x }

/-- Latch k of a thread. `Thread.poison` lists the operand codes whose register or latch is poisoned (R384); a write of
one clears its poison. -/
def readLatch (th : Thread) (k : Nat) : Latch := th.lats.get k
/-- A thread with latch k set. -/
def setLatch (th : Thread) (k : Nat) (l : Latch) : Thread :=
  { th with lats := th.lats.set k l, poison := th.poison.filter (· != 60 + k) }
/-- A thread with latch k invalid (R40). -/
def dropLatch (th : Thread) (k : Nat) : Thread := setLatch th k Latch.invalid

/-- A latch of width 32. -/
def latch32 (x : Dexel) : Latch := ⟨true, false, x, Dexel.zero⟩
/-- A latch of width 64. -/
def latch64 (lo hi : Dexel) : Latch := ⟨true, true, lo, hi⟩

/-- A single-register source (R36, R41); `none` is Illegal Operand. -/
def srcReg (th : Thread) (c : BitVec 6) : Option Dexel :=
  if c.toNat < 60 then
    (if c.toNat < th.lc.regs ∨ c = 0 then some (readReg th c.toNat) else none)
  else
    let l := readLatch th (c.toNat - 60)
    if l.valid then some l.lo else none

/-- A pair source (R37, R41); `none` is Illegal Operand. -/
def srcPair (th : Thread) (c : BitVec 6) : Option (Dexel × Dexel) :=
  if c.toNat < 60 then
    (if c.toNat % 2 = 0 ∧ c ≠ 0 ∧ c.toNat + 1 < th.lc.regs then
      some (readReg th c.toNat, readReg th (c.toNat + 1)) else none)
  else
    let l := readLatch th (c.toNat - 60)
    if l.valid && l.wide then some (l.lo, l.hi) else none

/-- The 64 bits of a pair. -/
def pairBits (x : Dexel × Dexel) : DWord := x.2.val ++ x.1.val

/-- Whether a single-register destination is legal (R36, R42). -/
def dstReg (th : Thread) (d : BitVec 6) (nw : Bool) : Bool :=
  decide (d = 0) || (!nw && decide (d.toNat < 60) && decide (d.toNat < th.lc.regs))

/-- Whether a pair destination is legal (R37, R42): with nw set, code 0 names no pair. -/
def dstPair (th : Thread) (d : BitVec 6) (nw : Bool) : Bool :=
  if nw then decide (d = 0)
  else decide (d.toNat % 2 = 0) && decide (d ≠ 0) && decide (d.toNat < 60) && decide (d.toNat + 1 < th.lc.regs)

/-- Whether a predicate destination is legal (R38); a word with nw set writes no predicate field but 0 (R42). -/
def dstPred (d : BitVec 6) (nw : Bool) : Bool := decide (d.toNat ≤ 6) && (!nw || decide (d = 0))

/-- A predicate source (R38). -/
def srcPred (th : Thread) (c : BitVec 6) : Option Bool := if c.toNat ≤ 7 then some (readPred th c.toNat) else none

/-- An operand as a value: its bits and its T tangents in the format R74 gives its width. -/
structure Val where
  bits : Nat
  tan : List Nat
deriving DecidableEq, Repr

/-- The slot numbers of a thread. -/
def slots (th : Thread) : List Nat := List.range th.lc.tcount

/-- A 32-bit operand's value. -/
def valOf (th : Thread) (x : Dexel) : Val := ⟨x.val.toNat, (slots th).map fun k => (x.slot k).toNat⟩

/-- How far the high half of a pair's tangent is shifted (R74). -/
def halfBits (th : Thread) : Nat := if th.lc.t16 then 16 else 32

/-- A 64-bit operand's value: tangents joined as R74 splits them. -/
def valOfPair (th : Thread) (x : Dexel × Dexel) : Val :=
  ⟨x.1.val.toNat + x.2.val.toNat * 2 ^ 32,
   (slots th).map fun k => (x.1.slot k).toNat % 2 ^ halfBits th + (x.2.slot k).toNat % 2 ^ halfBits th * 2 ^ halfBits th⟩

/-- A 32-bit value as a dexel. -/
def dexelOf (v : Val) : Dexel := ⟨BitVec.ofNat 32 v.bits, v.tan.map (BitVec.ofNat 32)⟩

/-- A 64-bit value as a pair. -/
def pairOf (th : Thread) (v : Val) : Dexel × Dexel :=
  (⟨BitVec.ofNat 32 v.bits, v.tan.map fun t => BitVec.ofNat 32 (t % 2 ^ halfBits th)⟩,
   ⟨BitVec.ofNat 32 (v.bits / 2 ^ 32), v.tan.map fun t => BitVec.ofNat 32 (t / 2 ^ halfBits th)⟩)

/-- A result without tangents (+0 in every slot). -/
def plain (n : Nat) : Val := ⟨n, []⟩

/-- The tangent format of 32-bit values (R74). -/
def tanFmt (th : Thread) : IeeeFmt := if th.lc.t16 then b16 else b32
/-- The tangent format of 64-bit values (R74). -/
def tanFmt64 (th : Thread) : IeeeFmt := if th.lc.t16 then b32 else b64

/-- A 32-bit result put into latch k and, unless suppressed, register d (R40, R42). -/
def putReg (th : Thread) (k : Nat) (d : BitVec 6) (nw : Bool) (x : Dexel) : Thread :=
  let th' := setLatch th k (latch32 x)
  if nw then th' else writeReg th' d.toNat x

/-- A 64-bit result put into latch k and, unless suppressed, pair d (R40, R42). -/
def putPair (th : Thread) (k : Nat) (d : BitVec 6) (nw : Bool) (x : Dexel × Dexel) : Thread :=
  let th' := setLatch th k (latch64 x.1 x.2)
  if nw then th' else writePair th' d.toNat x.1 x.2

/-- Whether a special register has 64 bits (R144, R189). -/
def srWide (n : Nat) : Bool :=
  n == 13 || n == 14 || n == 24 || n == 27 || n == 28 || n == 32 || (34 ≤ n && n ≤ 37)
    || n == 40 || n == 43 || n == 44 || n == 48 || (50 ≤ n && n ≤ 56)

/-- The kind of a field, for the registers it names. -/
inductive FieldKind where
  | none | reg | pair | quad
deriving DecidableEq, Repr

/-- The registers a field of a kind names; latches and `v0` name none. -/
def fieldRegs (k : FieldKind) (c : BitVec 6) : List Nat :=
  if c.toNat = 0 ∨ 60 ≤ c.toNat then []
  else match k with
    | .none => []
    | .reg => [c.toNat]
    | .pair => [c.toNat, c.toNat + 1]
    | .quad => [c.toNat, c.toNat + 1, c.toNat + 2, c.toNat + 3]

/-- The kinds of the d, a, b and c fields of a thread word, by its major and minor codes (R44). -/
def fieldKinds (w : Word) : FieldKind × FieldKind × FieldKind × FieldKind :=
  let op := (opF w).toNat
  let fn := (fnF w).toNat
  let wide : FieldKind := if (bF w).toNat / 8 % 2 = 1 then .pair else .reg
  let sz : FieldKind := if (szF w).toNat = 3 then .pair else .reg
  if op = 0x03 then (.pair, .pair, if fn = 0 ∨ fn = 1 ∨ fn = 7 then .pair else .reg, .none)
  else if op = 0x06 then (.pair, .pair, .none, .none)
  else if op = 0x05 ∨ (0x07 ≤ op ∧ op ≤ 0x09) then (.reg, .reg, .none, .none)
  else if op = 0x0A then
    (if 4 ≤ (immF w).toNat / 256 then (.pair, .pair, .none, .none) else (.reg, .reg, .none, .none))
  else if op = 0x0B then (.reg, .none, .none, .none)
  else if op = 0x0C then (.pair, .none, .none, .none)
  else if op = 0x0D then (.reg, .reg, if fn = 12 then .none else .reg, .none)
  else if op = 0x11 then (if fn = 13 then .reg else .pair, .pair, if fn ≥ 12 then .none else .pair, .none)
  else if op = 0x12 ∨ op = 0x13 then (.pair, .pair, .pair, .pair)
  else if op = 0x18 then
    (if cvtWide fn then .pair else .reg, if cvtWide ((bF w).toNat / 4) then .pair else .reg, .none, .none)
  else if op = 0x1A then (.none, if 10 ≤ fn then .pair else .reg, if 10 ≤ fn then .pair else .reg, .none)
  else if op = 0x1B ∨ op = 0x1D then (.none, .reg, .reg, .none)
  else if op = 0x1C then (.none, .pair, .pair, .none)
  else if op = 0x1E then (.none, if fn = 5 then .reg else .none, .none, .none)
  else if op = 0x1F then
    (if fn = 0 then (.reg, .reg, .none, .none)
     else if fn = 1 then (if srWide (bF w).toNat then .pair else .reg, .none, .none, .none)
     else if fn = 2 then (.none, if srWide (bF w).toNat then .pair else .reg, .none, .none)
     else (if fn = 4 then .pair else .reg, .none, .none, .none))
  else if op = 0x20 then
    (if fn = 1 ∨ fn = 2 then (.reg, .reg, .none, .none)
     else if fn = 5 then (.reg, .reg, .reg, .none)
     else if 6 ≤ fn then (.pair, .pair, .none, .none)
     else (wide, wide, .none, .none))
  else if op = 0x23 ∨ op = 0x24 ∨ op = 0x27 then (sz, .reg, .none, .none)
  else if op = 0x28 then (.none, .pair, .none, .none)
  else if 0x21 ≤ op ∧ op ≤ 0x26 then (sz, .pair, .none, .none)
  else if op = 0x29 ∨ op = 0x2A then
    (if 11 ≤ fn then .pair else .reg, .pair,
     if fn = 13 then .quad else if fn = 9 ∨ fn = 11 ∨ fn = 12 then .pair else .reg, .none)
  else if op = 0x2B then (.reg, if fn = 1 then .pair else .reg, .none, .none)
  else if op = 0x2C then
    (if fn = 8 then .pair else if 5 ≤ fn ∧ fn ≤ 7 then .none else .reg, .pair,
     if 5 ≤ fn ∧ fn ≤ 8 then .none else .reg, .none)
  else if op = 0x2D then
    (if fn = 0 then .reg else .pair, if fn = 1 ∨ fn = 3 then .pair else .reg, if fn = 1 then .reg else .none, .none)
  else if op = 0x2E ∨ op = 0x2F ∨ op = 0x32 then (.none, .none, .none, .none)
  else if op = 0x30 then (.none, if fn = 2 ∨ fn = 3 then .pair else .none, .none, .none)
  else if op = 0x31 then (.reg, .none, .none, .none)
  else if op = 0x33 then
    (if fn = 2 then (if srWide (bF w).toNat then .pair else .reg, .none, .none, .none)
     else (.none, if fn = 3 ∧ srWide (bF w).toNat then .pair else .reg, .none, .none))
  else if 0x38 ≤ op ∧ op ≤ 0x3E then (.pair, .quad, .quad, .none)
  else if op = 0x3F then (.none, if fn = 0 then .pair else .reg, if fn = 0 then .pair else .none, .none)
  else (.reg, .reg, .reg, .reg)

/-- The registers that a thread word reads or writes (R161). A format-C word's operand blocks are taken as pairs and
blocks of four at least (R245, R276). -/
def touches (w : Word) : List Nat :=
  let k := fieldKinds w
  let hist := if (opF w).toNat = 0x2D ∧ (fnF w).toNat = 0 then (List.range (bF w).toNat).map (· + (dF w).toNat) else []
  let cs := match fmtOf (opF w).toNat with | .f => fieldRegs k.2.2.2 (cF w) | _ => []
  fieldRegs k.1 (dF w) ++ fieldRegs k.2.1 (aF w) ++ fieldRegs k.2.2.1 (bF w) ++ cs ++ hist

/-- The first source code of a word that names a poisoned register or latch (R384). -/
def poisonedSource (th : Thread) (w : Word) : Option Nat :=
  if th.poison.isEmpty then none
  else
    let k := fieldKinds w
    let one := fun (kind : FieldKind) (c : BitVec 6) =>
      if kind = .none then none
      else if 60 ≤ c.toNat then (if th.poison.contains c.toNat then some c.toNat else none)
      else (fieldRegs kind c).find? fun r => th.poison.contains r
    let op := (opF w).toNat
    let dSource : Bool := op == 0x22 || op == 0x24 || op == 0x26 || op == 0x31 || (op == 0x2D && (fnF w).toNat != 1)
      || (op == 0x2C && ((fnF w).toNat < 5 || (fnF w).toNat == 9))
    let fmt := fmtOf op
    let bSource : Bool := match fmt with | .a | .f | .x | .c => true | _ => false
    match if dSource then one k.1 (dF w) else none with
    | some c => some c
    | none =>
      match match fmt with | .u | .b | .j | .loop | .loopi | .none => none | _ => one k.2.1 (aF w) with
      | some c => some c
      | none =>
        match if bSource then one k.2.2.1 (bF w) else none with
        | some c => some c
        | none => match fmt with | .f => one k.2.2.2 (cF w) | _ => none

end Sys2Proof.Machine
end

