-- ==== Sys2Proof/Machine/Ops.lean ====
section
/-! DEFINITION. Named operations over threads and groups: deferrals (R204-R206), taking an exception and returning from one
(R183, R185, R58), and the run of one instruction over the lanes of the issuing group (R49-R53, R98, R202). -/

namespace Sys2Proof.Machine

/-- A thread of the machine. -/
def getThread (s : State) (t : Nat) : Option Thread := getK s.threads t
/-- The machine with a thread set. -/
def setThread (s : State) (t : Nat) (th : Thread) : State := { s with threads := putK s.threads t th }
/-- The machine with a thread changed, if it exists. -/
def modThread (s : State) (t : Nat) (f : Thread → Thread) : State :=
  match getThread s t with
  | some th => setThread s t (f th)
  | none => s

/-- A thread that becomes eligible at a clause boundary now (R199). -/
def standing (s : State) (th : Thread) : Thread := { th with status := .ready, since := s.span }

/-- A deferred thread released (R205): it stands at its target. -/
def releaseThread (s : State) (t : Nat) : State :=
  modThread s t fun th => if th.status = .deferred then standing s th else th

/-- The deferrals after thread t met a condition of R205 for those of which `p` holds; deferrals that wait for no thread
any more release theirs. -/
def unwait (s : State) (t : Nat) (p : Deferral → Bool) : State :=
  let ds := s.deferrals.map fun d => if p d then { d with waits := d.waits.filter (· != t) } else d
  (ds.filter (·.waits.isEmpty)).foldl (fun s d => releaseThread s d.thread)
    { s with deferrals := ds.filter fun d => !d.waits.isEmpty }

/-- A thread that exits, halts, blocks on a named wait, enters a trap level or is saved (R205). -/
def noteBlocked (s : State) (t : Nat) : State := unwait s t fun _ => true
/-- A thread that stands at a clause boundary (R205). -/
def noteBoundary (s : State) (t : Nat) (pc : DWord) : State := unwait s t fun d => decide (d.join = pc)


/-- What a trap entry records (R52, R55-R57, R183). -/
structure TrapInfo where
  code : Nat
  val : DWord
  pc : DWord
  cla : DWord
  word : Word
  fld0 : Word
  fld1 : Word
  lats : Latches
deriving DecidableEq, Repr

/-- The level a trap enters and its handler's address (R183); `none` halts the core. -/
def trapTarget (th : Thread) : Option (Nat × DWord) :=
  if th.level = 0 ∧ th.thandler ≠ 0 then some (1, th.thandler)
  else if th.level < 2 ∧ th.shandler ≠ 0 then some (2, th.shandler)
  else none

/-- `enter` of R183 on a thread: the record of the level entered, `TLEVEL`, and the handler as a clause start with all
latches invalid. Registers, predicates, `FCR`, `FSR`, `SP`, `SLIM` and loops stay. -/
def enterLevel (th : Thread) (i : TrapInfo) : Option Thread :=
  match trapTarget th with
  | none => none
  | some (l, h) =>
    let r : TrapRec := ⟨BitVec.ofNat 32 (i.code + th.level * 256), i.pc, i.val, i.word, i.fld0, i.fld1, i.cla, i.lats⟩
    some { th with
      rec1 := if l = 1 then r else th.rec1
      rec2 := if l = 2 then r else th.rec2
      level := l
      pc := h
      cla := h
      lats := noLatches
      wait := none
      answers := []
      cocoon := none }

/-- The core halted with a core dump started (R183, R382): the thread whose fault it is, its cause and the address and
`TVAL` of the fault. A further fatal fault of the context whose dump is under way, the first of the die's, is a secondary record of it;
one of another context has its dump after it (R383). Where the rules leave a point open: log 32 (DEDUCED, unsafe). -/
def haltCore (s : State) (t : Nat) (th : Thread) (i : TrapInfo) : State :=
  let core := threadCore t
  let die := coreDie core
  let halted := if s.halted.contains core then s.halted else s.halted ++ [core]
  match s.dumps.find? fun d => d.die == die with
  | some d =>
    if d.asid = th.lc.asid then
      { s with
        halted := halted
        dumps := s.dumps.map fun x => if x ≠ d then x
          else if d.written < 16 then { d with written := d.written + 1 } else { d with counted := d.counted + 1 } }
    else
      { s with
        halted := halted
        dumps := s.dumps ++ [⟨die, core, th.lc.asid, t, i.code + th.level * 256, i.pc, i.val, s.span, 0, 0⟩] }
  | none =>
    { s with
      halted := halted
      dumps := s.dumps ++ [⟨die, core, th.lc.asid, t, i.code + th.level * 256, i.pc, i.val, s.span, 0, 0⟩] }

/-- Taking an exception (R183): the thread leaves for its handler, or its core halts. -/
def takeTrap (s : State) (t : Nat) (th : Thread) (i : TrapInfo) : State :=
  match enterLevel th i with
  | some th' => noteBlocked (setThread s t (standing s th')) t
  | none => haltCore (noteBlocked (setThread s t { th with status := .parked, pc := i.pc, cla := i.cla }) t) t th i

/-- The trap record in force (R184): that of the current level. -/
def currentRec (th : Thread) : TrapRec := if th.level = 1 then th.rec1 else if th.level = 2 then th.rec2 else TrapRec.zero
/-- A thread with the record of its current level set. -/
def setCurrentRec (th : Thread) (r : TrapRec) : Thread :=
  if th.level = 1 then { th with rec1 := r } else if th.level = 2 then { th with rec2 := r } else th

/-- The state of a thread after `ERET`, before it resumes (R185): the level it came from, its record cleared, the pc at
`TPC`, the clause at `TCLA`, the recorded latches; clauses are fetched afresh (R58, R182). -/
def eretThread (th : Thread) : Thread :=
  let r := currentRec th
  { setCurrentRec th TrapRec.zero with
    level := r.cause.toNat / 256 % 4
    pc := r.pc
    cla := r.cla
    loopBuf := []
    lats := r.lats }

/-- What a lane's instruction can raise (R51, R98, R178). -/
inductive Trap where
  /-- Illegal Operand. -/
  | operand
  /-- An enabled floating-point flag: all flags raised. -/
  | fp (flags : Word)
  /-- Another cause with its `TVAL`. -/
  | other (code : Nat) (val : DWord)
  /-- Illegal Instruction. -/
  | instruction
deriving DecidableEq, Repr

/-- What an instruction does in one lane: it completes; it traps with no effect; the lane leaves the group with the
machine as given (a transfer, an exit, a Cocoon); or the group is held at the instruction (a stall). -/
inductive LaneOut where
  | done (s : State)
  | trap (x : Trap)
  | left (s : State)

/-- The word the group issues. -/
def Group.word (g : Group) : Word := g.code.getD g.idx 0
/-- The address of the word the group issues. -/
def Group.pc (g : Group) : DWord := g.cla + BitVec.ofNat 64 (4 * (g.idx + 1))
/-- The latch of the word the group issues (R40). -/
def Group.latch (g : Group) : Nat := g.idx % 4

/-- Numbers without repeats, each where it comes first. -/
def distinct : List Nat → List Nat
  | [] => []
  | t :: ts => t :: (distinct ts).filter (· != t)

/-- The threads of a group that exist, each once. -/
def present (s : State) (ts : List Nat) : List Nat := (distinct ts).filter fun t => (getThread s t).isSome

/-- The power state of a die as `State.power` holds it (R406): 0-3; 4 woken from P3, on its way to P2; 5 in P2 while its cohorts are
saved for P3; 6 off, while an act under way makes an access that must wait for it (see `settleWake`). -/
def rawPower (s : State) (die : Nat) : Nat := ((getK s.power die).map (·.1)).getD 0
/-- The power state of a die (R406): 0-3. -/
def powerState (s : State) (die : Nat) : Nat :=
  if rawPower s die = 4 ∨ rawPower s die = 6 then 3 else if rawPower s die = 5 then 2 else rawPower s die

/-- Twentieths of a core cycle that pass on a die in a span tick (R3): 2.1 GHz in P0, 1.05 GHz in P1; a die in P3 is off. Where the
rules leave a point open: log 2 (DESIGN CHOICE, unsafe). -/
def cycleRate (s : State) (die : Nat) : Nat := if powerState s die = 0 then 42 else if powerState s die = 3 then 0 else 21
/-- The core-cycle count of a die, in twentieths of a cycle (R3). -/
def cyclesOf (s : State) (die : Nat) : Nat := (getK s.cycles die).getD 0
/-- Whether n core cycles have passed on a die since its count was `start` (R3). -/
def cyclesPast (s : State) (die start n : Nat) : Bool := decide (start + 20 * n ≤ cyclesOf s die)

/-- The issuing group (R201) with the threads it holds. -/
def issuing (s : State) : Option Group := (s.opens[s.cur]?).map fun g => { g with members := present s g.members }

/-- Whether a trap of a cause records the latch of its word invalid: a decode fault, codes 1 to 4 (R57); a Floating-Point Exception
(R98); `TRAP` and `BRK`, which write nothing and so leave their latch invalid (R40). Every other cause keeps the four latches whole.
Where the rules leave a point open: log 45 (DEDUCED, unsafe). -/
def latchLost (code : Nat) : Bool := (1 ≤ code && code ≤ 5) || code == 0x0F || code == 0x10

/-- The record of a trap at the word the group issues: decoded fields by R55, the latches by R57 and R98. -/
def trapInfoAt (g : Group) (th : Thread) (code : Nat) (val : DWord) : TrapInfo :=
  ⟨code, val, g.pc, g.cla, g.word, tfld0 g.word, tfld1 g.word, if latchLost code then (dropLatch th g.latch).lats else th.lats⟩

/-- The cause code and `TVAL` of a trap at a word (R52, R56, R98, R178). -/
def Trap.codeVal (x : Trap) (w : Word) : Nat × DWord :=
  match x with
  | .instruction => (1, immediateOf w)
  | .operand => (2, immediateOf w)
  | .fp fl => (5, (fl &&& 31).setWidth 64)
  | .other c v => (c, v)

/-- The flags a trap leaves in `FSR` (R98). -/
def Trap.flags : Trap → Word
  | .fp fl => fl
  | _ => 0

/-- A lane trapping at the word the group issues. -/
def trapLane (g : Group) (s : State) (t : Nat) (th : Thread) (x : Trap) : State :=
  let cv := x.codeVal g.word
  takeTrap s t { th with fsr := th.fsr ||| x.flags } (trapInfoAt g th cv.1 cv.2)

/-- A lane past a word: the pc at the next word. -/
def advance (g : Group) (th : Thread) : Thread := { th with pc := g.pc + 4 }

/-- Whether a context lacks what an instruction needs (R51, orders 3 and 4; R48). -/
def gateFails (gate : Gate) (core : Nat) (th : Thread) : Bool :=
  (match gate.feature with | some b => !th.lc.feats.getLsbD b | none => false)
    || (gate.kind == 1 && isSCore core) || (gate.kind == 2 && !isSCore core) || decide (th.level < gate.level)

/-- The gate of an instruction that every context has. -/
def freeGate : Gate := ⟨none, 0, 0⟩

/-- The predicate of an instruction, as a format-A code (R35). -/
def predBit (p : Bool) : BitVec 3 := if p then 0 else 7

/-- A lane that consumes a poisoned register or latch takes Poison (R384), unless its instruction takes another trap. Where the rules leave a point open: log 16 (DEDUCED, unsafe). -/
def poisonCheck (g : Group) (th : Thread) (out : LaneOut) : LaneOut :=
  match out with
  | .trap x => .trap x
  | o =>
    match poisonedSource th g.word with
    | none => o
    | some c => .trap (.other 0x0B (BitVec.ofNat 64 (2 ^ 63 + c)))

/-- One lane of the issuing group: `f` runs where the predicate is true; elsewhere the latch becomes invalid (R40).
The second component collects the lanes that stay. -/
def laneStep (g : Group) (gate : Gate) (p : BitVec 3) (f : Group → State → Nat → Thread → LaneOut)
    (acc : State × List Nat) (t : Nat) : State × List Nat :=
  match getThread acc.1 t with
  | none => acc
  | some th =>
    if readPred th p.toNat then
      match if gateFails gate g.core th then LaneOut.trap .instruction else poisonCheck g th (f g acc.1 t th) with
      | .done s => (modThread s t (advance g), acc.2 ++ [t])
      | .left s => (s, acc.2)
      | .trap x => (trapLane g acc.1 t th x, acc.2)
    else (setThread acc.1 t (advance g (dropLatch th g.latch)), acc.2 ++ [t])

/-- The open clauses with the issuing one replaced. -/
def setIssuing (s : State) (g : Group) : State := { s with opens := s.opens.set s.cur g }
/-- The open clauses without the issuing one. -/
def closeIssuing (s : State) : State := { s with opens := s.opens.eraseIdx s.cur }

/-- A register interlock (R161): the word touches a register that a pending load, atomic or reply will write. -/
def interlocked (s : State) (g : Group) : Bool :=
  g.members.any fun t =>
    match getThread s t with
    | some th => (touches g.word).any fun r => th.busy.contains r
    | none => false

/-- The issuing group parked at its instruction (R207). -/
def parkIssuing (s : State) (g : Group) : State :=
  g.members.foldl (fun s t => modThread s t fun th => { th with status := .parked })
    { closeIssuing s with parked := s.parked ++ [g] }

/-- An instruction over the lanes of the issuing group, in lane order; with none, or an interlock, nothing happens. -/
def runLanes (gate : Gate) (p : BitVec 3) (f : Group → State → Nat → Thread → LaneOut) (s : State) : State :=
  match issuing s with
  | none => s
  | some g =>
    if interlocked s g then s
    else
      let r := g.members.foldl (laneStep g gate p f) (s, [])
      setIssuing r.1 { g with members := r.2, idx := g.idx + 1 }

/-- The registers that a memory word writes: those of a load or an atomic; the d field of a store is a source (R210). -/
def memDests (w : Word) : List Nat :=
  let op := (opF w).toNat
  if op = 0x21 ∨ op = 0x23 ∨ op = 0x25 ∨ op = 0x27 ∨ op = 0x29 then fieldRegs (fieldKinds w).1 (dF w) else []

/-- A lane running ahead (R209): it stops before an instruction that touches a destination of the faulted one, that would trap, or
that needs a ninth undo entry; `stop` says that the instruction is one of those that R209 stops before, whatever its predicate. -/
def runAhead (gate : Gate) (p : BitVec 3) (stop : Bool) (f : Group → State → Nat → Thread → LaneOut) (s : State)
    (g : Group) (t : Nat) (th : Thread) (c : Cocoon) : State :=
  if stop then parkIssuing s g
  else if !readPred th p.toNat then
    setIssuing (setThread s t (advance g (dropLatch th g.latch))) { g with idx := g.idx + 1 }
  else if (touches g.word).any (memDests c.word).contains || gateFails gate g.core th then parkIssuing s g
  else
    match poisonCheck g th (f g s t th) with
    | .done s' =>
      match getThread s' t with
      | some th' =>
        if (th'.cocoon.map fun c => decide (c.undo.length > 8)).getD false then parkIssuing s g
        else setIssuing (setThread s' t (advance g th')) { g with idx := g.idx + 1 }
      | none => s
    | .left _ => parkIssuing s g
    | .trap _ => parkIssuing s g

/-- An instruction over the issuing group: a lane running ahead by R209, any other group by `runLanes`. -/
def runGroup (gate : Gate) (p : BitVec 3) (stop : Bool) (f : Group → State → Nat → Thread → LaneOut) (s : State) : State :=
  match issuing s with
  | none => s
  | some g =>
    if g.ahead then
      match g.members with
      | [t] =>
        match getThread s t with
        | some th =>
          match th.cocoon with
          | some c => if interlocked s g then s else runAhead gate p stop f s g t th c
          | none => runLanes gate p f s
        | none => s
      | _ => runLanes gate p f s
    else runLanes gate p f s

/-- The outcome in a lane of an instruction that changes only its thread. -/
def threadOut (s : State) (t : Nat) (r : Except Trap Thread) : LaneOut :=
  match r with
  | .ok th => .done (setThread s t th)
  | .error x => .trap x

/-- An instruction that changes only its own thread: `f` gives the thread after it, or what it raises. -/
def runThreads (gate : Gate) (p : BitVec 3) (stop : Bool) (f : Group → State → Nat → Thread → Except Trap Thread)
    (s : State) : State :=
  runGroup gate p stop (fun g s t th => threadOut s t (f g s t th)) s

/-- A register instruction: no gate, allowed while a lane runs ahead; it sees only its latch number and its thread. -/
def alu (p : BitVec 3) (f : Nat → Thread → Except Trap Thread) (s : State) : State :=
  runThreads freeGate p false (fun g _ _ th => f g.latch th) s

end Sys2Proof.Machine
end

