-- ==== Sys2Proof/Machine/Memory.lean ====
section
/-! DEFINITION. Global memory: cells, keys and poison (R398, R399, R384), page tables and TLBs (R341-R343), device faults
(R344), homes, copies and leases (R349-R352). -/

namespace Sys2Proof.Machine

/-- What an unlisted address reads as (DESIGN CHOICE, unsafe: log 1). -/
def emptyByte : Byte := 0

/-- The byte at an address. Where the rules leave a point open: log 1 (DESIGN CHOICE, unsafe). -/
def memGet : List Host.Cell → Nat → Byte
  | [], _ => emptyByte
  | (a, b) :: m, i => if a = i then b else memGet m i

/-- Memory with a byte written, in canonical form: ascending, and no entry for a byte that equals `emptyByte`. -/
def memSet : List Host.Cell → Nat → Byte → List Host.Cell
  | [], i, x => if x = emptyByte then [] else [(i, x)]
  | (a, b) :: m, i, x =>
    if a = i then (if x = emptyByte then m else (i, x) :: m)
    else if i < a then (if x = emptyByte then (a, b) :: m else (i, x) :: (a, b) :: m)
    else (a, b) :: memSet m i x

/-- Whether all addresses of a memory are above a bound, ascending, with no entry that equals `emptyByte`. -/
def memWfFrom : Option Nat → List Host.Cell → Bool
  | _, [] => true
  | lo, (a, b) :: m => (match lo with | some l => decide (l < a) | none => true) && b != emptyByte && memWfFrom (some a) m

/-- The canonical form of memory. -/
def memWf (m : List Host.Cell) : Bool := memWfFrom none m

/-- Bytes written from an address on. -/
def memWrite (m : List Host.Cell) (a : Nat) : List Byte → List Host.Cell
  | [] => m
  | b :: bs => memWrite (memSet m a b) (a + 1) bs

/-- A little-endian number from bytes (R11). -/
def ofBytes : List Byte → Nat
  | [] => 0
  | b :: bs => b.toNat + 256 * ofBytes bs
/-- The n little-endian bytes of a number (R11). -/
def toBytes : Nat → Nat → List Byte
  | 0, _ => []
  | n + 1, v => BitVec.ofNat 8 v :: toBytes n (v / 256)

/-- The end of device physical memory (R398). -/
def deviceEnd : Nat := 0x18000000000
/-- Whether a physical address names host memory (R385). -/
def isHostPa (pa : Nat) : Bool := decide (pa / 2 ^ 51 % 2 = 1)
/-- Whether a physical address exists (R398). -/
def paExists (pa : Nat) : Bool := isHostPa pa || decide (pa < deviceEnd)
/-- The die that is home of a device address (R398). -/
def homeDie (pa : Nat) : Nat := pa / 0x6000000000
/-- The line of an address (R349). -/
def lineOf (pa : Nat) : Nat := pa / 128
/-- The index of a device line on its home die (R398). -/
def lineIndex (pa : Nat) : Nat := (pa - homeDie pa * 0x6000000000) / 128
/-- The memory channel of a device address, and its row there (R398). -/
def channelOf (pa : Nat) : Nat := lineIndex pa % 96
/-- See `channelOf`. -/
def rowOf (pa : Nat) : Nat := lineIndex pa / 96
/-- The L2 slice of a device address (R398). -/
def homeSlice (pa : Nat) : Nat :=
  let l := lineIndex pa
  (l % 64) ^^^ (l / 64 % 64) ^^^ (l / 4096 % 64)

/-- The generation of the key in an ASID's slot (R399, log 7). -/
def keyOf (s : State) (asid : Nat) : Nat := (getK s.keys asid).getD 0
/-- The generation of the key a line was written under. -/
def lineKey (s : State) (line : Nat) : Nat := (getK s.lineKeys line).getD 0

/-- A byte of physical memory read under a key (R399): a line of another key gives no plaintext. Where the rules leave a point open: log 7 (DESIGN CHOICE, unsafe). -/
def readPa (s : State) (key pa : Nat) : Byte :=
  let b := memGet s.mem pa
  if isHostPa pa ∨ lineKey s (lineOf pa) = key then b else Config.foreignByte key (lineKey s (lineOf pa)) pa b

/-- n bytes of physical memory read under a key. -/
def readBytes (s : State) (key pa n : Nat) : List Byte := (List.range n).map fun i => readPa s key (pa + i)
/-- A little-endian number of n bytes read under a key. -/
def readNum (s : State) (key pa n : Nat) : Nat := ofBytes (readBytes s key pa n)

/-- A line brought under a key before a write to part of it (R399). Where the rules leave a point open: log 7 (DESIGN CHOICE, unsafe). -/
def rekeyLine (s : State) (key line : Nat) : State :=
  if lineKey s line = key then s
  else
    { s with
      mem := memWrite s.mem (line * 128) (readBytes s key (line * 128) 128)
      lineKeys := putK s.lineKeys line key }

/-- Bytes within one line written in memory under a key; a whole line clears its poison (R384). -/
def writePa (s : State) (key pa : Nat) (bs : List Byte) : State :=
  let line := lineOf pa
  let s1 := if isHostPa pa then s else rekeyLine s key line
  { s1 with
    mem := memWrite s1.mem pa bs
    lineKeys := if isHostPa pa then s1.lineKeys else putK s1.lineKeys line key
    poison := if bs.length = 128 then s1.poison.filter (· != line) else s1.poison }

/-- The parts of a write that lie in one line each. -/
def splitLines (pa : Nat) (bs : List Byte) : Nat → List (Nat × List Byte)
  | 0 => []
  | fuel + 1 =>
    if bs.isEmpty then []
    else
      let n := 128 - pa % 128
      (pa, bs.take n) :: splitLines (pa + n) (bs.drop n) fuel

/-- The latest end of the leases outstanding on a line (R351). -/
def leaseEnd (s : State) (line : Nat) : Nat :=
  s.copies.foldl (fun e c => if c.line = line ∧ c.expiry > e then c.expiry else e) 0

/-- The GWCT of a write that arrives at its home now (R351). -/
def gwctOf (s : State) (line : Nat) : Nat :=
  Nat.max s.span (Nat.max (leaseEnd s line) ((getK s.gwct line).getD 0))

/-- The armed watches on a line fired (R289, R361): those of threads, and those of submission words. -/
def fireWatches (s : State) (line : Nat) : State :=
  { s with
    threads := s.threads.map fun e =>
      match e.2.watch with
      | some (l, _) => if l = line then (e.1, { e.2 with watch := some (l, true) }) else e
      | none => e
    subFired := s.subFired ++ ((s.subWatch.filter fun w => w.2.2 == line).map fun w => (w.1, w.2.1))
    subWatch := s.subWatch.filter fun w => w.2.2 != line }

/-- The bytes that an address range held, kept for the deterministic nodes before a write (R166): once per flush point. -/
def keepBases (s : State) (key pa n : Nat) : State :=
  { s with
    nodes := s.nodes.map fun e =>
      if e.2.det then
        (e.1, { e.2 with
          bases := e.2.bases.map fun b =>
            (b.1, (List.range n).foldl (fun m i => if (getK m (pa + i)).isSome then m else putK m (pa + i) (readPa s key (pa + i))) b.2) })
      else e }

/-- The home die of an access: one in P3, or on its way out of it, wakes, and the act that makes the access waits (R406: its power
state becomes 6, see `settleWake`). Where the rules leave a point open: log 34 (DEDUCED, unsafe). -/
def wakeHome (s : State) (pa : Nat) : State :=
  match if isHostPa pa then none else getK s.power (homeDie pa) with
  | some (p, r) => if p = 3 ∨ p = 4 then { s with power := putK s.power (homeDie pa) (6, r) } else s
  | none => s

/-- Whether an act has met a die that it must wait for (R406). -/
def sleeps (s : State) : Bool := s.power.any fun e => e.2.1 == 6
/-- The dies met on their way to P2. -/
def calm (s : State) : State := { s with power := s.power.map fun e => if e.2.1 = 6 then (e.1, (4, e.2.2)) else e }

/-- A write of bytes of one line arriving at its home (R351, R352): memory reflects it, it gets its GWCT, watches fire. -/
def arriveLine (s : State) (key stamp pa : Nat) (bs : List Byte) : State × Nat :=
  let line := lineOf pa
  let g := gwctOf s line
  let s1 := fireWatches (writePa (keepBases (wakeHome s pa) key pa bs.length) key pa bs) line
  ({ s1 with gwct := putK s1.gwct line g, stamps := putK s1.stamps line (Nat.max (Nat.max stamp g) ((getK s1.stamps line).getD 0)) }, g)

/-- A write of any length arriving at its homes; the result is the latest GWCT. -/
def arrive (s : State) (key stamp pa : Nat) (bs : List Byte) : State × Nat :=
  (splitLines pa bs (bs.length / 128 + 2)).foldl (fun acc p =>
    let r := arriveLine acc.1 key stamp p.1 p.2
    (r.1, Nat.max acc.2 r.2)) (s, 0)

/-- The reset value of a BAR 0 register (R386). Where the rules leave a point open: log 6 (DESIGN CHOICE, safe). -/
def bar0Reset (off : Nat) : DWord :=
  if 0xA0 ≤ off ∧ off ≤ 0xB8 then Config.nonce 0 ((off - 0xA0) / 8) else if off = 0 then 0x19160 else if off = 0x78 then 0x0000080000000100 else if off = 0x80 then 0x0000020000000040
  else if off = 0x88 then 0x0000200000000400
  else if 0x400 ≤ off ∧ off < 0x800 ∧ off % 0x100 = 8 then 0x1E8480 else 0
/-- A BAR 0 register (R386). -/
def bar0 (s : State) (off : Nat) : DWord := (getK s.bar0 off).getD (bar0Reset off)
/-- A per-die BAR 0 register (R386). -/
def dieReg (s : State) (die off : Nat) : Nat := (bar0 s (0x400 + 0x100 * die + off)).toNat

/-- The address of an ASID's context entry (R390). -/
def ctxAddr (s : State) (asid : Nat) : Nat := (bar0 s 0x68).toNat + 64 * asid
/-- A field of a context entry, read under ASID 0's key (R390). -/
def ctxField (s : State) (asid off n : Nat) : Nat := readNum s (keyOf s 0) (ctxAddr s asid + off) n
/-- The features of a context: FEATCTX AND ACPT0 (R389). -/
def ctxFeatures (s : State) (asid : Nat) : DWord := BitVec.ofNat 64 (ctxField s asid 32 8) &&& bar0 s 0x40

/-- A page-table entry that is invalid at its level (R343). -/
def pteInvalid (e level : Nat) : Bool :=
  let leaf := e / 2 % 2 == 1
  e % 2 == 0 || e / 2 ^ 52 != 0 || e / 2 ^ 8 % 16 != 0 || (e / 2 ^ 5 % 2 == 1 && level != 0)
    || (leaf && 3 ≤ level) || (!leaf && level == 0)
    || (leaf && level == 1 && e / 2 ^ 12 % 2 ^ 9 != 0) || (leaf && level == 2 && e / 2 ^ 12 % 2 ^ 18 != 0)
/-- The ADDR field of an entry as an address (R343). -/
def pteAddr (e : Nat) : Nat := e / 2 ^ 12 % 2 ^ 40 * 2 ^ 12

/-- Whether the 16 entries of a level-0 group form one 64 KiB page (R342). -/
def joins64 (es : List Nat) : Bool :=
  match es with
  | [] => false
  | e0 :: _ =>
    (List.range 16).all fun i =>
      let e := es.getD i 0
      e / 2 ^ 12 % 16 == i && e - e / 2 ^ 12 % 16 * 2 ^ 12 == e0 - e0 / 2 ^ 12 % 16 * 2 ^ 12

/-- The end of a walk (R342-R344, R398). -/
inductive WalkOut where
  | page (va size pa : Nat) (r w x : Bool) (lclass : Nat)
  | missing
  | access
deriving DecidableEq, Repr

/-- The walk from a table at a level, levels below it counted by the first argument (R342). -/
def walkFrom (s : State) (va : Nat) : Nat → Nat → WalkOut
  | level, table =>
    let idx := va / 2 ^ (12 + 9 * level) % 512
    if !paExists (table + 8 * idx) then .access
    else
      let e := readNum s (keyOf s 0) (table + 8 * idx) 8
      if pteInvalid e level then .missing
      else
        let leaf := fun (size : Nat) =>
          WalkOut.page (va / size * size) size (pteAddr e / size * size) (e / 4 % 2 == 1) (e / 8 % 2 == 1) (e / 16 % 2 == 1)
            (e / 64 % 4)
        match level with
        | 0 =>
          let base := table + 8 * (idx / 16 * 16)
          let es := (List.range 16).map fun i => readNum s (keyOf s 0) (base + 8 * i) 8
          if e / 2 ^ 5 % 2 = 1 ∧ joins64 es then leaf (2 ^ 16) else leaf (2 ^ 12)
        | l + 1 => if e / 2 % 2 = 1 then leaf (2 ^ (12 + 9 * (l + 1))) else walkFrom s va l (pteAddr e)

/-- The addresses of the entries that a walk reads (R342). -/
def walkReads (s : State) (va : Nat) : Nat → Nat → List Nat
  | level, table =>
    let at' := table + 8 * (va / 2 ^ (12 + 9 * level) % 512)
    let e := readNum s (keyOf s 0) at' 8
    at' :: match level with
      | 0 => []
      | l + 1 => if !paExists at' || pteInvalid e (l + 1) || e / 2 % 2 == 1 then [] else walkReads s va l (pteAddr e)

/-- A walk of an ASID's tables (R342). -/
def walk (s : State) (asid va : Nat) : WalkOut := walkFrom s va 4 (ctxField s asid 0 8)

/-- The permissions an access can need (R343). -/
inductive Perm where
  | read | write | atomic | fetch
deriving DecidableEq, Repr

/-- Whether a translation allows an access. -/
def permits (e : TlbEntry) : Perm → Bool
  | .read => e.r | .write => e.w | .atomic => e.r && e.w | .fetch => e.x

/-- The units of the three TLB levels that serve a core (R341). -/
def tlbUnits (core : Nat) : List (Nat × Nat) := [(0, core), (1, clusterNo core), (2, coreDie core)]

/-- The TLB units of the map unit of a core (R341). -/
def mapUnits (core : Nat) : List (Nat × Nat) := [(2, coreDie core)]

/-- Entries of a TLB level (R341). Where the rules leave a point open: log 14 (DESIGN CHOICE, unsafe). -/
def tlbSize (level : Nat) : Nat := if level = 0 then 64 else if level = 1 then 1024 else 16384

/-- A cached translation of an address at a level's unit. -/
def tlbFind (s : State) (level unit asid va : Nat) : Option TlbEntry :=
  s.tlb.find? fun e => e.level == level && e.unit == unit && e.asid == asid && decide (e.va ≤ va) && decide (va < e.va + e.size)

/-- A translation cached in a unit in place of any that overlaps it; the oldest entry leaves a full unit (DESIGN CHOICE, unsafe: log 14). -/
def tlbPut (s : State) (e : TlbEntry) : State :=
  let mine := s.tlb.filter fun x => x.level == e.level && x.unit == e.unit
  let clash := fun (x : TlbEntry) => x.level == e.level && x.unit == e.unit && x.asid == e.asid && decide (x.va < e.va + e.size)
    && decide (e.va < x.va + x.size)
  if s.tlb.contains e then s
  else if s.tlb.any clash then { s with tlb := (s.tlb.filter fun x => !clash x) ++ [e] }
  else if mine.length < tlbSize e.level then { s with tlb := s.tlb ++ [e] }
  else
    match mine with
    | [] => s
    | o :: _ => { s with tlb := (s.tlb.erase o) ++ [e] }

/-- A translation cached in the units given. -/
def tlbFill (s : State) (units : List (Nat × Nat)) (e : TlbEntry) : State :=
  units.foldl (fun s u => tlbPut s { e with level := u.1, unit := u.2 }) s

/-- The answer of a translation. -/
inductive Xlat where
  | ok (e : TlbEntry)
  /-- No translation, or a leaf without the permission: offered to the driver (R344). -/
  | fault
  /-- What no driver is offered: Access Fault (0x0A), a physical address that does not exist (R398), or Poison (0x0B), a TLB entry with an
  uncorrectable error (R384). -/
  | fatal (code : Nat)
deriving DecidableEq, Repr

/-- The cached translation that serves an access: of the nearest unit with one that allows it (R341, R344: a fault is met by a walk
alone). -/
def tlbHit (s : State) (units : List (Nat × Nat)) (asid va : Nat) (p : Perm) : Option TlbEntry :=
  units.findSome? fun u => (tlbFind s u.1 u.2 asid va).filter fun e => permits e p

/-- The entry that serves an access: a cached one, else the page of a walk; and whether the walk met an address that does not exist. -/
def xlatEntry (s : State) (units : List (Nat × Nat)) (asid va : Nat) (p : Perm) : Option TlbEntry × Bool :=
  match tlbHit s units asid va p with
  | some e => (some e, false)
  | none =>
    match walk s asid va with
    | .page v z pa r w x c => (some ⟨0, 0, asid, v, z, pa, r, w, x, c, false⟩, false)
    | .missing => (none, false)
    | .access => (none, true)

/-- The homes of the tables that a translation reads woken (R406). -/
def wakeTables (s : State) (units : List (Nat × Nat)) (asid va : Nat) (p : Perm) : State :=
  if (tlbHit s units asid va p).isSome then s
  else (ctxAddr s asid :: walkReads s va 4 (ctxField s asid 0 8)).foldl wakeHome s

/-- A translation through the TLBs of the units given, nearest first, then the tables (R341); units that missed are filled. A leaf
that does not allow the access is not cached. -/
def translate (s : State) (units : List (Nat × Nat)) (asid va : Nat) (p : Perm) : State × Xlat :=
  let s0 := wakeTables s units asid va p
  match xlatEntry s units asid va p with
  | (some e, _) =>
    if e.bad then (s0, .fatal 0x0B)
    else if !permits e p then (s0, .fault)
    else if !paExists (e.pa + (va - e.va)) then (tlbFill s0 units e, .fatal 0x0A)
    else (wakeHome (tlbFill s0 units e) (e.pa + (va - e.va)), .ok e)
  | (none, acc) => (s0, if acc then .fatal 0x0A else .fault)

/-- The physical address of a virtual one under a translation. -/
def paOf (e : TlbEntry) (va : Nat) : Nat := e.pa + (va - e.va)

/-- Whether a line is poisoned (R384). -/
def poisoned (s : State) (pa : Nat) : Bool := s.poison.contains (lineOf pa)

/-- The number of a queue entry in the list of poisoned lines (R384). -/
def queueLine (id : Nat) : Nat := 2 ^ 80 + id

/-- Whether bytes of physical memory can be reached: they exist and none is poisoned (R375). -/
def reachable (s : State) (pa n : Nat) : Bool :=
  (List.range n).all fun i => paExists (pa + i) && !poisoned s (pa + i)

/-- A record of the event area, then the die's MSI-X vector (R373, R375, R385, R394): WRITE advances or DROPPED counts; what cannot be
reached drops the record. Where the rules leave a point open: log 31 (DEDUCED, unsafe), log 33 (DEDUCED, unsafe). -/
def writeEvent (s : State) (kind die asid code addr : Nat) : State :=
  let buf := (bar0 s 0x70).toNat
  let key := keyOf s 0
  if buf = 0 ∨ !reachable s buf 8 then s
  else
    let cap := readNum s key buf 4
    let w := readNum s key (buf + 4) 4
    let dropped := fun (s : State) =>
      if reachable s (buf + 8) 8 then (arrive s key 0 (buf + 8) (toBytes 8 (readNum s key (buf + 8) 8 + 1))).1 else s
    if w ≥ cap then dropped s
    else
      let s1 := (arrive s key 0 (buf + 4) (toBytes 4 (w + 1))).1
      let at' := buf + 64 + 32 * w
      if !reachable s1 at' 32 then dropped s1
      else
        let s2 := (arrive s1 key 0 (at' + 8) (toBytes 8 addr ++ toBytes 8 s.span ++ toBytes 8 0)).1
        let s3 := (arrive s2 key 0 at' ([BitVec.ofNat 8 kind, BitVec.ofNat 8 die] ++ toBytes 2 asid ++ toBytes 4 code)).1
        { s3 with msix := s3.msix ++ [die] }

/-- The KIND bits of a device fault (R344). -/
def permKind : Perm → Nat
  | .read => 1 | .write => 2 | .fetch => 4 | .atomic => 8

/-- A device fault raised (R344): a pending record of the page is shared, else a free record is written with event KIND 4;
`none` when no record is free and the requester stalls. -/
def raiseFault (s : State) (die asid va : Nat) (p : Perm) (src unit : Nat) (who : Requester) : Option State :=
  let page := va / 4096
  let buf := dieReg s die 0
  match s.faults.find? fun e => e.1 / 1024 == die && e.2.asid == asid && e.2.page == page with
  | some (i, r) =>
    let n := if r.count < 0xFFFF then r.count + 1 else r.count
    let s1 := { s with faults := putK s.faults i { r with count := n, reqs := r.reqs ++ [who] } }
    some (arrive s1 (keyOf s 0) 0 (buf + 32 * (i % 1024) + 14) (toBytes 2 n)).1
  | none =>
    match (List.range 1024).find? fun i => (getK s.faults (die * 1024 + i)).isNone with
    | none => none
    | some i =>
      let s1 := { s with faults := putK s.faults (die * 1024 + i) ⟨asid, page, 1, [who]⟩ }
      let bytes := toBytes 8 va ++ toBytes 2 asid ++ [BitVec.ofNat 8 (permKind p), BitVec.ofNat 8 src] ++ toBytes 2 unit
        ++ toBytes 2 1 ++ toBytes 8 s.span ++ toBytes 8 0
      let s2 := (arrive s1 (keyOf s 0) 0 (buf + 32 * i) bytes).1
      some (writeEvent s2 4 die asid i va)

/-- The UNIT field of a core's requests (R344). -/
def unitOf (core : Nat) : Nat := 32 * coreCluster core + coreIndex core

/-- The place and unit of the nearest cache of a core for a line (R196, R273). -/
def nearPlace (s : State) (core : Nat) : Nat × Nat :=
  if s.fusedClusters.contains (clusterNo core) then (1, clusterNo core) else (0, core)

/-- The near and far lease lengths of a class (R350). -/
def leaseLen (s : State) (lclass : Nat) (far : Bool) : Nat :=
  let r := (bar0 s (0x78 + 8 * lclass)).toNat
  if lclass = 3 then 0 else if far then r / 2 ^ 32 else r % 2 ^ 32

/-- Scratchpad units that placed cohorts hold on a core, of a spread cohort its home core (R196, R272). -/
def unitsHeld (s : State) (core : Nat) : Nat :=
  let one := fun (e : Nat × Cohort) => if e.2.crews.headD 0 / 16 = core ∧ e.2.state ≠ 3 then e.2.units else 0
  s.cohorts.foldl (fun n e => n + one e) 0

/-- The slice of a fused L1 that holds a line (R273). -/
def fusedSlice (line : Nat) : Nat := (line ^^^ line / 32 ^^^ line / 1024) % 32
/-- The core whose L1 units can hold a copy of a line for a core: its own, or in a fused cluster the slice's (R196, R273). -/
def sliceCore (s : State) (core line : Nat) : Nat :=
  if s.fusedClusters.contains (clusterNo core) then clusterNo core * 32 + fusedSlice line else core
/-- Whether an L1 can hold a copy of a line for a core (R196, R273). -/
def hasL1 (s : State) (core line : Nat) : Bool := decide (unitsHeld s (sliceCore s core line) < 16)

/-- Whether a copy shares the storage of a line at a place: a core's L1, a slice of a fused L1, or a slice of a die's L2 (R9, R196, R273). -/
def sameStore (place : Nat × Nat) (line : Nat) (c : Copy) : Bool :=
  c.place == place.1 && c.unit == place.2
    && (if place.1 = 1 then fusedSlice c.line == fusedSlice line
        else place.1 == 0 || homeSlice (c.line * 128) == homeSlice (line * 128))
/-- The lines that this storage holds: 256 in each unit of the L1, 4 MiB in a slice of the L2 (R9, R196). -/
def storeRoom (s : State) (place : Nat × Nat) (line : Nat) : Nat :=
  if place.1 = 2 then 32768
  else (16 - unitsHeld s (if place.1 = 1 then place.2 * 32 + fusedSlice line else place.2)) * 256

/-- A node, its record address, and the machine with one changed. -/
def getNode (s : State) (n : Nat) : Option Node := getK s.nodes n
/-- See `getNode`. -/
def nodeAddr (s : State) (n : Nat) : Nat := ((getNode s n).map (·.addr)).getD 0
/-- See `getNode`. -/
def modNode (s : State) (n : Nat) (f : Node → Node) : State :=
  match getNode s n with
  | some x => { s with nodes := putK s.nodes n (f x) }
  | none => s

/-- The bytes that writes of a core (or, fused, of its cluster) still on their way to the home put over a byte (R352). -/
def overlayByte (s : State) (core : Nat) (pa : Nat) (b : Byte) : Byte :=
  let place := nearPlace s core
  s.access.foldl (fun b a =>
    if a.arrived ∨ nearPlace s a.core ≠ place then b
    else a.writes.foldl (fun b w => if w.1 ≤ pa ∧ pa < w.1 + w.2.length then w.2.getD (pa - w.1) 0 else b) b) b

/-- An access of a node counted by the die's reuse unit (R380). Where the rules leave a point open: log 41 (DESIGN CHOICE, unsafe). -/
def countReuse (s : State) (die asid node line : Nat) : State :=
  if (bar0 s (0x400 + 0x100 * die + 0x20)).toNat ≠ node ∨ dieReg s die 0x28 % 2 ^ 14 ≠ asid ∨ node = 0 then s
  else
    let u := (getK s.reuse die).getD ⟨[], 0, 0, []⟩
    let bump := fun (t : Nat × Nat) => if t.1 = line then t else (t.1, t.2 + 1)
    match u.tags.find? fun t => t.1 == line with
    | some t =>
      let k := Nat.min 15 (if t.2 = 0 then 0 else Nat.log2 t.2)
      let n := (getK u.bins k).getD 0
      let tags := u.tags.map fun t => if t.1 = line then (line, 0) else (t.1, t.2 + 1)
      { s with reuse := putK s.reuse die { u with tags := tags, bins := putK u.bins k (if n < 0xFFFFFFFF then n + 1 else n) } }
    | none =>
      let tags := u.tags.map bump
      if u.misses + 1 = 4096 then
        let tags' := if tags.length < 64 then tags ++ [(line, 0)] else tags.set (u.next % 64) (line, 0)
        { s with reuse := putK s.reuse die { u with tags := tags', next := u.next + 1, misses := 0 } }
      else { s with reuse := putK s.reuse die { u with tags := tags, misses := u.misses + 1 } }

/-- An access of a thread counted where it is an L2 access of its node (R380). -/
def countL2 (s : State) (t die line : Nat) : State :=
  match getThread s t with
  | some th => countReuse s die th.lc.asid (nodeAddr s th.lc.node) line
  | none => s

/-- The last acquire at cluster scope of a core (R355, R358): copies filled before it serve no read of the core's threads. -/
def acquiredOf (s : State) (core : Nat) : Nat := (getK s.acquired core).getD 0

/-- A copy that a core can read: its place, unexpired, of the reader's key, and filled after an acquire (R350, R355). -/
def usableCopy (s : State) (place : Nat × Nat) (key line after : Nat) : Option Copy :=
  s.copies.find? fun c => c.place == place.1 && c.unit == place.2 && c.line == line && c.key == key
    && decide (s.span < c.expiry) && decide (after ≤ c.born)

/-- Bytes put over a list that starts at an address. -/
def overlayBytes (base : Nat) (data : List Byte) (pa : Nat) (bs : List Byte) : List Byte :=
  (List.range data.length).map fun i =>
    if pa ≤ base + i ∧ base + i < pa + bs.length then bs.getD (base + i - pa) 0 else data.getD i 0

/-- Bytes that an agent of a core has written or read at the home, with their stamp, put into the copies on its way, so that its later
reads never go back (R159, R352, R353). -/
def patchCopies (s : State) (core pa stamp : Nat) (bs : List Byte) : State :=
  let near := nearPlace s core
  { s with
    copies := s.copies.map fun c =>
      if c.line = lineOf pa ∧ ((c.place, c.unit) = near ∨ (c.place, c.unit) = (2, coreDie core)) then
        { c with data := overlayBytes (c.line * 128) c.data pa bs, stamp := Nat.max c.stamp stamp }
      else c }

/-- A lease granted at the home on a line (R350, R351): while a write is pending, no further than its GWCT. Other copies
at the place take the newer data; the oldest copy leaves a full store (DESIGN CHOICE, safe: log 11). -/
def grant (s : State) (place : Nat × Nat) (key line lclass : Nat) (far : Bool) (data : List Byte) (stamp : Nat) : State :=
  let e := s.span + leaseLen s lclass far
  let g := (getK s.gwct line).getD 0
  let e' := if s.span < g then Nat.min e g else e
  let old := s.copies.map fun c =>
    if c.place = place.1 ∧ c.unit = place.2 ∧ c.line = line ∧ c.key = key then { c with data := data, stamp := Nat.max c.stamp stamp }
    else c
  if lclass = 3 ∨ e' ≤ s.span then { s with copies := old }
  else
    let mine := old.filter (sameStore place line)
    let kept := if mine.length < storeRoom s place line then old else match mine with | c :: _ => old.erase c | [] => old
    { s with
      copies := kept ++ [⟨s.seqno, place.1, place.2, line, data, e', s.seqno, stamp, key⟩]
      seqno := s.seqno + 1 }

/-- A line as a thread reads it: from a near copy, else a remote copy of its die, else the home, which grants
copies to the places on the way (R349, R350); with the stamp that reads of it merge (R353). A line of class 3 is read at the home. Reads
that the L1 does not serve are L2 accesses (R380). -/
def readLine (s : State) (t key line lclass : Nat) : State × List Byte × Nat :=
  let core := threadCore t
  let near := nearPlace s core
  let die := coreDie core
  let after := acquiredOf s core
  let base := line * 128
  match if lclass = 3 ∨ !hasL1 s core line then none else usableCopy s near key line after with
  | some c => (s, c.data, c.stamp)
  | none =>
    let s0 := countL2 s t die line
    let homed := isHostPa base || homeDie base == die
    match if homed ∨ lclass = 3 then none else usableCopy s (2, die) key line after with
    | some c => (if hasL1 s core line then grant s0 near key line lclass false c.data c.stamp else s0, c.data, c.stamp)
    | none =>
      let data := readBytes s key base 128
      let stamp := (getK s.stamps line).getD 0
      if isHostPa base then (s0, data, stamp)
      else
        let s1 := if homed then s0 else grant (countL2 s0 t (homeDie base) line) (2, die) key line lclass true data stamp
        (if hasL1 s1 core line then grant s1 near key line lclass false data stamp else s1, data, stamp)

/-- n bytes within one line as a thread reads them, the writes of its place in flight laid over (R352); with the stamp. -/
def readNear (s : State) (t key pa n lclass : Nat) : State × List Byte × Nat :=
  let r := readLine s t key (lineOf pa) lclass
  (r.1, (List.range n).map fun i => overlayByte r.1 (threadCore t) (pa + i) (r.2.1.getD (pa % 128 + i) 0), r.2.2)

/-- The accesses of other threads of a thread's place, not yet at their homes, that write some of n bytes (R352, R353). -/
def writersOf (s : State) (t pa n : Nat) : List Nat :=
  let place := nearPlace s (threadCore t)
  (s.access.filter fun a => !a.arrived && a.thread != t && nearPlace s a.core == place
    && a.writes.any fun w => decide (w.1 < pa + n) && decide (pa < w.1 + w.2.length)).map (·.id)

end Sys2Proof.Machine
end

