-- ==== Sys2Proof/Machine/Local.lean ====
section
/-! DEFINITION. Local memory: the private window and its stack cache (R153, R197, R198), the scratchpad and its region maps
(R282-R284). -/

namespace Sys2Proof.Machine

/-- The translation of a byte for the Hive's and the stack cache's own reads: nothing where none exists. -/
def paFor (s : State) (core asid va : Nat) (p : Perm) : Option Nat :=
  match (translate s (tlbUnits core) asid va p).2 with
  | .ok e => some (paOf e va)
  | _ => none

/-- The rows of a core's stack cache. -/
def coreRows (s : State) (core : Nat) : List StackRow := (getK s.rows core).getD []

/-- The ASID in the tags of a slot's rows (R197): that of the context of its crew's threads. -/
def rowAsid (s : State) (core slot : Nat) : Nat :=
  ((List.range 64).findSome? fun l => (getThread s (threadNo core slot l)).map fun th => th.lc.asid).getD 0

/-- A lane's 16 bytes of a row, read from its backing (R198). -/
def backingBytes (s : State) (core slot off lane : Nat) : List (Nat × Byte) :=
  match getThread s (threadNo core slot lane) with
  | none => []
  | some th =>
    match paFor s core th.lc.asid (th.stkbase.toNat + off) .read with
    | none => []
    | some pa => (List.range 16).map fun i => (16 * lane + i, readPa s (keyOf s th.lc.asid) (pa + i))

/-- Whether a lane's 16 bytes of a row are poisoned in their backing (R384). -/
def backingPoisoned (s : State) (core slot off lane : Nat) : Bool :=
  match getThread s (threadNo core slot lane) with
  | none => false
  | some th =>
    match paFor s core th.lc.asid (th.stkbase.toNat + off) .read with
    | none => false
    | some pa => poisoned s pa

/-- The lanes of a row with a dirty byte. -/
def dirtyLanes (r : StackRow) : List Nat := (List.range 64).filter fun l => r.dirty.any fun k => k / 16 == l

/-- A physical line poisoned (R384). -/
def poisonLine (s : State) (line : Nat) : State := if s.poison.contains line then s else { s with poison := s.poison ++ [line] }

/-- A row's dirty lanes written to their backing memory (R198), poison with them (R384). Where the rules leave a point open: log 21 (DEDUCED, unsafe). -/
def spillRow (s : State) (core : Nat) (r : StackRow) : State :=
  (dirtyLanes r).foldl (fun s lane =>
    match getThread s (threadNo core r.slot lane) with
    | none => s
    | some th =>
      match paFor s core th.lc.asid (th.stkbase.toNat + r.off) .write with
      | none => s
      | some pa =>
        let s1 := (arrive s (keyOf s th.lc.asid) 0 pa ((List.range 16).map fun i => (getK r.data (16 * lane + i)).getD 0)).1
        if r.poison.contains lane then poisonLine s1 (lineOf pa) else s1) s

/-- The row to evict (R198): of the crew the highest offset, else the least recently used of the core. -/
def victimRow (rows : List StackRow) (slot : Nat) : Option StackRow :=
  let mine := rows.filter (·.slot == slot)
  match mine with
  | r :: rs => some (rs.foldl (fun b x => if x.off > b.off then x else b) r)
  | [] =>
    match rows with
    | r :: rs => some (rs.foldl (fun b x => if x.used < b.used then x else b) r)
    | [] => none

/-- The stack cache with a row present (R198): an absent one is filled from its backing, a full cache evicts first. Where the rules leave a point open: log 21 (DEDUCED, unsafe). -/
def withRow (s : State) (core slot off : Nat) : State :=
  let rows := coreRows s core
  let asid := rowAsid s core slot
  if rows.any fun r => r.slot == slot && r.off == off && r.asid == asid then s
  else
    let s1 := if rows.length < 32 then s else
      match victimRow rows slot with
      | none => s
      | some v => let s' := spillRow s core v; { s' with rows := putK s'.rows core ((coreRows s' core).erase v) }
    let data := (List.range 64).foldl (fun m lane => (backingBytes s1 core slot off lane).foldl (fun m e => putK m e.1 e.2) m) []
    { s1 with rows := putK s1.rows core (coreRows s1 core ++ [⟨slot, off, data, [], s1.seqno, asid,
      (List.range 64).filter (backingPoisoned s1 core slot off)⟩]) }

/-- A row of a core. -/
def findRow (s : State) (core slot off : Nat) : StackRow :=
  ((coreRows s core).find? fun r => r.slot == slot && r.off == off && r.asid == rowAsid s core slot).getD
    ⟨slot, off, [], [], 0, rowAsid s core slot, []⟩

/-- A row of a core replaced. -/
def putRow (s : State) (core : Nat) (r : StackRow) : State :=
  { s with rows := putK s.rows core ((coreRows s core).map fun x => if x.slot = r.slot ∧ x.off = r.off ∧ x.asid = r.asid then r else x) }

/-- n bytes of a thread's window within one row (R153, R198). -/
def readWindow (s : State) (t off n : Nat) : State × List Byte :=
  let core := threadCore t
  let slot := threadSlot t
  let s1 := withRow s core slot (off / 16 * 16)
  let r := findRow s1 core slot (off / 16 * 16)
  (putRow { s1 with seqno := s1.seqno + 1 } core { r with used := s1.seqno },
   (List.range n).map fun i => (getK r.data (16 * threadLane t + off % 16 + i)).getD 0)

/-- Whether the bytes of a thread's window at an offset, their row present, hold an uncorrectable error (R384). -/
def windowPoisoned (s : State) (t off : Nat) : Bool :=
  (findRow s (threadCore t) (threadSlot t) (off / 16 * 16)).poison.contains (threadLane t)

/-- A byte of a thread's window as its number in the flush-point bytes of its node (R166). -/
def windowKey (cohort crew lane off : Nat) : Nat := 2 ^ 63 + ((cohort * 2 ^ 16 + crew) * 64 + lane) * 2 ^ 32 + off

/-- Flush-point bytes with n bytes added that none has been kept of, as they stand (R166). -/
def keepBytes (bases : Map (Map Byte)) (key : Nat) (now : List Byte) : Map (Map Byte) :=
  bases.map fun b => (b.1, now.zipIdx.foldl (fun m x => if (getK m (key + x.2)).isSome then m else putK m (key + x.2) x.1) b.2)

/-- The nodes after bytes of a thread's window were kept, if its node is deterministic (R166). -/
def keepWindow (s : State) (t off : Nat) (now : List Byte) : Map Node :=
  match getThread s t with
  | none => s.nodes
  | some th =>
    if th.lc.det then
      s.nodes.map fun e => if e.1 = th.lc.node then
        (e.1, { e.2 with bases := keepBytes e.2.bases (windowKey th.lc.cohort th.lc.crew (threadLane t) off) now }) else e
    else s.nodes

/-- Bytes within one row written in a thread's window; all 16 of them clear its poison (R384). -/
def writeWindow (s : State) (t off : Nat) (bs : List Byte) : State :=
  let core := threadCore t
  let slot := threadSlot t
  let s1 := withRow s core slot (off / 16 * 16)
  let r := findRow s1 core slot (off / 16 * 16)
  let at' := 16 * threadLane t + off % 16
  let idx := List.range bs.length
  let now := idx.map fun i => (getK r.data (at' + i)).getD 0
  putRow { s1 with seqno := s1.seqno + 1, nodes := keepWindow s1 t off now } core
    { r with
      used := s1.seqno
      data := idx.foldl (fun m i => putK m (at' + i) (bs.getD i 0)) r.data
      dirty := idx.foldl (fun d i => if d.contains (at' + i) then d else d ++ [at' + i]) r.dirty
      poison := if bs.length = 16 then r.poison.filter (· != threadLane t) else r.poison }

/-- A cohort. -/
def getCohort (s : State) (c : Nat) : Option Cohort := getK s.cohorts c
/-- The machine with a cohort changed, if it exists. -/
def modCohort (s : State) (c : Nat) (f : Cohort → Cohort) : State :=
  match getCohort s c with
  | some x => { s with cohorts := putK s.cohorts c (f x) }
  | none => s

/-- The Swarm Tables without the threads of which p holds; the age of an entry is that of the members left (R199). -/
def thinSwarm (s : State) (p : Nat → Bool) : Map (List SwarmEntry) :=
  s.swarm.map fun e => (e.1, e.2.filterMap fun x =>
    match x.members.filter fun t => !p t with
    | [] => none
    | t :: ts =>
      let since := fun (u : Nat) => ((getThread s u).map (·.since)).getD x.age
      some (if (t :: ts).length = x.members.length then x
        else { x with members := t :: ts, age := ts.foldl (fun m u => Nat.min m (since u)) (since t) }))

/-- Whether a thread is of a cohort. -/
def ofCohort (s : State) (c t : Nat) : Bool := (getThread s t).map (·.lc.cohort) == some c

/-- A cohort's save begun (R214, step 1): no further clause of it is opened. -/
def startSave (s : State) (c : Nat) : State :=
  { modCohort s c fun x => { x with state := 2 } with swarm := thinSwarm s (ofCohort s c) }

/-- Whether a cohort holds an array with an open interval (R267). -/
def openInterval (s : State) (c : Nat) : Bool := s.girders.any fun g => g.2.owner == some c && g.2.opened.isSome

/-- Bytes of a cohort's scratchpad capacity (R153). -/
def scratchSize (s : State) (c : Nat) : Nat := ((getCohort s c).map fun x => x.units * 32768).getD 0

/-- The region map that covers a scratchpad byte (R282). -/
def regionAt (x : Cohort) (off : Nat) : Option (Nat × Region) :=
  x.regions.find? fun r => decide (r.2.off ≤ off) && decide (off < r.2.off + r.2.len)

/-- What a fill or a translated access ends with: done, or a fault at a virtual address: 0 offered to the driver,
1 Access Fault, 2 Poison. -/
inductive Filled where
  | ok (s : State) (stamp : Nat)
  | fault (s : State) (kind va : Nat)

/-- A write of a deterministic node noted for its interval (R365, R366): a line's virtual number, offsets, the cohort, and
how it came: 0 no buffered entry, 1 an entry at a node-wide flush point, 2 a commuting `RED` at a cohort flush point, 3 another
entry there. -/
def logLine (l : Option LineLog) (offs : List Nat) (j how : Nat) : LineLog :=
  let x := l.getD ⟨[], [], false, [], true⟩
  let add := fun (l : List Nat) (v : Nat) => if l.contains v then l else l ++ [v]
  { offs := offs.foldl add x.offs
    cohorts := add x.cohorts j
    direct := x.direct || how == 0
    flushed := if how ≥ 2 then add x.flushed j else x.flushed
    commuting := x.commuting && how != 3 }

/-- A write of n bytes at a virtual address noted in its node, if that is deterministic. -/
def noteWrite (s : State) (node j va n how : Nat) : State :=
  modNode s node fun x =>
    let l := logLine (getK x.lines (va / 128)) ((List.range n).map fun i => va % 128 + i) j how
    if x.det then { x with lines := putK x.lines (va / 128) l } else x

/-- The GWCT of a write of a node kept for its retirement (R326). -/
def noteGwct (s : State) (node g : Nat) : State := modNode s node fun x => { x with maxGwct := Nat.max x.maxGwct g }

/-- The accesses in flight after elements of one have arrived at their homes with a GWCT: what it has left to write, and the stamp of the
accesses that return its bytes (R353). -/
def accessArrived (accs : List Access) (a : Access) (g n left : Nat) : List Access :=
  accs.map fun x =>
    if x.id = a.id then { x with writes := a.writes.drop (a.writes.length - left), va := x.va + n, arrived := left == 0, gwct := Nat.max x.gwct g }
    else if x.after.contains a.id then { x with stamp := Nat.max x.stamp (Nat.max a.stamp g) }
    else x

/-- The first k elements that a store has still to write arriving at their homes (R86, R351, R352) with their GWCT; the copies of its core
take the bytes, and a deterministic node's interval notes them (R365, R366). -/
def arriveElems (s : State) (a : Access) (k : Nat) : State :=
  let lc := (getThread s a.thread).map (·.lc)
  let key := match lc with | some l => keyOf s l.asid | none => 0
  let node := (lc.map (·.node)).getD 0
  let j := ((lc.bind fun l => getCohort s l.cohort).map (·.j)).getD 0
  let r := (a.writes.take k).foldl (fun (acc : State × Nat × Nat) w =>
    let x := arrive acc.1 key a.stamp w.1 w.2
    let s1 := countL2 (patchCopies x.1 a.core w.1 (Nat.max a.stamp x.2) w.2) a.thread (homeDie w.1) (lineOf w.1)
    (noteWrite s1 node j (a.va + acc.2.2) w.2.length 0, Nat.max acc.2.1 x.2, acc.2.2 + w.2.length)) (s, 0, 0)
  noteGwct { r.1 with access := accessArrived r.1.access a r.2.1 r.2.2 (a.writes.length - k) } node r.2.1

/-- All that a store has still to write brought to its home. -/
def arriveAccess (s : State) (a : Access) : State := arriveElems s a a.writes.length

/-- The writes in flight of a place that overlap a line, oldest first, brought to their home. -/
def flushLine (s : State) (core line : Nat) : State :=
  (s.access.filter fun a => !a.arrived && nearPlace s a.core == nearPlace s core
    && a.writes.any fun w => lineOf w.1 == line).foldl arriveAccess s

/-- A granule filled on first touch (R283), read as a thread reads; writes of its place to the lines on their way come home first. -/
def fillGranule (s : State) (t c asid g : Nat) : Filled :=
  match getCohort s c with
  | none => .ok s 0
  | some x =>
    match regionAt x g with
    | none => .ok s 0
    | some (k, r) =>
      if r.filled.contains g then .ok s 0
      else
        let done := fun (s : State) (bs : List Byte) =>
          modCohort s c fun x => { x with
            scratch := memWrite x.scratch g bs
            regions := putK x.regions k { r with filled := r.filled ++ [g], stale := false } }
        if r.flags / 2 % 2 = 1 then .ok (done s (List.replicate 256 0)) 0
        else
          let va := r.base + (g - r.off)
          let tr := translate s (mapUnits (threadCore t)) asid va .read
          match tr.2 with
          | .fault => .fault tr.1 0 va
          | .fatal c => .fault tr.1 (if c = 0x0A then 1 else 2) va
          | .ok e =>
            let pa := paOf e va
            if poisoned tr.1 pa then .fault tr.1 2 va
            else if poisoned tr.1 (pa + 128) then .fault tr.1 2 (va + 128)
            else
              let key := keyOf s asid
              let s0 := flushLine (flushLine tr.1 (threadCore t) (lineOf pa)) (threadCore t) (lineOf pa + 1)
              let r1 := readNear s0 t key pa 128 e.lclass
              let r2 := readNear r1.1 t key (pa + 128) 128 e.lclass
              .ok (done r2.1 (r1.2.1 ++ r2.2.1)) (Nat.max r1.2.2 r2.2.2)

/-- The granules of 256 bytes that n bytes of the scratchpad lie in (R282). -/
def granulesOf (off n : Nat) : List Nat :=
  if n = 0 then [] else (List.range ((off % 256 + n + 255) / 256)).map fun i => off / 256 * 256 + 256 * i

/-- The granules of a scratchpad range filled (R283). -/
def touchScratch (s : State) (t c asid off n : Nat) : Filled :=
  (granulesOf off n).foldl (fun acc g =>
    match acc with
    | .ok s st =>
      match fillGranule s t c asid g with
      | .ok s' st' => .ok s' (Nat.max st st')
      | f => f
    | f => f) (.ok s 0)

/-- n bytes of a cohort's scratchpad, as they stand. -/
def readScratch (s : State) (c off n : Nat) : List Byte :=
  match getCohort s c with
  | none => List.replicate n 0
  | some x => (List.range n).map fun i => memGet x.scratch (off + i)

/-- The number of a scratchpad line in the list of poisoned lines (R384). -/
def scratchLine (cohort off : Nat) : Nat := 2 ^ 52 + cohort * 2 ^ 12 + off / 128

/-- The first poisoned byte of a scratchpad range (R384). -/
def scratchPoison (s : State) (c off n : Nat) : Option Nat :=
  if s.poison.isEmpty then none
  else ((List.range n).map (· + off)).find? fun o => s.poison.contains (scratchLine c o)

/-- A scratchpad byte as its number in the flush-point bytes of its node (R166). -/
def localKey (cohort off : Nat) : Nat := 2 ^ 62 + cohort * 2 ^ 24 + off

/-- The nodes after scratchpad bytes of a cohort were kept, if its node is deterministic (R166). -/
def keepScratch (s : State) (c off n : Nat) : Map Node :=
  match getCohort s c with
  | none => s.nodes
  | some x =>
    s.nodes.map fun e => if e.1 = x.node ∧ e.2.det then
      (e.1, { e.2 with bases := keepBytes e.2.bases (localKey c off) (readScratch s c off n) }) else e

/-- Bytes written in a cohort's scratchpad by a thread or an engine; those of a bound region become dirty (R283), a line written whole
loses its poison (R384), and a deterministic node keeps what stood there (R166). -/
def writeScratch (s00 : State) (c off : Nat) (bs : List Byte) : State :=
  let s0 := { s00 with nodes := keepScratch s00 c off bs.length }
  let s := if s0.poison.isEmpty then s0 else
    { s0 with poison := s0.poison.filter fun l =>
        !((List.range (bs.length / 128 + 1)).any fun i =>
          let o := (off + 127) / 128 * 128 + 128 * i
          decide (o + 128 ≤ off + bs.length) && l == scratchLine c o) }
  modCohort s c fun x =>
    { x with
      scratch := memWrite x.scratch off bs
      regions := x.regions.map fun kr =>
        let add := (List.range bs.length).filterMap fun i =>
          let o := off + i
          if kr.2.off ≤ o ∧ o < kr.2.off + kr.2.len ∧ !kr.2.dirty.contains o then some o else none
        (kr.1, { kr.2 with dirty := kr.2.dirty ++ add }) }

end Sys2Proof.Machine
end

