-- ==== Sys2Proof/Machine/Reals.lean ====
section
/-! DEFINITION. Exact reals: rationals with infinities and NaN for tangents (R76-R78), and the special functions of R133,
correctly rounded from rational bounds that are narrowed until both ends round alike. -/

namespace Sys2Proof.Machine

/-- An exact extended real: what R96's `exact` gives. A rational has a nonzero denominator. -/
inductive XR where
  | nan
  | inf (neg : Bool)
  | rat (num : Int) (den : Nat)
deriving DecidableEq, Repr

/-- Zero. -/
def XR.zero : XR := .rat 0 1

/-- The extended real of a value (signed zeros are the real 0). -/
def XR.ofFVal : FVal → XR
  | .nan => .nan
  | .inf n => .inf n
  | .fin n m e => if e ≥ 0 then .rat (signed n (m * 2 ^ e.toNat)) 1 else .rat (signed n m) (2 ^ (-e).toNat)

/-- The negation. -/
def XR.neg : XR → XR
  | .nan => .nan
  | .inf n => .inf !n
  | .rat p q => .rat (-p) q

/-- The sum, by IEEE rules on infinities and NaN (R77). -/
def XR.add : XR → XR → XR
  | .nan, _ => .nan
  | _, .nan => .nan
  | .inf n1, .inf n2 => if n1 = n2 then .inf n1 else .nan
  | .inf n, .rat .. => .inf n
  | .rat .., .inf n => .inf n
  | .rat p1 q1, .rat p2 q2 => .rat (p1 * (q2 : Int) + p2 * (q1 : Int)) (q1 * q2)

/-- The product, by IEEE rules on infinities and NaN (R77). -/
def XR.mul : XR → XR → XR
  | .nan, _ => .nan
  | _, .nan => .nan
  | .inf n1, .inf n2 => .inf (n1 != n2)
  | .inf n, .rat p _ => if p = 0 then .nan else .inf (n != decide (p < 0))
  | .rat p _, .inf n => if p = 0 then .nan else .inf (n != decide (p < 0))
  | .rat p1 q1, .rat p2 q2 => .rat (p1 * p2) (q1 * q2)

/-- x ÷ v for a divisor that is a value: a nonzero number over a zero is an infinity of that zero's sign (R78). -/
def XR.divFVal (x : XR) (v : FVal) : XR :=
  match x, v with
  | .nan, _ => .nan
  | _, .nan => .nan
  | .inf _, .inf _ => .nan
  | .rat .., .inf _ => .zero
  | .inf n, .fin n2 _ _ => .inf (n != n2)
  | .rat p q, .fin n m e =>
    if m = 0 then (if p = 0 then .nan else .inf (n != decide (p < 0)))
    else
      match XR.ofFVal (.fin n m e) with
      | .rat p2 q2 => .rat (p * (q2 : Int) * p2.sign) (q * p2.natAbs)
      | _ => .nan

/-- Whether the extended real is a real zero. -/
def XR.isZero : XR → Bool
  | .rat p _ => p == 0
  | _ => false

/-- `term` of R77: a zero tangent contributes +0 whatever the partial. -/
def term (p t : XR) : XR := if t.isZero then .zero else p.mul t

/-- TG, if a rounded tangent is infinite or NaN (R77). -/
def tgFlag (f : IeeeFmt) (x : Nat) : Word := flagIf (expField f x == f.topExp) flTG

/-- `tround` of R76 with the TG it sets: RNE into the tangent's format, a real zero as +0, NaN canonical (R77). -/
def tround (f : IeeeFmt) (x : XR) : FRes :=
  match x with
  | .nan => ⟨f.canonNaN, flTG⟩
  | .inf n => ⟨f.inf n, flTG⟩
  | .rat p q => if p = 0 then ⟨0, 0⟩ else
      let b := (roundRat f .rne (decide (p < 0)) p.natAbs q).bits
      ⟨b, tgFlag f b⟩

/-- An extended real rounded to a format in a mode (R96), for results that are no tangents: a zero is +0. -/
def roundXR (f : IeeeFmt) (mode : RMode) : XR → FRes
  | .nan => invalid f
  | .inf n => ⟨f.inf n, 0⟩
  | .rat p q => roundRat f mode (decide (p < 0)) p.natAbs q

/-- Rational bounds of an irrational number: at precision `k`, integers lo and hi with lo ≤ x · 2^k ≤ hi. -/
abbrev Bounds := Nat → Int × Int

/-- An irrational number x · 2^off rounded RNE (R92), the precision doubled until both bounds round alike. Where the rules leave a point open: log 42 (DEDUCED, unsafe). -/
def roundIrr (f : IeeeFmt) (off : Int) (g : Bounds) : Nat → Nat → FRes
  | 0, _ => ⟨f.canonNaN, flNX⟩
  | fuel + 1, k =>
    let b := g k
    let neg := decide (b.2 < 0)
    if b.1 > 0 ∨ b.2 < 0 then
      let lo := if neg then b.2.natAbs else b.1.natAbs
      let hi := if neg then b.1.natAbs else b.2.natAbs
      let e := off - ((k + 3 : Nat) : Int)
      let r1 := roundFin f .rne neg (8 * lo) e true
      if bitLen lo > f.mbits + 1 ∧ r1 = roundFin f .rne neg (8 * hi - 1) e true then r1
      else roundIrr f off g fuel (2 * k)
    else roundIrr f off g fuel (2 * k)

/-- `roundIrr` from 128 bits on, doubling up to seven times. Where the rules leave a point open: log 42 (DEDUCED, unsafe). -/
def roundIrr' (f : IeeeFmt) (off : Int) (g : Bounds) : FRes := roundIrr f off g 8 128

/-- Bounds from an approximation and its error in units of the last place. -/
def within (v : Int) (err : Nat) : Int × Int := (v - (err : Int), v + (err : Int))

/-- Partial sums of 2·atanh(p/q) = 2·Σ u^(2n+1)/(2n+1) with u = p/q in fixed point. -/
def atanhLoop (p2 q2 : Nat) : Nat → Nat → Nat → Nat → Nat
  | 0, _, _, acc => acc
  | fuel + 1, n, t, acc => if t = 0 then acc else atanhLoop p2 q2 fuel (n + 1) (t * p2 / q2) (acc + t / (2 * n + 1))

/-- 2·atanh(p/q) at precision k for p/q ≤ 1/3, within k + 4 units. -/
def atanh2 (k p q : Nat) : Nat := 2 * atanhLoop (p * p) (q * q) (k / 3 + 2) 0 (p * 2 ^ k / q) 0

/-- ln 2 at precision k. -/
def ln2Fix (k : Nat) : Nat := atanh2 k 1 3
/-- The bounds of ln 2. -/
def ln2B : Bounds := fun k => within (ln2Fix k : Int) (2 * k + 8)
/-- The bounds of 1 / ln 2. -/
def invLn2B : Bounds := fun k => within ((2 ^ (2 * k) / ln2Fix k : Nat) : Int) (6 * k + 32)

/-- Partial sums of e^y, y in fixed point. -/
def expLoop (k : Nat) (y : Nat) : Nat → Nat → Nat → Nat → Nat
  | 0, _, _, acc => acc
  | fuel + 1, n, t, acc => if t = 0 then acc else expLoop k y fuel (n + 1) (t * y / 2 ^ k / (n + 1)) (acc + t)

/-- e^y at precision k for 0 ≤ y < 1 (in units), within k + 4 units. -/
def expFix (k y : Nat) : Nat := expLoop k y (k + 4) 0 (2 ^ k) 0

/-- 2^x for x = p / 2^j in [0, 1): bounds in [1, 2]. -/
def exp2FracB (p j : Nat) : Bounds := fun k => within (expFix k (ln2Fix k * p / 2 ^ j) : Int) (16 * k + 64)

/-- log2 of m / 2^j in [1, 2): bounds. -/
def log2FracB (m j : Nat) : Bounds := fun k =>
  within ((atanh2 k (m - 2 ^ j) (m + 2 ^ j) * 2 ^ k / ln2Fix k : Nat) : Int) (16 * k + 64)

/-- log2 of the positive number m · 2^e, m not a power of two: bounds. -/
def log2B (m : Nat) (e : Int) : Bounds := fun k =>
  let j := bitLen m - 1
  let b := log2FracB m j k
  let w := (e + (j : Int)) * ((2 ^ k : Nat) : Int)
  (b.1 + w, b.2 + w)

/-- Partial sums of atan(1/d), alternating. -/
def atanLoop (d2 : Nat) : Nat → Nat → Nat → Int → Int
  | 0, _, _, acc => acc
  | fuel + 1, n, t, acc =>
    if t = 0 then acc
    else atanLoop d2 fuel (n + 1) (t / d2) (if n % 2 = 0 then acc + ((t / (2 * n + 1) : Nat) : Int) else acc - ((t / (2 * n + 1) : Nat) : Int))

/-- π at precision k, within 20·k units. -/
def piFix (k : Nat) : Nat :=
  (16 * atanLoop 25 (k / 2 + 2) 0 (2 ^ k / 5) 0 - 4 * atanLoop 57121 (k / 2 + 2) 0 (2 ^ k / 239) 0).toNat

/-- Partial sums of the sine or cosine series: the next term is t · y² / ((n+1)(n+2)). -/
def trigLoop (k : Nat) (y2 : Nat) : Nat → Nat → Nat → Int → Int
  | 0, _, _, acc => acc
  | fuel + 1, n, t, acc =>
    if t = 0 then acc
    else trigLoop k y2 fuel (n + 2) (t * y2 / 2 ^ k / ((n + 1) * (n + 2)))
      (if n / 2 % 2 = 0 then acc + (t : Int) else acc - (t : Int))

/-- sin y at precision k for 0 ≤ y < 1.6. -/
def sinFix (k y : Nat) : Int := trigLoop k (y * y / 2 ^ k) (k + 4) 1 y 0
/-- cos y at precision k for 0 ≤ y < 1.6. -/
def cosFix (k y : Nat) : Int := trigLoop k (y * y / 2 ^ k) (k + 4) 0 (2 ^ k) 0

/-- sin (quadrant offset 0) or cos (offset 1) of the nonnegative number m · 2^e: the argument is reduced exactly (R133). -/
def trigB (offset m : Nat) (e : Int) : Bounds := fun k =>
  let wide := k + 16 + ((bitLen m : Int) + e).toNat
  let x := if e + (wide : Int) ≥ 0 then m * 2 ^ (e + (wide : Int)).toNat else m / 2 ^ (-(e + (wide : Int))).toNat
  let halfPi := piFix wide / 2
  let q := x / halfPi
  let r := (x - q * halfPi) / 2 ^ (wide - k)
  let quad := (q + offset) % 4
  let v := if quad % 2 = 0 then sinFix k r else cosFix k r
  within (if quad ≥ 2 then -v else v) (64 * wide + 64)

/-- tanh of the positive number m · 2^e below 32: bounds, from e^(2x). -/
def tanhB (m : Nat) (e : Int) : Bounds := fun k =>
  let e2 := e + 1
  let y := if e2 + (k : Int) ≥ 0 then m * 2 ^ (e2 + (k : Int)).toNat else m / 2 ^ (-(e2 + (k : Int))).toNat
  let l := ln2Fix k
  let n := y / l
  let x := expFix k (y - n * l)
  let err := 512 * k + 512
  let one := 2 ^ k
  let at' := fun (c : Nat) => (((c * 2 ^ n - one) * one / (c * 2 ^ n + one) : Nat) : Int)
  (at' (x - err) - 1, at' (x + err) + 1)

/-- 2 to an exact value, rounded to binary32 (R133, R230). -/
def exp2FVal : FVal → FRes
  | .nan => ⟨b32.canonNaN, 0⟩
  | .inf n => ⟨if n then 0 else b32.inf false, 0⟩
  | .fin n m e =>
    let cap : Int := 1000
    if e ≥ 0 ∨ m % 2 ^ (-e).toNat = 0 then
      let v := signed n (if e ≥ 0 then (if e > 20 then (if m = 0 then 0 else 1000) else m * 2 ^ e.toNat) else m / 2 ^ (-e).toNat)
      roundFin b32 .rne false 1 (if v > cap then cap else if v < -cap then -cap else v) false
    else
      let j := (-e).toNat
      let v := signed n m
      let i := v.fdiv ((2 ^ j : Nat) : Int)
      if i > cap then roundFin b32 .rne false 1 cap false
      else if i < -cap then roundFin b32 .rne false 1 (-cap) false
      else roundIrr' b32 i (exp2FracB (v - i * ((2 ^ j : Nat) : Int)).toNat j)

/-- `FEXP2` (R133). -/
def fpExp2 (a : Nat) : FRes := orNaN b32 [a] (exp2FVal (fval b32 a))

/-- log2 of a positive value m · 2^e rounded to binary32. -/
def log2Fin (m : Nat) (e : Int) : FRes :=
  let j := bitLen m - 1
  if m = 2 ^ j then
    let v := e + (j : Int)
    roundFin b32 .rne (decide (v < 0)) v.natAbs 0 false
  else roundIrr' b32 0 (log2B m e)

/-- `FLOG2` (R133). -/
def fpLog2 (a : Nat) : FRes :=
  match fval b32 a with
  | .nan => ⟨quiet b32 a, snanFlag b32 [a]⟩
  | .inf n => if n then invalid b32 else ⟨b32.inf false, 0⟩
  | .fin n m e =>
    if m = 0 then ⟨b32.inf true, flDZ⟩ else if n then invalid b32 else log2Fin m e

/-- The opposite of a rounded result. -/
def FRes.negIf (r : FRes) (f : IeeeFmt) (n : Bool) : FRes := ⟨if n then flipSign f r.bits else r.bits, r.flags⟩

/-- `FSIN` (R133). -/
def fpSin (a : Nat) : FRes :=
  match fval b32 a with
  | .nan => ⟨quiet b32 a, snanFlag b32 [a]⟩
  | .inf _ => invalid b32
  | .fin n m e => if m = 0 then ⟨a, 0⟩ else (roundIrr' b32 0 (trigB 0 m e)).negIf b32 n

/-- `FCOS` (R133). -/
def fpCos (a : Nat) : FRes :=
  match fval b32 a with
  | .nan => ⟨quiet b32 a, snanFlag b32 [a]⟩
  | .inf _ => invalid b32
  | .fin _ m e => if m = 0 then ⟨0x3F800000, 0⟩ else roundIrr' b32 0 (trigB 1 m e)

/-- `FRCP` (R133). -/
def fpRcp (a : Nat) : FRes :=
  orNaN b32 [a] (divFVal b32 .rne (.fin false 1 0) (fval b32 a))

/-- 1 ÷ √a rounded (R133). -/
def rsqFVal (f : IeeeFmt) : FVal → FRes
  | .nan => invalid f
  | .inf n => if n then invalid f else ⟨0, 0⟩
  | .fin n m e =>
    if m = 0 then ⟨f.inf n, flDZ⟩
    else if n then invalid f
    else
      let odd := (e % 2).toNat
      let m' := m * 2 ^ odd
      let k := f.mbits + 4 + bitLen m'
      let q := isqrt (2 ^ (2 * k) / m')
      roundFin f .rne false q (-(k : Int) - (e - (odd : Int)) / 2) (q * q * m' != 2 ^ (2 * k))

/-- `FRSQ` (R133). -/
def fpRsq (a : Nat) : FRes := orNaN b32 [a] (rsqFVal b32 (fval b32 a))

/-- `FTANH` (R133). -/
def fpTanh (a : Nat) : FRes :=
  match fval b32 a with
  | .nan => ⟨quiet b32 a, snanFlag b32 [a]⟩
  | .inf n => ⟨b32.zero n + 0x3F800000, 0⟩
  | .fin n m e =>
    if m = 0 then ⟨a, 0⟩
    else if (bitLen m : Int) + e > 5 then ⟨b32.zero n + 0x3F800000, flNX⟩
    else (roundIrr' b32 0 (tanhB m e)).negIf b32 n

/-- The bounds of r0 + r1 · x, x positive or negative, for rationals r0 = p0/q0 and r1 = p1/q1. -/
def affineB (p0 : Int) (q0 : Nat) (p1 : Int) (q1 : Nat) (g : Bounds) : Bounds := fun k =>
  let b := g k
  let lo := if p1 ≥ 0 then b.1 else b.2
  let hi := if p1 ≥ 0 then b.2 else b.1
  let den : Int := ((q0 * q1 : Nat) : Int)
  let base := p0 * (q1 : Int) * ((2 ^ k : Nat) : Int)
  ((base + p1 * (q0 : Int) * lo).fdiv den, (base + p1 * (q0 : Int) * hi).fdiv den + 1)

/-- Whether the number that bounds enclose is negative. -/
def negB (g : Bounds) : Bool := signBit b64 (roundIrr' b64 0 g).bits

/-- `tround` of r0 + r1 · x for an irrational x. -/
def troundAffine (f : IeeeFmt) (r0 r1 : XR) (g : Bounds) : FRes :=
  match r0, r1 with
  | .rat p0 q0, .rat p1 q1 =>
    if p1 = 0 then tround f r0
    else
      let b := (roundIrr' f 0 (affineB p0 q0 p1 q1 g)).bits
      ⟨b, tgFlag f b⟩
  | _, .inf n => tround f (r0.add (.inf (n != negB g)))
  | .nan, _ => tround f .nan
  | _, .nan => tround f .nan
  | .inf n, .rat .. => tround f (.inf n)

/-- e^x of a binary32 value, correctly rounded RNE (R314). -/
def fpExp (a : Nat) : FRes :=
  match fval b32 a with
  | .nan => ⟨quiet b32 a, snanFlag b32 [a]⟩
  | .inf n => ⟨if n then 0 else b32.inf false, 0⟩
  | .fin n m e =>
    if m = 0 then ⟨0x3F800000, 0⟩
    else if (bitLen m : Int) + e > 8 then roundFin b32 .rne false 1 (if n then -1000 else 1000) false
    else
      -- e^x = 2^i · e^r with i = floor(x / ln 2) at 64 bits, 0 ≤ r < 1
      let fix := fun (k : Nat) =>
        signed n (if e + (k : Int) ≥ 0 then m * 2 ^ (e + (k : Int)).toNat else m / 2 ^ (-(e + (k : Int))).toNat)
      let i := (fix 64).fdiv (ln2Fix 64 : Int)
      roundIrr' b32 i (fun k =>
        let r := fix k - i * (ln2Fix k : Int)
        if r < 0 then within ((2 ^ k : Nat) : Int) (2 ^ 20 * (k + 64) + 2 * r.natAbs)
        else within (expFix k r.toNat : Int) (16384 * k + 65536))

/-- √(p/q) rounded RNE to binary32, for p, q positive (R149). -/
def sqrtRat32 (p q : Nat) : FRes :=
  let k := 64 + bitLen q
  let n := p * 2 ^ (2 * k) / q
  let r := isqrt n
  roundFin b32 .rne false r (-(k : Int)) (r * r * q != p * 2 ^ (2 * k))

end Sys2Proof.Machine
end

