-- ==== Sys2Proof/Machine/Dual.lean ====
section
/-! DEFINITION. Arithmetic on values with their tangents (R76-R81): what thread instructions and engines share. -/

namespace Sys2Proof.Machine

/-- A result with its tangents and the flags it raises, TG among them. -/
structure DRes where
  bits : Nat
  tan : List Nat
  flags : Word
deriving DecidableEq, Repr

/-- A tangent as an extended real. -/
def tanXR (tf : IeeeFmt) (v : Val) (k : Nat) : XR := XR.ofFVal (fval tf (v.tan.getD k 0 % 2 ^ tf.width))

/-- Tangents by rule (R76, R77): each operand with its partial derivative. -/
def byRule (tf : IeeeFmt) (t : Nat) (parts : List (XR × Val)) : List FRes :=
  (List.range t).map fun k => tround tf (parts.foldl (fun e pv => e.add (term pv.1 (tanXR tf pv.2 k))) XR.zero)

/-- A primal result with tangents computed by rule. -/
def withTans (r : FRes) (ts : List FRes) : DRes :=
  ⟨r.bits, ts.map (·.bits), ts.foldl (fun f t => f ||| t.flags) r.flags⟩

/-- A result whose tangents are +0. -/
def noTans (r : FRes) : DRes := ⟨r.bits, [], r.flags⟩

/-- An operand's exact value. -/
def real (f : IeeeFmt) (v : Val) : XR := XR.ofFVal (fval f v.bits)

/-- One. -/
def XR.one : XR := .rat 1 1

/-- Sum (R78). -/
def dAdd (f tf : IeeeFmt) (m : RMode) (t : Nat) (a b : Val) : DRes :=
  withTans (fpAdd f m a.bits b.bits) (byRule tf t [(.one, a), (.one, b)])
/-- Difference (R78). -/
def dSub (f tf : IeeeFmt) (m : RMode) (t : Nat) (a b : Val) : DRes :=
  withTans (fpSub f m a.bits b.bits) (byRule tf t [(.one, a), (XR.neg .one, b)])
/-- Product (R78). -/
def dMul (f tf : IeeeFmt) (m : RMode) (t : Nat) (a b : Val) : DRes :=
  withTans (fpMul f m a.bits b.bits) (byRule tf t [(real f b, a), (real f a, b)])
/-- Quotient (R78). -/
def dDiv (f tf : IeeeFmt) (m : RMode) (t : Nat) (a b : Val) : DRes :=
  let z := fpDiv f m a.bits b.bits
  let bv := fval f b.bits
  withTans z (byRule tf t [(XR.one.divFVal bv, a), ((XR.ofFVal (fval f z.bits)).neg.divFVal bv, b)])
/-- Square root (R78). -/
def dSqrt (f tf : IeeeFmt) (m : RMode) (t : Nat) (a : Val) : DRes :=
  let z := fpSqrt f m a.bits
  let two : FVal := match fval f z.bits with | .fin n m e => .fin n m (e + 1) | v => v
  withTans z (byRule tf t [(XR.one.divFVal two, a)])
/-- `a·b + c`, `a·b - c` and `c - a·b` (R78, R128). -/
def dFma (f tf : IeeeFmt) (m : RMode) (t : Nat) (negProd negC : Bool) (a b c : Val) : DRes :=
  let sgn := fun (n : Bool) (x : XR) => if n then x.neg else x
  withTans (fpFma f m negProd negC a.bits b.bits c.bits)
    (byRule tf t [(sgn negProd (real f b), a), (sgn negProd (real f a), b), (sgn negC .one, c)])

/-- Tangents negated: the sign bit of each flips (R79). Where the rules leave a point open: log 17 (DEDUCED, unsafe). -/
def negTans (tf : IeeeFmt) (t : Nat) (v : Val) : List Nat :=
  (List.range t).map fun k => flipSign tf (v.tan.getD k 0 % 2 ^ tf.width)

/-- Minimum or maximum with the tangents of the operand returned (R79, R125). -/
def dSelect (f : IeeeFmt) (wantMax propagate : Bool) (a b : Val) : DRes :=
  let r := fpSelect f wantMax propagate a.bits b.bits
  ⟨r.bits, if selectsB f wantMax propagate a.bits b.bits then b.tan else a.tan, r.flags⟩
/-- Magnitude (R79). -/
def dAbs (f tf : IeeeFmt) (t : Nat) (a : Val) : DRes :=
  ⟨clearSign f a.bits, if signBit f a.bits && !isZero f a.bits && !isNaN f a.bits then negTans tf t a else a.tan, 0⟩
/-- Sign flip (R79). Where the rules leave a point open: log 17 (DEDUCED, unsafe). -/
def dNeg (f tf : IeeeFmt) (t : Nat) (a : Val) : DRes := ⟨flipSign f a.bits, negTans tf t a, 0⟩
/-- The magnitude of a with the sign of b (R79). -/
def dCopySign (f tf : IeeeFmt) (t : Nat) (a b : Val) : DRes :=
  let differ := signBit f a.bits != signBit f b.bits
  ⟨if differ then flipSign f a.bits else a.bits,
    if differ && !isZero f a.bits && !isNaN f a.bits then negTans tf t a else a.tan, 0⟩

/-- A tangent by one partial of an irrational number x: r · dt · x (R76-R78). -/
def tanIrr (tf : IeeeFmt) (t : Nat) (a : Val) (r : XR) (g : Bounds) : List FRes :=
  (List.range t).map fun k => troundAffine tf .zero (term r (tanXR tf a k)) g

/-- `FEXP2` with da·(z·ln 2). -/
def dExp2 (tf : IeeeFmt) (t : Nat) (a : Val) : DRes :=
  let z := fpExp2 a.bits
  withTans z (tanIrr tf t a (XR.ofFVal (fval b32 z.bits)) ln2B)
/-- e^x with da·z (R314). -/
def dExp (tf : IeeeFmt) (t : Nat) (a : Val) : DRes :=
  let z := fpExp a.bits
  withTans z (byRule tf t [(XR.ofFVal (fval b32 z.bits), a)])
/-- `FLOG2` with da·(1/(a·ln 2)). -/
def dLog2 (tf : IeeeFmt) (t : Nat) (a : Val) : DRes :=
  withTans (fpLog2 a.bits) (tanIrr tf t a (XR.one.divFVal (fval b32 a.bits)) invLn2B)
/-- The tangents of `FSIN` (offset 1, the cosine) and `FCOS` (offset 0, minus the sine) by the partial at a; the spec
gives the partial no value at ±∞ (DESIGN CHOICE, safe: log 13). -/
def trigTans (tf : IeeeFmt) (t : Nat) (a : Val) (offset : Nat) : List FRes :=
  match fval b32 a.bits with
  | .nan => byRule tf t [(.nan, a)]
  | .inf _ => (List.range t).map fun k =>
      if (tanXR tf a k).isZero then ⟨0, 0⟩
      else
        let x := Config.trigTangent (offset == 0) a.bits (a.tan.getD k 0) % 2 ^ tf.width
        ⟨x, tgFlag tf x⟩
  | .fin n m e =>
    if m = 0 then byRule tf t [(if offset = 1 then .one else .zero, a)]
    else tanIrr tf t a (if offset = 0 && !n then XR.neg .one else .one) (trigB offset m e)
/-- `FSIN`. -/
def dSin (tf : IeeeFmt) (t : Nat) (a : Val) : DRes := withTans (fpSin a.bits) (trigTans tf t a 1)
/-- `FCOS`. -/
def dCos (tf : IeeeFmt) (t : Nat) (a : Val) : DRes := withTans (fpCos a.bits) (trigTans tf t a 0)
/-- `FRCP` with da·(-z²). -/
def dRcp (tf : IeeeFmt) (t : Nat) (a : Val) : DRes :=
  let z := fpRcp a.bits
  let zr := XR.ofFVal (fval b32 z.bits)
  withTans z (byRule tf t [((zr.mul zr).neg, a)])
/-- `FRSQ` with da·(-z³/2). -/
def dRsq (tf : IeeeFmt) (t : Nat) (a : Val) : DRes :=
  let z := fpRsq a.bits
  let zr := XR.ofFVal (fval b32 z.bits)
  withTans z (byRule tf t [(((zr.mul zr).mul zr).mul (.rat (-1) 2), a)])
/-- `FTANH` with da·(1 - z²). -/
def dTanh (tf : IeeeFmt) (t : Nat) (a : Val) : DRes :=
  let z := fpTanh a.bits
  let zr := XR.ofFVal (fval b32 z.bits)
  withTans z (byRule tf t [(XR.one.add (zr.mul zr).neg, a)])

/-- A tangent carried from one tangent format to another (R81): unchanged, widened exactly, or rounded once RNE. -/
def carryTans (src dst : IeeeFmt) (t : Nat) (v : Val) : List Nat :=
  if src = dst then v.tan
  else (List.range t).map fun k => (fpConvert src dst .rne (v.tan.getD k 0 % 2 ^ src.width)).bits

/-- One element of a packed binary16 value; under T16 element 1 has no tangents (R74, R83). -/
def halfOf (t16 : Bool) (t : Nat) (v : Val) (i : Nat) : Val :=
  ⟨v.bits / 2 ^ (16 * i) % 2 ^ 16,
   (List.range t).map fun k =>
    if t16 then (if i = 0 then v.tan.getD k 0 % 2 ^ 16 else 0) else v.tan.getD k 0 / 2 ^ (16 * i) % 2 ^ 16⟩

/-- Two elements' results joined: flags are their union (R97); under T16 only element 0's tangents stay (R83), and
nothing of element 1's is computed. -/
def joinHalves (t16 : Bool) (t : Nat) (x y : DRes) : DRes :=
  ⟨x.bits + y.bits * 2 ^ 16,
   (List.range t).map fun k =>
    if t16 then x.tan.getD k 0 else x.tan.getD k 0 + y.tan.getD k 0 * 2 ^ 16,
   x.flags ||| (if t16 then y.flags &&& ~~~flTG else y.flags)⟩

/-- The step of `DEXT`'s sum (R148): the running sum, and whether opposite infinities met. -/
def dextStep (tf : IeeeFmt) (m : RMode) (a b : Val) (acc : FVal × Bool) (k : Nat) : FVal × Bool :=
  let x := fval tf (a.tan.getD k 0 % 2 ^ tf.width)
  let y := fval tf (b.tan.getD k 0 % 2 ^ tf.width)
  let isZ := fun (v : FVal) => match v with | .fin _ m _ => m == 0 | _ => false
  let term : FVal := if isZ x || isZ y then .fin false 0 0 else mulFVal x y
  let s := addFVal m acc.1 term
  (s, acc.2 || (s == .nan && acc.1 != .nan && term != .nan))

/-- `DEXT` (R148). -/
def dExt (tf : IeeeFmt) (m : RMode) (t : Nat) (a b : Val) : DRes :=
  if isNaN b32 a.bits then ⟨quiet b32 a.bits, a.tan, snanFlag b32 [a.bits]⟩
  else
    let r := (List.range t).foldl (dextStep tf m a b) (fval b32 a.bits, false)
    match r.1 with
    | .nan => ⟨b32.canonNaN, a.tan, flagIf r.2 flNV⟩
    | v =>
      let z := roundFVal b32 m v
      ⟨z.bits, a.tan, z.flags⟩

/-- The results of `FOOT` (R149) from the four tangents: lod and ratio. -/
def footprint (tf : IeeeFmt) (ux vx uy vy : Nat) : Nat × Nat :=
  let sq := fun (x y : Nat) =>
    let a := XR.ofFVal (fval tf x)
    let b := XR.ofFVal (fval tf y)
    (roundXR b32 .rne ((a.mul a).add (b.mul b))).bits
  let qx := sq ux vx
  let qy := sq uy vy
  let bad := [ux, vx, uy, vy].any (fun x => expField tf x == tf.topExp) || [qx, qy].any (fun x => expField b32 x == b32.topExp)
  if bad then (b32.canonNaN, b32.canonNaN)
  else
    let qmax := if qx ≥ qy then qx else qy
    let qmin := if qx ≥ qy then qy else qx
    if qmax = 0 then (b32.inf true, 0x3F800000)
    else
      match fval b32 qmax, fval b32 qmin with
      | .fin _ m e, .fin _ m2 e2 =>
        -- log2(qmax) / 2 minus log2 of the ratio: half of log2(qmax / ratio²), a power of two or irrational
        let lod := fun (rm : Nat) (re : Int) =>
          let q2 := rm * rm
          let j := bitLen m - 1
          let jq := bitLen q2 - 1
          if m * 2 ^ jq = q2 * 2 ^ j then
            let v := e - 2 * re + (j : Int) - (jq : Int)
            roundFin b32 .rne (decide (v < 0)) v.natAbs (-1) false
          else
            roundIrr' b32 (-1) (fun k =>
              let b1 := log2B m e k
              let b2 := log2B rm re k
              (b1.1 - 2 * b2.2, b1.2 - 2 * b2.1))
        if qmin = 0 then ((lod 16 0).bits, 0x41800000)
        else
          let r := match XR.ofFVal (.fin false m e), XR.ofFVal (.fin false m2 e2) with
            | .rat p1 q1, .rat p2 q2 => (sqrtRat32 (p1.natAbs * q2) (q1 * p2.natAbs)).bits
            | _, _ => 0x3F800000
          let ratio := if r > 0x41800000 then 0x41800000 else r
          match fval b32 ratio with
          | .fin _ rm re => ((lod rm re).bits, ratio)
          | _ => (b32.canonNaN, ratio)
      | _, _ => (b32.canonNaN, b32.canonNaN)

end Sys2Proof.Machine
end

