-- ==== Sys2Proof/Machine/Flags.lean ====
section
/-! DEFINITION. Flags: the IEEE flags an instruction raises, the trap of an enabled one, and TG and ZS (R64, R65, R97, R98, R129). -/

namespace Sys2Proof.Machine

/-- The flags whose trap is enabled in `FCR` (R64). -/
def enabledFlags (th : Thread) : Word := (th.fcr >>> 3) &&& 31

/-- Whether flags trap (R98); those of a binary64 instruction only with the binary64 trap feature (R129). -/
def trapsOn (th : Thread) (dbl : Bool) (fl : Word) : Bool :=
  decide (fl &&& enabledFlags th ≠ 0) && (!dbl || th.lc.feats.getLsbD 5)

/-- A thread with flags set (R65). -/
def setFlags (th : Thread) (fl : Word) : Thread := { th with fsr := th.fsr ||| fl }

/-- The end of an instruction that raises flags: the trap of R98, or the flags set and the result written. -/
def raising (th : Thread) (dbl : Bool) (fl : Word) (write : Thread → Thread) : Except Trap Thread :=
  if trapsOn th dbl fl then .error (.fp fl) else .ok (write (setFlags th fl))

/-- The rounding mode in force (R92). -/
def modeOf (th : Thread) : RMode := rmodeOf (th.fcr.toNat % 8)

/-- The mode of `FRND` and `CVT` (R45, R46): 0 is `FCR.RM`, 1 RNE, 2 RTZ; 3 is Illegal Operand. -/
def modeSel (th : Thread) (m : BitVec 2) : Option RMode :=
  if m.toNat = 0 then some (modeOf th) else if m.toNat = 1 then some .rne else if m.toNat = 2 then some .rtz else none

end Sys2Proof.Machine
end

