-- ==== Sys2Proof/Machine/Float.lean ====
section
/-! DEFINITION. binary32, binary64 and packed binary16 arithmetic, special functions and packed 16-bit integers (R124-R133). -/

namespace Sys2Proof.Machine

/-- The end of a binary32 instruction: flags or trap, then the result with its tangents. -/
def finish32 (th : Thread) (k : Nat) (d : BitVec 6) (nw : Bool) (r : DRes) : Except Trap Thread :=
  raising th false r.flags fun th => putReg th k d nw (dexelOf ⟨r.bits, r.tan⟩)

/-- The end of a binary64 instruction (R82, R129). -/
def finish64 (th : Thread) (k : Nat) (d : BitVec 6) (nw : Bool) (r : DRes) : Except Trap Thread :=
  raising th true r.flags fun th => putPair th k d nw (pairOf th ⟨r.bits, r.tan⟩)

/-- A one-operand instruction on registers: `op` gets the thread and the operand. -/
def fop1 (d a : BitVec 6) (nw : Bool) (p : BitVec 3) (op : Thread → Val → DRes) (s : State) : State :=
  alu p (fun k th =>
    match srcReg th a with
    | some x => if dstReg th d nw then finish32 th k d nw (op th (valOf th x)) else .error .operand
    | none => .error .operand) s

/-- A two-operand instruction on registers. -/
def fop2 (d a b : BitVec 6) (nw : Bool) (p : BitVec 3) (op : Thread → Val → Val → DRes) (s : State) : State :=
  alu p (fun k th =>
    match srcReg th a, srcReg th b with
    | some x, some y => if dstReg th d nw then finish32 th k d nw (op th (valOf th x) (valOf th y)) else .error .operand
    | _, _ => .error .operand) s

/-- A three-operand instruction on registers (format F). -/
def fop3 (d a b c : BitVec 6) (nw p : Bool) (op : Thread → Val → Val → Val → DRes) (s : State) : State :=
  alu (predBit p) (fun k th =>
    match srcReg th a, srcReg th b, srcReg th c with
    | some x, some y, some z =>
      if dstReg th d nw then finish32 th k d nw (op th (valOf th x) (valOf th y) (valOf th z)) else .error .operand
    | _, _, _ => .error .operand) s

/-- A one-operand instruction on pairs. -/
def dop1 (d a : BitVec 6) (nw : Bool) (p : BitVec 3) (op : Thread → Val → DRes) (s : State) : State :=
  alu p (fun k th =>
    match srcPair th a with
    | some x => if dstPair th d nw then finish64 th k d nw (op th (valOfPair th x)) else .error .operand
    | none => .error .operand) s

/-- A two-operand instruction on pairs. -/
def dop2 (d a b : BitVec 6) (nw : Bool) (p : BitVec 3) (op : Thread → Val → Val → DRes) (s : State) : State :=
  alu p (fun k th =>
    match srcPair th a, srcPair th b with
    | some x, some y =>
      if dstPair th d nw then finish64 th k d nw (op th (valOfPair th x) (valOfPair th y)) else .error .operand
    | _, _ => .error .operand) s

/-- A three-operand instruction on pairs (format F). -/
def dop3 (d a b c : BitVec 6) (nw p : Bool) (op : Thread → Val → Val → Val → DRes) (s : State) : State :=
  alu (predBit p) (fun k th =>
    match srcPair th a, srcPair th b, srcPair th c with
    | some x, some y, some z =>
      if dstPair th d nw then finish64 th k d nw (op th (valOfPair th x) (valOfPair th y) (valOfPair th z))
      else .error .operand
    | _, _, _ => .error .operand) s

/-- A packed binary16 operation, element by element (R83, R130). -/
def packed1 (op : Thread → Val → DRes) (th : Thread) (a : Val) : DRes :=
  let t := th.lc.tcount
  let h := halfOf th.lc.t16 t
  joinHalves th.lc.t16 t (op th (h a 0)) (op th (h a 1))
/-- See `packed1`. -/
def packed2 (op : Thread → Val → Val → DRes) (th : Thread) (a b : Val) : DRes :=
  let t := th.lc.tcount
  let h := halfOf th.lc.t16 t
  joinHalves th.lc.t16 t (op th (h a 0) (h b 0)) (op th (h a 1) (h b 1))
/-- See `packed1`. -/
def packed3 (op : Thread → Val → Val → Val → DRes) (th : Thread) (a b c : Val) : DRes :=
  let t := th.lc.tcount
  let h := halfOf th.lc.t16 t
  joinHalves th.lc.t16 t (op th (h a 0) (h b 0) (h c 0)) (op th (h a 1) (h b 1) (h c 1))

/-- A rounding instruction of `FRND` kind (R126). -/
def rndRes (f : IeeeFmt) (m : RMode) (a : Val) : DRes := noTans (fpRnd f m a.bits)

/-- `FADD` (R124). -/
def execFadd (d a b : BitVec 6) (n : Bool) (p : BitVec 3) (s : State) : Host.Outcome State Fault Refusal :=
  .next (fop2 d a b n p (fun th => dAdd b32 (tanFmt th) (modeOf th) th.lc.tcount) s)

/-- `FSUB` (R124). -/
def execFsub (d a b : BitVec 6) (n : Bool) (p : BitVec 3) (s : State) : Host.Outcome State Fault Refusal :=
  .next (fop2 d a b n p (fun th => dSub b32 (tanFmt th) (modeOf th) th.lc.tcount) s)

/-- `FMUL` (R124). -/
def execFmul (d a b : BitVec 6) (n : Bool) (p : BitVec 3) (s : State) : Host.Outcome State Fault Refusal :=
  .next (fop2 d a b n p (fun th => dMul b32 (tanFmt th) (modeOf th) th.lc.tcount) s)

/-- `FDIV` (R124). -/
def execFdiv (d a b : BitVec 6) (n : Bool) (p : BitVec 3) (s : State) : Host.Outcome State Fault Refusal :=
  .next (fop2 d a b n p (fun th => dDiv b32 (tanFmt th) (modeOf th) th.lc.tcount) s)

/-- `FSQRT` (R124). -/
def execFsqrt (d a : BitVec 6) (n : Bool) (p : BitVec 3) (s : State) : Host.Outcome State Fault Refusal :=
  .next (fop1 d a n p (fun th => dSqrt b32 (tanFmt th) (modeOf th) th.lc.tcount) s)

/-- `FMIN` (R125). -/
def execFmin (d a b : BitVec 6) (n : Bool) (p : BitVec 3) (s : State) : Host.Outcome State Fault Refusal :=
  .next (fop2 d a b n p (fun _ => dSelect b32 false false) s)

/-- `FMAX` (R125). -/
def execFmax (d a b : BitVec 6) (n : Bool) (p : BitVec 3) (s : State) : Host.Outcome State Fault Refusal :=
  .next (fop2 d a b n p (fun _ => dSelect b32 true false) s)

/-- `FMINM` (R125). -/
def execFminm (d a b : BitVec 6) (n : Bool) (p : BitVec 3) (s : State) : Host.Outcome State Fault Refusal :=
  .next (fop2 d a b n p (fun _ => dSelect b32 false true) s)

/-- `FMAXM` (R125). -/
def execFmaxm (d a b : BitVec 6) (n : Bool) (p : BitVec 3) (s : State) : Host.Outcome State Fault Refusal :=
  .next (fop2 d a b n p (fun _ => dSelect b32 true true) s)

/-- `FABS` (R79, R90). -/
def execFabs (d a : BitVec 6) (n : Bool) (p : BitVec 3) (s : State) : Host.Outcome State Fault Refusal :=
  .next (fop1 d a n p (fun th => dAbs b32 (tanFmt th) th.lc.tcount) s)

/-- `FNEG` (R79, R90). -/
def execFneg (d a : BitVec 6) (n : Bool) (p : BitVec 3) (s : State) : Host.Outcome State Fault Refusal :=
  .next (fop1 d a n p (fun th => dNeg b32 (tanFmt th) th.lc.tcount) s)

/-- `FCPYS` (R79, R90). -/
def execFcpys (d a b : BitVec 6) (n : Bool) (p : BitVec 3) (s : State) : Host.Outcome State Fault Refusal :=
  .next (fop2 d a b n p (fun th => dCopySign b32 (tanFmt th) th.lc.tcount) s)

/-- `FRND` (R126): mode 3 is Illegal Operand. -/
def execFrnd (d a : BitVec 6) (m : BitVec 2) (n : Bool) (p : BitVec 3) (s : State) : Host.Outcome State Fault Refusal :=
  .next (alu p (fun k th =>
    match srcReg th a, modeSel th m with
    | some x, some rm => if dstReg th d n then finish32 th k d n (rndRes b32 rm (valOf th x)) else .error .operand
    | _, _ => .error .operand) s)

/-- `FCLASS` (R127). -/
def execFclass (d a : BitVec 6) (n : Bool) (p : BitVec 3) (s : State) : Host.Outcome State Fault Refusal :=
  .next (fop1 d a n p (fun _ x => ⟨fpClass b32 x.bits, [], 0⟩) s)

/-- `FFMA` (R128). -/
def execFfma (d a b c : BitVec 6) (n p : Bool) (s : State) : Host.Outcome State Fault Refusal :=
  .next (fop3 d a b c n p (fun th => dFma b32 (tanFmt th) (modeOf th) th.lc.tcount false false) s)

/-- `FFMS` (R128). -/
def execFfms (d a b c : BitVec 6) (n p : Bool) (s : State) : Host.Outcome State Fault Refusal :=
  .next (fop3 d a b c n p (fun th => dFma b32 (tanFmt th) (modeOf th) th.lc.tcount false true) s)

/-- `FFNMA` (R128). -/
def execFfnma (d a b c : BitVec 6) (n p : Bool) (s : State) : Host.Outcome State Fault Refusal :=
  .next (fop3 d a b c n p (fun th => dFma b32 (tanFmt th) (modeOf th) th.lc.tcount true false) s)

/-- `DADD` (R124). -/
def execDadd (d a b : BitVec 6) (n : Bool) (p : BitVec 3) (s : State) : Host.Outcome State Fault Refusal :=
  .next (dop2 d a b n p (fun th => dAdd b64 (tanFmt64 th) (modeOf th) th.lc.tcount) s)

/-- `DSUB` (R124). -/
def execDsub (d a b : BitVec 6) (n : Bool) (p : BitVec 3) (s : State) : Host.Outcome State Fault Refusal :=
  .next (dop2 d a b n p (fun th => dSub b64 (tanFmt64 th) (modeOf th) th.lc.tcount) s)

/-- `DMUL` (R124). -/
def execDmul (d a b : BitVec 6) (n : Bool) (p : BitVec 3) (s : State) : Host.Outcome State Fault Refusal :=
  .next (dop2 d a b n p (fun th => dMul b64 (tanFmt64 th) (modeOf th) th.lc.tcount) s)

/-- `DDIV` (R124). -/
def execDdiv (d a b : BitVec 6) (n : Bool) (p : BitVec 3) (s : State) : Host.Outcome State Fault Refusal :=
  .next (dop2 d a b n p (fun th => dDiv b64 (tanFmt64 th) (modeOf th) th.lc.tcount) s)

/-- `DSQRT` (R124). -/
def execDsqrt (d a : BitVec 6) (n : Bool) (p : BitVec 3) (s : State) : Host.Outcome State Fault Refusal :=
  .next (dop1 d a n p (fun th => dSqrt b64 (tanFmt64 th) (modeOf th) th.lc.tcount) s)

/-- `DMIN` (R125). -/
def execDmin (d a b : BitVec 6) (n : Bool) (p : BitVec 3) (s : State) : Host.Outcome State Fault Refusal :=
  .next (dop2 d a b n p (fun _ => dSelect b64 false false) s)

/-- `DMAX` (R125). -/
def execDmax (d a b : BitVec 6) (n : Bool) (p : BitVec 3) (s : State) : Host.Outcome State Fault Refusal :=
  .next (dop2 d a b n p (fun _ => dSelect b64 true false) s)

/-- `DMINM` (R125). -/
def execDminm (d a b : BitVec 6) (n : Bool) (p : BitVec 3) (s : State) : Host.Outcome State Fault Refusal :=
  .next (dop2 d a b n p (fun _ => dSelect b64 false true) s)

/-- `DMAXM` (R125). -/
def execDmaxm (d a b : BitVec 6) (n : Bool) (p : BitVec 3) (s : State) : Host.Outcome State Fault Refusal :=
  .next (dop2 d a b n p (fun _ => dSelect b64 true true) s)

/-- `DABS` (R79, R90). -/
def execDabs (d a : BitVec 6) (n : Bool) (p : BitVec 3) (s : State) : Host.Outcome State Fault Refusal :=
  .next (dop1 d a n p (fun th => dAbs b64 (tanFmt64 th) th.lc.tcount) s)

/-- `DNEG` (R79, R90). -/
def execDneg (d a : BitVec 6) (n : Bool) (p : BitVec 3) (s : State) : Host.Outcome State Fault Refusal :=
  .next (dop1 d a n p (fun th => dNeg b64 (tanFmt64 th) th.lc.tcount) s)

/-- `DCPYS` (R79, R90). -/
def execDcpys (d a b : BitVec 6) (n : Bool) (p : BitVec 3) (s : State) : Host.Outcome State Fault Refusal :=
  .next (dop2 d a b n p (fun th => dCopySign b64 (tanFmt64 th) th.lc.tcount) s)

/-- `DRND` (R126): mode 3 is Illegal Operand. -/
def execDrnd (d a : BitVec 6) (m : BitVec 2) (n : Bool) (p : BitVec 3) (s : State) : Host.Outcome State Fault Refusal :=
  .next (alu p (fun k th =>
    match srcPair th a, modeSel th m with
    | some x, some rm => if dstPair th d n then finish64 th k d n (rndRes b64 rm (valOfPair th x)) else .error .operand
    | _, _ => .error .operand) s)

/-- `DCLASS` (R127): a single register from a pair. -/
def execDclass (d a : BitVec 6) (n : Bool) (p : BitVec 3) (s : State) : Host.Outcome State Fault Refusal :=
  .next (alu p (fun k th =>
    match srcPair th a with
    | some x =>
      if dstReg th d n then .ok (putReg th k d n ⟨BitVec.ofNat 32 (fpClass b64 (valOfPair th x).bits), []⟩)
      else .error .operand
    | none => .error .operand) s)

/-- `DFMA` (R128). -/
def execDfma (d a b c : BitVec 6) (n p : Bool) (s : State) : Host.Outcome State Fault Refusal :=
  .next (dop3 d a b c n p (fun th => dFma b64 (tanFmt64 th) (modeOf th) th.lc.tcount false false) s)

/-- `DFMS` (R128). -/
def execDfms (d a b c : BitVec 6) (n p : Bool) (s : State) : Host.Outcome State Fault Refusal :=
  .next (dop3 d a b c n p (fun th => dFma b64 (tanFmt64 th) (modeOf th) th.lc.tcount false true) s)

/-- `HADD2` (R130). -/
def execHadd2 (d a b : BitVec 6) (n : Bool) (p : BitVec 3) (s : State) : Host.Outcome State Fault Refusal :=
  .next (fop2 d a b n p (packed2 (fun th => dAdd b16 b16 (modeOf th) th.lc.tcount)) s)

/-- `HSUB2` (R130). -/
def execHsub2 (d a b : BitVec 6) (n : Bool) (p : BitVec 3) (s : State) : Host.Outcome State Fault Refusal :=
  .next (fop2 d a b n p (packed2 (fun th => dSub b16 b16 (modeOf th) th.lc.tcount)) s)

/-- `HMUL2` (R130). -/
def execHmul2 (d a b : BitVec 6) (n : Bool) (p : BitVec 3) (s : State) : Host.Outcome State Fault Refusal :=
  .next (fop2 d a b n p (packed2 (fun th => dMul b16 b16 (modeOf th) th.lc.tcount)) s)

/-- `HMIN2` (R125, R130). -/
def execHmin2 (d a b : BitVec 6) (n : Bool) (p : BitVec 3) (s : State) : Host.Outcome State Fault Refusal :=
  .next (fop2 d a b n p (packed2 (fun _ => dSelect b16 false false)) s)

/-- `HMAX2` (R125, R130). -/
def execHmax2 (d a b : BitVec 6) (n : Bool) (p : BitVec 3) (s : State) : Host.Outcome State Fault Refusal :=
  .next (fop2 d a b n p (packed2 (fun _ => dSelect b16 true false)) s)

/-- `HABS2` (R79, R130). -/
def execHabs2 (d a : BitVec 6) (n : Bool) (p : BitVec 3) (s : State) : Host.Outcome State Fault Refusal :=
  .next (fop1 d a n p (packed1 (fun th => dAbs b16 b16 th.lc.tcount)) s)

/-- `HNEG2` (R79, R130). -/
def execHneg2 (d a : BitVec 6) (n : Bool) (p : BitVec 3) (s : State) : Host.Outcome State Fault Refusal :=
  .next (fop1 d a n p (packed1 (fun th => dNeg b16 b16 th.lc.tcount)) s)

/-- `HFMA2` (R130). -/
def execHfma2 (d a b c : BitVec 6) (n p : Bool) (s : State) : Host.Outcome State Fault Refusal :=
  .next (fop3 d a b c n p (packed3 (fun th => dFma b16 b16 (modeOf th) th.lc.tcount false false)) s)

/-- A signed half of a register. -/
def half (x : Word) (i : Nat) : Int := intOfBits 16 true (x.toNat / 2 ^ (16 * i))
/-- Two halves joined. -/
def joinInts (lo hi : Int) : Word := BitVec.ofNat 32 (intBits 16 lo + intBits 16 hi * 2 ^ 16)
/-- sat16 (R131). -/
def sat16 (v : Int) : Int := clipInt 16 true v

/-- A packed 16-bit integer instruction (R131). -/
def vop (d a b : BitVec 6) (nw : Bool) (p : BitVec 3) (op : Int → Int → Int) (s : State) : State :=
  alu p (fun k th =>
    match srcReg th a, srcReg th b with
    | some x, some y =>
      if dstReg th d nw then
        .ok (putReg th k d nw ⟨joinInts (op (half x.val 0) (half y.val 0)) (op (half x.val 1) (half y.val 1)), []⟩)
      else .error .operand
    | _, _ => .error .operand) s

/-- `VADD.H2` (R131). -/
def execVaddH2 (d a b : BitVec 6) (n : Bool) (p : BitVec 3) (s : State) : Host.Outcome State Fault Refusal :=
  .next (vop d a b n p (· + ·) s)

/-- `VSUB.H2` (R131). -/
def execVsubH2 (d a b : BitVec 6) (n : Bool) (p : BitVec 3) (s : State) : Host.Outcome State Fault Refusal :=
  .next (vop d a b n p (· - ·) s)

/-- `VADDS.H2` (R131). -/
def execVaddsH2 (d a b : BitVec 6) (n : Bool) (p : BitVec 3) (s : State) : Host.Outcome State Fault Refusal :=
  .next (vop d a b n p (fun x y => sat16 (x + y)) s)

/-- `VSUBS.H2` (R131). -/
def execVsubsH2 (d a b : BitVec 6) (n : Bool) (p : BitVec 3) (s : State) : Host.Outcome State Fault Refusal :=
  .next (vop d a b n p (fun x y => sat16 (x - y)) s)

/-- `VMAX.H2` (R131). -/
def execVmaxH2 (d a b : BitVec 6) (n : Bool) (p : BitVec 3) (s : State) : Host.Outcome State Fault Refusal :=
  .next (vop d a b n p (fun x y => if x < y then y else x) s)

/-- `VMIN.H2` (R131). -/
def execVminH2 (d a b : BitVec 6) (n : Bool) (p : BitVec 3) (s : State) : Host.Outcome State Fault Refusal :=
  .next (vop d a b n p (fun x y => if y < x then y else x) s)

/-- The butterfly of R132: the packed result and the two decision bits. -/
def acsButterfly (a b : Word) : Word × Bool × Bool :=
  let m := half b 0
  let x0 := sat16 (half a 0 + m)
  let y0 := sat16 (half a 1 - m)
  let x1 := sat16 (half a 0 - m)
  let y1 := sat16 (half a 1 + m)
  (joinInts (if y0 > x0 then y0 else x0) (if y1 > x1 then y1 else x1), decide (y0 > x0), decide (y1 > x1))

/-- `ACS.H2` (R132): also shifts the two decisions into `SURV`; it writes a special register, so a lane running ahead
stops before it (R209). -/
def execAcsH2 (d a b : BitVec 6) (n : Bool) (p : BitVec 3) (s : State) : Host.Outcome State Fault Refusal :=
  .next (runThreads freeGate p true (fun g _ _ th =>
    match srcReg th a, srcReg th b with
    | some x, some y =>
      let r := acsButterfly x.val y.val
      let surv := (th.surv <<< 2) ||| BitVec.ofNat 32 (r.2.2.toNat * 2 + r.2.1.toNat)
      if dstReg th d n then .ok (putReg { th with surv := surv } g.latch d n ⟨r.1, []⟩) else .error .operand
    | _, _ => .error .operand) s)

/-- `FEXP2` (R133). -/
def execFexp2 (d a : BitVec 6) (n : Bool) (p : BitVec 3) (s : State) : Host.Outcome State Fault Refusal :=
  .next (fop1 d a n p (fun th => dExp2 (tanFmt th) th.lc.tcount) s)

/-- `FLOG2` (R133). -/
def execFlog2 (d a : BitVec 6) (n : Bool) (p : BitVec 3) (s : State) : Host.Outcome State Fault Refusal :=
  .next (fop1 d a n p (fun th => dLog2 (tanFmt th) th.lc.tcount) s)

/-- `FSIN` (R133). -/
def execFsin (d a : BitVec 6) (n : Bool) (p : BitVec 3) (s : State) : Host.Outcome State Fault Refusal :=
  .next (fop1 d a n p (fun th => dSin (tanFmt th) th.lc.tcount) s)

/-- `FCOS` (R133). -/
def execFcos (d a : BitVec 6) (n : Bool) (p : BitVec 3) (s : State) : Host.Outcome State Fault Refusal :=
  .next (fop1 d a n p (fun th => dCos (tanFmt th) th.lc.tcount) s)

/-- `FRCP` (R133). -/
def execFrcp (d a : BitVec 6) (n : Bool) (p : BitVec 3) (s : State) : Host.Outcome State Fault Refusal :=
  .next (fop1 d a n p (fun th => dRcp (tanFmt th) th.lc.tcount) s)

/-- `FRSQ` (R133). -/
def execFrsq (d a : BitVec 6) (n : Bool) (p : BitVec 3) (s : State) : Host.Outcome State Fault Refusal :=
  .next (fop1 d a n p (fun th => dRsq (tanFmt th) th.lc.tcount) s)

/-- `FTANH` (R133). -/
def execFtanh (d a : BitVec 6) (n : Bool) (p : BitVec 3) (s : State) : Host.Outcome State Fault Refusal :=
  .next (fop1 d a n p (fun th => dTanh (tanFmt th) th.lc.tcount) s)

end Sys2Proof.Machine
end

