-- ==== Sys2Proof/Machine/Convert.lean ====
section
/-! DEFINITION. Conversions and tapered-format helpers (R134-R138), compares and predicate operations (R139-R142). -/

namespace Sys2Proof.Machine

/-- The tangents of a conversion (R81, R135): +0 to or from an integer, else carried between the formats of R74. -/
def cvtTans (th : Thread) (src dst : Nat) (x : Val) : List Nat :=
  if src ≥ 6 ∨ dst ≥ 6 then []
  else carryTans (if src = 0 then tanFmt64 th else tanFmt th) (if dst = 0 then tanFmt64 th else tanFmt th) th.lc.tcount x

/-- The gate of a conversion: code 5 is Z6 (R135, R388). -/
def cvtGate (src dst : Nat) : Gate := if src = 5 ∨ dst = 5 then ⟨some 1, 0, 0⟩ else freeGate

/-- `CVT` (R134, R135): a source code above 9 or equal to the destination's, or mode 3, is Illegal Operand (R46). -/
def execCvt (d a : BitVec 6) (src : BitVec 4) (m : BitVec 2) (dst : BitVec 4) (n : Bool) (p : BitVec 3) (s : State) :
    Host.Outcome State Fault Refusal :=
  .next (runThreads (cvtGate src.toNat dst.toNat) p false (fun g _ _ th =>
    let x : Option Val :=
      if cvtWide src.toNat then (srcPair th a).map (valOfPair th) else (srcReg th a).map (valOf th)
    match x, modeSel th m with
    | some v, some rm =>
      if src.toNat > 9 ∨ src = dst then .error .operand
      else
        let r := convert (cvtFmt src.toNat) (cvtFmt dst.toNat) rm v.bits
        let out : Val := ⟨r.bits, cvtTans th src.toNat dst.toNat v⟩
        let dbl := decide (src = 0) || decide (dst = 0)
        if cvtWide dst.toNat then
          (if dstPair th d n then raising th dbl r.flags fun th => putPair th g.latch d n (pairOf th out)
           else .error .operand)
        else if dstReg th d n then raising th dbl r.flags fun th => putReg th g.latch d n (dexelOf out)
        else .error .operand
    | _, _ => .error .operand) s)

/-- `ZPACK` (R137): two binary32 values into two patterns of n bits; the tangents are a's. -/
def zpack (z : ZFmt) (_ : Thread) (a b : Val) : DRes :=
  let x := zOfIeee z b32 a.bits
  let y := zOfIeee z b32 b.bits
  ⟨x.bits + y.bits * 2 ^ z.n, a.tan, x.flags ||| y.flags⟩

/-- `ZUNPK` (R137). -/
def zunpack (z : ZFmt) (_ : Thread) (a : Val) : DRes :=
  let r := ieeeOfZ z b32 .rne a.bits
  ⟨r.bits, a.tan, r.flags⟩

/-- `ZPACK.z8` (R137). -/
def execZpackZ8 (d a b : BitVec 6) (n : Bool) (p : BitVec 3) (s : State) : Host.Outcome State Fault Refusal :=
  .next (fop2 d a b n p (zpack z8) s)

/-- `ZPACK.z6` (R137), gated by the Z6 feature. -/
def execZpackZ6 (d a b : BitVec 6) (n : Bool) (p : BitVec 3) (s : State) : Host.Outcome State Fault Refusal :=
  .next (runThreads ⟨some 1, 0, 0⟩ p false (fun g _ _ th =>
    match srcReg th a, srcReg th b with
    | some x, some y =>
      if dstReg th d n then finish32 th g.latch d n (zpack z6 th (valOf th x) (valOf th y)) else .error .operand
    | _, _ => .error .operand) s)

/-- `ZUNPK.z8` (R137). -/
def execZunpkZ8 (d a : BitVec 6) (n : Bool) (p : BitVec 3) (s : State) : Host.Outcome State Fault Refusal :=
  .next (fop1 d a n p (zunpack z8) s)

/-- `ZUNPK.z6` (R137), gated by the Z6 feature. -/
def execZunpkZ6 (d a : BitVec 6) (n : Bool) (p : BitVec 3) (s : State) : Host.Outcome State Fault Refusal :=
  .next (runThreads ⟨some 1, 0, 0⟩ p false (fun g _ _ th =>
    match srcReg th a with
    | some x => if dstReg th d n then finish32 th g.latch d n (zunpack z6 th (valOf th x)) else .error .operand
    | none => .error .operand) s)

/-- The scaling of R138: a NaN source first, then code 0xFF, then 2^(c - 127). -/
def zscale (th : Thread) (a b : Val) : DRes :=
  let c := b.bits % 256
  let r : FRes :=
    match fval b32 a.bits with
    | .nan => ⟨quiet b32 a.bits, snanFlag b32 [a.bits]⟩
    | v =>
      if c = 255 then ⟨b32.canonNaN, 0⟩
      else roundFVal b32 (modeOf th) (match v with | .fin n m e => .fin n m (e + ((c : Int) - 127)) | w => w)
  ⟨r.bits, a.tan, r.flags⟩

/-- `ZSCALE` (R138). -/
def execZscale (d a b : BitVec 6) (n : Bool) (p : BitVec 3) (s : State) : Host.Outcome State Fault Refusal :=
  .next (fop2 d a b n p zscale s)

/-- The truth of an integer compare by its fn code (R44, R139), the operands as patterns of their width. -/
def intCompare (width fn x y : Nat) : Bool :=
  let a := intOfBits width true x
  let b := intOfBits width true y
  if fn = 0 ∨ fn = 10 then x == y else if fn = 1 ∨ fn = 11 then x != y
  else if fn = 2 ∨ fn = 12 then decide (a < b) else if fn = 3 ∨ fn = 13 then decide (a ≤ b)
  else if fn = 4 then decide (a > b) else if fn = 5 then decide (a ≥ b)
  else if fn = 6 ∨ fn = 14 then decide (x < y) else if fn = 7 ∨ fn = 15 then decide (x ≤ y)
  else if fn = 8 then decide (x > y) else decide (x ≥ y)

/-- A thread with predicate d written and the latch invalid (R40). -/
def putPred (th : Thread) (k : Nat) (d : BitVec 6) (b : Bool) : Thread := writePred (dropLatch th k) d.toNat b

/-- `CMPI` (R139): members 10-15 compare pairs. -/
def execCmpi (d a b : BitVec 6) (f : BitVec 4) (n : Bool) (p : BitVec 3) (s : State) : Host.Outcome State Fault Refusal :=
  .next (alu p (fun k th =>
    let r : Option Bool :=
      if f.toNat ≥ 10 then
        (match srcPair th a, srcPair th b with
         | some x, some y => some (intCompare 64 f.toNat (pairBits x).toNat (pairBits y).toNat)
         | _, _ => none)
      else
        (match srcReg th a, srcReg th b with
         | some x, some y => some (intCompare 32 f.toNat x.val.toNat y.val.toNat)
         | _, _ => none)
    match r with
    | some c => if dstPred d n then .ok (putPred th k d c) else .error .operand
    | none => .error .operand) s)

/-- `CMPF` (R140). -/
def execCmpf (d a b : BitVec 6) (f : BitVec 4) (n : Bool) (p : BitVec 3) (s : State) : Host.Outcome State Fault Refusal :=
  .next (alu p (fun k th =>
    match srcReg th a, srcReg th b with
    | some x, some y =>
      if dstPred d n then
        let r := fpCompare b32 f.toNat x.val.toNat y.val.toNat
        raising th false r.2 fun th => putPred th k d r.1
      else .error .operand
    | _, _ => .error .operand) s)

/-- `CMPD` (R140, R129). -/
def execCmpd (d a b : BitVec 6) (f : BitVec 4) (n : Bool) (p : BitVec 3) (s : State) : Host.Outcome State Fault Refusal :=
  .next (alu p (fun k th =>
    match srcPair th a, srcPair th b with
    | some x, some y =>
      if dstPred d n then
        let r := fpCompare b64 f.toNat (pairBits x).toNat (pairBits y).toNat
        raising th true r.2 fun th => putPred th k d r.1
      else .error .operand
    | _, _ => .error .operand) s)

/-- The fn code of R140 that a `CMPH2` member follows (R141). -/
def cmph2Fn (f : Nat) : Nat := if f = 6 then 12 else if f = 7 then 13 else f

/-- `CMPH2` (R141): element 0 to predicate d, element 1 to d + 1; d is 0-5. -/
def execCmph2 (d a b : BitVec 6) (f : BitVec 3) (n : Bool) (p : BitVec 3) (s : State) : Host.Outcome State Fault Refusal :=
  .next (alu p (fun k th =>
    match srcReg th a, srcReg th b with
    | some x, some y =>
      if d.toNat ≤ 5 ∧ (!n || decide (d = 0)) = true then
        let fn := cmph2Fn f.toNat
        let r0 := fpCompare b16 fn (x.val.toNat % 2 ^ 16) (y.val.toNat % 2 ^ 16)
        let r1 := fpCompare b16 fn (x.val.toNat / 2 ^ 16) (y.val.toNat / 2 ^ 16)
        raising th false (r0.2 ||| r1.2) fun th => writePred (putPred th k d r0.1) (d.toNat + 1) r1.1
      else .error .operand
    | _, _ => .error .operand) s)

/-- `CMPZ` (R141, R102): codes 0-2 are eq, lt, le of Z8, 3-5 of Z6, which its feature gates. -/
def execCmpz (d a b : BitVec 6) (f : BitVec 3) (n : Bool) (p : BitVec 3) (s : State) : Host.Outcome State Fault Refusal :=
  .next (runThreads (if f.toNat ≥ 3 then ⟨some 1, 0, 0⟩ else freeGate) p false (fun g _ _ th =>
    match srcReg th a, srcReg th b with
    | some x, some y =>
      if dstPred d n then
        let z := if f.toNat ≥ 3 then z6 else z8
        let u := zSigned z x.val.toNat
        let v := zSigned z y.val.toNat
        let c := if f.toNat % 3 = 0 then decide (u = v) else if f.toNat % 3 = 1 then decide (u < v) else decide (u ≤ v)
        .ok (putPred th g.latch d c)
      else .error .operand
    | _, _ => .error .operand) s)

/-- A predicate operation of two sources (R142). -/
def pop2 (d a b : BitVec 6) (nw : Bool) (p : BitVec 3) (op : Bool → Bool → Bool) (s : State) : State :=
  alu p (fun k th =>
    match srcPred th a, srcPred th b with
    | some x, some y => if dstPred d nw then .ok (putPred th k d (op x y)) else .error .operand
    | _, _ => .error .operand) s

/-- A predicate operation of one source (R142). -/
def pop1 (d a : BitVec 6) (nw : Bool) (p : BitVec 3) (op : Bool → Bool) (s : State) : State :=
  alu p (fun k th =>
    match srcPred th a with
    | some x => if dstPred d nw then .ok (putPred th k d (op x)) else .error .operand
    | none => .error .operand) s

/-- `PAND` (R142). -/
def execPand (d a b : BitVec 6) (n : Bool) (p : BitVec 3) (s : State) : Host.Outcome State Fault Refusal :=
  .next (pop2 d a b n p and s)

/-- `POR` (R142). -/
def execPor (d a b : BitVec 6) (n : Bool) (p : BitVec 3) (s : State) : Host.Outcome State Fault Refusal :=
  .next (pop2 d a b n p or s)

/-- `PXOR` (R142). -/
def execPxor (d a b : BitVec 6) (n : Bool) (p : BitVec 3) (s : State) : Host.Outcome State Fault Refusal :=
  .next (pop2 d a b n p xor s)

/-- `PNOT` (R142). -/
def execPnot (d a : BitVec 6) (n : Bool) (p : BitVec 3) (s : State) : Host.Outcome State Fault Refusal :=
  .next (pop1 d a n p not s)

/-- `PMOV` (R142). -/
def execPmov (d a : BitVec 6) (n : Bool) (p : BitVec 3) (s : State) : Host.Outcome State Fault Refusal :=
  .next (pop1 d a n p id s)

/-- `PSET` (R142): a is a register. -/
def execPset (d a : BitVec 6) (n : Bool) (p : BitVec 3) (s : State) : Host.Outcome State Fault Refusal :=
  .next (alu p (fun k th =>
    match srcReg th a with
    | some x => if dstPred d n then .ok (putPred th k d (decide (x.val ≠ 0))) else .error .operand
    | none => .error .operand) s)

end Sys2Proof.Machine
end

