-- ==== Sys2Proof/Machine/Integer.lean ====
section
/-! DEFINITION. Integer and logical instructions, immediates and upper immediates (R108, R114-R123). -/

namespace Sys2Proof.Machine

/-- A three-operand 32-bit instruction with zero tangents (R114). -/
def int3 (d a b : BitVec 6) (nw : Bool) (p : BitVec 3) (op : Word → Word → Word) (s : State) : State :=
  alu p (fun k th =>
    match srcReg th a, srcReg th b with
    | some x, some y => if dstReg th d nw then .ok (putReg th k d nw ⟨op x.val y.val, []⟩) else .error .operand
    | _, _ => .error .operand) s

/-- A two-operand 32-bit instruction with zero tangents (R115). -/
def int2 (d a : BitVec 6) (nw : Bool) (p : BitVec 3) (op : Word → Word) (s : State) : State :=
  alu p (fun k th =>
    match srcReg th a with
    | some x => if dstReg th d nw then .ok (putReg th k d nw ⟨op x.val, []⟩) else .error .operand
    | none => .error .operand) s

/-- A 64-bit value as a pair with zero tangents. -/
def plainPair (v : DWord) : Dexel × Dexel := (⟨v.setWidth 32, []⟩, ⟨(v >>> 32).setWidth 32, []⟩)

/-- A three-operand instruction on pairs (R119). -/
def wide3 (d a b : BitVec 6) (nw : Bool) (p : BitVec 3) (op : DWord → DWord → DWord) (s : State) : State :=
  alu p (fun k th =>
    match srcPair th a, srcPair th b with
    | some x, some y =>
      if dstPair th d nw then .ok (putPair th k d nw (plainPair (op (pairBits x) (pairBits y)))) else .error .operand
    | _, _ => .error .operand) s

/-- A pair with a 32-bit second operand (R119). -/
def wideReg (d a b : BitVec 6) (nw : Bool) (p : BitVec 3) (op : DWord → Word → DWord) (s : State) : State :=
  alu p (fun k th =>
    match srcPair th a, srcReg th b with
    | some x, some y =>
      if dstPair th d nw then .ok (putPair th k d nw (plainPair (op (pairBits x) y.val))) else .error .operand
    | _, _ => .error .operand) s

/-- A two-operand instruction on pairs (R121, R122). -/
def wide2 (d a : BitVec 6) (nw : Bool) (p : BitVec 3) (op : DWord → DWord) (s : State) : State :=
  alu p (fun k th =>
    match srcPair th a with
    | some x => if dstPair th d nw then .ok (putPair th k d nw (plainPair (op (pairBits x)))) else .error .operand
    | none => .error .operand) s

/-- Bits [63:32] of the signed product (R108). -/
def mulHigh (x y : Word) : Word := BitVec.ofInt 32 ((x.toInt * y.toInt).fdiv (2 ^ 32))
/-- Bits [63:32] of the unsigned product (R108). -/
def mulHighU (x y : Word) : Word := BitVec.ofNat 32 (x.toNat * y.toNat / 2 ^ 32)
/-- Shift left by b[4:0] (R108). -/
def shiftL (x y : Word) : Word := x <<< (y.toNat % 32)
/-- Shift right with zero fill (R108). -/
def shiftR (x y : Word) : Word := x >>> (y.toNat % 32)
/-- Shift right with sign fill (R108). -/
def shiftA (x y : Word) : Word := x.sshiftRight (y.toNat % 32)
/-- Rotation left (R108). -/
def rotL (x y : Word) : Word := x.rotateLeft (y.toNat % 32)
/-- Shift left by b[5:0] (R108). -/
def shiftL64 (x : DWord) (y : Word) : DWord := x <<< (y.toNat % 64)
/-- Shift right with zero fill (R108). -/
def shiftR64 (x : DWord) (y : Word) : DWord := x >>> (y.toNat % 64)
/-- Shift right with sign fill (R108). -/
def shiftA64 (x : DWord) (y : Word) : DWord := x.sshiftRight (y.toNat % 64)
/-- |a - b| of the signed operands modulo 2^32 (R108). -/
def absDiff (x y : Word) : Word := BitVec.ofInt 32 (x.toInt - y.toInt).natAbs
/-- Number of set bits. -/
def popCount (x : Word) : Word := BitVec.ofNat 32 ((List.range 32).filter fun i => x.getLsbD i).length
/-- Leading zeros; 32 for 0 (R115). -/
def leadingZeros (x : Word) : Word := BitVec.ofNat 32 (32 - bitLen x.toNat)
/-- Bit i moved to bit 31 - i (R115). -/
def reverseBits (x : Word) : Word :=
  BitVec.ofNat 32 ((List.range 32).foldl (fun acc i => if x.getLsbD i then acc + 2 ^ (31 - i) else acc) 0)
/-- Trailing zeros; 32 for 0 (R115). -/
def trailingZeros (x : Word) : Word := leadingZeros (reverseBits x)
/-- The field width of R116. -/
def fieldWidth (ctl : Word) : Nat := Nat.min (ctl.toNat / 256 % 64) (32 - ctl.toNat % 32)
/-- `BFX` (R116). -/
def extractField (x ctl : Word) : Word := BitVec.ofNat 32 (x.toNat / 2 ^ (ctl.toNat % 32) % 2 ^ fieldWidth ctl)
/-- `BFI` on the old value of the destination (R116). -/
def insertField (old x ctl : Word) : Word :=
  let pos := ctl.toNat % 32
  let mask : Word := BitVec.ofNat 32 (2 ^ fieldWidth ctl - 1)
  (old &&& ~~~(mask <<< pos)) ||| ((x &&& mask) <<< pos)
/-- Signed quotient, truncated (R108). -/
def sdivWord (x y : Word) : Word := if y = 0 then 0xFFFFFFFF else BitVec.ofInt 32 (x.toInt.tdiv y.toInt)
/-- Unsigned quotient (R108). -/
def udivWord (x y : Word) : Word := if y = 0 then 0xFFFFFFFF else BitVec.ofNat 32 (x.toNat / y.toNat)
/-- Signed remainder, of the dividend's sign (R108). -/
def sremWord (x y : Word) : Word := if y = 0 then x else BitVec.ofInt 32 (x.toInt.tmod y.toInt)
/-- Unsigned remainder (R108). -/
def uremWord (x y : Word) : Word := if y = 0 then x else BitVec.ofNat 32 (x.toNat % y.toNat)

/-- `IADD` (R114). -/
def execIadd (d a b : BitVec 6) (n : Bool) (p : BitVec 3) (s : State) : Host.Outcome State Fault Refusal :=
  .next (int3 d a b n p (· + ·) s)

/-- `ISUB` (R114). -/
def execIsub (d a b : BitVec 6) (n : Bool) (p : BitVec 3) (s : State) : Host.Outcome State Fault Refusal :=
  .next (int3 d a b n p (· - ·) s)

/-- `IMUL` (R114). -/
def execImul (d a b : BitVec 6) (n : Bool) (p : BitVec 3) (s : State) : Host.Outcome State Fault Refusal :=
  .next (int3 d a b n p (· * ·) s)

/-- `IMULH` (R114). -/
def execImulh (d a b : BitVec 6) (n : Bool) (p : BitVec 3) (s : State) : Host.Outcome State Fault Refusal :=
  .next (int3 d a b n p mulHigh s)

/-- `IMULHU` (R114). -/
def execImulhu (d a b : BitVec 6) (n : Bool) (p : BitVec 3) (s : State) : Host.Outcome State Fault Refusal :=
  .next (int3 d a b n p mulHighU s)

/-- `AND` (R114). -/
def execAnd (d a b : BitVec 6) (n : Bool) (p : BitVec 3) (s : State) : Host.Outcome State Fault Refusal :=
  .next (int3 d a b n p (· &&& ·) s)

/-- `OR` (R114). -/
def execOr (d a b : BitVec 6) (n : Bool) (p : BitVec 3) (s : State) : Host.Outcome State Fault Refusal :=
  .next (int3 d a b n p (· ||| ·) s)

/-- `XOR` (R114). -/
def execXor (d a b : BitVec 6) (n : Bool) (p : BitVec 3) (s : State) : Host.Outcome State Fault Refusal :=
  .next (int3 d a b n p (· ^^^ ·) s)

/-- `ANDN` (R114). -/
def execAndn (d a b : BitVec 6) (n : Bool) (p : BitVec 3) (s : State) : Host.Outcome State Fault Refusal :=
  .next (int3 d a b n p (fun x y => x &&& ~~~y) s)

/-- `SHL` (R114). -/
def execShl (d a b : BitVec 6) (n : Bool) (p : BitVec 3) (s : State) : Host.Outcome State Fault Refusal :=
  .next (int3 d a b n p shiftL s)

/-- `SHR` (R114). -/
def execShr (d a b : BitVec 6) (n : Bool) (p : BitVec 3) (s : State) : Host.Outcome State Fault Refusal :=
  .next (int3 d a b n p shiftR s)

/-- `SRA` (R114). -/
def execSra (d a b : BitVec 6) (n : Bool) (p : BitVec 3) (s : State) : Host.Outcome State Fault Refusal :=
  .next (int3 d a b n p shiftA s)

/-- `ROTL` (R114). -/
def execRotl (d a b : BitVec 6) (n : Bool) (p : BitVec 3) (s : State) : Host.Outcome State Fault Refusal :=
  .next (int3 d a b n p rotL s)

/-- `MIN` (R114). -/
def execMin (d a b : BitVec 6) (n : Bool) (p : BitVec 3) (s : State) : Host.Outcome State Fault Refusal :=
  .next (int3 d a b n p (fun x y => if y.slt x then y else x) s)

/-- `MAX` (R114). -/
def execMax (d a b : BitVec 6) (n : Bool) (p : BitVec 3) (s : State) : Host.Outcome State Fault Refusal :=
  .next (int3 d a b n p (fun x y => if x.slt y then y else x) s)

/-- `ABSD` (R114). -/
def execAbsd (d a b : BitVec 6) (n : Bool) (p : BitVec 3) (s : State) : Host.Outcome State Fault Refusal :=
  .next (int3 d a b n p absDiff s)

/-- `MINU` (R115). -/
def execMinu (d a b : BitVec 6) (n : Bool) (p : BitVec 3) (s : State) : Host.Outcome State Fault Refusal :=
  .next (int3 d a b n p (fun x y => if y.ult x then y else x) s)

/-- `MAXU` (R115). -/
def execMaxu (d a b : BitVec 6) (n : Bool) (p : BitVec 3) (s : State) : Host.Outcome State Fault Refusal :=
  .next (int3 d a b n p (fun x y => if x.ult y then y else x) s)

/-- `POPC` (R115). -/
def execPopc (d a : BitVec 6) (n : Bool) (p : BitVec 3) (s : State) : Host.Outcome State Fault Refusal :=
  .next (int2 d a n p popCount s)

/-- `CLZ` (R115). -/
def execClz (d a : BitVec 6) (n : Bool) (p : BitVec 3) (s : State) : Host.Outcome State Fault Refusal :=
  .next (int2 d a n p leadingZeros s)

/-- `CTZ` (R115). -/
def execCtz (d a : BitVec 6) (n : Bool) (p : BitVec 3) (s : State) : Host.Outcome State Fault Refusal :=
  .next (int2 d a n p trailingZeros s)

/-- `BREV` (R115). -/
def execBrev (d a : BitVec 6) (n : Bool) (p : BitVec 3) (s : State) : Host.Outcome State Fault Refusal :=
  .next (int2 d a n p reverseBits s)

/-- `BFX` (R116). -/
def execBfx (d a b : BitVec 6) (n : Bool) (p : BitVec 3) (s : State) : Host.Outcome State Fault Refusal :=
  .next (int3 d a b n p extractField s)

/-- `BFI` (R116): the old value of d is a third source. -/
def execBfi (d a b : BitVec 6) (n : Bool) (p : BitVec 3) (s : State) : Host.Outcome State Fault Refusal :=
  .next (alu p (fun k th =>
    match srcReg th a, srcReg th b with
    | some x, some y =>
      if dstReg th d n then .ok (putReg th k d n ⟨insertField (readReg th d.toNat).val x.val y.val, []⟩) else .error .operand
    | _, _ => .error .operand) s)

/-- `SEL` (R117): the pred field selects; the instruction runs in every thread, and the tangents pass whole (R79). -/
def execSel (d a b : BitVec 6) (n : Bool) (sel : BitVec 3) (s : State) : Host.Outcome State Fault Refusal :=
  .next (alu 7 (fun k th =>
    match srcReg th a, srcReg th b with
    | some x, some y =>
      if dstReg th d n then .ok (putReg th k d n (if readPred th sel.toNat then x else y)) else .error .operand
    | _, _ => .error .operand) s)

/-- `LEA` (R118). -/
def execLea (d a b : BitVec 6) (n : Bool) (p : BitVec 3) (s : State) : Host.Outcome State Fault Refusal :=
  .next (int3 d a b n p (fun x y => x + (y <<< 2)) s)

/-- `IDIV` (R115, R108). -/
def execIdiv (d a b : BitVec 6) (n : Bool) (p : BitVec 3) (s : State) : Host.Outcome State Fault Refusal :=
  .next (int3 d a b n p sdivWord s)

/-- `IDIVU` (R115, R108). -/
def execIdivu (d a b : BitVec 6) (n : Bool) (p : BitVec 3) (s : State) : Host.Outcome State Fault Refusal :=
  .next (int3 d a b n p udivWord s)

/-- `IREM` (R115, R108). -/
def execIrem (d a b : BitVec 6) (n : Bool) (p : BitVec 3) (s : State) : Host.Outcome State Fault Refusal :=
  .next (int3 d a b n p sremWord s)

/-- `IREMU` (R115, R108). -/
def execIremu (d a b : BitVec 6) (n : Bool) (p : BitVec 3) (s : State) : Host.Outcome State Fault Refusal :=
  .next (int3 d a b n p uremWord s)

/-- `IADD64` (R119). -/
def execIadd64 (d a b : BitVec 6) (n : Bool) (p : BitVec 3) (s : State) : Host.Outcome State Fault Refusal :=
  .next (wide3 d a b n p (· + ·) s)

/-- `ISUB64` (R119). -/
def execIsub64 (d a b : BitVec 6) (n : Bool) (p : BitVec 3) (s : State) : Host.Outcome State Fault Refusal :=
  .next (wide3 d a b n p (· - ·) s)

/-- `SHL64` (R119). -/
def execShl64 (d a b : BitVec 6) (n : Bool) (p : BitVec 3) (s : State) : Host.Outcome State Fault Refusal :=
  .next (wideReg d a b n p shiftL64 s)

/-- `SHR64` (R119). -/
def execShr64 (d a b : BitVec 6) (n : Bool) (p : BitVec 3) (s : State) : Host.Outcome State Fault Refusal :=
  .next (wideReg d a b n p shiftR64 s)

/-- `SRA64` (R119). -/
def execSra64 (d a b : BitVec 6) (n : Bool) (p : BitVec 3) (s : State) : Host.Outcome State Fault Refusal :=
  .next (wideReg d a b n p shiftA64 s)

/-- `LEA64` (R119). -/
def execLea64 (d a b : BitVec 6) (n : Bool) (p : BitVec 3) (s : State) : Host.Outcome State Fault Refusal :=
  .next (wideReg d a b n p (fun x y => x + (y.signExtend 64 <<< 2)) s)

/-- `IMUL64` (R119). -/
def execImul64 (d a b : BitVec 6) (n : Bool) (p : BitVec 3) (s : State) : Host.Outcome State Fault Refusal :=
  .next (wide3 d a b n p (· * ·) s)

/-- `MOV64` (R119): the pair's tangents pass whole. -/
def execMov64 (d a : BitVec 6) (n : Bool) (p : BitVec 3) (s : State) : Host.Outcome State Fault Refusal :=
  .next (alu p (fun k th =>
    match srcPair th a with
    | some x => if dstPair th d n then .ok (putPair th k d n x) else .error .operand
    | none => .error .operand) s)

/-- `IMAD` (R120). -/
def execImad (d a b c : BitVec 6) (n p : Bool) (s : State) : Host.Outcome State Fault Refusal :=
  .next (alu (predBit p) (fun k th =>
    match srcReg th a, srcReg th b, srcReg th c with
    | some x, some y, some z =>
      if dstReg th d n then .ok (putReg th k d n ⟨x.val * y.val + z.val, []⟩) else .error .operand
    | _, _, _ => .error .operand) s)

/-- `IADDI` (R121). -/
def execIaddi (d a : BitVec 6) (i : BitVec 12) (n p : Bool) (s : State) : Host.Outcome State Fault Refusal :=
  .next (int2 d a n (predBit p) (· + i.signExtend 32) s)

/-- `IADDI64` (R121). -/
def execIaddi64 (d a : BitVec 6) (i : BitVec 12) (n p : Bool) (s : State) : Host.Outcome State Fault Refusal :=
  .next (wide2 d a n (predBit p) (· + i.signExtend 64) s)

/-- `ANDI` (R121). -/
def execAndi (d a : BitVec 6) (i : BitVec 12) (n p : Bool) (s : State) : Host.Outcome State Fault Refusal :=
  .next (int2 d a n (predBit p) (· &&& i.signExtend 32) s)

/-- `ORI` (R121). -/
def execOri (d a : BitVec 6) (i : BitVec 12) (n p : Bool) (s : State) : Host.Outcome State Fault Refusal :=
  .next (int2 d a n (predBit p) (· ||| i.signExtend 32) s)

/-- `XORI` (R121). -/
def execXori (d a : BitVec 6) (i : BitVec 12) (n p : Bool) (s : State) : Host.Outcome State Fault Refusal :=
  .next (int2 d a n (predBit p) (· ^^^ i.signExtend 32) s)

/-- An instruction whose operands are illegal in every active thread. -/
def illegalOperand (p : BitVec 3) (s : State) : State := alu p (fun _ _ => .error .operand) s

/-- `SHFI` (R122): KIND k, and imm12[7:0] in m and the two bits above it; KIND 7-15, and an AMOUNT of 32 or more
with KIND 0-3, are Illegal Operand. -/
def execShfi (d a : BitVec 6) (k : BitVec 4) (m : BitVec 6) (n p : Bool) (s : State) : Host.Outcome State Fault Refusal :=
  let amt : Word := BitVec.ofNat 32 m.toNat
  .next (if k.toNat ≥ 7 ∨ (k.toNat < 4 ∧ m.toNat ≥ 32) then illegalOperand (predBit p) s
    else if k.toNat = 0 then int2 d a n (predBit p) (shiftL · amt) s
    else if k.toNat = 1 then int2 d a n (predBit p) (shiftR · amt) s
    else if k.toNat = 2 then int2 d a n (predBit p) (shiftA · amt) s
    else if k.toNat = 3 then int2 d a n (predBit p) (rotL · amt) s
    else if k.toNat = 4 then wide2 d a n (predBit p) (shiftL64 · amt) s
    else if k.toNat = 5 then wide2 d a n (predBit p) (shiftR64 · amt) s
    else wide2 d a n (predBit p) (shiftA64 · amt) s)

/-- `LUI` (R123). -/
def execLui (d : BitVec 6) (i : BitVec 20) (s : State) : Host.Outcome State Fault Refusal :=
  .next (alu 7 (fun k th =>
    if dstReg th d false then .ok (putReg th k d false ⟨i.setWidth 32 <<< 12, []⟩) else .error .operand) s)

/-- `AUIPC` (R123): PC is the address of the word itself. -/
def execAuipc (d : BitVec 6) (i : BitVec 20) (s : State) : Host.Outcome State Fault Refusal :=
  .next (runThreads freeGate 7 false (fun g _ _ th =>
    if dstPair th d false then
      .ok (putPair th g.latch d false (plainPair (g.pc + ((i.setWidth 32 <<< 12).signExtend 64))))
    else .error .operand) s)

end Sys2Proof.Machine
end

