-- ==== Sys2Proof/Machine/Special.lean ====
section
/-! DEFINITION. Moves, special registers and uniform values (R57, R61-R68, R143-R145, R189), and the tangent instructions
(R146-R150). -/

namespace Sys2Proof.Machine

/-- `TLATV` of a record (R57). -/
def tlatvOf (r : TrapRec) : Word :=
  let v := fun (k : Nat) => (r.lats.get k).valid.toNat * 2 ^ k
  let w := fun (k : Nat) => (r.lats.get k).wide.toNat * 2 ^ (4 + k)
  BitVec.ofNat 32 (v 0 + v 1 + v 2 + v 3 + w 0 + w 1 + w 2 + w 3)

/-- A latch with its validity and width bits set (R57): a cleared width bit leaves a zero high word. -/
def latchBits (l : Latch) (valid wide : Bool) : Latch :=
  ⟨valid, wide, l.lo, if wide then l.hi else Dexel.zero⟩

/-- A record with `TLATV` written (R57). -/
def setTlatv (r : TrapRec) (w : Word) : TrapRec :=
  let f := fun (k : Nat) => latchBits (r.lats.get k) (w.getLsbD k) (w.getLsbD (4 + k))
  { r with lats := ⟨f 0, f 1, f 2, f 3⟩ }

/-- What reading `TLATk` writes (R57). -/
def tlatPair (r : TrapRec) (k : Nat) : Dexel × Dexel :=
  let l := r.lats.get k
  if l.valid then (l.lo, if l.wide then l.hi else Dexel.zero) else (Dexel.zero, Dexel.zero)

/-- A record with `TLATk` written from a pair, at the width its `TLATV` bit gives (R57). -/
def setTlat (r : TrapRec) (k : Nat) (x : Dexel × Dexel) : TrapRec :=
  let l := r.lats.get k
  { r with lats := r.lats.set k ⟨true, l.wide, x.1, if l.wide then x.2 else Dexel.zero⟩ }

/-- `LCk` of a thread (R68). Open loops are held innermost first. -/
def readLc (th : Thread) (k : Nat) : Word :=
  if k < th.loops.length then (th.loops.getD (th.loops.length - 1 - k) ⟨0, 0, 0⟩).lc else 0

/-- A thread with `LCk` written; a depth with no open loop keeps 0 (R175). -/
def writeLc (th : Thread) (k : Nat) (w : Word) : Thread :=
  if k < th.loops.length then
    { th with loops := th.loops.modify (th.loops.length - 1 - k) fun l => { l with lc := w } }
  else th

/-- The registers of a trap record by their place in R144 and R189: CAUSE, PC, VAL, WORD, FLD0, FLD1, CLA, LATV, LAT0-3. -/
def readRec (r : TrapRec) (i : Nat) : Dexel × Dexel :=
  let w := fun (x : Word) => ((⟨x, []⟩ : Dexel), Dexel.zero)
  if i = 0 then w r.cause else if i = 1 then plainPair r.pc else if i = 2 then plainPair r.val
  else if i = 3 then w r.word else if i = 4 then w r.fld0 else if i = 5 then w r.fld1
  else if i = 6 then plainPair r.cla else if i = 7 then w (tlatvOf r) else tlatPair r (i - 8)

/-- A trap record with a register written; `none` is Illegal Operand (R57). All 32 bits written to a cause are kept: log 48 (DESIGN
CHOICE, unsafe). -/
def writeRec (r : TrapRec) (i : Nat) (x : Dexel × Dexel) : Option TrapRec :=
  let v := x.1.val
  let d := pairBits x
  if i = 0 then some { r with cause := v } else if i = 1 then some { r with pc := d }
  else if i = 2 then some { r with val := d } else if i = 3 then some { r with word := v }
  else if i = 4 then some { r with fld0 := v } else if i = 5 then some { r with fld1 := v }
  else if i = 6 then some { r with cla := d }
  else if i = 7 then (if v.toNat ≥ 256 then none else some (setTlatv r v))
  else some (setTlat r (i - 8) x)

/-- `TCNT` (R61). -/
def tcntOf (th : Thread) : Word := BitVec.ofNat 32 (th.lc.ndecl * 256 + th.lc.t16.toNat * 16 + th.lc.tcount)

/-- Special register n as `SRD` writes it (R61, R62, R144); `none` for an unassigned number. -/
def readSr (s : State) (t : Nat) (th : Thread) (n : Nat) : Option (Dexel × Dexel) :=
  let w := fun (x : Word) => some ((⟨x, []⟩ : Dexel), Dexel.zero)
  let num := fun (x : Nat) => w (BitVec.ofNat 32 x)
  if n = 0 then num (threadLane t) else if n = 1 then num (threadSlot t) else if n = 2 then num th.lc.crew
  else if n = 3 then w th.lc.coh.1 else if n = 4 then w th.lc.coh.2.1 else if n = 5 then w th.lc.coh.2.2
  else if n = 6 then w th.lc.grid.1 else if n = 7 then w th.lc.grid.2.1 else if n = 8 then w th.lc.grid.2.2
  else if n = 9 then num th.lc.stage else if n = 10 then num (coreIndex (threadCore t))
  else if n = 11 then num (coreCluster (threadCore t)) else if n = 12 then num (coreDie (threadCore t))
  else if n = 13 then some (plainPair (BitVec.ofNat 64 s.span)) else if n = 14 then some (plainPair (BitVec.ofNat 64 th.wct))
  else if n = 15 then w th.fcr else if n = 16 then w th.fsr else if n = 17 then w (tcntOf th)
  else if n = 18 then w th.sp else if n = 19 then w th.slim
  else if 20 ≤ n ∧ n ≤ 22 then w (readLc th (n - 20)) else if n = 23 then w th.surv
  else if n = 24 then some (plainPair th.thandler) else if n = 25 then num th.level
  else if 26 ≤ n ∧ n ≤ 37 then some (readRec (currentRec th) (n - 26))
  else none

/-- Special register n as `SRDP` writes it: those of R144 and the privileged ones of R189. -/
def readSrp (s : State) (t : Nat) (th : Thread) (n : Nat) : Option (Dexel × Dexel) :=
  if n = 40 then some (plainPair th.shandler)
  else if n = 41 then some (⟨BitVec.ofNat 32 th.lc.asid, []⟩, Dexel.zero)
  else if 42 ≤ n ∧ n ≤ 53 then some (readRec th.rec1 (n - 42))
  else if n = 54 then some (plainPair th.ksave0) else if n = 55 then some (plainPair th.ksave1)
  else if n = 56 then some (plainPair th.stkbase)
  else readSr s t th n

/-- A thread with special register n written by `SWR` at its level; Illegal Operand for a number that is unassigned or
read-only there (R61), a reserved bit (R57, R64, R65) or an unaligned `SP`, and Stack Overflow below `SLIM` (R67). -/
def writeSr (th : Thread) (n : Nat) (x : Dexel × Dexel) : Except Trap Thread :=
  let v := x.1.val
  if n = 15 then (if v.toNat % 8 > 4 ∨ v.toNat ≥ 256 then .error .operand else .ok { th with fcr := v })
  else if n = 16 then (if v.toNat ≥ 128 then .error .operand else .ok { th with fsr := v })
  else if n = 18 then
    (if v.toNat % 16 ≠ 0 then .error .operand
     else if v.toNat < th.slim.toNat then .error (.other 0x0C (v.setWidth 64))
     else .ok { th with sp := v })
  else if n = 19 then (if th.level = 0 then .error .operand else .ok { th with slim := v })
  else if 20 ≤ n ∧ n ≤ 22 then .ok (writeLc th (n - 20) v)
  else if n = 23 then .ok { th with surv := v }
  else if n = 24 then .ok { th with thandler := pairBits x }
  else if 26 ≤ n ∧ n ≤ 37 then
    (if th.level = 0 then .error .operand
     else match writeRec (currentRec th) (n - 26) x with
      | some r => .ok (setCurrentRec th r)
      | none => .error .operand)
  else .error .operand

/-- A thread with special register n written by `SWRP` (R189). -/
def writeSrp (th : Thread) (n : Nat) (x : Dexel × Dexel) : Except Trap Thread :=
  if n = 40 then .ok { th with shandler := pairBits x }
  else if 42 ≤ n ∧ n ≤ 53 then
    (match writeRec th.rec1 (n - 42) x with
     | some r => .ok { th with rec1 := r }
     | none => .error .operand)
  else if n = 54 then .ok { th with ksave0 := pairBits x }
  else if n = 55 then .ok { th with ksave1 := pairBits x }
  else writeSr th n x

/-- The shared end of `SRD` and `SRDP`: a register or pair by the special register's width (R62). -/
def putSr (th : Thread) (k : Nat) (d : BitVec 6) (nw wide : Bool) (x : Dexel × Dexel) : Except Trap Thread :=
  if wide then (if dstPair th d nw then .ok (putPair th k d nw x) else .error .operand)
  else if dstReg th d nw then .ok (putReg th k d nw x.1) else .error .operand

/-- The source of `SWR` and `SWRP`: a register or pair by the special register's width (R62). -/
def srcSr (th : Thread) (a : BitVec 6) (wide : Bool) : Option (Dexel × Dexel) :=
  if wide then srcPair th a else (srcReg th a).map fun x => (x, Dexel.zero)

/-- `MOV` (R143): the tangents pass whole. -/
def execMov (d a : BitVec 6) (n : Bool) (p : BitVec 3) (s : State) : Host.Outcome State Fault Refusal :=
  .next (alu p (fun k th =>
    match srcReg th a with
    | some x => if dstReg th d n then .ok (putReg th k d n x) else .error .operand
    | none => .error .operand) s)

/-- `SRD` (R143, R144). -/
def execSrd (d b : BitVec 6) (n : Bool) (p : BitVec 3) (s : State) : Host.Outcome State Fault Refusal :=
  .next (runThreads freeGate p false (fun g s t th =>
    match readSr s t th b.toNat with
    | some x => putSr th g.latch d n (srWide b.toNat) x
    | none => .error .operand) s)

/-- `SWR` (R143-R145). -/
def execSwr (a b : BitVec 6) (_n : Bool) (p : BitVec 3) (s : State) : Host.Outcome State Fault Refusal :=
  .next (runThreads freeGate p true (fun g _ _ th =>
    match srcSr th a (srWide b.toNat) with
    | some x => writeSr (dropLatch th g.latch) b.toNat x
    | none => .error .operand) s)

/-- `SRDP` (R189), at level 2 only. -/
def execSrdp (d b : BitVec 6) (n : Bool) (p : BitVec 3) (s : State) : Host.Outcome State Fault Refusal :=
  .next (runThreads ⟨none, 2, 0⟩ p false (fun g s t th =>
    match readSrp s t th b.toNat with
    | some x => putSr th g.latch d n (srWide b.toNat) x
    | none => .error .operand) s)

/-- `SWRP` (R189), at level 2 only. -/
def execSwrp (a b : BitVec 6) (_n : Bool) (p : BitVec 3) (s : State) : Host.Outcome State Fault Refusal :=
  .next (runThreads ⟨none, 2, 0⟩ p true (fun g _ _ th =>
    match srcSr th a (srWide b.toNat) with
    | some x => writeSrp (dropLatch th g.latch) b.toNat x
    | none => .error .operand) s)

/-- The 32-bit uniform kernel value at word i; bytes that the launch did not supply read 0 (R143). -/
def kernelWord (th : Thread) (i : Nat) : Word :=
  let b := fun (j : Nat) => (th.lc.kargs.getD (4 * i + j) 0).toNat
  BitVec.ofNat 32 (b 0 + b 1 * 2 ^ 8 + b 2 * 2 ^ 16 + b 3 * 2 ^ 24)

/-- `LDK.w` (R143). -/
def execLdkW (d a : BitVec 6) (n : Bool) (p : BitVec 3) (s : State) : Host.Outcome State Fault Refusal :=
  .next (alu p (fun k th =>
    if dstReg th d n then .ok (putReg th k d n ⟨kernelWord th a.toNat, []⟩) else .error .operand) s)

/-- `LDK.d` (R143): an odd a is Illegal Operand (R45). -/
def execLdkD (d a : BitVec 6) (n : Bool) (p : BitVec 3) (s : State) : Host.Outcome State Fault Refusal :=
  .next (alu p (fun k th =>
    if dstPair th d n && decide (a.toNat % 2 = 0) then
      .ok (putPair th k d n (⟨kernelWord th a.toNat, []⟩, ⟨kernelWord th (a.toNat + 1), []⟩))
    else .error .operand) s)

/-- Slots of zeros but for one. -/
def oneSlot (th : Thread) (k : Nat) (v : Word) : List Word := (slots th).map fun i => if i = k then v else 0
/-- A dexel's slots with one replaced. -/
def withSlot (th : Thread) (x : Dexel) (k : Nat) (v : Word) : List Word :=
  (slots th).map fun i => if i = k then v else x.slot i

/-- `TSEED` (R147): the unit tangent in slot K. -/
def execTseed (d a : BitVec 6) (w : Bool) (k : BitVec 3) (n : Bool) (p : BitVec 3) (s : State) :
    Host.Outcome State Fault Refusal :=
  .next (alu p (fun l th =>
    if k.toNat ≥ th.lc.tcount then .error .operand
    else if w then
      match srcPair th a with
      | some x =>
        let u := if th.lc.t16 then 0x3F800000 else 0x3FF0000000000000
        let y := pairOf th ⟨(pairBits x).toNat, (slots th).map fun i => if i = k.toNat then u else 0⟩
        if dstPair th d n then .ok (putPair th l d n y) else .error .operand
      | none => .error .operand
    else
      match srcReg th a with
      | some x =>
        if dstReg th d n then
          .ok (putReg th l d n ⟨x.val, oneSlot th k.toNat (if th.lc.t16 then 0x3C00 else 0x3F800000)⟩)
        else .error .operand
      | none => .error .operand) s)

/-- `TGET` (R147). -/
def execTget (d a : BitVec 6) (k : BitVec 3) (n : Bool) (p : BitVec 3) (s : State) : Host.Outcome State Fault Refusal :=
  .next (alu p (fun l th =>
    match srcReg th a with
    | some x =>
      if k.toNat < th.lc.tcount ∧ dstReg th d n then
        .ok (putReg th l d n ⟨if th.lc.t16 then x.slot k.toNat &&& 0xFFFF else x.slot k.toNat, []⟩)
      else .error .operand
    | none => .error .operand) s)

/-- `TSET` (R147): reads d's old value. -/
def execTset (d a : BitVec 6) (k : BitVec 3) (n : Bool) (p : BitVec 3) (s : State) : Host.Outcome State Fault Refusal :=
  .next (alu p (fun l th =>
    match srcReg th a with
    | some x =>
      if k.toNat < th.lc.tcount ∧ dstReg th d n then
        let old := readReg th d.toNat
        .ok (putReg th l d n ⟨old.val, withSlot th old k.toNat (if th.lc.t16 then x.val &&& 0xFFFF else x.val)⟩)
      else .error .operand
    | none => .error .operand) s)

/-- `TZERO` (R147). -/
def execTzero (d a : BitVec 6) (w n : Bool) (p : BitVec 3) (s : State) : Host.Outcome State Fault Refusal :=
  .next (if w then wide2 d a n p id s else int2 d a n p id s)

/-- `TMOV` (R147): d's old primal with a's slots. -/
def execTmov (d a : BitVec 6) (w n : Bool) (p : BitVec 3) (s : State) : Host.Outcome State Fault Refusal :=
  .next (alu p (fun l th =>
    if w then
      match srcPair th a with
      | some x =>
        if dstPair th d n then
          .ok (putPair th l d n (⟨(readReg th d.toNat).val, x.1.tan⟩,
            ⟨if n then 0 else (readReg th (d.toNat + 1)).val, x.2.tan⟩))
        else .error .operand
      | none => .error .operand
    else
      match srcReg th a with
      | some x => if dstReg th d n then .ok (putReg th l d n ⟨(readReg th d.toNat).val, x.tan⟩) else .error .operand
      | none => .error .operand) s)

/-- `DEXT` (R148): only b's tangents are read. -/
def execDext (d a b : BitVec 6) (n : Bool) (p : BitVec 3) (s : State) : Host.Outcome State Fault Refusal :=
  .next (fop2 d a b n p (fun th x y => dExt (tanFmt th) (modeOf th) th.lc.tcount x y) s)

/-- The slot bound to a parameter code, if the kernel declares it (R72). -/
def slotOf (th : Thread) (code : Nat) : Option Nat := (slots th).find? fun k => th.lc.params.getD k 0 == code

/-- A slot's bits in the tangent format of 32-bit values. -/
def slotBits (th : Thread) (x : Dexel) (k : Nat) : Nat := (x.slot k).toNat % 2 ^ (tanFmt th).width

/-- `FOOT` (R149). -/
def execFoot (d a : BitVec 6) (n : Bool) (p : BitVec 3) (s : State) : Host.Outcome State Fault Refusal :=
  .next (alu p (fun l th =>
    match srcPair th a, slotOf th 1, slotOf th 2 with
    | some x, some kx, some ky =>
      if dstPair th d n then
        let r := footprint (tanFmt th) (slotBits th x.1 kx) (slotBits th x.2 kx) (slotBits th x.1 ky) (slotBits th x.2 ky)
        .ok (putPair th l d n (⟨BitVec.ofNat 32 r.1, []⟩, ⟨BitVec.ofNat 32 r.2, []⟩))
      else .error .operand
    | _, _, _ => .error .operand) s)

/-- `MOTV` (R150). -/
def execMotv (d a : BitVec 6) (n : Bool) (p : BitVec 3) (s : State) : Host.Outcome State Fault Refusal :=
  .next (alu p (fun l th =>
    match srcPair th a, slotOf th 3 with
    | some x, some k =>
      if dstPair th d n then
        let f := fun (y : Dexel) => BitVec.ofNat 32 (if th.lc.t16 then (fpConvert b16 b32 .rne (slotBits th y k)).bits else slotBits th y k)
        .ok (putPair th l d n (⟨f x.1, []⟩, ⟨f x.2, []⟩))
      else .error .operand
    | _, _ => .error .operand) s)

end Sys2Proof.Machine
end

