-- ==== Sys2Proof/Machine/ThreadMem.lean ====
section
/-! DEFINITION. Loads, stores, dexel records, prefetch, atomics and reductions (R151-R166, R179-R181, R85, R86), and the opening
of a Cocoon (R208, R210). -/

namespace Sys2Proof.Machine

/-- A memory access with its operands read: kind 0 load, 1 store, 2 `LDT`, 3 `STT`, 4 `ATOM`, 5 `RED`; the primal's size in
bytes, the counter, the d register, the address (a local offset in the local form), the data of a store, and the function,
scope and operands of an atomic. -/
structure MemReq where
  kind : Nat
  size : Nat
  dc : Nat
  d : Nat
  addr : DWord
  localForm : Bool
  data : List Dexel
  fn : Nat
  scope : Nat
  b0 : DWord
  b1 : DWord
deriving DecidableEq, Repr

/-- How a memory access ends in a lane: performed or issued; a trap; or a translation fault offered for replay (R180). -/
inductive MemOut where
  | done (s : State)
  | trap (s : State) (x : Trap)
  | fault (s : State) (va : Nat) (p : Perm)

/-- Where an address lies (R152, R153). -/
inductive Place where
  | global (va : Nat)
  | scratch (off : Nat)
  | window (off : Nat)
deriving DecidableEq, Repr

/-- A local offset for an access of n bytes, or Local Bound (R153). -/
def localPlace (s : State) (th : Thread) (x n : Nat) : Except Trap Place :=
  if x < 2 ^ 31 then
    (if x + n ≤ scratchSize s th.lc.cohort then .ok (.scratch x) else .error (.other 0x08 (BitVec.ofNat 64 x)))
  else if x - 2 ^ 31 + n ≤ th.lc.stack then .ok (.window (x - 2 ^ 31))
  else .error (.other 0x08 (BitVec.ofNat 64 x))

/-- The place of a pair-form address for an access of n bytes aligned to `size`: orders 8 to 10 of R179. A dexel record that begins below
2^57 and ends above it takes Bad Address with its first address (DESIGN CHOICE, unsafe: log 51). -/
def pairPlace (s : State) (th : Thread) (a : DWord) (size n : Nat) : Except Trap Place :=
  if a.toNat % size ≠ 0 then .error (.other 0x06 a)
  else if a.toNat < 2 ^ 57 ∧ a.toNat + n ≤ 2 ^ 57 then .ok (.global a.toNat)
  else if a.toNat / 2 ^ 32 = 2 ^ 31 then localPlace s th (a.toNat % 2 ^ 32) n
  else .error (.other 0x07 a)

/-- The place of a local-form address. -/
def offsetPlace (s : State) (th : Thread) (a : DWord) (size n : Nat) : Except Trap Place :=
  if a.toNat % size ≠ 0 then .error (.other 0x06 a) else localPlace s th (a.toNat % 2 ^ 32) n

/-- Bytes of one tangent in a dexel record (R85). -/
def tanSize (th : Thread) (size : Nat) : Nat := if th.lc.t16 then size / 2 else size

/-- The elements of an access: offset and size (R85, R86). -/
def elements (th : Thread) (r : MemReq) : List (Nat × Nat) :=
  if r.kind = 2 ∨ r.kind = 3 then
    (0, r.size) :: (slots th).map fun k => (r.size + k * tanSize th r.size, tanSize th r.size)
  else [(0, r.size)]

/-- Bytes of the whole access. -/
def reqBytes (th : Thread) (r : MemReq) : Nat := (elements th r).foldl (fun n e => n + e.2) 0

/-- The value a store writes: its data register or pair with the tangents (R85, R156). -/
def storeVal (th : Thread) (r : MemReq) : Val :=
  match r.data with
  | [x] => valOf th x
  | [x, y] => valOfPair th (x, y)
  | _ => plain 0

/-- The bytes of each element of a store. -/
def storeElems (th : Thread) (r : MemReq) : List (Nat × List Byte) :=
  let v := storeVal th r
  (elements th r).zipIdx.map fun e =>
    (e.1.1, toBytes e.1.2 (if e.2 = 0 then v.bits else v.tan.getD (e.2 - 1) 0))

/-- The registers a load writes, from its elements' bytes (R85, R156). -/
def loadDests (th : Thread) (r : MemReq) (parts : List (List Byte)) : List (Nat × Dexel) :=
  let v : Val := ⟨ofBytes (parts.getD 0 []), (parts.drop 1).map ofBytes⟩
  if r.d = 0 then []
  else if r.size = 8 then
    let p := pairOf th v
    [(r.d, p.1), (r.d + 1, p.2)]
  else [(r.d, dexelOf v)]

/-- Counter k of a thread (R160). -/
def readDc (th : Thread) (k : Nat) : Nat := (getK th.dc k).getD 0
/-- A thread with counter k raised. -/
def incDc (th : Thread) (k : Nat) : Thread := { th with dc := putK th.dc k (readDc th k + 1) }
/-- A thread with counter k lowered at a tick, which is kept if the counter comes to 0 (R199); 4 names no counter. -/
def decDc (th : Thread) (k now : Nat) : Thread :=
  if k ≥ 4 then th
  else
    { th with
      dc := putK th.dc k (readDc th k - 1)
      zeros := if readDc th k ≤ 1 then putK th.zeros k now else th.zeros }

/-- `WCT` merged with a time (R351, R353). -/
def mergeWct (th : Thread) (g : Nat) : Thread := { th with wct := Nat.max th.wct g }

/-- The old values of registers logged, once each, before a run-ahead load overwrites them (R210). -/
def logDests (th : Thread) (ds : List (Nat × Dexel)) : Thread :=
  ds.foldl (fun th d => { th with cocoon := logReg th d.1 }) th

/-- A register written by returning data: nothing is logged. -/
def landReg (th : Thread) (n : Nat) (x : Dexel) : Thread := if n = 0 then th else { th with regs := putK th.regs n x }

/-- Every element of a global access translated (R179, order 11); the result is each element's physical address with its
lease class, or the first address that meets a fault, with its cause code (0: offered to the driver). -/
def xlatElems (s : State) (core asid va : Nat) (p : Perm) : List (Nat × Nat) → State × Except (Nat × Nat) (List (Nat × Nat))
  | [] => (s, .ok [])
  | (o, _) :: es =>
    let tr := translate s (tlbUnits core) asid (va + o) p
    match tr.2 with
    | .fault => (tr.1, .error (va + o, 0))
    | .fatal c => (tr.1, .error (va + o, c))
    | .ok e =>
      let r := xlatElems tr.1 core asid va p es
      (r.1, match r.2 with
        | .ok l => .ok ((paOf e (va + o), e.lclass) :: l)
        | .error x => .error x)

/-- The permission a request needs (R343). -/
def MemReq.perm (r : MemReq) : Perm :=
  if r.kind = 0 ∨ r.kind = 2 then .read else if r.kind = 1 ∨ r.kind = 3 then .write else .atomic

/-- Two operands of an atomic as integers of a size. Where the rules leave a point open: log 23 (DEDUCED, unsafe). -/
def atomNew (fn size : Nat) (old : Nat) (b0 b1 : DWord) : Option Nat :=
  let w := 8 * size
  let x := b0.toNat % 2 ^ w
  let sx := intOfBits w true x
  let so := intOfBits w true old
  if fn = 0 ∨ fn = 11 then some ((old + x) % 2 ^ w)
  else if fn = 1 then some (if sx < so then x else old)
  else if fn = 2 then some (if so < sx then x else old)
  else if fn = 3 then some (Nat.min old x)
  else if fn = 4 ∨ fn = 12 then some (Nat.max old x)
  else if fn = 5 then some (old &&& x) else if fn = 6 then some (old ||| x) else if fn = 7 then some (old ^^^ x)
  else if fn = 8 then some x
  else if fn = 9 ∨ fn = 13 then (if old = x then some (b1.toNat % 2 ^ w) else none)
  else
    -- +0 for an exact zero sum
    let r := (fpAdd b32 .rne old x).bits
    some (if r = 0x80000000 then 0 else r)

/-- The logical cohort of a thread (R364). -/
def cohortJ (s : State) (th : Thread) : Nat := ((getCohort s th.lc.cohort).map (·.j)).getD 0

/-- A fresh number. Where the rules leave a point open: log 8 (DESIGN CHOICE, safe). -/
def fresh (s : State) : State × Nat := ({ s with seqno := s.seqno + 1 }, s.seqno)

/-- An access put in flight: its counter rises and its destinations become busy (R160, R161). -/
def issueAccess (s : State) (t : Nat) (a : Access) : State :=
  let s1 := { s with access := s.access ++ [{ a with id := s.seqno, issued := s.seqno }], seqno := s.seqno + 1 }
  modThread s1 t fun th =>
    { incDc (logDests th (if th.cocoon.isSome then a.dests else [])) a.dc with busy := th.busy ++ a.dests.map (·.1) }

/-- What a location held at the thread's most recent flush point (R166): the bases, else as it stands. -/
def baseByte (s : State) (th : Thread) (addr : Nat) (now : Byte) : Byte :=
  match getNode s th.lc.node with
  | none => now
  | some n =>
    let m := match getK n.bases (th.lc.cohort + 1) with | some m => m | none => (getK n.bases 0).getD []
    (getK m addr).getD now

/-- An entry of a thread put into its deterministic node's buffer (R166, R364). -/
def putEntry (s : State) (t : Nat) (th : Thread) (fn : Nat) (loc : Bool) (addr va : Nat) (b0 b1 : DWord) (red : Bool) : State :=
  let e : BufEntry := ⟨cohortJ s th, th.lc.crew, threadLane t, th.buffered, th.lc.cohort, fn, loc, addr, va, b0, b1, red, th.lc.stage, th.wct⟩
  modThread (modNode s th.lc.node fun n => { n with buffer := n.buffer ++ [e] }) t fun th => { th with buffered := th.buffered + 1 }

/-- An atomic of a deterministic node put into the node's buffer (R166); an `ATOM` returns the value of the last flush
point at once. Where the rules leave a point open: log 22 (DEDUCED, unsafe). -/
def bufferAtomic (s : State) (t : Nat) (th : Thread) (r : MemReq) (loc : Bool) (addr va : Nat) (now : List Byte) : State :=
  let key := if !loc then addr else if addr < 2 ^ 31 then localKey th.lc.cohort addr
    else windowKey th.lc.cohort th.lc.crew (threadLane t) (addr - 2 ^ 31)
  let old := ofBytes (now.zipIdx.map fun b => baseByte s th (key + b.2) b.1)
  let s1 := putEntry s t th r.fn loc addr va r.b0 r.b1 (r.kind == 5)
  if r.kind = 4 then modThread s1 t fun th => (loadDests th r [toBytes r.size old]).foldl (fun th d => writeReg th d.1 d.2) th
  else s1

/-- The stamp of a scratchpad access (R353): a write leaves its thread's `WCT` there; a read and an atomic merge what stands
there into it. Where the rules leave a point open: log 21 (DEDUCED, unsafe). -/
def stampScratch (s : State) (t : Nat) (th : Thread) (reads writes : Bool) : State :=
  let c := th.lc.cohort
  let s1 := if reads then modThread s t (mergeWct · (((getCohort s c).map (·.wct)).getD 0)) else s
  let w := ((getThread s1 t).map (·.wct)).getD 0
  if writes then modCohort s1 c fun x => { x with wct := Nat.max x.wct w } else s1

/-- An atomic's effect on local memory (R164, R165). Where the rules leave a point open: log 22 (DEDUCED, unsafe). -/
def localAtomic (s : State) (t : Nat) (th : Thread) (r : MemReq) (p : Place) : MemOut :=
  match p with
  | .scratch off =>
    match touchScratch s t th.lc.cohort th.lc.asid off r.size with
    | .fault s' 0 va => .fault s' va .read
    | .fault s' 1 va => .trap s' (.other 0x0A (BitVec.ofNat 64 va))
    | .fault s' _ va => .trap s' (.other 0x0B (BitVec.ofNat 64 va))
    | .ok s1 st =>
      let s1 := stampScratch (modThread s1 t (mergeWct · st)) t th true true
      let bs := readScratch s1 th.lc.cohort off r.size
      match scratchPoison s1 th.lc.cohort off r.size with
      | some o => .trap s1 (.other 0x0B (r.addr + BitVec.ofNat 64 (o - off)))
      | none =>
      if th.lc.det then .done (bufferAtomic s1 t th r true off 0 bs)
      else
        let s2 := match atomNew r.fn r.size (ofBytes bs) r.b0 r.b1 with
          | some v => writeScratch s1 th.lc.cohort off (toBytes r.size v)
          | none => s1
        .done (if r.kind = 4 then
          modThread s2 t fun th => (loadDests th r [bs]).foldl (fun th d => writeReg th d.1 d.2) th else s2)
  | .window off =>
    let w := readWindow s t off r.size
    if windowPoisoned w.1 t off then .trap w.1 (.other 0x0B r.addr)
    else if th.lc.det then .done (bufferAtomic w.1 t th r true (2 ^ 31 + off) 0 w.2)
    else
    let s2 := match atomNew r.fn r.size (ofBytes w.2) r.b0 r.b1 with
      | some v => writeWindow w.1 t off (toBytes r.size v)
      | none => w.1
    .done (if r.kind = 4 then
      modThread s2 t fun th => (loadDests th r [w.2]).foldl (fun th d => writeReg th d.1 d.2) th else s2)
  | .global _ => .done s

/-- Whether an atomic of a scope on a line is performed in the core's L1, or in the fused L1 (R165), where there is one (R196, R273). -/
def atomNear (s : State) (core scope line : Nat) : Bool :=
  (scope ≤ 1 || (scope == 2 && s.fusedClusters.contains (clusterNo core))) && hasL1 s core line

/-- An atomic's effect on global memory (R164, R165). -/
def globalAtomic (s : State) (t : Nat) (th : Thread) (r : MemReq) (va pa lclass : Nat) : State :=
  let core := threadCore t
  let key := keyOf s th.lc.asid
  let kind := if r.kind = 4 then AccKind.atom else AccKind.red
  if th.lc.det then bufferAtomic s t th r false pa va (readBytes s key pa r.size)
  else if atomNear s core r.scope (lineOf pa) then
    let rd := readNear s t key pa r.size lclass
    let ws := match atomNew r.fn r.size (ofBytes rd.2.1) r.b0 r.b1 with
      | some v => [(pa, toBytes r.size v)]
      | none => []
    issueAccess rd.1 t ⟨0, kind, t, core, 3, if r.kind = 4 then loadDests th r [rd.2.1] else [], ws, va, r.scope,
      Nat.max th.wct rd.2.2, ws.isEmpty, 0, 0, 0, false, writersOf s t pa r.size, 0⟩
  else
    let s1 := flushLine s core (lineOf pa)
    let bs := readBytes s1 key pa r.size
    let st := Nat.max th.wct ((getK s1.stamps (lineOf pa)).getD 0)
    let res : State × Nat := match atomNew r.fn r.size (ofBytes bs) r.b0 r.b1 with
      | some v => arrive s1 key th.wct pa (toBytes r.size v)
      | none => (s1, 0)
    let after := (getK res.1.stamps (lineOf pa)).getD 0
    let s2 := noteGwct (countL2 (patchCopies res.1 core pa after (readBytes res.1 key pa r.size)) t (homeDie pa) (lineOf pa)) th.lc.node res.2
    issueAccess s2 t ⟨0, kind, t, core, 3, if r.kind = 4 then loadDests th r [bs] else [], [], va, r.scope, st, true, res.2, 0, 0, false, [], 0⟩

/-- The place of a request, orders 8 to 10 of R179. -/
def MemReq.place (r : MemReq) (s : State) (th : Thread) : Except Trap Place :=
  if r.localForm then offsetPlace s th r.addr r.size (reqBytes th r) else pairPlace s th r.addr r.size (reqBytes th r)

/-- A local load or store, performed at once (R153, R156). -/
def localAccess (s : State) (t : Nat) (th : Thread) (r : MemReq) (p : Place) : MemOut :=
  match p with
  | .scratch off =>
    match touchScratch s t th.lc.cohort th.lc.asid off (reqBytes th r) with
    | .fault s' 0 va => .fault s' va .read
    | .fault s' 1 va => .trap s' (.other 0x0A (BitVec.ofNat 64 va))
    | .fault s' _ va => .trap s' (.other 0x0B (BitVec.ofNat 64 va))
    | .ok s1 st =>
      let load := r.kind == 0 || r.kind == 2
      let s1 := stampScratch (modThread s1 t (mergeWct · st)) t th load !load
      if r.kind = 0 ∨ r.kind = 2 then
        match scratchPoison s1 th.lc.cohort off (reqBytes th r) with
        | some o => .trap s1 (.other 0x0B (r.addr + BitVec.ofNat 64 (o - off)))
        | none =>
        let parts := (elements th r).map fun e => readScratch s1 th.lc.cohort (off + e.1) e.2
        .done (modThread s1 t fun th => (loadDests th r parts).foldl (fun th d => writeReg th d.1 d.2) th)
      else
        .done ((storeElems th r).foldl (fun s e => writeScratch s th.lc.cohort (off + e.1) e.2) s1)
  | .window off =>
    if r.kind = 0 ∨ r.kind = 2 then
      let rd := (elements th r).foldl (fun (acc : State × List (List Byte)) e =>
        let w := readWindow acc.1 t (off + e.1) e.2
        (w.1, acc.2 ++ [w.2])) (s, [])
      match (elements th r).find? fun e => windowPoisoned rd.1 t (off + e.1) with
      | some e => .trap rd.1 (.other 0x0B (r.addr + BitVec.ofNat 64 e.1))
      | none => .done (modThread rd.1 t fun th => (loadDests th r rd.2).foldl (fun th d => writeReg th d.1 d.2) th)
    else .done ((storeElems th r).foldl (fun s e => writeWindow s t (off + e.1) e.2) s)
  | .global _ => .done s

/-- A global load (R156): its elements are read now, one after the other (R86), and return later (R160). Where the rules leave a point open:
log 47 (DESIGN CHOICE, unsafe). -/
def globalLoad (s : State) (t : Nat) (th : Thread) (r : MemReq) (va : Nat) (pas : List (Nat × Nat)) : State :=
  let key := keyOf s th.lc.asid
  let rd := ((elements th r).zip pas).foldl (fun (acc : State × List (List Byte) × Nat) e =>
    let x := readNear acc.1 t key e.2.1 e.1.2 e.2.2
    (x.1, acc.2.1 ++ [x.2.1], Nat.max acc.2.2 x.2.2)) (s, [], 0)
  let after := ((elements th r).zip pas).flatMap fun e => writersOf s t e.2.1 e.1.2
  issueAccess rd.1 t ⟨0, .load, t, threadCore t, r.dc, loadDests th r rd.2.1, [], va, 0, rd.2.2, true, 0, 0, 0, false, after, 0⟩

/-- A global store (R156): on its way to its home (R352). -/
def globalStore (s : State) (t : Nat) (th : Thread) (r : MemReq) (va : Nat) (pas : List (Nat × Nat)) : State :=
  let ws := ((storeElems th r).zip pas).map fun e => (e.2.1, e.1.2)
  issueAccess s t ⟨0, .store, t, threadCore t, r.dc, [], ws, va, 0, th.wct, false, 0, 0, 0, false, [], 0⟩

/-- A memory access in one lane, orders 8 to 12 of R179 and the effects of R156 and R164. -/
def performMem (s : State) (t : Nat) (th : Thread) (r : MemReq) : MemOut :=
  match r.place s th with
  | .error x => .trap s x
  | .ok (.global va) =>
    let core := threadCore t
    let x := xlatElems s core th.lc.asid va r.perm (elements th r)
    match x.2 with
    | .error (v, 0) => .fault x.1 v r.perm
    | .error (v, c) => .trap x.1 (.other c (BitVec.ofNat 64 v))
    | .ok pas =>
      match if r.kind = 1 ∨ r.kind = 3 then none
        else ((elements th r).zip pas).find? fun e => poisoned x.1 e.2.1 with
      | some e => .trap x.1 (.other 0x0B (BitVec.ofNat 64 (va + e.1.1)))
      | none =>
        if r.kind = 0 ∨ r.kind = 2 then .done (globalLoad x.1 t th r va pas)
        else if r.kind = 1 ∨ r.kind = 3 then .done (globalStore x.1 t th r va pas)
        else
          match pas with
          | (pa, c) :: _ => .done (globalAtomic x.1 t th r va pa c)
          | [] => .done x.1
  | .ok p => if r.kind ≥ 4 then localAtomic s t th r p else localAccess s t th r p

/-- The kind of `WaitRec` of a thread saved with its Cocoon (R216): a is the address of the first faulting byte; and of one whose
fault the driver declared fatal while it was saved: a is the cause. -/
def savedCocoonKind : Nat := 22
/-- See `savedCocoonKind`. -/
def fatalCocoonKind : Nat := 21

/-- Whether a memory word is one of those that `PRB.SAMP` marks (R378): not `LDC`. Where the rules leave a point open: log 20 (DESIGN CHOICE, unsafe). -/
def markable (w : Word) : Bool := (opF w).toNat != 39

/-- A lane that leaves its group with its Cocoon open (R208, R210): a group of one that runs ahead from the next
instruction, counted among the open clauses, of which there may then be more than 8 (DESIGN CHOICE, unsafe: log 10); when no fault record is free it stays at the instruction to try again (R344). A mark of `PRB.SAMP` is spent on an
access that faults, which writes no record (R378, R379). -/
def openCocoon (g : Group) (s : State) (t : Nat) (th : Thread) (r : MemReq) (va : Nat) (p : Perm) : State :=
  let core := threadCore t
  let src := if r.localForm ∨ r.addr.toNat ≥ 2 ^ 57 then 2 else 0
  match raiseFault s (coreDie core) th.lc.asid va p src (unitOf core) (.cocoon t) with
  | none => { s with opens := s.opens ++ [{ g with members := [t] }] }
  | some s1 =>
    let fid := ((s1.faults.find? fun e => e.2.reqs.contains (.cocoon t)).map (·.1)).getD 0
    let c : Cocoon := ⟨g.word, g.pc, g.cla, g.hdr, g.code, r.addr, r.data ++ [⟨r.b0.setWidth 32, []⟩,
      ⟨(r.b0 >>> 32).setWidth 32, []⟩, ⟨r.b1.setWidth 32, []⟩, ⟨(r.b1 >>> 32).setWidth 32, []⟩], th.lats, th.fsr, [], fid, va⟩
    let th' := { incDc (advance g (dropLatch th g.latch)) r.dc with
      cocoon := some c, wait := none, sampMark := th.sampMark && (src == 2 || !markable g.word) }
    let g' := { g with members := [t], idx := g.idx + 1, ahead := true }
    let s2 := setThread s1 t th'
    -- a Cocoon that comes back from an image does not run ahead (R216)
    if (th.wait.map (·.kind)) = some savedCocoonKind then
      noteBlocked { modThread s2 t (fun th => { th with status := .parked }) with parked := s2.parked ++ [g'] } t
    else noteBlocked { s2 with opens := s2.opens ++ [g'] } t

/-- Where n bytes of virtual memory lie, as (physical address, bytes) of each line, if all of them can be read and written without a fault
or poison (R375). -/
def reached (s : State) (units : List (Nat × Nat)) (asid va n : Nat) : Option (List (Nat × Nat)) :=
  (splitLines va (List.replicate n 0) (n / 128 + 2)).foldr (fun c acc =>
    match acc, (translate s units asid c.1 .read).2, (translate s units asid c.1 .write).2 with
    | some l, .ok e, .ok _ => if poisoned s (paOf e c.1) then none else some ((paOf e c.1, c.2.length) :: l)
    | _, _, _ => none) (some [])

/-- The little-endian number that lies in some parts of physical memory. -/
def partsNum (s : State) (key : Nat) (parts : List (Nat × Nat)) : Nat := ofBytes (parts.flatMap fun p => readBytes s key p.1 p.2)

/-- Bytes written at their homes in some parts of physical memory, one part after another. -/
def partsPut (s : State) (key : Nat) : List (Nat × Nat) → List Byte → State
  | [], _ => s
  | p :: ps, bs => partsPut (arrive s key 0 p.1 (bs.take p.2)).1 key ps (bs.drop p.2)

/-- An observation record of a context (R373-R375): bytes 8-31, then 0-7. The place bytes are LANE, SLOT, CORE, CLUSTER
and DIE. What meets a missing translation, a leaf without R or W, or poison drops it. -/
def writeObs (s : State) (core asid kind : Nat) (place : List Nat) (pc : DWord) (data : Nat) : State :=
  let buf := ctxField s asid 24 8
  let key := keyOf s asid
  let at' := fun (s : State) (off n : Nat) => reached s (tlbUnits core) asid (buf + off) n
  if buf = 0 then s
  else
    match at' s 0 4, at' s 4 4 with
    | some hc, some hw =>
      let w := partsNum s key hw
      let dropped := fun (s : State) =>
        match at' s 8 8 with
        | some hd => partsPut s key hd (toBytes 8 (partsNum s key hd + 1))
        | none => s
      if w ≥ partsNum s key hc then dropped s
      else
        let s1 := partsPut s key hw (toBytes 4 (w + 1))
        match at' s1 (64 + 32 * w) 8, at' s1 (72 + 32 * w) 24 with
        | some h0, some h8 =>
          partsPut (partsPut s1 key h8 (toBytes 8 pc.toNat ++ toBytes 8 s.span ++ toBytes 8 data)) key h0
            ([BitVec.ofNat 8 kind] ++ place.map (BitVec.ofNat 8) ++ toBytes 2 asid)
        | _, _ => dropped s1
    | _, _ => s

/-- The place bytes of a thread's records (R374). -/
def obsPlace (t : Nat) : List Nat :=
  [threadLane t, threadSlot t, coreIndex (threadCore t), coreCluster (threadCore t), coreDie (threadCore t)]

/-- The stages that an access of a line passes (R379): bit 4 the memory controller, 3 the Span link, 2 the L2 slice, 1 the cluster
crossbar, 0 the L1 or fused L1 slice. A read of a plain class may end at a copy; all else goes to the home. -/
def stagesOf (s : State) (t key pa lclass : Nat) (read : Bool) : Nat :=
  let core := threadCore t
  let line := lineOf pa
  let l1 := hasL1 s core line
  let after := acquiredOf s core
  let own := if l1 then (if sliceCore s core line = core then 1 else 3) else 0
  let near := l1 && read && lclass != 3 && (usableCopy s (nearPlace s core) key line after).isSome
  let homed := isHostPa pa || homeDie pa == coreDie core
  let far := read && !homed && lclass != 3 && (usableCopy s (2, coreDie core) key line after).isSome
  own ||| (if near then 0 else 6 ||| if far || isHostPa pa then 0 else if homed then 16 else 24)

/-- The stages that an access of a thread to some elements passes (R379). -/
def requestStages (s : State) (t : Nat) (th : Thread) (r : MemReq) (va : Nat) : Nat :=
  match (xlatElems s (threadCore t) th.lc.asid va r.perm (elements th r)).2 with
  | .ok pas =>
    let near := decide (r.kind ≥ 4) && pas.any fun e => atomNear s (threadCore t) r.scope (lineOf e.1)
    let read := r.kind == 0 || r.kind == 2 || near
    pas.foldl (fun m e => m ||| stagesOf s t (keyOf s th.lc.asid) e.1 e.2 read) 0
  | .error _ => 0

/-- A KIND 2 record of a completed request (R379): its stages' queueing in cycles, QMC first; a stage it did not pass reads 0. Where the
rules leave a point open: log 38 (DESIGN CHOICE, unsafe). -/
def sampleData (acc stages : Nat) (queueing : List Nat) : Nat :=
  (List.range 5).foldl (fun d i =>
    d * 2 ^ 12 + (if stages / 2 ^ (4 - i) % 2 = 1 then Nat.min (queueing.getD i 0 / 8) 0xFFF else 0)) acc

/-- The queueing of a request whose times nothing gives: free values (R379; DESIGN CHOICE, safe: log 8). -/
def freeQueueing (n : Nat) : List Nat := (List.range 5).map fun i => (Config.freeWord (n + i)).toNat

/-- The accesses a lane has just put in flight by a global access of an instruction, with the instruction's address. A sampled one is
marked (R379): the core's Q-th since its last sample, or one after `PRB.SAMP` (R378); one that a deterministic node buffers is complete
(R166). Where the rules leave a point open: log 20 (DESIGN CHOICE, unsafe). -/
def tagAccesses (s0 s : State) (t : Nat) (th : Thread) (r : MemReq) (mark : Bool) (pc : DWord) : State :=
  match r.place s0 th with
  | .ok (.global va) =>
    let n := s0.access.length
    let core := threadCore t
    let q := dieReg s (coreDie core) 0x10
    let k := (getK s.sampCount core).getD 0 + 1
    let hit := mark || (q != 0 && decide (q ≤ k))
    let stages := if hit then requestStages s0 t th r va else 0
    let s1 := { s with
      sampCount := putK s.sampCount core (if hit then 0 else k)
      access := s.access.take n ++ (s.access.drop n).map fun a => { a with pc := pc, sampled := hit, stages := stages } }
    let s2 := if mark then modThread s1 t fun th => { th with sampMark := false } else s1
    if hit && decide (s.access.length ≤ n) then
      writeObs { s2 with seqno := s2.seqno + 5 } core th.lc.asid 2 (obsPlace t) pc
        (sampleData (if r.kind = 4 then 2 else 3) stages (freeQueueing s2.seqno))
    else s2
  | _ => s

/-- A memory instruction in one lane, once its operands are read. -/
def memLane (g : Group) (s : State) (t : Nat) (th : Thread) (r : MemReq) : LaneOut :=
  match performMem s t (dropLatch th g.latch) r with
  | .done s' => .done (modThread (tagAccesses s s' t th r (th.sampMark && markable g.word) g.pc) t fun th => { dropLatch th g.latch with wait := none })
  | .trap _ x => .trap x
  | .fault s' va p => .left (openCocoon g s' t th r va p)

/-- Whether a counter of an active member would reach 64 (R161). -/
def counterFull (s : State) (p : BitVec 3) (k : Nat) : Bool :=
  match issuing s with
  | none => false
  | some g => g.members.any fun t =>
      match getThread s t with
      | some th => readPred th p.toNat && decide (readDc th k ≥ 63)
      | none => false

/-- A memory instruction over the issuing group (R161). -/
def runMem (p k : Nat) (f : Group → State → Nat → Thread → LaneOut) (stop : Bool) (s : State) : State :=
  if counterFull s (BitVec.ofNat 3 p) k then s else runGroup freeGate (BitVec.ofNat 3 p) stop f s

/-- The access size of a size code (R34). -/
def sizeOf' (sz : Nat) : Nat := 2 ^ sz

/-- A pair-form address (R151). -/
def pairAddr (th : Thread) (a : BitVec 6) (o : BitVec 9) (size : Nat) : Option DWord :=
  (srcPair th a).map fun x => pairBits x + o.signExtend 64 * BitVec.ofNat 64 size
/-- A local-form or constant-form offset (R151). -/
def regOffset (th : Thread) (a : BitVec 6) (o : BitVec 9) (size : Nat) : Option DWord :=
  (srcReg th a).map fun x => (x.val + o.signExtend 32 * BitVec.ofNat 32 size).setWidth 64

/-- The data of a store (R156); `none` is Illegal Operand. -/
def storeData (th : Thread) (d : BitVec 6) (wide : Bool) : Option (List Dexel) :=
  if wide then (srcPair th d).map fun x => [x.1, x.2] else (srcReg th d).map fun x => [x]

/-- A plain request. -/
def plainReq (kind size dc d : Nat) (addr : DWord) (loc : Bool) (data : List Dexel) : MemReq :=
  ⟨kind, size, dc, d, addr, loc, data, 0, 0, 0, 0⟩

/-- Whether a load's destination is legal. -/
def dstLoad (th : Thread) (d : BitVec 6) (wide : Bool) : Bool := if wide then dstPair th d false else dstReg th d false

/-- `LD` (R155, R156). -/
def execLd (d a : BitVec 6) (o : BitVec 9) (sz k : BitVec 2) (p : Bool) (s : State) : Host.Outcome State Fault Refusal :=
  .next (runMem (predBit p).toNat k.toNat (fun g s t th =>
    match pairAddr th a o (sizeOf' sz.toNat) with
    | some addr =>
      if dstLoad th d (sz == 3) then memLane g s t th (plainReq 0 (sizeOf' sz.toNat) k.toNat d.toNat addr false [])
      else .trap .operand
    | none => .trap .operand) false s)

/-- `ST` (R155, R156): the d field is a source. -/
def execSt (d a : BitVec 6) (o : BitVec 9) (sz k : BitVec 2) (p : Bool) (s : State) : Host.Outcome State Fault Refusal :=
  .next (runMem (predBit p).toNat k.toNat (fun g s t th =>
    match pairAddr th a o (sizeOf' sz.toNat), storeData th d (sz == 3) with
    | some addr, some data => memLane g s t th (plainReq 1 (sizeOf' sz.toNat) k.toNat d.toNat addr false data)
    | _, _ => .trap .operand) true s)

/-- `LDS` (R155, R156). -/
def execLds (d a : BitVec 6) (o : BitVec 9) (sz k : BitVec 2) (p : Bool) (s : State) : Host.Outcome State Fault Refusal :=
  .next (runMem (predBit p).toNat k.toNat (fun g s t th =>
    match regOffset th a o (sizeOf' sz.toNat) with
    | some addr =>
      if dstLoad th d (sz == 3) then memLane g s t th (plainReq 0 (sizeOf' sz.toNat) k.toNat d.toNat addr true [])
      else .trap .operand
    | none => .trap .operand) false s)

/-- `STS` (R155, R156). -/
def execSts (d a : BitVec 6) (o : BitVec 9) (sz k : BitVec 2) (p : Bool) (s : State) : Host.Outcome State Fault Refusal :=
  .next (runMem (predBit p).toNat k.toNat (fun g s t th =>
    match regOffset th a o (sizeOf' sz.toNat), storeData th d (sz == 3) with
    | some addr, some data => memLane g s t th (plainReq 1 (sizeOf' sz.toNat) k.toNat d.toNat addr true data)
    | _, _ => .trap .operand) true s)

/-- `LDT` (R85, R155): size code 2 (`sz` false) or 3. -/
def execLdt (d a : BitVec 6) (o : BitVec 9) (sz : Bool) (k : BitVec 2) (p : Bool) (s : State) :
    Host.Outcome State Fault Refusal :=
  let size := if sz then 8 else 4
  .next (runMem (predBit p).toNat k.toNat (fun g s t th =>
    match pairAddr th a o size with
    | some addr =>
      if dstLoad th d sz then memLane g s t th (plainReq 2 size k.toNat d.toNat addr false []) else .trap .operand
    | none => .trap .operand) false s)

/-- `STT` (R85, R155). -/
def execStt (d a : BitVec 6) (o : BitVec 9) (sz : Bool) (k : BitVec 2) (p : Bool) (s : State) :
    Host.Outcome State Fault Refusal :=
  let size := if sz then 8 else 4
  .next (runMem (predBit p).toNat k.toNat (fun g s t th =>
    match pairAddr th a o size, storeData th d sz with
    | some addr, some data => memLane g s t th (plainReq 3 size k.toNat d.toNat addr false data)
    | _, _ => .trap .operand) true s)

/-- `LDC` (R155, R157): zeros, with no fault, in a kernel whose CONSTBASE is 0. -/
def execLdc (d a : BitVec 6) (o : BitVec 9) (sz k : BitVec 2) (p : Bool) (s : State) : Host.Outcome State Fault Refusal :=
  .next (runMem (predBit p).toNat k.toNat (fun g s t th =>
    match regOffset th a o (sizeOf' sz.toNat) with
    | some off =>
      if dstLoad th d (sz == 3) then
        let r := plainReq 0 (sizeOf' sz.toNat) k.toNat d.toNat (th.lc.constBase + off) false []
        if th.lc.constBase = 0 then
          .done (modThread s t fun th =>
            dropLatch ((loadDests th r [toBytes r.size 0]).foldl (fun th d => writeReg th d.1 d.2) th) g.latch)
        else memLane g s t th r
      else .trap .operand
    | none => .trap .operand) false s)

/-- A prefetch of the line that holds an address (R158): nothing where the address is misaligned, out of range, untranslated or
poisoned. -/
def prefetch (s : State) (t asid size va : Nat) : State :=
  if va % size ≠ 0 ∨ 2 ^ 57 ≤ va then s
  else
    let tr := translate s (tlbUnits (threadCore t)) asid va .read
    match tr.2 with
    | .ok e =>
      if poisoned tr.1 (paOf e va) then tr.1
      else (readLine tr.1 t (keyOf s asid) (lineOf (paOf e va)) e.lclass).1
    | _ => tr.1

/-- `PRF` (R158): a line brought into the L1; it never faults and changes no register, counter or memory. -/
def execPrf (a : BitVec 6) (o : BitVec 9) (sz : BitVec 2) (p : Bool) (s : State) : Host.Outcome State Fault Refusal :=
  .next (runGroup freeGate (predBit p) true (fun g s t th =>
    match pairAddr th a o (sizeOf' sz.toNat) with
    | some addr =>
      .done (setThread (prefetch s t th.lc.asid (sizeOf' sz.toNat) addr.toNat) t (dropLatch th g.latch))
    | none => .trap .operand) s)

/-- The operands of an atomic (R163): b or b.low, and the new value of a compare-and-swap. -/
def atomOperands (th : Thread) (fn : Nat) (b : BitVec 6) : Option (DWord × DWord) :=
  if fn = 9 then (srcPair th b).map fun x => (x.1.val.setWidth 64, x.2.val.setWidth 64)
  else if fn = 11 ∨ fn = 12 then (srcPair th b).map fun x => (pairBits x, 0)
  else if fn = 13 then
    (if b.toNat % 4 = 0 ∧ 4 ≤ b.toNat ∧ b.toNat < 60 ∧ b.toNat + 3 < th.lc.regs then
      some (pairBits (readReg th b.toNat, readReg th (b.toNat + 1)), pairBits (readReg th (b.toNat + 2), readReg th (b.toNat + 3)))
     else none)
  else (srcReg th b).map fun x => (x.val.setWidth 64, 0)

/-- The size of an atomic (R163). -/
def atomSize (fn : Nat) : Nat := if fn ≥ 11 then 8 else 4

/-- `ATOM` (R163-R166): scopes 6 and 7 are Illegal Operand (R45). -/
def execAtom (d a b : BitVec 6) (f : BitVec 4) (sc : BitVec 3) (p : Bool) (s : State) : Host.Outcome State Fault Refusal :=
  .next (runMem (predBit p).toNat 3 (fun g s t th =>
    match srcPair th a, atomOperands th f.toNat b with
    | some x, some bs =>
      if sc.toNat ≤ 5 ∧ dstLoad th d (decide (f.toNat ≥ 11)) then
        memLane g s t th ⟨4, atomSize f.toNat, 3, d.toNat, pairBits x, false, [], f.toNat, sc.toNat, bs.1, bs.2⟩
      else .trap .operand
    | _, _ => .trap .operand) true s)

/-- `RED` (R163-R166). -/
def execRed (a b : BitVec 6) (f : BitVec 4) (sc : BitVec 3) (p : Bool) (s : State) : Host.Outcome State Fault Refusal :=
  .next (runMem (predBit p).toNat 3 (fun g s t th =>
    match srcPair th a, atomOperands th f.toNat b with
    | some x, some bs =>
      if sc.toNat ≤ 5 then
        memLane g s t th ⟨5, atomSize f.toNat, 3, 0, pairBits x, false, [], f.toNat, sc.toNat, bs.1, bs.2⟩
      else .trap .operand
    | _, _ => .trap .operand) true s)

end Sys2Proof.Machine
end

