-- ==== Sys2Proof/Machine/Clause.lean ====
section
/-! DEFINITION. Clauses: fetching one (R182), the check of a transfer's target (R428), falling through and hardware loops
(R174-R176), standing at a boundary, and a node's failure. -/

namespace Sys2Proof.Machine

/-- A free 64-bit value. Where the rules leave a point open: log 8 (DESIGN CHOICE, safe). -/
def freeDWord (n : Nat) : DWord := Config.freeWord (2 * n + 1) ++ Config.freeWord (2 * n)

/-- The machine with a node marked failed, unless an earlier failure was recorded (R190, R238, R284, R382). -/
def failNode (s : State) (node code : Nat) : State :=
  modNode s node fun n => if n.failed.isSome then n else { n with failed := some code }

/-- What fetching a clause gives (R182). -/
inductive FetchOut where
  /-- The header word and the words after it. -/
  | ok (header : Word) (code : List Word)
  /-- A missing translation, offered to the driver, at an address. -/
  | missing (va : Nat)
  /-- A fault that is not offered: a cause code and `TVAL`. -/
  | fatal (code : Nat) (va : Nat)

/-- One word fetched through translation. -/
def fetchWord (s : State) (core asid va : Nat) : State × FetchOut :=
  let tr := translate s (tlbUnits core) asid va .fetch
  match tr.2 with
  | .fault => (tr.1, .missing va)
  | .fatal c => (tr.1, .fatal c va)
  | .ok e =>
    if poisoned tr.1 (paOf e va) then (tr.1, .fatal 0x0B va)
    else (tr.1, .ok (BitVec.ofNat 32 (readNum tr.1 (keyOf s asid) (paOf e va) 4)) [])

/-- n words fetched from an address on. -/
def fetchWords (s : State) (core asid va : Nat) : Nat → State × Except FetchOut (List Word)
  | 0 => (s, .ok [])
  | n + 1 =>
    let r := fetchWord s core asid va
    match r.2 with
    | .ok w _ =>
      let rest := fetchWords r.1 core asid (va + 4) n
      (rest.1, match rest.2 with | .ok ws => .ok (w :: ws) | .error e => .error e)
    | e => (r.1, .error e)

/-- A clause fetched whole (R182): its header and, after a tagged header, its COUNT words. -/
def fetchClause (s : State) (core asid va : Nat) : State × FetchOut :=
  let h := fetchWord s core asid va
  match h.2 with
  | .ok w _ =>
    if !isTagged w then (h.1, .ok w [])
    else
      let r := fetchWords h.1 core asid (va + 4) (headerFields w).count
      (r.1, match r.2 with | .ok ws => .ok w ws | .error e => e)
  | e => (h.1, e)

/-- Instruction words that open loops together span (R177): from the first body's start to the last one's end. -/
def loopSpan (ls : List Loop) : Nat :=
  (ls.foldl (fun m l => Nat.max m l.stop.toNat) 0 - ls.foldl (fun m l => Nat.min m l.start.toNat) (2 ^ 57)) / 4

/-- Whether an address lies in a loop's body (R176). -/
def insideLoop (l : Loop) (pc : DWord) : Bool := decide (l.start.toNat ≤ pc.toNat) && decide (pc.toNat < l.stop.toNat)

/-- Whether a thread runs the clause at an address from the loop buffer once it holds it (R8, R177): the clause lies in an open loop,
and the open loops together span at most 256 words. -/
def inBuffer (th : Thread) (pc : DWord) : Bool := th.loops.any (insideLoop · pc) && decide (loopSpan th.loops ≤ 256)

/-- A thread's loop buffer after its loops have changed: the clauses of the loops still open. -/
def keepBuffer (th : Thread) : Thread := { th with loopBuf := th.loopBuf.filter fun e => inBuffer th (BitVec.ofNat 64 e.1) }

/-- A clause as fetched kept in a thread's loop buffer, if it belongs there. -/
def bufferClause (th : Thread) (pc : DWord) (w : Word) (code : List Word) : Thread :=
  if inBuffer th pc then { th with loopBuf := putK th.loopBuf pc.toNat (w :: code) } else th

/-- The clause at an address as a thread of a core gets it: from the loop buffer, where it is not fetched again (R182), else fetched. -/
def threadClause (s : State) (core : Nat) (th : Thread) (pc : DWord) : State × FetchOut :=
  match if inBuffer th pc then getK th.loopBuf pc.toNat else none with
  | some (w :: code) => (s, .ok w code)
  | _ => fetchClause s core th.lc.asid pc.toNat

/-- Whether a clause is legal for a class (R29, R31, R32). -/
def legalClause (w : Word) (code : List Word) (cls : Nat) : Option Header :=
  match decodeHeader w with
  | none => none
  | some h => if h.cls = cls ∧ !(code.dropLast.any isTransfer) then some h else none

/-- The record of a trap that arises at a clause's header: every latch invalid (R182, R52, R55). Where the rules leave a point open: log 19 (DEDUCED, unsafe). -/
def trapAtHeader (pc : DWord) (code : Nat) (val : DWord) (word : Word) : TrapInfo :=
  ⟨code, val, pc, pc, word, 0, 0, noLatches⟩

/-- The end check of R175 on the open loops, innermost first: the loops after it and the pc. -/
def fallInto : List Loop → DWord → List Loop × DWord
  | [], pc => ([], pc)
  | l :: ls, pc =>
    if l.stop = pc then (if l.lc ≠ 0 then ({ l with lc := l.lc - 1 } :: ls, l.start) else fallInto ls pc) else (l :: ls, pc)

/-- The loops left open by a taken transfer (R176): an outer loop that is left closes those nested in it. -/
def loopsAfter (ls : List Loop) (pc : DWord) : List Loop := ((ls.reverse).takeWhile (insideLoop · pc)).reverse

/-- A thread that stands at a clause boundary (R202, R205): latches are lost. -/
def standAt (s : State) (t : Nat) (th : Thread) (pc : DWord) : State :=
  noteBoundary (setThread s t (standing s { keepBuffer th with
    pc := pc, cla := pc, lats := noLatches, wait := none, answers := [], stopReq := false })) t pc

/-- A thread that falls through into an address (R175). -/
def fallThrough (s : State) (t : Nat) (th : Thread) (pc : DWord) : State :=
  let r := fallInto th.loops pc
  standAt s t { th with loops := r.1 } r.2

/-- The address after a group's clause. -/
def Group.next (g : Group) : DWord := g.cla + BitVec.ofNat 64 (4 * (g.code.length + 1))

/-- A group whose clause has ended (R202, R33): each member takes its next pc. -/
def endClause (s : State) (g : Group) : State :=
  g.members.foldl (fun s t =>
    match getThread s t with
    | some th => fallThrough s t { th with yielded := th.yielded || g.hdr.yields } g.next
    | none => s) s

/-- The cause of the driver's fatal answer to a thread's fetch of a page, if it has one (R182, R428). -/
def answerFor (th : Thread) (va : Nat) : Option Nat := (th.answers.find? fun a => a.1 == va / 4096).map (·.2)

/-- The end of a check of a transfer's word (R428). -/
inductive TargetOut where
  | ok
  /-- Illegal Target. -/
  | bad
  /-- The thread waits at the transfer for the driver. -/
  | waits (s : State)
  /-- The destination's fetch fault was declared fatal: its cause. -/
  | fatal (code : Nat)

/-- The check that the word at an address is a header's (R51, order 7; R428); `dest`: the thread goes there. Where the rules leave a point open: log 24 (DEDUCED, unsafe). -/
def checkTarget (s : State) (t : Nat) (th : Thread) (addr : DWord) (dest : Bool) : TargetOut :=
  let va := addr.toNat
  if va % 4 ≠ 0 ∨ va ≥ 2 ^ 57 then .bad
  else
    let core := threadCore t
    match (fetchWord s core th.lc.asid va).2 with
    | .ok w _ => if isTagged w then .ok else .bad
    | .fatal _ _ => if dest then .ok else .bad
    | .missing _ =>
      match walk s th.lc.asid va with
      | .page .. => if dest then .ok else .bad
      | _ =>
        match answerFor th va with
        | some code => if dest then .fatal code else .bad
        | none => .waits ((raiseFault s (coreDie core) th.lc.asid va .fetch 0 (unitOf core) (.fetch t)).getD s)

/-- A lane that waits at the word its group issues: a parked group of one, in a fetch wait if a record holds its fault. Where the rules leave a point open: log 24 (DEDUCED, unsafe). -/
def holdLane (g : Group) (s : State) (t : Nat) : State :=
  let held := s.faults.any fun e => e.2.reqs.contains (.fetch t)
  noteBlocked (modThread { s with parked := s.parked ++ [{ g with members := [t] }] } t fun th =>
    { th with status := if held then .fetchWait else .parked }) t

/-- A lane transferred to a target (R167-R171) once the target is checked: `go` gives the thread at its target. Where the rules leave a point open: log 24 (DEDUCED, unsafe). -/
def transferLane (g : Group) (s : State) (t : Nat) (th : Thread) (addr : DWord) (go : State → Thread → State) : LaneOut :=
  let th1 := dropLatch th g.latch
  match checkTarget s t th addr true with
  | .ok => .left (go s { th1 with wait := none })
  | .bad => .trap (.other 0x04 addr)
  | .waits s' => .left (holdLane g s' t)
  | .fatal code =>
    let s1 := go s { th1 with wait := none }
    match getThread s1 t with
    | some th' => .left (takeTrap s1 t th' (trapAtHeader addr code addr 0))
    | none => .left s1

end Sys2Proof.Machine
end

