-- ==== Sys2Proof/Machine/Control.lean ====
section
/-! DEFINITION. Control: branches (R167-R169), calls and returns (R170, R171), the other `CTL` members (R173, R162), hardware
loops (R174, R175), `TRAP`, `ERET` and `HALT` (R188, R185, R190), and debug stops (R376). -/

namespace Sys2Proof.Machine

/-- Whether a debug session at D1 or D2 is open on a context (R405, R376). -/
def sessionOn (s : State) (asid : Nat) : Bool := s.session == some asid

/-- A lane stopped by the debugger before the word its group issues (R376), with the record's DATA. -/
def stopLane (g : Group) (s : State) (t : Nat) (th : Thread) (data : Nat) : State :=
  let s1 := writeObs s (threadCore t) th.lc.asid 4 (obsPlace t) g.pc data
  noteBlocked (modThread { s1 with parked := s1.parked ++ [{ g with members := [t] }] } t fun th =>
    { th with status := .stopped, pc := g.pc }) t

/-- A `BRA` over a whole group (R167, R168, R204): the lanes that take it, those that do not, and those it traps. -/
def branch (g : Group) (s : State) (p : BitVec 3) (n : Bool) (target : BitVec 13) (rec9 : BitVec 9) : State :=
  let dest := g.pc + target.signExtend 64 * 4
  let join := if rec9 = 0 then dest else g.pc + rec9.setWidth 64 * 4
  let taken := fun (t : Nat) =>
    match getThread s t with
    | some th => decide (p = 7) || (readPred th p.toNat != n)
    | none => false
  let chk := fun (t : Nat) =>
    match getThread s t with
    | none => TargetOut.ok
    | some th =>
      match checkTarget s t th dest true with
      | .ok =>
        if rec9 = 0 then .ok
        else match checkTarget s t th join false with
          | .bad => .bad | .waits s' => .waits s' | _ => .ok
      | .fatal c =>
        if rec9 = 0 then .fatal c
        else match checkTarget s t th join false with
          | .bad => .bad | .waits s' => .waits s' | _ => .fatal c
      | o => o
  let badTarget := fun (t : Nat) =>
    match getThread s t with
    | none => dest
    | some th => match checkTarget s t th dest true with | .bad => dest | _ => join
  let tk := g.members.filter taken
  if p = 7 ∧ n then g.members.foldl (fun s t => match getThread s t with
    | some th => trapLane g s t th .operand | none => s) (closeIssuing s)
  else
    match tk.findSome? fun t => match chk t with | .waits s' => some (t, s') | _ => none with
    | some (t, s') =>
      let held := s'.faults.any fun e => e.2.reqs.contains (.fetch t)
      noteBlocked (modThread (parkIssuing s' g) t fun th => { th with status := if held then .fetchWait else .parked }) t
    | none =>
      let bad := tk.filter fun t => match chk t with | .bad => true | _ => false
      let go := tk.filter fun t => !bad.contains t
      let stay := g.members.filter fun t => !taken t
      let s1 := bad.foldl (fun s t => match getThread s t with
        | some th => trapLane g s t th (.other 0x04 (badTarget t)) | none => s) (closeIssuing s)
      let fatalOf := fun (t : Nat) => match chk t with | .fatal c => some c | _ => none
      let s2 := go.foldl (fun s t =>
        match getThread s t with
        | none => s
        | some th =>
          let th1 := { dropLatch th g.latch with loops := loopsAfter th.loops dest, yielded := th.yielded || g.hdr.yields }
          match fatalOf t with
          | some c => takeTrap s t { th1 with wait := none } (trapAtHeader dest c dest 0)
          | none =>
            if stay.isEmpty then standAt s t th1 dest
            else
              { setThread s t { keepBuffer th1 with
                  pc := dest, cla := dest, lats := noLatches, wait := none, answers := [], status := .deferred } with
                deferrals := s.deferrals ++ [⟨t, join, stay, cyclesOf s (coreDie g.core)⟩] }) s1
      stay.foldl (fun s t =>
        match getThread s t with
        | none => s
        | some th => fallThrough s t { dropLatch th g.latch with yielded := th.yielded || g.hdr.yields } g.next) s2

/-- A control word over the issuing group: a lane running ahead stops before it (R209); every other lane by `laneStep`; a
lane that stays falls through, since the word is the last of its clause (R32). -/
def runControl (gate : Gate) (p : BitVec 3) (f : Group → State → Nat → Thread → LaneOut) (s : State) : State :=
  match issuing s with
  | none => s
  | some g =>
    if g.ahead then parkIssuing s g
    else if interlocked s g then s
    else
      let r := g.members.foldl (laneStep g gate p f) (closeIssuing s, [])
      endClause r.1 { g with members := r.2 }

/-- `BRA` (R167, R168). -/
def execBra (p : BitVec 3) (n : Bool) (t : BitVec 13) (r : BitVec 9) (s : State) : Host.Outcome State Fault Refusal :=
  .next (match issuing s with
    | none => s
    | some g => if g.ahead then parkIssuing s g else branch g s p n t r)

/-- A call (R170): the target's check, then the stack bound; the frame goes to window bytes n to n + 15. A frame that lies beyond
STACK, `SP` having been set above it, is not written, and the call goes on (DESIGN CHOICE, unsafe: log 51). -/
def callLane (g : Group) (s : State) (t : Nat) (th : Thread) (addr : DWord) : LaneOut :=
  match checkTarget s t th addr true with
  | .bad => .trap (.other 0x04 addr)
  | .waits s' => .left (holdLane g s' t)
  | o =>
    let n := th.sp - 16
    if th.sp.toNat < th.slim.toNat + 16 then .trap (.other 0x0C (n.setWidth 64))
    else
      let frame := toBytes 8 (g.pc + 4).toNat ++ toBytes 8 th.sp.toNat
      let s1 := if n.toNat + 16 ≤ th.lc.stack then writeWindow s t n.toNat frame else s
      let th0 := (getThread s1 t).getD th
      let th1 := { dropLatch th0 g.latch with sp := n, wait := none, yielded := th.yielded || g.hdr.yields }
      match o with
      | .fatal c => .left (takeTrap s1 t th1 (trapAtHeader addr c addr 0))
      | _ => .left (standAt s1 t th1 addr)

/-- `CALL` (R170). -/
def execCall (off : BitVec 26) (s : State) : Host.Outcome State Fault Refusal :=
  .next (runControl freeGate 7 (fun g s t th => callLane g s t th (g.pc + off.signExtend 64 * 4)) s)

/-- `CALLI` (R170). -/
def execCalli (a : BitVec 6) (_n : Bool) (p : BitVec 3) (s : State) : Host.Outcome State Fault Refusal :=
  .next (runControl freeGate p (fun g s t th =>
    match srcPair th a with
    | some x => callLane g s t th (pairBits x)
    | none => .trap .operand) s)

/-- `RET` (R171): the new `SP` is checked against `SLIM` once the target is (R67). -/
def execRet (_n : Bool) (p : BitVec 3) (s : State) : Host.Outcome State Fault Refusal :=
  .next (runControl freeGate p (fun g s t th =>
    if th.sp.toNat + 16 > th.lc.stack then .trap (.other 0x0D (BitVec.ofNat 64 (th.sp.toNat + 16)))
    else
      let w := readWindow s t th.sp.toNat 8
      let addr : DWord := BitVec.ofNat 64 (ofBytes w.2)
      let th1 := (getThread w.1 t).getD th
      if windowPoisoned w.1 t th.sp.toNat then .trap (.other 0x0B (th1.sp.setWidth 64))
      else
      let goes := match checkTarget w.1 t th1 addr true with | .ok => true | .fatal _ => true | _ => false
      if goes && decide (th.sp.toNat + 16 < th.slim.toNat) then .trap (.other 0x0C (BitVec.ofNat 64 (th.sp.toNat + 16)))
      else
        transferLane g w.1 t th1 addr fun s th =>
          standAt s t { th with sp := th.sp + 16, yielded := th.yielded || g.hdr.yields } addr) s)

/-- `BRX` (R169, R176). -/
def execBrx (a : BitVec 6) (_n : Bool) (p : BitVec 3) (s : State) : Host.Outcome State Fault Refusal :=
  .next (runControl freeGate p (fun g s t th =>
    match srcPair th a with
    | some x =>
      transferLane g s t th (pairBits x) fun s th =>
        standAt s t { th with loops := loopsAfter th.loops (pairBits x), yielded := th.yielded || g.hdr.yields } (pairBits x)
    | none => .trap .operand) s)

/-- `NOP` (R173). -/
def execNop (_n : Bool) (p : BitVec 3) (s : State) : Host.Outcome State Fault Refusal :=
  .next (alu p (fun k th => .ok (dropLatch th k)) s)

/-- `YIELD` (R173, R33). -/
def execYield (_n : Bool) (p : BitVec 3) (s : State) : Host.Outcome State Fault Refusal :=
  .next (alu p (fun k th => .ok { dropLatch th k with yielded := true }) s)

/-- Whether a thread's counters all read zero (R162). -/
def countersZero (th : Thread) : Bool := (List.range 4).all fun k => readDc th k == 0

/-- Whether every launched thread of a crew has exited or halted (R194). -/
def crewEnded (s : State) (crew : Nat) : Bool :=
  (List.range 64).all fun l =>
    match getThread s (crew * 64 + l) with
    | some th => th.status == .exited || th.status == .halted
    | none => true

/-- The slot of a crew all of whose launched threads have exited or halted passes to RETIRING (R194); those of a cohort with a bound region
wait for its write-back (R284: DEDUCED, unsafe: log 32). -/
def noteCrewEnd (s : State) (crew : Nat) : State :=
  match getK s.slots crew with
  | some e =>
    if crewEnded s crew ∧ e.state = 2 ∧ ((getCohort s e.cohort).all fun x => x.regions.isEmpty) then
      { s with slots := putK s.slots crew { e with state := 3 } }
    else s
  | none => s

/-- Whether a thread counts no more (R287): exited or halted. -/
def Thread.over (th : Thread) : Bool := th.status == .exited || th.status == .halted

/-- Units of a node: cohorts along the grid (R323, R329). -/
def unitsOf (n : Node) : Nat := n.grid.1 * n.grid.2.1 * n.grid.2.2

/-- Whether every cohort of a node is placed and has triggered or exited (R340, R290); cohorts that have gone have exited. -/
def allTriggered (s : State) (node : Nat) (n : Node) : Bool :=
  decide (n.kind ≤ 1) && decide (0 < n.trigThreads) && decide (unitsOf n ≤ n.nextUnit)
    && (s.threads.all fun e => e.2.lc.node != node || e.2.triggered || e.2.over)
    && (s.cohorts.all fun c => c.2.node != node || c.2.saved.all fun v => v.thread.triggered || v.thread.over)

/-- A node that triggers at this moment (R340): its successors are released although it fails afterwards. -/
def noteTrigger (s : State) (node : Nat) : State :=
  match getNode s node with
  | some n => if n.failed.isNone && !n.triggered && allTriggered s node n then modNode s node fun n => { n with triggered := true } else s
  | none => s

/-- A thread that becomes exited (R66, R162): TG and ZS go to its node, which may trigger (R340). -/
def exitThread (s : State) (t : Nat) (th : Thread) : State :=
  let st := (if th.fsr.getLsbD 6 then 4 else 0) + (if th.fsr.getLsbD 5 then 8 else 0)
  noteTrigger (noteCrewEnd (noteBlocked (modNode (setThread s t { th with status := .exited, loops := [], watch := none }) th.lc.node fun n =>
    { n with sticky := n.sticky ||| st }) t) (threadCrew t)) th.lc.node

/-- Whether a report may be taken at a header that waits on `dc3` or at `EXIT` (R238): that of a command issued directly by threads, one
of the copy engine among them (R279). `Report.point` is 0 for a fault of another engine, 1 + 2·batch for one of a copy, and
2 + 2·batch for one of a copy command of an engine program. -/
def Report.atHeader (r : Report) : Bool := r.point == 0 || r.point % 2 == 1

/-- The oldest report a point may take (R238), and the thread without it. Where the rules leave a point open: log 19 (DEDUCED, unsafe). -/
def takeReport (th : Thread) (p : Report → Bool) : Option (Report × Thread) :=
  match th.reports.find? p with
  | some r => some (r, { th with reports := th.reports.erase r })
  | none => none

/-- `EXIT` in one lane whose counters read zero: the oldest report, or the exit (R162, R238). -/
def exitLane (g : Group) (s : State) (t : Nat) (th : Thread) : State :=
  match takeReport th Report.atHeader with
  | some (r, th') => takeTrap s t th' (trapInfoAt g th' r.cause r.val)
  | none => exitThread s t th

/-- `BRK` (R173, R376): a stop while a session is open on the context, else Breakpoint. -/
def execBrk (a : BitVec 6) (_n : Bool) (p : BitVec 3) (s : State) : Host.Outcome State Fault Refusal :=
  .next (runControl freeGate p (fun g s t th =>
    if sessionOn s th.lc.asid then .left (stopLane g s t th a.toNat)
    else .trap (.other 0x10 (a.setWidth 64))) s)

/-- `LOOP` and `LOOPI` in one lane with a count (R174): S = PC + 4, E = S + 4·length. -/
def loopLane (g : Group) (s : State) (t : Nat) (th : Thread) (count : Word) (len : BitVec 8) : LaneOut :=
  let start := g.pc + 4
  let stop := start + len.setWidth 64 * 4
  let beyond := th.loops.any fun l => decide (l.stop.toNat < stop.toNat)
  let th1 := { dropLatch th g.latch with wait := none, yielded := th.yielded || g.hdr.yields }
  match checkTarget s t th stop (decide (count = 0)) with
  | .bad => .trap (.other 0x04 stop)
  | .waits s' => .left (holdLane g s' t)
  | o =>
    if beyond then .trap (.other 0x04 stop)
    else if count = 0 then
      match o with
      | .fatal c =>
        -- the transfer has its effect on the enclosing loops; where it leaves the thread at E the fetch fault is taken
        let r := fallInto th1.loops stop
        if r.2 = stop then .left (takeTrap s t { th1 with loops := r.1 } (trapAtHeader stop c stop 0))
        else .left (standAt s t { th1 with loops := r.1 } r.2)
      | _ => .left (fallThrough s t th1 stop)
    else if th.loops.length ≥ 3 then .trap (.other 0x0E (count.setWidth 64))
    else .left (fallThrough s t { th1 with loops := ⟨count - 1, start, stop⟩ :: th.loops } start)

/-- `LOOP` (R174). -/
def execLoop (c : BitVec 6) (l : BitVec 8) (s : State) : Host.Outcome State Fault Refusal :=
  .next (runControl freeGate 7 (fun g s t th =>
    match srcReg th c with
    | some x => loopLane g s t th x.val l
    | none => .trap .operand) s)

/-- `LOOPI` (R174). -/
def execLoopi (c : BitVec 12) (l : BitVec 8) (s : State) : Host.Outcome State Fault Refusal :=
  .next (runControl freeGate 7 (fun g s t th => loopLane g s t th (c.setWidth 32) l) s)

/-- `TRAP` (R188). -/
def execTrap (a : BitVec 6) (_n : Bool) (p : BitVec 3) (s : State) : Host.Outcome State Fault Refusal :=
  .next (runGroup freeGate p true (fun _ _ _ th =>
    match srcReg th a with
    | some x => .trap (.other 0x0F (x.val.setWidth 64))
    | none => .trap .operand) s)

/-- The level `ERET` sets (R185); a FROM of 3, which only a handler can have written, gives a free level (DESIGN CHOICE, safe: log 15). -/
def eretLevel (s : State) (th : Thread) : Nat :=
  let f := (currentRec th).cause.toNat / 256 % 4
  if f ≤ 2 then f else (Config.freeWord s.seqno).toNat % 3

/-- A thread that resumes inside a clause (R58): a parked group of one at its word, with the recorded latches. R58 does not say
whether threads that return together go on as one group: each is a group of its own (DESIGN CHOICE, unsafe: log 51). -/
def resumeInside (g : Group) (s : State) (t : Nat) (th : Thread) (hdr : Header) (code : List Word) : State :=
  setThread { s with
    parked := s.parked ++ [⟨g.core, [t], th.cla, hdr, code, (th.pc - th.cla).toNat / 4 - 1, false⟩] } t
    { th with status := .parked, wait := none, answers := [] }

/-- `ERET` in one lane (R185, R58). -/
def eretLane (g : Group) (s : State) (t : Nat) (th : Thread) : LaneOut :=
  let th0 := dropLatch th g.latch
  let r := { eretThread th0 with level := eretLevel s th, wait := none }
  let core := threadCore t
  let cla := r.cla
  let pc := r.pc
  if pc = cla then .left (standAt s t r pc)
  else
    match if cla.toNat % 4 = 0 ∧ cla.toNat < 2 ^ 57 ∧ cla.toNat < pc.toNat ∧ pc.toNat ≤ cla.toNat + 64 ∧ pc.toNat % 4 = 0 then
        some (fetchClause s core th.lc.asid cla.toNat) else none with
    | some (_, .ok w code) =>
      let n := (headerFields w).count
      if pc.toNat ≤ cla.toNat + 4 * n then
        match legalClause w code 0 with
        | some h => .left (resumeInside g s t r h code)
        | none => .left (standAt s t r cla)
      else if pc.toNat = cla.toNat + 4 * (n + 1) then .left (fallThrough s t r pc)
      else transferLane g s t th pc fun s th =>
        standAt s t { eretThread th with level := eretLevel s th, wait := none } pc
    | some (_, .missing va) =>
      (match answerFor th va with
       | some code => .left (takeTrap s t r (trapAtHeader cla code (BitVec.ofNat 64 va) 0))
       | none => .left (holdLane g ((raiseFault s (coreDie core) th.lc.asid va .fetch 0 (unitOf core) (.fetch t)).getD s) t))
    | some (_, .fatal code va) => .left (takeTrap s t r (trapAtHeader cla code (BitVec.ofNat 64 va) 0))
    | none => transferLane g s t th pc fun s th =>
        standAt s t { eretThread th with level := eretLevel s th, wait := none } pc

/-- `ERET` (R185): Illegal Instruction at level 0. -/
def execEret (_n : Bool) (p : BitVec 3) (s : State) : Host.Outcome State Fault Refusal :=
  .next (runGroup ⟨none, 1, 0⟩ p true eretLane s)

/-- A thread ended by `HALT` (R190): no wait for its counters; its pending loads write nothing. -/
def haltThread (s : State) (t : Nat) (th : Thread) (code : Nat) : State :=
  let s1 := { setThread s t { th with status := .halted, loops := [], dc := [], busy := [], watch := none } with
    access := s.access.map fun a => if a.thread = t then { a with dests := [], dc := 4 } else a }
  noteCrewEnd (noteBlocked (failNode s1 th.lc.node code) t) (threadCrew t)

end Sys2Proof.Machine
end

