-- ==== Sys2Proof/Machine/Accesses.lean ====
section
/-! DEFINITION. Accesses in flight and memory events: returning data, arrival at the home, a store performed, leases, host
recalls, stack-cache fills, completed request samples and soft errors. -/

namespace Sys2Proof.Machine

/-- An access in flight by its number. -/
def findAccess (s : State) (id : Nat) : Option Access := s.access.find? fun a => a.id == id
/-- The accesses without one. -/
def dropAccess (s : State) (id : Nat) : State := { s with access := s.access.filter fun a => a.id != id }

/-- The ACC code of a completed access (R379). -/
def AccKind.code : AccKind → Nat
  | .load => 0 | .store => 1 | .atom => 2 | .red => 3

/-- A thread of a number, if it is of some context: its ASID and core. -/
def threadAsid (s : State) (t : Nat) : Nat := ((getThread s t).map fun th => th.lc.asid).getD 0

/-- The record of a sampled access that completes (R379), with the cycles it waited in queues if they are given. Where the rules leave a
point open: log 20 (DESIGN CHOICE, unsafe). -/
def noteSample (s : State) (a : Access) (queueing : Option (List Nat)) : State :=
  if a.sampled then
    writeObs { s with seqno := s.seqno + 5 } a.core (threadAsid s a.thread) 2 (obsPlace a.thread) a.pc
      (sampleData a.kind.code a.stages (queueing.getD (freeQueueing s.seqno)))
  else s

/-- Registers written by returning data; the counter falls (R160, R161, R353). -/
def landAccess (a : Access) (now : Nat) (th : Thread) : Thread :=
  let th1 := a.dests.foldl (fun th d => landReg th d.1 d.2) th
  mergeWct { decDc th1 a.dc now with busy := a.dests.foldl (fun b d => b.erase d.1) th1.busy } (Nat.max a.stamp a.gwct)

/-- The data of a load or atomic return (R160): a load is over; an atomic's write goes on to its home if it is not there. -/
def returnAccess (s : State) (a : Access) (queueing : Option (List Nat)) : State :=
  let s1 := noteSample (modThread s a.thread (landAccess a s.span)) a queueing
  match a.kind with
  | .load => dropAccess s1 a.id
  | .atom =>
    if a.arrived then dropAccess s1 a.id
    else
      { s1 with
        access := s1.access.map fun x => if x.id = a.id then { x with kind := .store, dc := 4, dests := [], sampled := false } else x }
  | _ => s

/-- Whether the writes whose bytes an access returns are at their homes, so that their stamps are known (R353). -/
def stampsKnown (s : State) (a : Access) : Bool := s.access.all fun x => !a.after.contains x.id || x.arrived

/-- `LOAD_DATA_RETURN` (R160): the data return once the stamp to merge is known (DESIGN CHOICE, unsafe: log 47). -/
def execLoadDataReturn (access : Nat) (s : State) : Host.Outcome State Fault Refusal :=
  .next (match findAccess s access with
    | some a => if stampsKnown s a then returnAccess s a none else s
    | none => s)

/-- The writes whose bytes an access returns brought to their homes, whose GWCTs it then merges (R353). -/
def settleAfter (s : State) (a : Access) : State := (s.access.filter fun x => a.after.contains x.id && !x.arrived).foldl arriveAccess s

/-- The loads and atomics of a thread that are in flight returned (R212). -/
def returnLoads (s : State) (t : Nat) : State :=
  ((s.access.filter fun a => a.thread == t && (a.kind == .load || a.kind == .atom)).map (·.id)).foldl (fun s id =>
    match findAccess s id with
    | some a =>
      let s1 := settleAfter s a
      (match findAccess s1 id with | some b => returnAccess s1 b none | none => s1)
    | none => s) s

/-- Whether two accesses write one line. -/
def sameLine (a b : Access) : Bool := a.writes.any fun w => b.writes.any fun v => lineOf w.1 == lineOf v.1

/-- Whether no earlier write of the same L1 to a line of this one is still on its way (R159, R352). -/
def mayArrive (s : State) (a : Access) : Bool :=
  (s.access.takeWhile fun b => b.id != a.id).all fun b =>
    b.arrived || !(nearPlace s b.core == nearPlace s a.core && sameLine a b)

/-- `WRITE_ARRIVAL_HOME` (R351, R352): the next element of a store arrives (R86); watches on the line fire (R289, R361). Where the rules
leave a point open: log 47 (DESIGN CHOICE, unsafe). -/
def execWriteArrivalHome (access : Nat) (s : State) : Host.Outcome State Fault Refusal :=
  .next (match findAccess s access with
    | some a => if !a.arrived && mayArrive s a then arriveElems s a 1 else s
    | none => s)

/-- A store or reduction at its home performed (R160, R354): the GWCT is merged into `WCT` and the counter falls. -/
def performAccess (s : State) (a : Access) (queueing : Option (List Nat)) : State :=
  if a.arrived ∧ (a.kind = .store ∨ a.kind = .red) then
    dropAccess (noteSample (modThread s a.thread fun th => mergeWct (decDc th a.dc s.span) a.gwct) a queueing) a.id
  else s

/-- `STORE_PERFORMED` (R160, R354). -/
def execStorePerformed (access : Nat) (s : State) : Host.Outcome State Fault Refusal :=
  .next (match findAccess s access with
    | some a => performAccess s a none
    | none => s)

/-- `LEASE_EXPIRY` (R350): a copy whose lease has ended is read no more. Where the rules leave a point open: log 11 (DESIGN CHOICE, safe). -/
def execLeaseExpiry (copy : Nat) (s : State) : Host.Outcome State Fault Refusal :=
  .next { s with copies := s.copies.filter fun c => c.id != copy || decide (s.span < c.expiry) }

/-- `HOST_RECALL` (R361): the host takes back a line of host memory; watches on it fire. -/
def execHostRecall (line : Nat) (s : State) : Host.Outcome State Fault Refusal :=
  .next (if isHostPa (line * 128) then fireWatches s line else s)

/-- `STACK_ROW_FILL` (R198): a row of a crew's window brought into the stack cache. -/
def execStackRowFill (core slot offset : Nat) (s : State) : Host.Outcome State Fault Refusal :=
  .next (
    let crew := core * 16 + slot
    let stack := (List.range 64).foldl (fun n l => match getThread s (crew * 64 + l) with
      | some th => Nat.max n th.lc.stack | none => n) 0
    if slot < 16 ∧ offset < stack then withRow s core slot (offset / 16 * 16) else s)

/-- `REQUEST_SAMPLE_COMPLETE` (R379): a sampled access completes; `queueing` holds the cycles waited at the memory controller, the Span
link, the L2 slice, the crossbar and the L1. Where the rules leave a point open: log 38 (DESIGN CHOICE, unsafe). -/
def execRequestSampleComplete (access : Nat) (queueing : List Nat) (s : State) : Host.Outcome State Fault Refusal :=
  .next (match findAccess s access with
    | some a =>
      if !a.sampled then s
      else if a.kind = .load ∨ a.kind = .atom then (if stampsKnown s a then returnAccess s a (some queueing) else s)
      else performAccess s a (some queueing)
    | none => s)

/-- A BAR 0 register set. -/
def setBar0 (s : State) (off : Nat) (v : DWord) : State := { s with bar0 := putK s.bar0 off v }

/-- `SOFT_ERROR` (R384): a corrected error counts on die `a`; an uncorrectable one poisons its line (place 0: line `a`; 2: the
scratchpad line of cohort `a` at offset `b`), a thread's register or latch (place 1: thread `a`, operand code `b`), an element of
accumulator memory (place 3: core `a`, element `b` (R266)), a row of the stack cache (place 4: core `a`, slot `b`, offset `c`), the
cached translation `a` (place 5), or the queue entry of number `a` (place 6). Where the rules leave a point open: log 49 (DESIGN CHOICE,
unsafe). -/
def execSoftError (corrected : Bool) (place a b c : Nat) (s : State) : Host.Outcome State Fault Refusal :=
  .next (
    let add := fun (l : List Nat) (x : Nat) => if l.contains x then l else l ++ [x]
    if corrected then
      (if a < 4 then setBar0 s (0x438 + 0x100 * a) (bar0 s (0x438 + 0x100 * a) + 1) else s)
    else if place = 0 then { s with poison := add s.poison a }
    else if place = 1 then modThread s a fun th => { th with poison := add th.poison b }
    else if place = 2 then { s with poison := add s.poison (scratchLine a b) }
    else if place = 3 then
      (match getK s.girders a with
       | some g => { s with girders := putK s.girders a { g with poison := add g.poison b } }
       | none => s)
    else if place = 4 then
      { s with rows := putK s.rows a ((coreRows s a).map fun r =>
          if r.slot = b ∧ r.off = c / 16 * 16 then { r with poison := List.range 64 } else r) }
    else if place = 5 then { s with tlb := s.tlb.modify a fun e => { e with bad := true } }
    else if place = 6 then { s with poison := add s.poison (queueLine a) }
    else s)

end Sys2Proof.Machine
end

