-- ==== Sys2Proof/Machine/XLane.lean ====
section
/-! DEFINITION. The rendezvous (R217-R220): exchange members (R222-R227), `HMERGE` (R229) and the thread form of `RDVZ` (R239);
`HIST` (R228), `OSMX` and `OSMXF` (R230), `GSET` (R231), `FORK` (R235) and `MBURST` (R240). -/

namespace Sys2Proof.Machine

/-- A rendezvous instruction: 0-11 the `XLANE` members, 12 `HMERGE`, 13 the thread form of `RDVZ`. -/
structure RdvzOp where
  fn : Nat
  d : BitVec 6
  a : BitVec 6
  b : BitVec 6
  nw : Bool
deriving DecidableEq, Repr

/-- The rendezvous instruction of a word. -/
def rdvzOf (w : Word) : Option RdvzOp :=
  let op := (opF w).toNat
  let fn := (fnF w).toNat
  if op = 0x2C ∧ fn ≤ 11 then some ⟨fn, dF w, aF w, bF w, nF w⟩
  else if op = 0x2D ∧ fn = 1 then some ⟨12, dF w, aF w, bF w, nF w⟩
  else if op = 0x3F ∧ fn = 1 then some ⟨13, dF w, aF w, bF w, nF w⟩
  else none

/-- Whether a rendezvous instruction's operands are legal in a thread (R222, R239, R241). -/
def RdvzOp.legal (r : RdvzOp) (th : Thread) : Bool :=
  if r.fn = 13 then decide (r.a.toNat < 16) && decide (1 ≤ r.b.toNat) && decide (r.b.toNat ≤ 3)
  else if 5 ≤ r.fn ∧ r.fn ≤ 7 then dstPred r.d r.nw && (srcPair th r.a).isSome && decide (r.b.toNat ≤ 7)
  else if r.fn = 8 then dstPair th r.d r.nw && (srcPair th r.a).isSome && decide (r.b.toNat ≤ 7)
  else if r.fn = 12 then dstPair th r.d r.nw && (srcPair th r.a).isSome && (srcReg th r.b).isSome
  else dstReg th r.d r.nw && (srcPair th r.a).isSome && (srcReg th r.b).isSome

/-- A joined thread's mask (R218); an unreadable one names no lane. -/
def RdvzOp.mask (r : RdvzOp) (th : Thread) : DWord :=
  if r.fn = 13 then BitVec.allOnes 64 else ((srcPair th r.a).map pairBits).getD 0

/-- `WaitRec` kinds of a rendezvous: joined (a: predicate, b: latch), and done. -/
def joinedKind : Nat := 30
/-- See `joinedKind`. -/
def doneKind : Nat := 31

/-- Whether a thread has joined the instance at a word and level (R217). -/
def joinedAt (th : Thread) (pc : DWord) (level : Nat) : Bool :=
  th.pc == pc && th.level == level && (match th.wait with | some w => w.kind == joinedKind | none => false)

/-- The joined threads of a crew (core·16 + slot) by lane (R217). -/
def joinedThreads (s : State) (crew : Nat) (pc : DWord) (level : Nat) : List (Nat × Thread) :=
  (List.range 64).filterMap fun l =>
    match getThread s (crew * 64 + l) with
    | some th => if joinedAt th pc level then some (l, th) else none
    | none => none

/-- Whether a thread's predicate was true when it joined. -/
def joinedTrue (th : Thread) : Bool := match th.wait with | some w => w.a == 1 | none => false
/-- The latch of the word at which a thread joined. -/
def joinedLatch (th : Thread) : Nat := match th.wait with | some w => w.b | none => 0

/-- Whether a lane counts as arrived (R218): joined, exited, halted, or never launched. -/
def laneArrived (s : State) (crew : Nat) (pc : DWord) (level l : Nat) : Bool :=
  match getThread s (crew * 64 + l) with
  | none => true
  | some th => th.status == .exited || th.status == .halted || joinedAt th pc level

/-- A crew and a machine with a crew changed. -/
def getCrew (s : State) (c : Nat) : Option Crew := getK s.crews c
/-- See `getCrew`. -/
def modCrew (s : State) (c : Nat) (f : Crew → Crew) : State :=
  match getCrew s c with
  | some x => { s with crews := putK s.crews c (f x) }
  | none => s

/-- Whether the thread form of `RDVZ` names a class (R239). -/
def RdvzOp.names (r : RdvzOp) (cls : Nat) : Bool := r.b.toNat / cls % 2 == 1

/-- Programs of named classes that wait at another point are at fault and stop (R239, R238). -/
def wrongPoints (s : State) (crew : Nat) (r : RdvzOp) : State :=
  modCrew s crew fun c =>
    let wrong := fun (p : Prog) => r.names p.cls && (match p.waiting with | some (n, _) => n != r.a.toNat | none => false)
    { c with
      progs := c.progs.filter fun p => !wrong p
      faults := c.faults ++ ((c.progs.filter wrong).map fun p =>
        ⟨p.cls, 0x02, p.cla + BitVec.ofNat 64 (4 * (p.idx + 1)), p.code.getD p.idx 0⟩) }

/-- Whether every named class waits at the point or runs no program (R239). -/
def programsMet (s : State) (crew : Nat) (r : RdvzOp) : Bool :=
  r.fn != 13 || (match getCrew s crew with
    | none => true
    | some c => c.progs.all fun p => !r.names p.cls || (match p.waiting with | some (n, _) => n == r.a.toNat | none => false))

/-- The programs released by a thread form of `RDVZ`: one at `RDVZ.end` ends (R239). -/
def releasePrograms (s : State) (crew : Nat) (r : RdvzOp) : State :=
  modCrew s crew fun c =>
    { c with progs := c.progs.filterMap fun p =>
        match p.waiting with
        | some (n, e) =>
          if r.names p.cls ∧ n = r.a.toNat then (if e then none else some { p with waiting := none, idx := p.idx + 1 })
          else some p
        | none => some p }

/-- Whether the instance at a word is complete (R218, R239). -/
def instanceComplete (s : State) (crew : Nat) (r : RdvzOp) (pc : DWord) (level : Nat) : Bool :=
  let js := joinedThreads s crew pc level
  let union := js.foldl (fun m x => m ||| r.mask x.2) 0
  !js.isEmpty && programsMet s crew r
    && (List.range 64).all fun l => !union.getLsbD l || laneArrived s crew pc level l

/-- A lane's halfword tangents under T32 packed two to a slot, or under T16 element 0 only (R225, R83, R74). -/
def bflyHalves (th : Thread) (low : Bool) (own partner : Dexel) : Dexel :=
  let mix := fun (x y : Word) =>
    if low then (x &&& 0xFFFF) ||| (y <<< 16) else (y >>> 16) ||| (x &&& 0xFFFF0000)
  ⟨mix own.val partner.val,
   (slots th).map fun k => if th.lc.t16 then (if low then own.slot k else 0) else mix (own.slot k) (partner.slot k)⟩

/-- The value a joined thread receives from an exchange member that writes a register: `none` keeps register d (R223-R226). -/
def exchange (r : RdvzOp) (l : Nat) (th : Thread) (part : List (Nat × Thread)) : Option Dexel :=
  let bv := fun (x : Thread) => (srcReg x r.b).getD Dexel.zero
  let ctl := fun (x : Thread) => (readReg x r.d.toNat).val.toNat
  let find := fun (n : Nat) => (part.find? fun x => x.1 == n).map (·.2)
  let k := ctl th % 64
  let own := bv th
  if r.fn ≤ 3 then
    let src : Option Nat :=
      if r.fn = 0 then some k else if r.fn = 1 then (if k ≤ l then some (l - k) else none)
      else if r.fn = 2 then (if l + k ≤ 63 then some (l + k) else none) else some (l ^^^ k)
    some (((src.bind find).map bv).getD own)
  else if r.fn = 4 then
    let senders := part.filter fun x => ctl x.2 / 64 % 2 == 0 && ctl x.2 % 64 == l
    (senders.getLast?).map fun x => bv x.2
  else if r.fn = 9 then
    match find (l ^^^ k) with
    | none => some own
    | some p =>
      if ctl th / 64 % 4 = 0 then some (bv p) else some (bflyHalves th (l &&& k == 0) own (bv p))
  else if r.fn = 10 then some (((part[l]?).map fun x => bv x.2).getD Dexel.zero)
  else
    match part.findIdx? fun x => x.1 == l with
    | none => none
    | some i => some (((find i).map bv).getD Dexel.zero)

/-- A joined thread after the instance, with the results of R223-R229 and R239. `union` is the mask of the instance. Where the rules leave a point open: log 26 (DEDUCED, unsafe). -/
def rdvzResult (r : RdvzOp) (l : Nat) (th : Thread) (part : List (Nat × Thread)) (union : DWord) : Thread :=
  let k := joinedLatch th
  let bits := (List.range 64).filterMap fun n =>
    if union.getLsbD n then
      some (match part.find? fun x => x.1 == n with | some x => readPred x.2 r.b.toNat | none => false)
    else none
  let ballot : Nat := part.foldl (fun m x => m + (if readPred x.2 r.b.toNat ∧ union.getLsbD x.1 then 2 ^ x.1 else 0)) 0
  let sum := fun (sh : Nat) => part.foldl (fun n x => n + ((srcReg x.2 r.b).getD Dexel.zero).val.toNat / 2 ^ sh % 65536) 0
  if r.fn = 13 then dropLatch th k
  else if r.fn = 5 then writePred (dropLatch th k) r.d.toNat (bits.all id)
  else if r.fn = 6 then writePred (dropLatch th k) r.d.toNat (bits.any id)
  else if r.fn = 7 then writePred (dropLatch th k) r.d.toNat (bits.all id || bits.all (!·))
  else if r.fn = 8 then putPair th k r.d r.nw (⟨BitVec.ofNat 32 ballot, []⟩, ⟨BitVec.ofNat 32 (ballot / 2 ^ 32), []⟩)
  else if r.fn = 12 then putPair th k r.d r.nw (⟨BitVec.ofNat 32 (sum 0), []⟩, ⟨BitVec.ofNat 32 (sum 16), []⟩)
  else
    match exchange r l th part with
    | some x => putReg th k r.d r.nw x
    -- no register changes: the latch takes d, with its error if it has one
    | none =>
      let th1 := setLatch th k (latch32 (readReg th r.d.toNat))
      if th.poison.contains r.d.toNat then { th1 with poison := th1.poison ++ [60 + k] } else th1

/-- The group that holds a thread. -/
def groupOf (s : State) (t : Nat) : Option Group := (s.opens ++ s.parked).find? fun g => g.members.contains t
/-- A thread taken out of its group. -/
def leaveGroup (s : State) (t : Nat) : State :=
  let out := fun (g : Group) => { g with members := g.members.filter (· != t) }
  { s with opens := s.opens.map out, parked := s.parked.map out }

/-- A waiting thread that takes a trap at the word of its group. -/
def trapWaiting (s : State) (t : Nat) (f : Group → Thread → TrapInfo) : State :=
  match groupOf s t, getThread s t with
  | some g, some th => takeTrap (leaveGroup s t) t (dropLatch th g.latch) (f g th)
  | _, _ => s

/-- An instance completed (R219): the results of every thread that joined with its predicate true, or Illegal Operand in
each of them when they do not present one mask or a `BFLY` control word is illegal (R225); a reported engine fault of a
named class is taken at `RDVZ` (R238). -/
def completeInstance (s0 : State) (crew : Nat) (r : RdvzOp) (pc : DWord) (level : Nat) : State :=
  let js := joinedThreads s0 crew pc level
  let act := js.filter fun x => joinedTrue x.2
  let union := js.foldl (fun m x => m ||| r.mask x.2) 0
  let part := act.filter fun x => union.getLsbD x.1
  let sameMask := match act with | [] => true | x :: xs => xs.all fun y => r.mask y.2 == r.mask x.2
  let badBfly := r.fn == 9 && act.any fun x =>
    let c := (readReg x.2 r.d.toNat).val.toNat
    c % 64 == 0 || decide (c / 64 % 4 ≥ 2)
  let fault := if r.fn = 13 then (getCrew s0 crew).bind fun c => c.faults.find? fun f => r.names f.cls else none
  let s1 := if r.fn = 13 then releasePrograms s0 crew r else s0
  let s2 := match fault with
    | some f => modCrew s1 crew fun c => { c with faults := c.faults.erase f }
    | none => s1
  js.foldl (fun s x =>
    let t := crew * 64 + x.1
    if !joinedTrue x.2 then
      modThread s t fun th => { dropLatch th (joinedLatch th) with wait := some ⟨doneKind, 0, 0⟩ }
    else if !sameMask || badBfly then
      trapWaiting s t fun g th => trapInfoAt g th 0x02 (immediateOf g.word)
    else
      let result := modThread s t fun _ => { rdvzResult r x.1 x.2 part union with wait := some ⟨doneKind, 0, 0⟩ }
      match fault with
      | some f =>
        -- a fault of a copy command is also reported at `WAITB`: once to each thread (R279)
        let mine := fun (q : Report) => q.val == f.addr && q.point != 0
        let twice := f.cls == 2 && f.cause == 0x12
        if twice && !x.2.reports.any mine then result
        else
          let s' := if twice then modThread s t fun th => { th with reports := th.reports.eraseP mine } else s
          trapWaiting s' t fun g th =>
            { trapInfoAt g th 0x12 f.addr with word := f.word, fld0 := tfld0 f.word, fld1 := tfld1 f.word }
      | none => result) s2

/-- An instance completed if it is complete (R218). Whether the fault of a program at a wrong point is reported at the instance that finds
it, R239 does not say: it is (DESIGN CHOICE, unsafe: log 52). -/
def tryInstance (s : State) (crew : Nat) (r : RdvzOp) (pc : DWord) (level : Nat) : State :=
  let s1 := if r.fn = 13 ∧ !(joinedThreads s crew pc level).isEmpty then wrongPoints s crew r else s
  if instanceComplete s1 crew r pc level then completeInstance s1 crew r pc level else s1

/-- The instances that threads of a crew have joined: the instruction, its address and its level (R217). -/
def crewInstances (s : State) (crew : Nat) : List (RdvzOp × DWord × Nat) :=
  ((List.range 64).filterMap fun l =>
    match getThread s (crew * 64 + l) with
    | some th =>
      if (th.wait.map (·.kind)) = some joinedKind then
        ((groupOf s (crew * 64 + l)).bind fun g => rdvzOf g.word).map fun r => (r, th.pc, th.level)
      else none
    | none => none).eraseDups

/-- The instances of crews whose threads have ended completed, if that makes them complete (R218). -/
def settleCrews (s : State) (crews : List Nat) : State :=
  crews.foldl (fun s c => (crewInstances s c).foldl (fun s x => tryInstance s c x.1 x.2.1 x.2.2) s) s

/-- Whether every member of a group is past its rendezvous (R220). -/
def groupDone (s : State) (g : Group) : Bool :=
  g.members.all fun t =>
    match getThread s t with
    | some th => match th.wait with | some w => w.kind == doneKind | none => false
    | none => true

/-- A group past the word at which it waited: its members go on at the next word. -/
def pastWait (s : State) (g : Group) : State :=
  g.members.foldl (fun s t => modThread s t fun th =>
    { th with wait := none, pc := g.pc + 4, status := .issuing }) s

/-- The issuing group after an attempt at a word where it may wait: on to the next word, or parked (R207). -/
def settleIssuing (s : State) : State :=
  match issuing s with
  | none => s
  | some g =>
    if groupDone s g then setIssuing (pastWait s g) { g with idx := g.idx + 1 }
    else g.members.foldl noteBlocked (parkIssuing s g)

/-- The distinct crews of a list of threads. -/
def crewsOf (ts : List Nat) : List Nat :=
  ts.foldl (fun cs t => if cs.contains (threadCrew t) then cs else cs ++ [threadCrew t]) []

/-- The crews with a thread in the issuing group. -/
def issuingCrews (s : State) : List Nat := match issuing s with | some g => crewsOf g.members | none => []

/-- `EXIT` (R162, R173): a thread whose counters do not read zero waits; it holds its word for a report. Instances that
waited for the ended threads complete (R218). -/
def execExit (_n : Bool) (p : BitVec 3) (s : State) : Host.Outcome State Fault Refusal :=
  .next (settleCrews (runControl freeGate p (fun g s t th =>
    let th1 := { dropLatch th g.latch with loops := [], pc := g.pc }
    if countersZero th1 then .left (exitLane g s t th1)
    else .left (noteBlocked { setThread s t { th1 with status := .exiting } with
      parked := s.parked ++ [{ g with members := [t] }] } t)) s) (issuingCrews s))

/-- `HALT` (R190): level 2 only. Instances that waited for the ended threads complete (R218). -/
def execHalt (a : BitVec 6) (_n : Bool) (p : BitVec 3) (s : State) : Host.Outcome State Fault Refusal :=
  .next (settleCrews (runGroup ⟨none, 2, 0⟩ p true (fun g s t th =>
    match srcReg th a with
    | some x => .left (haltThread s t (dropLatch th g.latch) x.val.toNat)
    | none => .trap .operand) s) (issuingCrews s))

/-- A rendezvous instruction over the issuing group (R217): an illegal operand leaves; every other thread joins, whatever
its predicate; complete instances give their results; the group goes on once all of them have (R220). -/
def runRdvz (r : RdvzOp) (p : BitVec 3) (s : State) : State :=
  match issuing s with
  | none => s
  | some g =>
    if g.ahead then parkIssuing s g
    else if interlocked s g then s
    else
      let on := fun (t : Nat) => match getThread s t with | some th => readPred th p.toNat | none => false
      let bad := g.members.filter fun t => on t && (match getThread s t with
        | some th => !(r.legal th) || (poisonedSource th g.word).isSome | none => false)
      let stay := g.members.filter fun t => !bad.contains t
      let s1 := bad.foldl (fun s t => match getThread s t with
        | some th =>
          trapLane g s t th (if r.legal th then .other 0x0B (BitVec.ofNat 64 (2 ^ 63 + (poisonedSource th g.word).getD 0))
            else .operand)
        | none => s) (setIssuing s { g with members := stay })
      let s2 := stay.foldl (fun s t => modThread s t fun th =>
        { th with pc := g.pc, wait := some ⟨joinedKind, (on t).toNat, g.latch⟩ }) s1
      let level := fun (c : Nat) => ((stay.find? fun t => threadCrew t == c).bind fun t =>
        (getThread s2 t).map (·.level)).getD 0
      settleIssuing ((crewsOf stay).foldl (fun s c => tryInstance s c r g.pc (level c)) s2)

/-- `LGET.at` (R223). -/
def execLgetAt (d a b : BitVec 6) (n : Bool) (p : BitVec 3) (s : State) : Host.Outcome State Fault Refusal :=
  .next (runRdvz ⟨0, d, a, b, n⟩ p s)
/-- `LGET.lower` (R223). -/
def execLgetLower (d a b : BitVec 6) (n : Bool) (p : BitVec 3) (s : State) : Host.Outcome State Fault Refusal :=
  .next (runRdvz ⟨1, d, a, b, n⟩ p s)
/-- `LGET.higher` (R223). -/
def execLgetHigher (d a b : BitVec 6) (n : Bool) (p : BitVec 3) (s : State) : Host.Outcome State Fault Refusal :=
  .next (runRdvz ⟨2, d, a, b, n⟩ p s)
/-- `LGET.flip` (R223). -/
def execLgetFlip (d a b : BitVec 6) (n : Bool) (p : BitVec 3) (s : State) : Host.Outcome State Fault Refusal :=
  .next (runRdvz ⟨3, d, a, b, n⟩ p s)
/-- `PUSH` (R224). -/
def execPush (d a b : BitVec 6) (n : Bool) (p : BitVec 3) (s : State) : Host.Outcome State Fault Refusal :=
  .next (runRdvz ⟨4, d, a, b, n⟩ p s)
/-- `VOTE.and` (R227). -/
def execVoteAnd (d a b : BitVec 6) (n : Bool) (p : BitVec 3) (s : State) : Host.Outcome State Fault Refusal :=
  .next (runRdvz ⟨5, d, a, b, n⟩ p s)
/-- `VOTE.or` (R227). -/
def execVoteOr (d a b : BitVec 6) (n : Bool) (p : BitVec 3) (s : State) : Host.Outcome State Fault Refusal :=
  .next (runRdvz ⟨6, d, a, b, n⟩ p s)
/-- `VOTE.eqv` (R227). -/
def execVoteEqv (d a b : BitVec 6) (n : Bool) (p : BitVec 3) (s : State) : Host.Outcome State Fault Refusal :=
  .next (runRdvz ⟨7, d, a, b, n⟩ p s)
/-- `BALLOT` (R227). -/
def execBallot (d a b : BitVec 6) (n : Bool) (p : BitVec 3) (s : State) : Host.Outcome State Fault Refusal :=
  .next (runRdvz ⟨8, d, a, b, n⟩ p s)
/-- `BFLY` (R225). -/
def execBfly (d a b : BitVec 6) (n : Bool) (p : BitVec 3) (s : State) : Host.Outcome State Fault Refusal :=
  .next (runRdvz ⟨9, d, a, b, n⟩ p s)
/-- `COMPRESS` (R226). -/
def execCompress (d a b : BitVec 6) (n : Bool) (p : BitVec 3) (s : State) : Host.Outcome State Fault Refusal :=
  .next (runRdvz ⟨10, d, a, b, n⟩ p s)
/-- `EXPAND` (R226). -/
def execExpand (d a b : BitVec 6) (n : Bool) (p : BitVec 3) (s : State) : Host.Outcome State Fault Refusal :=
  .next (runRdvz ⟨11, d, a, b, n⟩ p s)
/-- `HMERGE` (R229). -/
def execHmerge (d a b : BitVec 6) (n : Bool) (p : BitVec 3) (s : State) : Host.Outcome State Fault Refusal :=
  .next (runRdvz ⟨12, d, a, b, n⟩ p s)
/-- The thread form of `RDVZ` (R239). -/
def execRdvz (a b : BitVec 6) (n : Bool) (p : BitVec 3) (s : State) : Host.Outcome State Fault Refusal :=
  .next (runRdvz ⟨13, 0, a, b, n⟩ p s)

/-- `HIST` in one thread (R228). Where the rules leave a point open: log 43 (DEDUCED, safe). -/
def histThread (k : Nat) (d a : BitVec 6) (n : Nat) (nw : Bool) (th : Thread) : Except Trap Thread :=
  match srcReg th a with
  | some x =>
    if 1 ≤ n ∧ n ≤ 32 ∧ !nw ∧ 1 ≤ d.toNat ∧ d.toNat ≤ 59 ∧ d.toNat + n - 1 < th.lc.regs then
      let i := x.val.toNat
      if i < 2 * n then
        let r := (readReg th (d.toNat + i / 2)).val
        let sh := 16 * (i % 2)
        let bin := r.toNat / 2 ^ sh % 65536
        let y : Dexel := ⟨if bin < 0xFFFF then r + BitVec.ofNat 32 (2 ^ sh) else r, []⟩
        .ok (writeReg (setLatch th k (latch32 y)) (d.toNat + i / 2) y)
      else .ok (dropLatch th k)
    else .error .operand
  | none => .error .operand

/-- `HIST` (R228). Where the rules leave a point open: log 43 (DEDUCED, safe). -/
def execHist (d a b : BitVec 6) (n : Bool) (p : BitVec 3) (s : State) : Host.Outcome State Fault Refusal :=
  .next (runThreads freeGate p true (fun g _ _ th => histThread g.latch d a b.toNat n th) s)

/-- ex(u, m′) of R230: the factor and its flags. -/
def osmxFactor (u m : Nat) : FRes :=
  if u = b32.inf true then ⟨0, 0⟩
  else if !isNaN b32 u ∧ !isNaN b32 m ∧ fcmp (fval b32 u) (fval b32 m) = some .eq then ⟨0x3F800000, 0⟩
  else exp2FVal (addFVal .rne (fval b32 u) (negFVal (fval b32 m)))

/-- The new state of `OSMX` and `OSMXF` (R230, R83) from (m, s) and (m₂, s₂); `one` marks `OSMX`, whose s₂ is 1 with zero
tangents. The last component is the flags. -/
def osmxFold (tf : IeeeFmt) (t : Nat) (one : Bool) (m s m2 s2 : Val) : Val × Val × Word :=
  let sel := dSelect b32 true false m m2
  let m' := sel.bits
  let e1 := osmxFactor m.bits m'
  let e2 := osmxFactor m2.bits m'
  let order := if one then [m2.bits, m.bits, s.bits] else [m2.bits, m.bits, s.bits, s2.bits]
  let prod := if one then ⟨e2.bits, 0⟩ else (⟨0, 0⟩ : FRes)
  let exact2 := if one then fval b32 e2.bits else mulFVal (fval b32 s2.bits) (fval b32 e2.bits)
  let res : FRes :=
    match firstNaN b32 order with
    | some q => ⟨q, snanFlag b32 order⟩
    | none =>
      let r := if one then fpFma b32 .rne false false s.bits e1.bits prod.bits
        else
          match mulFVal (fval b32 s.bits) (fval b32 e1.bits), exact2 with
          | .nan, _ => invalid b32
          | _, .nan => invalid b32
          | x, y => sumFVal b32 .rne x y
      ⟨r.bits, r.flags ||| e1.flags ||| e2.flags⟩
  let f1 := XR.ofFVal (fval b32 e1.bits)
  let f2 := XR.ofFVal (fval b32 e2.bits)
  let sv := XR.ofFVal (fval b32 s.bits)
  let s2v := if one then XR.one else XR.ofFVal (fval b32 s2.bits)
  let dm' : Val := ⟨m', sel.tan⟩
  let tans := (List.range t).map fun k =>
    let d := fun (v : Val) => (tanXR tf v k).add (tanXR tf dm' k).neg
    let z1 := isZero b32 e1.bits
    let z2 := isZero b32 e2.bits
    let r0 := (if z1 then XR.zero else term f1 (tanXR tf s k)).add
      (if z2 || one then XR.zero else term f2 (tanXR tf s2 k))
    let r1 := (if z1 then XR.zero else term (sv.mul f1) (d m)).add (if z2 then XR.zero else term (s2v.mul f2) (d m2))
    troundAffine tf r0 r1 ln2B
  (⟨m', sel.tan⟩, ⟨res.bits, tans.map (·.bits)⟩, tans.foldl (fun f x => f ||| x.flags) (res.flags ||| sel.flags))

/-- The end of `OSMX` and `OSMXF`: the trap of R98 or the pair written. -/
def osmxThread (k : Nat) (d : BitVec 6) (nw one : Bool) (th : Thread) (m2 s2 : Val) : Except Trap Thread :=
  match srcPair th d with
  | some st =>
    if dstPair th d nw then
      let r := osmxFold (tanFmt th) th.lc.tcount one (valOf th st.1) (valOf th st.2) m2 s2
      raising th false r.2.2 fun th => putPair th k d nw (dexelOf r.1, dexelOf r.2.1)
    else .error .operand
  | none => .error .operand

/-- `OSMX` (R230). -/
def execOsmx (d a : BitVec 6) (n : Bool) (p : BitVec 3) (s : State) : Host.Outcome State Fault Refusal :=
  .next (runThreads freeGate p true (fun g _ _ th =>
    match srcReg th a with
    | some x => osmxThread g.latch d n true th (valOf th x) (plain 0x3F800000)
    | none => .error .operand) s)

/-- `OSMXF` (R230). -/
def execOsmxf (d a : BitVec 6) (n : Bool) (p : BitVec 3) (s : State) : Host.Outcome State Fault Refusal :=
  .next (runThreads freeGate p true (fun g _ _ th =>
    match srcPair th a with
    | some x => osmxThread g.latch d n false th (valOf th x.1) (valOf th x.2)
    | none => .error .operand) s)

/-- The members of a group in which a word is active and raises nothing. -/
def legalActive (g : Group) (gate : Gate) (p : BitVec 3) (check : Group → State → Nat → Thread → Option Trap) (s : State) :
    List Nat :=
  g.members.filter fun t =>
    match getThread s t with
    | some th => readPred th p.toNat && !gateFails gate g.core th && (check g s t th).isNone
        && (poisonedSource th g.word).isNone
    | none => false

/-- A word with one effect for the whole group: `eff` acts on the active lanes that raise nothing, then every lane
completes or traps as `laneStep` says; a lane running ahead stops before it (R209). -/
def runWhole (gate : Gate) (p : BitVec 3) (check : Group → State → Nat → Thread → Option Trap)
    (eff : Group → List Nat → State → State) (s : State) : State :=
  match issuing s with
  | none => s
  | some g =>
    if g.ahead then parkIssuing s g
    else if interlocked s g then s
    else
      let r := g.members.foldl (laneStep g gate p fun g _ t th =>
        match check g s t th with
        | some x => .trap x
        | none => .done (setThread s t (dropLatch th g.latch))) (s, [])
      let ok := legalActive g gate p check s
      let lanes := g.members.foldl (laneStep g gate p fun g s' t th =>
        match check g s t th with
        | some x => .trap x
        | none => .done (setThread s' t (dropLatch th g.latch))) (eff g ok s, [])
      setIssuing lanes.1 { g with members := r.2, idx := g.idx + 1 }

/-- A guard slot set in a crew (R231): 0 PENDING, 1 TRUE, 2 FALSE. -/
def setGuard (c : Crew) (slot v : Nat) : Crew := { c with guards := c.guards.set (slot - 1) v }

/-- `GSET` (R231): TRUE if the predicate is true in some active thread of the crew in the group. -/
def execGset (d a : BitVec 6) (_n : Bool) (p : BitVec 3) (s : State) : Host.Outcome State Fault Refusal :=
  .next (runWhole freeGate p (fun _ _ _ _ =>
      if 1 ≤ d.toNat ∧ d.toNat ≤ 7 ∧ a.toNat ≤ 7 then none else some .operand)
    (fun _ ok s => (crewsOf ok).foldl (fun s' c =>
      let v := ok.any fun t => threadCrew t == c && (match getThread s t with | some th => readPred th a.toNat | none => false)
      modCrew s' c fun x => setGuard x d.toNat (if v then 1 else 2)) s) s)

/-- `GSET.open` (R231). -/
def execGsetOpen (d : BitVec 6) (_n : Bool) (p : BitVec 3) (s : State) : Host.Outcome State Fault Refusal :=
  .next (runWhole freeGate p (fun _ _ _ _ => if 1 ≤ d.toNat ∧ d.toNat ≤ 7 then none else some .operand)
    (fun _ ok s => (crewsOf ok).foldl (fun s' c => modCrew s' c fun x => setGuard x d.toNat 0) s) s)

/-- The running programs of a class on a core (R235). -/
def runningPrograms (s : State) (core cls : Nat) : Nat :=
  s.crews.foldl (fun n c => if c.1 / 16 = core then n + (c.2.progs.filter fun p => p.cls == cls).length else n) 0

/-- The class of the program a crew's `FORK` names: the header at the address of its lowest active lane, if it is one of
class 1 or 2 that the core runs and the crew does not (R235). -/
def forkClass (s : State) (core crew : Nat) (th : Thread) (addr : DWord) : Option Nat :=
  match (if addr.toNat % 4 = 0 ∧ addr.toNat < 2 ^ 57 then (fetchWord s core th.lc.asid addr.toNat).2 else .missing 0) with
  | .ok w _ =>
    match decodeHeader w with
    | some h =>
      if (h.cls = 2 ∨ (h.cls = 1 ∧ !isSCore core)) ∧
          !(((getCrew s crew).map fun c => c.progs.any fun p => p.cls == h.cls).getD false) then some h.cls else none
    | none => none
  | _ => none

/-- The lane whose address and pair b a crew's `FORK` takes (R235): its lowest active lane that takes no trap of order 5. Where the rules
leave a point open: log 26 (DEDUCED, unsafe). -/
def forkLane (a b : BitVec 6) (p : BitVec 3) (g : Group) (s : State) (crew : Nat) : Option (Nat × Thread × DWord × (Dexel × Dexel)) :=
  (g.members.filterMap fun u =>
    match getThread s u with
    | some x =>
      if threadCrew u = crew ∧ readPred x p.toNat ∧ (poisonedSource x g.word).isNone then
        (match srcPair x a, srcPair x b with | some y, some z => some (u, x, pairBits y, z) | _, _ => none)
      else none
    | none => none).foldl (fun m x => match m with | none => some x | some y => some (if x.1 < y.1 then x else y)) none

/-- What a `FORK` raises in a thread (R235): Illegal Operand by its own operands; Engine Fault with its address where the crew's address
names no program it can start. -/
def forkCheck (a b : BitVec 6) (p : BitVec 3) (g : Group) (s : State) (t : Nat) (th : Thread) : Option Trap :=
  match srcPair th a, srcPair th b with
  | some x, some _ =>
    match forkLane a b p g s (threadCrew t) with
    | some (_, y, addr, _) => if (forkClass s g.core (threadCrew t) y addr).isSome then none else some (.other 0x12 (pairBits x))
    | none => none
  | _, _ => some .operand

/-- A program started for a crew (R235). -/
def startProgram (s : State) (crew cls : Nat) (addr : DWord) (b : Dexel × Dexel) : State :=
  { (modCrew s crew fun c => { c with
      progs := c.progs ++ [⟨cls, crew, [(1, BitVec.ofNat 32 c.idx), (2, b.1.val), (3, b.2.val)], addr, addr, none, [], 0, [],
        none, s.seqno, 0⟩] }) with seqno := s.seqno + 1 }

/-- `FORK` (R235): held while the sequencer runs four programs. A group of several crews is held whole until there is room for every
program it starts, which the rule does not say (DESIGN CHOICE, unsafe: log 52). -/
def execFork (a b : BitVec 6) (_n : Bool) (p : BitVec 3) (s : State) : Host.Outcome State Fault Refusal :=
  let starts := fun (g : Group) (s : State) (ok : List Nat) =>
    (crewsOf ok).filterMap fun c =>
      (forkLane a b p g s c).bind fun x => (forkClass s g.core c x.2.1 x.2.2.1).map fun cls => (c, cls, x.2.2.1, x.2.2.2)
  .next (match issuing s with
    | none => s
    | some g =>
      let todo := starts g s (legalActive g freeGate p (forkCheck a b p) s)
      let full := [1, 2].any fun cls =>
        let n := (todo.filter fun x => x.2.1 == cls).length
        n != 0 && decide (runningPrograms s g.core cls + n > 4)
      if full then s
      else runWhole freeGate p (forkCheck a b p)
        (fun g ok s => (starts g s ok).foldl (fun s x => startProgram s x.1 x.2.1 x.2.2.1 x.2.2.2) s) s)

/-- A bank with nothing loaded (R243). -/
def Bank.empty : Bank := ⟨false, 0, [], List.replicate 64 0x7F, none, none⟩
/-- An array that no cohort holds, with the values of R243. -/
def Girder.free : Girder := ⟨none, Bank.empty, Bank.empty, 0, 1, none, [], false, false, 0, 0, 0, false, [], [], []⟩
/-- The array of a core. -/
def getGirder (s : State) (core : Nat) : Girder := (getK s.girders core).getD Girder.free
/-- The machine with a core's array set. -/
def putGirder (s : State) (core : Nat) (x : Girder) : State := { s with girders := putK s.girders core x }

/-- `MBURST` on an array (R240, R257): the window opens; an IDLE array ramps up; in ramp-down the ramp-up follows. -/
def Girder.onBurst (x : Girder) : Girder :=
  { x with burst := true, ramp := if x.ramp = 0 then 1 else if x.ramp = 3 then 4 else x.ramp }

/-- `MBURST` (R240): Illegal Instruction on an S-core. -/
def execMburst (a : BitVec 6) (_n : Bool) (p : BitVec 3) (s : State) : Host.Outcome State Fault Refusal :=
  .next (runWhole ⟨none, 0, 1⟩ p (fun _ _ _ th => if (srcReg th a).isSome then none else some .operand)
    (fun g ok s => if ok.isEmpty then s else putGirder s g.core (getGirder s g.core).onBurst) s)

end Sys2Proof.Machine
end

