-- ==== Sys2Proof/Machine/Determ.lean ====
section
/-! DEFINITION. Deterministic nodes: flush points (R363, R364), order-dependence events (R365) and the digest's message
(R366). -/

namespace Sys2Proof.Machine

/-- Whether an entry's function commutes as a `RED` (R365): ADD, MIN, MAX, MINU, MAXU, AND, OR, XOR, ADD64, MAXU64. Where the rules leave a point open: log 23 (DEDUCED, unsafe). -/
def commutes (e : BufEntry) : Bool := e.red && (e.fn ≤ 7 || e.fn == 11 || e.fn == 12)

/-- Whether a list of numbers comes before another of the same length, the first that differs deciding. -/
def listBefore : List Nat → List Nat → Bool
  | x :: xs, y :: ys => decide (x < y) || (x == y && listBefore xs ys)
  | _, _ => false

/-- The order of R364; among threads of several stages with one key the stage decides (DEDUCED, unsafe: log 23). -/
def BufEntry.before (x y : BufEntry) : Bool :=
  listBefore [x.j, x.crew, x.lane, x.n, x.stage] [y.j, y.crew, y.lane, y.n, y.stage]

/-- An entry put into a sorted list. -/
def insertEntry (e : BufEntry) : List BufEntry → List BufEntry
  | [] => [e]
  | x :: xs => if e.before x then e :: x :: xs else x :: insertEntry e xs

/-- The entries in the order of R364. -/
def sortEntries (es : List BufEntry) : List BufEntry := es.foldr insertEntry []

/-- Bytes an atomic function acts on (R163). -/
def fnSize (fn : Nat) : Nat := if fn ≥ 11 then 8 else 4

/-- An entry for an offset of a private window applied: in the resident thread's, else, in a saved one's, where the stack cache left it. Where the rules leave a point open: log 22 (DEDUCED, unsafe). -/
def applyWindow (asid off : Nat) (s : State) (e : BufEntry) : State :=
  let size := fnSize e.fn
  match s.threads.find? fun x => x.2.lc.cohort == e.cohort && x.2.lc.crew == e.crew && threadLane x.1 == e.lane with
  | some x =>
    let r := readWindow s x.1 off size
    match if windowPoisoned r.1 x.1 off then none else atomNew e.fn size (ofBytes r.2) e.b0 e.b1 with
    | some v => writeWindow r.1 x.1 off (toBytes size v)
    | none => r.1
  | none =>
    match ((getCohort s e.cohort).map (·.saved)).getD [] |>.find? fun x => x.thread.lc.crew == e.crew && x.lane == e.lane with
    | none => s
    | some x =>
      match walk s asid (x.thread.stkbase.toNat + off) with
      | .page v _ pa .. =>
        let at' := pa + (x.thread.stkbase.toNat + off - v)
        match atomNew e.fn size (readNum s (keyOf s asid) at' size) e.b0 e.b1 with
        | some v => (arrive s (keyOf s asid) 0 at' (toBytes size v)).1
        | none => s
      | _ => s

/-- One entry applied under R164; `cohortFlush` says that it is applied at a cohort flush point (R365). -/
def applyEntry (node asid : Nat) (cohortFlush : Bool) (s : State) (e : BufEntry) : State :=
  let size := fnSize e.fn
  let key := keyOf s asid
  if e.loc ∧ 2 ^ 31 ≤ e.addr then applyWindow asid (e.addr - 2 ^ 31) s e
  else if e.loc then
    let old := ofBytes (readScratch s e.cohort e.addr size)
    match atomNew e.fn size old e.b0 e.b1 with
    | some v => writeScratch s e.cohort e.addr (toBytes size v)
    | none => s
  else
    let old := ofBytes (readBytes s key e.addr size)
    match atomNew e.fn size old e.b0 e.b1 with
    | some v =>
      let r := arrive s key e.stamp e.addr (toBytes size v)
      noteWrite (noteGwct r.1 node r.2) node e.j e.va size (if !cohortFlush then 1 else if commutes e then 2 else 3)
    | none => s

/-- The entries of which `p` holds applied and taken out of a node's buffer (R364). -/
def flushEntries (s : State) (node : Nat) (cohortFlush : Bool) (p : BufEntry → Bool) : State :=
  match getNode s node with
  | none => s
  | some n =>
    let s1 := modNode s node fun n => { n with buffer := n.buffer.filter fun e => !p e }
    (sortEntries (n.buffer.filter p)).foldl (applyEntry node n.asid cohortFlush) s1

/-- Ready compute nodes in the pool of a die; it holds 16,384 (R328). -/
def poolCount (s : State) (die : Nat) : Nat :=
  (s.nodes.filter fun e => e.2.die == die && e.2.phase == 1 && decide (e.2.kind ≤ 1) && e.2.pooled).length

/-- A node that becomes ready on a die at a tick (R328): outside the pool when that is full. -/
def makeReady (s : State) (node die tick : Nat) : State :=
  modNode s node fun n => { n with phase := 1, die := die, ready := tick, pooled := decide (2 ≤ n.kind) || decide (poolCount s die < 16384) }

/-- Whether a held launch comes before another (R336). -/
def heldBefore (x y : HeldLaunch) : Bool := listBefore [x.j, x.crew, x.lane, x.n, x.stage] [y.j, y.crew, y.lane, y.n, y.stage]
/-- A held launch put into a sorted list. -/
def insertHeld (e : HeldLaunch) : List HeldLaunch → List HeldLaunch
  | [] => [e]
  | x :: xs => if heldBefore e x then e :: x :: xs else x :: insertHeld e xs

/-- Bytes of a node's virtual memory within one page as they stand, through the tables as they are (R348). -/
def peekVa (s : State) (asid va n : Nat) : Option Nat :=
  match walk s asid va with
  | .page v _ pa .. => some (readNum s (keyOf s asid) (pa + (va - v)) n)
  | _ => none

/-- A held child enters the graph at a flush point (R336): ready if its PRED is 0, else left to its predecessors. -/
def enterChild (s : State) (child : Nat) : State :=
  match getNode s child with
  | none => s
  | some c =>
    if peekVa s c.asid (c.addr + 32) 4 = some 0 then makeReady s child c.die s.span
    else modNode s child fun c => { c with phase := 0 }

/-- The held launches of which `p` holds (by cohort) enter the graph in the order of R336. -/
def enterHeld (s : State) (node : Nat) (p : Nat → Bool) : State :=
  match getNode s node with
  | none => s
  | some n =>
    let go := (n.held.filter fun h => p h.cohort).foldr insertHeld []
    go.foldl (fun s h => enterChild s h.child) (modNode s node fun n => { n with held := n.held.filter fun h => !p h.cohort })

/-- A cohort flush point (R363): the entries of one cohort's threads, and its held launches (R336). -/
def flushCohort (s : State) (node c : Nat) : State :=
  enterHeld (modNode (flushEntries s node true fun e => e.cohort == c) node fun n => { n with bases := putK n.bases (c + 1) [] }) node (· == c)

/-- Whether a line has an order-dependence event in an interval (R365). -/
def LineLog.event (l : LineLog) : Bool :=
  (decide (2 ≤ l.cohorts.length) && l.direct) || (decide (2 ≤ l.flushed.length) && !l.commuting)

/-- The 16-byte mask of a line's written offsets (R366). -/
def maskBytes (offs : List Nat) : List Byte :=
  (List.range 16).map fun i =>
    BitVec.ofNat 8 ((List.range 8).foldl (fun m b => if offs.contains (8 * i + b) then m + 2 ^ b else m) 0)

/-- A byte of a node's virtual memory as it stands. -/
def readVa (s : State) (asid va : Nat) : Byte := BitVec.ofNat 8 ((peekVa s asid va 1).getD 0)

/-- What an interval adds to the message (R366). -/
def intervalMessage (s : State) (n : Node) : List Byte :=
  toBytes 8 n.interval ++ toBytes 8 n.lines.length ++ n.lines.flatMap fun l =>
    let offs := (List.range 128).filter l.2.offs.contains
    toBytes 8 (l.1 * 128) ++ maskBytes offs ++ offs.map fun o => readVa s n.asid (l.1 * 128 + o)

/-- Numbers put into an ascending list without repeats, at most 64 kept (R365). -/
def insertLine (x : Nat) : List Nat → List Nat
  | [] => [x]
  | y :: ys => if x = y then y :: ys else if x < y then x :: y :: ys else y :: insertLine x ys

/-- The end of an interval of a deterministic node (R363, R365, R366). -/
def closeInterval (s : State) (node : Nat) : State :=
  match getNode s node with
  | none => s
  | some n =>
    if !n.det then s
    else
      let ev := n.lines.filter fun l => l.2.event
      modNode s node fun x =>
        { x with
          message := x.message ++ intervalMessage s n
          odEvents := x.odEvents + ev.length
          odLines := (ev.foldl (fun ls l => insertLine (l.1 * 128) ls) x.odLines).take 64
          lines := []
          interval := x.interval + 1
          bases := [(0, [])] }

/-- A node-wide flush point (R363): every buffered entry of a deterministic node, then the end of its interval. Where the rules leave a point open: log 22 (DEDUCED, unsafe). -/
def flushNode (s : State) (node : Nat) : State :=
  match getNode s node with
  | none => s
  | some n => if n.det then enterHeld (closeInterval (flushEntries s node false fun _ => true) node) node fun _ => true else s

end Sys2Proof.Machine
end

