-- ==== Sys2Proof/Machine/Sync.lean ====
section
/-! DEFINITION. The `SYNC` family (R285-R292): fences, watches, barriers, copy batches, `TRIG` and `FLUSHD`, and how a parked
group goes on (R207). -/

namespace Sys2Proof.Machine

/-- A `SYNC` member: fn 0-9 of R285, the d, a and b fields; b holds the scope of `FENCE`, `BAR` and `BARA`. -/
structure SyncOp where
  fn : Nat
  d : BitVec 6
  a : BitVec 6
  b : BitVec 6
  nw : Bool
deriving DecidableEq, Repr

/-- The `SYNC` member of a word. -/
def syncOf (w : Word) : Option SyncOp :=
  if (opF w).toNat = 0x2B ∧ (fnF w).toNat ≤ 9 then some ⟨(fnF w).toNat, dF w, aF w, bF w, nF w⟩ else none

/-- The crews of a cohort stand on several cores (R271). -/
def spreadCohort (s : State) (c : Nat) : Bool :=
  match getCohort s c with
  | some x => match x.crews with | [] => false | k :: ks => ks.any fun k' => k' / 16 != k / 16
  | none => false

/-- The narrowest legal scope of a cohort's barriers (R287). -/
def barrierScope (s : State) (c : Nat) : Nat :=
  if spreadCohort s c || (((getCohort s c).bind fun x => (getNode s x.node).map (·.spread)).getD false) then 2
  else if decide (((getCohort s c).map fun x => x.crews.length).getD 1 > 1) then 1 else 0

/-- What a `SYNC` member raises in a thread before it waits (R285, R287, R289, R45). -/
def SyncOp.check (r : SyncOp) (s : State) (th : Thread) : Option Trap :=
  if r.fn = 0 then (if r.b.toNat ≤ 5 ∨ r.b.toNat = 7 then none else some .operand)
  else if r.fn = 1 then
    match srcPair th r.a with
    | some x => if (pairBits x).toNat < 2 ^ 57 then none else some (.other 0x07 (pairBits x))
    | none => some .operand
  else if r.fn = 2 then (if dstReg th r.d r.nw && (srcReg th r.a).isSome then none else some .operand)
  else if r.fn = 3 ∨ r.fn = 4 then
    (if r.a.toNat < 16 ∧ r.b.toNat ≤ 5 ∧ barrierScope s th.lc.cohort ≤ r.b.toNat then none else some .operand)
  else if r.fn = 5 then (if r.a.toNat < 16 then none else some .operand)
  else if r.fn = 6 then (if dstReg th r.d r.nw then none else some .operand)
  else if r.fn = 7 then (if (srcReg th r.a).isSome then none else some .operand)
  else none

/-- Whether the waits of a fence of a scope are over (R286, R354). -/
def fenceMet (s : State) (t : Nat) (th : Thread) (scope : Nat) : Bool :=
  scope == 7 || ((s.access.all fun a => a.thread != t) && (decide (scope ≤ 2) || decide (th.wct ≤ s.span)))

/-- A thread marked done at its word. -/
def doneAt (s : State) (t : Nat) (f : Thread → Thread) : State :=
  modThread s t fun th => { f th with wait := some ⟨doneKind, 0, 0⟩, answers := [] }

/-- The acquire half of a fence (R355): at cluster scope, unless the cluster is fused, no earlier copy serves a later read of the thread, nor
one of a thread of its core that learns of it at a narrower scope (R358). -/
def acquireAt (s : State) (t scope : Nat) : State :=
  if scope = 2 ∧ !(s.fusedClusters.contains (clusterNo (threadCore t))) then
    { s with acquired := putK s.acquired (threadCore t) s.seqno, seqno := s.seqno + 1 }
  else s

/-- A barrier of a cohort. -/
def getBarrier (x : Cohort) (k : Nat) : Barrier := (getK x.barriers k).getD ⟨0, [], []⟩

/-- The threads with their numbers. -/
def allThreads (s : State) : List (Nat × Thread) := s.threads.filterMap fun e => (getThread s e.1).map fun x => (e.1, x)
/-- The threads of a cohort. -/
def cohortThreads (s : State) (c : Nat) : List (Nat × Thread) := (allThreads s).filter fun e => e.2.lc.cohort == c

/-- Whether a barrier's phase has every thread of its expected set (R287). -/
def phaseFull (s : State) (c : Nat) (b : Barrier) : Bool :=
  let live := (cohortThreads s c).filter fun e => !e.2.over
  !live.isEmpty && live.all fun e => b.arrivals.any fun a => a.1 == e.1

/-- Whether a node's buffer holds entries that a flush point is to apply. -/
def unflushed (s : State) (node : Nat) (p : BufEntry → Bool) : Bool := ((getNode s node).map fun n => n.buffer.any p).getD false
/-- Whether what a node's flush point has applied is performed (R354, R363). Where the rules leave a point open: log 22 (DEDUCED, unsafe). -/
def flushPerformed (s : State) (node : Nat) : Bool := decide ((((getNode s node).map (·.maxGwct)).getD 0) ≤ s.span)

/-- A phase completed if it is full (R287): at a flush point its entries are applied first, and it completes once they are performed
(R288, R363). Where the rules leave a point open: log 32 (DEDUCED, unsafe). -/
def completePhase (s : State) (c k : Nat) : State :=
  match getCohort s c with
  | none => s
  | some x =>
    let b := getBarrier x k
    let wide := ((getNode s x.node).map (·.det)).getD false && b.arrivals.any fun a => decide (a.2 ≥ 3)
    if !phaseFull s c b then s
    else if wide && unflushed s x.node (·.cohort == c) then flushEntries s x.node true (·.cohort == c)
    else if wide && !flushPerformed s x.node then s
    else
      let s1 := if wide then flushCohort s x.node c else s
      let s2 := if b.arrivals.any fun a => a.2 == 2 then
        (cohortThreads s1 c).foldl (fun s e => acquireAt s e.1 2) s1 else s1
      -- what an arriving thread knows of write completion is known to every thread after the phase (R358)
      let w := b.arrivals.foldl (fun m a => Nat.max m (((getThread s a.1).map (·.wct)).getD 0)) 0
      let s3 := (cohortThreads s2 c).foldl (fun s e => modThread s e.1 fun th => mergeWct th w) s2
      modCohort s3 c fun x => { x with barriers := putK x.barriers k { b with phase := b.phase + 1, arrivals := [] } }

/-- Whether a thread has an arrival at a barrier to a phase that is not complete (R287). -/
def outstanding (b : Barrier) (t : Nat) : Bool := b.arrivals.any fun a => a.1 == t

/-- `WaitRec` kinds of `SYNC`: started; at `WAITM` with its deadline (0: none); at `BAR` after its arrival; at `FLUSHD`
after its release waits. -/
def startedKind : Nat := 40
/-- See `startedKind`. -/
def waitmKind : Nat := 41
/-- See `startedKind`. -/
def arrivedKind : Nat := 42
/-- See `startedKind`. -/
def flushdKind : Nat := 43

/-- Whether n covers batch k (R281). -/
def coversBatch (n : Word) (k : Nat) : Bool := decide ((n - BitVec.ofNat 32 k).toNat < 2 ^ 31)

/-- The queue number of a core's engine class: CPY 0, MTX 1, SPL 2, SLV 3, COL 4, GRF 5, PRB 6. -/
def queueNo (core cls : Nat) : Nat := core * 8 + cls
/-- A queue. -/
def getQueue (s : State) (core cls : Nat) : List QEntry := (getK s.queues (queueNo core cls)).getD []
/-- The machine with a queue set. -/
def putQueue (s : State) (core cls : Nat) (q : List QEntry) : State := { s with queues := putK s.queues (queueNo core cls) q }

/-- The lanes of a copy queue's entry whose commands are not complete: an entry by threads runs lane by lane, and `aux` counts those done;
a region command or one of an engine program belongs to every lane (R276, R277). -/
def lanesLeft (e : QEntry) : List LaneOps :=
  if e.prog || decide ((cmdF e.word).toNat ≥ 5) then e.ops else e.ops.drop (e.aux.headD 0)

/-- Whether a copy tagged in a thread with a covered batch is not complete (R281). -/
def copyPending (s : State) (t : Nat) (n : Word) : Bool :=
  (getQueue s (threadCore t) 0).any fun e => (lanesLeft e).any fun o => o.thread == t && coversBatch n o.batch

/-- Reports that a `WAITB` of n takes (R279): those of a copy of a covered batch. -/
def Report.atWaitb (r : Report) (n : Word) : Bool := r.point != 0 && coversBatch n ((r.point - 1) / 2)

/-- Whether every launched thread of a node's grid has executed `FLUSHD` or exited, and some wait in it (R291). -/
def flushdFull (s : State) (node : Nat) : Bool :=
  let waits := fun (th : Thread) => th.over || (match th.wait with | some w => w.kind == flushdKind | none => false)
  let stands := fun (th : Thread) => decide (th.lc.node = node) && !th.over && waits th
  match getNode s node with
  | none => false
  | some n =>
    (((allThreads s).any fun e => stands e.2) || s.cohorts.any fun c => c.2.saved.any fun v => stands v.thread)
      && decide (n.nextUnit ≥ unitsOf n) && ((allThreads s).all fun e => e.2.lc.node != node || waits e.2)
      && (s.cohorts.all fun c => c.2.node != node || c.2.saved.all fun v => waits v.thread)

/-- `FLUSHD` completed if it is full (R291): the buffered entries applied, then, once they are performed, every waiting thread goes
on. -/
def completeFlushd (s : State) (node : Nat) : State :=
  let det := ((getNode s node).map (·.det)).getD false
  if !flushdFull s node then s
  else if det && unflushed s node (fun _ => true) then flushEntries s node false fun _ => true
  else if det && !flushPerformed s node then s
  else
    let s1 := flushNode s node
    let go := fun (th : Thread) =>
      match th.wait with
      | some w => if w.kind = flushdKind ∧ th.lc.node = node then { th with wait := some ⟨doneKind, 0, 0⟩ } else th
      | none => th
    { s1 with
      threads := s1.threads.map fun e => (e.1, go e.2)
      cohorts := s1.cohorts.map fun c => (c.1, { c.2 with saved := c.2.saved.map fun v => { v with thread := go v.thread } }) }

/-- The arrival of a thread at a barrier (R287). -/
def arriveBarrier (s : State) (t : Nat) (th : Thread) (k scope : Nat) : State :=
  modCohort s th.lc.cohort fun x =>
    let b := getBarrier x k
    { x with barriers := putK x.barriers k { b with arrivals := b.arrivals ++ [(t, scope)], last := putK b.last t b.phase } }

/-- The copies of a line from which a core would be served, dropped (R361). -/
def dropNearCopies (s : State) (core line : Nat) : State :=
  { s with copies := s.copies.filter fun c =>
      !(c.line == line && ((c.place, c.unit) == nearPlace s core || (c.place, c.unit) == (2, coreDie core))) }

/-- One attempt of a `SYNC` member in a thread whose operands are legal: it is marked done, it waits, or it leaves its
group with a trap. -/
def syncStep (r : SyncOp) (latch : Nat) (s : State) (t : Nat) : State :=
  match getThread s t with
  | none => s
  | some th =>
    match th.wait with
    | some ⟨31, _, _⟩ => s
    | _ =>
    let barrier := ((getCohort s th.lc.cohort).map fun x => getBarrier x r.a.toNat).getD ⟨0, [], []⟩
    let arrived := match th.wait with | some w => w.kind == arrivedKind | none => false
    let drop := fun (th : Thread) => dropLatch th latch
    if r.fn = 0 then (if fenceMet s t th r.b.toNat then doneAt (acquireAt s t r.b.toNat) t drop else s)
    else if r.fn = 1 then
      let va := (((srcPair th r.a).map pairBits).getD 0).toNat
      let core := threadCore t
      let tr := translate s (tlbUnits core) th.lc.asid va .read
      match tr.2 with
      | .ok e =>
        if poisoned tr.1 (paOf e va) then trapWaiting tr.1 t fun g th => trapInfoAt g th 0x0B (BitVec.ofNat 64 va)
        else doneAt tr.1 t fun th => { drop th with watch := some (lineOf (paOf e va), false) }
      | .fatal c => trapWaiting tr.1 t fun g th => trapInfoAt g th c (BitVec.ofNat 64 va)
      | .fault =>
        match answerFor th va with
        | some code => trapWaiting tr.1 t fun g th => trapInfoAt g th code (BitVec.ofNat 64 va)
        | none =>
          if s.faults.any fun e => e.2.reqs.contains (.watch t) then s
          else (raiseFault tr.1 (coreDie core) th.lc.asid va .read 0 (unitOf core) (.watch t)).getD s
    else if r.fn = 2 then
      let n := ((srcReg th r.a).getD Dexel.zero).val.toNat
      let finish := fun (v : Word) (w : Option (Nat × Bool)) =>
        doneAt s t fun th => { putReg th latch r.d r.nw ⟨v, []⟩ with watch := w }
      match th.watch with
      | none => finish 2 none
      | some (l, true) =>
        -- the next read of the line returns the firing write or a later one (R361)
        doneAt (dropNearCopies s (threadCore t) l) t fun th => { putReg th latch r.d r.nw ⟨1, []⟩ with watch := none }
      | some (l, false) =>
        match th.wait with
        | some ⟨41, deadline, _⟩ => if deadline ≠ 0 ∧ deadline ≤ s.span then finish 0 (some (l, false)) else s
        | _ => modThread s t fun th => { th with wait := some ⟨waitmKind, if n = 0 then 0 else s.span + n, 0⟩ }
    else if r.fn = 3 then
      if arrived then (if outstanding barrier t then s else doneAt s t drop)
      else if outstanding barrier t || !fenceMet s t th r.b.toNat then s
      else
        let s1 := completePhase (modThread (arriveBarrier s t th r.a.toNat r.b.toNat) t fun th =>
          { th with wait := some ⟨arrivedKind, 0, 0⟩ }) th.lc.cohort r.a.toNat
        let b1 := ((getCohort s1 th.lc.cohort).map fun x => getBarrier x r.a.toNat).getD ⟨0, [], []⟩
        if outstanding b1 t then s1 else doneAt s1 t drop
    else if r.fn = 4 then
      if outstanding barrier t || !fenceMet s t th r.b.toNat then s
      else doneAt (completePhase (arriveBarrier s t th r.a.toNat r.b.toNat) th.lc.cohort r.a.toNat) t drop
    else if r.fn = 5 then (if outstanding barrier t then s else doneAt s t drop)
    else if r.fn = 6 then
      doneAt s t fun th =>
        { putReg th latch r.d r.nw ⟨BitVec.ofNat 32 th.batch, []⟩ with batch := (th.batch + 1) % 2 ^ 32 }
    else if r.fn = 7 then
      let n := ((srcReg th r.a).getD Dexel.zero).val
      if copyPending s t n then s
      else
        match takeReport th (fun x => x.atWaitb n) with
        | some ((x : Report), th') => trapWaiting (setThread s t th') t fun g th => trapInfoAt g th x.cause x.val
        | none => doneAt s t drop
    else if r.fn = 8 then
      if th.triggered then doneAt s t drop
      else if fenceMet s t th 4 then
        noteTrigger (doneAt (modNode s th.lc.node fun n => { n with trigThreads := n.trigThreads + 1 }) t fun th =>
          { drop th with triggered := true }) th.lc.node
      else s
    else
      match th.wait with
      | some ⟨43, _, _⟩ => s
      | _ =>
        if fenceMet s t th 3 then
          completeFlushd (modThread s t fun th => { drop th with wait := some ⟨flushdKind, 0, 0⟩ }) th.lc.node
        else s

/-- A `SYNC` member over the issuing group: a lane with an illegal operand leaves; the others make their attempt; the group
goes on, or is parked (R207). -/
def runSync (r : SyncOp) (p : BitVec 3) (s : State) : State :=
  match issuing s with
  | none => s
  | some g =>
    if g.ahead then parkIssuing s g
    else if interlocked s g then s
    else
      let on := fun (t : Nat) => match getThread s t with | some th => readPred th p.toNat | none => false
      let chk := fun (th : Thread) =>
        match r.check s th with
        | some x => some x
        | none => (poisonedSource th g.word).map fun c => Trap.other 0x0B (BitVec.ofNat 64 (2 ^ 63 + c))
      let bad := g.members.filter fun t => on t && (match getThread s t with | some th => (chk th).isSome | none => false)
      let stay := g.members.filter fun t => !bad.contains t
      let s1 := bad.foldl (fun s t => match getThread s t with
        | some th => (match chk th with | some x => trapLane g s t th x | none => s)
        | none => s) (setIssuing s { g with members := stay })
      let s2 := stay.foldl (fun s t => modThread s t fun th =>
        if on t then { th with pc := g.pc, wait := some ⟨startedKind, 0, 0⟩ }
        else { dropLatch th g.latch with pc := g.pc, wait := some ⟨doneKind, 0, 0⟩ }) s1
      settleIssuing (stay.foldl (syncStep r g.latch) s2)

/-- `FENCE` (R286). -/
def execFence (sc : BitVec 3) (n : Bool) (p : BitVec 3) (s : State) : Host.Outcome State Fault Refusal :=
  .next (runSync ⟨0, 0, 0, sc.setWidth 6, n⟩ p s)
/-- `WATCH` (R289). -/
def execWatch (a : BitVec 6) (n : Bool) (p : BitVec 3) (s : State) : Host.Outcome State Fault Refusal :=
  .next (runSync ⟨1, 0, a, 0, n⟩ p s)
/-- `WAITM` (R289). -/
def execWaitm (d a : BitVec 6) (n : Bool) (p : BitVec 3) (s : State) : Host.Outcome State Fault Refusal :=
  .next (runSync ⟨2, d, a, 0, n⟩ p s)
/-- `BAR` (R287). -/
def execBar (a : BitVec 6) (sc : BitVec 3) (n : Bool) (p : BitVec 3) (s : State) : Host.Outcome State Fault Refusal :=
  .next (runSync ⟨3, 0, a, sc.setWidth 6, n⟩ p s)
/-- `BARA` (R287). -/
def execBara (a : BitVec 6) (sc : BitVec 3) (n : Bool) (p : BitVec 3) (s : State) : Host.Outcome State Fault Refusal :=
  .next (runSync ⟨4, 0, a, sc.setWidth 6, n⟩ p s)
/-- `BARW` (R287). -/
def execBarw (a : BitVec 6) (n : Bool) (p : BitVec 3) (s : State) : Host.Outcome State Fault Refusal :=
  .next (runSync ⟨5, 0, a, 0, n⟩ p s)
/-- `SEAL` (R280). -/
def execSeal (d : BitVec 6) (n : Bool) (p : BitVec 3) (s : State) : Host.Outcome State Fault Refusal :=
  .next (runSync ⟨6, d, 0, 0, n⟩ p s)
/-- `WAITB` (R281). -/
def execWaitb (a : BitVec 6) (n : Bool) (p : BitVec 3) (s : State) : Host.Outcome State Fault Refusal :=
  .next (runSync ⟨7, 0, a, 0, n⟩ p s)
/-- `TRIG` (R290). -/
def execTrig (n : Bool) (p : BitVec 3) (s : State) : Host.Outcome State Fault Refusal :=
  .next (runSync ⟨8, 0, 0, 0, n⟩ p s)
/-- `FLUSHD` (R291). -/
def execFlushd (n : Bool) (p : BitVec 3) (s : State) : Host.Outcome State Fault Refusal :=
  .next (runSync ⟨9, 0, 0, 0, n⟩ p s)

end Sys2Proof.Machine
end

