-- ==== Sys2Proof/Machine/Engine.lean ====
section
/-! DEFINITION. Engine commands: placing format-C words in queues (R232, R249, R275, R300, R335), guards at the queue head (R233,
R234), replies, engine faults and their reports (R238, R247, R279), and the engines' accesses to global memory (R359). -/

namespace Sys2Proof.Machine

/-- How a format-C field is used: not at all, a register, a pair, a block of 4 (R275), or the first of n registers that lies
between 1 and a bound (R245, R335). -/
inductive CmdField where
  | none
  | reg
  | pair
  | block
  | first (n hi : Nat)
deriving DecidableEq, Repr

/-- The registers of a field as a destination or a block. -/
def CmdField.regs (k : CmdField) (c : BitVec 6) : List Nat :=
  match k with
  | .none => []
  | .reg => [c.toNat]
  | .pair => [c.toNat, c.toNat + 1]
  | .block => [c.toNat, c.toNat + 1, c.toNat + 2, c.toNat + 3]
  | .first n _ => (List.range n).map (· + c.toNat)

/-- Whether a block or run of registers is legal. -/
def runLegal (th : Thread) (k : CmdField) (c : BitVec 6) : Bool :=
  match k with
  | .block => decide (c.toNat % 4 = 0) && decide (4 ≤ c.toNat) && decide (c.toNat + 3 < th.lc.regs) && decide (c.toNat < 60)
  | .first n hi => decide (1 ≤ c.toNat) && decide (c.toNat ≤ hi) && decide (c.toNat + n - 1 < th.lc.regs)
  | _ => true

/-- A source field's words; `none` is Illegal Operand. -/
def readField (th : Thread) (k : CmdField) (c : BitVec 6) : Option (List Word) :=
  match k with
  | .none => some []
  | .reg => (srcReg th c).map fun x => [x.val]
  | .pair => (srcPair th c).map fun x => [x.1.val, x.2.val]
  | k => if runLegal th k c then some ((k.regs c).map fun r => (readReg th r).val) else Option.none

/-- Whether the destination field of a reply is legal. Code 0 discards the value, of a pair too (R39; R37 names no pair 0: DEDUCED,
unsafe: log 46). -/
def destLegal (th : Thread) (k : CmdField) (c : BitVec 6) : Bool :=
  match k with
  | .none => true
  | .reg => dstReg th c false
  | .pair => decide (c = 0) || dstPair th c false
  | k => runLegal th k c

/-- A command as its class and fields: d, a, b. -/
structure Cmd where
  cls : Nat
  d : CmdField
  a : CmdField
  b : CmdField
  reply : Bool
deriving DecidableEq, Repr

/-- The fields of a format-C word (R245, R275, R293, R300, R335, R377, R416). -/
def cmdOf (w : Word) : Cmd :=
  let cls := (opF w).toNat - 0x38
  let cmd := (cmdF w).toNat
  let k := fun (d a b : CmdField) => Cmd.mk cls d a b (repF w)
  if cls = 0 then
    (if cmd = 0 ∨ cmd = 1 ∨ cmd = 4 then k .none .pair .pair
     else if cmd = 2 ∨ cmd = 3 ∨ cmd = 5 then k .none .pair .block else k .none .none .reg)
  else if cls = 1 then
    (if cmd = 0 ∨ cmd = 1 ∨ cmd = 3 then k .none .pair .reg
     else if cmd = 2 ∨ cmd = 4 then k .none .none .none
     else if cmd = 5 then k .none .none .reg
     else if cmd = 6 then k (.first 8 52) .reg .none
     else if cmd = 7 then k .none .reg (.first 8 52)
     else if cmd = 8 then k .reg .pair .pair
     else if cmd = 9 then k .reg .pair .reg
     else k .pair .none .none)
  else if cls = 2 ∨ cls = 3 then (if cmd = 0 then k .none .pair .none else k .reg .pair .none)
  else if cls = 4 then
    (if cmd = 0 then (if (vF w).toNat = 0 then k .reg .pair .reg else k .none .none .reg)
     else if cmd = 6 then k .reg .reg .reg else k .reg .pair .none)
  else if cls = 5 then
    (if cmd = 0 then k .reg .pair .none else if cmd = 1 then k .none .none (.first 3 57)
     else if cmd = 2 then k (.first 4 56) .none .none else k .none .pair .none)
  else if cmd = 0 then k .none .reg .reg else if cmd = 1 then k .none .none .none else k .reg .reg .none

/-- The registers a reply writes; those of code 0 are discarded. -/
def replyRegs (w : Word) : List Nat :=
  let c := cmdOf w
  if c.reply ∧ dF w ≠ 0 then c.d.regs (dF w) else []

/-- What a format-C word raises in a thread (R51, order 5). -/
def cmdCheck (w : Word) (th : Thread) : Option Trap :=
  let c := cmdOf w
  if destLegal th c.d (dF w) && (readField th c.a (aF w)).isSome && (readField th c.b (bF w)).isSome then none else some .operand

/-- A lane's operands. -/
def laneOps (w : Word) (t : Nat) (th : Thread) : LaneOps :=
  let c := cmdOf w
  ⟨threadLane t, t, (readField th c.a (aF w)).getD [], (readField th c.b (bF w)).getD [], th.batch⟩

/-- The cohort that holds the unit a command needs (R242, R298). -/
def unitOwner (s : State) (core cls : Nat) : Option Nat :=
  if cls = 1 then (getGirder s core).owner
  else if cls = 2 then (getK s.scarabs core).bind (·.owner) else none

/-- The pipeline of a core that no cohort holds (R299). -/
def Scarab.free : Scarab := ⟨none, [], 0x39000000, false, 0, 0⟩
/-- The Scarab pipeline of a core. -/
def getScarab (s : State) (core : Nat) : Scarab := (getK s.scarabs core).getD Scarab.free

/-- A free unit claimed for a cohort with the state of R243 or R299. -/
def claimUnit (s : State) (core cls cohort : Nat) : State :=
  if (unitOwner s core cls).isSome then s
  else if cls = 1 then
    putGirder s core { Girder.free with owner := some cohort, ramp := (getGirder s core).ramp, burst := (getGirder s core).burst }
  else if cls = 2 then { s with scarabs := putK s.scarabs core { Scarab.free with owner := some cohort } }
  else s

/-- The cohort of a crew. -/
def crewCohort (s : State) (crew : Nat) : Nat := ((getCrew s crew).map (·.cohort)).getD 0

/-- A number put into an ascending list. -/
def insertAscending : List Nat → Nat → List Nat
  | [], x => [x]
  | y :: ys, x => if x ≤ y then x :: y :: ys else y :: insertAscending ys x

/-- The entries a word places, one for each crew with a lane, in ascending slot (R232). -/
def entriesOf (s : State) (g : Group) (w : Word) (ok : List Nat) : List QEntry :=
  let crews := (crewsOf ok).foldl insertAscending []
  crews.map fun c =>
    let ops := (List.range 64).filterMap fun l =>
      if ok.contains (c * 64 + l) then (getThread s (c * 64 + l)).map (laneOps w (c * 64 + l)) else none
    ⟨s.seqno + c + 1, w, g.pc, c, crewCohort s c, ops, g.hdr.guard, g.hdr.sense, false, 0, [], []⟩

/-- The ASID of a crew. -/
def crewAsid (s : State) (crew : Nat) : Nat :=
  (((getCohort s (crewCohort s crew)).bind fun c => getNode s c.node).map (·.asid)).getD 0

/-- The lowest lane's operands; a program's are its own. -/
def QEntry.low (e : QEntry) : LaneOps := e.ops.headD ⟨0, e.crew * 64, [], [], 0⟩

/-- An unsigned 64-bit number from an operand pair. -/
def pairNum (ws : List Word) : Nat := (ws.getD 0 0).toNat + (ws.getD 1 0).toNat * 2 ^ 32
/-- Word i of an operand. -/
def wordAt (ws : List Word) (i : Nat) : Nat := (ws.getD i 0).toNat

/-- Bytes of a row of 64 elements in a format (R246). -/
def mtxRowBytes (fmt : Nat) : Nat :=
  if fmt = 0 then 64 else if fmt = 1 then 48 else if fmt = 2 ∨ fmt = 3 then 128 else if fmt = 4 then 256 else 512

/-- A row stride field in units of 16 bytes; 0 is the row size (R249, R252, R260). -/
def strideOf (n size : Nat) : Nat := if n = 0 then size else n * 16

/-- The rows of an `MWLD` (R249), from its pair and control word: address and bytes. -/
def mwldRows (a c : Nat) : List (Nat × Nat) :=
  let size := mtxRowBytes (c % 8)
  (List.range 64).map fun k => (a + k * strideOf (c / 2 ^ 16 % 2 ^ 12) size, size)

/-- The rows of an `MSTR` (R252): row number, address and scale code. -/
def mstrRows (e : QEntry) (size : Nat) : List (Nat × Nat × Nat) :=
  let c := wordAt e.low.b 0
  if e.prog then
    (List.range 64).map fun m => (m, pairNum e.low.a + m * strideOf (c / 2 ^ 12 % 2 ^ 12) size, c / 2 ^ 24)
  else e.ops.map fun o => (o.lane, pairNum o.a, wordAt o.b 0 / 2 ^ 24)

/-- The rows of memory that an `MTX` command reads (R249, R250, R252). -/
def mtxReads (e : QEntry) : List (Nat × Nat) :=
  let a := pairNum e.low.a
  let c := wordAt e.low.b 0
  let cmd := (cmdF e.word).toNat
  if (opF e.word).toNat ≠ 0x39 then []
  else if cmd = 0 then mwldRows a c
  else if cmd = 1 then [(a, 64)]
  else if cmd = 3 then (mstrRows e (mtxRowBytes (c / 2 ^ 8 % 8))).map fun r => (r.2.1, mtxRowBytes (c / 2 ^ 8 % 8))
  else []

/-- Entries at the end of a queue. -/
def enqueue (s : State) (core cls : Nat) (es : List QEntry) : State :=
  { putQueue s core cls (getQueue s core cls ++ es) with seqno := s.seqno + 2 ^ 16 + 1 }

/-- Where an engine's access ends in a fault. -/
inductive EngErr where
  /-- A translation fault offered to the driver. -/
  | missing (va : Nat) (p : Perm)
  /-- Bad Address, Access Fault or Poison: the cause code. -/
  | fatal (code : Nat)
deriving DecidableEq, Repr

/-- For whom an engine reads: the core whose threads are not to see older bytes afterwards (none for the Hive), and the node whose L2
accesses its reads are (R352, R380; 0: none). -/
structure Reader where
  core : Option Nat
  node : Nat
deriving DecidableEq, Repr

/-- The Hive's own reads. -/
def hiveReader : Reader := ⟨none, 0⟩

/-- Bytes of a line that an engine has read at their home: the copies of its core take them, and the access counts (R352, R380). -/
def noteRead (s : State) (by' : Reader) (asid pa : Nat) (bs : List Byte) : State :=
  let s1 := match by'.core with
    | some core => patchCopies s core pa ((getK s.stamps (lineOf pa)).getD 0) bs
    | none => s
  if by'.node = 0 then s1 else countReuse s1 (homeDie pa) asid (nodeAddr s by'.node) (lineOf pa)

/-- n bytes of virtual memory read by an engine at their homes (R359). -/
def readVirt (s : State) (units : List (Nat × Nat)) (by' : Reader) (asid va n : Nat) : State × Except EngErr (List Byte) :=
  (splitLines va (List.replicate n 0) (n / 128 + 2)).foldl (fun (acc : State × Except EngErr (List Byte)) c =>
    match acc.2 with
    | .error e => (acc.1, .error e)
    | .ok bs =>
      if c.1 ≥ 2 ^ 57 then (acc.1, .error (.fatal 0x07))
      else
        let tr := translate acc.1 units asid c.1 .read
        match tr.2 with
        | .fault => (tr.1, .error (.missing c.1 .read))
        | .fatal c => (tr.1, .error (.fatal c))
        | .ok e =>
          if poisoned tr.1 (paOf e c.1) then (tr.1, .error (.fatal 0x0B))
          else
            let got := readBytes tr.1 (keyOf s asid) (paOf e c.1) c.2.length
            (noteRead tr.1 by' asid (paOf e c.1) got, .ok (bs ++ got))) (s, .ok [])

/-- The stamp that a read of n bytes of virtual memory merges (R353). -/
def virtStamp (s : State) (units : List (Nat × Nat)) (asid va n : Nat) : Nat :=
  (splitLines va (List.replicate n 0) (n / 128 + 2)).foldl (fun st c =>
    match (translate s units asid c.1 .read).2 with
    | .ok e => Nat.max st ((getK s.stamps (lineOf (paOf e c.1))).getD 0)
    | _ => st) 0

/-- The values of an `MTX` command's rows fixed at its issue (R249, R256). A row that cannot be read then, for a missing translation or
an error, is read when the command starts. Where the rules leave a point open: log 29 (DEDUCED, unsafe). -/
def withSeen (s : State) (core : Nat) (e : QEntry) : State × QEntry :=
  let asid := crewAsid s e.crew
  let node := ((getCohort s e.cohort).map (·.node)).getD 0
  (mtxReads e).foldl (fun (acc : State × QEntry) r =>
    match readVirt acc.1 (tlbUnits core) ⟨some core, node⟩ asid r.1 r.2 with
    | (s1, .ok bs) =>
      (s1, { acc.2 with seen := acc.2.seen ++ [(r.1, virtStamp s1 (tlbUnits core) asid r.1 r.2, bs)] })
    | (s1, .error _) => (s1, acc.2)) (s, e)

/-- A command's reply counted on `dc3`, its registers pending (R160, R161). -/
def countReply (w : Word) (s : State) (t : Nat) : State :=
  if repF w then modThread s t fun th => { incDc th 3 with busy := th.busy ++ replyRegs w } else s

/-- A format-C word placed by the issuing group: entries at the end of the queue and, with a reply, `dc3` raised. -/
def placeCommand (w : Word) (g : Group) (ok : List Nat) (s : State) : State :=
  if ok.isEmpty then s
  else
    let cls := (opF w).toNat - 0x38
    let s1 := (crewsOf ok).foldl (fun s c => claimUnit s g.core cls (crewCohort s c)) s
    let r := (entriesOf s g w ok).foldl (fun (acc : State × List QEntry) e =>
      let x := withSeen acc.1 g.core e
      (x.1, acc.2 ++ [x.2])) (s1, [])
    ok.foldl (countReply w) (enqueue r.1 g.core cls r.2)

/-- Whether a word must wait (R161, R232, R242, R298): no room in its queue, a counter at its limit, or its unit held by
another cohort. -/
def commandHeld (w : Word) (s : State) (g : Group) (ok : List Nat) : Bool :=
  let cls := (opF w).toNat - 0x38
  decide ((getQueue s g.core cls).length + (crewsOf ok).length > 16)
    || (repF w && ok.any fun t => match getThread s t with | some th => decide (readDc th 3 ≥ 63) | none => false)
    || (match unitOwner s g.core cls with
        | some c => ok.any fun t => crewCohort s (threadCrew t) != c
        | none => false)

/-- The members of an issuing group that use a unit together (R242, R298): those of the cohort that holds it, or of a free one those of the
group's first active lane; the others become a group of their own that waits. Where the rules leave a point open: log 24 (DEDUCED, unsafe). -/
def splitForClaim (w : Word) (s : State) (g : Group) (ok : List Nat) : State :=
  let cls := (opF w).toNat - 0x38
  match ok with
  | [] => s
  | t :: _ =>
    let first := crewCohort s (threadCrew t)
    let c := match unitOwner s g.core cls with
      | some o => if ok.any fun u => crewCohort s (threadCrew u) == o then o else first
      | none => first
    let held := match unitOwner s g.core cls with | some o => o != c | none => false
    if (cls = 1 ∨ cls = 2) ∧ !held ∧ (ok.any fun u => crewCohort s (threadCrew u) != c) then
      let mine := fun (u : Nat) => crewCohort s (threadCrew u) == c
      { setIssuing s { g with members := g.members.filter mine } with
        opens := s.opens.set s.cur { g with members := g.members.filter mine } ++ [{ g with members := g.members.filter fun u => !mine u }] }
    else s

/-- A format-C word over the issuing group (R232). -/
def runCommand (w : Word) (gate : Gate) (s : State) : State :=
  match issuing s with
  | none => s
  | some g0 =>
    let check := fun (_ : Group) (_ : State) (_ : Nat) (th : Thread) => cmdCheck w th
    let s1 := if g0.ahead then s else splitForClaim w s g0 (legalActive g0 gate 7 check s)
    match issuing s1 with
    | none => s1
    | some g =>
      if !g.ahead && commandHeld w s1 g (legalActive g gate 7 check s1) then s1
      else runWhole gate 7 check (placeCommand w) s1

/-- A fault reported to a thread (R238): at most 8 wait; a further one marks the node failed. So does one of a thread that has exited or
halted, for which R238 names no point of report (DESIGN CHOICE, unsafe: log 52). -/
def reportTo (s : State) (t : Nat) (r : Report) : State :=
  match getThread s t with
  | none => s
  | some th =>
    if th.over then failNode s th.lc.node 0x12
    else if th.reports.length < 8 then setThread s t { th with reports := th.reports ++ [r] }
    else failNode s th.lc.node 0x12

/-- An engine fault of an entry reported (R238, R279): to its threads, or to the crew through `RDVZ`, its program stopped;
a copy also at the `WAITB` of each tagged thread. -/
def reportFault (s : State) (cls : Nat) (e : QEntry) (lanes : List LaneOps) (cause : Nat) : State :=
  let s1 := if e.prog then
      modCrew s e.crew fun c => { c with
        progs := c.progs.filter fun p => p.cls != (if cls = 0 then 2 else 1)
        faults := c.faults ++ [⟨if cls = 0 then 2 else 1, cause, e.pc, e.word⟩] }
    else s
  if e.prog && cls != 0 then s1
  else
    lanes.foldl (fun s o =>
      let point := if cls ≠ 0 then 0 else if e.prog then 2 + 2 * o.batch else 1 + 2 * o.batch
      reportTo s o.thread ⟨point, 0x12, e.pc, none⟩) s1

/-- A reply written in a lane (R39, R160): `none` leaves the registers; `dc3` falls. -/
def replyLane (w : Word) (s : State) (o : LaneOps) (vals : Option (List Word)) : State :=
  modThread s o.thread fun th =>
    let regs := replyRegs w
    let th1 := match vals with
      | some vs => (regs.zip vs).foldl (fun th rv => landReg th rv.1 ⟨rv.2, []⟩) th
      | none => th
    if repF w then { decDc th1 3 s.span with busy := regs.foldl (fun b r => b.erase r) th1.busy } else th1

/-- The head of a queue taken away. -/
def popQueue (s : State) (core cls : Nat) : State := putQueue s core cls ((getQueue s core cls).drop 1)
/-- The head of a queue replaced. -/
def setHead (s : State) (core cls : Nat) (e : QEntry) : State :=
  putQueue s core cls (match getQueue s core cls with | [] => [] | _ :: q => e :: q)

/-- An entry that ends with nothing written (R233, R247): its reply falls away. -/
def dropEntry (s : State) (core cls : Nat) (e : QEntry) : State :=
  let s1 := popQueue s core cls
  if e.prog then s1 else e.ops.foldl (fun s o => replyLane e.word s o none) s1

/-- Whether every launched thread of a crew has exited, halted or waits in `EXIT` (R234). -/
def crewEnding (s : State) (crew : Nat) : Bool :=
  (List.range 64).all fun l =>
    match getThread s (crew * 64 + l) with
    | some th => th.over || th.status == .exiting
    | none => true

/-- What a guard slot says about an entry (R233): 0 run, 1 discard, 2 hold. -/
def guardSays (s : State) (e : QEntry) : Nat :=
  if e.guard = 0 then 0
  else
    match ((getCrew s e.crew).map fun c => c.guards.getD (e.guard - 1) 0).getD 0 with
    | 0 => if crewEnding s e.crew then 1 else 2
    | 1 => if e.sense then 0 else 1
    | _ => if e.sense then 1 else 0

/-- The TLB units a core's engine uses: its own core's, or for the solver the cluster's, the collective engine the die's
(R341). -/
def engineUnits (core cls : Nat) : List (Nat × Nat) :=
  if cls = 3 then [(1, clusterNo core), (2, coreDie core)] else if cls = 4 then [(2, coreDie core)] else tlbUnits core

/-- Whether n bytes of virtual memory can be written. -/
def writable (s : State) (units : List (Nat × Nat)) (asid va n : Nat) : State × Option EngErr :=
  (splitLines va (List.replicate n 0) (n / 128 + 2)).foldl (fun (acc : State × Option EngErr) c =>
    match acc.2 with
    | some e => (acc.1, some e)
    | none =>
      if c.1 ≥ 2 ^ 57 then (acc.1, some (.fatal 0x07))
      else
        let tr := translate acc.1 units asid c.1 .write
        match tr.2 with
        | .fault => (tr.1, some (.missing c.1 .write))
        | .fatal c => (tr.1, some (.fatal c))
        | .ok _ => (tr.1, none)) (s, none)

/-- Bytes of virtual memory written by an engine for a node's cohort at their homes, after `writable`; the stamp is the
writer's `WCT`; the result is the latest GWCT (R351, R359, R366). The core's copies take the bytes, so that later reads do
not go back (R352). -/
def writeVirt (s : State) (units : List (Nat × Nat)) (core asid node cohort stamp va : Nat) (bs : List Byte) : State × Nat :=
  let j := ((getCohort s cohort).map (·.j)).getD 0
  (splitLines va bs (bs.length / 128 + 2)).foldl (fun (acc : State × Nat) c =>
    let tr := translate acc.1 units asid c.1 .write
    match tr.2 with
    | .ok e =>
      let r := arrive tr.1 (keyOf s asid) stamp (paOf e c.1) c.2
      let s1 := countReuse (patchCopies r.1 core (paOf e c.1) (Nat.max stamp r.2) c.2) (homeDie (paOf e c.1)) asid (nodeAddr s node)
        (lineOf (paOf e c.1))
      (noteWrite (noteGwct s1 node r.2) node j c.1 c.2.length 0, Nat.max acc.2 r.2)
    | _ => (tr.1, acc.2)) (s, 0)

/-- Whether the driver has declared the fault of an entry fatal (R345): phase 3 as a Page Fault, 4 as an Access Fault. -/
def QEntry.refused (e : QEntry) : Bool := decide (3 ≤ e.phase)
/-- The cause of that answer. -/
def QEntry.refusal (e : QEntry) : Nat := if e.phase = 4 then 0x0A else 0x09

/-- What running a command gives: done with the values of its reply by lane; a fault of the whole command; an offered
translation fault; or it cannot start yet. -/
inductive EngOut where
  | done (s : State) (reply : List (Nat × List Word))
  | fault (s : State) (cause : Nat)
  | missing (s : State) (va : Nat) (p : Perm)
  | hold

/-- An error of an access as the end of a command. -/
def EngErr.out (e : EngErr) (s : State) : EngOut :=
  match e with
  | .missing va p => .missing s va p
  | .fatal c => .fault s c

/-- The ASID and node of an entry's cohort. -/
def entryAsid (s : State) (e : QEntry) : Nat × Nat :=
  match getCohort s e.cohort with
  | some c => (((getNode s c.node).map (·.asid)).getD 0, c.node)
  | none => (0, 0)

/-- For whom an entry's engine reads on a core. -/
def entryReader (s : State) (core : Nat) (e : QEntry) : Reader := ⟨some core, (entryAsid s e).2⟩

/-- Times merged into the `WCT` of an entry's lowest-lane thread (R260, R359). -/
def mergeLow (s : State) (e : QEntry) (g : Nat) : State := modThread s e.low.thread (mergeWct · g)

/-- The stamp of an entry's writes: its lowest-lane thread's `WCT` (R353). -/
def lowWct (s : State) (e : QEntry) : Nat := ((getThread s e.low.thread).map (·.wct)).getD 0

/-- The SRC number of an engine class (R344). -/
def srcOf (cls : Nat) : Nat := if cls = 0 then 1 else if cls = 1 then 3 else if cls = 2 then 4 else if cls = 3 then 5 else if cls = 4 then 6 else 7

/-- The end of the command at the head of a queue: replies and removal, its fault, or its wait for the driver (entry phase 2;
a full fault buffer leaves it to try again). Where the rules leave a point open: log 27 (DEDUCED, unsafe). -/
def settleHead (s : State) (core cls : Nat) (e : QEntry) (onFault : State → Nat → State) (out : EngOut) : State :=
  match out with
  | .hold => s
  | .done s1 vals =>
    let s2 := popQueue s1 core cls
    if e.prog then s2
    else e.ops.foldl (fun s o => replyLane e.word s o ((vals.find? fun v => v.1 == o.lane).map (·.2))) s2
  | .fault s1 cause => reportFault (dropEntry (onFault s1 cause) core cls e) cls e e.ops cause
  | .missing s1 va p =>
    match raiseFault s1 (coreDie core) (entryAsid s e).1 va p (srcOf cls) (if cls = 4 ∨ cls = 5 then 0xFFFF else unitOf core)
        (.engine core cls) with
    | none => s
    | some s2 => setHead s2 core cls { e with phase := 2 }

/-- Records of 32-bit or 64-bit fields from bytes. -/
def field (bs : List Byte) (off n : Nat) : Nat := ofBytes ((bs.drop off).take n)

end Sys2Proof.Machine
end

