-- ==== Sys2Proof/Machine/Commands.lean ====
section
/-! DEFINITION. The engine commands as thread instructions: each places an entry in its engine's queue (R232, R245, R275, R293,
R300, R335, R377, R416); what the engines then do is in the files of the engines. -/

namespace Sys2Proof.Machine

/-- `CPY_G2S` (R277). -/
def execCpyG2s (a b : BitVec 6) (s : State) : Host.Outcome State Fault Refusal :=
  .next (runCommand (encC 0x38 0 a b (0) 0 false) freeGate s)

/-- `CPY_S2G` (R277). -/
def execCpyS2g (a b : BitVec 6) (s : State) : Host.Outcome State Fault Refusal :=
  .next (runCommand (encC 0x38 0 a b (0) 1 false) freeGate s)

/-- `CPY_G2G` (R277). -/
def execCpyG2g (a b : BitVec 6) (s : State) : Host.Outcome State Fault Refusal :=
  .next (runCommand (encC 0x38 0 a b (0) 2 false) freeGate s)

/-- `CPY_GATH` (R277). -/
def execCpyGath (a b : BitVec 6) (v : BitVec 3) (s : State) : Host.Outcome State Fault Refusal :=
  .next (runCommand (encC 0x38 0 a b (v) 3 false) freeGate s)

/-- `CPY_FILL` (R277). -/
def execCpyFill (a b : BitVec 6) (s : State) : Host.Outcome State Fault Refusal :=
  .next (runCommand (encC 0x38 0 a b (0) 4 false) freeGate s)

/-- `CPY_MAP` (R282). -/
def execCpyMap (a b : BitVec 6) (s : State) : Host.Outcome State Fault Refusal :=
  .next (runCommand (encC 0x38 0 a b (0) 5 false) freeGate s)

/-- `CPY_UNMAP` (R284). -/
def execCpyUnmap (b : BitVec 6) (s : State) : Host.Outcome State Fault Refusal :=
  .next (runCommand (encC 0x38 0 0 b (0) 6 false) freeGate s)

/-- `CPY_WB` (R284). -/
def execCpyWb (b : BitVec 6) (s : State) : Host.Outcome State Fault Refusal :=
  .next (runCommand (encC 0x38 0 0 b (0) 7 false) freeGate s)

/-- `MTX_MWLD` (R249). -/
def execMtxMwld (a b : BitVec 6) (s : State) : Host.Outcome State Fault Refusal :=
  .next (runCommand (encC 0x39 0 a b (0) 0 false) ⟨none, 0, 1⟩ s)

/-- `MTX_MWSCL` (R250). -/
def execMtxMwscl (a b : BitVec 6) (s : State) : Host.Outcome State Fault Refusal :=
  .next (runCommand (encC 0x39 0 a b (0) 1 false) ⟨none, 0, 1⟩ s)

/-- `MTX_MSWAP` (R251). -/
def execMtxMswap (v : BitVec 3) (s : State) : Host.Outcome State Fault Refusal :=
  .next (runCommand (encC 0x39 0 0 0 (v) 2 false) ⟨none, 0, 1⟩ s)

/-- `MTX_MSTR` (R252). -/
def execMtxMstr (a b : BitVec 6) (s : State) : Host.Outcome State Fault Refusal :=
  .next (runCommand (encC 0x39 0 a b (0) 3 false) ⟨none, 0, 1⟩ s)

/-- `MTX_MPROM` (R255). -/
def execMtxMprom (v : BitVec 3) (s : State) : Host.Outcome State Fault Refusal :=
  .next (runCommand (encC 0x39 0 0 0 (v) 4 false) ⟨none, 0, 1⟩ s)

/-- `MTX_MZERO` (R258). -/
def execMtxMzero (b : BitVec 6) (s : State) : Host.Outcome State Fault Refusal :=
  .next (runCommand (encC 0x39 0 0 b (0) 5 false) ⟨none, 0, 1⟩ s)

/-- `MTX_MRD` (R259). -/
def execMtxMrd (d a : BitVec 6) (s : State) : Host.Outcome State Fault Refusal :=
  .next (runCommand (encC 0x39 d a 0 (0) 6 true) ⟨none, 0, 1⟩ s)

/-- `MTX_MWR` (R259). -/
def execMtxMwr (a b : BitVec 6) (s : State) : Host.Outcome State Fault Refusal :=
  .next (runCommand (encC 0x39 0 a b (0) 7 false) ⟨none, 0, 1⟩ s)

/-- `MTX_MOUT` (R260). -/
def execMtxMout (d a b : BitVec 6) (v : BitVec 3) (s : State) : Host.Outcome State Fault Refusal :=
  .next (runCommand (encC 0x39 d a b (v) 8 true) ⟨none, 0, 1⟩ s)

/-- `MTX_MDRAIN` (R262). -/
def execMtxMdrain (d a b : BitVec 6) (v : BitVec 3) (s : State) : Host.Outcome State Fault Refusal :=
  .next (runCommand (encC 0x39 d a b (v) 9 true) ⟨none, 0, 1⟩ s)

/-- `MTX_MSTAT` (R265). -/
def execMtxMstat (d : BitVec 6) (v : BitVec 3) (s : State) : Host.Outcome State Fault Refusal :=
  .next (runCommand (encC 0x39 d 0 0 (v) 10 true) ⟨none, 0, 1⟩ s)

/-- `SPL_SCFG` (R304). -/
def execSplScfg (a : BitVec 6) (s : State) : Host.Outcome State Fault Refusal :=
  .next (runCommand (encC 0x3A 0 a 0 (0) 0 false) ⟨some 3, 0, 2⟩ s)

/-- `SPL_SPROJ` (R308). -/
def execSplSproj (d a : BitVec 6) (s : State) : Host.Outcome State Fault Refusal :=
  .next (runCommand (encC 0x3A d a 0 (0) 1 true) ⟨some 3, 0, 2⟩ s)

/-- `SPL_SBIN` (R311). -/
def execSplSbin (d a : BitVec 6) (s : State) : Host.Outcome State Fault Refusal :=
  .next (runCommand (encC 0x3A d a 0 (0) 2 true) ⟨some 3, 0, 2⟩ s)

/-- `SPL_SSORT` (R312). -/
def execSplSsort (d a : BitVec 6) (s : State) : Host.Outcome State Fault Refusal :=
  .next (runCommand (encC 0x3A d a 0 (0) 3 true) ⟨some 3, 0, 2⟩ s)

/-- `SPL_SBLEND` (R313). -/
def execSplSblend (d a : BitVec 6) (s : State) : Host.Outcome State Fault Refusal :=
  .next (runCommand (encC 0x3A d a 0 (0) 4 true) ⟨some 3, 0, 2⟩ s)

/-- `SPL_SREPL` (R316). -/
def execSplSrepl (d a : BitVec 6) (s : State) : Host.Outcome State Fault Refusal :=
  .next (runCommand (encC 0x3A d a 0 (0) 5 true) ⟨some 3, 0, 2⟩ s)

/-- `SLV_CFG` (R293). -/
def execSlvCfg (a : BitVec 6) (s : State) : Host.Outcome State Fault Refusal :=
  .next (runCommand (encC 0x3B 0 a 0 (0) 0 false) ⟨some 4, 0, 0⟩ s)

/-- `SLV_LU` (R295). -/
def execSlvLu (d a : BitVec 6) (s : State) : Host.Outcome State Fault Refusal :=
  .next (runCommand (encC 0x3B d a 0 (0) 1 true) ⟨some 4, 0, 0⟩ s)

/-- `SLV_LUS` (R295). -/
def execSlvLus (d a : BitVec 6) (s : State) : Host.Outcome State Fault Refusal :=
  .next (runCommand (encC 0x3B d a 0 (0) 2 true) ⟨some 4, 0, 0⟩ s)

/-- `SLV_CHOL` (R295). -/
def execSlvChol (d a : BitVec 6) (s : State) : Host.Outcome State Fault Refusal :=
  .next (runCommand (encC 0x3B d a 0 (0) 3 true) ⟨some 4, 0, 0⟩ s)

/-- `SLV_CHS` (R295). -/
def execSlvChs (d a : BitVec 6) (s : State) : Host.Outcome State Fault Refusal :=
  .next (runCommand (encC 0x3B d a 0 (0) 4 true) ⟨some 4, 0, 0⟩ s)

/-- `SLV_CG` (R295). -/
def execSlvCg (d a : BitVec 6) (s : State) : Host.Outcome State Fault Refusal :=
  .next (runCommand (encC 0x3B d a 0 (0) 5 true) ⟨some 4, 0, 0⟩ s)

/-- `SLV_JAC` (R295). -/
def execSlvJac (d a : BitVec 6) (s : State) : Host.Outcome State Fault Refusal :=
  .next (runCommand (encC 0x3B d a 0 (0) 6 true) ⟨some 4, 0, 0⟩ s)

/-- `COL_GRP` (R417). -/
def execColGrp (d a b : BitVec 6) (s : State) : Host.Outcome State Fault Refusal :=
  .next (runCommand (encC 0x3C d a b (0) 0 true) ⟨some 8, 0, 0⟩ s)

/-- `COL_GRP_FREE` (R417). -/
def execColGrpFree (b : BitVec 6) (s : State) : Host.Outcome State Fault Refusal :=
  .next (runCommand (encC 0x3C 0 0 b (1) 0 false) ⟨some 8, 0, 0⟩ s)

/-- `COL_ARED` (R419). -/
def execColAred (d a : BitVec 6) (s : State) : Host.Outcome State Fault Refusal :=
  .next (runCommand (encC 0x3C d a 0 (0) 1 true) ⟨some 8, 0, 0⟩ s)

/-- `COL_RSC` (R419). -/
def execColRsc (d a : BitVec 6) (s : State) : Host.Outcome State Fault Refusal :=
  .next (runCommand (encC 0x3C d a 0 (0) 2 true) ⟨some 8, 0, 0⟩ s)

/-- `COL_AGATH` (R419). -/
def execColAgath (d a : BitVec 6) (s : State) : Host.Outcome State Fault Refusal :=
  .next (runCommand (encC 0x3C d a 0 (0) 3 true) ⟨some 8, 0, 0⟩ s)

/-- `COL_BCAST` (R419). -/
def execColBcast (d a : BitVec 6) (s : State) : Host.Outcome State Fault Refusal :=
  .next (runCommand (encC 0x3C d a 0 (0) 4 true) ⟨some 8, 0, 0⟩ s)

/-- `COL_PUT` (R422). -/
def execColPut (d a : BitVec 6) (s : State) : Host.Outcome State Fault Refusal :=
  .next (runCommand (encC 0x3C d a 0 (0) 5 true) ⟨some 8, 0, 0⟩ s)

/-- `COL_WAIT` (R424). -/
def execColWait (d a b : BitVec 6) (s : State) : Host.Outcome State Fault Refusal :=
  .next (runCommand (encC 0x3C d a b (0) 6 true) ⟨some 8, 0, 0⟩ s)

/-- `GRF_LAUNCH` (R336). -/
def execGrfLaunch (d a : BitVec 6) (v : Bool) (s : State) : Host.Outcome State Fault Refusal :=
  .next (runCommand (encC 0x3D d a 0 (BitVec.ofNat 3 v.toNat) 0 true) ⟨some 7, 0, 0⟩ s)

/-- `GRF_QPUT` (R338). -/
def execGrfQput (b : BitVec 6) (s : State) : Host.Outcome State Fault Refusal :=
  .next (runCommand (encC 0x3D 0 0 b (0) 1 false) freeGate s)

/-- `GRF_QGET` (R338). -/
def execGrfQget (d : BitVec 6) (s : State) : Host.Outcome State Fault Refusal :=
  .next (runCommand (encC 0x3D d 0 0 (0) 2 true) freeGate s)

/-- `GRF_NSIG` (R337). -/
def execGrfNsig (a : BitVec 6) (s : State) : Host.Outcome State Fault Refusal :=
  .next (runCommand (encC 0x3D 0 a 0 (0) 3 false) freeGate s)

/-- `PRB_MARK` (R378). -/
def execPrbMark (a b : BitVec 6) (s : State) : Host.Outcome State Fault Refusal :=
  .next (runCommand (encC 0x3E 0 a b (0) 0 false) freeGate s)

/-- `PRB_SAMP` (R378). -/
def execPrbSamp (s : State) : Host.Outcome State Fault Refusal :=
  .next (runCommand (encC 0x3E 0 0 0 (0) 1 false) freeGate s)

/-- `PRB_RDX` (R378). -/
def execPrbRdx (d a : BitVec 6) (s : State) : Host.Outcome State Fault Refusal :=
  .next (runCommand (encC 0x3E d a 0 (0) 2 true) freeGate s)

end Sys2Proof.Machine
end

