-- ==== Sys2Proof/Machine/Copy.lean ====
section
/-! DEFINITION. The copy engine (R275-R279) and the region commands (R282, R284). -/

namespace Sys2Proof.Machine

/-- An end of a copy: global memory, the scratchpad, or a `FILL` pattern. -/
inductive Loc where
  | glob (va : Nat)
  | scr (off : Nat)
  | pat (w : Word)
deriving DecidableEq, Repr

/-- A part of a copy: n bytes from one place to another. -/
structure Piece where
  src : Loc
  dst : Loc
  n : Nat
deriving DecidableEq, Repr

/-- A place further on. -/
def Loc.shift (l : Loc) (k : Nat) : Loc :=
  match l with | .glob va => .glob (va + k) | .scr off => .scr (off + k) | .pat w => .pat w

/-- A granule filled for a copy, read at its home (R283, R359). -/
def fillForCopy (s : State) (core c asid g : Nat) : State × Option EngErr :=
  match (getCohort s c).bind fun x => regionAt x g with
  | none => (s, none)
  | some (k, r) =>
    if r.filled.contains g then (s, none)
    else
      let done := fun (s : State) (bs : List Byte) =>
        modCohort s c fun x => { x with
          scratch := memWrite x.scratch g bs
          regions := putK x.regions k { r with filled := r.filled ++ [g], stale := false } }
      if r.flags / 2 % 2 = 1 then (done s (List.replicate 256 0), none)
      else
        match readVirt s (mapUnits core) ⟨some core, ((getCohort s c).map (·.node)).getD 0⟩ asid (r.base + (g - r.off)) 256 with
        | (s1, .ok bs) => (done s1 bs, none)
        | (s1, .error e) => (s1, some e)

/-- The granules of a scratchpad range filled for a copy. -/
def touchForCopy (s : State) (core c asid off n : Nat) : State × Option EngErr :=
  (granulesOf off n).foldl (fun acc g =>
    match acc.2 with
    | some e => (acc.1, some e)
    | none => fillForCopy acc.1 core c asid g) (s, none)

/-- The stamp that the fills of a scratchpad range still to be made will merge (R353, R359). -/
def fillStamp (s : State) (core c asid off n : Nat) : Nat :=
  (granulesOf off n).foldl (fun st g =>
    match (getCohort s c).bind fun x => regionAt x g with
    | some (_, r) =>
      if r.filled.contains g ∨ r.flags / 2 % 2 = 1 then st
      else Nat.max st (virtStamp s (mapUnits core) asid (r.base + (g - r.off)) 256)
    | none => st) 0

/-- The bytes of a place as a copy reads them. -/
def readLoc (s : State) (core c asid n : Nat) (l : Loc) : State × Except EngErr (List Byte) :=
  match l with
  | .glob va => readVirt s (tlbUnits core) ⟨some core, ((getCohort s c).map (·.node)).getD 0⟩ asid va n
  | .scr off =>
    match touchForCopy s core c asid off n with
    | (s1, none) =>
      if (scratchPoison s1 c off n).isSome then (s1, .error (.fatal 0x0B)) else (s1, .ok (readScratch s1 c off n))
    | (s1, some e) => (s1, .error e)
  | .pat w => (s, .ok ((List.range n).map fun i => (bytesOfWord w).getD (i % 4) 0))

/-- A place made ready for a copy's write. -/
def prepareLoc (s : State) (core c asid n : Nat) (l : Loc) : State × Option EngErr :=
  match l with
  | .glob va => writable s (tlbUnits core) asid va n
  | .scr off => touchForCopy s core c asid off n
  | .pat _ => (s, none)

/-- Bytes written by a copy; the result is the latest GWCT. -/
def writeLoc (s : State) (core c asid node stamp : Nat) (l : Loc) (bs : List Byte) : State × Nat :=
  match l with
  | .glob va => writeVirt s (tlbUnits core) core asid node c stamp va bs
  | .scr off => (writeScratch s c off bs, 0)
  | .pat _ => (s, 0)

/-- Every source of a copy read and every destination made ready. Where the rules leave a point open: log 28 (DESIGN CHOICE, unsafe). -/
def gatherPieces (core c asid : Nat) : List Piece → State → State × Except EngErr (List (Loc × List Byte))
  | [], s => (s, .ok [])
  | p :: ps, s =>
    match readLoc s core c asid p.n p.src with
    | (s1, .error e) => (s1, .error e)
    | (s1, .ok bs) =>
      match prepareLoc s1 core c asid p.n p.dst with
      | (s2, some e) => (s2, .error e)
      | (s2, none) =>
        let r := gatherPieces core c asid ps s2
        (r.1, match r.2 with | .ok l => .ok ((p.dst, bs) :: l) | .error e => .error e)

/-- A faulted copy (R279): of the destination bytes that it could reach, the free values say which it has written. Where the rules leave a point open: log 8 (DESIGN CHOICE, safe). -/
def partialCopy (core c asid node stamp : Nat) (ps : List Piece) (s : State) : State :=
  let chunks := ps.flatMap fun p => (List.range ((p.n + 15) / 16)).map fun i =>
    Piece.mk (p.src.shift (16 * i)) (p.dst.shift (16 * i)) (Nat.min 16 (p.n - 16 * i))
  let seed := s.seqno
  let r := chunks.zipIdx.foldl (fun (s : State) ck =>
    match gatherPieces core c asid [ck.1] s with
    | (s1, .ok [(dst, bs)]) =>
      bs.zipIdx.foldl (fun s b =>
        if (Config.freeByte seed (16 * ck.2 + b.2)).getLsbD 0 then (writeLoc s core c asid node stamp (dst.shift b.2) [b.1]).1
        else s) s1
    | (s1, _) => s1) s
  { r with seqno := r.seqno + 1 }

/-- Whether a global range is legal for a copy (R277). Where the rules leave a point open: log 28 (DESIGN CHOICE, unsafe). -/
def globalOk (va n : Nat) : Bool := va % 16 == 0 && decide (va < 2 ^ 57) && decide (va + n ≤ 2 ^ 57)
/-- Whether a scratchpad range is legal for a copy (R277). -/
def scratchOk (s : State) (c off n : Nat) : Bool :=
  off % 16 == 0 && decide (off < 2 ^ 31) && decide (off + n ≤ scratchSize s c)
/-- Whether a length is legal (R277). -/
def lengthOk (n : Nat) : Bool := n % 16 == 0 && decide (n ≤ 2 ^ 24)

/-- The element size of a `GATH` variant (R275). -/
def gathSize (v : Nat) : Nat := if v = 0 then 4 else if v = 1 then 8 else if v = 2 then 16 else if v = 3 then 64 else 256

/-- The pieces of one copy (R277); `none` breaks a limit. The index list of `GATH` is given. -/
def piecesOf (s : State) (w : Word) (c : Nat) (o : LaneOps) (index : List Byte) : Option (List Piece) :=
  let cmd := (cmdF w).toNat
  let a := pairNum o.a
  let b := wordAt o.b
  if cmd = 0 then
    (if globalOk a (b 1) && scratchOk s c (b 0) (b 1) && lengthOk (b 1) then some [⟨.glob a, .scr (b 0), b 1⟩] else none)
  else if cmd = 1 then
    (if globalOk a (b 1) && scratchOk s c (b 0) (b 1) && lengthOk (b 1) then some [⟨.scr (b 0), .glob a, b 1⟩] else none)
  else if cmd = 2 then
    (let d := pairNum o.b
     if globalOk a (b 2) && globalOk d (b 2) && lengthOk (b 2) then some [⟨.glob a, .glob d, b 2⟩] else none)
  else if cmd = 3 then
    (let z := gathSize (vF w).toNat
     if globalOk a 0 && scratchOk s c (b 0) (z * b 2) && b 1 % 4 == 0 && decide (b 1 < 2 ^ 31)
         && decide (b 1 + 4 * b 2 ≤ scratchSize s c) && decide (b 2 ≤ 65536) then
       let ps := (List.range (b 2)).map fun i =>
         Piece.mk (.glob (a + z * field index (4 * i) 4)) (.scr (b 0 + z * i)) z
       if ps.all fun p => match p.src with | .glob va => decide (va + z ≤ 2 ^ 57) | _ => true then some ps else none
     else none)
  else
    let local' := decide (a / 2 ^ 32 = 2 ^ 31)
    let ok := lengthOk (b 1) && (if local' then scratchOk s c (a % 2 ^ 32) (b 1) else globalOk a (b 1))
    if ok then some [⟨.pat (BitVec.ofNat 32 (b 0)), if local' then .scr (a % 2 ^ 32) else .glob a, b 1⟩] else none

/-- How one copy ends. A copy that waits for the driver carries the stamp of the fills it has made. -/
inductive CopyOut where
  | done (s : State)
  | fault (s : State)
  | missing (s : State) (va : Nat) (p : Perm) (stamp : Nat)

/-- Times merged into the `WCT` of threads. -/
def mergeAll (s : State) (ts : List Nat) (g : Nat) : State := ts.foldl (fun s t => modThread s t (mergeWct · g)) s

/-- The stamp that a copy's reads of global memory merge. -/
def pieceStamp (s : State) (core asid : Nat) (ps : List Piece) : Nat :=
  ps.foldl (fun st p => match p.src with | .glob va => Nat.max st (virtStamp s (tlbUnits core) asid va p.n) | _ => st) 0

/-- The stamp that a copy's fills of granules merge (R283, R359). -/
def pieceFills (s : State) (core c asid : Nat) (ps : List Piece) : Nat :=
  let one := fun (l : Loc) (n : Nat) => match l with | .scr off => fillStamp s core c asid off n | _ => 0
  ps.foldl (fun st p => Nat.max st (Nat.max (one p.src p.n) (one p.dst p.n))) 0

/-- The widest `WCT` of threads. -/
def widestWct (s : State) (ts : List Nat) : Nat := ts.foldl (fun m t => Nat.max m (((getThread s t).map (·.wct)).getD 0)) 0

/-- Whether a copy reads an index list (R277). -/
def readsIndex (w : Word) (o : LaneOps) : Bool := (cmdF w).toNat == 3 && decide (wordAt o.b 2 ≤ 65536)

/-- The index list of a copy. -/
def copyIndex (s : State) (w : Word) (core c asid : Nat) (o : LaneOps) : State × Except EngErr (List Byte) :=
  if readsIndex w o then readLoc s core c asid (4 * wordAt o.b 2) (.scr (wordAt o.b 1)) else (s, .ok [])

/-- One copy of an entry (R277-R279) for the threads it is tagged to; `fatal`: the driver declared its fault fatal; `before`: the stamp of
the fills it made before a wait for the driver. Where the rules leave a point open: log 28 (DESIGN CHOICE, unsafe). -/
def copyOne (s : State) (core : Nat) (e : QEntry) (o : LaneOps) (tags : List Nat) (fatal : Bool) (before : Nat) : CopyOut :=
  let asid := (entryAsid s e).1
  let node := (entryAsid s e).2
  let stamp := widestWct s tags
  let f0 := Nat.max before (if readsIndex e.word o then fillStamp s core e.cohort asid (wordAt o.b 1) (4 * wordAt o.b 2) else 0)
  match copyIndex s e.word core e.cohort asid o with
  | (s0, .error (.missing va p)) => if fatal then .fault s0 else .missing s0 va p f0
  | (s0, .error (.fatal _)) => .fault s0
  | (s0, .ok index) =>
    match piecesOf s0 e.word e.cohort o index with
    | none => .fault s0
    | some ps =>
      let f1 := Nat.max f0 (pieceFills s0 core e.cohort asid ps)
      match gatherPieces core e.cohort asid ps s0 with
      | (s1, .ok outs) =>
        let st := Nat.max f1 (pieceStamp s1 core asid ps)
        let r := outs.foldl (fun (acc : State × Nat) x =>
          let y := writeLoc acc.1 core e.cohort asid node stamp x.1 x.2
          (y.1, Nat.max acc.2 y.2)) (s1, 0)
        .done (mergeAll r.1 tags (Nat.max st r.2))
      | (s1, .error (.missing va p)) =>
        if fatal then .fault (partialCopy core e.cohort asid node stamp ps s1) else .missing s1 va p f1
      | (s1, .error (.fatal _)) => .fault (partialCopy core e.cohort asid node stamp ps s1)

/-- The dirty bytes of a region with their global addresses, ascending (R284). -/
def dirtyBytes (x : Cohort) (r : Region) : List (Nat × Byte) :=
  ((List.range r.len).filter fun i => r.dirty.contains (r.off + i)).map fun i => (r.base + i, memGet x.scratch (r.off + i))

/-- The dirty bytes of a region written back and marked clean (R284). -/
def writeBack (s : State) (core c k : Nat) (stamp : Nat) : State × Except EngErr Nat :=
  match getCohort s c with
  | none => (s, .ok 0)
  | some x =>
    match getK x.regions k with
    | none => (s, .ok 0)
    | some r =>
      let asid := ((getNode s x.node).map (·.asid)).getD 0
      let bs := if r.flags % 2 = 1 then [] else dirtyBytes x r
      let ok := bs.foldl (fun (acc : State × Option EngErr) b =>
        match acc.2 with
        | some e => (acc.1, some e)
        | none => writable acc.1 (mapUnits core) asid b.1 1) (s, none)
      match ok with
      | (s1, some e) => (s1, .error e)
      | (s1, none) =>
        let w := bs.foldl (fun (acc : State × Nat) b =>
          let y := writeVirt acc.1 (mapUnits core) core asid x.node c stamp b.1 [b.2]
          (y.1, Nat.max acc.2 y.2)) (s1, 0)
        (modCohort w.1 c fun x => { x with regions := putK x.regions k { r with dirty := if r.flags % 2 = 1 then r.dirty else [] } },
          .ok w.2)

/-- Whether a `MAP` keeps the rules of R282. -/
def mapOk (s : State) (x : Cohort) (c k base off len flags : Nat) : Bool :=
  decide (k < 16) && (getK x.regions k).isNone && off % 256 == 0 && len % 256 == 0 && base % 256 == 0 && len != 0
    && decide (off + len ≤ scratchSize s c) && decide (base + len ≤ 2 ^ 57) && decide (flags < 4)
    && x.regions.all fun r => decide (r.2.off + r.2.len ≤ off) || decide (off + len ≤ r.2.off)

/-- A region command (R282, R284). Where the rules leave a point open: log 27 (DEDUCED, unsafe). -/
def regionCommand (s : State) (core : Nat) (e : QEntry) (o : LaneOps) (tags : List Nat) (fatal : Bool) : CopyOut :=
  let cmd := (cmdF e.word).toNat
  match getCohort s e.cohort with
  | none => .fault s
  | some x =>
    let k := wordAt o.b 0
    if cmd = 5 then
      (if mapOk s x e.cohort k (pairNum o.a) (wordAt o.b 1) (wordAt o.b 2) (wordAt o.b 3) then
        .done (modCohort s e.cohort fun x => { x with
          regions := putK x.regions k ⟨wordAt o.b 1, wordAt o.b 2, pairNum o.a, wordAt o.b 3, [], [], false⟩ })
       else .fault s)
    else if (getK x.regions k).isNone then .fault s
    else
      match writeBack s core e.cohort k (widestWct s tags) with
      | (s1, .ok g) =>
        let s2 := mergeAll s1 tags g
        .done (if cmd = 6 then modCohort s2 e.cohort fun x => { x with regions := delK x.regions k } else s2)
      | (s1, .error (.missing va p)) => if fatal then .fault s1 else .missing s1 va p 0
      | (s1, .error (.fatal _)) => .fault s1

/-- The copies of the entry at the head of a core's copy queue, from lane number k on (R277-R279): a faulted one is reported
and the others go on; a missing translation makes the engine wait. -/
def runCopies (core : Nat) (e : QEntry) : List LaneOps → Nat → Bool → Nat → State → State
  | [], _, _, _, s => popQueue s core 0
  | o :: os, k, fatal, before, s =>
    let whole := e.prog || decide ((cmdF e.word).toNat ≥ 5)
    let lanes := if whole then e.ops else [o]
    let out := if (cmdF e.word).toNat ≥ 5 then regionCommand s core e o (lanes.map (·.thread)) fatal
      else copyOne s core e o (lanes.map (·.thread)) fatal before
    match out with
    | .done s1 => runCopies core e os (k + 1) false 0 s1
    | .fault s1 => runCopies core e os (k + 1) false 0 (reportFault s1 0 e lanes 0x12)
    | .missing s1 va p st =>
      match raiseFault s1 (coreDie core) (entryAsid s e).1 va p (srcOf 0) (unitOf core) (.engine core 0) with
      | none => setHead s1 core 0 { e with aux := [k, st] }
      | some s2 => setHead s2 core 0 { e with phase := 2, aux := [k, st] }

/-- `COPY_COMPLETE` (R277, R278): the started head of a core's copy queue runs; one with an uncorrectable error takes Poison (R384, R247). -/
def execCopyComplete (core : Nat) (s : State) : Host.Outcome State Fault Refusal :=
  .next (match getQueue s core 0 with
    | [] => s
    | e :: _ =>
      if (e.phase = 1 ∨ e.refused) ∧ s.poison.contains (queueLine e.id) then settleHead s core 0 e (fun s _ => s) (.fault s 0x0B)
      else if e.phase = 1 ∨ e.refused then
        let whole := e.prog || decide ((cmdF e.word).toNat ≥ 5)
        let lanes := if whole then e.ops.take 1 else e.ops
        runCopies core { e with phase := 1 } (lanes.drop (e.aux.headD 0)) (e.aux.headD 0) e.refused (e.aux.getD 1 0) s
      else s)

end Sys2Proof.Machine
end

