-- ==== Sys2Proof/Machine/Solver.lean ====
section
/-! DEFINITION. The solver engine (R293-R297). -/

namespace Sys2Proof.Machine

/-- A solver descriptor (R294). -/
structure SlvDesc where
  a : Nat
  b : Nat
  x : Nat
  aux : Nat
  status : Nat
  batch : Nat
  n : Nat
  r : Nat
  iter : Nat
  fmt : Nat
  reserved : Nat
deriving DecidableEq, Repr

/-- A descriptor from its 64 bytes. Where the rules leave a point open: log 30 (DEDUCED, unsafe). -/
def slvDesc (bs : List Byte) : SlvDesc :=
  ⟨field bs 0 8, field bs 8 8, field bs 16 8, field bs 24 8, field bs 32 8, field bs 40 4, field bs 44 4, field bs 48 4,
    field bs 52 4, field bs 56 4, field bs 60 4⟩

/-- Bytes of an element. -/
def SlvDesc.z (d : SlvDesc) : Nat := if d.fmt = 0 then 8 else 4
/-- The format of a descriptor's elements. -/
def SlvDesc.ieee (d : SlvDesc) : IeeeFmt := if d.fmt = 0 then b64 else b32

/-- Whether a command uses right-hand sides (R294). -/
def slvSolves (cmd : Nat) : Bool := cmd != 1 && cmd != 3
/-- Whether a command uses the pivots (R294). -/
def slvPivots (cmd : Nat) : Bool := cmd == 1 || cmd == 2

/-- Whether a descriptor keeps the ranges and alignments of R294. -/
def SlvDesc.legal (d : SlvDesc) (cmd : Nat) : Bool :=
  decide (d.batch ≤ 65535) && decide (1 ≤ d.n) && decide (d.n ≤ 32) && decide (d.fmt ≤ 1) && d.reserved == 0
    && (!slvSolves cmd || (decide (1 ≤ d.r) && decide (d.r ≤ 32) && d.b % d.z == 0 && d.x % d.z == 0))
    && d.a % d.z == 0 && (!slvPivots cmd || d.aux % d.z == 0) && d.status % 4 == 0

/-- A vector of patterns with the flags raised so far. -/
structure Calc where
  v : List Nat
  fl : Word
deriving DecidableEq, Repr

/-- Element (i, j) of a row-major matrix of a row length. -/
def elem (m : List Nat) (cols i j : Nat) : Nat := m.getD (i * cols + j) 0
/-- A sum of products from +0 in ascending index, rounded at each term (R295). Where the rules leave a point open: log 30 (DEDUCED, unsafe). -/
def dotSum (f : IeeeFmt) (ps : List (Nat × Nat)) : FRes :=
  ps.foldl (fun s p => let r := fpFma f .rne false false p.1 p.2 s.bits; ⟨r.bits, s.flags ||| r.flags⟩) ⟨0, 0⟩
/-- Two rows of a matrix swapped whole. -/
def swapRows (m : List Nat) (cols i k : Nat) : List Nat :=
  (List.range cols).foldl (fun a j => (a.set (i * cols + j) (elem m cols k j)).set (k * cols + j) (elem m cols i j)) m

/-- The pivot row of step k (R295): the largest magnitude, NaNs passed over, the lowest row of a tie; k in a column of NaNs. -/
def pivotRow (f : IeeeFmt) (n k : Nat) (m : List Nat) : Nat :=
  let rows := (List.range (n - k)).map (· + k)
  let mag := fun (i : Nat) => orderKey f (clearSign f (elem m n i k))
  ((rows.filter fun i => !isNaN f (elem m n i k)).foldl (fun (b : Option Nat) i =>
    match b with
    | none => some i
    | some j => if mag j < mag i then some i else some j) none).getD k

/-- The pivot test |x| ≤ τ (R296). -/
def belowTau (f : IeeeFmt) (tau x : Nat) : Bool :=
  match fcmp (fval f x) (fval b64 tau) with | some .gt => false | none => false | _ => true

/-- `LU` of one problem (R295, R296): the singular step, or the factors and pivots. -/
def luFactor (f : IeeeFmt) (n tau : Nat) (m : List Nat) : Except Nat (Calc × List Nat) :=
  (List.range n).foldl (fun acc k =>
    match acc with
    | .error e => .error e
    | .ok (c, piv) =>
      let p := pivotRow f n k c.v
      let m1 := if p = k then c.v else swapRows c.v n k p
      let u := elem m1 n k k
      if belowTau f tau (clearSign f u) then .error k
      else
        let c2 := ((List.range n).filter (k < ·)).foldl (fun (c : Calc) i =>
          let l := fpDiv f .rne (elem c.v n i k) u
          ((List.range n).filter (k < ·)).foldl (fun (c : Calc) j =>
            let x := fpFma f .rne true false l.bits (elem c.v n k j) (elem c.v n i j)
            ⟨c.v.set (i * n + j) x.bits, c.fl ||| x.flags⟩) ⟨c.v.set (i * n + k) l.bits, c.fl ||| l.flags⟩) ⟨m1, c.fl⟩
        .ok (c2, piv ++ [p])) (.ok (⟨m, 0⟩, []))

/-- `CHOL` of one problem (R295, R296). -/
def cholFactor (f : IeeeFmt) (n tau : Nat) (m : List Nat) : Except Nat Calc :=
  (List.range n).foldl (fun acc k =>
    match acc with
    | .error e => .error e
    | .ok c =>
      let row := fun (i k' : Nat) => (List.range k).map fun j => (elem c.v n i j, elem c.v n k' j)
      let sq := dotSum f (row k k)
      let s := fpSub f .rne (elem c.v n k k) sq.bits
      if belowTau f tau s.bits then .error k
      else
        let d := fpSqrt f .rne s.bits
        let c1 : Calc := ⟨c.v.set (k * n + k) d.bits, c.fl ||| sq.flags ||| s.flags ||| d.flags⟩
        .ok (((List.range n).filter (k < ·)).foldl (fun (c1 : Calc) i =>
          let t := dotSum f (row i k)
          let u := fpSub f .rne (elem c1.v n i k) t.bits
          let q := fpDiv f .rne u.bits d.bits
          ⟨c1.v.set (i * n + k) q.bits, c1.fl ||| t.flags ||| u.flags ||| q.flags⟩) c1)) (.ok ⟨m, 0⟩)

/-- One triangular substitution over every right-hand side: rows in the order given, with the coefficients of the rows
already solved and the divisor of a row, if it divides. -/
def substitute (f : IeeeFmt) (r : Nat) (rows : List Nat) (coef : Nat → Nat → Nat) (before : Nat → List Nat)
    (divisor : Nat → Option Nat) (c : Calc) : Calc :=
  rows.foldl (fun c i =>
    (List.range r).foldl (fun (c : Calc) k =>
      let t := dotSum f ((before i).map fun j => (coef i j, elem c.v r j k))
      let u := fpSub f .rne (elem c.v r i k) t.bits
      let q := match divisor i with | some d => fpDiv f .rne u.bits d | none => u
      ⟨c.v.set (i * r + k) q.bits, c.fl ||| t.flags ||| u.flags ||| q.flags⟩) c) c

/-- `LUS` (R295): the swaps, then L, then U. Where the rules leave a point open: log 30 (DEDUCED, unsafe). -/
def luSolve (f : IeeeFmt) (n r : Nat) (m piv b : List Nat) : Calc :=
  let up := List.range n
  let sw := up.foldl (fun b k => swapRows b r k (piv.getD k k)) b
  let c1 := substitute f r up (elem m n) (fun i => up.filter (· < i)) (fun _ => none) ⟨sw, 0⟩
  substitute f r up.reverse (elem m n) (fun i => up.filter (i < ·)) (fun i => some (elem m n i i)) c1

/-- `CHS` (R295): L, then Lᵀ. -/
def cholSolve (f : IeeeFmt) (n r : Nat) (m b : List Nat) : Calc :=
  let up := List.range n
  let c1 := substitute f r up (elem m n) (fun i => up.filter (· < i)) (fun i => some (elem m n i i)) ⟨b, 0⟩
  substitute f r up.reverse (fun i j => elem m n j i) (fun i => up.filter (i < ·)) (fun i => some (elem m n i i)) c1

/-- The state of `CG` in one column. -/
structure CgState where
  x : List Nat
  r : List Nat
  p : List Nat
  fl : Word
deriving DecidableEq, Repr

/-- Flags of a list of results. -/
def flagsOf (rs : List FRes) : Word := rs.foldl (fun f r => f ||| r.flags) 0

/-- y ← round(y ± c·d) by element. -/
def axpy (f : IeeeFmt) (neg : Bool) (c : Nat) (d y : List Nat) : List FRes :=
  (d.zip y).map fun p => fpFma f .rne neg false c p.1 p.2

/-- A matrix times a vector. -/
def matVec (f : IeeeFmt) (n : Nat) (m v : List Nat) : List FRes :=
  (List.range n).map fun i => dotSum f ((List.range n).map fun j => (elem m n i j, v.getD j 0))

/-- One iteration of `CG` (R295). -/
def cgStep (f : IeeeFmt) (n : Nat) (m : List Nat) (s : CgState) : CgState :=
  let rho := dotSum f (s.r.zip s.r)
  let q := matVec f n m s.p
  let pq := dotSum f (s.p.zip (q.map (·.bits)))
  let alpha : FRes := if rho.bits = 0 then ⟨0, 0⟩ else fpDiv f .rne rho.bits pq.bits
  let x' := axpy f false alpha.bits s.p s.x
  let r' := axpy f true alpha.bits (q.map (·.bits)) s.r
  let rb := r'.map (·.bits)
  let rho' := dotSum f (rb.zip rb)
  let beta : FRes := if rho.bits = 0 then ⟨0, 0⟩ else fpDiv f .rne rho'.bits rho.bits
  let p' := axpy f false beta.bits s.p rb
  ⟨x'.map (·.bits), rb, p'.map (·.bits), s.fl ||| rho.flags ||| flagsOf q ||| pq.flags ||| alpha.flags ||| flagsOf x'
    ||| flagsOf r' ||| rho'.flags ||| beta.flags ||| flagsOf p'⟩

/-- A function applied n times. -/
def times {α : Type} (f : α → α) : Nat → α → α
  | 0, a => a
  | n + 1, a => times f n (f a)

/-- Column k of a matrix of r columns. -/
def column (n r k : Nat) (m : List Nat) : List Nat := (List.range n).map fun i => elem m r i k
/-- A matrix with column k replaced. -/
def setColumn (n r k : Nat) (m v : List Nat) : List Nat := (List.range n).foldl (fun m i => m.set (i * r + k) (v.getD i 0)) m

/-- `CG` (R295). -/
def cgSolve (f : IeeeFmt) (n r iter : Nat) (m b x : List Nat) : Calc :=
  (List.range r).foldl (fun (c : Calc) k =>
    let x0 := column n r k x
    let ax := matVec f n m x0
    let r0 := ((column n r k b).zip (ax.map (·.bits))).map fun p => fpSub f .rne p.1 p.2
    let rb := r0.map (·.bits)
    let e := times (cgStep f n m) iter ⟨x0, rb, rb, 0⟩
    ⟨setColumn n r k c.v e.x, c.fl ||| flagsOf ax ||| flagsOf r0 ||| e.fl⟩) ⟨x, 0⟩

/-- One iteration of `JAC` (R295), from the previous x. -/
def jacStep (f : IeeeFmt) (n r : Nat) (m b : List Nat) (c : Calc) : Calc :=
  let out := (List.range (n * r)).map fun ik =>
    let i := ik / r
    let t := dotSum f (((List.range n).filter (· != i)).map fun j => (elem m n i j, elem c.v r j (ik % r)))
    let u := fpSub f .rne (b.getD ik 0) t.bits
    let q := fpDiv f .rne u.bits (elem m n i i)
    FRes.mk q.bits (t.flags ||| u.flags ||| q.flags)
  ⟨out.map (·.bits), c.fl ||| flagsOf out⟩

/-- `JAC` (R295, R296). -/
def jacSolve (f : IeeeFmt) (n r iter tau : Nat) (m b x : List Nat) : Except Nat Calc :=
  match (List.range n).find? fun k => belowTau f tau (clearSign f (elem m n k k)) with
  | some k => .error k
  | none => .ok (times (jacStep f n r m b) iter ⟨x, 0⟩)

/-- The arrays a problem reads (address, bytes): A, then B, X and the pivots where the command uses them. -/
def SlvDesc.inputs (d : SlvDesc) (cmd p : Nat) : List (Nat × Nat) :=
  let v := d.n * d.r * d.z
  [(d.a + p * d.n * d.n * d.z, d.n * d.n * d.z), (d.b + p * v, if slvSolves cmd then v else 0),
   (d.x + p * v, if cmd = 5 ∨ cmd = 6 then v else 0), (d.aux + 32 * p, if cmd = 2 then d.n else 0)]

/-- The arrays a problem writes: its output, the pivots of `LU`, its status word. -/
def SlvDesc.outputs (d : SlvDesc) (cmd p : Nat) : List (Nat × Nat) :=
  let v := d.n * d.r * d.z
  [if slvSolves cmd then (d.x + p * v, v) else (d.a + p * d.n * d.n * d.z, d.n * d.n * d.z),
   (d.aux + 32 * p, if cmd = 1 then d.n else 0), (d.status + 4 * p, 4)]

/-- Numbers of z bytes each from bytes. -/
def numbers (z n : Nat) (bs : List Byte) : List Nat := (List.range n).map fun i => field bs (z * i) z
/-- The bytes of numbers of z bytes each. -/
def numberBytes (z : Nat) (ns : List Nat) : List Byte := ns.flatMap (toBytes z)

/-- The outputs of one problem: output array, pivots, status word, and whether it is singular (R295, R296). -/
def slvProblem (d : SlvDesc) (cmd tau seed : Nat) (ins : List (List Byte)) : List (List Byte) × Bool :=
  let f := d.ieee
  let nan := fun (k : Nat) => (if d.fmt = 0 then 0x7FF8000000000000 else 0x7FC00000) + k
  let cells := if slvSolves cmd then d.n * d.r else d.n * d.n
  let m := numbers d.z (d.n * d.n) (ins.getD 0 [])
  let b := numbers d.z (d.n * d.r) (ins.getD 1 [])
  let x := numbers d.z (d.n * d.r) (ins.getD 2 [])
  let piv := ((ins.getD 3 []).zipIdx.map fun q =>
    if q.1.toNat < d.n then q.1.toNat else (Config.freeWord (seed + q.2)).toNat % d.n)
  let good := fun (c : Calc) (aux : List Nat) => ([numberBytes d.z c.v, numberBytes 1 aux, toBytes 4 ((c.fl &&& 15).toNat * 2)], false)
  let bad := fun (k : Nat) => ([numberBytes d.z (List.replicate cells (nan k)),
    List.replicate (if cmd = 1 then d.n else 0) (0xFF : Byte), toBytes 4 (k * 256 + 1)], true)
  if cmd = 1 then (match luFactor f d.n tau m with | .ok (c, p) => good c p | .error k => bad k)
  else if cmd = 2 then good (luSolve f d.n d.r m piv b) []
  else if cmd = 3 then (match cholFactor f d.n tau m with | .ok c => good c [] | .error k => bad k)
  else if cmd = 4 then good (cholSolve f d.n d.r m b) []
  else if cmd = 5 then good (cgSolve f d.n d.r d.iter m b x) []
  else (match jacSolve f d.n d.r d.iter tau m b x with | .ok c => good c [] | .error k => bad k)

/-- Several ranges read. -/
def readRanges (units : List (Nat × Nat)) (by' : Reader) (asid : Nat) : List (Nat × Nat) → State → State × Except EngErr (List (List Byte))
  | [], s => (s, .ok [])
  | (va, n) :: rs, s =>
    match (if n = 0 then (s, .ok []) else readVirt s units by' asid va n) with
    | (s1, .error e) => (s1, .error e)
    | (s1, .ok bs) =>
      let r := readRanges units by' asid rs s1
      (r.1, match r.2 with | .ok l => .ok (bs :: l) | .error e => .error e)

/-- Several ranges checked for writing. -/
def checkRanges (units : List (Nat × Nat)) (asid : Nat) (rs : List (Nat × Nat)) (s : State) : State × Option EngErr :=
  rs.foldl (fun (acc : State × Option EngErr) r =>
    match acc.2 with
    | some e => (acc.1, some e)
    | none => if r.2 = 0 then acc else writable acc.1 units asid r.1 r.2) (s, none)

/-- Several ranges written. -/
def writeRanges (units : List (Nat × Nat)) (core asid node cohort stamp : Nat) (ws : List (Nat × List Byte)) (s : State) :
    State × Nat :=
  ws.foldl (fun (acc : State × Nat) w =>
    let r := writeVirt acc.1 units core asid node cohort stamp w.1 w.2
    (r.1, Nat.max acc.2 r.2)) (s, 0)

/-- The earlier writes still in flight of an entry's lowest-lane thread that overlap the lines of ranges brought to their homes: the
command's writes come after them (R159, R260, R301). -/
def settleOwn (units : List (Nat × Nat)) (asid : Nat) (e : QEntry) (rs : List (Nat × Nat)) (s : State) : State :=
  let own := s.access.filter fun a => !a.arrived && a.thread == e.low.thread && decide (a.id < e.id)
  if own.isEmpty then s
  else
    let lines := rs.flatMap fun r => (splitLines r.1 (List.replicate r.2 0) (r.2 / 128 + 2)).filterMap fun c =>
      match (translate s units asid c.1 .write).2 with | .ok t => some (lineOf (paOf t c.1)) | _ => none
    (own.filter fun a => a.writes.any fun w => lines.contains (lineOf w.1)).foldl arriveAccess s

/-- Several ranges written by a command for its lowest-lane thread (R260, R301, R359). -/
def writeOwn (units : List (Nat × Nat)) (core asid node : Nat) (e : QEntry) (ws : List (Nat × List Byte)) (s : State) : State × Nat :=
  writeRanges units core asid node e.cohort (lowWct s e) ws (settleOwn units asid e (ws.map fun w => (w.1, w.2.length)) s)

/-- Ranges left in an unstated state (R297, R302): free bytes wherever they can be written. Where the rules leave a point open: log 8 (DESIGN CHOICE, safe). -/
def scramble (units : List (Nat × Nat)) (core asid node cohort stamp : Nat) (rs : List (Nat × Nat)) (s : State) : State :=
  let chunks := rs.flatMap fun r => (List.range ((r.2 + 15) / 16)).map fun i => (r.1 + 16 * i, Nat.min 16 (r.2 - 16 * i))
  let out := chunks.zipIdx.foldl (fun (s : State) ck =>
    match writable s units asid ck.1.1 ck.1.2 with
    | (s1, none) =>
      (writeVirt s1 units core asid node cohort stamp ck.1.1
        ((List.range ck.1.2).map fun i => Config.freeByte s.seqno (16 * ck.2 + i))).1
    | (s1, some _) => s1) s
  { out with seqno := out.seqno + 1 }

/-- The problems of a command from index p on, with the singular ones counted so far; the second component keeps the place
for a command that waits (R297). `fatal`: the driver declared the fault of problem p fatal. -/
def slvProblems (core : Nat) (e : QEntry) (d : SlvDesc) (tau : Nat) : Nat → Nat → Nat → Bool → State → EngOut × List Nat
  | 0, _, sing, _, s => (.done s [(e.low.lane, [BitVec.ofNat 32 sing])], [])
  | left + 1, p, sing, fatal, s =>
    let cmd := (cmdF e.word).toNat
    let units := engineUnits core 3
    let asid := (entryAsid s e).1
    let node := (entryAsid s e).2
    let stop := fun (s : State) (err : EngErr) =>
      match err with
      | .missing va q =>
        if fatal then (EngOut.fault (scramble units core asid node e.cohort (lowWct s e) (d.outputs cmd p) s) e.refusal, [])
        else (.missing s va q, [p, sing])
      | .fatal c => (.fault (scramble units core asid node e.cohort (lowWct s e) (d.outputs cmd p) s) c, [])
    match readRanges units (entryReader s core e) asid (d.inputs cmd p) s with
    | (s1, .error err) => stop s1 err
    | (s1, .ok ins) =>
      match checkRanges units asid (d.outputs cmd p) s1 with
      | (s2, some err) => stop s2 err
      | (s2, none) =>
        let out := slvProblem d cmd tau s2.seqno ins
        let stamp := (d.inputs cmd p).foldl (fun st r => Nat.max st (virtStamp s2 units asid r.1 r.2)) 0
        let w := writeOwn units core asid node e (((d.outputs cmd p).map (·.1)).zip out.1)
          { s2 with seqno := s2.seqno + 32 }
        slvProblems core e d tau left (p + 1) (sing + out.2.toNat) false (mergeLow w.1 e (Nat.max w.2 stamp))

/-- A solver command (R293-R297). -/
def runSlv (s : State) (core : Nat) (e : QEntry) : EngOut × List Nat :=
  let a := pairNum e.low.a
  if (cmdF e.word).toNat = 0 then
    (if isNaN b64 a || isInf b64 a || (signBit b64 a && !isZero b64 a) then (.fault s 0x02, [])
     else (.done (modCohort s e.cohort fun x => { x with tau := BitVec.ofNat 64 (clearSign b64 a) }) [], []))
  else
    let tau := (((getCohort s e.cohort).map Cohort.tau).getD 0).toNat
    let start := e.aux.getD 0 0
    if a % 64 ≠ 0 then (.fault s 0x06, [])
    else if a + 64 > 2 ^ 57 then (.fault s 0x07, [])
    else
      let asid := (entryAsid s e).1
      let first := e.aux.isEmpty
      let fatal := e.refused
      match readVirt s (engineUnits core 3) (entryReader s core e) asid a 64 with
      | (s1, .error (.missing va p)) => if fatal then (.fault s1 e.refusal, []) else (.missing s1 va p, e.aux)
      | (s1, .error (.fatal c)) => (.fault s1 c, [])
      | (s1, .ok bs) =>
        let d := slvDesc bs
        if !d.legal (cmdF e.word).toNat then (.fault s1 0x02, [])
        else
          let s2 := if first then mergeLow s1 e (virtStamp s1 (engineUnits core 3) asid a 64) else s1
          slvProblems core e d tau (d.batch - start) start (e.aux.getD 1 0) (fatal && !first) s2

end Sys2Proof.Machine
end

