-- ==== Sys2Proof/Machine/Matrix.lean ====
section
/-! DEFINITION. The Girder array: passes (R104-R106), the `MTX` commands (R246-R265), output conversion (R107) and the drain
(R261-R264). -/

namespace Sys2Proof.Machine

/-- The elements of a row as patterns: Z6 rows are packed bit strings (R26, R249). -/
def mtxElems (fmt : Nat) (bs : List Byte) : List Nat :=
  if fmt = 1 then
    let n := ofBytes bs
    (List.range 64).map fun j => n / 2 ^ (6 * j) % 64
  else
    let z := mtxRowBytes fmt / 64
    (List.range 64).map fun j => field bs (z * j) z

/-- The value of an element (R104). -/
def mtxValue (fmt x : Nat) : FVal :=
  if fmt = 0 then zval z8 x else if fmt = 1 then zval z6 x else if fmt = 2 then fval b16 x
  else if fmt = 3 then fval bf16 x else if fmt = 4 then fval b32 x else fval b64 x

/-- The acc26 format (R105), whose patterns have no subnormals. -/
def acc26 : IeeeFmt := ⟨8, 17⟩
/-- The format of partials of a chain: 0 acc26, 1 binary32, 2 binary64 (R106). -/
def chainFmt (kind : Nat) : IeeeFmt := if kind = 0 then acc26 else if kind = 1 then b32 else b64
/-- The chain of an element format (R106). -/
def chainKind (fmt : Nat) : Nat := if fmt ≤ 3 then 0 else if fmt = 4 then 1 else 2

/-- A value into acc26 (R105). -/
def toAcc26 (v : FVal) : FRes :=
  let r := roundAcc26 v
  ⟨match r.1 with | .nan => acc26.canonNaN | w => (roundFVal acc26 .rne w).bits, r.2⟩

/-- P ← chain(exact(P + A × W)) (R106). Where the rules leave a point open: log 29 (DEDUCED, unsafe). -/
def chainStep (kind : Nat) (fa fw : Nat) (a w p : Nat) (nar : Bool) : FRes :=
  if kind = 0 then
    let prod := if nar then FVal.nan else mulFVal (mtxValue fa a) (mtxValue fw w)
    toAcc26 (addFVal .rne (fval acc26 p) prod)
  else fpFma (chainFmt kind) .rne false false a w p

/-- Whether element formats make a compatible pair (R246). -/
def mtxCompatible (fw fa : Nat) : Bool := (decide (fw ≤ 3) && decide (fa ≤ 3)) || fw == fa

/-- The bank that rows entering now use (R251). -/
def Girder.bank (g : Girder) (x : Nat) : Bank := if x = 0 then g.bank0 else g.bank1
/-- An array with a bank replaced. -/
def Girder.setBank (g : Girder) (x : Nat) (b : Bank) : Girder := if x = 0 then { g with bank0 := b } else { g with bank1 := b }

/-- Sticky OVF and UNF from flags (R105-R107). -/
def Girder.flag (g : Girder) (fl : Word) : Girder :=
  { g with ovf := g.ovf || fl.getLsbD 2, unf := g.unf || fl.getLsbD 3 }

/-- One row formed for the pass that enters (R106, R254): its partials in the interval. -/
def formRow (b : Bank) (kind : Nat) (iv : Interval) (row : ArrayRow) : Interval × Word :=
  let az := decide (row.fmt ≤ 1)
  let wz := decide (b.fmt ≤ 1)
  let out := (List.range 64).map fun j =>
    let nar := (az && row.sa == 255) || (wz && b.scales.getD j 0x7F == 255)
    let p0 := (getK iv.parts (64 * row.m + j)).getD 0
    (List.range 64).foldl (fun (acc : FRes) k =>
      let r := chainStep kind row.fmt b.fmt (row.elems.getD k 0) (b.w.getD (64 * k + j) 0) acc.bits nar
      ⟨r.bits, acc.flags ||| r.flags⟩) ⟨p0, 0⟩
  ({ iv with
      parts := out.zipIdx.foldl (fun m r => putK m (64 * row.m + r.2) r.1.bits) iv.parts
      formed := if iv.formed.contains row.m then iv.formed else iv.formed ++ [row.m]
      sa := if iv.formed.contains row.m then iv.sa else putK iv.sa row.m (if az then row.sa else 127) },
    flagsOf out)

/-- An interval's partials in the format of another chain. Where the rules leave a point open: log 29 (DEDUCED, unsafe). -/
def Interval.toKind (iv : Interval) (kind : Nat) : Interval :=
  if iv.kind = kind then iv
  else
    { iv with
      kind := kind
      parts := iv.parts.map fun p => (p.1, (fpConvert (chainFmt iv.kind) (chainFmt kind) .rne p.2).bits) }

/-- The rows that wait enter the array as one pass (R252-R254). -/
def enterPass (g : Girder) : Girder :=
  match g.feed with
  | [] => g
  | row :: _ =>
    let b := g.bank g.active
    let kind := chainKind row.fmt
    let iv0 := match g.opened with
      | some iv => iv.toKind kind
      | none => ⟨row.tile, 0, kind, if b.fmt ≤ 1 then b.scales else List.replicate 64 127, [], [], []⟩
    let r := g.feed.foldl (fun (acc : Interval × Word) row =>
      let x := formRow b kind acc.1 row
      (x.1, acc.2 ||| x.2)) (iv0, 0)
    let iv := { r.1 with count := r.1.count + 1 }
    let closes := decide (iv.count ≥ g.interval)
    let rows := g.feed.map fun x => { x with bank := g.active, elems := [], promote := if x.last && closes then some iv else none }
    { g.flag r.2 with feed := [], rows := g.rows ++ rows, opened := if closes then none else some iv }

/-- Rows given to the array (R257): they enter a BUSY array at once. Where the rules leave a point open: log 29 (DEDUCED, unsafe). -/
def feedRows (g : Girder) (rows : List ArrayRow) : Girder :=
  let g1 := { g with feed := rows }
  if g.ramp = 2 then enterPass g1
  else { g1 with ramp := if g.ramp = 0 then 1 else if g.ramp = 3 then 4 else g.ramp }

/-- An element of a tile. -/
def Girder.elem (g : Girder) (tile r c : Nat) : Word := (getK g.tiles (4096 * tile + 64 * r + c)).getD 0
/-- A tile element written; its error, if any, is gone. -/
def Girder.setElem (g : Girder) (tile r c : Nat) (x : Word) : Girder :=
  let i := 4096 * tile + 64 * r + c
  { g with tiles := if x = 0 then delK g.tiles i else putK g.tiles i x, poison := g.poison.filter (· != i) }

/-- T ← tile_round(exact(T + to_b32(P) × 2^s)) in one element (R106). -/
def promoteElem (kind : Nat) (t p : Nat) (s : Int) : FRes :=
  let f := if kind = 2 then b64 else b32
  let q := if kind = 0 then (match fval acc26 p with | .nan => b32.canonNaN | v => (rne32 v).bits) else p
  match firstNaN f [t, q] with
  | some n => ⟨n, 0⟩
  | none =>
    let sp := match fval f q with | .fin n m e => FVal.fin n m (e + s) | v => v
    sumFVal f .rne (fval f t) sp

/-- Whether an element of a tile has an uncorrectable error (R266). -/
def Girder.badElem (g : Girder) (tile r c : Nat) : Bool := g.poison.contains (4096 * tile + 64 * r + c)

/-- Whether a promotion reads an element with an uncorrectable error (R266). -/
def promotesBad (g : Girder) (iv : Interval) : Bool :=
  iv.formed.any fun m => (List.range 64).any fun j =>
    g.badElem iv.tile m j || (iv.kind == 2 && g.badElem (iv.tile + 1) m j)

/-- An interval promoted into its tile (R253, R254): rows not formed keep their elements. An element with an uncorrectable error keeps it
(R266). Where the rules leave a point open: log 29 (DEDUCED, unsafe). -/
def promoteInterval (g : Girder) (iv : Interval) : Girder :=
  iv.formed.foldl (fun g m =>
    (List.range 64).foldl (fun (g : Girder) j =>
      let p := (getK iv.parts (64 * m + j)).getD 0
      let s : Int := ((iv.sw.getD j 127 : Nat) : Int) - 127 + (((getK iv.sa m).getD 127 : Nat) : Int) - 127
      if g.badElem iv.tile m j || (iv.kind == 2 && g.badElem (iv.tile + 1) m j) then g
      else if iv.kind = 2 then
        let t := (g.elem iv.tile m j).toNat + (g.elem (iv.tile + 1) m j).toNat * 2 ^ 32
        let r := promoteElem 2 t p s
        (((g.setElem iv.tile m j (BitVec.ofNat 32 r.bits)).setElem (iv.tile + 1) m j (BitVec.ofNat 32 (r.bits / 2 ^ 32)))).flag r.flags
      else
        let r := promoteElem iv.kind (g.elem iv.tile m j).toNat p s
        (g.setElem iv.tile m j (BitVec.ofNat 32 r.bits)).flag r.flags) g) g

/-- Whether every earlier row has left the array. -/
def Girder.drained (g : Girder) : Bool := g.feed.isEmpty && g.rows.isEmpty

/-- Whether an element format is one that a context has: Z6 needs its feature (R388). -/
def mtxFmtOk (s : State) (e : QEntry) (fmt : Nat) : Bool :=
  decide (fmt ≤ 5) && (fmt != 1 || (match getThread s e.low.thread with
    | some th => th.lc.feats.getLsbD 1
    | none => (ctxFeatures s (entryAsid s e).1).getLsbD 1))

/-- Rows of an `MTX` command: aligned to 16 and global; with the values they had at its issue (R249, R256), else read now. -/
def readRows (core : Nat) (by' : Reader) (asid : Nat) (seen : List (Nat × Nat × List Byte)) : List (Nat × Nat) → State →
    State × Except EngErr (List (List Byte))
  | [], s => (s, .ok [])
  | (va, n) :: rs, s =>
    let go := fun (s : State) (bs : List Byte) =>
      let r := readRows core by' asid seen rs s
      (r.1, match r.2 with | .ok l => .ok (bs :: l) | .error e => .error e)
    if va % 16 ≠ 0 then (s, .error (.fatal 0x06))
    else
      match seen.find? fun x => x.1 == va with
      | some x => go s x.2.2
      | none =>
        match readVirt s (tlbUnits core) by' asid va n with
        | (s1, .error e) => (s1, .error e)
        | (s1, .ok bs) => go s1 bs

/-- The stamp of a row that a command has read (R353). -/
def rowStamp (s : State) (core asid : Nat) (e : QEntry) (r : Nat × Nat) : Nat :=
  match e.seen.find? fun x => x.1 == r.1 with
  | some x => x.2.1
  | none => virtStamp s (tlbUnits core) asid r.1 r.2

/-- `MWLD` (R249), from a pair and a control word. -/
def mtxLoad (s : State) (core : Nat) (e : QEntry) (a c : Nat) : EngOut :=
  let g := getGirder s core
  let x := c / 8 % 2
  let fmt := c % 8
  let asid := (entryAsid s e).1
  if !g.feed.isEmpty || g.rows.any fun r => r.bank == x then .hold
  else if c / 2 ^ 28 ≠ 0 ∨ c / 16 % 2 ^ 12 ≠ 0 ∨ !mtxFmtOk s e fmt then .fault s 0x02
  else if strideOf (c / 2 ^ 16 % 2 ^ 12) (mtxRowBytes fmt) < mtxRowBytes fmt then .fault s 0x06
  else
    let rs := mwldRows a c
    match readRows core (entryReader s core e) asid e.seen rs s with
    | (s1, .error err) => err.out s1
    | (s1, .ok bs) =>
      let st := rs.foldl (fun st r => Nat.max st (rowStamp s1 core asid e r)) 0
      .done (mergeLow (putGirder s1 core (g.setBank x
        { g.bank x with valid := true, fmt := fmt, w := bs.flatMap (mtxElems fmt), load := some (a, c, e.pc) })) e st) []

/-- `MWSCL` (R250). -/
def mtxScales (s : State) (core : Nat) (e : QEntry) (a c : Nat) : EngOut :=
  let g := getGirder s core
  let x := c / 8 % 2
  let asid := (entryAsid s e).1
  if !g.feed.isEmpty || g.rows.any fun r => r.bank == x then .hold
  else if c ≠ 8 * x then .fault s 0x02
  else
    match readRows core (entryReader s core e) asid e.seen [(a, 64)] s with
    | (s1, .error err) => err.out s1
    | (s1, .ok bs) =>
      .done (mergeLow (putGirder s1 core (g.setBank x
        { g.bank x with scales := bs.flatten.map (·.toNat), scl := some (a, c, e.pc) })) e (rowStamp s1 core asid e (a, 64))) []

/-- `MSTR` (R252-R254). Where the rules leave a point open: log 29 (DEDUCED, unsafe). -/
def mtxStream (s : State) (core : Nat) (e : QEntry) : EngOut :=
  let g := getGirder s core
  let c := wordAt e.low.b 0
  let tile := c % 32
  let fmt := c / 2 ^ 8 % 8
  let b := g.bank g.active
  let size := mtxRowBytes fmt
  let badCtl := fun (c : Nat) => c / 2 ^ 11 % 2 != 0 || c / 2 ^ 5 % 8 != 0
  let differs := fun (o : LaneOps) => wordAt o.b 0 % 32 != tile || wordAt o.b 0 / 2 ^ 8 % 8 != fmt
  if !g.feed.isEmpty then .hold
  else if (e.ops.any fun o => badCtl (wordAt o.b 0) || differs o) || badCtl c || !mtxFmtOk s e fmt || (fmt == 5 && tile % 2 == 1)
      || !b.valid || !mtxCompatible b.fmt fmt || (match g.opened with | some iv => iv.tile != tile | none => false) then
    .fault s 0x02
  else if e.prog ∧ c / 2 ^ 12 % 2 ^ 12 ≠ 0 ∧ c / 2 ^ 12 % 2 ^ 12 * 16 < size then .fault s 0x06
  else
    let rs := mstrRows e size
    match readRows core (entryReader s core e) (entryAsid s e).1 e.seen (rs.map fun r => (r.2.1, size)) s with
    | (s1, .error err) => err.out s1
    | (s1, .ok bs) =>
      let n := rs.length
      let rows := (rs.zip bs).zipIdx.map fun r =>
        ArrayRow.mk r.1.1.1 tile fmt (mtxElems fmt r.1.2) r.1.1.2.2 (r.2 + 1 == n) 0 none
          (if r.2 + 1 = n then some { e with seen := [] } else none)
      let stamp := fun (va : Nat) => rowStamp s1 core (entryAsid s e).1 e (va, size)
      let s2 := if e.prog then mergeLow s1 e (rs.foldl (fun st r => Nat.max st (stamp r.2.1)) 0)
        else e.ops.foldl (fun s o => modThread s o.thread (mergeWct · (stamp (pairNum o.a)))) s1
      .done (putGirder s2 core (feedRows g rows)) []

/-- `MSWAP` (R251). -/
def mtxSwap (s : State) (core v : Nat) : EngOut :=
  let g := getGirder s core
  if !g.feed.isEmpty then .hold
  else .done (putGirder s core { g with active := if v = 0 then 1 - g.active else v - 1 }) []

/-- `MPROM` (R255). -/
def mtxProm (s : State) (core v : Nat) : EngOut :=
  let g := getGirder s core
  if !g.drained then .hold
  else if g.opened.isSome then .fault s 0x02
  else .done (putGirder s core { g with interval := 2 ^ v }) []

/-- `MZERO` (R258). -/
def mtxZero (s : State) (core c : Nat) : EngOut :=
  let g := getGirder s core
  if !g.drained then .hold
  else if c / 64 ≠ 0 ∨ (c / 32 % 2 = 1 ∧ c % 2 = 1) then .fault s 0x02
  else
    let lo := 4096 * (c % 32)
    let hi := lo + (if c / 32 % 2 = 1 then 8192 else 4096)
    .done (putGirder s core { g with
      tiles := g.tiles.filter fun x => decide (x.1 < lo) || decide (hi ≤ x.1)
      poison := g.poison.filter fun i => decide (i < lo) || decide (hi ≤ i) }) []

/-- Whether a control word of `MRD` or `MWR` is legal (R259). -/
def mrdLegal (c : Nat) : Bool := c / 2 ^ 19 == 0 && c / 2 ^ 14 % 4 == 0 && c / 2 ^ 5 % 8 == 0
/-- The first element a control word of `MRD` or `MWR` names. -/
def mrdFirst (c : Nat) : Nat := 4096 * (c % 32) + 64 * (c / 2 ^ 8 % 64) + 8 * (c / 2 ^ 16 % 8)

/-- `MRD` (R259). -/
def mtxRead (s : State) (core : Nat) (e : QEntry) : EngOut :=
  let g := getGirder s core
  let ctl := fun (o : LaneOps) => wordAt o.a 0
  if !g.drained then .hold
  else if !(e.ops.all fun o => mrdLegal (ctl o)) then .fault s 0x02
  else if e.ops.any fun o => (List.range 8).any fun i => g.poison.contains (mrdFirst (ctl o) + i) then .fault s 0x0B
  else .done s (e.ops.map fun o => (o.lane, (List.range 8).map fun i => (getK g.tiles (mrdFirst (ctl o) + i)).getD 0))

/-- `MWR` (R259): the highest lane's value stands. -/
def mtxWrite (s : State) (core : Nat) (e : QEntry) : EngOut :=
  let g := getGirder s core
  let ctl := fun (o : LaneOps) => wordAt o.a 0
  if !g.drained then .hold
  else if !(e.ops.all fun o => mrdLegal (ctl o)) then .fault s 0x02
  else .done (putGirder s core (e.ops.foldl (fun g o =>
    (List.range 8).foldl (fun (g : Girder) i =>
      let k := mrdFirst (ctl o) + i
      g.setElem (k / 4096) (k / 64 % 64) (k % 64) (o.b.getD i 0)) g) g)) []

/-- The largest finite value of an output format as binary32 (R260). -/
def moutLimit (ofmt : Nat) : Nat :=
  if ofmt = 0 then 0x4B800000 else if ofmt = 1 then 0x43800000 else if ofmt = 2 then 0x477FE000
  else if ofmt = 3 then 0x7F7F0000 else 0x7F7FFFFF

/-- The conversion of one element (R107, R260), with its flags. -/
def moutElem (v ofmt t f : Nat) : FRes :=
  let y := fpMul b32 .rne t f
  let l := moutLimit ofmt
  let hi := if v = 0 then b32.inf false else l
  let lo := if v = 0 then b32.inf true else if v = 1 then l + b32.signWeight else 0
  let z := if isNaN b32 y.bits then y.bits
    else (fpSelect b32 false false (fpSelect b32 true false y.bits lo).bits hi).bits
  let r : FRes := if ofmt = 0 then zOfIeee z8 b32 z else if ofmt = 1 then zOfIeee z6 b32 z
    else if ofmt = 2 then fpConvert b32 b16 .rne z else if ofmt = 3 then fpConvert b32 bf16 .rne z else ⟨z, 0⟩
  ⟨r.bits, y.flags ||| r.flags⟩

/-- A row of output elements as bytes; Z6 rows are packed (R26). -/
def packRow (ofmt : Nat) (xs : List Nat) : List Byte :=
  if ofmt = 1 then toBytes 48 (xs.zipIdx.foldl (fun n x => n + x.1 * 2 ^ (6 * x.2)) 0)
  else xs.flatMap (toBytes (mtxRowBytes ofmt / 64))

/-- ZS set in a node's status (R107, R264). -/
def noteZs (s : State) (node : Nat) (zs : Bool) : State :=
  if zs then modNode s node fun n => { n with sticky := n.sticky ||| 4 } else s

/-- Whether an element of a tile has an uncorrectable error (R266). -/
def tileBad (g : Girder) (tile : Nat) : Bool := g.poison.any fun i => i / 4096 == tile

/-- `MOUT` (R260). Where the rules leave a point open: log 29 (DEDUCED, unsafe). -/
def mtxOut (s : State) (core : Nat) (e : QEntry) (v : Nat) : EngOut :=
  let g := getGirder s core
  let a := pairNum e.low.a
  let c := wordAt e.low.b 0
  let ofmt := c / 2 ^ 5 % 8
  let size := mtxRowBytes ofmt
  let stride := strideOf (c / 2 ^ 16 % 2 ^ 12) size
  let node := (entryAsid s e).2
  let asid := (entryAsid s e).1
  if !g.drained then .hold
  else if c / 2 ^ 28 ≠ 0 ∨ c / 2 ^ 8 % 2 ^ 8 ≠ 0 ∨ ofmt > 4 ∨ !mtxFmtOk s e ofmt then .fault s 0x02
  else if a % 16 ≠ 0 ∨ stride < size then .fault s 0x06
  else if tileBad g (c % 32) then .fault s 0x0B
  else
    let outs := (List.range 64).map fun m => (List.range 64).map fun j =>
      moutElem v ofmt (g.elem (c % 32) m j).toNat (wordAt e.low.b 1)
    let rs := (List.range 64).map fun m => (a + m * stride, size)
    match checkRanges (tlbUnits core) asid rs s with
    | (s1, some err) => err.out s1
    | (s1, none) =>
      let count := (outs.flatten.filter fun r => r.flags.getLsbD 2 || r.flags.getLsbD 6).length
      let w := writeOwn (tlbUnits core) core asid node e
        ((rs.map (·.1)).zip (outs.map fun r => packRow ofmt (r.map (·.bits)))) s1
      let s2 := putGirder w.1 core ((getGirder w.1 core).flag (flagsOf outs.flatten))
      .done (noteZs (mergeLow s2 e w.2) node ((flagsOf outs.flatten).getLsbD 6)) [(e.low.lane, [BitVec.ofNat 32 count])]

/-- A binary32 result of the drain (R262): NaNs by R90 in the order of the inputs; OVF on an overflow, or a NaN or ∞ that no
input held; UNF on a tiny inexact result. -/
def drainRound (ins : List Nat) (v : FVal) : FRes :=
  match firstNaN b32 ins with
  | some n => ⟨n, 0⟩
  | none =>
    let r := rne32 v
    let made := isNaN b32 r.bits || (isInf b32 r.bits && !(ins.any (isInf b32)))
    ⟨r.bits, (r.flags &&& 12) ||| flagIf made flOF⟩

/-- A power of a value, exact. -/
def powFVal (v : FVal) (t : Nat) : FVal :=
  match v with
  | .nan => .nan
  | .inf n => .inf (n && t % 2 == 1)
  | .fin n m e => .fin (n && t % 2 == 1) (m ^ t) (e * (t : Int))

/-- 1 as a value. -/
def oneFVal : FVal := .fin false 1 0
/-- 1 − x. -/
def oneMinus (v : FVal) : FVal := addFVal .rne oneFVal (negFVal v)

/-- A finite value as an integer over a power of 2, on a common scale. -/
def ratOf (m : Nat) (e : Int) : Nat × Nat := if e ≥ 0 then (m * 2 ^ e.toNat, 1) else (m, 2 ^ (-e).toNat)

/-- A quotient on the way through R262: an exact rational keeps its sign apart, so that zeros are signed. -/
inductive Quot where
  | nan
  | inf (neg : Bool)
  | zero (neg : Bool)
  | rat (neg : Bool) (num den : Nat)
deriving DecidableEq, Repr

/-- The exact quotient of two values. -/
def quotOf (x y : FVal) : Quot :=
  match x, y with
  | .nan, _ => .nan
  | _, .nan => .nan
  | .inf _, .inf _ => .nan
  | .inf n, .fin k _ _ => .inf (n != k)
  | .fin n _ _, .inf k => .zero (n != k)
  | .fin n m e, .fin k m2 e2 =>
    if m2 = 0 then (if m = 0 then .nan else .inf (n != k))
    else if m = 0 then .zero (n != k)
    else
      let u := ratOf m e
      let v := ratOf m2 e2
      .rat (n != k) (u.1 * v.2) (u.2 * v.1)

/-- The denominator √b + EPS of R262: rational, or the irrational root of p/q plus EPS. -/
inductive Denom where
  | known (x : Quot)
  | irr (p q : Nat) (eneg : Bool) (en ed : Nat)
deriving DecidableEq, Repr

/-- The denominator from b = u ÷ c2 and EPS. -/
def denomOf (b : Quot) (eps : FVal) : Denom :=
  match b, eps with
  | .nan, _ => .known .nan
  | _, .nan => .known .nan
  | .inf true, _ => .known .nan
  | .rat true _ _, _ => .known .nan
  | .inf false, .inf true => .known .nan
  | .inf false, _ => .known (.inf false)
  | _, .inf n => .known (.inf n)
  | .zero z, .fin n m e =>
    -- √±0 = ±0
    if m = 0 then .known (.zero (z && n)) else .known (.rat n (ratOf m e).1 (ratOf m e).2)
  | .rat false p0 q0, .fin n m e =>
    let ep := ratOf m e
    -- in lowest terms, so that the root is rational just where both parts are squares
    let p := p0 / Nat.gcd p0 q0
    let q := q0 / Nat.gcd p0 q0
    let rp := isqrt p
    let rq := isqrt q
    if rp * rp = p ∧ rq * rq = q then
      let d : Int := ((rp * ep.2 : Nat) : Int) + signed n (ep.1 * rq)
      if d = 0 then .known (.zero false) else .known (.rat (decide (d < 0)) d.natAbs (rq * ep.2))
    else .irr p q n ep.1 ep.2

/-- A lower bound of (√(p/q) + EPS) · 2^k, less than 3 below it. -/
def denomLow (p q : Nat) (eneg : Bool) (en ed k : Nat) : Int :=
  ((isqrt (p * 2 ^ (2 * k) / q) : Nat) : Int) + (signed eneg (en * 2 ^ k)).fdiv ((ed : Nat) : Int)

/-- The quotient a ÷ d rounded RNE to binary32. -/
def quotRound (a : Quot) (d : Denom) : FRes :=
  match a, d with
  | .nan, _ => invalid b32
  | _, .known .nan => invalid b32
  | .inf _, .known (.inf _) => invalid b32
  | .inf n, .known (.zero k) => ⟨b32.inf (n != k), 0⟩
  | .inf n, .known (.rat k _ _) => ⟨b32.inf (n != k), 0⟩
  | .inf n, .irr p q en em ed => ⟨b32.inf (n != decide (denomLow p q en em ed 1024 < 0)), 0⟩
  | .zero _, .known (.zero _) => invalid b32
  | .zero n, .known (.inf k) => ⟨b32.zero (n != k), 0⟩
  | .zero n, .known (.rat k _ _) => ⟨b32.zero (n != k), 0⟩
  | .zero n, .irr p q en em ed => ⟨b32.zero (n != decide (denomLow p q en em ed 1024 < 0)), 0⟩
  | .rat n _ _, .known (.inf k) => ⟨b32.zero (n != k), 0⟩
  | .rat n _ _, .known (.zero k) => ⟨b32.inf (n != k), flDZ⟩
  | .rat n x y, .known (.rat k z w) => roundRat b32 .rne (n != k) (x * w) (y * z)
  | .rat n x y, .irr p q en em ed =>
    roundIrr' b32 0 fun k =>
      let lo := denomLow p q en em ed (2 * k)
      let hi := lo + 3
      if lo ≤ 0 ∧ 0 ≤ hi then (-1, 1)
      else
        let num : Int := signed n (x * 2 ^ (3 * k))
        let u := num.fdiv (((y : Nat) : Int) * lo)
        let v := num.fdiv (((y : Nat) : Int) * hi)
        (if u ≤ v then u else v, (if u ≤ v then v else u) + 1)

/-- q of `MDRAIN.adam` (R262). -/
def adamQuotient (m c1 u c2 eps : Nat) : FRes :=
  let ins := [m, c1, u, c2, eps]
  let val := fval b32
  let r := quotRound (quotOf (val m) (val c1)) (denomOf (quotOf (val u) (val c2)) (val eps))
  match firstNaN b32 ins with
  | some n => ⟨n, 0⟩
  | none =>
    let made := isNaN b32 r.bits || (isInf b32 r.bits && !(ins.any (isInf b32)))
    ⟨r.bits, (r.flags &&& 12) ||| flagIf made flOF⟩

/-- An optimiser record (R261). -/
structure DrainRec where
  master : Nat
  state : Nat
  qout : Nat
  qscale : Nat
  step : Nat
  lr : Nat
  b1 : Nat
  b2 : Nat
  eps : Nat
  wd : Nat
  gs : Nat
  rstride : Nat
deriving DecidableEq, Repr

/-- A record from its 64 bytes. -/
def drainRec (bs : List Byte) : DrainRec :=
  ⟨field bs 0 8, field bs 8 8, field bs 16 8, field bs 24 8, field bs 32 4, field bs 36 4, field bs 40 4, field bs 44 4,
    field bs 48 4, field bs 52 4, field bs 56 4, field bs 60 4⟩

/-- The update of one element (R262): the new w, v or m, and u, with the flags. Where the rules leave a point open: log 29 (DEDUCED, unsafe). -/
def drainElem (adam : Bool) (r : DrainRec) (c1 c2 g0 w v u : Nat) : Nat × Nat × Nat × Word :=
  let val := fval b32
  let g1 := drainRound [g0, r.gs] (mulFVal (val g0) (val r.gs))
  if adam then
    let g := g1.bits
    let m' := drainRound [r.b1, v, g] (addFVal .rne (mulFVal (val r.b1) (val v)) (mulFVal (oneMinus (val r.b1)) (val g)))
    let u' := drainRound [r.b2, u, g]
      (addFVal .rne (mulFVal (val r.b2) (val u)) (mulFVal (mulFVal (oneMinus (val r.b2)) (val g)) (val g)))
    let q := adamQuotient m'.bits c1 u'.bits c2 r.eps
    let w' := drainRound [w, r.lr, q.bits, r.wd]
      (addFVal .rne (val w) (negFVal (mulFVal (val r.lr) (addFVal .rne (val q.bits) (mulFVal (val r.wd) (val w))))))
    (w'.bits, m'.bits, u'.bits, g1.flags ||| m'.flags ||| u'.flags ||| q.flags ||| w'.flags)
  else
    let g := drainRound [g1.bits, r.wd, w] (addFVal .rne (val g1.bits) (mulFVal (val r.wd) (val w)))
    let v' := drainRound [r.b1, v, g.bits] (addFVal .rne (mulFVal (val r.b1) (val v)) (val g.bits))
    let w' := drainRound [w, r.lr, v'.bits] (addFVal .rne (val w) (negFVal (mulFVal (val r.lr) (val v'.bits))))
    (w'.bits, v'.bits, u, g1.flags ||| g.flags ||| v'.flags ||| w'.flags)

/-- Re-quantisation of one column (R264): its scale code, its 64 bytes, and whether a weight saturated. -/
def requantise (ws : List Nat) : Nat × List Nat × Bool :=
  if ws.any (isNaN b32) then (0xFF, ws.map fun _ => 0x80, false)
  else
    let top := fun (w : Nat) => match fval b32 w with | .fin _ m e => if m = 0 then none else some ((bitLen m : Int) - 1 + e) | _ => none
    let infs := ws.any (isInf b32)
    let x := (ws.filterMap top).foldl (fun (b : Option Int) t =>
      match b with | none => some t | some y => if y < t then some t else some y) none
    let code : Nat := if infs then 254 else match x with | none => 0x7F | some t => (if t + 127 < 0 then 0 else if t + 127 > 254 then 254 else (t + 127).toNat)
    let one := fun (w : Nat) => match fval b32 w with
      | .fin n m e => roundZ z8 n m (e + 127 - ((code : Nat) : Int)) false
      | .inf n => ⟨if n then 0x81 else 0x7F, flZS⟩
      | .nan => ⟨0x80, 0⟩
    let out := ws.map one
    (code, out.map (·.bits), (flagsOf out).getLsbD 6)

/-- Binary32 rows of a tile-shaped array. -/
def tileRows (base stride : Nat) : List (Nat × Nat) := (List.range 64).map fun r => (base + r * stride, 256)

/-- The end of a drain: the tile zeroed unless KEEP, and the reply (R263). -/
def drainEnd (s : State) (core : Nat) (e : QEntry) (c step : Nat) : EngOut :=
  let g := getGirder s core
  let lo := 4096 * (c % 32)
  let g' := if c / 2 ^ 9 % 2 = 1 then g
    else
      { g with
        tiles := g.tiles.filter fun x => decide (x.1 < lo) || decide (lo + 4096 ≤ x.1)
        poison := g.poison.filter fun i => decide (i < lo) || decide (lo + 4096 ≤ i) }
  .done (putGirder s core g') [(e.low.lane, [BitVec.ofNat 32 step])]

/-- `MDRAIN` (R261-R264). -/
def mtxDrain (s : State) (core : Nat) (e : QEntry) (adam : Bool) : EngOut :=
  let g := getGirder s core
  let a := pairNum e.low.a
  let c := wordAt e.low.b 0
  let asid := (entryAsid s e).1
  let node := (entryAsid s e).2
  let units := tlbUnits core
  if !g.drained then .hold
  else if c / 2 ^ 11 ≠ 0 ∨ c / 2 ^ 5 % 8 ≠ 0 then .fault s 0x02
  else if a % 64 ≠ 0 then .fault s 0x06
  else if c / 2 ^ 8 % 2 = 1 then
    match readVirt s units (entryReader s core e) asid (a + 32) 4 with
    | (s1, .error err) => err.out s1
    | (s1, .ok bs) => drainEnd (mergeLow s1 e (virtStamp s1 units asid (a + 32) 4)) core e c (ofBytes bs)
  else if tileBad g (c % 32) then .fault s 0x0B
  else
    match readVirt s units (entryReader s core e) asid a 64 with
    | (s1, .error err) => err.out s1
    | (s1, .ok bs) =>
      let r := drainRec bs
      let stride := strideOf (r.rstride % 2 ^ 12) 256
      if r.rstride / 2 ^ 12 ≠ 0 then .fault s1 0x02
      else if stride < 256 ∨ r.master % 16 ≠ 0 ∨ r.state % 16 ≠ 0
          ∨ (r.qout ≠ 0 ∧ (r.qout % 16 ≠ 0 ∨ r.qscale % 16 ≠ 0)) then .fault s1 0x06
      else
        let wRows := tileRows r.master stride
        let vRows := tileRows r.state stride
        let uRows := if adam then tileRows (r.state + 64 * stride) stride else []
        let qRows := if r.qout ≠ 0 then [(r.qout, 4096), (r.qscale, 64)] else []
        let stepRow := if c / 2 ^ 10 % 2 = 1 then [(a + 32, 4)] else []
        match readRanges units (entryReader s core e) asid (wRows ++ vRows ++ uRows) s1 with
        | (s2, .error err) => err.out s2
        | (s2, .ok ins) =>
          match checkRanges units asid (wRows ++ vRows ++ uRows ++ qRows ++ stepRow) s2 with
          | (s3, some err) => err.out s3
          | (s3, none) =>
            let t := r.step + 1
            let d1 := if adam then drainRound [r.b1] (oneMinus (powFVal (fval b32 r.b1) t)) else ⟨0, 0⟩
            let d2 := if adam then drainRound [r.b2] (oneMinus (powFVal (fval b32 r.b2) t)) else ⟨0, 0⟩
            let num := fun (k i j : Nat) => field (ins.getD (64 * k + i) []) (4 * j) 4
            let out := (List.range 64).map fun i => (List.range 64).map fun j =>
              drainElem adam r d1.bits d2.bits (g.elem (c % 32) i j).toNat (num 0 i j) (num 1 i j) (num 2 i j)
            let rowOf := fun (f : Nat × Nat × Nat × Word → Nat) => out.map fun row => numberBytes 4 (row.map f)
            let cols := (List.range 64).map fun j => requantise (out.map fun row => (row.getD j (0, 0, 0, 0)).1)
            let qBytes := (List.range 64).flatMap fun i => cols.map fun col => BitVec.ofNat 8 (col.2.1.getD i 0)
            let step' := if c / 2 ^ 10 % 2 = 1 then (r.step + 1) % 2 ^ 32 else r.step
            let ws := (wRows.map (·.1)).zip (rowOf (·.1)) ++ (vRows.map (·.1)).zip (rowOf (·.2.1))
              ++ (uRows.map (·.1)).zip (rowOf (·.2.2.1))
              ++ (if r.qout ≠ 0 then [(r.qout, qBytes), (r.qscale, cols.map fun col => BitVec.ofNat 8 col.1)] else [])
              ++ stepRow.map fun x => (x.1, toBytes 4 step')
            let stamp := ((a, 64) :: wRows ++ vRows ++ uRows).foldl (fun st x => Nat.max st (virtStamp s3 units asid x.1 x.2)) 0
            let w := writeOwn units core asid node e ws s3
            let fl := out.flatten.foldl (fun f x => f ||| x.2.2.2) (d1.flags ||| d2.flags)
            let s4 := putGirder w.1 core ((getGirder w.1 core).flag fl)
            drainEnd (noteZs (mergeLow s4 e (Nat.max stamp w.2)) node (r.qout != 0 && cols.any (·.2.2))) core e c step'

/-- The status word of `MSTAT` (R265). -/
def mtxStatus (g : Girder) : Nat :=
  let iv := g.opened
  g.ovf.toNat + 2 * g.unf.toNat + 16 * (if g.interval = 1 then 0 else if g.interval = 2 then 1 else 2) + 64 * g.active
    + 128 * g.bank0.valid.toNat + 256 * g.bank1.valid.toNat + 512 * g.bank0.fmt + 4096 * g.bank1.fmt
    + 2 ^ 15 * iv.isSome.toNat + 2 ^ 16 * ((iv.map (·.tile)).getD 0) + 2 ^ 21 * ((iv.map (·.count)).getD 0)

/-- `MSTAT` (R265). -/
def mtxStat (s : State) (core : Nat) (e : QEntry) (v : Nat) : EngOut :=
  let g := getGirder s core
  if !g.drained then .hold
  else
    let words : List Word := if v = 2 then [g.faultAddr.setWidth 32, (g.faultAddr >>> 32).setWidth 32]
      else [BitVec.ofNat 32 (mtxStatus g), BitVec.ofNat 32 g.faultCode]
    .done (if v = 1 then putGirder s core { g with ovf := false, unf := false } else s) [(e.low.lane, words)]

/-- LASTF of the array (R247). -/
def mtxFaulted (core : Nat) (pc : DWord) (s : State) (cause : Nat) : State :=
  putGirder s core { getGirder s core with faultCode := cause, faultAddr := pc }

/-- An `MTX` command at its queue's head (R248): its end, or the wait of R248. A uniform command uses the lowest lane's
operands and replies to every lane of its entry (R244). -/
def runMtx (s : State) (core : Nat) (e : QEntry) : EngOut :=
  let cmd := (cmdF e.word).toNat
  let v := (vF e.word).toNat
  let a := pairNum e.low.a
  let b := wordAt e.low.b 0
  if cmd = 0 then mtxLoad s core e a b
  else if cmd = 1 then mtxScales s core e a b
  else if cmd = 2 then mtxSwap s core v
  else if cmd = 3 then mtxStream s core e
  else if cmd = 4 then mtxProm s core v
  else if cmd = 5 then mtxZero s core b
  else if cmd = 6 then mtxRead s core e
  else if cmd = 7 then mtxWrite s core e
  else if cmd = 8 then mtxOut s core e v
  else if cmd = 9 then mtxDrain s core e (v == 1)
  else mtxStat s core e v

/-- An interval promoted on a core's array for a command (R253, R254); an element that it reads with an uncorrectable error is an engine
fault of that command (R247, R266). -/
def promoteOn (s : State) (core : Nat) (g : Girder) (iv : Interval) (src : Option QEntry) : State :=
  let s1 := putGirder s core (promoteInterval g iv)
  match src with
  | some e => if promotesBad g iv then reportFault (mtxFaulted core e.pc s1 0x0B) 1 e e.ops 0x0B else s1
  | none => s1

/-- `ARRAY_ROW_EXIT` (R253, R254): the oldest row leaves the array; the last row of an interval promotes it. -/
def execArrayRowExit (core : Nat) (s : State) : Host.Outcome State Fault Refusal :=
  .next (let g := getGirder s core
    match g.rows with
    | [] => s
    | r :: rs =>
      match r.promote with
      | some iv => promoteOn s core { g with rows := rs } iv r.src
      | none => putGirder s core { g with rows := rs })

/-- `ARRAY_RAMP_UP_DONE` (R257): a ramped-up array is BUSY and the waiting rows enter. -/
def execArrayRampUpDone (core : Nat) (s : State) : Host.Outcome State Fault Refusal :=
  .next (let g := getGirder s core
    if g.ramp = 1 then putGirder s core (enterPass { g with ramp := 2 }) else s)

/-- `ARRAY_RAMP_DOWN` (R257): the ramp-down of a BUSY array starts, unless rows wait or an `MBURST` window is open; one that
runs ends in IDLE, or in the ramp-up that a row or an `MBURST` asked for. Where the rules leave a point open: log 11 (DESIGN CHOICE, safe). -/
def execArrayRampDown (core : Nat) (s : State) : Host.Outcome State Fault Refusal :=
  .next (let g := getGirder s core
    if g.ramp = 2 ∧ g.feed.isEmpty ∧ !g.burst then putGirder s core { g with ramp := 3 }
    else if g.ramp = 3 then putGirder s core { g with ramp := 0 }
    else if g.ramp = 4 then putGirder s core { g with ramp := 1 }
    else s)

/-- `MBURST_WINDOW_EXPIRY` (R240). -/
def execMburstWindowExpiry (core : Nat) (s : State) : Host.Outcome State Fault Refusal :=
  .next (putGirder s core { getGirder s core with burst := false })

/-- `OPEN_INTERVAL_WAIT_EXPIRY` (R267): the save of a cohort whose array still has an open interval begins once it has waited 65,536
core cycles. -/
def execOpenIntervalWaitExpiry (core : Nat) (s : State) : Host.Outcome State Fault Refusal :=
  .next (match (getGirder s core).owner with
    | some c =>
      (match getCohort s c with
       | some x => if x.state = 5 ∧ cyclesPast s (coreDie core) x.asked 65536 then startSave s c else s
       | none => s)
    | none => s)

/-- The intervals still open on a cohort's arrays when it is saved promoted as if their count had reached I, the node recording an early
promotion (R267, step 5 of R214). -/
def promoteOpen (s : State) (c : Nat) : State :=
  if openInterval s c then
    modNode { s with girders := s.girders.map fun g =>
        match g.2.owner == some c, g.2.opened with
        | true, some iv => (g.1, promoteInterval { g.2 with opened := none } iv)
        | _, _ => g } (((getCohort s c).map (·.node)).getD 0) fun n => { n with sticky := n.sticky ||| 64 }
  else s

end Sys2Proof.Machine
end

