-- ==== Sys2Proof/Machine/Splat.lean ====
section
/-! DEFINITION. The Scarab pipeline (R298-R320). -/

namespace Sys2Proof.Machine

/-- A binary32 field of bytes as a constant: no tangents. -/
def cst (x : Nat) : DRes := ⟨x, [], 0⟩
/-- A result as an operand. -/
def DRes.val (x : DRes) : Val := ⟨x.bits, x.tan⟩
/-- A result that carries the flags of what it was computed from. -/
def DRes.after (r : DRes) (fl : Word) : DRes := { r with flags := r.flags ||| fl }

/-- The arithmetic of the pipeline: binary32, RNE, tangents of a kernel (R308, R310). -/
structure SplCtx where
  tf : IeeeFmt
  t : Nat
deriving DecidableEq, Repr

/-- x + y. -/
def SplCtx.add (c : SplCtx) (x y : DRes) : DRes := (dAdd b32 c.tf .rne c.t x.val y.val).after (x.flags ||| y.flags)
/-- x − y. -/
def SplCtx.sub (c : SplCtx) (x y : DRes) : DRes := (dSub b32 c.tf .rne c.t x.val y.val).after (x.flags ||| y.flags)
/-- x · y. -/
def SplCtx.mul (c : SplCtx) (x y : DRes) : DRes := (dMul b32 c.tf .rne c.t x.val y.val).after (x.flags ||| y.flags)
/-- x ÷ y. -/
def SplCtx.div (c : SplCtx) (x y : DRes) : DRes := (dDiv b32 c.tf .rne c.t x.val y.val).after (x.flags ||| y.flags)
/-- √x. -/
def SplCtx.sqrt (c : SplCtx) (x : DRes) : DRes := (dSqrt b32 c.tf .rne c.t x.val).after x.flags
/-- −x. -/
def SplCtx.neg (c : SplCtx) (x : DRes) : DRes := (dNeg b32 c.tf c.t x.val).after x.flags
/-- exp(x) (R314). -/
def SplCtx.exp (c : SplCtx) (x : DRes) : DRes := (dExp c.tf c.t x.val).after x.flags
/-- A sum of three products in ascending index. -/
def SplCtx.dot3 (c : SplCtx) (x y : List DRes) : DRes :=
  let p := fun (i : Nat) => c.mul (x.getD i (cst 0)) (y.getD i (cst 0))
  c.add (c.add (p 0) (p 1)) (p 2)

/-- A 3-column matrix product with the transpose of the second if asked. -/
def SplCtx.matMul (c : SplCtx) (rows : Nat) (a b : List DRes) (transposed : Bool) (cols : Nat) : List DRes :=
  (List.range (rows * cols)).map fun ij =>
    let i := ij / cols
    let j := ij % cols
    c.dot3 ((List.range 3).map fun k => a.getD (3 * i + k) (cst 0))
      ((List.range 3).map fun k => if transposed then b.getD (3 * j + k) (cst 0) else b.getD (cols * k + j) (cst 0))

/-- x > y as numbers. -/
def gtB (x y : Nat) : Bool := fcmp (fval b32 x) (fval b32 y) == some .gt
/-- x < y as numbers. -/
def ltB (x y : Nat) : Bool := fcmp (fval b32 x) (fval b32 y) == some .lt
/-- Whether a pattern is finite. -/
def finiteB (x : Nat) : Bool := !isNaN b32 x && !isInf b32 x

/-- Field at an offset of the configuration record (R304). -/
def cam (bs : List Byte) (off : Nat) : Nat := field bs off 4
/-- Tiles along an axis of a number of pixels (R306). -/
def tilesOf (n : Nat) : Nat := (n + 15) / 16

/-- Whether a configuration record is legal (R304). -/
def camLegal (bs : List Byte) : Bool :=
  (((List.range 12) ++ [12, 13, 14, 15, 16, 17, 20, 22, 23, 24, 25]).all fun i => finiteB (cam bs (4 * i)))
    && gtB (cam bs 48) 0 && gtB (cam bs 52) 0 && gtB (cam bs 80) 0
    && decide (1 ≤ cam bs 72) && decide (cam bs 72 ≤ 16384) && decide (1 ≤ cam bs 76) && decide (cam bs 76 ≤ 16384)
    && !ltB (cam bs 88) 0
    && (isZero b32 (cam bs 84) || (gtB (cam bs 84) 0 && !gtB (cam bs 84) 0x3F800000))
    && (bs.drop 104).all (· == 0)

/-- Binary32 1, 2, 0.5, 0.1, CAP, 2⁻⁸ and −0.5. -/
def one32 : Nat := 0x3F800000
/-- See `one32`. -/
def two32 : Nat := 0x40000000
/-- See `one32`. -/
def half32 : Nat := 0x3F000000
/-- See `one32`. -/
def tenth32 : Nat := 0x3DCCCCCD
/-- See `one32`. -/
def cap32 : Nat := 0x3F7EF9DB
/-- See `one32`. -/
def skip32 : Nat := 0x3B800000
/-- See `one32`. -/
def mhalf32 : Nat := 0xBF000000

/-- The cross-product matrix of a camera axis (R310). -/
def crossOf (k : Nat) : List Int :=
  if k = 0 then [0, 0, 0, 0, 0, -1, 0, 1, 0] else if k = 1 then [0, 0, 1, 0, 0, 0, -1, 0, 0] else [0, -1, 0, 1, 0, 0, 0, 0, 0]

/-- An integer times an exact value. -/
def XR.scale (n : Int) (x : XR) : XR := if n = 0 then .zero else if n = 1 then x else if n = -1 then x.neg else .mul (.rat n 1) x

/-- The seed of ∂pc, component i (R310): its exact value for a slot code. -/
def seedPc (code i : Nat) (pc : List Nat) (view vel : List Nat) : XR :=
  let p := fun (j : Nat) => XR.ofFVal (fval b32 (pc.getD j 0))
  if 4 ≤ code ∧ code ≤ 6 then (if i = code - 4 then .rat (-1) 1 else .zero)
  else if 7 ≤ code ∧ code ≤ 9 then
    (List.range 3).foldl (fun x j => x.add (XR.scale (-((crossOf (code - 7)).getD (3 * i + j) 0)) (p j))) .zero
  else if code = 3 then
    (List.range 3).foldl (fun x j =>
      x.add (XR.mul (XR.ofFVal (fval b32 (view.getD (3 * i + j) 0))) (XR.ofFVal (fval b32 (vel.getD j 0))))) .zero
  else .zero

/-- The seed of ∂Σc, element (i, j) (R310): Σc·[e]× − [e]×·Σc. -/
def seedSigma (code i j : Nat) (sg : List Nat) : XR :=
  if 7 ≤ code ∧ code ≤ 9 then
    let m := crossOf (code - 7)
    let s := fun (a b : Nat) => XR.ofFVal (fval b32 (sg.getD (3 * a + b) 0))
    (List.range 3).foldl (fun x k =>
      (x.add (XR.scale (m.getD (3 * k + j) 0) (s i k))).add (XR.scale (-(m.getD (3 * i + k) 0)) (s k j))) .zero
  else .zero

/-- A value with seeds for its slots, each rounded once into the tangent format. -/
def seeded (c : SplCtx) (params : List Nat) (x : DRes) (seed : Nat → XR) : DRes :=
  let ts := (List.range c.t).map fun k => tround c.tf (seed (params.getD k 0))
  ⟨x.bits, ts.map (·.bits), x.flags ||| flagsOf ts⟩

/-- A finite binary32 value plus or minus an integer, divided by 16 and floored, exactly (R308). -/
def tileFloor (u : Nat) (r : Int) : Int :=
  match fval b32 u with
  | .fin n m e =>
    if e ≥ 0 then (signed n (m * 2 ^ e.toNat) + r).fdiv 16
    else (signed n m + r * ((2 ^ (-e).toNat : Nat) : Int)).fdiv ((16 * 2 ^ (-e).toNat : Nat) : Int)
  | _ => 0

/-- ⌈x⌉ of a finite non-negative binary32 value. -/
def ceilNat (x : Nat) : Nat :=
  match fval b32 x with
  | .fin _ m e => if e ≥ 0 then m * 2 ^ e.toNat else (m + 2 ^ (-e).toNat - 1) / 2 ^ (-e).toNat
  | _ => 0

/-- A projected splat (R308): U, V, CA, CB, CC, depth, radius and tile bound. -/
structure Projected where
  uv : List DRes
  depth : Nat
  r : Nat
  bound : List Nat
deriving DecidableEq, Repr

/-- The projection of one Gaussian record (R308, R310); the flags are those of its tangents; `none` is culled. Where the rules leave a point open: log 30 (DEDUCED, unsafe). -/
def project (c : SplCtx) (params : List Nat) (cf g : List Byte) : Option Projected × Word :=
  let k0 : SplCtx := ⟨c.tf, 0⟩
  let cc := fun (off : Nat) => cst (cam cf off)
  let view := (List.range 9).map fun i => cc (4 * i)
  let mean := (List.range 3).map fun i => cst (field g (4 * i) 4)
  let pc0 := (List.range 3).map fun i =>
    k0.add (k0.dot3 ((List.range 3).map fun j => view.getD (3 * i + j) (cst 0)) mean) (cc (36 + 4 * i))
  let z := (pc0.getD 2 (cst 0)).bits
  let q := (List.range 4).map fun i => cst (field g (24 + 4 * i) 4)
  let qc := fun (i : Nat) => q.getD i (cst 0)
  let sq := fun (x : DRes) => k0.mul x x
  let n := k0.sqrt (k0.add (k0.add (k0.add (sq (qc 0)) (sq (qc 1))) (sq (qc 2))) (sq (qc 3)))
  let bits := fun (l : List DRes) => l.map (·.bits)
  let vel := (List.range 3).map fun i => field g (56 + 4 * i) 4
  let pc := pc0.zipIdx.map fun p => seeded c params p.1 fun code => seedPc code p.2 (bits pc0) (bits view) vel
  if !gtB z (cam cf 80) || !gtB n.bits 0 then (none, pc.foldl (fun f v => f ||| v.flags) 0)
  else
    let w := k0.div (qc 0) n
    let x := k0.div (qc 1) n
    let y := k0.div (qc 2) n
    let zz := k0.div (qc 3) n
    let dbl := fun (a : DRes) => k0.mul (cst two32) a
    let diag := fun (a b : DRes) => k0.sub (cst one32) (dbl (k0.add (sq a) (sq b)))
    let offp := fun (a b d e : DRes) => dbl (k0.add (k0.mul a b) (k0.mul d e))
    let offm := fun (a b d e : DRes) => dbl (k0.sub (k0.mul a b) (k0.mul d e))
    let rot := [diag y zz, offm x y w zz, offp x zz w y, offp x y w zz, diag x zz, offm y zz w x, offm x zz w y, offp y zz w x,
      diag x y]
    let scale := (List.range 3).map fun i => cst (field g (12 + 4 * i) 4)
    -- a product with a diagonal matrix sums over ascending index like any other
    let dm := (List.range 9).map fun ij => if ij / 3 = ij % 3 then scale.getD (ij / 3) (cst 0) else cst 0
    let m := k0.matMul 3 rot dm false 3
    let sg0 := k0.matMul 3 (k0.matMul 3 view (k0.matMul 3 m m true 3) false 3) view true 3
    let sg := sg0.zipIdx.map fun p => seeded c params p.1 fun code => seedSigma code (p.2 / 3) (p.2 % 3) (bits sg0)
    let lens := fun (off : Nat) (code : Nat) => if code = 10 then XR.ofFVal (fval b32 (cam cf off)) else XR.zero
    let fx := seeded c params (cc 48) (lens 64)
    let fy := seeded c params (cc 52) (lens 68)
    let px := pc.getD 0 (cst 0)
    let py := pc.getD 1 (cst 0)
    let pz := pc.getD 2 (cst 0)
    let zsq := c.mul pz pz
    let j := [c.div fx pz, cst 0, c.div (c.neg (c.mul fx px)) zsq, cst 0, c.div fy pz, c.div (c.neg (c.mul fy py)) zsq]
    let s2 := c.matMul 2 (c.matMul 2 j sg false 3) j true 2
    let a := c.add (s2.getD 0 (cst 0)) (cc 88)
    let b := s2.getD 1 (cst 0)
    let d := c.add (s2.getD 3 (cst 0)) (cc 88)
    let det := c.sub (c.mul a d) (c.mul b b)
    let fl0 := (pc ++ sg ++ [fx, fy] ++ s2).foldl (fun f v => f ||| v.flags) det.flags
    if !gtB det.bits 0 then (none, fl0)
    else
      let ca := c.div d det
      let cb := c.div (c.neg b) det
      let ce := c.div a det
      let u := c.add (c.div (c.mul fx px) pz) (cc 56)
      let v := c.add (c.div (c.mul fy py) pz) (cc 60)
      let mid := c.mul (c.add a d) (cst half32)
      let disc := c.sub (c.mul mid mid) det
      let disc' := if gtB disc.bits tenth32 then disc else (cst tenth32).after disc.flags
      let lam := c.add mid (c.sqrt disc')
      let rr := c.mul (cst 0x40400000) (c.sqrt lam)
      let fl := [ca, cb, ce, u, v, rr].foldl (fun f x => f ||| x.flags) fl0
      if !([u, v, ca, cb, ce, rr].all fun x => finiteB x.bits) then (none, fl)
      else
        let r := ceilNat rr.bits
        let ri : Int := ((r : Nat) : Int)
        let lo := fun (p : Nat) => let t := tileFloor p (-ri); if t < 0 then 0 else t
        let hi := fun (p n : Nat) => let t := tileFloor p ri; let top : Int := (tilesOf n : Int) - 1; if top < t then top else t
        let x0 := lo u.bits
        let x1 := hi u.bits (cam cf 72)
        let y0 := lo v.bits
        let y1 := hi v.bits (cam cf 76)
        if x1 < x0 ∨ y1 < y0 then (none, fl)
        else (some ⟨[u, v, ca, cb, ce], z, r, [x0.toNat, y0.toNat, x1.toNat, y1.toNat]⟩, fl)

/-- The tangent count and width of the kernel that issued an entry (R309), with the PARAMS codes. -/
def splShape (s : State) (e : QEntry) : SplCtx × Nat × List Nat :=
  match getThread s e.low.thread with
  | some th => (⟨tanFmt th, th.lc.tcount⟩, if th.lc.t16 then 2 else 4, th.lc.params)
  | none => (⟨b32, 0⟩, 4, [])

/-- Bytes of a projected record (R309). -/
def projSize (t w : Nat) : Nat := 64 + 16 * ((5 * t * w + 15) / 16)
/-- Bytes of a pixel record (R315). -/
def pixelSize (t w : Nat) : Nat := 16 * ((3 * (4 + t * w) + 12 + 15) / 16)

/-- A projected record (R309); the fields of a culled one beyond its flags and bound are free (R308). Where the rules leave a point open: log 30 (DEDUCED, unsafe). -/
def projRecord (t w seed i : Nat) (g : List Byte) (p : Option Projected) : List Byte :=
  let size := projSize t w
  match p with
  | some p =>
    let head := p.uv.flatMap (fun x => toBytes 4 x.bits) ++ toBytes 4 p.depth ++ (g.drop 40).take 16 ++ p.bound.flatMap (toBytes 2)
      ++ toBytes 4 1 ++ toBytes 4 (Nat.min p.r 0xFFFFFFFF) ++ toBytes 8 0
      ++ p.uv.flatMap fun x => (List.range t).flatMap fun k => toBytes w (x.tan.getD k 0)
    head ++ List.replicate (size - head.length) 0
  | none =>
    (List.range size).map fun o =>
      if 40 ≤ o ∧ o < 52 then ([1, 1, 0, 0].flatMap (toBytes 2) ++ toBytes 4 0).getD (o - 40) 0 else Config.freeByte seed (size * i + o)

/-- Bytes read for an `SPL` command; their stamps merge into the lowest lane's `WCT` (R301). -/
def splRead (core : Nat) (e : QEntry) (s : State) (va n : Nat) : State × Except EngErr (List Byte) :=
  let asid := (entryAsid s e).1
  match readVirt s (tlbUnits core) (entryReader s core e) asid va n with
  | (s1, .ok bs) => (mergeLow s1 e (virtStamp s1 (tlbUnits core) asid va n), .ok bs)
  | r => r

/-- A walk over a list that stops at an error. -/
def eachOk {α β : Type} (f : α → State → β → State × Except EngErr β) : List α → State → β → State × Except EngErr β
  | [], s, b => (s, .ok b)
  | a :: as, s, b =>
    match f a s b with
    | (s1, .ok b1) => eachOk f as s1 b1
    | r => r

/-- The end of a command that writes: the ranges checked, written, and the reply; the ranges of a faulted one are left in an
unstated state (R302). -/
def splFinish (s : State) (core : Nat) (e : QEntry) (ws : List (Nat × List Byte)) (reply : Nat) : EngOut :=
  let asid := (entryAsid s e).1
  match checkRanges (tlbUnits core) asid (ws.map fun w => (w.1, w.2.length)) s with
  | (s1, some err) => err.out s1
  | (s1, none) =>
    let w := writeOwn (tlbUnits core) core asid (entryAsid s e).2 e ws s1
    .done (mergeLow w.1 e w.2) [(e.low.lane, [BitVec.ofNat 32 reply])]

/-- TG of a pipeline set by flags (R299). -/
def noteTg (s : State) (core : Nat) (fl : Word) : State :=
  if fl.getLsbD 5 then { s with scarabs := putK s.scarabs core { getScarab s core with tg := true } } else s

/-- A job descriptor (R305). -/
structure SplJob where
  gauss : Nat
  proj : Nat
  keys : Nat
  ttab : Nat
  image : Nat
  gin : Nat
  gout : Nat
  ng : Nat
  keycap : Nat
  t0 : Nat
  nt : Nat
  keycnt : Nat
  istride : Nat
  gstride : Nat
  rscope : Nat
  zeros : Bool
deriving DecidableEq, Repr

/-- A descriptor from its 128 bytes. -/
def splJob (bs : List Byte) : SplJob :=
  ⟨field bs 0 8, field bs 8 8, field bs 16 8, field bs 24 8, field bs 32 8, field bs 40 8, field bs 48 8, field bs 56 4,
    field bs 60 4, field bs 64 4, field bs 68 4, field bs 72 4, field bs 80 4, field bs 84 4, field bs 88 4,
    (bs.drop 92).all (· == 0)⟩

/-- The fields that a command checks (R305): limits, then alignments. -/
def SplJob.check (d : SplJob) (cmd : Nat) (cf : List Byte) (x : Nat) : Option Nat :=
  let tiles := tilesOf (cam cf 72) * tilesOf (cam cf 76)
  let blend := cmd == 4 || cmd == 5
  let limits := d.zeros
    && (!(cmd == 1 || cmd == 2) || decide (d.ng ≤ 2 ^ 24)) && (!(cmd == 2 || cmd == 3) || decide (d.keycap ≤ 2 ^ 28))
    && (cmd != 3 || decide (d.keycnt ≤ d.keycap))
    && (!blend || (decide (d.t0 + d.nt ≤ tiles) && d.istride % 16 == 0 && decide (cam cf 72 * x ≤ d.istride)))
    && (cmd != 5 || (d.gstride % 16 == 0 && decide (16 * cam cf 72 ≤ d.gstride) && decide (d.rscope ≤ 5)))
  let arrays := (if cmd = 1 then [d.gauss] else []) ++ (if cmd ≠ 3 then [d.proj] else []) ++ (if cmd ≠ 1 then [d.keys] else [])
    ++ (if cmd ≥ 3 then [d.ttab] else []) ++ (if blend then [d.image] else []) ++ (if cmd = 5 then [d.gin, d.gout] else [])
  if !limits then some 0x02 else if arrays.any (· % 16 != 0) then some 0x06 else none

/-- `SCFG` (R304). -/
def splConfig (s : State) (core : Nat) (e : QEntry) (a : Nat) : EngOut :=
  if a % 64 ≠ 0 then .fault s 0x06
  else
    match splRead core e s a 128 with
    | (s1, .error err) => err.out s1
    | (s1, .ok bs) =>
      if !camLegal bs then .fault s1 0x02
      else
        let cut := if isZero b32 (cam bs 84) then 0x39000000 else cam bs 84
        .done { s1 with scarabs := putK s1.scarabs core { getScarab s1 core with camera := bs, cutoff := BitVec.ofNat 32 cut } } []

/-- `SPROJ` (R308-R310). -/
def splProject (s : State) (core : Nat) (e : QEntry) (d : SplJob) (cf : List Byte) : EngOut :=
  let sh := splShape s e
  let p := projSize sh.1.t sh.2.1
  match eachOk (fun i s (acc : List (Nat × List Byte) × Nat × Word) =>
      match splRead core e s (d.gauss + 80 * i) 80 with
      | (s1, .error err) => (s1, .error err)
      | (s1, .ok g) =>
        let r := project sh.1 sh.2.2 cf g
        (s1, .ok (acc.1 ++ [(d.proj + i * p, projRecord sh.1.t sh.2.1 s.seqno i g r.1)], acc.2.1 + r.1.isSome.toNat, acc.2.2 ||| r.2)))
      (List.range d.ng) s ([], 0, 0) with
  | (s1, .error err) => err.out s1
  | (s1, .ok (ws, n, fl)) => splFinish (noteTg { s1 with seqno := s1.seqno + 1 } core fl) core e ws n

/-- The keys of a splat's record (R311). -/
def keysOf (rec : List Byte) (i tw : Nat) : List (List Byte) :=
  if field rec 48 4 % 2 = 0 then []
  else
    let x0 := field rec 40 2
    let y0 := field rec 42 2
    let x1 := field rec 44 2
    let y1 := field rec 46 2
    (List.range (y1 + 1 - y0)).flatMap fun dy => (List.range (x1 + 1 - x0)).map fun dx =>
      toBytes 4 (x0 + dx + tw * (y0 + dy)) ++ (rec.drop 20).take 4 ++ toBytes 4 i ++ toBytes 4 0

/-- `SBIN` (R311). -/
def splBin (s : State) (core : Nat) (e : QEntry) (desc : Nat) (d : SplJob) (cf : List Byte) : EngOut :=
  let sh := splShape s e
  let p := projSize sh.1.t sh.2.1
  match eachOk (fun i s (acc : List (List Byte)) =>
      match splRead core e s (d.proj + i * p) 64 with
      | (s1, .error err) => (s1, .error err)
      | (s1, .ok rec) => (s1, .ok (acc ++ keysOf rec i (tilesOf (cam cf 72)))))
      (List.range d.ng) s [] with
  | (s1, .error err) => err.out s1
  | (s1, .ok ks) =>
    let n := Nat.min ks.length d.keycap
    splFinish s1 core e (((ks.take n).zipIdx.map fun k => (d.keys + 16 * k.2, k.1))
      ++ [(desc + 72, toBytes 4 n ++ toBytes 4 (ks.length - n))]) n

/-- The order of keys (R312). -/
def keyBefore (x y : List Byte) : Bool :=
  let k := fun (b : List Byte) => [((field b 0 4 : Nat) : Int), orderKey b32 (field b 4 4), ((field b 8 4 : Nat) : Int), ((field b 12 4 : Nat) : Int)]
  decide (k x < k y)

/-- A key put into a sorted list. -/
def insertKey (x : List Byte) : List (List Byte) → List (List Byte)
  | [] => [x]
  | y :: ys => if keyBefore x y then x :: y :: ys else y :: insertKey x ys

/-- `SSORT` (R312). -/
def splSort (s : State) (core : Nat) (e : QEntry) (d : SplJob) (cf : List Byte) : EngOut :=
  match splRead core e s d.keys (16 * d.keycnt) with
  | (s1, .error err) => err.out s1
  | (s1, .ok bs) =>
    let ks := ((List.range d.keycnt).map fun i => (bs.drop (16 * i)).take 16).foldl (fun l k => insertKey k l) []
    let tiles := List.range (tilesOf (cam cf 72) * tilesOf (cam cf 76))
    let count := fun (t : Nat) => (ks.filter fun k => field k 0 4 == t).length
    let first := fun (t : Nat) => (ks.filter fun k => decide (field k 0 4 < t)).length
    let entry := fun (t : Nat) =>
      let n := count t
      if n = 0 then toBytes 4 d.keycnt ++ toBytes 4 0 else toBytes 4 (first t) ++ toBytes 4 (Nat.min n 65536)
    splFinish s1 core e ((ks.zipIdx.map fun k => (d.keys + 16 * k.2, k.1)) ++ tiles.map fun t => (d.ttab + 8 * t, entry t))
      (tiles.filter fun t => decide (count t > 65536)).length

/-- A splat as a blend reads it: U, V, CA, CB, CC with tangents, OPAC and COL (R309). -/
structure Splat where
  uv : List DRes
  opac : DRes
  col : List DRes
deriving DecidableEq, Repr

/-- A splat from its projected record. -/
def splatOf (t w : Nat) (rec : List Byte) : Splat :=
  ⟨(List.range 5).map fun i => ⟨field rec (4 * i) 4, (List.range t).map fun k => field rec (64 + (i * t + k) * w) w, 0⟩,
    cst (field rec 24 4), (List.range 3).map fun i => cst (field rec (28 + 4 * i) 4)⟩

/-- Pixel p's centre along an axis, p + 0.5, as binary32. -/
def pixelCentre (p : Nat) : Nat := (roundFin b32 .rne false (2 * p + 1) (-1) false).bits

/-- α, OPAC·e, e, dx and dy of a key at a pixel (R313). -/
def splatAlpha (c : SplCtx) (k : Splat) (xp yp : DRes) : DRes × DRes × DRes × DRes × DRes :=
  let g := fun (i : Nat) => k.uv.getD i (cst 0)
  let dx := c.sub xp (g 0)
  let dy := c.sub yp (g 1)
  let q := c.add (c.add (c.mul (c.mul (g 2) dx) dx) (c.mul (cst two32) (c.mul (c.mul (g 3) dx) dy))) (c.mul (c.mul (g 4) dy) dy)
  let e := c.exp (c.mul (cst mhalf32) q)
  let oe := c.mul k.opac e
  ((dSelect b32 false true ⟨cap32, []⟩ oe.val).after oe.flags, oe, e, dx, dy)

/-- What a pixel's walk has composited (R313), with the flags of every tangent computed on the way (R314). -/
structure Blend where
  t : DRes
  col : List DRes
  count : Nat
  kc : Nat
  go : Bool
  fl : Word
deriving DecidableEq, Repr

/-- A key blended into a pixel (R313, R314). -/
def blendKey (c : SplCtx) (cutoff : Nat) (xp yp : DRes) (k : Splat) (b : Blend) : Blend :=
  let al := (splatAlpha c k xp yp).1
  let b1 := { b with kc := b.kc + 1, fl := b.fl ||| al.flags }
  if ltB al.bits skip32 then b1
  else
    let t' := c.mul b.t (c.sub (cst one32) al)
    { b1 with
      col := (b.col.zip k.col).map fun x => c.add x.1 (c.mul (c.mul x.2 al) b.t)
      t := t'
      count := b.count + 1
      go := !ltB t'.bits cutoff }

/-- The splat of key number n, read from memory. -/
def readSplat (core : Nat) (e : QEntry) (d : SplJob) (t w n : Nat) (s : State) : State × Except EngErr (Nat × Splat) :=
  match splRead core e s (d.keys + 16 * n) 16 with
  | (s1, .error err) => (s1, .error err)
  | (s1, .ok k) =>
    let i := field k 8 4
    match splRead core e s1 (d.proj + i * projSize t w) (projSize t w) with
    | (s2, .error err) => (s2, .error err)
    | (s2, .ok rec) => (s2, .ok (i, splatOf t w rec))

/-- The walk of a pixel's keys (R313): no key after the stopping one is read. Where the rules leave a point open: log 30 (DEDUCED, unsafe). -/
def blendWalk (core : Nat) (e : QEntry) (d : SplJob) (c : SplCtx) (w cutoff : Nat) (xp yp : DRes) :
    Nat → Nat → State → Blend → State × Except EngErr Blend
  | 0, _, s, b => (s, .ok b)
  | left + 1, n, s, b =>
    if !b.go then (s, .ok b)
    else
      match readSplat core e d c.t w n s with
      | (s1, .error err) => (s1, .error err)
      | (s1, .ok k) => blendWalk core e d c w cutoff xp yp left (n + 1) s1 (blendKey c cutoff xp yp k.2 b)

/-- The pixels of a tile inside the image, row-major (R306). -/
def tilePixels (cf : List Byte) (tile : Nat) : List (Nat × Nat) :=
  let tw := tilesOf (cam cf 72)
  (List.range 256).filterMap fun i =>
    let x := 16 * (tile % tw) + i % 16
    let y := 16 * (tile / tw) + i / 16
    if x < cam cf 72 ∧ y < cam cf 76 then some (x, y) else none

/-- A pixel's coordinate with its tangents: 1 in the slot of its code (R314). -/
def pixelAxis (c : SplCtx) (params : List Nat) (code p : Nat) : DRes :=
  ⟨pixelCentre p, (List.range c.t).map fun k => if params.getD k 0 = code then (roundFin c.tf .rne false 1 0 false).bits else 0, 0⟩

/-- A pixel record (R315). -/
def pixelRecord (t w : Nat) (out : List DRes) (tfin count kc : Nat) : List Byte :=
  let head := out.flatMap (fun x => toBytes 4 x.bits ++ (List.range t).flatMap fun k => toBytes w (x.tan.getD k 0))
    ++ toBytes 4 tfin ++ toBytes 4 count ++ toBytes 4 kc
  head ++ List.replicate (pixelSize t w - head.length) 0

/-- `SBLEND` (R313-R315). -/
def splBlend (s : State) (core : Nat) (e : QEntry) (d : SplJob) (cf : List Byte) : EngOut :=
  let sh := splShape s e
  let c := sh.1
  let w := sh.2.1
  let cutoff := (getScarab s core).cutoff.toNat
  let pixel := fun (first n : Nat) (xy : Nat × Nat) (s : State) (acc : List (Nat × List Byte) × Word) =>
    match blendWalk core e d c w cutoff (pixelAxis c sh.2.2 1 xy.1) (pixelAxis c sh.2.2 2 xy.2) n first s
        ⟨cst one32, [cst 0, cst 0, cst 0], 0, 0, true, 0⟩ with
    | (s1, .error err) => (s1, .error err)
    | (s1, .ok b) =>
      let out := (List.range 3).map fun i => c.add (b.col.getD i (cst 0)) (c.mul b.t (cst (cam cf (92 + 4 * i))))
      (s1, .ok (acc.1 ++ [(d.image + xy.2 * d.istride + xy.1 * pixelSize c.t w, pixelRecord c.t w out b.t.bits b.count b.kc)],
        out.foldl (fun f x => f ||| x.flags) (acc.2 ||| b.fl ||| b.t.flags)))
  match eachOk (fun tile s acc =>
      match splRead core e s (d.ttab + 8 * tile) 8 with
      | (s1, .error err) => (s1, .error err)
      | (s1, .ok te) => eachOk (pixel (field te 0 4) (field te 4 4)) (tilePixels cf tile) s1 acc)
      ((List.range d.nt).map (· + d.t0)) s (([] : List (Nat × List Byte)), (0 : Word)) with
  | (s1, .error err) => err.out s1
  | (s1, .ok (ws, fl)) => splFinish (noteTg s1 core fl) core e ws ws.length

/-- The nine gradients of one splat at one pixel (R316): the replay's T, S after it, and the values reduced, if it is not
skipped. -/
def replayKey (g : List Nat) (xp yp : Nat) (k : Splat) (ts : Nat × List Nat) : Option ((Nat × List Nat) × List Nat) :=
  let c : SplCtx := ⟨b32, 0⟩
  let al := splatAlpha c k (cst xp) (cst yp)
  let a := al.1.bits
  if ltB a skip32 then none
  else
    let add := fun (x y : Nat) => (fpAdd b32 .rne x y).bits
    let sub := fun (x y : Nat) => (fpSub b32 .rne x y).bits
    let mul := fun (x y : Nat) => (fpMul b32 .rne x y).bits
    let u := fun (i : Nat) => (k.uv.getD i (cst 0)).bits
    let col := fun (i : Nat) => (k.col.getD i (cst 0)).bits
    let gi := fun (i : Nat) => g.getD i 0
    let si := fun (i : Nat) => ts.2.getD i 0
    let oe := al.2.1.bits
    let ex := al.2.2.1.bits
    let dx := al.2.2.2.1.bits
    let dy := al.2.2.2.2.bits
    let rest := sub one32 a
    let t := (fpDiv b32 .rne ts.1 rest).bits
    let wgt := mul a t
    let part := fun (i : Nat) => mul (gi i) (sub (col i) (si i))
    let da := mul t (add (add (part 0) (part 1)) (part 2))
    let s' := (List.range 3).map fun i => add (mul a (col i)) (mul rest (si i))
    let capped := match fcmp (fval b32 oe) (fval b32 cap32) with | some .gt => true | some .eq => true | _ => false
    let dop := if capped then 0 else mul da ex
    let dq := if capped then 0 else mul (mul mhalf32 a) da
    let m2 := 0xC0000000
    some ((t, s'), [mul wgt (gi 0), mul wgt (gi 1), mul wgt (gi 2), dop, mul dq (mul dx dx), mul dq (mul two32 (mul dx dy)),
      mul dq (mul dy dy), mul dq (mul m2 (add (mul (u 2) dx) (mul (u 3) dy))), mul dq (mul m2 (add (mul (u 3) dx) (mul (u 4) dy)))])

/-- The replay of a pixel's keys from number n − 1 down (R316); the contributions in order. -/
def replayWalk (core : Nat) (e : QEntry) (d : SplJob) (t w first xp yp : Nat) (g : List Nat) :
    Nat → State → (Nat × List Nat) × List (Nat × List Nat) → State × Except EngErr (List (Nat × List Nat))
  | 0, s, acc => (s, .ok acc.2)
  | n + 1, s, acc =>
    match readSplat core e d t w (first + n) s with
    | (s1, .error err) => (s1, .error err)
    | (s1, .ok (i, k)) =>
      match replayKey g xp yp k acc.1 with
      | none => replayWalk core e d t w first xp yp g n s1 acc
      | some (ts, vs) => replayWalk core e d t w first xp yp g n s1 (ts, acc.2 ++ [(i, vs)])

/-- One `RED.FADD32` of the lowest lane's thread at a scope (R318): in the L1 or at the line's home as R165 says, after the place's earlier
writes of the line, or into a deterministic node's buffer (R166). -/
def splReduce (core : Nat) (e : QEntry) (scope va x : Nat) (s : State) (g : Nat) : State × Except EngErr Nat :=
  let ids := entryAsid s e
  let tr := translate s (tlbUnits core) ids.1 va .atomic
  if va ≥ 2 ^ 57 then (s, .error (.fatal 0x07))
  else
    match tr.2 with
    | .fault => (tr.1, .error (.missing va .atomic))
    | .fatal c => (tr.1, .error (.fatal c))
    | .ok t =>
      let pa := paOf t va
      if poisoned tr.1 pa then (tr.1, .error (.fatal 0x0B))
      else
        let low := e.low.thread
        match getThread tr.1 low with
        | none => (tr.1, .ok g)
        | some th =>
        if th.lc.det then (putEntry tr.1 low th 10 false pa va (BitVec.ofNat 64 x) 0 true, .ok g)
        else
          let key := keyOf s ids.1
          let s1 := flushLine tr.1 core (lineOf pa)
          let rd := if atomNear s core scope (lineOf pa) then readNear s1 low key pa 4 t.lclass else (s1, readBytes s1 key pa 4, 0)
          let w := writeVirt rd.1 (tlbUnits core) core ids.1 ids.2 e.cohort (Nat.max (lowWct s e) rd.2.2) va
            (toBytes 4 ((atomNew 10 4 (ofBytes rd.2.1) (BitVec.ofNat 64 x) 0).getD 0))
          (w.1, .ok (Nat.max g w.2))

/-- The reductions of a replay in order (R318). -/
def splReductions (d : SplJob) (cs : List (Nat × List Nat)) : List (Nat × Nat) :=
  cs.flatMap fun c => c.2.zipIdx.map fun v => (d.gout + 48 * c.1 + 4 * v.2, v.1)

/-- Whether every reduction's field can be reached. -/
def checkReductions (core asid : Nat) (rs : List (Nat × Nat)) (s : State) : State × Option EngErr :=
  rs.foldl (fun (acc : State × Option EngErr) r =>
    match acc.2 with
    | some e => (acc.1, some e)
    | none =>
      if r.1 ≥ 2 ^ 57 then (acc.1, some (.fatal 0x07))
      else
        let tr := translate acc.1 (tlbUnits core) asid r.1 .atomic
        match tr.2 with
        | .fault => (tr.1, some (.missing r.1 .atomic))
        | .fatal c => (tr.1, some (.fatal c))
        | .ok t => if poisoned tr.1 (paOf t r.1) then (tr.1, some (.fatal 0x0B)) else (tr.1, none)) (s, none)

/-- `SREPL` (R316-R318). Where the rules leave a point open: log 30 (DEDUCED, unsafe). -/
def splReplay (s : State) (core : Nat) (e : QEntry) (d : SplJob) (cf : List Byte) : EngOut :=
  let sh := splShape s e
  let t := sh.1.t
  let w := sh.2.1
  let size := pixelSize t w
  let bg := (List.range 3).map fun i => cam cf (92 + 4 * i)
  let pixel := fun (first count : Nat) (xy : Nat × Nat) (s : State) (acc : List (Nat × List Nat)) =>
    match splRead core e s (d.image + xy.2 * d.istride + xy.1 * size) size with
    | (s1, .error err) => (s1, .error err)
    | (s1, .ok rec) =>
      match splRead core e s1 (d.gin + xy.2 * d.gstride + 16 * xy.1) 16 with
      | (s2, .error err) => (s2, .error err)
      | (s2, .ok gb) =>
        let n := Nat.min (field rec (20 + 3 * t * w) 4) count
        match replayWalk core e d t w first (pixelCentre xy.1) (pixelCentre xy.2) ((List.range 3).map fun i => field gb (4 * i) 4)
            n s2 ((field rec (12 + 3 * t * w) 4, bg), []) with
        | (s3, .error err) => (s3, .error err)
        | (s3, .ok cs) => (s3, .ok (acc ++ cs))
  match eachOk (fun tile s acc =>
      match splRead core e s (d.ttab + 8 * tile) 8 with
      | (s1, .error err) => (s1, .error err)
      | (s1, .ok te) => eachOk (pixel (field te 0 4) (field te 4 4)) (tilePixels cf tile) s1 acc)
      ((List.range d.nt).map (· + d.t0)) s [] with
  | (s1, .error err) => err.out s1
  | (s1, .ok cs) =>
    match checkReductions core (entryAsid s e).1 (splReductions d cs) s1 with
    | (s2, some err) => err.out s2
    | (s2, none) =>
      match eachOk (fun r s g => splReduce core e d.rscope r.1 r.2 s g) (splReductions d cs) s2 0 with
      | (s3, .error err) => err.out s3
      | (s3, .ok g) => .done (mergeLow s3 e g) [(e.low.lane, [BitVec.ofNat 32 cs.length])]

/-- The output ranges of a command (R302). -/
def splOutputs (s : State) (e : QEntry) (desc : Nat) (d : SplJob) (cf : List Byte) : List (Nat × Nat) :=
  let sh := splShape s e
  let cmd := (cmdF e.word).toNat
  if cmd = 1 then [(d.proj, d.ng * projSize sh.1.t sh.2.1)]
  else if cmd = 2 then [(d.keys, 16 * d.keycap), (desc + 72, 8)]
  else if cmd = 3 then [(d.keys, 16 * d.keycnt), (d.ttab, 8 * (tilesOf (cam cf 72) * tilesOf (cam cf 76)))]
  else if cmd = 4 then
    ((List.range d.nt).flatMap fun t => tilePixels cf (d.t0 + t)).map fun xy =>
      (d.image + xy.2 * d.istride + xy.1 * pixelSize sh.1.t sh.2.1, pixelSize sh.1.t sh.2.1)
  else []

/-- A command's end with its faults settled (R302): a fault after the descriptor's checks leaves the outputs unstated. -/
def splSettle (core : Nat) (e : QEntry) (desc : Nat) (d : SplJob) (cf : List Byte) (fatal : Bool) (out : EngOut) : EngOut :=
  let spoil := fun (s : State) =>
    scramble (tlbUnits core) core (entryAsid s e).1 (entryAsid s e).2 e.cohort (lowWct s e) (splOutputs s e desc d cf) s
  match out with
  | .fault s c => .fault (spoil s) c
  | .missing s va p => if fatal then .fault (spoil s) e.refusal else .missing s va p
  | o => o

/-- An `SPL` command at its queue's head (R300-R302). -/
def runSpl (s : State) (core : Nat) (e : QEntry) : EngOut :=
  let cmd := (cmdF e.word).toNat
  let a := pairNum e.low.a
  let cf := (getScarab s core).camera
  let fatal := e.refused
  if cmd = 0 then
    match splConfig s core e a with
    | .missing s1 va p => if fatal then .fault s1 e.refusal else .missing s1 va p
    | o => o
  else if cf.isEmpty then .fault s 0x02
  else if a % 64 ≠ 0 then .fault s 0x06
  else
    match splRead core e s a 128 with
    | (s1, .error (.missing va p)) => if fatal then .fault s1 e.refusal else .missing s1 va p
    | (s1, .error (.fatal c)) => .fault s1 c
    | (s1, .ok bs) =>
      let d := splJob bs
      let sh := splShape s e
      match d.check cmd cf (pixelSize sh.1.t sh.2.1) with
      | some c => .fault s1 c
      | none =>
        splSettle core e a d cf fatal
          (if cmd = 1 then splProject s1 core e d cf
           else if cmd = 2 then splBin s1 core e a d cf
           else if cmd = 3 then splSort s1 core e d cf
           else if cmd = 4 then splBlend s1 core e d cf
           else splReplay s1 core e d cf)

/-- LASTF of the pipeline (R302). -/
def splFaulted (core : Nat) (pc : DWord) (s : State) (cause : Nat) : State :=
  { s with scarabs := putK s.scarabs core { getScarab s core with faultCode := cause, faultAddr := pc } }

end Sys2Proof.Machine
end

