-- ==== Sys2Proof/Machine/Collective.lean ====
section
/-! DEFINITION. The fabric and the collective engine (R408-R427). -/

namespace Sys2Proof.Machine

/-- The reset value of a BAR 2 register (R411). -/
def bar2Reset (off : Nat) : DWord := if off = 0x10 then 0x3B9ACA00 else if off = 0x18 then 0x989680 else 0
/-- A BAR 2 register that holds what was written (R411). -/
def bar2 (s : State) (off : Nat) : DWord := (getK s.bar2 off).getD (bar2Reset off)
/-- The package's device identifier, if assigned. -/
def fabId (s : State) : Option Nat := if (bar2 s 0).getLsbD 20 then some ((bar2 s 0).toNat % 2 ^ 20) else none

/-- The number of a handle (R414). Where the rules leave a point open: log 12 (DESIGN CHOICE, safe). -/
def handleNo (die asid h : Nat) : Nat := (die * 2 ^ 14 + asid) * 256 + h % 256
/-- The die of a handle's number. -/
def handleDie (n : Nat) : Nat := n / 2 ^ 22
/-- The ASID of a handle's number. -/
def handleAsid (n : Nat) : Nat := n / 256 % 2 ^ 14

/-- The handle that a die has bound to a tag (R417). -/
def boundTag (s : State) (die tag : Nat) : Option (Nat × Handle) :=
  s.handles.find? fun h => handleDie h.1 == die && h.2.tag == tag

/-- Bytes of an element type (R418). -/
def colSize (typ : Nat) : Nat :=
  if typ = 0 ∨ typ = 6 ∨ typ = 7 then 8 else if typ = 1 ∨ typ = 4 ∨ typ = 5 then 4 else if typ = 8 then 1 else 2

/-- combine(x, y) (R420). -/
def combine (typ op x y : Nat) : FRes :=
  let f := if typ = 0 then b64 else if typ = 1 then b32 else if typ = 2 then b16 else bf16
  let w := 8 * colSize typ
  let sgn := typ == 4 || typ == 6
  if typ ≤ 3 then (if op = 0 then fpAdd f .rne x y else fpSelect f (op == 1) false x y)
  else
    let ix := intOfBits w sgn x
    let iy := intOfBits w sgn y
    let r := if op = 0 then (x + y) % 2 ^ w
      else if op = 1 then (if ix < iy then y else x) else if op = 2 then (if iy < ix then y else x)
      else if op = 3 then x &&& y else if op = 4 then x ||| y else x ^^^ y
    ⟨r, 0⟩

/-- One level of the tree: neighbours combined, a last one carried up. -/
def treeLevel (typ op : Nat) : List Nat → List Nat × Word
  | x :: y :: r =>
    let z := combine typ op x y
    let t := treeLevel typ op r
    (z.bits :: t.1, z.flags ||| t.2)
  | l => (l, 0)

/-- tree() (R420), with as many levels as fuel allows. -/
def treeFold (typ op : Nat) : Nat → List Nat → Nat × Word
  | 0, l => (l.headD 0, 0)
  | n + 1, l =>
    if l.length ≤ 1 then (l.headD 0, 0)
    else
      let t := treeLevel typ op l
      let r := treeFold typ op n t.1
      (r.1, t.2 ||| r.2)

/-- tree() of a list (R420). -/
def tree (typ op : Nat) (l : List Nat) : Nat × Word := treeFold typ op l.length l

/-- A collective descriptor (R418). -/
structure ColDesc where
  src : Nat
  dst : Nat
  count : Nat
  handle : Nat
  typ : Nat
  op : Nat
  chan : Nat
  rank : Nat
  roff : Nat
  zeros : Bool
deriving DecidableEq, Repr

/-- A descriptor from its 64 bytes. -/
def colDesc (bs : List Byte) : ColDesc :=
  ⟨field bs 0 8, field bs 8 8, field bs 16 4, field bs 20 1, field bs 21 1, field bs 22 1, field bs 23 1, field bs 24 4,
    field bs 32 8, field bs 28 4 == 0 && (bs.drop 40).all (· == 0)⟩

/-- Whether a descriptor's fields are legal for a command 1-5 in a group of n members (R418). -/
def ColDesc.legal (d : ColDesc) (cmd n : Nat) : Bool :=
  let red := cmd == 1 || cmd == 2
  d.zeros && decide (d.count ≤ 2 ^ 28) && decide (d.typ ≤ 8) && (d.typ != 8 || !red)
    && (if red then decide (d.op ≤ 5) && (decide (d.typ ≥ 4) || decide (d.op ≤ 2)) else d.op == 0)
    && (if cmd = 5 then decide (d.chan ≤ 3) else d.chan == 0 && d.roff == 0)
    && (if cmd = 4 ∨ cmd = 5 then decide (d.rank < n) else d.rank == 0)

/-- The alignment of SRC and DST (R418). -/
def ColDesc.aligned (d : ColDesc) (cmd : Nat) : Bool :=
  let a := if d.typ = 8 then 16 else colSize d.typ
  d.src % a == 0 && (cmd == 5 || d.dst % a == 0)

/-- Bytes that a member reads at SRC and writes at DST (R419). -/
def colSrcBytes (cmd n count size rank root : Nat) : Nat :=
  if cmd = 2 then n * count * size else if cmd = 4 then (if rank = root then count * size else 0) else count * size
/-- See `colSrcBytes`. -/
def colDstBytes (cmd n count size : Nat) : Nat := if cmd = 5 then 0 else if cmd = 3 then n * count * size else count * size

/-- The lowest-lane report of a Collective Timeout (R421), the reply dropped. -/
def timeoutReport (s : State) (e : QEntry) : State :=
  e.ops.foldl (fun s o => reportTo (replyLane e.word s o none) o.thread ⟨0, 0x11, e.pc, none⟩) s

/-- A handle changed. -/
def modHandle (s : State) (n : Nat) (f : Handle → Handle) : State :=
  match getK s.handles n with
  | some h => { s with handles := putK s.handles n (f h) }
  | none => s

/-- The route of a flit (R412): the lowest valid candidate whose port is UP. -/
def routePort (s : State) (dest : Nat) : Option Nat :=
  let e := readNum s (keyOf s 0) ((bar2 s 8).toNat + 8 * dest) 8
  ((List.range 4).map fun k => e / 2 ^ (8 * k) % 256).findSome? fun c =>
    if c / 128 = 1 ∧ ((getK s.ports (c % 128)).map (·.state)).getD 0 = 2 then some (c % 128) else none

/-- A flit sent: numbered on its stream and kept until it is acknowledged (R410); it waits for a route if there is none. Where the rules leave a point open: log 39 (DESIGN CHOICE, safe). -/
def sendFlit (s : State) (f : Flit) : State :=
  let key := f.peer * 8 + f.chan
  let n := (getK s.outSeq key).getD 0
  { s with outbox := s.outbox ++ [{ f with seq := n, port := routePort s f.peer }], outSeq := putK s.outSeq key (n + 1) }

/-- Payload bytes cut into flits of up to 224 (R408); a transfer without payload takes one flit, which R408 leaves open (DESIGN CHOICE,
safe: log 39). -/
def flitParts (data : List Byte) : List (List Byte) :=
  (List.range (Nat.max 1 ((data.length + 223) / 224))).map fun i => (data.drop (224 * i)).take 224

/-- A transfer sent flit by flit (R408); each flit's arguments begin with its place and the number of flits. -/
def sendTransfer (s : State) (f : Flit) (data : List Byte) : State :=
  let ps := flitParts data
  ps.zipIdx.foldl (fun s p => sendFlit s { f with args := [p.2, ps.length] ++ f.args, payload := p.1 }) s

/-- Flits without a route tried again (R412, R413). -/
def rerouteFlits (s : State) : State :=
  { s with outbox := s.outbox.map fun f => if f.port.isNone then { f with port := routePort s f.peer } else f }

/-- The member entry of a die of this package. -/
def ownMember (s : State) (die : Nat) : Nat := (fabId s).getD 0 + 2 ^ 20 * die

/-- The channel of a member's part in an instance (R409): 4 a reduction's contribution; of AGATH and BCAST 5 the data, and 6 what only
serves matching. -/
def partChan (c : Contribution) : Nat := if c.cmd ≤ 2 then 4 else if c.data.isEmpty then 6 else 5

/-- A contribution kept for every member on this package, and sent to the other members (R419): every member combines for itself (R420). -/
def contribute (s : State) (h : Handle) (c : Contribution) (sender : Nat) : State :=
  let own := (fabId s).getD 0
  h.members.foldl (fun s m =>
    if m % 2 ^ 20 = own then { s with contribs := s.contribs ++ [{ c with die := m / 2 ^ 20 }] }
    else sendTransfer s ⟨m % 2 ^ 20, partChan c, 0, c.tag, m / 2 ^ 20, 2, [c.rank, c.k, c.cmd, c.typ, c.op, c.count, c.root], [], none, sender⟩
      c.data) s

/-- `GRP` (R415, R417). -/
def colBind (s : State) (core : Nat) (e : QEntry) : EngOut :=
  let die := coreDie core
  let ids := entryAsid s e
  let a := pairNum e.low.a
  let hn := handleNo die ids.1 (wordAt e.low.b 0)
  if a % 64 ≠ 0 then .fault s 0x06
  else
    match readVirt s (engineUnits core 4) (entryReader s core e) ids.1 a 64 with
    | (s1, .error err) => err.out s1
    | (s1, .ok bs) =>
      let n := field bs 8 4
      let mem := field bs 16 8
      let win := field bs 24 8
      let len := field bs 32 8
      if field bs 0 8 = 0 ∨ n = 0 ∨ n > 2 ^ 22 ∨ field bs 12 4 ≠ 0 ∨ !(bs.drop 40).all (· == 0) ∨ (win = 0 ∧ len ≠ 0)
          ∨ len % 4096 ≠ 0 ∨ (fabId s).isNone ∨ mem % 4 ≠ 0 ∨ win % 4096 ≠ 0 then .fault s1 0x02
      else
        match readVirt s1 (engineUnits core 4) (entryReader s core e) ids.1 mem (4 * n) with
        | (s2, .error err) => err.out s2
        | (s2, .ok mb) =>
          let ms := (List.range n).map fun i => field mb (4 * i) 4
          let me := ownMember s die
          match ms.findIdx? (· == me) with
          | none => .fault s2 0x02
          | some rank =>
            if ms.any (· / 2 ^ 22 != 0) || !decide (ms.Nodup) || (getK s2.handles hn).isSome
                || (boundTag s2 die (field bs 0 8)).isSome then .fault s2 0x02
            else
              let st := Nat.max (virtStamp s2 (engineUnits core 4) ids.1 a 64) (virtStamp s2 (engineUnits core 4) ids.1 mem (4 * n))
              .done (mergeLow { s2 with handles := putK s2.handles hn ⟨1, field bs 0 8, ms, rank, win, len, 0, 0⟩ } e st)
                [(e.low.lane, [BitVec.ofNat 32 rank])]

/-- `GRP.free` (R417): held until every accepted command on the handle has completed; what members gave to instances of the binding is of
no use to a later one. -/
def colFree (s : State) (core : Nat) (e : QEntry) : EngOut :=
  let hn := handleNo (coreDie core) (entryAsid s e).1 (wordAt e.low.b 0)
  match getK s.handles hn with
  | none => .fault s 0x02
  | some h =>
    if s.colCmds.any fun c => c.handle == hn then .hold
    else .done { s with
      handles := delK s.handles hn, contribs := s.contribs.filter fun c => c.die != coreDie core || c.tag != h.tag } []

/-- Whether a `WAIT`'s threshold is met (R424). -/
def waitMet (rcv t : Nat) : Bool := decide ((rcv + 2 ^ 32 - t) % 2 ^ 32 < 2 ^ 31)

/-- A command that has left its queue head ends: its replies and removal. -/
def endCol (s : State) (c : ColCmd) (vals : Option Word) : State :=
  let s1 := { s with colCmds := s.colCmds.filter fun x => x.entry.id != c.entry.id }
  c.entry.ops.foldl (fun s o => replyLane c.entry.word s o
    (match vals with | some v => if o.lane = c.entry.low.lane then some [v] else none | none => none)) s1

/-- A command that has left its queue head takes an engine fault. -/
def faultCol (s : State) (c : ColCmd) : State := reportFault (endCol s c none) 4 c.entry c.entry.ops 0x12

/-- Whether COLTO ticks have passed since a command left its queue head (R421). -/
def expired (s : State) (c : ColCmd) : Bool := decide (c.left + (bar2 s 0x10).toNat ≤ s.span)

/-- Contributions that the member on a die needs no more taken away. -/
def pruneContribs (s : State) (die tag : Nat) : State :=
  let needed := fun (k : Nat) => (s.colCmds.any fun c => c.die == die && decide (c.cmd ≤ 4) && c.k == k
      && ((getK s.handles c.handle).map (·.tag)).getD 0 == tag)
    || s.handles.any fun h => handleDie h.1 == die && h.2.tag == tag && h.2.state == 1 && decide (h.2.next ≤ k)
  { s with contribs := s.contribs.filter fun c => c.die != die || c.tag != tag || needed c.k }

/-- Flits of a command that are not acknowledged given up by their sender (R417): they carry nothing any more, and keep their numbers. -/
def giveUp (s : State) (sender : Nat) : State :=
  { s with outbox := s.outbox.map fun f => if f.sender = sender ∧ sender ≠ 0 then { f with kind := 5, args := [], payload := [] } else f }

/-- A command that times out (R421): its DST is unstated, its handle FAILED, its flits are retried no more (R417). -/
def timeOut (s : State) (c : ColCmd) : State :=
  let n := ((getK s.handles c.handle).map fun h => h.members.length).getD 0
  let ids := entryAsid s c.entry
  let s1 := scramble (engineUnits c.core 4) c.core ids.1 ids.2 c.entry.cohort (lowWct s c.entry)
    [(c.dst, if c.cmd ≤ 4 then colDstBytes c.cmd n c.count (colSize c.typ) else 0)] s
  let s2 := { modHandle s1 c.handle (fun h => { h with state := 2 }) with
    colCmds := s1.colCmds.filter fun x => x.entry.id != c.entry.id }
  let s3 := pruneContribs (giveUp s2 c.entry.id) c.die (((getK s.handles c.handle).map (·.tag)).getD 0)
  timeoutReport { s3 with puts := s3.puts.filter fun p => p.sender != c.entry.id || p.written } c.entry

/-- The waits on a handle that its RCV has met complete in their time (R424, R421). -/
def completeWaits (s : State) (hn : Nat) : State :=
  match getK s.handles hn with
  | none => s
  | some h => (s.colCmds.filter fun c => c.handle == hn && c.cmd == 6 && waitMet h.rcv c.k && !expired s c).foldl
      (fun s c => endCol s c (some (BitVec.ofNat 32 h.rcv))) s

/-- `PUT` on its way (R422): to a die of this package, or as a flit. -/
def sendPut (s : State) (h : Handle) (d : ColDesc) (entry : Nat) (data : List Byte) : State :=
  let m := h.members.getD d.rank 0
  if some (m % 2 ^ 20) = fabId s then
    { s with puts := s.puts ++ [⟨s.seqno, m % 2 ^ 20, m / 2 ^ 20, d.chan, h.tag, d.roff, data, 0, entry, false, 0, true⟩], seqno := s.seqno + 1 }
  else sendTransfer s ⟨m % 2 ^ 20, d.chan, 0, h.tag, m / 2 ^ 20, 0, [d.roff], [], none, entry⟩ data

/-- ARED, RSC, AGATH, BCAST and PUT at the queue head (R418, R419): accepted, faulted, timed out on a FAILED handle, or
waiting for a translation. The second component says that the command has left the queue and goes on. Where the rules leave a point open: log 39 (DESIGN CHOICE, safe). -/
def colAccept (s : State) (core : Nat) (e : QEntry) : EngOut × Bool :=
  let cmd := (cmdF e.word).toNat
  let die := coreDie core
  let ids := entryAsid s e
  let units := engineUnits core 4
  let a := pairNum e.low.a
  if a % 64 ≠ 0 then (.fault s 0x06, false)
  else
    match readVirt s units (entryReader s core e) ids.1 a 64 with
    | (s1, .error err) => (err.out s1, false)
    | (s1, .ok bs) =>
      let d := colDesc bs
      let hn := handleNo die ids.1 d.handle
      match getK s1.handles hn with
      | none => (.fault s1 0x02, false)
      | some h =>
        if h.state = 2 then (.done (timeoutReport (popQueue s1 core 4) e) [], true)
        else if !d.legal cmd h.members.length then (.fault s1 0x02, false)
        else if !d.aligned cmd then (.fault s1 0x06, false)
        else
          let size := colSize d.typ
          let n := h.members.length
          match readVirt s1 units (entryReader s core e) ids.1 d.src (colSrcBytes cmd n d.count size h.rank d.rank) with
          | (s2, .error err) => (err.out s2, false)
          | (s2, .ok data) =>
            match writable s2 units ids.1 d.dst (colDstBytes cmd n d.count size) with
            | (s3, some err) => (err.out s3, false)
            | (s3, none) =>
              let st := Nat.max (virtStamp s3 units ids.1 a 64)
                (virtStamp s3 units ids.1 d.src (colSrcBytes cmd n d.count size h.rank d.rank))
              let c : ColCmd := ⟨core, e, die, hn, h.next, s3.span, cmd, d.typ, d.op, d.count, d.rank, d.src, d.dst, data, false⟩
              let s4 := mergeLow (popQueue { s3 with colCmds := s3.colCmds ++ [c] } core 4) e st
              (.done (if cmd = 5 then sendPut s4 h d e.id data
                else modHandle (contribute s4 h ⟨die, h.tag, h.rank, h.next, cmd, d.typ, d.op, d.count, d.rank, data, true⟩ e.id) hn
                  fun h => { h with next := h.next + 1 }) [], true)

/-- `WAIT` at the queue head (R424, R421). -/
def colWaitHead (s : State) (core : Nat) (e : QEntry) : EngOut × Bool :=
  let hn := handleNo (coreDie core) (entryAsid s e).1 (wordAt e.low.a 0)
  let t := wordAt e.low.b 0
  match getK s.handles hn with
  | none => (.fault s 0x02, false)
  | some h =>
    if h.state = 2 then (.done (timeoutReport (popQueue s core 4) e) [], true)
    else if waitMet h.rcv t then (.done s [(e.low.lane, [BitVec.ofNat 32 h.rcv])], false)
    else
      (.done (popQueue { s with
        colCmds := s.colCmds ++ [⟨core, e, coreDie core, hn, t, s.span, 6, 0, 0, 0, 0, 0, 0, [], false⟩] } core 4) [], true)

/-- The contributions to an instance that are there for the member on a die, by rank. Where the rules leave a point open: log 27 (DEDUCED, unsafe). -/
def instanceParts (s : State) (die tag k n : Nat) : List (Option Contribution) :=
  (List.range n).map fun r => s.contribs.find? fun c => c.die == die && c.tag == tag && c.k == k && c.rank == r && c.whole

/-- The bytes that rank r's DST receives and the flags of its reply (R419, R420). Where the rules leave a point open: log 40 (DESIGN CHOICE, safe). -/
def colResult (cmd typ op count rank root : Nat) (parts : List Contribution) : List Byte × Word :=
  let size := colSize typ
  let n := parts.length
  let elem := fun (p : Contribution) (e : Nat) => field p.data (size * e) size
  let block := fun (lo : Nat) =>
    (List.range count).foldl (fun (acc : List Byte × Word) e =>
      let t := tree typ op (parts.map fun p => elem p (lo + e))
      (acc.1 ++ toBytes size t.1, acc.2 ||| t.2)) ([], 0)
  if cmd = 1 then block 0
  else if cmd = 2 then block (rank * count)
  else if cmd = 3 then (parts.flatMap fun p => p.data.take (count * size), 0)
  else (((parts[root]?).map (·.data)).getD (List.replicate (n * 0) 0), 0)

/-- Whether the SRC that a member reads overlaps its DST without being it (R419). -/
def partialOverlap (c : ColCmd) (srcBytes dstBytes : Nat) : Bool :=
  c.src != c.dst && srcBytes != 0 && decide (c.src < c.dst + dstBytes) && decide (c.dst < c.src + srcBytes)

/-- `COLLECTIVE_INSTANCE_COMPLETE` (R419, R420): the oldest instance of a handle completes at its member once every member
has issued its command; a mismatch fails it; past COLTO it times out instead (R421). Where the rules leave a point open: log 40 (DESIGN CHOICE, safe). -/
def execCollectiveInstanceComplete (die asid handle : Nat) (s : State) : Host.Outcome State Fault Refusal :=
  .next (let hn := handleNo die asid handle
    match getK s.handles hn, s.colCmds.find? fun c => c.handle == hn && decide (c.cmd ≤ 4) with
    | some h, some c =>
      let n := h.members.length
      let parts := instanceParts s die h.tag c.k n
      let prune := fun (s : State) => pruneContribs s die h.tag
      if expired s c then timeOut s c
      else if parts.any (·.isNone) then s
      else
        let ps := parts.filterMap id
        let same := ps.all fun p => p.cmd == c.cmd && p.typ == c.typ && p.op == c.op && p.count == c.count
          && (c.cmd != 4 || p.root == c.rank)
        if !same then prune (modHandle (faultCol s c) hn fun h => { h with state := 2 })
        else if c.fatal then prune (faultCol s c)
        else
          let r := colResult c.cmd c.typ c.op c.count h.rank c.rank ps
          let units := engineUnits c.core 4
          let node := (entryAsid s c.entry).2
          -- a partial overlap of SRC and DST leaves DST unstated
          let overlap := partialOverlap c (colSrcBytes c.cmd n c.count (colSize c.typ) h.rank c.rank) r.1.length
          let bytes := if overlap then (List.range r.1.length).map (Config.freeByte s.seqno) else r.1
          match writable { s with seqno := s.seqno + 1 } units asid c.dst bytes.length with
          | (s1, some (.missing va p)) =>
            if s.faults.any fun f => f.2.reqs.contains (.hive 8 c.entry.id) then s
            else (raiseFault s1 die asid va p (srcOf 4) 0xFFFF (.hive 8 c.entry.id)).getD s
          | (s1, some (.fatal _)) => prune (faultCol s1 c)
          | (s1, none) =>
            let w := writeVirt s1 units c.core asid node c.entry.cohort (lowWct s c.entry) c.dst bytes
            let reply : Word := if c.cmd ≤ 2 then r.2 &&& 31 else 0
            prune (endCol (mergeLow w.1 c.entry w.2) c (some reply))
    | _, _ => s)

/-- `COLLECTIVE_TIMEOUT` (R421): the oldest command of a core that has taken COLTO ticks. Where the rules leave a point open: log 27 (DEDUCED, unsafe). -/
def execCollectiveTimeout (core : Nat) (s : State) : Host.Outcome State Fault Refusal :=
  .next (match s.colCmds.find? fun c => c.core == core && expired s c with
    | none => s
    | some c => timeOut s c)

/-- An acknowledgement sent to a package (R410, R422): of a channel and number, with a status: 0 performed, 1 outside the
window, 2 declared fatal. -/
def sendAck (s : State) (peer chan seq status : Nat) : State :=
  if chan = 7 ∨ some peer = fabId s then s else sendFlit s ⟨peer, chan, 0, 0, 0, 1, [chan, seq, status], [], none, 0⟩

/-- The end of a local command that waited for a `PUT`: its reply, or its engine fault (R422); past COLTO it times out (R421). -/
def endPut (s : State) (sender status : Nat) : State :=
  match s.colCmds.find? fun c => c.entry.id == sender && c.cmd == 5 with
  | none => s
  | some c => if expired s c then timeOut s c else if status = 0 then endCol s c (some 0) else faultCol s c

/-- Whether a flit is the last of its transfer (R408). -/
def Flit.final (f : Flit) : Bool := f.args.getD 1 0 == f.args.getD 0 0 + 1

/-- A flit acknowledged by its destination (R410): the sender keeps it no more; with a `PUT`'s last one the `PUT` is over, and with a status
other than 0 whichever it is. -/
def takeAck (s : State) (peer chan seq status : Nat) : State :=
  match s.outbox.find? fun o => o.peer == peer && o.chan == chan && o.seq == seq with
  | none => s
  | some o =>
    let s1 := { s with outbox := s.outbox.erase o }
    if o.kind = 0 ∧ (o.final ∨ status ≠ 0) then endPut s1 o.sender status else s1

/-- A flit of a contribution for the member on a die (R408, R419): the first makes it, the others add their bytes. -/
def takePart (s : State) (f : Flit) : State :=
  let a := fun (i : Nat) => f.args.getD (i + 2) 0
  let mine := fun (c : Contribution) => c.die == f.die && c.tag == f.tag && c.rank == a 0 && c.k == a 1 && !c.whole
  if f.args.getD 0 0 = 0 then
    { s with contribs := s.contribs ++ [⟨f.die, f.tag, a 0, a 1, a 2, a 3, a 4, a 5, a 6, f.payload, f.final⟩] }
  else { s with contribs := s.contribs.map fun c => if mine c then { c with data := c.data ++ f.payload, whole := f.final } else c }

/-- A flit of a `PUT` (R408, R422). -/
def takePut (s : State) (f : Flit) : State :=
  let mine := fun (p : Put) => p.source == f.peer && p.die == f.die && p.chan == f.chan && p.tag == f.tag && !p.whole
  if f.args.getD 0 0 = 0 then
    { s with
      puts := s.puts ++ [⟨s.seqno, f.peer, f.die, f.chan, f.tag, f.args.getD 2 0, f.payload, f.seq, 0, false, 0, f.final⟩]
      seqno := s.seqno + 1 }
  else { s with puts := s.puts.map fun p => if mine p then { p with data := p.data ++ f.payload, seq := f.seq, whole := f.final } else p }

/-- A flit delivered in its order (R410, R417, R422): the machine after it, or `none` if it is refused, its TAG not being bound on the die it
is for. Each flit but a `PUT`'s last is acknowledged at once. -/
def deliverFlit (s : State) (f : Flit) : Option State :=
  let ack := fun (s : State) => sendAck s f.peer f.chan f.seq 0
  if f.kind = 1 then some (takeAck s f.peer (f.args.getD 0 0) (f.args.getD 1 0) (f.args.getD 2 0))
  else if f.kind = 3 then some s
  else if f.kind = 4 then some (ack (rerouteFlits s))
  else if f.kind = 5 then some (ack s)
  else
    match boundTag s f.die f.tag with
    | none => none
    | some _ =>
      if f.kind = 2 then some (ack (takePart s f))
      else some (if f.final then takePut s f else ack (takePut s f))

/-- A flit refused (R417): counted, and its sender told on channel 6 (R409), which tries it again. -/
def refuseFlit (s : State) (f : Flit) : State :=
  let s1 := { s with refusals := if s.refusals < 2 ^ 64 - 1 then s.refusals + 1 else s.refusals }
  if some f.peer = fabId s then s1 else sendFlit s1 ⟨f.peer, 6, 0, f.tag, 0, 4, [f.chan, f.seq], [], none, 0⟩

/-- Whether a package without an identifier takes a flit (R411). -/
def flitAllowed (s : State) (f : Flit) : Bool := (fabId s).isSome || (f.kind == 3 && f.chan == 7)

/-- The flits of a stream delivered as far as its numbers go on (R410). -/
def drainInbox (peer chan : Nat) : Nat → State → State
  | 0, s => s
  | n + 1, s =>
    let key := peer * 8 + chan
    let next := (getK s.inSeq key).getD 0
    match s.inbox.find? fun f => f.peer == peer && f.chan == chan && f.seq == next with
    | none => s
    | some f =>
      let s1 := { s with inbox := s.inbox.erase f }
      match deliverFlit s1 f with
      | some s2 => drainInbox peer chan n { s2 with inSeq := putK s2.inSeq key (next + 1) }
      | none => refuseFlit s1 f

/-- `FLIT_RECEIVE` (R408, R410): delivered by number, each once; a refused flit is the sender's to send again (R417). Where the rules leave a point open: log 39 (DESIGN CHOICE, safe). -/
def execFlitReceive (source chan seq tag die kind : Nat) (args : List Nat) (payload : List (BitVec 8)) (s : State) :
    Host.Outcome State Fault Refusal :=
  .next (let f : Flit := ⟨source, chan, seq, tag, die, kind, args, payload, none, 0⟩
    if !flitAllowed s f || decide (224 < payload.length) || decide (seq < (getK s.inSeq (source * 8 + chan)).getD 0)
        || s.inbox.any fun x => x.peer == source && x.chan == chan && x.seq == seq then s
    else drainInbox source chan (s.inbox.length + 1) { s with inbox := s.inbox ++ [f] })

/-- A `PUT`'s bytes at their homes in the target's context (R422). -/
def writePut (s : State) (p : Put) (asid va : Nat) : State × Except EngErr Nat :=
  let units := [(2, p.die)]
  match writable s units asid va p.data.length with
  | (s1, some e) => (s1, .error e)
  | (s1, none) =>
    let r := (splitLines va p.data (p.data.length / 128 + 2)).foldl (fun (acc : State × Nat) c =>
      match (translate acc.1 units asid c.1 .write).2 with
      | .ok e =>
        let w := arrive acc.1 (keyOf s asid) 0 (paOf e c.1) c.2
        (w.1, Nat.max acc.2 w.2)
      | _ => acc) (s1, 0)
    (r.1, .ok r.2)

/-- A `PUT` that is over: its sender hears of it. -/
def closePut (s : State) (p : Put) (status : Nat) : State :=
  let s1 := { s with puts := s.puts.filter fun x => x.id != p.id }
  if p.sender = 0 then sendAck s1 p.source p.chan p.seq status else endPut s1 p.sender status

/-- `PUT_DELIVERED` (R423): the oldest `PUT` of its stream is written; once `SPAN` is at its GWCT, RCV counts it and the sender's
command ends. -/
def execPutDelivered (put : Nat) (s : State) : Host.Outcome State Fault Refusal :=
  .next (match s.puts.find? fun p => p.id == put with
    | none => s
    | some p =>
      let older := s.puts.any fun q => decide (q.id < p.id) && q.source == p.source && q.die == p.die && q.chan == p.chan
      match boundTag s p.die p.tag with
      | none => s
      | some (hn, h) =>
        if older || !p.whole then s
        else if h.winLen < p.off + p.data.length then closePut s p 1
        else
          let count := fun (s : State) (p : Put) =>
            if s.span < p.gwct then { s with puts := s.puts.map fun q => if q.id = p.id then p else q }
            else completeWaits (modHandle (closePut s p 0) hn fun h => { h with rcv := (h.rcv + 1) % 2 ^ 32 }) hn
          if p.written then count s p
          else
            match writePut s p (handleAsid hn) (h.win + p.off) with
            | (s1, .ok g) => count s1 { p with written := true, gwct := g }
            | (s1, .error (.fatal _)) => closePut s1 p 2
            | (s1, .error (.missing va q)) =>
              if s.faults.any fun f => f.2.reqs.contains (.hive 9 p.id) then s
              else (raiseFault s1 p.die (handleAsid hn) va q (srcOf 4) 0xFFFF (.hive 9 p.id)).getD s)

/-- A Viaduct port's record (R411). -/
def getPort (s : State) (p : Nat) : Port := (getK s.ports p).getD ⟨0, 0, 0, 0⟩
/-- The machine with a port set. -/
def putPort (s : State) (p : Nat) (x : Port) : State := { s with ports := putK s.ports p x }

/-- `FLIT_CRC_RETRY` (R408): counted in RETRIES; nothing else changes. -/
def execFlitCrcRetry (port : Nat) (s : State) : Host.Outcome State Fault Refusal :=
  .next (if port < 128 then
      let x := getPort s port
      putPort s port { x with retries := if x.retries < 0xFFFFFFFF then x.retries + 1 else x.retries }
    else s)

/-- `LINK_FAILURE` (R413): an UP port enters TRAINING; RETRAINS counts it. -/
def execLinkFailure (port : Nat) (s : State) : Host.Outcome State Fault Refusal :=
  .next (let x := getPort s port
    if port < 128 ∧ x.state = 2 then
      putPort s port { x with state := 1, since := s.span, retrains := if x.retrains < 255 then x.retrains + 1 else 255 }
    else s)

/-- Whether RETRAIN ticks have passed since a port entered TRAINING (R413). -/
def retrainOver (s : State) (x : Port) : Bool := decide (x.since + (bar2 s 0x18).toNat ≤ s.span)

/-- A port that is LOST (R413): its flits take the next route. -/
def losePort (s : State) (port : Nat) (x : Port) : State :=
  let s1 := putPort s port { x with state := 3 }
  rerouteFlits { s1 with outbox := s1.outbox.map fun f => if f.port = some port then { f with port := none } else f }

/-- `TRAINING_SUCCESS` (R413): a port in TRAINING is UP, unless RETRAIN ticks have passed; flits that waited for a route leave. -/
def execTrainingSuccess (port : Nat) (s : State) : Host.Outcome State Fault Refusal :=
  .next (let x := getPort s port
    if port < 128 ∧ x.state = 1 then
      (if retrainOver s x then losePort s port x else rerouteFlits (putPort s port { x with state := 2 }))
    else s)

/-- `RETRAIN_TIMEOUT` (R413): a port not UP within RETRAIN ticks is LOST. -/
def execRetrainTimeout (port : Nat) (s : State) : Host.Outcome State Fault Refusal :=
  .next (let x := getPort s port
    if port < 128 ∧ x.state = 1 ∧ retrainOver s x then losePort s port x else s)

/-- RESET written to a port (R413): a DOWN or LOST one trains again. -/
def resetPort (s : State) (port : Nat) : State :=
  let x := getPort s port
  if port < 128 ∧ (x.state = 0 ∨ x.state = 3) then putPort s port { x with state := 1, since := s.span } else s

/-- `PORT_RESET` (R413). -/
def execPortReset (port : Nat) (s : State) : Host.Outcome State Fault Refusal := .next (resetPort s port)

/-- A `COL` command at its queue's head; the second component says that it has left the queue. -/
def runCol (s : State) (core : Nat) (e : QEntry) : EngOut × Bool :=
  let cmd := (cmdF e.word).toNat
  let r : EngOut × Bool :=
    if cmd = 0 then ((if (vF e.word).toNat = 0 then colBind s core e else colFree s core e), false)
    else if cmd = 6 then colWaitHead s core e
    else colAccept s core e
  match r.1 with
  | .missing s1 _ _ => if e.refused then (.fault s1 e.refusal, false) else r
  | _ => r

end Sys2Proof.Machine
end

