-- ==== Sys2Proof/Machine/Issue.lean ====
section
/-! DEFINITION. Issue: the Swarm Table (R199, R200), opening clauses (R201, R182, R29), parked groups (R207), deferrals (R205, R206),
rendezvous and barriers that complete, the end of `EXIT`, and the debugger's stops (R376). -/

namespace Sys2Proof.Machine

/-- Whether clauses open on a core (R203, R382, R406). Where the rules leave a point open: log 34 (DEDUCED, unsafe). -/
def coreRuns (s : State) (core : Nat) : Bool := !s.halted.contains core && decide (powerState s (coreDie core) < 2)

/-- A slot-lease entry; a slot without one is FREE (R194). -/
def getSlot (s : State) (crew : Nat) : SlotLease := (getK s.slots crew).getD ⟨0, 0, 0, 0, 0⟩

/-- Whether a thread may issue in a clause that opens now (R194, R203, R214): its slot RESIDENT, its cohort resident and not being saved,
its core running. -/
def mayOpen (s : State) (t : Nat) (th : Thread) : Bool :=
  (getSlot s (threadCrew t)).state == 2 && coreRuns s (threadCore t)
    && (match getK s.cohorts th.lc.cohort with | some c => c.state == 1 || c.state == 5 | none => false)

/-- Whether a thread may be eligible (R199, R203): at a boundary, and one that may issue. -/
def atBoundary (s : State) (t : Nat) (th : Thread) : Bool := th.status == .ready && mayOpen s t th

/-- The Swarm Table of a core. -/
def coreSwarm (s : State) (core : Nat) : List SwarmEntry := (getK s.swarm core).getD []
/-- The machine with a core's Swarm Table set. -/
def putSwarm (s : State) (core : Nat) (es : List SwarmEntry) : State := { s with swarm := putK s.swarm core es }

/-- The Swarm Table set of a PC (R199). -/
def swarmSet (pc : DWord) : Nat :=
  (((pc >>> 2) ^^^ (pc >>> 8) ^^^ (pc >>> 14)) &&& 63).toNat

/-- The tick at which a thread became eligible (R199): it stood at its boundary, and the counters its header waits for were 0. -/
def eligibleSince (h : Header) (th : Thread) : Nat :=
  (List.range 4).foldl (fun m k => if h.wait.getLsbD k then Nat.max m ((getK th.zeros k).getD 0) else m) th.since

/-- The lowest free way of a set (R199). -/
def freeWay (es : List SwarmEntry) (set : Nat) : Option Nat := (List.range 4).find? fun w => !(es.any fun e => e.set == set && e.way == w)

/-- A thread inserted (R200), eligible since a tick: a matching entry without a thread of its lane, else a free way of its set, else
it waits. -/
def insertThread (s : State) (t : Nat) (th : Thread) : State :=
  let core := threadCore t
  let es := coreSwarm s core
  let set := swarmSet th.pc
  let fits := fun (e : SwarmEntry) => e.set == set && e.pc == th.pc && e.level == th.level && e.node == th.lc.node
    && !(e.members.any fun u => threadLane u == threadLane t)
  let s1 := setThread s t { th with yielded := false }
  match es.findIdx? fits with
  | some i =>
    putSwarm s1 core (es.modify i fun e => { e with members := e.members ++ [t], age := Nat.min e.age th.since, last := e.last || th.yielded })
  | none =>
    match freeWay es set with
    | some w => putSwarm s1 core (es ++ [⟨set, th.pc, th.level, th.lc.node, [t], th.since, th.yielded, w⟩])
    | none => s

/-- Whether a header's WAIT is met in a thread (R29, R161). -/
def waitMetBy (h : Header) (th : Thread) : Bool := (List.range 4).all fun k => !h.wait.getLsbD k || readDc th k == 0

/-- A thread at a clause boundary (R182, R29, R199, R200, R238): it takes the fault of its clause's fetch, Illegal Clause, or an
engine fault reported at a `dc3` wait; it waits for the driver or for its counters; or it is inserted. An Illegal Clause at an
address that can hold no header has a free word as its `TWORD` (DESIGN CHOICE, safe: log 8). -/
def arriveAtClause (s : State) (t : Nat) (th : Thread) : State :=
  let core := threadCore t
  let va := th.pc.toNat
  let trap := fun (code : Nat) (val : DWord) (w : Word) =>
    takeTrap s t { th with wait := none } (trapAtHeader th.pc code val w)
  match th.answers with
  | (page, code) :: _ => trap code (BitVec.ofNat 64 (if va / 4096 = page then va else page * 4096)) 0
  | [] =>
    if va % 4 ≠ 0 ∨ va ≥ 2 ^ 57 then
      { trap 0x03 (freeDWord s.seqno) (Config.freeWord (2 * s.seqno + 2)) with seqno := s.seqno + 2 }
    else
      match (threadClause s core th th.pc).2 with
      | .missing v =>
        match raiseFault s (coreDie core) th.lc.asid v .fetch 0 (unitOf core) (.fetch t) with
        | some s1 => noteBlocked (modThread s1 t fun th => { th with status := .fetchWait }) t
        | none => s
      | .fatal code v => trap code (BitVec.ofNat 64 v) 0
      | .ok w code =>
        match legalClause w code 0 with
        | none => { trap 0x03 (freeDWord s.seqno) w with seqno := s.seqno + 1 }
        | some h =>
          if !waitMetBy h th then noteBlocked s t
          else
            match if h.wait.getLsbD 3 then takeReport th Report.atHeader else none with
            | some ((r : Report), th') => takeTrap s t th' (trapAtHeader th.pc r.cause r.val w)
            | none => insertThread s t { th with since := eligibleSince h th }

/-- Every thread of a core that stands at a boundary outside the table brought to its clause, by `SLOT` and `LANE`. -/
def gatherCore (s : State) (core : Nat) : State :=
  let ts := (s.threads.filter fun e => threadCore e.1 == core && e.2.status == .ready).map (·.1)
  ts.foldl (fun s t =>
    match getThread s t with
    | some th =>
      if atBoundary s t th && !((coreSwarm s core).any fun e => e.members.contains t) then arriveAtClause s t th else s
    | none => s) s

/-- The choice of R201: entries marked by YIELD last, then the oldest, then the lower set, then the lower way. -/
def betterEntry (x y : SwarmEntry) : Bool :=
  if x.last ≠ y.last then !x.last
  else if x.age ≠ y.age then decide (x.age < y.age)
  else if x.set ≠ y.set then decide (x.set < y.set)
  else decide (x.way ≤ y.way)
/-- The entry that R201 chooses. -/
def chooseEntry : List SwarmEntry → Option SwarmEntry
  | [] => none
  | e :: es => some (es.foldl (fun b x => if betterEntry b x then b else x) e)

/-- Open clauses of a core; it holds up to 8 (R201). -/
def openCount (s : State) (core : Nat) : Nat := (s.opens.filter fun g => g.core == core).length

/-- The clause of an entry as its threads get it: from the loop buffer where every one of them runs it from there (R177), else
fetched whole (R182). -/
def entryClause (s : State) (core : Nat) (e : SwarmEntry) (t : Nat) : State × FetchOut :=
  let own := fun (u : Nat) => (getThread s u).bind fun th => if inBuffer th e.pc then getK th.loopBuf e.pc.toNat else none
  match own t with
  | some (w :: code) => if e.members.all fun u => own u == some (w :: code) then (s, .ok w code) else fetchClause s core (threadAsid s t) e.pc.toNat
  | _ => fetchClause s core (threadAsid s t) e.pc.toNat

/-- An entry opened as a group (R201, R40), its clause kept in the loop buffer of the threads whose open loops hold it (R177). -/
def openEntry (s : State) (core : Nat) (e : SwarmEntry) : State :=
  let rest := ((coreSwarm s core).erase e).map fun x => { x with last := false }
  let s1 := putSwarm s core rest
  match e.members with
  | [] => s1
  | t :: _ =>
    match (entryClause s core e t).2 with
    | .ok w code =>
      match legalClause w code 0 with
      | some h =>
        let ms := e.members.foldl insertAscending' []
        let s2 := ms.foldl (fun s t => modThread s t fun th =>
          { bufferClause th e.pc w code with status := .issuing, cla := e.pc, lats := noLatches, wait := none }) s1
        { s2 with opens := s2.opens ++ [⟨core, ms, e.pc, h, code, 0, false⟩] }
      | none => s1
    | _ => s1
where
  insertAscending' : List Nat → Nat → List Nat
    | [], x => [x]
    | y :: ys, x => if x ≤ y then x :: y :: ys else y :: insertAscending' ys x

/-- One more attempt of the waits of a parked group at a `SYNC` or rendezvous word (R207, R217, R218). -/
def progressParked (s : State) (g : Group) : State :=
  match syncOf g.word with
  | some r => g.members.foldl (fun s t =>
      match (getThread s t).bind (·.wait) with | some _ => syncStep r g.latch s t | none => s) s
  | none =>
    match rdvzOf g.word with
    | some r =>
      (crewsOf g.members).foldl (fun s c =>
        let level := ((g.members.find? fun t => threadCrew t == c).bind fun t => (getThread s t).map (·.level)).getD 0
        tryInstance s c r g.pc level) s
    | none => s

/-- Whether no member of a parked group is held by the debugger, the driver, `EXIT`, a save (R214) or a slot not RESIDENT (R194). -/
def membersFree (s : State) (g : Group) : Bool :=
  !g.members.isEmpty && g.members.all fun t => match getThread s t with | some th => th.status == .parked && mayOpen s t th | none => false

/-- A parked group opened again at a word (R207). R201 and R207 do not say where it stands in the order in which clauses opened: it is
the latest (DESIGN CHOICE, unsafe: log 10). -/
def reopen (s : State) (i : Nat) (g : Group) (idx : Nat) : State :=
  let s1 := { s with parked := s.parked.eraseIdx i, opens := s.opens ++ [{ g with idx := idx }] }
  g.members.foldl (fun s t => modThread s t fun th => { th with status := .issuing }) s1

/-- A parked group after another attempt: it takes an open clause if it may go on (R207). -/
def resumeParked (s : State) (i : Nat) : State :=
  match s.parked[i]? with
  | none => s
  | some g0 =>
    if g0.ahead || !membersFree s g0 || decide (8 ≤ openCount s g0.core) then s
    else
      let waits := (syncOf g0.word).isSome || (rdvzOf g0.word).isSome
      let fresh := g0.members.all fun t => match getThread s t with | some th => th.wait.isNone | none => true
      if g0.idx ≥ g0.code.length ∨ !waits ∨ fresh then reopen s i g0 g0.idx
      else
        let s1 := progressParked s g0
        match s1.parked[i]? with
        | none => s1
        | some g =>
          if g.members.isEmpty then { s1 with parked := s1.parked.eraseIdx i }
          else if groupDone s1 g then reopen (pastWait s1 g) i g (g.idx + 1)
          else s1

/-- Whether another attempt of a parked group changes something. -/
def parkedReady (s : State) (i : Nat) : Bool :=
  match s.parked[i]? with
  | none => false
  | some g =>
    let s1 := resumeParked s i
    s1.opens.length != s.opens.length || s1.parked.length != s.parked.length
      || (s1.parked[i]?.map (·.members)) != some g.members
      || g.members.any fun t => ((getThread s1 t).map (·.wait)) != ((getThread s t).map (·.wait))

/-- The parked group of a core, earliest first, that may go on. -/
def readyParked (s : State) (core : Nat) : Option Nat :=
  (List.range s.parked.length).find? fun i =>
    (match s.parked[i]? with | some g => g.core == core | none => false) && parkedReady s i

/-- `CLAUSE_OPEN` (R201): a parked group that may go on first, else the Swarm Table's choice. -/
def execClauseOpen (core : Nat) (s : State) : Host.Outcome State Fault Refusal :=
  .next (match readyParked s core with
    | some i => resumeParked s i
    | none =>
      let s1 := gatherCore s core
      if !coreRuns s1 core || decide (8 ≤ openCount s1 core) then s1
      else
        match chooseEntry (coreSwarm s1 core) with
        | none => s1
        | some e => openEntry s1 core e)

/-- Whether a thread of a split meets a condition of R205 as it stands: a parked one if it is in a named wait; one that has entered a
trap level has met the condition at that moment (`takeTrap`). -/
def pastSplit (s : State) (join : DWord) (u : Nat) : Bool :=
  match getThread s u with
  | none => true
  | some th =>
    th.status == .exited || th.status == .halted || (th.status == .parked && (th.wait.isSome || th.cocoon.isSome))
      || th.status == .exiting || th.status == .fetchWait
      || th.status == .stopped || th.status == .held || (th.status == .ready && th.pc == join)

/-- `DEFERRAL_RELEASE` (R205). -/
def execDeferralRelease (thread : Nat) (s : State) : Host.Outcome State Fault Refusal :=
  .next (match s.deferrals.find? fun d => d.thread == thread with
    | none => s
    | some d =>
      if d.waits.all (pastSplit s d.join) then
        releaseThread { s with deferrals := s.deferrals.erase d } thread
      else s)

/-- Whether a deferral has lasted 4,096 core cycles (R206). -/
def deferralOver (s : State) (d : Deferral) : Bool :=
  cyclesPast s (coreDie (threadCore d.thread)) d.start 4096

/-- `DEFERRAL_EXPIRY` (R206). Where the rules leave a point open: log 11 (DESIGN CHOICE, safe). -/
def execDeferralExpiry (thread : Nat) (s : State) : Host.Outcome State Fault Refusal :=
  .next (match s.deferrals.find? fun d => d.thread == thread with
    | none => s
    | some d => if deferralOver s d then releaseThread { s with deferrals := s.deferrals.erase d } thread else s)

/-- `RENDEZVOUS_COMPLETE` (R218): the instance of a crew at a word and level, if it is complete. -/
def execRendezvousComplete (core slot : Nat) (pc : BitVec 64) (level : Nat) (s : State) : Host.Outcome State Fault Refusal :=
  .next (
    let crew := core * 16 + slot
    match (crewInstances s crew).find? fun x => x.2 == (pc, level) with
    | some x => tryInstance s crew x.1 pc level
    | none => s)

/-- `BARRIER_PHASE_COMPLETE` (R287). -/
def execBarrierPhaseComplete (cohort barrier : Nat) (s : State) : Host.Outcome State Fault Refusal :=
  .next (completePhase s cohort barrier)

/-- `FLUSHD_COMPLETE` (R291). -/
def execFlushdComplete (node : Nat) (s : State) : Host.Outcome State Fault Refusal := .next (completeFlushd s node)

/-- `WAITM_TIMEOUT` (R289): the thread's `WAITM` answers 0 once `SPAN` has reached its limit. Where the rules leave a point open: log 11 (DESIGN CHOICE, safe). -/
def execWaitmTimeout (thread : Nat) (s : State) : Host.Outcome State Fault Refusal :=
  .next (match groupOf s thread, (getThread s thread).bind (·.wait) with
    | some g, some w =>
      match syncOf g.word with
      | some r => if w.kind = waitmKind ∧ r.fn = 2 then syncStep r g.latch s thread else s
      | none => s
    | _, _ => s)

/-- `THREAD_EXIT_COMPLETE` (R162, R238): a thread in `EXIT` whose counters read zero takes its oldest report or ends. -/
def execThreadExitComplete (thread : Nat) (s : State) : Host.Outcome State Fault Refusal :=
  .next (match getThread s thread, groupOf s thread with
    | some th, some g =>
      if th.status = .exiting ∧ countersZero th then
        let s1 := leaveGroup s thread
        settleCrews (exitLane g { s1 with parked := s1.parked.filter fun g => !g.members.isEmpty } thread th) [threadCrew thread]
      else s
    | _, _ => s)

/-- The enabled address breakpoint at an address, on a context with a session (R376). -/
def breakpointAt (s : State) (asid : Nat) (pc : DWord) : Option Nat :=
  if sessionOn s asid then
    (List.range 8).find? fun i =>
      let b := bar0 s (0x808 + 8 * i)
      b.getLsbD 0 && decide (b.toNat / 4 % 2 ^ 55 = pc.toNat / 4)
  else none

/-- `DEBUG_STOP` (R376): a lane that has reached a breakpoint, one that runs ahead under its Cocoon among them, stops before the
instruction. Where the rules leave a point open: log 25 (DEDUCED, unsafe). -/
def execDebugStop (thread : Nat) (s : State) : Host.Outcome State Fault Refusal :=
  .next (match s.opens.find? fun g => g.members.contains thread, getThread s thread with
    | some g, some th =>
      match breakpointAt s th.lc.asid g.pc with
      | some i =>
        if th.stopReq ∨ g.idx ≥ g.code.length then s
        else stopLane g (leaveGroup s thread) thread th (64 + i)
      | none => s
    | _, _ => s)

/-- `DBGRES_SAME` (R376): a stopped lane resumes at its instruction. Where the rules leave a point open: log 25 (DEDUCED, unsafe). -/
def execDbgresSame (die cluster core slot lane : Nat) (s : State) : Host.Outcome State Fault Refusal :=
  .next (modThread s (threadNo (coreNo die cluster core) slot lane) fun th =>
    if th.status = .stopped then { th with status := .parked, stopReq := true } else th)

/-- Whether a word is `BRK` (R173). -/
def isBrk (w : Word) : Bool := match decode w with | .ok (.brk _ _ _) => true | _ => false

/-- `DBGRES_NEXT` (R376): a lane stopped at `BRK` resumes at the next instruction. Where the rules leave a point open: log 25 (DEDUCED, unsafe). -/
def execDbgresNext (die cluster core slot lane : Nat) (s : State) : Host.Outcome State Fault Refusal :=
  .next (
    let t := threadNo (coreNo die cluster core) slot lane
    match getThread s t, groupOf s t with
    | some th, some g =>
      if th.status = .stopped ∧ isBrk g.word then
        let s1 := setThread s t { dropLatch th g.latch with status := .parked, pc := g.pc + 4 }
        { s1 with parked := s1.parked.map fun x => if x.members.contains t then { x with idx := x.idx + 1 } else x }
      else s
    | _, _ => s)

end Sys2Proof.Machine
end

