-- ==== Sys2Proof/Machine/Graph.lean ====
section
/-! DEFINITION. Node records: the Hive's reads (R429), the check of a record (R28, R71, R324), readiness and predecessors (R326,
R337), `GRF` commands (R335-R337) and stage queues (R338, R339). -/

namespace Sys2Proof.Machine

/-- The TLB units of a die's Hive (R341). Where the rules leave a point open: log 34 (DEDUCED, unsafe). -/
def hiveUnits (die : Nat) : List (Nat × Nat) := [(2, die)]

/-- A kernel from its descriptor's 128 bytes (R28). -/
def kernelOf (bs : List Byte) : Kernel :=
  { entry := BitVec.ofNat 64 (field bs 0 8), constBase := BitVec.ofNat 64 (field bs 8 8), kargSize := field bs 16 4
    regs := field bs 20 1, tcount := field bs 21 1 % 16, t16 := field bs 21 1 / 16 == 1, crews := field bs 22 1
    stages := field bs 23 1, params := (List.range 8).map fun k => field bs (24 + k) 1, scratch := field bs 32 1
    stack := field bs 36 4, flags := field bs 40 4, codeSize := field bs 44 4, featReq := BitVec.ofNat 64 (field bs 48 8) }

/-- Whether the PARAMS bytes of a descriptor are out of place (R28). -/
def paramsBad (k : Kernel) : Bool :=
  let used := k.params.take k.tcount
  used.any (fun p => decide (14 < p)) || (k.params.drop k.tcount).any (· != 0)
    || (used.zipIdx.any fun p => p.1 != 0 && (used.take p.2).contains p.1)

/-- Whether an address is a global virtual address aligned to 4 (R28, R152). -/
def codeAddr (a : DWord) : Bool := decide (a.toNat < 2 ^ 57) && a.toNat % 4 == 0

/-- Whether a descriptor is rejected in a context of given features (R28). -/
def descriptorBad (bs : List Byte) (feats : DWord) : Bool :=
  let k := kernelOf bs
  (bs.drop 56).any (· != 0) || field bs 34 2 != 0 || decide (8 ≤ k.flags)
    || k.regs % 4 != 0 || decide (k.regs < 8) || decide (60 < k.regs)
    || !(k.tcount == 0 || k.tcount == 2 || k.tcount == 4 || k.tcount == 8) || decide (1 < field bs 21 1 / 16)
    || paramsBad k
    || decide (k.crews = 0) || decide (32 < k.crews) || decide (k.stages = 0) || decide (8 < k.stages) || decide (16 < k.scratch)
    || decide (16 < field bs 33 1) || k.stack % 16 != 0
    || (k.flags / 4 % 2 == 1 && k.flags / 2 % 2 == 0)
    || k.codeSize == 0 || k.codeSize % 4 != 0 || !codeAddr k.entry || (k.constBase != 0 && !codeAddr k.constBase)
    || (k.featReq &&& ~~~ feats) != 0 || (k.tcount == 8 && !k.featReq.getLsbD 0)

/-- Bytes of a thread in its lane's register store (R69). -/
def storeBytes (k : Kernel) : Nat := k.regs * (4 + k.tcount * (if k.t16 then 2 else 4))
/-- Crews of a kernel alone on a core (R69). -/
def residency (k : Kernel) : Nat := Nat.min 16 (16384 / storeBytes k)
/-- Cores of a kind in a cluster (R9). -/
def kindCores (kind : Nat) : Nat := if kind = 1 then 4 else 28

/-- The ASID of a node record. -/
def recAsid (bs : List Byte) : Nat := field bs 4 2 % 2 ^ 14

/-- Whether a record has a field out of range, a reserved bit set or a misaligned address (R323, R325). Where the rules leave a point open: log 31 (DEDUCED, unsafe). -/
def recordBad (va : Nat) (bs : List Byte) : Bool :=
  let kind := field bs 0 1
  let op := fun (i : Nat) => (field bs (80 + 12 * i) 8, field bs (88 + 12 * i) 4)
  let size := fun (i : Nat) => (op i).2 % 2 ^ 28
  let mode := fun (i : Nat) => (op i).2 / 2 ^ 28 % 4
  va % 128 != 0 || decide (3 < kind) || decide (8 ≤ field bs 1 1) || decide (8 ≤ field bs 2 2) || decide (2 ^ 14 ≤ field bs 4 2)
    || field bs 6 2 != 0 || field bs 31 1 != 0 || field bs 16 4 == 0 || field bs 20 4 == 0 || field bs 24 4 == 0
    || field bs 28 1 == 0 || decide (8 < field bs 28 1) || field bs 29 1 == 0 || decide (32 < field bs 29 1)
    || field bs 30 1 == 0 || decide (64 < field bs 30 1) || decide (65535 < field bs 36 4) || field bs 40 8 % 8 != 0
    || field bs 56 8 % 64 != 0 || field bs 64 8 % 4096 != 0 || (List.range 4).any (fun i => decide (2 ^ 30 ≤ (op i).2))
    || (kind == 2 && (field bs 8 8 != 0 || mode 0 != 1 || mode 1 != 2 || size 0 != size 1 || (op 0).1 % 16 != 0 || (op 1).1 % 16 != 0))
    || (kind == 3 && field bs 8 8 % 8 != 0)

/-- Bytes of the stack block of a cohort (R334). -/
def blockBytes (crews stack : Nat) : Nat := (crews * 64 * stack + 4095) / 4096 * 4096

/-- The refusal code of a record that could be read, after its descriptor (none: not readable) for a compute node: the rows
of R324 from "a field outside its range" on, and 0 when no row holds. Where the rules leave a point open: log 31 (DEDUCED, unsafe). -/
def refusalCode (s : State) (die va : Nat) (bs : List Byte) (desc : Option (List Byte)) : Nat :=
  let _ := die
  let asid := recAsid bs
  let kind := field bs 0 1
  let feats := ctxFeatures s asid
  let flags := field bs 2 2
  let det := flags % 2 == 1
  let fused := flags / 2 % 2 == 1
  let spread := flags / 4 % 2 == 1
  let crews := field bs 29 1
  let lcores := field bs 76 4
  let compute := decide (kind ≤ 1)
  let ds := desc.getD []
  let k := kernelOf ds
  let pool := ctxField s asid 48 8
  if recordBad va bs then 1
  else if compute && (descriptorBad ds feats || crews != k.crews || field bs 28 1 != k.stages || flags != k.flags
      || (kind == 0 && k.featReq.getLsbD 3)
      || (if spread then decide (residency k * kindCores kind < crews) else decide (residency k < crews))) then 2
  else if (det && !feats.getLsbD 2) || ((fused || spread) && !feats.getLsbD 6) then 3
  else if (spread && !fused) || (det && (lcores == 0 || (compute && decide (12 * kindCores kind < lcores)) || field bs 56 8 == 0))
      || (!det && lcores != 0) then 1
  else if compute && decide (0 < k.stack) && (pool == 0 || decide (ctxField s asid 56 4 * 4096 / 4 < blockBytes crews k.stack)) then 1
  else 0

/-- The node of an accepted record (R323). -/
def nodeOf (die va : Nat) (bs : List Byte) (desc : Option (List Byte)) (kargs : List Byte) : Node :=
  let flags := field bs 2 2
  { addr := va, die := die, kind := field bs 0 1, prio := field bs 1 1, det := flags % 2 == 1, fused := flags / 2 % 2 == 1
    spread := flags / 4 % 2 == 1, asid := recAsid bs, kernel := kernelOf (desc.getD []), kargs := kargs
    grid := (field bs 16 4, field bs 20 4, field bs 24 4), stages := field bs 28 1, crews := field bs 29 1, lanes := field bs 30 1
    nsucc := field bs 36 4, succ := field bs 40 8, sigAddr := field bs 8 8, sigVal := BitVec.ofNat 64 (field bs 48 8)
    status := field bs 56 8, save := field bs 64 8, saveSlots := field bs 72 4, lcores := field bs 76 4
    opnds := (List.range 4).map fun i =>
      (field bs (80 + 12 * i) 8, field bs (88 + 12 * i) 4 % 2 ^ 28 * 16, field bs (88 + 12 * i) 4 / 2 ^ 28 % 4)
    phase := 0, ready := 0, pooled := false, nextUnit := 0, retired := 0, failed := none, sticky := 0, saves := 0, start := none
    maxGwct := 0, triggered := false, trigThreads := 0, trigDone := 0, answer := 0, interval := 0
    bases := if flags % 2 = 1 then [(0, [])] else [], buffer := [], lines := [], odEvents := 0, odLines := []
    message := [], held := [], children := 0, parent := none, queues := [], bindings := [], stepDone := 0, retireTick := none }

/-- What the check of a record gives. -/
inductive RecOut where
  | accepted (n : Node) (pred : Nat)
  | refused (code : Nat)
  | missing (va : Nat) (p : Perm)

/-- The check of a record at an address under an ASID (R324, R429). `foreign` is the code for another ASID; `answered` says that
the driver declared the fault met fatal. -/
def checkRecord (s : State) (die asid va foreign : Nat) (answered : Bool) : State × RecOut :=
  let u := hiveUnits die
  match readVirt s u hiveReader asid va 128 with
  | (s1, .error (.missing v p)) => (s1, if answered then .refused 1 else .missing v p)
  | (s1, .error (.fatal _)) => (s1, .refused 1)
  | (s1, .ok bs) =>
      let other := recAsid bs != asid || asid == 0 || !(s1.valid.contains asid)
      let finish := fun (s : State) (desc : Option (List Byte)) (kargs : List Byte) =>
        match refusalCode s die va bs desc with
        | 0 => RecOut.accepted (nodeOf die va bs desc kargs) (field bs 32 4)
        | c => .refused c
      if decide (1 < field bs 0 1) then (s1, if other then .refused foreign else finish s1 none [])
      else
        match readVirt s1 u hiveReader asid (field bs 8 8) 128 with
        | (s2, .error (.missing v p)) =>
          (s2, if answered then (if other then .refused foreign else .refused 2) else .missing v p)
        | (s2, .error (.fatal _)) => (s2, if other then .refused foreign else .refused 2)
        | (s2, .ok ds) =>
          match readVirt s2 u hiveReader asid (field bs 48 8) (kernelOf ds).kargSize with
          | (s3, .error (.missing v p)) => (s3, if answered then .refused 1 else .missing v p)
          | (s3, .error (.fatal _)) => (s3, .refused 1)
          | (s3, .ok ks) => (s3, if other then .refused foreign else finish s3 (some ds) ks)

/-- A node added under a fresh number. -/
def addNode (s : State) (n : Node) : State × Nat :=
  ({ s with nodes := putK s.nodes (s.seqno + 1) n, seqno := s.seqno + 1 }, s.seqno + 1)

/-- The record of a check that came about: refused (event KIND 1), ready, or left to its predecessors (R392, R326). Where the rules leave a point open: log 31 (DEDUCED, unsafe). -/
def settleCheck (s : State) (c : Check) (out : RecOut) : State :=
  match out with
  | .missing _ _ => s
  | .refused code => writeEvent s 1 c.die c.asid code c.va
  | .accepted n pred =>
    let a := addNode s n
    if c.succ ∨ pred = 0 then makeReady a.1 a.2 c.die c.at' else a.1

/-- One attempt of a record's check: it comes about, or waits in State for the driver (R429). -/
def runCheck (s : State) (c : Check) (answered : Bool) : State :=
  match checkRecord s c.die c.asid c.va (if c.succ then 1 else 4) answered with
  | (s1, .missing va p) =>
    let s2 := { s1 with checks := if s1.checks.contains c then s1.checks else s1.checks ++ [c] }
    (raiseFault s2 c.die c.asid va p 7 0xFFFF (.hive 1 c.id)).getD s2
  | (s1, out) => settleCheck { s1 with checks := s1.checks.filter (· != c) } c out

/-- A record that has become ready on a die through a predecessor (R326): a node that was checked and waits becomes ready, a held
one is left to its flush point, another is checked now. -/
def readyRecord (s : State) (die asid va : Nat) : State :=
  match s.nodes.find? fun e => e.2.addr == va && e.2.asid == asid && (e.2.phase == 0 || e.2.phase == 5) with
  | some (id, n) => if n.phase = 0 then makeReady s id die s.span else s
  | none => runCheck { s with seqno := s.seqno + 1 } ⟨s.seqno, die, asid, va, s.span, true⟩ false

/-- The end of a decrement of PRED (R326, R337). -/
inductive PredOut where
  | done (s : State) (gwct : Nat)
  /-- PRED is 0, or the record is of another ASID: nothing changes. -/
  | graphError (s : State)
  | error (s : State) (e : EngErr)

/-- PRED of a record decremented by one atomic at its home (R326). -/
def decrementPred (s : State) (die asid va stamp : Nat) : PredOut :=
  let u := hiveUnits die
  match readVirt s u hiveReader asid (va + 4) 2 with
  | (s1, .error e) => .error s1 e
  | (s1, .ok bs) =>
    let tr := translate s1 u asid (va + 32) .atomic
    match tr.2 with
    | .fault => .error tr.1 (.missing (va + 32) .atomic)
    | .fatal c => .error tr.1 (.fatal c)
    | .ok e =>
      let pa := paOf e (va + 32)
      if poisoned tr.1 pa then .error tr.1 (.fatal 0x0B)
      else
        let key := keyOf s asid
        let pred := readNum tr.1 key pa 4
        if ofBytes bs ≠ asid ∨ pred = 0 then .graphError tr.1
        else
          let r := arrive tr.1 key stamp pa (toBytes 4 (pred - 1))
          .done (if pred = 1 then readyRecord r.1 die asid va else r.1) r.2

/-- Whether the earlier accesses of an entry's thread are over to die scope (R337, R339, R357). -/
def released (s : State) (e : QEntry) (t : Nat) : Bool :=
  (s.access.all fun a => a.thread != t || decide (e.id ≤ a.id)) && (match getThread s t with | some th => decide (th.wct ≤ s.span) | none => true)

/-- The node that launches: `.dep` (variant 1) ties its retirement to the child (R336). -/
def tieChild (s : State) (node child : Nat) (dep : Bool) : State :=
  if dep then modNode (modNode s node fun n => { n with children := n.children + 1 }) child fun c => { c with parent := some node } else s

/-- The end of one lane's `LAUNCH` (R336): the reply. -/
def launchLane (s : State) (e : QEntry) (o : LaneOps) (die : Nat) (out : RecOut) : State × Nat :=
  let node := (entryAsid s e).2
  let dep := decide ((vF e.word).toNat = 1)
  let refuse := fun (s : State) (code : Nat) => (if dep then failNode s node (0x100 + code) else s, code)
  match out with
  | .missing _ _ => (s, 0)
  | .refused code => refuse s code
  | .accepted n pred =>
    if ((getNode s node).map (·.det)).getD false then
      let j := ((getCohort s e.cohort).map (·.j)).getD 0
      let crew := ((getCrew s e.crew).map (·.idx)).getD 0
      let a := addNode s { n with phase := 5 }
      let stage := ((getCohort s e.cohort).map (·.stage)).getD 0
      (modNode (tieChild a.1 node a.2 dep) node fun x => { x with held := x.held ++ [⟨j, crew, o.lane, a.2, a.2, e.cohort, stage⟩] }, 0)
    else if pred = 0 ∧ n.kind ≤ 1 ∧ 16384 ≤ poolCount s die then refuse s 5
    else
      let a := addNode s n
      let s1 := tieChild a.1 node a.2 dep
      (if pred = 0 then makeReady s1 a.2 die s1.span else s1, 0)

/-- The stage queue key: queue q, or its partition for a cohort number (R338). -/
def stageKey (n : Node) (q j : Nat) : Nat := if n.det then q * 2 ^ 96 + j else q * 2 ^ 96
/-- The records a stage queue or partition holds. -/
def stageRecords (n : Node) (q j : Nat) : List (List Word) := (getK n.queues (stageKey n q j)).getD []
/-- Records a queue or partition can hold (R338). -/
def stageLimit (n : Node) : Nat := if n.det then 256 else 4096

/-- Whether every cohort that feeds queue q has retired (R338). -/
def feedersGone (s : State) (node q j : Nat) : Bool :=
  match getNode s node with
  | none => true
  | some n =>
    (n.det && decide (j < n.nextUnit) || decide (unitsOf n ≤ n.nextUnit))
      && s.cohorts.all fun c => !(c.2.node == node && c.2.stage + 1 == q && (!n.det || c.2.j == j))

/-- How far a `GRF` entry has come, lane by lane: the machine, the replies given, and why it stopped. -/
inductive GrfOut where
  | done (s : State) (vals : List (Nat × List Word))
  | hold (s : State) (left : Nat) (vals : List (Nat × List Word))
  | missing (s : State) (left : Nat) (vals : List (Nat × List Word)) (va : Nat) (p : Perm)

/-- An address pair of a `GRF` command: its fault, if any (R335). -/
def recordFault (va : Nat) : Option Nat := if va % 128 ≠ 0 then some 0x06 else if 2 ^ 57 ≤ va then some 0x07 else none

/-- The lanes of a `GRF` entry in ascending order (R335); `fatal`: the driver's answer to the fault of the first. -/
def grfLanes (core : Nat) (e : QEntry) : List LaneOps → Nat → Option Nat → List (Nat × List Word) → State → GrfOut
  | [], _, _, vals, s => .done s vals
  | o :: os, k, fatal, vals, s =>
    let cmd := (cmdF e.word).toNat
    let die := coreDie core
    let ids := entryAsid s e
    let next := grfLanes core e os (k + 1) none
    let fault := fun (s : State) (cause : Nat) => next vals (reportFault s 5 e [o] cause)
    let stage := ((getCohort s e.cohort).map (·.stage)).getD 0
    let j := ((getCohort s e.cohort).map (·.j)).getD 0
    if cmd = 0 then
      match recordFault (pairNum o.a) with
      | some c => fault s c
      | none =>
        match checkRecord s die ids.1 (pairNum o.a) 4 fatal.isSome with
        | (s1, .missing va p) => .missing s1 k vals va p
        | (s1, out) =>
          let r := launchLane s1 e o die out
          next (vals ++ [(o.lane, [BitVec.ofNat 32 r.2])]) r.1
    else if cmd = 3 then
      match recordFault (pairNum o.a) with
      | some c => fault s c
      | none =>
        if !released s e o.thread then .hold s k vals
        else
          match decrementPred s die ids.1 (pairNum o.a) (((getThread s o.thread).map (·.wct)).getD 0) with
          | .done s1 g => next vals (modThread (noteGwct s1 ids.2 g) o.thread (mergeWct · g))
          | .graphError s1 => fault s1 0x02
          | .error s1 (.missing va p) => (match fatal with | some c => fault s1 c | none => .missing s1 k vals va p)
          | .error s1 (.fatal c) => fault s1 c
    else
      match getNode s ids.2 with
      | none => fault s 0x02
      | some n =>
        if cmd = 1 then
          (if stage + 1 ≥ n.stages then fault s 0x02
           else if !released s e o.thread || decide (stageLimit n ≤ (stageRecords n (stage + 1) j).length) then .hold s k vals
           else next vals (modNode s ids.2 fun n => { n with
             queues := putK n.queues (stageKey n (stage + 1) j) (stageRecords n (stage + 1) j ++ [o.b]) }))
        else if stage = 0 then fault s 0x02
        else
          match stageRecords n stage j with
          | r :: rs =>
            next (vals ++ [(o.lane, 1 :: r)]) (modNode s ids.2 fun n => { n with queues := putK n.queues (stageKey n stage j) rs })
          | [] => if feedersGone s ids.2 stage j then next (vals ++ [(o.lane, [0])]) s else .hold s k vals

/-- Replies kept in an entry between attempts: lane, count and words. -/
def packVals (vals : List (Nat × List Word)) : List Nat := vals.flatMap fun v => v.1 :: v.2.length :: v.2.map (·.toNat)
/-- See `packVals`. -/
def unpackVals : Nat → List Nat → List (Nat × List Word)
  | 0, _ => []
  | n + 1, l :: k :: xs => (l, (xs.take k).map (BitVec.ofNat 32)) :: unpackVals n (xs.drop k)
  | _, _ => []

/-- The started `GRF` entry at the head of a core's queue: it goes on from the lane where it waited (R335-R339). Where the rules leave a point open: log 31 (DEDUCED, unsafe). -/
def runGrf (s : State) (core : Nat) (e : QEntry) : State :=
  let k := e.aux.headD 0
  let fatal := if e.refused then some e.refusal else none
  match grfLanes core e (e.ops.drop k) k fatal (unpackVals 64 (e.aux.drop 1)) s with
  | .done s1 vals => settleHead s1 core 5 e (fun s _ => s) (.done s1 vals)
  | .hold s1 left vals => setHead s1 core 5 { e with phase := 1, aux := left :: packVals vals }
  | .missing s1 left vals va p =>
    settleHead s1 core 5 { e with phase := 1, aux := left :: packVals vals } (fun s _ => s) (.missing s1 va p)

end Sys2Proof.Machine
end

