-- ==== Sys2Proof/Machine/Probe.lean ====
section
/-! DEFINITION. The probe commands (R377, R378) and the Cicada stall sampler (R381). -/

namespace Sys2Proof.Machine

/-- One lane of a `PRB` command (R378): its effect, and its reply. -/
def probeLane (core : Nat) (e : QEntry) (acc : State × List (Nat × List Word)) (o : LaneOps) : State × List (Nat × List Word) :=
  let cmd := (cmdF e.word).toNat
  let s := acc.1
  if cmd = 0 then
    (writeObs s core (threadAsid s o.thread) 1 (obsPlace o.thread) e.pc (wordAt o.a 0 + wordAt o.b 0 * 2 ^ 32), acc.2)
  else if cmd = 1 then
    (modThread s o.thread fun th => if th.over then th else { th with sampMark := true }, acc.2)
  else
    let bins := ((getK s.reuse (coreDie core)).map (·.bins)).getD []
    (s, acc.2 ++ [(o.lane, [BitVec.ofNat 32 ((getK bins (wordAt o.a 0 % 16)).getD 0)])])

/-- A `PRB` command at its queue's head: once for each lane, in ascending order (R377). -/
def runPrb (s : State) (core : Nat) (e : QEntry) : EngOut :=
  let r := e.ops.foldl (probeLane core e) (s, [])
  .done r.1 r.2

/-- Whether a group is held at a format-C word (R232, R242, R298). -/
def groupHeld (s : State) (g : Group) : Bool :=
  (match fmtOf (opF g.word).toNat with | .c => true | _ => false) && commandHeld g.word s g g.members

/-- What a thread in a parked group waits for (R381). -/
def parkedCode (g : Group) : Nat :=
  match syncOf g.word with
  | some r => if r.fn = 0 ∨ r.fn = 7 ∨ r.fn = 8 then 2 else if r.fn = 3 ∨ r.fn = 4 ∨ r.fn = 5 ∨ r.fn = 9 then 3 else 7
  | none => 7

/-- The open clause of a core that issued in the cycle of a sample, by its place in `opens`: a free choice among those that could, and
none (R381; DESIGN CHOICE, safe: log 37). -/
def issuedNow (s : State) (core : Nat) : Option Nat :=
  let can := (List.range s.opens.length).filter fun i => match s.opens[i]? with
    | some g => g.core == core && !groupHeld s g && !interlocked s g
    | none => false
  can[(Config.freeWord s.seqno).toNat % (can.length + 1)]?

/-- Whether the header of the clause at an address waits for a counter of a thread (R29). -/
def headerWaits (s : State) (th : Thread) (core : Nat) (pc : DWord) : Bool :=
  match (threadClause s core th pc).2 with
  | .ok w code => (match legalClause w code 0 with | some h => !waitMetBy h th | none => false)
  | _ => false

/-- The state code of a thread (R381): the lowest that holds. Where the rules leave a point open: log 37 (DESIGN CHOICE, safe). -/
def cicadaCode (s : State) (t : Nat) (th : Thread) : Nat :=
  let core := threadCore t
  let mine := s.opens.findIdx? fun g => g.members.contains t
  let now := issuedNow s core
  let opened := mine.bind fun i => s.opens[i]?
  let parked := s.parked.find? fun g => g.members.contains t
  let eligible := mine.isSome || (coreSwarm s core).any fun e => e.members.contains t
  let stands := th.status == .ready && mine.isNone
  let atHeader := match parked with
    | some g => th.cocoon.isSome && decide (g.code.length ≤ g.idx) && headerWaits s th core g.next
    | none => stands && headerWaits s th core th.pc
  let code := fun (k : Nat) => th.status == .parked && (parked.map parkedCode) == some k
  if mine.isSome && mine == now then 0
  else if eligible && now.isSome then 1
  else if th.status == .exiting || atHeader || code 2 || (match opened with | some g => interlocked s g | none => false) then 2
  else if code 3 then 3
  else if th.status == .fetchWait
      || (stands && !eligible && (match (threadClause s core th th.pc).2 with | .ok _ _ => false | _ => true)) then 4
  else if th.cocoon.isSome || th.status == .stopped then 5
  else if (match opened with | some g => groupHeld s g | none => false) then 6
  else if eligible then 1
  else 7

/-- Whether a core's next Cicada sample is due (R381): its die's core cycles have passed a multiple of P since the last one, and since P
was set. Where the rules leave a point open: log 37 (DESIGN CHOICE, safe). -/
def cicadaDue (s : State) (core : Nat) : Bool :=
  let die := coreDie core
  let p := dieReg s die 0x18
  let last := Nat.max ((getK s.cicadaAt core).getD 0) ((getK s.cicadaAt (1536 + die)).getD 0)
  p != 0 && decide (last / p < cyclesOf s die / 20 / p)

/-- `CICADA_SAMPLE` (R381): a KIND 3 record for each resident launched thread of the core that has not exited, every P core cycles. Where
the rules leave a point open: log 37 (DESIGN CHOICE, safe). -/
def execCicadaSample (core : Nat) (s : State) : Host.Outcome State Fault Refusal :=
  .next (
    if !cicadaDue s core then s
    else
      let ts := s.threads.filter fun e => threadCore e.1 == core && !e.2.over && (getSlot s (threadCrew e.1)).state == 2
      let r := ts.foldl (fun (s' : State) e => writeObs s' core e.2.lc.asid 3 (obsPlace e.1) e.2.pc (cicadaCode s e.1 e.2)) s
      { r with seqno := r.seqno + 1, cicadaAt := putK r.cicadaAt core (cyclesOf s (coreDie core) / 20) })

end Sys2Proof.Machine
end

