-- ==== Sys2Proof/Machine/EngineEvents.lean ====
section
/-! DEFINITION. Commands at the heads of engine queues: how they start (R232-R234, R293, R419), and how they end (R160, R232). -/

namespace Sys2Proof.Machine

/-- The turn an engine shared by cores takes (R293, R419): its key, the first core it serves, and how many. Where the rules leave a point open: log 39 (DESIGN CHOICE, safe). -/
def sharedTurn (core cls : Nat) : Nat × Nat × Nat :=
  if cls = 3 then (clusterNo core, clusterNo core * 32, 32) else (48 + coreDie core, coreDie core * 384, 384)

/-- Whether the head of a core's queue waits to start, its guard letting it. -/
def headReady (s : State) (core cls : Nat) : Bool :=
  match getQueue s core cls with
  | e :: _ => e.phase == 0 && guardSays s e == 0
  | [] => false

/-- The core whose head a shared engine takes next: ascending, from the one after the last served. -/
def nextTurn (s : State) (core cls : Nat) : Option Nat :=
  let k := sharedTurn core cls
  let at' := (getK s.solverTurn k.1).getD 0
  ((List.range k.2.2).map fun i => k.2.1 + (at' + i) % k.2.2).find? fun c => headReady s c cls

/-- Whether the solver of a core's cluster is at a command (R293). -/
def solverBusy (s : State) (core : Nat) : Bool :=
  (List.range 32).any fun i => match getQueue s (clusterNo core * 32 + i) 3 with | e :: _ => e.phase != 0 | [] => false

/-- Whether the head of a core's queue may start now: the solver serves one command at a time, and shared engines take turns. -/
def mayStart (s : State) (core cls : Nat) : Bool :=
  if cls = 3 then !solverBusy s core && nextTurn s core cls == some core
  else if cls = 4 then nextTurn s core cls == some core
  else true

/-- `GUARD_HEAD` (R233, R234): the head of a queue starts, is discarded, or is held. -/
def execGuardHead (core cls : Nat) (s : State) : Host.Outcome State Fault Refusal :=
  .next (match getQueue s core cls with
    | [] => s
    | e :: _ =>
      if e.phase ≠ 0 then s
      else
        match guardSays s e with
        | 0 =>
          if mayStart s core cls then
            let k := sharedTurn core cls
            let s1 := setHead s core cls { e with phase := 1 }
            if cls = 3 ∨ cls = 4 then { s1 with solverTurn := putK s1.solverTurn k.1 ((core - k.2.1 + 1) % k.2.2) } else s1
          else s
        | 1 => dropEntry s core cls e
        | _ => s)

/-- A missing translation that the driver has declared fatal ends its command (R247). -/
def settled (e : QEntry) (out : EngOut) : EngOut :=
  match out with
  | .missing s va p => if e.refused then .fault s e.refusal else .missing s va p
  | o => o

/-- The started command at the head of a core's queue of a class other than CPY: its effects and its end; an entry with an
uncorrectable error takes Poison (R384, R247). -/
def runHead (s : State) (core cls : Nat) (e : QEntry) : State :=
  let keep := fun (s : State) (_ : Nat) => s
  let bad := s.poison.contains (queueLine e.id)
  if cls = 1 then settleHead s core 1 e (mtxFaulted core e.pc) (if bad then .fault s 0x0B else settled e (runMtx s core e))
  else if cls = 2 then settleHead s core 2 e (splFaulted core e.pc) (if bad then .fault s 0x0B else settled e (runSpl s core e))
  else if bad then settleHead s core cls e keep (.fault s 0x0B)
  else if cls = 3 then
    let r := runSlv s core e
    settleHead s core 3 { e with aux := r.2 } keep (settled e r.1)
  else if cls = 4 then
    let r := runCol s core e
    if r.2 then (match r.1 with | .done s1 _ => s1 | _ => s) else settleHead s core 4 e keep (settled e r.1)
  else if cls = 5 then runGrf s core e
  else settleHead s core 6 e keep (runPrb s core e)

/-- Whether an entry has started and does not wait for the driver. -/
def QEntry.started (e : QEntry) : Bool := e.phase == 1 || e.refused

/-- `COMMAND_REPLY` (R160, R232): the started head of a queue ends with its reply; `dc3` falls. -/
def execCommandReply (core cls : Nat) (s : State) : Host.Outcome State Fault Refusal :=
  .next (match getQueue s core cls with
    | e :: _ => if 1 ≤ cls ∧ cls ≤ 6 ∧ repF e.word ∧ e.started then runHead s core cls e else s
    | [] => s)

/-- `COMMAND_COMPLETE` (R232, R248): the started head of a queue ends without a reply. -/
def execCommandComplete (core cls : Nat) (s : State) : Host.Outcome State Fault Refusal :=
  .next (match getQueue s core cls with
    | e :: _ => if 1 ≤ cls ∧ cls ≤ 6 ∧ !repF e.word ∧ e.started then runHead s core cls e else s
    | [] => s)

/-- `QUEUE_RECORD_DELIVER` (R338): a waiting `QGET` takes a record, or the end of the stream. -/
def execQueueRecordDeliver (core : Nat) (s : State) : Host.Outcome State Fault Refusal :=
  .next (match getQueue s core 5 with
    | e :: _ => if e.started ∧ (cmdF e.word).toNat = 2 then runHead s core 5 e else s
    | [] => s)

end Sys2Proof.Machine
end

