-- ==== Sys2Proof/Machine/Hash.lean ====
section
/-! DEFINITION. The hash functions that the spec names: SHA-384 with the rest of SHA-2 that its
signatures use (R402, R403), and SHA3-256 (R366). -/

namespace Sys2Proof.Machine

/-- The round constants of SHA-512, part 0. -/
def shaK0 : List DWord :=
  [0x428a2f98d728ae22, 0x7137449123ef65cd, 0xb5c0fbcfec4d3b2f, 0xe9b5dba58189dbbc,
   0x3956c25bf348b538, 0x59f111f1b605d019, 0x923f82a4af194f9b, 0xab1c5ed5da6d8118,
   0xd807aa98a3030242, 0x12835b0145706fbe, 0x243185be4ee4b28c, 0x550c7dc3d5ffb4e2,
   0x72be5d74f27b896f, 0x80deb1fe3b1696b1, 0x9bdc06a725c71235, 0xc19bf174cf692694,
   0xe49b69c19ef14ad2, 0xefbe4786384f25e3, 0x0fc19dc68b8cd5b5, 0x240ca1cc77ac9c65]
/-- The round constants of SHA-512, part 1. -/
def shaK1 : List DWord :=
  [0x2de92c6f592b0275, 0x4a7484aa6ea6e483, 0x5cb0a9dcbd41fbd4, 0x76f988da831153b5,
   0x983e5152ee66dfab, 0xa831c66d2db43210, 0xb00327c898fb213f, 0xbf597fc7beef0ee4,
   0xc6e00bf33da88fc2, 0xd5a79147930aa725, 0x06ca6351e003826f, 0x142929670a0e6e70,
   0x27b70a8546d22ffc, 0x2e1b21385c26c926, 0x4d2c6dfc5ac42aed, 0x53380d139d95b3df,
   0x650a73548baf63de, 0x766a0abb3c77b2a8, 0x81c2c92e47edaee6, 0x92722c851482353b]
/-- The round constants of SHA-512, part 2. -/
def shaK2 : List DWord :=
  [0xa2bfe8a14cf10364, 0xa81a664bbc423001, 0xc24b8b70d0f89791, 0xc76c51a30654be30,
   0xd192e819d6ef5218, 0xd69906245565a910, 0xf40e35855771202a, 0x106aa07032bbd1b8,
   0x19a4c116b8d2d0c8, 0x1e376c085141ab53, 0x2748774cdf8eeb99, 0x34b0bcb5e19b48a8,
   0x391c0cb3c5c95a63, 0x4ed8aa4ae3418acb, 0x5b9cca4f7763e373, 0x682e6ff3d6b2b8a3,
   0x748f82ee5defb2fc, 0x78a5636f43172f60, 0x84c87814a1f0ab72, 0x8cc702081a6439ec]
/-- The round constants of SHA-512, part 3. -/
def shaK3 : List DWord :=
  [0x90befffa23631e28, 0xa4506cebde82bde9, 0xbef9a3f7b2c67915, 0xc67178f2e372532b,
   0xca273eceea26619c, 0xd186b8c721c0c207, 0xeada7dd6cde0eb1e, 0xf57d4f7fee6ed178,
   0x06f067aa72176fba, 0x0a637dc5a2c898a6, 0x113f9804bef90dae, 0x1b710b35131c471b,
   0x28db77f523047d84, 0x32caab7b40c72493, 0x3c9ebe0a15c9bebc, 0x431d67c49c100d4c,
   0x4cc5d4becb3e42b6, 0x597f299cfc657e2a, 0x5fcb6fab3ad6faec, 0x6c44198c4a475817]
/-- The round constants of SHA-512. -/
def shaK : List DWord := shaK0 ++ shaK1 ++ shaK2 ++ shaK3

/-- The bit positions and constants of a SHA-2 hash of w-bit words: rotations and a shift of the schedule, rotations of the rounds. -/
structure Sha2 (w : Nat) where
  near : Nat × Nat × Nat
  far : Nat × Nat × Nat
  headTurns : Nat × Nat × Nat
  tailTurns : Nat × Nat × Nat
  consts : List (BitVec w)

/-- The registers of a SHA-2 hash: the last four values of each of its two sequences, newest first. -/
structure ShaRegs (w : Nat) where
  heads : List (BitVec w)
  tails : List (BitVec w)

/-- SHA-384 and SHA-512. -/
def sha512Kind : Sha2 64 := ⟨(1, 8, 7), (19, 61, 6), (28, 34, 39), (14, 18, 41), shaK⟩
/-- The upper half of a 64-bit word: what SHA-256 has where SHA-512 has the whole. -/
def upperHalf (x : DWord) : Word := (x >>> 32).setWidth 32
/-- SHA-256. -/
def sha256Kind : Sha2 32 := ⟨(7, 18, 3), (17, 19, 10), (2, 13, 22), (6, 11, 25), (shaK.take 64).map upperHalf⟩

/-- The registers at the start of SHA-384. -/
def sha384Init : ShaRegs 64 :=
  ⟨[0xcbbb9d5dc1059ed8, 0x629a292a367cd507, 0x9159015a3070dd17, 0x152fecd8f70e5939],
   [0x67332667ffc00b31, 0x8eb44a8768581511, 0xdb0c2e0d64f98fa7, 0x47b5481dbefa4fa4]⟩
/-- The registers at the start of SHA-512. -/
def sha512Init : ShaRegs 64 :=
  ⟨[0x6a09e667f3bcc908, 0xbb67ae8584caa73b, 0x3c6ef372fe94f82b, 0xa54ff53a5f1d36f1],
   [0x510e527fade682d1, 0x9b05688c2b3e6c1f, 0x1f83d9abfb41bd6b, 0x5be0cd19137e2179]⟩
/-- The registers at the start of SHA-256. -/
def sha256Init : ShaRegs 32 := ⟨sha512Init.heads.map upperHalf, sha512Init.tails.map upperHalf⟩

/-- The n big-endian bytes of a number. -/
def beBytes (n v : Nat) : List Byte := (toBytes n v).reverse
/-- The number that some big-endian bytes stand for. -/
def beNum (bs : List Byte) : Nat := ofBytes bs.reverse

/-- A list cut into pieces of n, at most `fuel` of them. -/
def chunks {α : Type} (n : Nat) : Nat → List α → List (List α)
  | 0, _ => []
  | fuel + 1, l => if l.isEmpty then [] else l.take n :: chunks n fuel (l.drop n)

/-- Three rotations of a word, combined. -/
def turns3 {w : Nat} (r : Nat × Nat × Nat) (x : BitVec w) : BitVec w := (x.rotateRight r.1 ^^^ x.rotateRight r.2.1) ^^^ x.rotateRight r.2.2
/-- Two rotations and a shift of a word, combined. -/
def turns2 {w : Nat} (r : Nat × Nat × Nat) (x : BitVec w) : BitVec w := (x.rotateRight r.1 ^^^ x.rotateRight r.2.1) ^^^ x >>> r.2.2

/-- The schedule moved on by one word: 16 words, oldest first. -/
def Sha2.schedule {w : Nat} (k : Sha2 w) (ws : List (BitVec w)) : List (BitVec w) :=
  let at' := fun i => ws.getD i 0
  ws.tail ++ [at' 0 + turns2 k.near (at' 1) + at' 9 + turns2 k.far (at' 14)]

/-- One round with its word of the schedule and its constant: each sequence gains a value. -/
def Sha2.round {w : Nat} (k : Sha2 w) (r : ShaRegs w) (x : BitVec w) : ShaRegs w :=
  let p := fun i => r.heads.getD i 0
  let q := fun i => r.tails.getD i 0
  let step := q 3 + x + turns3 k.tailTurns (q 0) + (q 2 ^^^ (q 0 &&& (q 1 ^^^ q 2)))
  let most := (p 0 &&& (p 1 ||| p 2)) ||| (p 1 &&& p 2)
  ⟨(step + most + turns3 k.headTurns (p 0)) :: r.heads.take 3, (p 3 + step) :: r.tails.take 3⟩

/-- One block of 16 words taken into the registers. -/
def Sha2.block {w : Nat} (k : Sha2 w) (r : ShaRegs w) (ws : List (BitVec w)) : ShaRegs w :=
  let z := (k.consts.foldl (fun a c => (k.round a.1 (a.2.headD 0 + c), k.schedule a.2)) (r, ws)).1
  ⟨List.zipWith (· + ·) r.heads z.heads, List.zipWith (· + ·) r.tails z.tails⟩

/-- The bytes of the registers after a message, padded to whole blocks. -/
def Sha2.digest {w : Nat} (k : Sha2 w) (init : ShaRegs w) (m : List Byte) : List Byte :=
  let wb := w / 8
  let unit := 16 * wb
  let zeros := (2 * unit - 1 - 2 * wb - m.length % unit) % unit
  let whole := m ++ 0x80 :: (List.replicate zeros 0 ++ beBytes (2 * wb) (8 * m.length))
  let r := (chunks unit (whole.length / unit) whole).foldl
    (fun r b => k.block r ((chunks wb 16 b).map fun x => BitVec.ofNat w (beNum x))) init
  (r.heads ++ r.tails).flatMap fun x => beBytes wb x.toNat

/-- SHA-384 of a message. -/
def sha384 (m : List Byte) : List Byte := (sha512Kind.digest sha384Init m).take 48
/-- SHA-512 of a message. -/
def sha512 (m : List Byte) : List Byte := sha512Kind.digest sha512Init m
/-- SHA-256 of a message. -/
def sha256 (m : List Byte) : List Byte := sha256Kind.digest sha256Init m

/-- The round constants of Keccak-f[1600]. -/
def keccakRc : List DWord :=
  [0x0000000000000001, 0x0000000000008082, 0x800000000000808a, 0x8000000080008000,
   0x000000000000808b, 0x0000000080000001, 0x8000000080008081, 0x8000000000008009,
   0x000000000000008a, 0x0000000000000088, 0x0000000080008009, 0x000000008000000a,
   0x000000008000808b, 0x800000000000008b, 0x8000000000008089, 0x8000000000008003,
   0x8000000000008002, 0x8000000000000080, 0x000000000000800a, 0x800000008000000a,
   0x8000000080008081, 0x8000000000008080, 0x0000000080000001, 0x8000000080008008]
/-- Its rotation offsets, lane x + 5y. -/
def keccakRot : List Nat := [0, 1, 62, 28, 27, 36, 44, 6, 55, 20, 3, 10, 43, 25, 39, 41, 45, 15, 21, 8, 18, 2, 61, 56, 14]

/-- One round of Keccak-f[1600] on 25 lanes. -/
def keccakRound (a : List DWord) (rc : DWord) : List DWord :=
  let at' := fun (i : Nat) => a.getD i 0
  let c := (List.range 5).map fun x => at' x ^^^ at' (x + 5) ^^^ at' (x + 10) ^^^ at' (x + 15) ^^^ at' (x + 20)
  let d := (List.range 5).map fun x => c.getD ((x + 4) % 5) 0 ^^^ (c.getD ((x + 1) % 5) 0).rotateLeft 1
  let t := (List.range 25).map fun i => (at' i ^^^ d.getD (i % 5) 0).rotateLeft (keccakRot.getD i 0)
  -- lane (x, y) of the permuted array comes from lane (x + 3y, x)
  let b := (List.range 25).map fun i => t.getD ((i % 5 + 3 * (i / 5)) % 5 + 5 * (i % 5)) 0
  (List.range 25).map fun i =>
    let y := i / 5 * 5
    let v := b.getD i 0 ^^^ (~~~ (b.getD (y + (i + 1) % 5) 0) &&& b.getD (y + (i + 2) % 5) 0)
    if i = 0 then v ^^^ rc else v

/-- SHA3-256 of a message. -/
def sha3 (m : List Byte) : List Byte :=
  let pad := 136 - m.length % 136
  let tail : List Byte := if pad = 1 then [0x86] else [0x06] ++ List.replicate (pad - 2) 0 ++ [0x80]
  let full := m ++ tail
  let st := (chunks 136 (full.length / 136) full).foldl (fun a block =>
    let ws := (chunks 8 17 block).map fun bs => BitVec.ofNat 64 (ofBytes bs)
    keccakRc.foldl keccakRound ((List.range 25).map fun i => a.getD i 0 ^^^ ws.getD i 0)) (List.replicate 25 (0 : DWord))
  (st.take 4).flatMap fun w => toBytes 8 w.toNat

end Sys2Proof.Machine
end

