-- ==== Sys2Proof/Machine/Place.lean ====
section
/-! DEFINITION. The Hive's placement: fitting units and saved cohorts (R195, R271, R329, R332), stack blocks (R334), launch and
resume of threads (R59, R216), slots (R194), cluster modes (R274, R330) and the choice of victims (R331, R292). -/

namespace Sys2Proof.Machine

/-- FREE slots of a core, ascending (R194). -/
def freeSlots (s : State) (core : Nat) : List Nat := (List.range 16).filter fun k => (getSlot s (core * 16 + k)).state == 0

/-- Bytes reserved in each lane of a core (R70). -/
def reservedBytes (s : State) (core : Nat) : Nat :=
  s.slots.foldl (fun n e => if e.1 / 16 = core ∧ e.2.state ≠ 0 then n + e.2.foot else n) 0

/-- Crews of footprint F that fit on a core now (R195); none on a core halted for a dump. -/
def roomFor (s : State) (core foot : Nat) : Nat :=
  if s.halted.contains core then 0
  else Nat.min (freeSlots s core).length (if foot = 0 then 16 else (16384 - reservedBytes s core) / foot)

/-- The cores of a kind in a cluster of the package, ascending (R61). -/
def clusterCores (cluster kind : Nat) : List Nat :=
  (List.range 32).filterMap fun c => if (kind == 1) == decide (28 ≤ c) then some (cluster * 32 + c) else none

/-- FREE slots of the cores of a kind in a cluster. -/
def clusterFree (s : State) (cluster kind : Nat) : Nat :=
  (clusterCores cluster kind).foldl (fun n c => n + (freeSlots s c).length) 0

/-- Whether a core holds an array or pipeline that a saved cohort would need for itself (R268, R319). -/
def coreClaimed (s : State) (core : Nat) : Bool := (unitOwner s core 1).isSome || (unitOwner s core 2).isSome

/-- The crews (core·16 + slot) that n crews of a cohort take on a core. -/
def takeSlots (s : State) (core n : Nat) : List Nat := ((freeSlots s core).take n).map (core * 16 + ·)

/-- The core with the most FREE slots among some, the lowest on a tie. -/
def mostFree (s : State) : List Nat → Option Nat
  | [] => none
  | c :: cs => some (cs.foldl (fun b x => if (freeSlots s b).length < (freeSlots s x).length then x else b) c)

/-- The crews of a cohort without SPREAD on a cluster (R195, R329), on a bound core if one is given (R332). -/
def fitCohort (s : State) (cluster kind crews foot units : Nat) (bound : Option Nat) (fresh : Bool) : Option (List Nat) :=
  let ok := fun (c : Nat) => decide (crews ≤ roomFor s c foot) && decide (unitsHeld s c + units ≤ 16)
    && (match bound with | some b => c == b | none => true) && (fresh || !coreClaimed s c)
  (mostFree s ((clusterCores cluster kind).filter ok)).map fun c => takeSlots s c crews

/-- Crews taken core by core in ascending order (R271); the first core that gives slots is the home core, which must have the
scratchpad units free (R195, R272). -/
def spreadOver (s : State) (foot units : Nat) : Bool → Nat → List Nat → List Nat
  | _, _, [] => []
  | home, n, c :: cs =>
    let k := if home && decide (16 < unitsHeld s c + units) then 0 else Nat.min n (roomFor s c foot)
    takeSlots s c k ++ spreadOver s foot units (home && k == 0) (n - k) cs

/-- The crews of a spread cohort on a cluster (R271, R272); one that brings arrays or pipelines takes cores where none is held (R268,
R319). -/
def fitSpread (s : State) (cluster kind crews foot units : Nat) (fresh : Bool) : Option (List Nat) :=
  let cs := spreadOver s foot units true crews ((clusterCores cluster kind).filter fun c => fresh || !coreClaimed s c)
  if cs.length = crews then some cs else none

/-- Whether the arrays, or the pipelines, of a saved cohort come to different cores (R242, R298). -/
def unitsApart (crews : List Nat) (ks : List Nat) : Bool :=
  let cores := ks.map fun k => crews.getD k 0 / 16
  cores.eraseDups.length == cores.length

/-- The slots of a cohort claimed (R194); the lines of the L1 whose units pass to its scratchpad are dropped (R196). Where the rules leave a
point open: log 11 (DESIGN CHOICE, safe). -/
def claimSlots (s : State) (node cohort foot units : Nat) (crews : List Nat) : State :=
  let home := crews.headD 0 / 16
  let gone := fun (c : Copy) => units != 0 && (c.place, c.unit) == nearPlace s home && sliceCore s home c.line == home
  { s with
    slots := crews.foldl (fun m c => putK m c ⟨1, node, cohort, foot, units⟩) s.slots
    copies := s.copies.filter fun c => !gone c }

/-- The stack blocks of a context taken in a range of its addresses (R334): base and bytes. -/
def takenBlocks (s : State) (asid lo hi : Nat) : List (Nat × Nat) :=
  s.cohorts.filterMap fun e =>
    match e.2.block, getNode s e.2.node with
    | some b, some n => if n.asid = asid ∧ lo ≤ b ∧ b < hi then some (b, blockBytes n.crews n.kernel.stack) else none
    | _, _ => none

/-- The lowest free stack block of a node's cohort (R334). -/
def freeBlock (s : State) (n : Node) : Option Nat :=
  let pool := ctxField s n.asid 48 8
  let part := ctxField s n.asid 56 4 * 4096 / 4
  let lo := pool + n.die * part
  let size := blockBytes n.crews n.kernel.stack
  let taken := takenBlocks s n.asid lo (lo + part)
  let cands := lo :: taken.map fun t => t.1 + t.2
  let ok := fun (a : Nat) => decide (a + size ≤ lo + part) && taken.all fun t => decide (a + size ≤ t.1) || decide (t.1 + t.2 ≤ a)
  (cands.filter ok).foldl (fun b a => match b with | none => some a | some x => some (Nat.min x a)) none

/-- The launch constants of a thread (R59, R61). -/
def launchOf (s : State) (node : Nat) (n : Node) (cohort j stage crew : Nat) : Launch :=
  let g := n.grid
  { regs := n.kernel.regs, tcount := n.kernel.tcount, t16 := n.kernel.t16
    ndecl := ((n.kernel.params.take n.kernel.tcount).filter (· != 0)).length, params := n.kernel.params, stack := n.kernel.stack
    constBase := n.kernel.constBase, kargs := n.kargs, asid := n.asid, node := node, cohort := cohort, crew := crew
    coh := (BitVec.ofNat 32 (j % g.1), BitVec.ofNat 32 (j / g.1 % g.2.1), BitVec.ofNat 32 (j / g.1 / g.2.1))
    grid := (BitVec.ofNat 32 g.1, BitVec.ofNat 32 g.2.1, BitVec.ofNat 32 g.2.2), stage := stage, det := n.det
    feats := ctxFeatures s n.asid }

/-- A thread at launch (R59, R67). Where the rules leave a point open: log 18 (DEDUCED, unsafe). -/
def launchThread (lc : Launch) (entry shandler stkbase : DWord) (since : Nat) : Thread :=
  { lc := lc, regs := [], preds := [], lats := noLatches, dc := [], zeros := [], fcr := 0, fsr := 0, sp := BitVec.ofNat 32 lc.stack, slim := 0
    loops := [], loopBuf := [], surv := 0, wct := 0, thandler := 0, shandler := shandler, ksave0 := 0, ksave1 := 0, stkbase := stkbase, level := 0
    rec1 := TrapRec.zero, rec2 := TrapRec.zero, pc := entry, cla := entry, cocoon := none, watch := none, triggered := false
    sampMark := false, stopReq := false, batch := 0, yielded := false, status := .ready, since := since, busy := [], wait := none
    answers := [], reports := [], buffered := 0, poison := [] }

/-- A cohort placed on its crews with its stack block (R193-R195, R334): slots PLACING, threads at launch. Where the rules leave a point open: log 18 (DEDUCED, unsafe). -/
def placeCohort (s : State) (node : Nat) (n : Node) (j stage : Nat) (crews : List Nat) (block : Option Nat) : State :=
  let c := s.seqno + 1
  let s1 := claimSlots { s with seqno := s.seqno + 1 } node c (storeBytes n.kernel) n.kernel.scratch crews
  let x : Cohort := ⟨node, j, stage, crews, n.kernel.scratch, [], [], [], 0, block, none, [], [], [], [], [], 0, s.span, 0, 0⟩
  let s2 := { s1 with
    cohorts := putK s1.cohorts c x
    crews := crews.zipIdx.foldl (fun m k => putK m k.1 ⟨c, k.2, n.lanes, [0, 0, 0, 0, 0, 0, 0], [], []⟩) s1.crews }
  let sh := BitVec.ofNat 64 (ctxField s n.asid 16 8)
  crews.zipIdx.foldl (fun s k =>
    (List.range n.lanes).foldl (fun s l =>
      setThread s (k.1 * 64 + l) (launchThread (launchOf s node n c j stage k.2) n.kernel.entry sh
        (BitVec.ofNat 64 (block.getD 0 + (64 * k.2 + l) * n.kernel.stack)) s.span)) s) s2

/-- The cohorts of a unit placed on a cluster in ascending stage, or nothing (R329, R332, R334). -/
def placeUnit (s : State) (node : Nat) (n : Node) (cluster : Nat) : Option State :=
  let j := n.nextUnit
  let l := j % Nat.max n.lcores 1
  let bound0 := if n.det ∧ !n.spread then getK n.bindings l else none
  let r := (List.range n.stages).foldl (fun (acc : Option (State × Option Nat)) stage =>
    match acc with
    | none => none
    | some (s, bound) =>
      let k := n.kernel
      let fit := if n.spread then fitSpread s cluster n.kind n.crews (storeBytes k) k.scratch true
        else fitCohort s cluster n.kind n.crews (storeBytes k) k.scratch bound true
      match fit, (if k.stack = 0 then some none else (freeBlock s n).map some) with
      | some crews, some block =>
        let b := if n.det ∧ !n.spread then some (crews.headD 0 / 16) else none
        some (placeCohort s node n j stage crews block, b)
      | _, _ => none) (some (s, bound0))
  match r with
  | none => none
  | some (s1, bound) =>
    some (modNode s1 node fun n => { n with
      nextUnit := n.nextUnit + 1
      phase := if n.nextUnit + 1 ≥ unitsOf n then 2 else n.phase
      bindings := match bound with | some b => putK n.bindings l b | none => n.bindings })

/-- Whether a cluster may take a node's cohorts: its mode matches FUSED and it is not draining (R274, R329, R330). -/
def clusterOpen (s : State) (n : Node) (cluster : Nat) : Bool :=
  (s.fusedClusters.contains cluster == n.fused) && !s.draining.contains cluster

/-- The clusters of a die by FREE slots of a kind, most first, the lower first on a tie (R329). -/
def clustersByFree (s : State) (die kind : Nat) : List Nat :=
  ((List.range 12).map (die * 12 + ·)).foldl (insertBy s kind) []
where
  insertBy (s : State) (kind : Nat) : List Nat → Nat → List Nat
    | [], x => [x]
    | y :: ys, x => if clusterFree s y kind < clusterFree s x kind then x :: y :: ys else y :: insertBy s kind ys x

/-- A node's next unit placed on the die's first cluster in the order of R329 where it fits; a bound logical core fixes the
cluster (R332). -/
def tryUnit (s : State) (node : Nat) (n : Node) : Option State :=
  if unitsOf n ≤ n.nextUnit then none
  else
    ((clustersByFree s n.die n.kind).filter (clusterOpen s n)).findSome? fun c => placeUnit s node n c

/-- Whether the threads of a saved cohort have all reached `FLUSHD` or exited (R292). -/
def allFlushd (x : Cohort) : Bool :=
  !x.saved.isEmpty && x.saved.all fun v =>
    v.thread.over || (match v.thread.wait with | some w => w.kind == flushdKind | none => false)

/-- A thread's number in its cohort's new crews. -/
def movedThread (crews : List Nat) (crew lane : Nat) : Nat := (crews.getD crew 0) * 64 + lane

/-- The entries that refetch a valid bank of a restored array (R268): its recorded `MWLD` and `MWSCL`, for the threads of some crews. -/
def refetchOf (s : State) (c : Nat) (crews : List Nat) (b : Bank) : List QEntry :=
  let entry := fun (cmd : BitVec 4) (r : Nat × Nat × DWord) =>
    let ops := crews.flatMap fun k => (List.range 64).filterMap fun l => (getThread s (k * 64 + l)).map fun th =>
      LaneOps.mk l (k * 64 + l) [BitVec.ofNat 32 r.1, BitVec.ofNat 32 (r.1 / 2 ^ 32)] [BitVec.ofNat 32 r.2.1] th.batch
    QEntry.mk (s.seqno + cmd.toNat + 1) (encC 0x39 0 0 0 0 cmd false) r.2.2 (crews.headD 0) c ops 0 false false 0 [] []
  if b.valid then (b.load.map (entry 0)).toList ++ (b.scl.map (entry 1)).toList else []

/-- A saved array restored on a core for crews of its cohort (R268): its valid banks are refetched before any queued entry runs. Where the
rules leave a point open: log 29 (DEDUCED, unsafe). -/
def restoreGirder (s : State) (c core : Nat) (crews : List Nat) (g : Girder) : State :=
  let mine := crews.filter fun k => k / 16 == core
  let old := getGirder s core
  let g1 := { g with
    owner := some c, ramp := old.ramp, burst := old.burst
    bank0 := { g.bank0 with valid := false }, bank1 := { g.bank1 with valid := false } }
  let es0 := refetchOf s c mine g.bank0
  let s1 := { s with seqno := s.seqno + 4 }
  let es1 := refetchOf s1 c mine g.bank1
  { putQueue (putGirder s1 core g1) core 1 (es0 ++ es1 ++ getQueue s core 1) with seqno := s.seqno + 8 }

/-- An entry put among others in the order of issue. -/
def insertWithdrawn (w : Nat × QEntry) : List (Nat × QEntry) → List (Nat × QEntry)
  | [] => [w]
  | v :: vs => if w.2.id ≤ v.2.id then w :: v :: vs else v :: insertWithdrawn w vs

/-- A saved cohort placed again on crews of its cluster (R216): its threads, guard slots, arrays, pipelines and withdrawn
entries come back; counters of withdrawn entries rise again. -/
def restoreCohort (s : State) (c : Nat) (x : Cohort) (n : Node) (crews : List Nat) : State :=
  let old := x.crews
  let renum := fun (t : Nat) =>
    match old.findIdx? (· == threadCrew t) with
    | some i => movedThread crews i (threadLane t)
    | none => t
  let bar := fun (b : Barrier) => { b with arrivals := b.arrivals.map fun a => (renum a.1, a.2), last := b.last.map fun l => (renum l.1, l.2) }
  -- a thread that comes from another core reads no copy made here before an acquire of its own (R355)
  let s0 := { s with acquired := crews.foldl (fun m k => putK m (k / 16) s.seqno) s.acquired, seqno := s.seqno + 1 }
  let s1 := claimSlots s0 x.node c (storeBytes n.kernel) x.units crews
  let s2 := { s1 with
    cohorts := putK s1.cohorts c { x with
      crews := crews, barriers := x.barriers.map fun b => (b.1, bar b.2), slot := none, saved := [], savedCrews := []
      savedGirders := [], savedScarabs := [], withdrawn := [], placed := s.span, state := 0 }
    crews := x.savedCrews.foldl (fun m k => putK m (crews.getD k.idx 0) k) s1.crews }
  -- threads, and the groups of one that stand in mid-clause
  let s3 := x.saved.foldl (fun s v =>
    let t := movedThread crews v.crew v.lane
    let th := { v.thread with since := s.span, watch := v.thread.watch.map fun w => (w.1, true) }
    let s' := setThread s t th
    match v.parked, th.wait with
    | some g, some ⟨21, code, va⟩ =>
      let g' := { g with core := threadCore t, members := [t] }
      takeTrap s' t { th with wait := none } { trapInfoAt g' th code (BitVec.ofNat 64 va) with lats := th.lats }
    | _, _ =>
    match v.parked with
    | some g => { s' with parked := s'.parked ++ [{ g with core := threadCore t, members := [t] }] }
    | none => s') s2
  -- withdrawn entries at the heads of their queues
  let s4 := (x.withdrawn.foldr insertWithdrawn []).reverse.foldl (fun s w =>
    let e := w.2
    let e' := { e with
      crew := (match old.findIdx? (· == e.crew) with | some i => crews.getD i 0 | none => e.crew)
      ops := e.ops.map fun o => { o with thread := renum o.thread } }
    let core := e'.crew / 16
    let s1 := putQueue s core w.1 (e' :: getQueue s core w.1)
    if repF e.word then e'.ops.foldl (fun s o => modThread s o.thread fun th =>
      { incDc th 3 with busy := th.busy ++ replyRegs e.word }) s1 else s1) s3
  let s5 := x.savedGirders.foldl (fun s g => restoreGirder s c (crews.getD g.1 0 / 16) crews g.2) s4
  x.savedScarabs.foldl (fun s g =>
    let core := crews.getD g.1 0 / 16
    { s with scarabs := putK s.scarabs core { g.2 with owner := some c } }) s5

/-- A saved cohort placed again where it fits: on its own cluster and kind (R216). -/
def tryResume (s : State) (c : Nat) (x : Cohort) (n : Node) : Option State :=
  let cluster := clusterNo (x.crews.headD 0 / 16)
  if !clusterOpen s n cluster then none
  else
    let k := n.kernel
    let plain := x.savedGirders.isEmpty && x.savedScarabs.isEmpty
    let fit := (if n.spread then fitSpread s cluster n.kind n.crews (storeBytes k) x.units plain
      else fitCohort s cluster n.kind n.crews (storeBytes k) x.units none plain).filter fun crews =>
        unitsApart crews (x.savedGirders.map (·.1)) && unitsApart crews (x.savedScarabs.map (·.1))
    match fit with
    | none => none
    | some crews =>
      let s1 := restoreCohort s c x n crews
      some (modNode s1 x.node fun n => { n with
        bindings := if n.det ∧ !n.spread then putK n.bindings (x.j % Nat.max n.lcores 1) (crews.headD 0 / 16) else n.bindings })

/-- The saved cohorts of a node, in the order they were saved. -/
def savedCohorts (s : State) (node : Nat) : List (Nat × Cohort) :=
  s.cohorts.filter fun c => c.2.node == node && c.2.state == 3

/-- A node's next item placed: a saved cohort first, then its next unit (R331). A cohort whose threads all wait in `FLUSHD` stays
saved (R292). -/
def tryNode (s : State) (node : Nat) (n : Node) : Option State :=
  let saved := (savedCohorts s node).filter fun c => !allFlushd c.2
  match saved with
  | (c, x) :: _ => tryResume s c x n
  | [] => tryUnit s node n

/-- Whether a node is in a queue of the ready pool: it has an item to place (R328, R331). -/
def inQueue (s : State) (die kind : Nat) (e : Nat × Node) : Bool :=
  e.2.die == die && e.2.kind == kind && e.2.failed != some 0x300
    && ((e.2.phase == 1 && e.2.pooled && decide (e.2.nextUnit < unitsOf e.2))
        || ((e.2.phase == 1 || e.2.phase == 2) && (savedCohorts s e.1).any fun c => !allFlushd c.2))

/-- The order of R328. -/
def nodeBefore (x y : Node) : Bool :=
  if x.prio ≠ y.prio then decide (y.prio < x.prio)
  else if x.ready ≠ y.ready then decide (x.ready < y.ready)
  else decide (x.addr < y.addr)

/-- A node put into a list in the order of R328. -/
def insertNode (e : Nat × Node) : List (Nat × Node) → List (Nat × Node)
  | [] => [e]
  | x :: xs => if nodeBefore e.2 x.2 then e :: x :: xs else x :: insertNode e xs

/-- The queues of a core kind on a die in the order served (R328). -/
def poolOrder (s : State) (die kind : Nat) : List (Nat × Node) := (s.nodes.filter (inQueue s die kind)).foldr insertNode []

/-- Nodes that wait outside the pool enter it while it has room (R328). -/
def refillPool (s : State) (die : Nat) : State :=
  if 16384 ≤ poolCount s die then s
  else
    let out := (s.nodes.filter fun e => e.2.die == die && e.2.phase == 1 && !e.2.pooled).foldr insertNode []
    match out with
    | [] => s
    | e :: _ => modNode s e.1 fun n => { n with pooled := true }

/-- The cluster that a die drains for a mode that none of its clusters holds (R330): the fewest resident cohorts, then the lower. -/
def drainChoice (s : State) (die : Nat) : Nat :=
  let count := fun (cl : Nat) => (s.cohorts.filter fun c => c.2.state != 3 && clusterNo (c.2.crews.headD 0 / 16) == cl).length
  ((List.range 12).map (die * 12 + ·)).foldl (fun b c => if count c < count b then c else b) (die * 12)

/-- Whether a die has marked a cluster as draining. -/
def dieDrains (s : State) (die : Nat) : Bool := s.draining.any fun c => c / 12 == die

/-- The first node of each queue of a kind, PRIO by PRIO (R328). -/
def queueHeads : List (Nat × Node) → List (Nat × Node)
  | [] => []
  | e :: es => e :: (queueHeads es).filter fun x => x.2.prio != e.2.prio

/-- A cluster of a die marked as draining if the first node of some queue needs a mode that no cluster holds (R330). -/
def askMode (s : State) (die : Nat) (order : List (Nat × Node)) : State :=
  let lacks := fun (n : Node) => (List.range 12).all fun c => s.fusedClusters.contains (die * 12 + c) != n.fused
  if (queueHeads order).any (fun e => lacks e.2) ∧ !dieDrains s die then
    { s with draining := s.draining ++ [drainChoice s die] }
  else s

/-- `UNIT_PLACE` (R329-R332, R216): the first node of a queue may ask for a cluster's mode to change (R330); the first node in order whose
next item fits is served. -/
def execUnitPlace (die kind : Nat) (s : State) : Host.Outcome State Fault Refusal :=
  .next (
    let order := poolOrder s die kind
    if 2 ≤ powerState s die then s
    else
      let s0 := askMode s die order
      match order.findSome? fun e => tryNode s0 e.1 e.2 with
      | some s1 => refillPool s1 die
      | none => s0)

/-- `PLACING_DONE` (R194, R196): the scratchpad is zeroed and every crew of the cohort is placed; its slots are RESIDENT, and pass on at
once if the node has been ended in between. -/
def execPlacingDone (core slot : Nat) (s : State) : Host.Outcome State Fault Refusal :=
  .next (
    let e := getSlot s (core * 16 + slot)
    if e.state ≠ 1 then s
    else
      let s1 := modCohort s e.cohort fun c => { c with state := if c.state = 0 then 1 else c.state }
      let crews := (s.slots.map (·.1)).filter fun k => (getSlot s k).cohort == e.cohort && (getSlot s k).state == 1
      crews.foldl noteCrewEnd { s1 with
        slots := s1.slots.map fun x => if x.2.cohort = e.cohort ∧ x.2.state = 1 then (x.1, { x.2 with state := 2 }) else x
        threads := s1.threads.map fun t =>
          if t.2.lc.cohort = e.cohort ∧ t.2.status = .ready then (t.1, { t.2 with since := s.span }) else t })

/-- The L1s of a cluster emptied at a change of its mode (R274). -/
def dropL1s (s : State) (cluster : Nat) : State :=
  { s with copies := s.copies.filter fun c => !((c.place == 0 && c.unit / 32 == cluster) || (c.place == 1 && c.unit == cluster)) }

/-- `CLUSTER_MODE_SWITCH` (R274, R330): a draining cluster without resident cohorts changes its mode. -/
def execClusterModeSwitch (die cluster : Nat) (s : State) : Host.Outcome State Fault Refusal :=
  .next (
    let cl := die * 12 + cluster
    let empty := s.slots.all fun e => clusterNo (e.1 / 16) != cl || e.2.state == 0
    if s.draining.contains cl ∧ empty then
      let s1 := (s.access.filter fun a => !a.arrived && clusterNo a.core == cl).foldl arriveAccess s
      { dropL1s s1 cl with
        draining := s1.draining.filter (· != cl)
        fusedClusters := if s1.fusedClusters.contains cl then s1.fusedClusters.filter (· != cl) else s1.fusedClusters ++ [cl] }
    else s)

/-- The machine as placement would see it with some cohorts saved: each keeps its stack block (R334). -/
def without (s : State) (cs : List Nat) : State :=
  { s with
    slots := s.slots.filter fun e => !cs.contains e.2.cohort
    cohorts := s.cohorts.map fun c => if cs.contains c.1 then (c.1, { c.2 with state := 3 }) else c
    girders := s.girders.map fun g => match g.2.owner with | some c => if cs.contains c then (g.1, { g.2 with owner := none }) else g | none => g
    scarabs := s.scarabs.map fun g => match g.2.owner with | some c => if cs.contains c then (g.1, { g.2 with owner := none }) else g | none => g }

/-- Free save slots of a node (R331), ascending. -/
def freeSaveSlots (s : State) (node : Nat) (n : Node) : List Nat :=
  (List.range n.saveSlots).filter fun k => !(s.cohorts.any fun c => c.2.node == node && c.2.slot == some k)

/-- Whether a cohort is a possible victim (R331): resident, with a save slot free at its node. -/
def savable (s : State) (x : Cohort) : Bool :=
  x.state == 1 && (match getNode s x.node with | some n => !(freeSaveSlots s x.node n).isEmpty | none => false)

/-- A cohort put into a list of victims: lowest PRIO first, then most recently placed (R331). -/
def insertVictim (s : State) (e : Nat × Cohort) : List (Nat × Cohort) → List (Nat × Cohort)
  | [] => [e]
  | x :: xs =>
    let prio := fun (c : Cohort) => ((getNode s c.node).map (·.prio)).getD 0
    if prio e.2 < prio x.2 ∨ (prio e.2 = prio x.2 ∧ (x.2.placed < e.2.placed ∨ (x.2.placed = e.2.placed ∧ x.1 < e.1))) then e :: x :: xs
    else x :: insertVictim s e xs

/-- A cohort marked for saving, with the lowest free save slot (R331); a thread holds no save slot twice. -/
def markSave (s : State) (c : Nat) : State :=
  match getCohort s c with
  | none => s
  | some x =>
    match (getNode s x.node).map fun n => freeSaveSlots s x.node n with
    | some (k :: _) =>
      if x.state = 1 then
        let s1 := modCohort s c fun y => { y with state := 5, slot := some k, asked := cyclesOf s (coreDie (x.crews.headD 0 / 16)) }
        if openInterval s1 c then s1 else startSave s1 c
      else s
    | _ => s

/-- Victims taken in order until the waiting item fits, if it can be made to; each needs a save slot of its own. -/
def enoughVictims (fits : List Nat → Bool) : List Nat → List Nat → Option (List Nat)
  | taken, [] => if fits taken then some taken else none
  | taken, v :: vs => if fits taken then some taken else enoughVictims fits (taken ++ [v]) vs

/-- The victims of a list whose nodes have a save slot for them. -/
def limitSlots (s : State) (vs : List (Nat × Cohort)) : List (Nat × Cohort) :=
  vs.foldl (fun acc v =>
    match getNode s v.2.node with
    | some n =>
      if (acc.filter fun a => a.2.node == v.2.node).length < (freeSaveSlots s v.2.node n).length then acc ++ [v] else acc
    | none => acc) []

/-- The cohorts of lower PRIO that occupy cores of a kind on a cluster and may be saved, in the order of R331. -/
def victimsOn (s : State) (n : Node) (cluster : Nat) : List Nat :=
  let vs := s.cohorts.filter fun c =>
    let core := c.2.crews.headD 0 / 16
    clusterNo core == cluster && (isSCore core == (n.kind == 1)) && savable s c.2
      && (match getNode s c.2.node with | some m => decide (m.prio < n.prio) | none => false)
  (limitSlots s (vs.foldr (insertVictim s) [])).map (·.1)

/-- Whether an item of a node fits on a cluster once some cohorts are gone. -/
def fitsWithout (s : State) (node : Nat) (n : Node) (cluster : Nat) (vs : List Nat) : Bool :=
  let s1 := without s vs
  let saved := (savedCohorts s node).filter fun c => !allFlushd c.2
  match saved with
  | (c, x) :: _ => clusterNo (x.crews.headD 0 / 16) == cluster && (tryResume s1 c x n).isSome
  | [] => clusterOpen s n cluster && (placeUnit s1 node n cluster).isSome

/-- The victims of a waiting node (R331): on the cluster where the fewest saves make its item fit, the lower on a tie. -/
def waitVictims (s : State) (die node : Nat) (n : Node) : Option (List Nat) :=
  if s.span ≤ n.ready + dieReg s die 0x08 ∨ (tryNode s node n).isSome then none
  else
    let cands := ((List.range 12).map (die * 12 + ·)).filterMap fun cl =>
      (enoughVictims (fitsWithout s node n cl) [] (victimsOn s n cl)).bind fun vs => if vs.isEmpty then none else some vs
    match cands with
    | [] => none
    | c :: cs => some (cs.foldl (fun b x => if x.length < b.length then x else b) c)

/-- Whether a save asked for on a die is under way. -/
def dieSaves (s : State) (die : Nat) : Bool :=
  s.cohorts.any fun c => (c.2.state == 2 || c.2.state == 5) && coreDie (c.2.crews.headD 0 / 16) == die

/-- `WAITLIM_EXPIRY` (R331): the first node of a queue has waited longer than WAITLIM: the victims that make its item fit are marked for
saving, queue by queue from the highest PRIO on, while no other save is under way on the die. -/
def execWaitlimExpiry (die kind : Nat) (s : State) : Host.Outcome State Fault Refusal :=
  .next (
    if dieSaves s die then s
    else
      match (queueHeads (poolOrder s die kind)).findSome? fun e => waitVictims s die e.1 e.2 with
      | some vs => vs.foldl markSave s
      | none => s)

/-- A node that ends as failed (R292, R382, R391): its cohorts are taken off the die; nothing of it runs any more. -/
def endCohort (s : State) (c : Nat) : State :=
  let ts := (cohortThreads s c).map (·.1)
  let mine := fun (t : Nat) => ts.contains t
  let out := fun (g : Group) => { g with members := g.members.filter fun t => !mine t }
  let s1 := { s with
    opens := s.opens.map out
    parked := (s.parked.map out).filter fun g => !g.members.isEmpty
    swarm := thinSwarm s mine
    deferrals := s.deferrals.filter fun d => !mine d.thread
    queues := s.queues.map fun q => (q.1, q.2.filter fun e => e.cohort != c)
    colCmds := s.colCmds.filter fun k => k.entry.cohort != c || k.cmd != 6
    access := (s.access.filter fun a => !(mine a.thread && a.kind == .load)).map fun a =>
      if mine a.thread then { a with dc := 4, dests := [] } else a
    crews := s.crews.map fun k => if k.2.cohort = c then (k.1, { k.2 with progs := [], faults := [] }) else k
    threads := s.threads.map fun t =>
      if mine t.1 ∧ t.2.status ≠ .exited then (t.1, { t.2 with status := .halted, cocoon := none, watch := none, busy := [], reports := [] }) else t
    slots := s.slots.map fun e => if e.2.cohort = c ∧ e.2.state = 2 then (e.1, { e.2 with state := 3 }) else e
    faults := s.faults.map fun f => (f.1, { f.2 with reqs := f.2.reqs.filter fun r =>
      match r with
      | .cocoon t => !mine t | .fetch t => !mine t | .watch t => !mine t
      | .engine core cls => ((getQueue s core cls).head?.map (·.cohort)) != some c
      | .hive kind item => kind != 8 || (s.colCmds.find? fun k => k.entry.id == item).map (·.entry.cohort) != some c }) }
  let s2 := ts.foldl noteBlocked s1
  if (getCohort s c).any fun x => x.state == 3 then { s2 with cohorts := delK s2.cohorts c }
  else modCohort s2 c fun x => { x with state := 4, regions := [], withdrawn := [] }

/-- Every cohort of a node ended, and the node failed with a code unless an earlier failure was recorded. -/
def endNode (s : State) (node code : Nat) : State :=
  let s1 := failNode s node code
  let cs := (s1.cohorts.filter fun c => c.2.node == node).map (·.1)
  modNode (cs.foldl endCohort s1) node fun n => { n with
    nextUnit := if n.kind ≤ 1 then unitsOf n else n.nextUnit
    phase := if n.stepDone = 0 then 2 else n.phase
    buffer := [], held := [] }

/-- Whether the threads of a node on the die all wait in `FLUSHD` while it has cohorts that are not placed, or that are saved
short of it (R292). -/
def needsRoom (s : State) (node : Nat) (n : Node) : Bool :=
  let ts := s.threads.filter fun t => t.2.lc.node == node && !t.2.over
  !ts.isEmpty && (ts.all fun t => match t.2.wait with | some w => w.kind == flushdKind | none => false)
    && (decide (n.nextUnit < unitsOf n) || (savedCohorts s node).any fun c => !allFlushd c.2)

/-- `FLUSHD_MAKE_ROOM` (R292): while the node's next item does not fit and no save of it is under way, its most recently placed cohort is
marked for saving; without a free save slot the node is ended as failed with 0x400. -/
def execFlushdMakeRoom (node : Nat) (s : State) : Host.Outcome State Fault Refusal :=
  .next (match getNode s node with
    | none => s
    | some n =>
      if !needsRoom s node n || (tryNode s node n).isSome || (s.cohorts.any fun c => c.2.node == node && (c.2.state == 2 || c.2.state == 5)) then s
      else if (freeSaveSlots s node n).isEmpty then endNode s node 0x400
      else
        match (s.cohorts.filter fun c => c.2.node == node && c.2.state == 1).foldr (insertVictim s) [] with
        | v :: _ => markSave s v.1
        | [] => s)

end Sys2Proof.Machine
end

