-- ==== Sys2Proof/Machine/Save.lean ====
section
/-! DEFINITION. Taking a cohort off its core: the roll-back of a Cocoon (R212), pre-emption (R214, R215, R234, R267, R292) and the
retirement of slots and cohorts (R194, R196, R198, R284). -/

namespace Sys2Proof.Machine

/-- The counter that a memory word holds (R160): `dc3` for an atomic. -/
def counterOf (w : Word) : Nat := if (opF w).toNat = 0x29 ∨ (opF w).toNat = 0x2A then 3 else (dcF w).toNat

/-- The registers and predicates of undo entries restored (R212). -/
def undoAll (th : Thread) (us : List Undo) : Thread :=
  us.foldl (fun th u =>
    match u with
    | .reg n x => { th with regs := putK th.regs n x }
    | .pred n b => { th with preds := putK th.preds n b }) th

/-- A thread whose open Cocoon is rolled back (R212, steps 1 and 2): it stands at the faulted instruction. -/
def unwound (th : Thread) (c : Cocoon) (now : Nat) : Thread :=
  let th1 := decDc (undoAll th c.undo) (counterOf c.word) now
  { th1 with lats := c.lats, fsr := c.fsr, cocoon := none, pc := c.pc, cla := c.cla }

/-- A Cocoon rolled back in the machine: its run-ahead loads return first, and the lane leaves its group. -/
def rollCocoon (s : State) (t : Nat) : State :=
  let s1 := returnLoads s t
  match getThread s1 t with
  | none => s1
  | some th =>
    match th.cocoon with
    | none => s1
    | some c => setThread (leaveGroup s1 t) t (unwound th c s1.span)

/-- The group of one that stands at a Cocoon's instruction. -/
def Cocoon.group (c : Cocoon) (core t : Nat) : Group :=
  ⟨core, [t], c.cla, c.hdr, c.code, (c.pc - c.cla).toNat / 4 - 1, false⟩

/-- Whether a device fault's requester is a thread of some, and which. -/
def Requester.thread : Requester → Option Nat
  | .cocoon t => some t | .fetch t => some t | .watch t => some t | _ => none

/-- A saved thread's number as an item of the Hive: its cohort, crew and lane. -/
def savedItem (c crew lane : Nat) : Nat := c * 2048 + crew * 64 + lane

/-- Requests of a cohort's threads to the driver kept as the Hive's (R216). -/
def keepRequests (s : State) (c : Nat) (crews : List Nat) : State :=
  { s with faults := s.faults.map fun f => (f.1, { f.2 with reqs := f.2.reqs.map fun r =>
      match r.thread with
      | some t =>
        (match crews.findIdx? (· == threadCrew t) with
         | some i => .hive 6 (savedItem c i (threadLane t))
         | none => r)
      | none => r }) }

/-- Whether a `GRF.QGET` entry waits on an empty queue (R338). -/
def qgetWaits (s : State) (core : Nat) (e : QEntry) : Bool :=
  (opF e.word).toNat == 0x3D && (cmdF e.word).toNat == 2 && e.phase == 1
    && (match (runGrf s core e |> fun s' => getQueue s' core 5) with | h :: _ => h.id == e.id && h.phase == 1 | [] => false)

/-- Entries of a cohort in a queue from a point on. -/
def entriesFrom (q : List QEntry) (c : Nat) (start : QEntry → Bool) : List QEntry :=
  (q.dropWhile fun e => !(e.cohort == c && start e)).filter fun e => e.cohort == c && (e.phase == 0 || start e)

/-- The entries that a save withdraws from a core's queue of a class (R214, R234): those held on a PENDING slot; a `QGET` that
waits, or what follows a `WAIT` that has left its queue's head, with every later entry of the cohort. Where the rules leave a point open: log 27 (DEDUCED, unsafe). -/
def withdrawnFrom (s : State) (c core cls : Nat) : List QEntry :=
  let q := getQueue s core cls
  let wait := cls == 4 && s.colCmds.any fun k => k.cmd == 6 && k.core == core && k.entry.cohort == c
  let out := if wait then q.filter fun e => e.cohort == c && e.phase == 0
    else if cls = 5 then entriesFrom q c (qgetWaits s core) else []
  q.filter fun e => (out.any fun x => x.id == e.id) || (e.cohort == c && e.phase == 0 && guardSays s e == 2)

/-- The reply of an entry withdrawn: the counters fall and its registers are free (R214). -/
def withdrawReply (s : State) (e : QEntry) : State :=
  if e.prog then s else e.ops.foldl (fun s o => replyLane e.word s o none) s

/-- A cohort's entries withdrawn from the queues of its cores, and its waiting `COL.WAIT`s, with the class of each. -/
def withdrawAll (s : State) (c : Nat) (cores : List Nat) : State :=
  cores.foldl (fun s core =>
    let waits := (s.colCmds.filter fun k => k.cmd == 6 && k.core == core && k.entry.cohort == c).map (·.entry)
    let s0 := waits.foldl withdrawReply { s with colCmds := s.colCmds.filter fun k => !(waits.any fun e => e.id == k.entry.id) }
    let one := fun (s : State) (cls : Nat) =>
      let es := withdrawnFrom s c core cls
      let s1 := putQueue s core cls ((getQueue s core cls).filter fun e => !(es.any fun x => x.id == e.id))
      let more := if cls = 4 then waits ++ es else es
      modCohort (es.foldl withdrawReply s1) c fun x => { x with withdrawn := x.withdrawn ++ more.map fun e => (cls, e) }
    -- what follows a waiting WAIT is found before the WAIT is gone
    let es4 := withdrawnFrom s c core 4
    let s4 := modCohort (es4.foldl withdrawReply
      (putQueue s0 core 4 ((getQueue s0 core 4).filter fun e => !(es4.any fun x => x.id == e.id)))) c fun x =>
        { x with withdrawn := x.withdrawn ++ (waits ++ es4).map fun e => (4, e) }
    [0, 1, 2, 3, 5, 6].foldl one s4) s

/-- The cores of a list of crews. -/
def coresOf (crews : List Nat) : List Nat := (crews.map (· / 16)).eraseDups

/-- Bytes of the save image (R215). Where the rules leave a point open: log 8 (DESIGN CHOICE, safe). -/
def imageBytes (crews foot scratch : Nat) (array : Bool) : Nat :=
  let n := crews * (64 * (foot + 1536)) + scratch * 32768 + (if array then 524288 else 0) + 4096
  (n + 4095) / 4096 * 4096

/-- Bytes whose values the spec does not state put where a die's own write can reach (DESIGN CHOICE, safe: log 8). -/
def writeFree (s : State) (units : List (Nat × Nat)) (asid va n : Nat) : State :=
  let bs := (List.range n).map (Config.freeByte s.seqno)
  (splitLines va bs (n / 128 + 2)).foldl (fun s c =>
    match (translate s units asid c.1 .write).2 with
    | .ok e => (arrive s (keyOf s asid) 0 (paOf e c.1) c.2).1
    | _ => s) { s with seqno := s.seqno + 1 }

/-- What a saved thread keeps of its wait (R214, R216): a barrier, `FLUSHD` or `WAITM` wait. -/
def savedWait (th : Thread) : Option WaitRec :=
  match th.wait with
  | some w => if w.kind = arrivedKind ∨ w.kind = waitmKind ∨ w.kind = flushdKind ∨ w.kind = doneKind then some w else none
  | none => none

/-- The record of a thread in the image (R214): at a boundary, or in a group of one inside its clause. -/
def saveThread (s : State) (crew : Nat) (t : Nat) (th : Thread) : SavedThread :=
  let g := (s.parked.find? fun g => g.members.contains t).map fun g => { g with members := [t], ahead := false }
  let cocoon := (th.wait.map (·.kind)) == some savedCocoonKind
  let st : Status := if th.status = .exited ∨ th.status = .halted ∨ th.status = .exiting ∨ th.status = .stopped then th.status
    else if g.isSome then .parked else .ready
  ⟨crew, threadLane t, { th with
    status := st, wait := if cocoon then th.wait else savedWait th, dc := [], zeros := [], busy := [], loopBuf := [], yielded := false }, g⟩

/-- The launched threads of a crew. -/
def crewThreads (s : State) (crew : Nat) : List (Nat × Thread) := s.threads.filter fun e => threadCrew e.1 == crew

/-- Step 1 to 4 of R214 as they stand: Cocoons rolled back, unbounded waits withdrawn. -/
def quiesced (s : State) (c : Nat) (x : Cohort) : State :=
  let s1 := (cohortThreads s c).foldl (fun s e =>
    match e.2.cocoon with
    | none => s
    | some k =>
      let s' := modThread (rollCocoon s e.1) e.1 fun th =>
        { th with status := if e.2.status = .stopped then .stopped else .parked, wait := some ⟨savedCocoonKind, k.va, 0⟩ }
      { s' with parked := s'.parked ++ [k.group (threadCore e.1) e.1] }) s
  withdrawAll s1 c (coresOf x.crews)

/-- Whether no clause of a cohort is open (R214, step 2), that of a lane running ahead apart. -/
def clausesOver (s : State) (c : Nat) : Bool :=
  s.opens.all fun g => g.ahead || g.members.all fun t => ((getThread s t).map (·.lc.cohort)) != some c

/-- Whether a cohort may be saved now (R214): no clause of it is open, its counters read 0, its engines are done with it. Where the rules leave a point open: log 32 (DEDUCED, unsafe). -/
def saveReady (s : State) (c : Nat) (x : Cohort) : Bool :=
  let s1 := quiesced s c x
  let ts := cohortThreads s1 c
  clausesOver s c
    && (ts.all fun e => countersZero e.2 && (e.2.over || decide (e.2.wct ≤ s.span)))
    && ((cohortThreads s c).all fun e => e.2.status != .exiting || !countersZero e.2)
    && (s1.access.all fun a => !(ts.any fun e => e.1 == a.thread))
    && (s1.queues.all fun q => q.2.all fun e => e.cohort != c)
    && (s1.colCmds.all fun k => k.entry.cohort != c)
    && (x.crews.all fun k => (getCrew s k).all fun y => y.progs.all (·.waiting.isSome))
    && (s.girders.all fun g => g.2.owner != some c || g.2.drained)

/-- The lowest crew index of a cohort on a core. -/
def lowestIdx (crews : List Nat) (core : Nat) : Nat := (crews.findIdx? (· / 16 == core)).getD 0

/-- Stack rows of crews written back, if asked, and dropped (R198). -/
def dropRows (s : State) (crews : List Nat) (spill : Bool) : State :=
  (coresOf crews).foldl (fun s core =>
    let mine := (coreRows s core).filter fun r => crews.contains (core * 16 + r.slot)
    let s1 := if spill then mine.foldl (fun s r => spillRow s core r) s else s
    { s1 with rows := putK s1.rows core ((coreRows s1 core).filter fun r => !crews.contains (core * 16 + r.slot)) }) s

/-- Threads and crews taken away. -/
def dropCrews (s : State) (crews : List Nat) : State :=
  { s with
    threads := s.threads.filter fun e => !crews.contains (threadCrew e.1)
    crews := s.crews.filter fun e => !crews.contains e.1
    parked := (s.parked.map fun g => { g with members := g.members.filter fun t => !crews.contains (threadCrew t) }).filter
      fun g => !g.members.isEmpty
    swarm := thinSwarm s fun t => crews.contains (threadCrew t)
    deferrals := s.deferrals.filter fun d => !crews.contains (threadCrew d.thread) }

/-- A cohort saved (R214, R215): its state leaves the core for its image. -/
def saveCohort (s : State) (c : Nat) (x : Cohort) : State :=
  let s1 := dropRows (keepRequests (promoteOpen (quiesced s c x) c) c x.crews) x.crews true
  let foot := ((getNode s x.node).map fun n => storeBytes n.kernel).getD 0
  let arrays := (s1.girders.filter fun g => g.2.owner == some c).map fun g => (lowestIdx x.crews g.1, g.2)
  let pipes := (s1.scarabs.filter fun g => g.2.owner == some c).map fun g => (lowestIdx x.crews g.1, g.2)
  let saved := x.crews.zipIdx.flatMap fun k => (crewThreads s1 k.1).map fun e => saveThread s1 k.2 e.1 e.2
  let kept := x.crews.filterMap (getCrew s1)
  let s2 := modCohort s1 c fun y => { y with
    saved := saved, savedCrews := kept, state := 3
    savedGirders := arrays.foldl (fun m g => putK m g.1 g.2) [], savedScarabs := pipes.foldl (fun m g => putK m g.1 g.2) [] }
  let s3 := (cohortThreads s2 c).foldl (fun s e => noteBlocked s e.1) s2
  let s4 := dropCrews s3 x.crews
  let s5 := { s4 with
    girders := s4.girders.map fun g => if g.2.owner = some c then
      (g.1, { Girder.free with ramp := g.2.ramp, burst := g.2.burst }) else g
    scarabs := s4.scarabs.filter fun g => g.2.owner != some c
    slots := s4.slots.map fun e => if e.2.cohort = c then (e.1, { e.2 with state := 3 }) else e }
  match getNode s5 x.node with
  | none => s5
  | some n =>
    let size := imageBytes x.crews.length foot x.units (!arrays.isEmpty)
    modNode (writeFree s5 (hiveUnits n.die) n.asid (n.save + x.slot.getD 0 * size) size) x.node fun n => { n with saves := n.saves + 1 }

/-- `COHORT_SAVE` (R214, R215, R267): the save of a cohort chosen as a victim begins once no interval of its array is open; it leaves its
core once it stands still; what waits without bound is withdrawn before that. -/
def execCohortSave (cohort : Nat) (s : State) : Host.Outcome State Fault Refusal :=
  .next (match getCohort s cohort with
    | none => s
    | some x =>
      if x.state = 5 then (if openInterval s cohort then s else startSave s cohort)
      else if x.state ≠ 2 then s
      else if saveReady s cohort x then saveCohort s cohort x
      else if clausesOver s cohort then withdrawAll s cohort (coresOf x.crews)
      else s)

/-- The bound regions of a retiring cohort written back, lowest first (R284): done, or what stops it. -/
def writeBackAll (s : State) (core c : Nat) : List Nat → State × Option EngErr
  | [] => (s, none)
  | k :: ks =>
    match writeBack s core c k 0 with
    | (s1, .error e) => (s1, some e)
    | (s1, .ok _) => writeBackAll (modCohort s1 c fun x => { x with regions := delK x.regions k }) core c ks

/-- Whether a crew's engines and accesses are over. -/
def crewQuiet (s : State) (crew : Nat) : Bool :=
  (s.queues.all fun q => q.2.all fun e => e.crew != crew)
    && (s.colCmds.all fun k => k.entry.crew != crew || k.cmd == 6)
    && (s.access.all fun a => threadCrew a.thread != crew)
    && (match getCrew s crew with | some x => x.progs.all (·.waiting.isSome) | none => true)

/-- A slot freed: its crew, threads and rows are gone; engine faults that no thread has taken mark the node failed (R238). -/
def freeSlot (s : State) (crew : Nat) (node : Nat) : State :=
  let bad := (getCrew s crew).any (fun x => !x.faults.isEmpty) || (crewThreads s crew).any fun e => !e.2.reports.isEmpty
  let s1 := if bad then failNode s node 0x12 else s
  let s2 := dropCrews (dropRows s1 [crew] false) [crew]
  { s2 with slots := delK s2.slots crew }

/-- A cohort that holds no slot any more ends (R196, R242, R298, R327): its units, array and pipeline are free. -/
def retireCohort (s : State) (c : Nat) (x : Cohort) : State :=
  let arrays := s.girders.filter fun g => g.2.owner == some c
  let pipes := s.scarabs.filter fun g => g.2.owner == some c
  let st := (if arrays.any (·.2.ovf) then 1 else 0) + (if arrays.any (·.2.unf) then 2 else 0) + (if pipes.any (·.2.tg) then 8 else 0)
  { modNode s x.node (fun n => { n with sticky := n.sticky ||| st, retired := n.retired + 1 }) with
    cohorts := delK s.cohorts c
    girders := s.girders.map fun g => if g.2.owner = some c then (g.1, { Girder.free with ramp := g.2.ramp, burst := g.2.burst }) else g
    scarabs := s.scarabs.filter fun g => g.2.owner != some c
    poison := s.poison.filter fun l => l < 2 ^ 52 || (l - 2 ^ 52) / 2 ^ 12 != c }

/-- Whether another slot of a cohort is in use. -/
def otherSlots (s : State) (c crew : Nat) : Bool := s.slots.any fun e => e.1 != crew && e.2.cohort == c && e.2.state != 0

/-- The bound regions of a cohort whose threads are over written back, before its slots pass to RETIRING (R284); a fault is the Hive's to
offer, and one declared fatal marks the node failed. -/
def retireRegions (s : State) (c : Nat) (x : Cohort) : State :=
  let home := x.crews.headD 0 / 16
  match writeBackAll s home c (x.regions.map (·.1)) with
  | (s1, some (.missing va p)) =>
    (raiseFault s1 (coreDie home) (((getNode s x.node).map (·.asid)).getD 0) va p 2 (unitOf home) (.hive 5 c)).getD s1
  | (s1, some (.fatal code)) => modCohort (failNode s1 x.node code) c fun x => { x with regions := x.regions.drop 1 }
  | (s1, none) => x.crews.foldl noteCrewEnd s1

/-- Whether the arrays of a cohort still hold rows (R267). -/
def rowsLeft (s : State) (c : Nat) : Bool := s.girders.any fun g => g.2.owner == some c && !g.2.drained

/-- `SLOT_RETIRE` (R194, R284): the slots of a cohort whose threads are over pass to RETIRING once its bound regions are written back; a
RETIRING slot becomes FREE; with the last slot of a cohort the cohort retires. Where the rules leave a point open: log 32 (DEDUCED, unsafe). -/
def execSlotRetire (core slot : Nat) (s : State) : Host.Outcome State Fault Refusal :=
  .next (
    let crew := core * 16 + slot
    let e := getSlot s crew
    let waits := fun (x : Cohort) => !(x.crews.all (crewQuiet s)) || s.faults.any fun f => f.2.reqs.contains (.hive 5 e.cohort)
    if e.state = 2 then
      match getCohort s e.cohort with
      | none => s
      | some x => if !(x.crews.all (crewEnded s)) || waits x then s else retireRegions s e.cohort x
    else if e.state ≠ 3 then s
    else
      match getCohort s e.cohort with
      | none => freeSlot s crew e.node
      | some x =>
        if x.state = 3 then { dropCrews s [crew] with slots := delK s.slots crew }
        else if !crewQuiet s crew then s
        else if otherSlots s e.cohort crew then freeSlot s crew e.node
        else if rowsLeft s e.cohort then s
        else retireCohort (freeSlot s crew e.node) e.cohort x)

end Sys2Proof.Machine
end

