-- ==== Sys2Proof/Machine/Nodes.lean ====
section
/-! DEFINITION. The Hive's work on nodes: submission words (R392), copy and signal nodes (R325), triggers (R340), retirement
(R326, R327, R366, R380, R429) and core dumps (R382, R383). -/

namespace Sys2Proof.Machine

/-- The virtual address of a context's submission word (R392). -/
def wordVa (s : State) (asid word : Nat) : Nat := ctxField s asid 8 8 + 128 * word

/-- A submission word left unwatched (R392, R394): event KIND 1 with CODE 6. -/
def leaveUnwatched (s : State) (asid word : Nat) : State := writeEvent s 1 (word % 4) asid 6 (wordVa s asid word)

/-- The watch on a submission word armed. -/
def armWord (s : State) (asid word pa : Nat) : State := { s with subWatch := s.subWatch ++ [(asid, word, lineOf pa)] }

/-- A fired submission word (R392): its value is taken, its record checked, the watch armed again. -/
def takeWord (s : State) (asid word pa : Nat) : State :=
  let v := readNum s (keyOf s asid) pa 8
  if v = 0 then armWord s asid word pa
  else
    let s1 := (arrive s (keyOf s asid) 0 pa (toBytes 8 0)).1
    let s2 := runCheck { s1 with seqno := s1.seqno + 1 } ⟨s1.seqno, word % 4, asid, v, s1.span, false⟩ false
    armWord s2 asid word pa

/-- `SUBMISSION_WORD_FIRE` (R392, R429): a word that has fired is processed; one that is to be armed (its number plus 64 in
`subFired`) is armed. -/
def execSubmissionWordFire (asid word : Nat) (s : State) : Host.Outcome State Fault Refusal :=
  .next (
    let fired := s.subFired.contains (asid, word)
    if word ≥ 64 ∨ !(fired || s.subFired.contains (asid, word + 64)) then s
    else
      let die := word % 4
      let va := wordVa s asid word
      let s0 := { s with subFired := s.subFired.filter fun x => x != (asid, word) && x != (asid, word + 64) }
      let tr := translate s0 (hiveUnits die) asid va .atomic
      match tr.2 with
      | .ok e =>
        if poisoned tr.1 (paOf e va) then leaveUnwatched tr.1 asid word
        else if fired then takeWord tr.1 asid word (paOf e va) else armWord tr.1 asid word (paOf e va)
      | .fatal _ => leaveUnwatched tr.1 asid word
      | .fault =>
        match walk s asid va with
        | .page .. => leaveUnwatched tr.1 asid word
        | _ =>
          match raiseFault tr.1 die asid va .atomic 7 0xFFFF (.hive 0 (asid * 128 + word + (if fired then 0 else 64))) with
          | some s1 => s1
          | none => s)

/-- Bytes of virtual memory written by a die's Hive at their homes. -/
def hiveWrite (s : State) (die asid va : Nat) (bs : List Byte) : State × Except EngErr Nat :=
  let units := hiveUnits die
  match writable s units asid va bs.length with
  | (s1, some e) => (s1, .error e)
  | (s1, none) =>
    let r := (splitLines va bs (bs.length / 128 + 2)).foldl (fun (acc : State × Nat) c =>
      match (translate acc.1 units asid c.1 .write).2 with
      | .ok e => let w := arrive acc.1 (keyOf s asid) 0 (paOf e c.1) c.2; (w.1, Nat.max acc.2 w.2)
      | _ => acc) (s1, 0)
    (r.1, .ok r.2)

/-- Whether a copy or signal node is the next of its die in ready order (R328). -/
def nextOfDie (s : State) (n : Node) : Bool :=
  s.nodes.all fun e => !(e.2.die == n.die && decide (2 ≤ e.2.kind) && e.2.phase == 1 && e.2.start.isNone
    && (decide (e.2.ready < n.ready) || (e.2.ready == n.ready && decide (e.2.addr < n.addr))))

/-- The node's first access noted (R327). Where the rules leave a point open: log 32 (DEDUCED, unsafe). -/
def startNode (s : State) (node : Nat) : State :=
  modNode s node fun n => { n with start := match n.start with | some x => some x | none => some s.span }

/-- A copy or signal node whose work is over. -/
def nodeDone (s : State) (node : Nat) : State := modNode s node fun n => { n with phase := 2, answer := 0 }

/-- A copy that has failed (R325, R279): of its new bytes that it could reach, the free values say which it has written. -/
def partialNodeCopy (s : State) (node die asid src dst len : Nat) : State :=
  let units := hiveUnits die
  let seed := s.seqno
  (List.range ((len + 15) / 16)).foldl (fun s i =>
    let n := Nat.min 16 (len - 16 * i)
    match readVirt s units ⟨none, node⟩ asid (src + 16 * i) n, writable s units asid (dst + 16 * i) n with
    | (_, .ok bs), (_, none) =>
      bs.zipIdx.foldl (fun s b =>
        if (Config.freeByte seed (16 * i + b.2)).getLsbD 0 then
          (writeVirt s units (die * 384) asid node 0 0 (dst + 16 * i + b.2) [b.1]).1 else s) s
    | _, _ => s) { s with seqno := s.seqno + 1 }

/-- The Hive's wait for the driver at a node's access; a full buffer leaves it to try again. -/
def nodeWaits (s : State) (node die asid va : Nat) (p : Perm) : State :=
  if s.faults.any fun f => f.2.reqs.contains (.hive 2 node) then s
  else (raiseFault s die asid va p 7 0xFFFF (.hive 2 node)).getD s

/-- `COPY_NODE_RUN` (R325): the whole copy; its writes are the node's. -/
def execCopyNodeRun (node : Nat) (s : State) : Host.Outcome State Fault Refusal :=
  .next (match getNode s node with
    | none => s
    | some n =>
      if n.kind ≠ 2 ∨ n.phase ≠ 1 ∨ (n.start.isNone && !nextOfDie s n) then s
      else
        let s0 := startNode s node
        let src := ((n.opnds.getD 0 (0, 0, 0)).1, (n.opnds.getD 0 (0, 0, 0)).2.1)
        let dst := (n.opnds.getD 1 (0, 0, 0)).1
        let units := hiveUnits n.die
        let fail := fun (s : State) (c : Nat) => nodeDone (failNode (partialNodeCopy s node n.die n.asid src.1 dst src.2) node c) node
        let stop := fun (s : State) (e : EngErr) =>
          match e with
          | .fatal c => fail s c
          | .missing va p => if n.answer ≠ 0 then fail s n.answer else nodeWaits s node n.die n.asid va p
        match readVirt s0 units ⟨none, node⟩ n.asid src.1 src.2 with
        | (s1, .error e) => stop s1 e
        | (s1, .ok bs) =>
          match writable s1 units n.asid dst src.2 with
          | (s2, some e) => stop s2 e
          | (s2, none) =>
            nodeDone (writeVirt s2 units (n.die * 384) n.asid node 0 0 dst bs).1 node)

/-- `SIGNAL_NODE_RUN` (R325): one 8-byte store of KARGS to the word at KDESC, a release at system scope. -/
def execSignalNodeRun (node : Nat) (s : State) : Host.Outcome State Fault Refusal :=
  .next (match getNode s node with
    | none => s
    | some n =>
      if n.kind ≠ 3 ∨ n.phase ≠ 1 ∨ (n.start.isNone && !nextOfDie s n) then s
      else
        let s0 := startNode s node
        match writable s0 (hiveUnits n.die) n.asid n.sigAddr 8 with
        | (s1, none) =>
          nodeDone (writeVirt s1 (hiveUnits n.die) (n.die * 384) n.asid node 0 0 n.sigAddr (toBytes 8 n.sigVal.toNat)).1 node
        | (s1, some (.fatal c)) => nodeDone (failNode s1 node c) node
        | (s1, some (.missing va p)) =>
          if n.answer ≠ 0 then nodeDone (failNode s1 node n.answer) node else nodeWaits s1 node n.die n.asid va p)

/-- A graph error reported (R326, R394); the event's CODE is unstated. Where the rules leave a point open: log 33 (DEDUCED, unsafe). -/
def graphError (s : State) (n : Node) (addr : Nat) : State :=
  writeEvent { s with seqno := s.seqno + 1 } 2 n.die n.asid (Config.freeWord s.seqno).toNat addr

/-- Step 3 of R326 from successor k on: how many are treated, and the fault where it waits; `answer` is the driver's fatal
answer for the first. Where the rules leave a point open: log 31 (DEDUCED, unsafe). -/
def walkSucc (n : Node) : Nat → Nat → Nat → State → State × Nat × Option (Nat × Perm)
  | 0, k, _, s => (s, k, none)
  | left + 1, k, answer, s =>
    let entry := n.succ + 8 * k
    let bad := fun (s : State) (addr : Nat) => walkSucc n left (k + 1) 0 (graphError s n addr)
    match readVirt s (hiveUnits n.die) hiveReader n.asid entry 8 with
    | (s1, .error (.missing va p)) => if answer ≠ 0 then bad s1 entry else (s1, k, some (va, p))
    | (s1, .error (.fatal _)) => bad s1 entry
    | (s1, .ok bs) =>
      let va := ofBytes bs
      if va % 128 ≠ 0 then bad s1 va
      else
        match decrementPred s1 n.die n.asid va n.maxGwct with
        | .done s2 _ => walkSucc n left (k + 1) 0 s2
        | .graphError s2 => bad s2 va
        | .error s2 (.missing v p) => if answer ≠ 0 then bad s2 va else (s2, k, some (v, p))
        | .error s2 (.fatal _) => bad s2 va

/-- Step 3 of R326 of a node from its k-th successor on, the Hive waiting where a translation is missing: the machine and how many
successors are treated. -/
def releaseSuccessors (s : State) (node k : Nat) : State × Nat :=
  match getNode s node with
  | none => (s, k)
  | some n =>
    if s.faults.any fun f => f.2.reqs.contains (.hive 4 node) then (s, k)
    else
      match walkSucc n (n.nsucc - k) k n.answer s with
      | (s1, k', none) => (modNode s1 node fun n => { n with answer := 0 }, k')
      | (s1, k', some (va, p)) =>
        ((raiseFault (modNode s1 node fun n => { n with answer := 0 }) n.die n.asid va p 7 0xFFFF (.hive 4 node)).getD s1, k')

/-- `NODE_TRIGGER` (R340): step 3 of R326 at once, whether or not the node has failed since it triggered. Where the rules leave a point open: log 31 (DEDUCED, unsafe). -/
def execNodeTrigger (node : Nat) (s : State) : Host.Outcome State Fault Refusal :=
  .next (match getNode s node with
    | none => s
    | some n =>
      if n.failed.isSome && !n.triggered then s
      else if !n.triggered && !allTriggered s node n then s
      else if n.triggered && decide (n.nsucc ≤ n.trigDone) then s
      else
        let r := releaseSuccessors (modNode s node fun n => { n with triggered := true }) node n.trigDone
        modNode r.1 node fun n => { n with trigDone := r.2 })

/-- The status block of a node at the tick of its retirement (R327). Where the rules leave a point open: log 32 (DEDUCED, unsafe). -/
def statusBlock (s : State) (n : Node) : List Byte :=
  let digest := n.det && n.failed.isNone
  let st := n.sticky ||| (if n.failed.isSome then 16 else 0) ||| (if digest then 32 else 0)
  let start := match n.start with | some x => x | none => (freeDWord s.seqno).toNat
  toBytes 4 st ++ toBytes 4 (n.failed.getD 0) ++ toBytes 8 n.odEvents ++ toBytes 4 n.odLines.length ++ toBytes 4 n.saves
    ++ toBytes 8 start ++ toBytes 8 (n.retireTick.getD s.span) ++ List.replicate 24 0
    ++ (if digest then sha3 n.message else List.replicate 32 0) ++ List.replicate 32 0
    ++ ((List.range 64).flatMap fun i => toBytes 8 (n.odLines.getD i 0))

/-- The reuse histogram of a die written at the retirement of the node it watches (R380): 8 records of KIND 5. Where the rules leave a point open: log 33 (DEDUCED, unsafe). -/
def reuseRecords (s : State) (n : Node) (die : Nat) : State :=
  if (bar0 s (0x400 + 0x100 * die + 0x20)).toNat ≠ n.addr ∨ dieReg s die 0x28 % 2 ^ 14 ≠ n.asid ∨ n.addr = 0 then s
  else
    let bins := ((getK s.reuse die).map (·.bins)).getD []
    (List.range 8).foldl (fun s j =>
      let data := (getK bins (2 * j)).getD 0 + (getK bins (2 * j + 1)).getD 0 * 2 ^ 32
      writeObs { s with seqno := s.seqno + 1 } (die * 384) n.asid 5 [0xFF, 0xFF, 0xFF, (Config.freeByte s.seqno 0).toNat, die]
        n.kernel.entry data) s

/-- Whether a node's work is over, before its flush point of retirement (R326). -/
def workOver (s : State) (node : Nat) (n : Node) : Bool :=
  if n.kind ≤ 1 then
    (n.phase == 2 || n.phase == 3) && decide (unitsOf n ≤ n.nextUnit) && s.cohorts.all fun c => c.2.node != node
  else n.phase == 2 || n.phase == 3

/-- The end of a node (R326, R336): a failed one is reported (event KIND 3), and its parent learns of it. -/
def closeNode (s : State) (node : Nat) (n : Node) : State :=
  let s1 := match n.failed with
    | some c => writeEvent s 3 n.die n.asid c n.addr
    | none => s
  let s2 := match n.parent with
    | some p =>
      let s' := modNode s1 p fun x => { x with children := x.children - 1 }
      (match n.failed with | some c => failNode s' p c | none => s')
    | none => s1
  refillPool { s2 with nodes := delK s2.nodes node } n.die

/-- The successors of a node that did not fail released, then its end. -/
def finishNode (s : State) (node : Nat) (n : Node) : State :=
  if n.failed.isSome ∨ n.triggered then
    (if n.triggered ∧ n.trigDone < n.nsucc then s else closeNode s node n)
  else
    let r := releaseSuccessors s node (n.stepDone - 2)
    let s1 := modNode r.1 node fun n => { n with stepDone := 2 + r.2 }
    if n.nsucc ≤ r.2 then
      (match getNode s1 node with | some m => closeNode s1 node m | none => s1)
    else s1

/-- The status block written (R327, R429). -/
def writeStatus (s : State) (node : Nat) (n : Node) : State :=
  let done := fun (s : State) => modNode s node fun n => { n with stepDone := 2, answer := 0 }
  if n.status = 0 then done s
  else
    match hiveWrite s n.die n.asid n.status (statusBlock s n) with
    | (s1, .ok _) => done { s1 with seqno := s1.seqno + 1 }
    | (s1, .error (.fatal c)) => done (failNode s1 node c)
    | (s1, .error (.missing va p)) =>
      if n.answer ≠ 0 then done (failNode s1 node n.answer)
      else if s.faults.any fun f => f.2.reqs.contains (.hive 3 node) then s
      else (raiseFault s1 n.die n.asid va p 7 0xFFFF (.hive 3 node)).getD s1

/-- `NODE_RETIRE` (R326): the flush point of a deterministic node (R363), then the wait for its writes, its status block and the
release of its successors. -/
def execNodeRetire (node : Nat) (s : State) : Host.Outcome State Fault Refusal :=
  .next (match getNode s node with
    | none => s
    | some n =>
      if !workOver s node n then s
      else if n.stepDone = 0 then
        let s1 := if n.kind ≤ 1 then flushNode s node else s
        (List.range 4).foldl (fun s d => reuseRecords s n d) (modNode s1 node fun n => { n with stepDone := 1, phase := 3 })
      else if n.stepDone = 1 then
        (if s.span < n.maxGwct ∨ n.children ≠ 0 then s
         else
           let n1 := { n with retireTick := some (n.retireTick.getD s.span) }
           writeStatus (modNode s node fun _ => n1) node n1)
      else finishNode s node n)

/-- Whether a range of the dump area can be written (R383): the offset of its first byte that cannot. -/
def dumpBad (s : State) (base n : Nat) : Option Nat :=
  ((List.range (n / 128)).map (128 * ·)).find? fun o => !paExists (base + o) || poisoned s (base + o)

/-- Bytes of a core's dump (R382): the header, an image for each cohort of the context on the core, and the secondary records. Where the rules leave a point open: log 8 (DESIGN CHOICE, safe), log 33 (DEDUCED, unsafe). -/
def dumpBytes (s : State) (d : Dump) : Nat :=
  let cs := s.cohorts.filter fun c => (c.2.crews.any fun k => k / 16 == d.core) && c.2.state != 3
    && ((getNode s c.2.node).map (·.asid)) == some d.asid
  let one := fun (c : Nat × Cohort) =>
    imageBytes c.2.crews.length (((getNode s c.2.node).map fun n => storeBytes n.kernel).getD 0) c.2.units
      (s.girders.any fun g => g.2.owner == some c.1)
  4096 + cs.foldl (fun n c => n + one c) 0 + 256 * d.written

/-- The node of a dump's faulting thread. Where the rules leave a point open: log 33 (DEDUCED, unsafe). -/
def dumpNode (s : State) (d : Dump) : Nat := ((getThread s d.thread).map fun th => th.lc.node).getD 0

/-- The header of a dump (R382): its items in the order of R382, 8 bytes each, which R382 leaves open (DESIGN CHOICE, unsafe: log 50);
the rest of the area has free bytes. -/
def dumpHeader (d : Dump) : List Byte :=
  [d.cause, d.pc.toNat, d.val.toNat, threadLane d.thread, threadSlot d.thread, coreIndex d.core, coreCluster d.core, d.die, d.asid, d.at',
    d.written, d.counted].flatMap (toBytes 8)

/-- `CORE_DUMP` (R382, R383): the first dump due on a die. What stands where in the images and secondary records is unstated, so their
bytes are free. -/
def execCoreDump (die : Nat) (s : State) : Host.Outcome State Fault Refusal :=
  .next (match s.dumps.find? fun d => d.die == die with
    | none => s
    | some d =>
      if s.dumpAborts.contains die then s
      else
        let base := dieReg s die 0x30
        let n := dumpBytes s d
        let node := dumpNode s d
        let code := 0x200 + d.cause % 256
        let s0 := { s with dumps := s.dumps.filter fun x => x != d }
        if base = 0 then endNode s0 node code
        else
          match dumpBad s base n with
          | some o =>
            let s1 := endNode s0 node code
            writeEvent { s1 with
              halted := ((List.range 384).map (die * 384 + ·)).foldl (fun h c => if h.contains c then h else h ++ [c]) s1.halted
              dumpAborts := s1.dumpAborts ++ [die] } 6 die d.asid 0xDAB o
          | none =>
            let bs := dumpHeader d ++ ((List.range n).map (Config.freeByte s.seqno)).drop (dumpHeader d).length
            let s1 := (arrive s0 (keyOf s 0) 0 base bs).1
            let s2 := endNode { s1 with seqno := s1.seqno + 2 } node code
            writeEvent s2 5 die d.asid (Config.freeWord (s.seqno + 1)).toNat 0)

end Sys2Proof.Machine
end

