-- ==== Sys2Proof/Machine/Program.lean ====
section
/-! DEFINITION. Engine programs (R235-R239): their clauses, the words they may hold, and the engine form of `RDVZ`. -/

namespace Sys2Proof.Machine

/-- An e register; `e0` reads 0 (R235). -/
def Prog.reg (p : Prog) (n : Nat) : Word := if n = 0 then 0 else (getK p.regs n).getD 0
/-- A program with an e register written; a write of `e0` is discarded. -/
def Prog.setReg (p : Prog) (n : Nat) (x : Word) : Prog := if n = 0 then p else { p with regs := putK p.regs n x }
/-- The word a program issues next, and its address. -/
def Prog.word (p : Prog) : Word := p.code.getD p.idx 0
/-- See `Prog.word`. -/
def Prog.at' (p : Prog) : DWord := p.cla + BitVec.ofNat 64 (4 * (p.idx + 1))

/-- The words a field of a kind names in a program (R237, R275); `none` is an engine fault. -/
def progField (p : Prog) (k : CmdField) (c : BitVec 6) : Option (List Word) :=
  match k with
  | .none => some []
  | .reg => if c.toNat < 16 then some [p.reg c.toNat] else Option.none
  | .pair => if c.toNat % 2 = 0 ∧ 2 ≤ c.toNat ∧ c.toNat ≤ 14 then some [p.reg c.toNat, p.reg (c.toNat + 1)] else Option.none
  | .block =>
    if c.toNat = 4 ∨ c.toNat = 8 ∨ c.toNat = 12 then some ((List.range 4).map fun i => p.reg (c.toNat + i)) else Option.none
  | .first _ _ => Option.none

/-- A crew's program of a class replaced, or taken away. -/
def setProg (s : State) (p : Prog) (q : Option Prog) : State :=
  modCrew s p.crew fun c => { c with progs := c.progs.filterMap fun x => if x.cls = p.cls then q else some x }

/-- An engine fault that stops a program (R238): reported at the next `RDVZ` of the crew that names its class. Where the rules leave a point open: log 26 (DEDUCED, unsafe). -/
def progFault (s : State) (p : Prog) (cause : Nat) (addr : DWord) (word : Word) : State :=
  modCrew (setProg s p none) p.crew fun c => { c with faults := c.faults ++ [⟨p.cls, cause, addr, word⟩] }

/-- The item number of a program among the Hive's requests: its fetch (kind 7). -/
def progItem (p : Prog) : Nat := p.crew * 4 + p.cls

/-- The engine class of a program class (R235). -/
def engineOf (cls : Nat) : Nat := if cls = 1 then 1 else 0

/-- Whether a header is one that a program of a class may have (R236). -/
def progHeader (w : Word) (code : List Word) (cls : Nat) : Option Header :=
  match legalClause w code cls with
  | some h => if h.wait = 0 ∧ h.guard = 0 ∧ !h.sense ∧ !h.yields then some h else none
  | none => none

/-- A program brought to its next clause (R236); `fatal`: the driver's answer to the fault of its fetch. -/
def openProg (s : State) (p : Prog) (fatal : Option Nat) : State :=
  let core := p.crew / 16
  let r := if p.pc.toNat % 4 = 0 ∧ p.pc.toNat < 2 ^ 57 then fetchClause s core (crewAsid s p.crew) p.pc.toNat else (s, .fatal 0x07 0)
  match r.2 with
  | .ok w code =>
    match progHeader w code p.cls with
    | some h => setProg r.1 p (some { p with cla := p.pc, hdr := some h, code := code, idx := 0 })
    | none => progFault r.1 p 0x02 p.pc w
  | .fatal c _ => progFault r.1 p c p.pc 0
  | .missing va =>
    match fatal with
    | some c => progFault r.1 p c p.pc 0
    | none =>
      (raiseFault r.1 (coreDie core) (crewAsid s p.crew) va .fetch (srcOf (engineOf p.cls)) (unitOf core) (.hive 7 (progItem p))).getD s

/-- A program that goes on at an address: its clause is over, and with it its turn (R236). -/
def progTo (s : State) (p : Prog) (loops : List Loop) (pc : DWord) : State :=
  setProg s p (some { p with hdr := none, code := [], idx := 0, loops := loops, pc := pc })

/-- A program that falls through into an address (R175). -/
def progFall (s : State) (p : Prog) (pc : DWord) : State :=
  let r := fallInto p.loops pc
  progTo s p r.1 r.2

/-- The end of the check of a program's transfer. -/
inductive ProgTarget where
  | ok
  | bad
  /-- A missing translation, offered to the driver (R428), at an address. -/
  | missing (va : Nat)

/-- Whether the word at an address is a header of a program's class (R236, R428). -/
def progTarget (s : State) (p : Prog) (addr : DWord) : ProgTarget :=
  if addr.toNat % 4 ≠ 0 ∨ 2 ^ 57 ≤ addr.toNat then .bad
  else
    match (fetchWord s (p.crew / 16) (crewAsid s p.crew) addr.toNat).2 with
    | .ok w _ => if isTagged w && (headerFields w).cls == p.cls then .ok else .bad
    | .fatal _ _ => .bad
    | .missing va => .missing va

/-- A program's fetch offered to the driver; without a free fault record it tries again. -/
def progOffer (s : State) (p : Prog) (va : Nat) : State :=
  let core := p.crew / 16
  (raiseFault s (coreDie core) (crewAsid s p.crew) va .fetch (srcOf (engineOf p.cls)) (unitOf core) (.hive 7 (progItem p))).getD s

/-- A coprocessor command from a program placed in its queue (R236, R276), or a stall. -/
def progCommand (s : State) (p : Prog) : State :=
  let w := p.word
  let c := cmdOf w
  let core := p.crew / 16
  match progField p c.a (aF w), progField p c.b (bF w) with
  | some a, some b =>
    if repF w ∨ dF w ≠ 0 ∨ c.reply then progFault s p 0x02 p.at' w
    else
      let cls := engineOf p.cls
      let other := match unitOwner s core cls with | some o => o != crewCohort s p.crew | none => false
      if decide (16 ≤ (getQueue s core cls).length) || other then s
      else
        let live := (List.range 64).filterMap fun l =>
          match getThread s (p.crew * 64 + l) with
          | some th => if th.over then none else some (LaneOps.mk l (p.crew * 64 + l) a b th.batch)
          | none => none
        let ops := if live.isEmpty then [LaneOps.mk 0 (p.crew * 64) a b 0] else live
        let e : QEntry := ⟨s.seqno, w, p.at', p.crew, crewCohort s p.crew, ops, 0, false, true, 0, [], []⟩
        let x := withSeen (claimUnit { s with seqno := s.seqno + 1 } core cls (crewCohort s p.crew)) core e
        setProg (putQueue x.1 core cls (getQueue x.1 core cls ++ [x.2])) p (some { p with idx := p.idx + 1 })
  | _, _ => progFault s p 0x02 p.at' w

/-- A program at the engine form of `RDVZ` (R239): it waits at point a, and the thread instances that wait for it go on. -/
def progRdvz (s : State) (p : Prog) (a b : BitVec 6) : State :=
  if a.toNat ≥ 16 ∨ b.toNat ≥ 2 then progFault s p 0x02 p.at' p.word
  else setProg s p (some { p with waiting := some (a.toNat, b = 1) })

/-- A register instruction of a program: the fields are those of R237. -/
def progWrite (s : State) (p : Prog) (ok : Bool) (f : Prog → Prog) : State :=
  if ok then setProg s p (some { f p with idx := p.idx + 1 }) else progFault s p 0x02 p.at' p.word

/-- One word of a program (R236). -/
def progWord (s : State) (p : Prog) : State :=
  let w := p.word
  let bad := progFault s p 0x02 p.at' w
  let pairOk := fun (c : BitVec 6) => decide (c.toNat % 2 = 0) && decide (2 ≤ c.toNat) && decide (c.toNat ≤ 14)
  if (opF w).toNat = 0x38 + engineOf p.cls then
    (match decode w with | .ok _ => progCommand s p | .error _ => bad)
  else
    match decodeEngine w with
    | .ok (.iaddi d a i n pr) =>
      if n ∨ pr then bad
      else progWrite s p (decide (d.toNat < 16) && decide (a.toNat < 16)) fun p =>
        p.setReg d.toNat (p.reg a.toNat + i.signExtend 32)
    | .ok (.iaddi64 d a i n pr) =>
      if n ∨ pr then bad
      else progWrite s p (pairOk d && pairOk a) fun p =>
        let x : DWord := (p.reg (a.toNat + 1) ++ p.reg a.toNat) + i.signExtend 64
        (p.setReg d.toNat (x.setWidth 32)).setReg (d.toNat + 1) ((x >>> 32).setWidth 32)
    | .ok (.lui d i) => progWrite s p (decide (d.toNat < 16)) fun p => p.setReg d.toNat (i.setWidth 32 <<< 12)
    | .ok (.auipc d i) =>
      progWrite s p (pairOk d) fun p =>
        let x : DWord := p.at' + (i.setWidth 32 <<< 12 : Word).signExtend 64
        (p.setReg d.toNat (x.setWidth 32)).setReg (d.toNat + 1) ((x >>> 32).setWidth 32)
    | .ok (.loopi n l) =>
      let start := p.at' + 4
      let stop := start + l.setWidth 64 * 4
      (match progTarget s p stop with
       | .missing va => progOffer s p va
       | .bad => bad
       | .ok =>
         if p.loops.any fun x => decide (x.stop.toNat < stop.toNat) then bad
         else if n = 0 then progFall s p stop
         else if p.loops.length ≥ 3 then bad
         else progFall s { p with loops := ⟨n.setWidth 32 - 1, start, stop⟩ :: p.loops } start)
    | .ok (.bra pr n t r) =>
      let dest := p.at' + t.signExtend 64 * 4
      if pr ≠ 7 ∨ n ∨ r ≠ 0 then bad
      else
        (match progTarget s p dest with
         | .missing va => progOffer s p va
         | .bad => bad
         | .ok => progTo s p (loopsAfter p.loops dest) dest)
    | .ok (.rdvzEngine a b _ _) => progRdvz s p a b
    | _ => bad

/-- The programs of a core's sequencer of a class (R235). -/
def sequencerProgs (s : State) (core cls : Nat) : List Prog :=
  (s.crews.filter fun c => c.1 / 16 == core).flatMap fun c => c.2.progs.filter fun p => p.cls == cls

/-- The program of a sequencer that came to its turn last. -/
def lastTurn : List Prog → Option Prog
  | [] => none
  | p :: ps => some (ps.foldl (fun b x => if b.turn < x.turn then x else b) p)

/-- A program at its turn (R236). -/
def takeTurn (s : State) (p : Prog) : State × Prog :=
  match lastTurn (sequencerProgs s (p.crew / 16) p.cls) with
  | some q =>
    if q.crew = p.crew ∧ 0 < p.turn then (s, p)
    else (setProg { s with seqno := s.seqno + 1 } p (some { p with turn := s.seqno + 1 }), { p with turn := s.seqno + 1 })
  | none => (s, p)

/-- One step of a program: its next clause opened, its next word, or the end of its clause. -/
def progStep (s0 : State) (p0 : Prog) : State :=
  let s := (takeTurn s0 p0).1
  let p := (takeTurn s0 p0).2
  match p.hdr with
  | none => openProg s p none
  | some _ =>
    if p.idx < p.code.length then progWord s p
    else progFall s p (p.cla + BitVec.ofNat 64 (4 * (p.code.length + 1)))

/-- Whether a program waits for the driver. Where the rules leave a point open: log 26 (DEDUCED, unsafe). -/
def progFetching (s : State) (p : Prog) : Bool := s.faults.any fun f => f.2.reqs.contains (.hive 7 (progItem p))

/-- Whether a program can go on. -/
def progRuns (s : State) (p : Prog) : Bool := p.waiting.isNone && !progFetching s p && !s.halted.contains (p.crew / 16)

/-- The first of some programs in FORK order. -/
def firstForked : List Prog → Option Prog
  | [] => none
  | p :: ps => some (ps.foldl (fun b x => if x.order < b.order then x else b) p)

/-- The program whose turn it is (R236): the one in mid-clause that came to its turn last; else the next after it in FORK order. -/
def nextProg (s : State) (core cls : Nat) : Option Prog :=
  let ps := sequencerProgs s core cls
  let go := ps.filter (progRuns s)
  match lastTurn ps with
  | none => none
  | some q =>
    if progRuns s q && q.hdr.isSome && decide (0 < q.turn) then some q
    else
      match firstForked (if q.turn = 0 then go else go.filter fun p => decide (q.order < p.order)) with
      | some p => some p
      | none => firstForked go

/-- The first program whose turn it is, by core and class, that issues a given word of the engine form of `RDVZ`. -/
def progAtRdvz (s : State) (i : Instr) : Option Prog :=
  s.crews.findSome? fun c => ((c.2.progs.filterMap fun p => nextProg s (c.1 / 16) p.cls)).find? fun p =>
    p.hdr.isSome && decide (p.idx < p.code.length)
      && (match decodeEngine p.word with | .ok j => decide (j = i) | .error _ => false)

/-- The engine form of `RDVZ` (R239) in the first program that issues it; without one nothing happens. Where the rules leave a point open: log 26 (DEDUCED, unsafe). -/
def execRdvzEngine (a b : BitVec 6) (n : Bool) (p : BitVec 3) (s : State) : Host.Outcome State Fault Refusal :=
  .next (match progAtRdvz s (.rdvzEngine a b n p) with
    | some q => progWord s q
    | none => s)

end Sys2Proof.Machine
end

