-- ==== Sys2Proof/Machine/Faults.lean ====
section
/-! DEFINITION. The driver's answers to device faults (R345): Cocoons replayed or rolled back (R211-R213), and every other
requester (R182, R247, R279, R289, R428, R429). -/

namespace Sys2Proof.Machine

/-- The access of a Cocoon's instruction, from its logged operands (R211). -/
def Cocoon.req (c : Cocoon) : MemReq :=
  let op := (opF c.word).toNat
  let kind := if op = 0x22 ∨ op = 0x24 then 1 else if op = 0x25 then 2 else if op = 0x26 then 3 else if op = 0x29 then 4
    else if op = 0x2A then 5 else 0
  let n := c.data.length - 4
  let tail := c.data.drop n
  let half := fun (i : Nat) => (tail.getD i Dexel.zero).val
  let size := if kind ≥ 4 then atomSize (fnF c.word).toNat else sizeOf' (szF c.word).toNat
  ⟨kind, size, counterOf c.word, if kind = 5 then 0 else (dF c.word).toNat, c.addr, decide (op = 0x23 ∨ op = 0x24), c.data.take n,
    (fnF c.word).toNat, (scF c.word).toNat, half 1 ++ half 0, half 3 ++ half 2⟩

/-- Groups without members taken away from those that are parked. -/
def dropEmpty (s : State) : State := { s with parked := s.parked.filter fun g => !g.members.isEmpty }

/-- A fatal fault of a Cocoon (R212): the machine as it stood at the faulted instruction, then the trap. -/
def failCocoon (s : State) (t : Nat) (code : Nat) (val : DWord) : State :=
  match (getThread s t).bind (·.cocoon) with
  | none => s
  | some c =>
    let s1 := dropEmpty (rollCocoon s t)
    match getThread s1 t with
    | none => s1
    | some th => takeTrap s1 t th (trapInfoAt (c.group (threadCore t) t) th code val)

/-- A lane that runs no further ahead: it goes on as a group of one (R211, step 4). -/
def stopAhead (s : State) (t : Nat) : State :=
  let go := fun (g : Group) => if g.members = [t] then { g with ahead := false } else g
  { s with opens := s.opens.map go, parked := s.parked.map go }

/-- The replay of a Cocoon's instruction (R211): performed, or again without a translation, or at another fault. A replayed access
writes no sample record (R379). -/
def replayCocoon (s : State) (t : Nat) : State :=
  match getThread s t with
  | none => s
  | some th =>
    match th.cocoon with
    | none => s
    | some c =>
      let r := c.req
      let th0 := { decDc th r.dc s.span with cocoon := none }
      let s0 := setThread s t th0
      match performMem s0 t th0 r with
      | .done s1 => stopAhead s1 t
      | .trap _ x =>
        let cv := x.codeVal c.word
        failCocoon s t cv.1 cv.2
      | .fault s1 va p =>
        let core := threadCore t
        let src := if r.localForm ∨ r.addr.toNat ≥ 2 ^ 57 then 2 else 0
        match raiseFault (setThread s1 t th) (coreDie core) th.lc.asid va p src (unitOf core) (.cocoon t) with
        | none => s
        | some s2 =>
          let fid := ((s2.faults.find? fun e => e.2.reqs.contains (.cocoon t)).map (·.1)).getD 0
          setThread s2 t { th with cocoon := some { c with fault := fid, va := va } }

/-- Whether a Cocoon waits for no record: its replay found none free (R344). -/
def cocoonLoose (s : State) (t : Nat) : Bool :=
  (match getThread s t with | some th => th.cocoon.isSome | none => false)
    && s.faults.all fun f => !f.2.reqs.contains (.cocoon t)

/-- `PARKED_GROUP_RESUME` (R207): of a core's groups that may go on the one parked earliest goes first; a lane whose Cocoon waits for a free record tries again. -/
def execParkedGroupResume (index : Nat) (s : State) : Host.Outcome State Fault Refusal :=
  .next (match s.parked[index]? with
    | some g =>
      if g.ahead then (match g.members with | [t] => if cocoonLoose s t then replayCocoon s t else s | _ => s)
      else if readyParked s g.core = some index then resumeParked s index else s
    | none => s)

/-- A thread in a fetch wait that goes on, with the page and cause of a fatal answer: at its boundary, or at the word of its group. -/
def wakeFetch (s : State) (t : Nat) (answer : Option (Nat × Nat)) : State :=
  modThread s t fun th =>
    let th1 := { th with answers := th.answers ++ answer.toList }
    if th.status ≠ .fetchWait then th1
    else if (groupOf s t).isSome then { th1 with status := .parked } else standing s th1

/-- A saved thread changed. -/
def modSaved (s : State) (item : Nat) (f : SavedThread → SavedThread) : State :=
  modCohort s (item / 2048) fun x => { x with saved := x.saved.map fun v =>
    if v.crew = item / 64 % 32 ∧ v.lane = item % 64 then f v else v }

/-- The driver's fatal answer to a saved thread (R216). -/
def failSaved (s : State) (item cause page : Nat) : State :=
  modSaved s item fun v =>
    match v.thread.wait with
    | some ⟨22, va, _⟩ => { v with thread := { v.thread with wait := some ⟨fatalCocoonKind, cause, va⟩ } }
    | _ => { v with thread := { v.thread with answers := v.thread.answers ++ [(page, cause)] } }

/-- An engine that waits at its queue's head with the driver's answer: phase 1 to try again, 3 or 4 for a fatal one (R247, R279). -/
def answerEngine (s : State) (core cls : Nat) (fatal : Option Nat) : State :=
  match getQueue s core cls with
  | e :: _ =>
    if e.phase = 2 then
      setHead s core cls { e with phase := match fatal with | none => 1 | some c => if c = 0x0A then 4 else 3 }
    else s
  | [] => s

/-- The Hive's item of a kind with the driver's answer (R429, R392, R325-R327, R284, R216, R423), or a collective command that has left its
queue (R418). -/
def answerHive (s : State) (kind item page : Nat) (fatal : Option Nat) : State :=
  if kind = 0 then
    (match fatal with
     | none => { s with subFired := s.subFired ++ [(item / 128, item % 128)] }
     | some _ => leaveUnwatched s (item / 128) (item % 64))
  else if kind = 1 then
    (match s.checks.find? fun c => c.id == item with
     | some c => runCheck s c fatal.isSome
     | none => s)
  else if kind = 5 then
    (match fatal, getCohort s item with
     | some c, some x => modCohort (failNode s x.node c) item fun x => { x with regions := x.regions.drop 1 }
     | _, _ => s)
  else if kind = 6 then (match fatal with | some c => failSaved s item c page | none => s)
  else if kind = 7 then
    (match fatal, (getCrew s (item / 4)).bind fun c => c.progs.find? fun p => p.cls == item % 4 with
     | some c, some p => if p.hdr.isSome then progFault s p c p.at' p.word else openProg s p (some c)
     | _, _ => s)
  else if kind = 8 then
    (match fatal with
     | some _ => { s with colCmds := s.colCmds.map fun c => if c.entry.id = item then { c with fatal := true } else c }
     | none => s)
  else if kind = 9 then
    (match fatal, s.puts.find? fun p => p.id == item with
     | some _, some p => closePut s p 2
     | _, _ => s)
  else
    match fatal with
    | some c => modNode s item fun n => { n with answer := c }
    | none => s

/-- One requester of a record with the driver's answer: none, or the fatal cause (R345). -/
def answerOne (page : Nat) (fatal : Option Nat) (s : State) (r : Requester) : State :=
  match r with
  | .cocoon t =>
    (match fatal with
     | none => replayCocoon s t
     | some c =>
       let va := (((getThread s t).bind (·.cocoon)).map (·.va)).getD 0
       failCocoon s t c (BitVec.ofNat 64 va))
  | .fetch t => wakeFetch s t (fatal.map fun c => (page, c))
  | .watch t => (match fatal with
      | some c => modThread s t fun th => { th with answers := th.answers ++ [(page, c)] }
      | none => s)
  | .engine core cls => answerEngine s core cls fatal
  | .hive kind item => answerHive s kind item page fatal

/-- The driver's answer in a record (R344). -/
def respOf (s : State) (die index : Nat) : Nat := readNum s (keyOf s 0) (dieReg s die 0 + 32 * index + 24) 4

/-- The translations of a page forgotten, so that a replay walks afresh (R345). -/
def dropPage (s : State) (asid page : Nat) : State :=
  { s with tlb := s.tlb.filter fun e => !(e.asid == asid && decide (e.va < page * 4096 + 4096) && decide (page * 4096 < e.va + e.size)) }

/-- `FAULT_RESPONSE` (R345): a nonzero RESP frees the record and resolves every requester that shares it. -/
def execFaultResponse (die index : Nat) (s : State) : Host.Outcome State Fault Refusal :=
  .next (match getK s.faults (die * 1024 + index) with
    | none => s
    | some r =>
      let resp := respOf s die index
      if resp = 0 ∨ 1024 ≤ index then s
      else
        let fatal := if resp = 1 then none else if resp = 3 then some 0x0A else some 0x09
        r.reqs.foldl (answerOne r.page fatal) { dropPage s r.asid r.page with faults := delK s.faults (die * 1024 + index) })

end Sys2Proof.Machine
end

