-- ==== Sys2Proof/Machine/Signature.lean ====
section
/-! DEFINITION. The two signature checks of an image (R402): RSASSA-PSS of a 3072-bit modulus, and SLH-DSA-SHA2-192s in its pure form.
The spec names the schemes; their steps are those of the published standards (RFC 8017 and FIPS 205). Log 53 (PRESUMED, unsafe). -/

namespace Sys2Proof.Machine

/-- A mask of n bytes made from a seed by a hash of `size` bytes (MGF1). -/
def mask (hash : List Byte → List Byte) (size : Nat) (seed : List Byte) (n : Nat) : List Byte :=
  ((List.range ((n + size - 1) / size)).flatMap fun i => hash (seed ++ beBytes 4 i)).take n

/-- x to the power 65,537, modulo n. -/
def power65537 (n x : Nat) : Nat := (List.range 16).foldl (fun y _ => y * y % n) (x % n) * x % n

/-- Whether a signature of a message verifies under a modulus: RSASSA-PSS with SHA-384, its mask and a salt of 48 bytes (R402). The
modulus is a little-endian number, as multi-byte values are; the signature is the byte string of the scheme. Log 53 (PRESUMED, unsafe). -/
def pssVerifies (key m sig : List Byte) : Bool :=
  let n := ofBytes key
  let bits := Nat.log2 n
  let len := (bits + 7) / 8
  let v := power65537 n (beNum sig)
  let em := beBytes len v
  let dbLen := len - 49
  let h := (em.drop dbLen).take 48
  let clear := 8 * len - bits
  let db := List.zipWith (· ^^^ ·) (em.take dbLen) (mask sha384 48 h dbLen)
  let zeros := dbLen - 49
  decide (beNum sig < n) && decide (v < 256 ^ len) && decide (98 ≤ len) && em.getLastD 0 == 0xBC
    && decide ((em.headD 0).toNat < 2 ^ (8 - clear))
    && decide (beNum (db.take zeros) % 2 ^ (8 * zeros - clear) = 0) && db.getD zeros 0 == 1
    && sha384 (List.replicate 8 0 ++ sha384 m ++ db.drop (dbLen - 48)) == h

/-- The address of a hash call of SLH-DSA: its layer, its tree, its kind and three words of the kind's own. -/
structure HashAt where
  layer : Nat
  tree : Nat
  kind : Nat
  pair : Nat
  high : Nat
  low : Nat
deriving DecidableEq, Repr

/-- Its 22 bytes. -/
def HashAt.bytes (a : HashAt) : List Byte :=
  beBytes 1 a.layer ++ beBytes 8 a.tree ++ beBytes 1 a.kind ++ beBytes 4 a.pair ++ beBytes 4 a.high ++ beBytes 4 a.low

/-- A hash of one 24-byte value at its place under a key's seed. -/
def hashOne (seed : List Byte) (a : HashAt) (x : List Byte) : List Byte :=
  (sha256 (seed ++ List.replicate 40 0 ++ a.bytes ++ x)).take 24
/-- A hash of several. -/
def hashMany (seed : List Byte) (a : HashAt) (x : List Byte) : List Byte :=
  (sha512 (seed ++ List.replicate 104 0 ++ a.bytes ++ x)).take 24

/-- The first n digits of b bits of a big-endian byte string. -/
def digits (b n : Nat) (bs : List Byte) : List Nat :=
  let v := beNum bs
  (List.range n).map fun i => v / 2 ^ (8 * bs.length - b * (i + 1)) % 2 ^ b

/-- A walk from a node up to its root with the siblings met: at each level the address holds the height and the index there. -/
def climb (seed : List Byte) (a : HashAt) : Nat → Nat → List (List Byte) → List Byte → List Byte
  | _, _, [], x => x
  | height, i, sib :: rest, x =>
    let up : HashAt := { a with high := height + 1, low := i / 2 }
    climb seed a (height + 1) (i / 2) rest (hashMany seed up (if i % 2 = 0 then x ++ sib else sib ++ x))

/-- The steps of a chain from number i to number 15. -/
def chainUp (seed : List Byte) (a : HashAt) (i : Nat) (x : List Byte) : List Byte :=
  (List.range (15 - i)).foldl (fun x j => hashOne seed { a with low := i + j } x) x

/-- The key that a one-time signature of 51 chains gives: 48 digits of the value, then 3 of their checksum. -/
def chainsKey (seed : List Byte) (layer tree leaf : Nat) (sig : List (List Byte)) (x : List Byte) : List Byte :=
  let ds := digits 4 48 x
  let sum := (ds.map fun d => 15 - d).foldl (· + ·) 0
  let all := ds ++ digits 4 3 (beBytes 2 (sum * 16))
  let ends := (sig.zip all).zipIdx.map fun e => chainUp seed ⟨layer, tree, 0, leaf, e.2, 0⟩ e.1.2 e.1.1
  hashMany seed ⟨layer, tree, 1, leaf, 0, 0⟩ ends.flatten

/-- The key that a signature of 17 leaves in 17 trees of height 14 gives. -/
def forestKey (seed : List Byte) (tree leaf : Nat) (sig : List (List Byte)) (md : List Byte) : List Byte :=
  let roots := ((digits 14 17 md).zip (chunks 15 17 sig)).zipIdx.map fun e =>
    let i := e.2 * 2 ^ 14 + e.1.1
    let a : HashAt := ⟨0, tree, 3, leaf, 0, i⟩
    climb seed a 0 i e.1.2.tail (hashOne seed a (e.1.2.headD []))
  hashMany seed ⟨0, tree, 4, leaf, 0, 0⟩ roots.flatten

/-- The root that the signatures of the layers give, from a layer, its tree and its leaf on: 51 chains and 9 siblings a layer. -/
def layersRoot (seed : List Byte) : Nat → Nat → Nat → List (List (List Byte)) → List Byte → List Byte
  | _, _, _, [], x => x
  | layer, tree, leaf, sig :: rest, x =>
    let key := chainsKey seed layer tree leaf (sig.take 51) x
    let root := climb seed ⟨layer, tree, 2, 0, 0, 0⟩ 0 leaf (sig.drop 51) key
    layersRoot seed (layer + 1) (tree / 2 ^ 9) (tree % 2 ^ 9) rest root

/-- Whether a signature of a message verifies under a key: SLH-DSA-SHA2-192s, pure, with no context (R402). Log 53 (PRESUMED, unsafe). -/
def slhVerifies (key m sig : List Byte) : Bool :=
  let seed := key.take 24
  let parts := chunks 24 676 sig
  let r := parts.headD []
  let msg := [0, 0] ++ m
  let d := mask sha512 64 (r ++ seed ++ sha512 (r ++ key ++ msg)) 39
  let tree := beNum ((d.drop 30).take 7) % 2 ^ 54
  let leaf := beNum (d.drop 37) % 2 ^ 9
  layersRoot seed 0 tree leaf (chunks 60 7 (parts.drop 256)) (forestKey seed tree leaf (parts.tail.take 255) (d.take 30)) == key.drop 24

end Sys2Proof.Machine
end

