-- ==== Sys2Proof/Machine/Package.lean ====
section
/-! DEFINITION. The package (R385-R407, R411): reset, firmware, feature negotiation, attestation, debug levels, power states,
invalidations and context refresh (R347, R391), registers, and the host's accesses. -/

namespace Sys2Proof.Machine

/-- PHASE of STATE (R386). -/
def phaseOf (s : State) : Nat := (bar0 s 8).toNat % 4
/-- DBG of STATE (R386, R405). -/
def dbgOf (s : State) : Nat := (bar0 s 8).toNat / 4 % 4
/-- STATE with its fields. -/
def setStatus (s : State) (phase dbg failcode : Nat) : State := setBar0 s 8 (BitVec.ofNat 64 (phase + dbg * 4 + failcode * 256))
/-- STATE with another DBG. -/
def setDbg (s : State) (d : Nat) : State := setStatus s (phaseOf s) d ((bar0 s 8).toNat / 256 % 256)

/-- The lines of device memory that hold something or were written under a key. -/
def deviceLines (s : State) : List Nat :=
  ((s.mem.map fun c => lineOf c.1) ++ s.lineKeys.map (·.1)).filter fun l => !isHostPa (l * 128)

/-- Every device line put under a key that no slot holds (R387). Where the rules leave a point open: log 7 (DESIGN CHOICE, unsafe), log 36 (DEDUCED, unsafe). -/
def orphanLines (s : State) : Map Nat := (deviceLines s).foldl (fun m l => putK m l s.nextKey) []

/-- A package reset (R387): the state after reset, with memory (its device lines readable under no key), the poison of memory
lines, the model's own fields and what the host was told kept. Where the rules leave a point open: log 36 (DEDUCED, unsafe). -/
def packageReset (s : State) : State :=
  { State.reset with
    mem := s.mem, lineKeys := orphanLines s, nextKey := s.nextKey + 1, poison := s.poison.filter (· < 2 ^ 52)
    hostReplies := s.hostReplies, msix := s.msix, seqno := s.seqno + 1, elapse := s.elapse, turns := s.turns, agenda := s.agenda }

/-- `PACKAGE_RESET` (R387): a power-on or a CXL conventional reset. -/
def execPackageReset (s : State) : Host.Outcome State Fault Refusal := .next (packageReset s)

/-- `PKGRST` (R386, R387): a write of 1 resets the package; any other value is discarded. -/
def execPkgrst (value : BitVec 64) (s : State) : Host.Outcome State Fault Refusal :=
  .next (if value = 1 then packageReset s else s)

/-- A host physical address as the device names it (R385). Where the rules leave a point open: log 36 (DEDUCED, unsafe). -/
def hostPa (a : Nat) : Nat := a % 2 ^ 51 + 2 ^ 51

/-- An image or token as the security controller reads it (R402): its bytes and its parts. -/
structure Image where
  bytes : List Byte
  svn : Nat
  signed : List Byte
  rsaKey : List Byte
  slhKey : List Byte
  rsaSig : List Byte
  slhSig : List Byte
deriving DecidableEq, Repr

/-- The image at a host physical address. -/
def imageAt (s : State) (a : Nat) : Image :=
  let n := readNum s 0 (hostPa a + 8) 4
  let bs := readBytes s 0 (hostPa a) (n + 384 + 16224)
  ⟨bs, field bs 4 4, bs.take n, (bs.drop 16).take 384, (bs.drop 400).take 48, (bs.drop n).take 384, (bs.drop (n + 384)).take 16224⟩

/-- The FAILCODE of an image (R402): 0 if every check holds. Where the rules leave a point open: log 36 (DEDUCED, unsafe). -/
def Image.fails (i : Image) : Nat :=
  if sha384 i.rsaKey ≠ Config.fusedHash false ∨ sha384 i.slhKey ≠ Config.fusedHash true then 1
  else if i.svn < Config.minSvn then 2
  else if !pssVerifies i.rsaKey i.signed i.rsaSig then 3
  else if !slhVerifies i.slhKey i.signed i.slhSig then 4
  else 0

/-- A measurement register (R403); zeros at reset. -/
def measOf (s : State) (k : Nat) : List Byte := (getK s.meas k).getD (List.replicate 48 0)
/-- A measurement register extended (R403). -/
def extendMeas (s : State) (k : Nat) (m : List Byte) : State := { s with meas := putK s.meas k (sha384 (measOf s k ++ m)) }

/-- `FWGO` (R402, R403, R389): a write of 1 in phase 0 verifies the image at FWADDR and boots it, or halts. Where the rules leave a point open: log 5 (DESIGN CHOICE, unsafe). -/
def execFwgo (value : BitVec 64) (s : State) : Host.Outcome State Fault Refusal :=
  .next (
    if value ≠ 1 ∨ phaseOf s ≠ 0 then s
    else
      let i := imageAt s (bar0 s 0x10).toNat
      if i.fails ≠ 0 then setStatus s 3 (dbgOf s) i.fails
      else setBar0 (setStatus (extendMeas s 0 (sha384 i.signed)) 1 (dbgOf s) 0) 0x20 (Config.offered &&& 0x3FF))

/-- The accepted feature words as bytes (R403). -/
def acptBytes (s : State) : List Byte := (List.range 4).flatMap fun k => toBytes 8 (bar0 s (0x40 + 8 * k)).toNat

/-- `START` (R389, R403, R413): a write of 1 in phase 1 enters phase 2; ports with a link partner train. Where the rules leave a point open: log 5 (DESIGN CHOICE, unsafe). -/
def execStart (value : BitVec 64) (s : State) : Host.Outcome State Fault Refusal :=
  .next (
    if value ≠ 1 ∨ phaseOf s ≠ 1 then s
    else
      (List.range 128).foldl (fun s p => if Config.linkPartner p then putPort s p { getPort s p with state := 1, since := s.span } else s)
        (setStatus (extendMeas s 1 (acptBytes s)) 2 (dbgOf s) 0))

/-- The unit identifier (R404). -/
def unitIdBytes : List Byte := (List.range 32).map Config.unitId

/-- The attestation report (R404). -/
def reportBytes (s : State) (nonce : List Byte) : List Byte :=
  let body := toBytes 8 (bar0 s 0).toNat ++ unitIdBytes ++ nonce ++ ((List.range 8).flatMap (measOf s)) ++ acptBytes s
    ++ toBytes 8 (bar0 s 8).toNat
  body ++ (List.range 384).map (Config.attest false body) ++ (List.range 16224).map (Config.attest true body)

/-- `ATTGO` (R404): a write of 1 writes the report after the nonce at ATTADDR. -/
def execAttgo (value : BitVec 64) (s : State) : Host.Outcome State Fault Refusal :=
  .next (
    if value ≠ 1 then s
    else
      let a := hostPa (bar0 s 0x90).toNat
      (arrive s 0 0 (a + 64) (reportBytes s (readBytes s 0 a 64))).1)

/-- The current unlock nonce (R386). Where the rules leave a point open: log 6 (DESIGN CHOICE, safe). -/
def nonceWords (s : State) : List DWord := (List.range 4).map fun k => bar0 s (0xA0 + 8 * k)

/-- `DBGNONCE_READ` (R386): a read of DBGNONCE0 draws a fresh nonce. Where the rules leave a point open: log 6 (DESIGN CHOICE, safe). -/
def execDbgnonceRead (s : State) : Host.Outcome State Fault Refusal :=
  .next (
    let n := s.seqno + 1
    let s1 := (List.range 4).foldl (fun s k => setBar0 s (0xA0 + 8 * k) (Config.nonce n k)) { s with seqno := n }
    { s1 with hostReplies := s1.hostReplies ++ [.data n (bar0 s1 0xA0) false] })

/-- The nodes of an ASID, by number. -/
def nodesOf (s : State) (asid : Nat) : List Nat := (s.nodes.filter fun n => n.2.asid == asid).map (·.1)

/-- Every node of an ASID ended as failed with 0x300 (R391, R405); records still being checked are dropped. -/
def endContext (s : State) (asid : Nat) : State :=
  let s1 := (nodesOf s asid).foldl (fun s n => endNode s n 0x300) s
  { s1 with checks := s1.checks.filter fun c => c.asid != asid }

/-- The key slots of the package (R399). -/
def keySlots : Nat := 16384

/-- Whether the token at DBGTOK verifies, but for the names in it (R405). Where the rules leave a point open: log 36 (DEDUCED, unsafe). -/
def tokenChecks (s : State) : Bool := (imageAt s (bar0 s 0xC0).toNat).fails == 0

/-- `DBGGO` (R405): a write of 1 verifies the token; on success owner keys are zeroised, live contexts end, and DBG is 2. Where the rules leave a point open: log 36 (DEDUCED, unsafe). -/
def execDbggo (value : BitVec 64) (s : State) : Host.Outcome State Fault Refusal :=
  .next (
    let token := imageAt s (bar0 s 0xC0).toNat
    if value ≠ 1 ∨ (List.range 4).any (fun d => powerState s d == 3) ∨ !tokenChecks s
        ∨ !Config.tokenNames token.bytes unitIdBytes (nonceWords s) then s
    else
      let s1 := s.valid.foldl endContext s
      setDbg (extendMeas { s1 with
        keys := (List.range keySlots).map fun a => (a, s1.nextKey + a), nextKey := s1.nextKey + keySlots } 2 (sha384 token.bytes)) 2)

/-- Whether a session may be open on a context (R405): VALID, DBGOK and feature bit 9. -/
def mayDebug (s : State) (asid : Nat) : Bool :=
  s.valid.contains asid && ctxField s asid 40 4 / 2 % 2 == 1 && (ctxFeatures s asid).getLsbD 9

/-- The session closed (R405, R407): breakpoints are cleared and stopped lanes of its context resume. Where the rules leave a point open: log 25 (DEDUCED, unsafe). -/
def closeSession (s : State) : State :=
  match s.session with
  | none => s
  | some a =>
    let s1 := (List.range 8).foldl (fun s i => setBar0 s (0x808 + 8 * i) 0) (setBar0 s 0x800 0)
    let go := fun (th : Thread) => if th.status = .stopped ∧ th.lc.asid = a then { th with status := .parked, stopReq := true } else th
    let s2 := { s1 with
      session := none
      threads := s1.threads.map fun e => (e.1, go e.2)
      cohorts := s1.cohorts.map fun c => (c.1, { c.2 with saved := c.2.saved.map fun v => { v with thread := go v.thread } }) }
    if dbgOf s2 = 1 then setDbg s2 0 else s2

/-- `DBGSESS_OPEN` (R405): a session at D1 on an eligible context; otherwise the write is discarded. Where the rules leave a point open: log 25 (DEDUCED, unsafe). -/
def execDbgsessOpen (asid : Nat) (s : State) : Host.Outcome State Fault Refusal :=
  .next (
    if !mayDebug s asid then s
    else
      let s0 := if s.session = some asid then s else closeSession s
      let s1 := setBar0 { s0 with session := some asid } 0x800 (BitVec.ofNat 64 (asid + 2 ^ 16))
      if dbgOf s1 = 0 then setDbg s1 1 else s1)

/-- `DBGSESS_CLOSE` (R405, R407). -/
def execDbgsessClose (s : State) : Host.Outcome State Fault Refusal := .next (closeSession s)

/-- An invalidation channel (R391). -/
def getInval (s : State) (ch : Nat) : Inval := (getK s.inval ch).getD ⟨0, 0, 0, 0, false, false, 0⟩

/-- A command given to an idle channel (R391), with its two numbers; an illegal one sets ERR. -/
def startInval (s : State) (ch kind asid va pages : Nat) (ok : Bool) : State :=
  if 16 ≤ ch ∨ (getInval s ch).busy then s
  else if ok then { s with inval := putK s.inval ch ⟨kind, asid, va, pages, true, false, 0⟩ }
  else { s with inval := putK s.inval ch { getInval s ch with done := false, err := 1 } }

/-- INVVA and INVLEN of a channel. -/
def invRegs (s : State) (ch : Nat) : Nat × Nat := ((bar0 s (0x200 + 32 * ch)).toNat, (bar0 s (0x208 + 32 * ch)).toNat)

/-- Whether a command of a channel is legal (R391): no reserved bit of INVCTL is set, which `asid` holds but for KIND and GO, and INVLEN is
not 0. -/
def invLegal (s : State) (ch asid : Nat) : Bool := (invRegs s ch).2 != 0 && decide (asid < keySlots)

/-- `INV_RANGE` (R391). Where the rules leave a point open: log 35 (DEDUCED, unsafe). -/
def execInvRange (ch asid : Nat) (s : State) : Host.Outcome State Fault Refusal :=
  .next (startInval s ch 0 asid (invRegs s ch).1 (invRegs s ch).2 (invLegal s ch asid))

/-- `INV_ASID` (R391). -/
def execInvAsid (ch asid : Nat) (s : State) : Host.Outcome State Fault Refusal :=
  .next (startInval s ch 1 asid 0 (2 ^ 45) (invLegal s ch asid))

/-- `CONTEXT_REFRESH` (R391): the entry is reread; what it asks for is 1 VALID 0→1, 2 VALID 1→0, 3 VALID kept, 0 nothing. A context
that is no longer valid has its nodes ended at once. Where the rules leave a point open: log 35 (DEDUCED, unsafe). -/
def execContextRefresh (ch asid : Nat) (s : State) : Host.Outcome State Fault Refusal :=
  .next (
    let now := ctxField s asid 40 4 % 2 == 1
    let old := s.valid.contains asid
    let what := if now ∧ !old then 1 else if !now ∧ old then 2 else if now then 3 else 0
    if 16 ≤ ch ∨ (getInval s ch).busy ∨ !invLegal s ch asid then startInval s ch 2 asid 0 what (invLegal s ch asid)
    else startInval (if what = 2 then endContext s asid else s) ch 2 asid 0 what true)

/-- Whether a virtual range of an ASID's access may overlap pages from an address on. -/
def overlapsPages (va n first pages : Nat) : Bool := decide (va < first + pages * 4096) && decide (first < va + n)

/-- Whether an access of an ASID over a range is still in flight (R347, step 2): one that is not performed, or an atomic in a
deterministic node's buffer (R348). -/
def inFlight (s : State) (asid first pages : Nat) : Bool :=
  (s.access.any fun a => threadAsid s a.thread == asid && overlapsPages a.va 128 first pages)
    || s.nodes.any fun n => n.2.asid == asid && n.2.buffer.any fun e => !e.loc && overlapsPages e.va 8 first pages

/-- Stack rows whose backing lies in a range written back and dropped (R347, step 4). -/
def spillRange (s : State) (asid first pages : Nat) : State :=
  s.rows.foldl (fun s e =>
    let hit := fun (r : StackRow) => (List.range 64).any fun l =>
      match getThread s (threadNo e.1 r.slot l) with
      | some th => th.lc.asid == asid && overlapsPages (th.stkbase.toNat + r.off) 16 first pages
      | none => false
    (e.2.filter hit).foldl (fun s r =>
      let s1 := spillRow s e.1 r
      { s1 with rows := putK s1.rows e.1 ((coreRows s1 e.1).erase r) }) s) s

/-- The four steps of R347 over a range. Where the rules leave a point open: log 35 (DEDUCED, unsafe). -/
def invalidate (s : State) (asid first pages : Nat) : State :=
  let s1 := spillRange s asid first pages
  { s1 with
    tlb := s1.tlb.filter fun e => !(e.asid == asid && overlapsPages e.va e.size first pages)
    cohorts := s1.cohorts.map fun c =>
      if ((getNode s1 c.2.node).map (·.asid)) = some asid then
        (c.1, { c.2 with regions := c.2.regions.map fun r =>
          if overlapsPages r.2.base r.2.len first pages then (r.1, { r.2 with stale := true }) else r })
      else c }

/-- The submission words of a context that are neither watched nor due (R392). -/
def idleWords (s : State) (asid : Nat) : List Nat :=
  (List.range 64).filter fun j => !(s.subWatch.any fun w => w.1 == asid && w.2.1 == j)
    && !(s.subFired.any fun w => w.1 == asid && w.2 % 64 == j)

/-- The end of a context refresh (R391, R392, R399, R414). Where the rules leave a point open: log 35 (DEDUCED, unsafe). -/
def refreshContext (s : State) (asid what : Nat) : State :=
  let arm := fun (s : State) => { s with subFired := s.subFired ++ (idleWords s asid).map fun j => (asid, 64 + j) }
  let s0 := { s with handles := s.handles.filter fun h => handleAsid h.1 != asid }
  if what = 1 then
    let kgen := ctxField s0 asid 44 4 + 1
    let s1 := (arrive s0 (keyOf s0 0) 0 (ctxAddr s0 asid + 44) (toBytes 4 kgen)).1
    arm { s1 with keys := putK s1.keys asid s1.nextKey, nextKey := s1.nextKey + 1, valid := s1.valid ++ [asid] }
  else if what = 2 then
    let s1 := invalidate s0 asid 0 (2 ^ 45)
    { s1 with
      keys := putK s1.keys asid s1.nextKey, nextKey := s1.nextKey + 1, valid := s1.valid.filter (· != asid)
      subWatch := s1.subWatch.filter fun w => w.1 != asid, subFired := s1.subFired.filter fun w => w.1 != asid }
  else if what = 3 then arm s0
  else s0

/-- Whether nodes of an ASID still hold the machine, but for those that wait for the driver (R348). Where the rules leave a point open: log 35 (DEDUCED, unsafe). -/
def contextRuns (s : State) (asid : Nat) : Bool :=
  (nodesOf s asid).any fun n => s.faults.all fun f => !(f.2.reqs.contains (.hive 3 n) || f.2.reqs.contains (.hive 4 n))

/-- `INVALIDATION_DONE` (R347, R391): a channel's command completes once what R347 waits for is over. -/
def execInvalidationDone (ch : Nat) (s : State) : Host.Outcome State Fault Refusal :=
  .next (
    let i := getInval s ch
    let done := fun (s : State) => { s with inval := putK s.inval ch { i with busy := false, done := true } }
    if !i.busy then s
    else if i.kind = 2 then
      (if i.pages = 2 ∧ (inFlight s i.asid 0 (2 ^ 45) ∨ contextRuns s i.asid) then s else done (refreshContext s i.asid i.pages))
    else if inFlight s i.asid i.va i.pages then s
    else done (invalidate s i.asid i.va i.pages))

/-- A die's target state written, and its current state with REFUSED (R386, R406). -/
def setPower (s : State) (die target now refused : Nat) : State :=
  { setBar0 s (0x440 + 0x100 * die) (BitVec.ofNat 64 target) with power := putK s.power die (now, refused) }

/-- A die moved to P0, P1 or P2; one in P3 wakes first, through P2 (R406). -/
def moveDie (s : State) (die p : Nat) : State :=
  if 4 ≤ die then s
  else if 3 ≤ rawPower s die ∧ rawPower s die ≤ 4 then setPower s die p 4 0
  else setPower s die p p 0

/-- `PWR_P0` (R406). -/
def execPwrP0 (die : Nat) (s : State) : Host.Outcome State Fault Refusal := .next (moveDie s die 0)
/-- `PWR_P1` (R406). -/
def execPwrP1 (die : Nat) (s : State) : Host.Outcome State Fault Refusal := .next (moveDie s die 1)
/-- `PWR_P2` (R406): no clause opens on the die and nothing is placed. -/
def execPwrP2 (die : Nat) (s : State) : Host.Outcome State Fault Refusal := .next (moveDie s die 2)

/-- The cohorts that stand on a die. -/
def dieCohorts (s : State) (die : Nat) : List (Nat × Cohort) :=
  s.cohorts.filter fun c => c.2.state != 3 && coreDie (c.2.crews.headD 0 / 16) == die

/-- Whether every resident node of a die has a save slot for each of its cohorts there (R406). -/
def slotsSuffice (s : State) (die : Nat) : Bool :=
  (dieCohorts s die).all fun c =>
    c.2.state != 1 ||
      (match getNode s c.2.node with
       | some n => decide (((dieCohorts s die).filter fun x => x.2.node == c.2.node && x.2.state == 1).length ≤ (freeSaveSlots s c.2.node n).length)
       | none => true)

/-- A die powered off (R406): what its caches and TLBs held is gone. -/
def powerOff (s : State) (die : Nat) : State :=
  let onDie := fun (level unit : Nat) => if level = 0 then coreDie unit == die else if level = 1 then unit / 12 == die else unit == die
  setPower { s with
    copies := s.copies.filter fun c => !onDie c.place c.unit
    tlb := s.tlb.filter fun e => !onDie e.level e.unit } die 3 3 0

/-- `PWR_P3` (R406): every resident cohort is pre-empted; without save slots the die stays in P2 with REFUSED 1. -/
def execPwrP3 (die : Nat) (s : State) : Host.Outcome State Fault Refusal :=
  .next (
    if 4 ≤ die ∨ (3 ≤ rawPower s die ∧ rawPower s die ≤ 4) then s
    else if !slotsSuffice s die then setPower s die 3 2 1
    else if (dieCohorts s die).isEmpty ∧ s.access.all (fun a => coreDie a.core != die) then powerOff s die
    else setPower (((dieCohorts s die).map (·.1)).foldl markSave s) die 3 5 0)

/-- `P3_WAKE` (R406, R407): a die in P3 returns through P2; a D1 session is checked again; a token of D2 that fails resets the package, the
only way out of D2 (R387). -/
def execP3Wake (die : Nat) (s : State) : Host.Outcome State Fault Refusal :=
  .next (
    if rawPower s die ≠ 3 ∧ rawPower s die ≠ 4 then s
    else
      let target := (bar0 s (0x440 + 0x100 * die)).toNat % 4
      let s1 := { s with power := putK s.power die (if target < 2 then target else 2, 0) }
      if dbgOf s1 = 2 then
        (if tokenChecks s1 then s1 else packageReset s1)
      else
        match s1.session with
        | some a => if mayDebug s1 a then s1 else closeSession s1
        | none => s1)

/-- The value that a write leaves in a BAR 0 register without behaviour of its own (R386): `none` discards it. Where the rules leave a point open: log 41 (DESIGN CHOICE, unsafe). -/
def bar0Write (s : State) (off : Nat) (v : DWord) : Option DWord :=
  let x := v.toNat
  let inTab := fun (lo step n : Nat) => decide (lo ≤ off) && decide (off < lo + step * n) && (off - lo) % step == 0
  let mask := fun (m : DWord) => some (v &&& m)
  let aligned := fun (n limit : Nat) => if x % n = 0 ∧ x < limit then some v else none
  if off = 0x10 then (if phaseOf s = 0 then some v else none)
  else if inTab 0x40 8 4 then (if phaseOf s = 1 then some (v &&& bar0 s (off - 0x20)) else none)
  else if off = 0x68 then (if phaseOf s = 1 then aligned 4096 deviceEnd else none)
  else if off = 0x70 then aligned 64 deviceEnd
  else if inTab 0x78 8 3 then
    (let ok := fun (n : Nat) => decide (n % 16 = 0) && decide (16 ≤ n) && decide (n ≤ 65536)
     if ok (x % 2 ^ 32) && ok (x / 2 ^ 32) then some v else none)
  else if off = 0x90 then aligned 64 (2 ^ 64)
  else if off = 0xC0 then some v
  else if inTab 0x100 16 16 then aligned (2 ^ 30) (2 ^ 57)
  else if inTab 0x108 16 16 then mask 0x13FFF
  else if inTab 0x200 32 16 then (if (getInval s ((off - 0x200) / 32)).busy then none else aligned 4096 (2 ^ 57))
  else if inTab 0x208 32 16 then (if (getInval s ((off - 0x208) / 32)).busy ∨ x = 0 then none else some v)
  else if inTab 0x400 0x100 4 then aligned 32768 deviceEnd
  else if inTab 0x408 0x100 4 then some v
  else if inTab 0x410 0x100 4 then (if x = 0 ∨ (64 ≤ x ∧ x ≤ 2 ^ 20 ∧ 2 ^ Nat.log2 x = x) then some v else none)
  else if inTab 0x418 0x100 4 then (if x = 0 ∨ (256 ≤ x ∧ x ≤ 2 ^ 20 ∧ 2 ^ Nat.log2 x = x) then some v else none)
  else if inTab 0x420 0x100 4 then some v
  else if inTab 0x428 0x100 4 then mask 0x3FFF
  else if inTab 0x430 0x100 4 then aligned 4096 deviceEnd
  else if inTab 0x808 8 8 then mask 0x01FFFFFFFFFFFFFD
  else none

/-- The value that a write leaves in a BAR 2 register (R411). -/
def bar2Write (s : State) (off : Nat) (v : DWord) : Option DWord :=
  let x := v.toNat
  if off = 0 then (if phaseOf s = 1 then some (v &&& 0x1FFFFF) else none)
  else if off = 8 then (if x % 4096 = 0 ∧ x < deviceEnd then some v else none)
  else if off = 0x10 then (if 1000 ≤ x ∧ x ≤ 2 ^ 40 then some v else none)
  else if off = 0x18 then (if 1000 ≤ x ∧ x ≤ 2 ^ 32 then some v else none)
  else none

/-- A read of a BAR 0 register (R386): INVSTAT and PWRSTAT show their units; WO registers and reserved offsets read as 0. That a read of
DBGNONCE0 draws a nonce is `DBGNONCE_READ`. -/
def readBar0 (s : State) (off : Nat) : DWord :=
  if 0x200 ≤ off ∧ off < 0x400 ∧ off % 32 = 24 then
    let i := getInval s ((off - 0x200) / 32)
    BitVec.ofNat 64 ((if i.busy then 1 else 0) + (if i.done then 2 else 0) + i.err * 2 ^ 8)
  else if 0x400 ≤ off ∧ off < 0x800 ∧ off % 0x100 = 0x48 then
    let die := (off - 0x400) / 0x100
    BitVec.ofNat 64 (powerState s die + ((getK s.power die).map (·.2)).getD 0 * 2 ^ 4)
  else bar0 s off

/-- A read of a BAR 2 register (R411): REFUSALS and the ports show their state. -/
def readBar2 (s : State) (off : Nat) : DWord :=
  if off = 0x20 then BitVec.ofNat 64 s.refusals
  else if 0x100 ≤ off ∧ off < 0x500 ∧ off % 8 = 0 then
    let x := getPort s ((off - 0x100) / 8)
    BitVec.ofNat 64 (x.state + x.retrains * 2 ^ 8 + x.retries * 2 ^ 16)
  else bar2 s off

/-- `REGISTER_WRITE` (R386, R411): a write that the register's rules discard changes nothing. The reuse unit of a die starts afresh
for a node it did not watch (R380); a die's Cicada period counts from its write (R381); RESET in a port's register trains it (R413); a
new route table is read for the flits that wait (R412). -/
def execRegisterWrite (isBar2 : Bool) (offset : Nat) (value : BitVec 64) (s : State) : Host.Outcome State Fault Refusal :=
  .next (
    if isBar2 then
      (if 0x100 ≤ offset ∧ offset < 0x500 ∧ offset % 8 = 0 then
        (if value.getLsbD 63 then resetPort s ((offset - 0x100) / 8) else s)
       else
        match bar2Write s offset value with
        | some v => rerouteFlits { s with bar2 := putK s.bar2 offset v }
        | none => s)
    else
      match bar0Write s offset value with
      | some v =>
        let s1 := setBar0 s offset v
        if 0x400 ≤ offset ∧ offset < 0x800 ∧ (offset % 0x100 = 0x20 ∨ offset % 0x100 = 0x28) then
          { s1 with reuse := delK s1.reuse ((offset - 0x400) / 0x100) }
        else if 0x400 ≤ offset ∧ offset < 0x800 ∧ offset % 0x100 = 0x18 then
          { s1 with cicadaAt := putK s1.cicadaAt (1536 + (offset - 0x400) / 0x100) (cyclesOf s1 ((offset - 0x400) / 0x100) / 20) }
        else s1
      | none => s)

/-- All ones, as a host read of nothing returns (R400, R401). -/
def allOnes (size : Nat) : DWord := BitVec.ofNat 64 (2 ^ (8 * size) - 1)

/-- What a host access to an aperture or to the physical part meets: a physical address with its key, nothing, or a fault. -/
inductive HdmOut where
  | mem (s : State) (pa key : Nat)
  | nothing (s : State)
  | fault (s : State)

/-- What a host access through an aperture meets once its address is translated (R400). -/
def servedThrough (s : State) (tr : State × Xlat) (asid va : Nat) : HdmOut :=
  match tr.2 with
  | .ok e => .mem tr.1 (paOf e va) (keyOf s asid)
  | _ =>
    -- the die and CODE of the event are unstated (DESIGN CHOICE, safe: log 8)
    .fault (writeEvent { tr.1 with seqno := s.seqno + 1 } 7 ((Config.freeByte s.seqno 0).toNat % 4) asid (Config.freeWord s.seqno).toNat va)

/-- Where an address of an aperture leads, under its HAPCTL (R400). -/
def apertureTarget (s : State) (ctl : DWord) (va : Nat) (p : Perm) : HdmOut :=
  if !ctl.getLsbD 16 then .nothing s
  else servedThrough s (translate s [] (ctl.toNat % 16384) va p) (ctl.toNat % 16384) va

/-- Where offset h of the HDM range leads (R400, R401). -/
def hdmTarget (s : State) (h : Nat) (p : Perm) : HdmOut :=
  if h < deviceEnd then .mem (wakeHome s h) h (keyOf s 0)
  else if h < 0x20000000000 ∨ 0x30000000000 ≤ h then .nothing s
  else apertureTarget s (bar0 s (0x108 + 16 * ((h - 0x20000000000) / 0x1000000000)))
    ((bar0 s (0x100 + 16 * ((h - 0x20000000000) / 0x1000000000))).toNat + (h - 0x20000000000) % 0x1000000000) p

/-- The machine that an access met. -/
def HdmOut.state : HdmOut → State
  | .mem s _ _ => s | .nothing s => s | .fault s => s

/-- A host access that is over, with what the host is answered. -/
def endHost (s : State) (a : HostAccess) (r : HostReply) : State :=
  { s with hostQueue := s.hostQueue.filter fun x => x.id != a.id, hostReplies := s.hostReplies ++ [r] }

/-- A host access served at the home (R400, R401, R362), `a.addr` being its offset in the HDM range: a write is acknowledged once `SPAN`
is at its GWCT; one that is homed on a die in P3 wakes it and waits (R406). Where the rules leave a point open: log 34 (DEDUCED, unsafe). -/
def serveHost (s : State) (a : HostAccess) : State :=
  match a.gwct with
  | some g => if s.span < g then s else endHost s a (.ack a.id)
  | none =>
    let out := hdmTarget s a.addr (if a.write then .write else .read)
    let none' := fun (s : State) (poison : Bool) => endHost s a (if a.write then .ack a.id else .data a.id (allOnes a.size) poison)
    if sleeps out.state then { s with power := (calm out.state).power }
    else
      match out with
      | .nothing s1 => none' s1 false
      | .fault s1 => none' s1 true
      | .mem s1 pa key =>
        if a.write then
          let w := arrive s1 key 0 pa (toBytes a.size a.value.toNat)
          if w.1.span < w.2 then { w.1 with hostQueue := w.1.hostQueue.map fun x => if x.id = a.id then { x with gwct := some w.2 } else x }
          else endHost w.1 a (.ack a.id)
        else if poisoned s1 pa then
          -- poison comes with a value that the spec does not state (DESIGN CHOICE, safe: log 8)
          endHost { s1 with seqno := s1.seqno + 1 } a (.data a.id (freeDWord s1.seqno) true)
        else endHost s1 a (.data a.id (BitVec.ofNat 64 (readNum s1 key pa a.size)) false)

/-- `HOST_HDM_ACCESS` (R400, R401, R362): an aligned access of up to 8 bytes by the host. -/
def execHostHdmAccess (write : Bool) (addr size : Nat) (value : BitVec 64) (s : State) : Host.Outcome State Fault Refusal :=
  .next (match s.hdmBase with
    | none => s
    | some base =>
      if addr < base ∨ base + 0x40000000000 ≤ addr ∨ !(size == 1 || size == 2 || size == 4 || size == 8) ∨ addr % size ≠ 0 then s
      else
        let a : HostAccess := ⟨s.seqno, write, addr - base, size, value, none⟩
        serveHost { s with hostQueue := s.hostQueue ++ [a], seqno := s.seqno + 1 } a)

/-- `HDM_DECODER_PROGRAM` (R401): the host places the HDM range. -/
def execHdmDecoderProgram (base : Nat) (s : State) : Host.Outcome State Fault Refusal :=
  .next { s with hdmBase := some base }

end Sys2Proof.Machine
end

