-- ==== Sys2Proof/Machine/Dispatch.lean ====
section
/-! DEFINITION. One arm for each row of spec/opcode_table.json. -/

namespace Sys2Proof.Machine

/-- The effect of an instruction of the issuing group, or of an event. -/
def exec (i : Instr) (s : State) : Host.Outcome State Fault Refusal :=
  match i with
  | .iadd d a b n p => Sys2Proof.Machine.execIadd d a b n p s
  | .isub d a b n p => Sys2Proof.Machine.execIsub d a b n p s
  | .imul d a b n p => Sys2Proof.Machine.execImul d a b n p s
  | .imulh d a b n p => Sys2Proof.Machine.execImulh d a b n p s
  | .imulhu d a b n p => Sys2Proof.Machine.execImulhu d a b n p s
  | .and d a b n p => Sys2Proof.Machine.execAnd d a b n p s
  | .or d a b n p => Sys2Proof.Machine.execOr d a b n p s
  | .xor d a b n p => Sys2Proof.Machine.execXor d a b n p s
  | .andn d a b n p => Sys2Proof.Machine.execAndn d a b n p s
  | .shl d a b n p => Sys2Proof.Machine.execShl d a b n p s
  | .shr d a b n p => Sys2Proof.Machine.execShr d a b n p s
  | .sra d a b n p => Sys2Proof.Machine.execSra d a b n p s
  | .rotl d a b n p => Sys2Proof.Machine.execRotl d a b n p s
  | .min d a b n p => Sys2Proof.Machine.execMin d a b n p s
  | .max d a b n p => Sys2Proof.Machine.execMax d a b n p s
  | .absd d a b n p => Sys2Proof.Machine.execAbsd d a b n p s
  | .minu d a b n p => Sys2Proof.Machine.execMinu d a b n p s
  | .maxu d a b n p => Sys2Proof.Machine.execMaxu d a b n p s
  | .popc d a n p => Sys2Proof.Machine.execPopc d a n p s
  | .clz d a n p => Sys2Proof.Machine.execClz d a n p s
  | .ctz d a n p => Sys2Proof.Machine.execCtz d a n p s
  | .brev d a n p => Sys2Proof.Machine.execBrev d a n p s
  | .bfx d a b n p => Sys2Proof.Machine.execBfx d a b n p s
  | .bfi d a b n p => Sys2Proof.Machine.execBfi d a b n p s
  | .sel d a b n v4 => Sys2Proof.Machine.execSel d a b n v4 s
  | .lea d a b n p => Sys2Proof.Machine.execLea d a b n p s
  | .idiv d a b n p => Sys2Proof.Machine.execIdiv d a b n p s
  | .idivu d a b n p => Sys2Proof.Machine.execIdivu d a b n p s
  | .irem d a b n p => Sys2Proof.Machine.execIrem d a b n p s
  | .iremu d a b n p => Sys2Proof.Machine.execIremu d a b n p s
  | .iadd64 d a b n p => Sys2Proof.Machine.execIadd64 d a b n p s
  | .isub64 d a b n p => Sys2Proof.Machine.execIsub64 d a b n p s
  | .shl64 d a b n p => Sys2Proof.Machine.execShl64 d a b n p s
  | .shr64 d a b n p => Sys2Proof.Machine.execShr64 d a b n p s
  | .sra64 d a b n p => Sys2Proof.Machine.execSra64 d a b n p s
  | .mov64 d a n p => Sys2Proof.Machine.execMov64 d a n p s
  | .lea64 d a b n p => Sys2Proof.Machine.execLea64 d a b n p s
  | .imul64 d a b n p => Sys2Proof.Machine.execImul64 d a b n p s
  | .imad d a b c n p => Sys2Proof.Machine.execImad d a b c n p s
  | .iaddi d a v2 n p => Sys2Proof.Machine.execIaddi d a v2 n p s
  | .iaddi64 d a v2 n p => Sys2Proof.Machine.execIaddi64 d a v2 n p s
  | .andi d a v2 n p => Sys2Proof.Machine.execAndi d a v2 n p s
  | .ori d a v2 n p => Sys2Proof.Machine.execOri d a v2 n p s
  | .xori d a v2 n p => Sys2Proof.Machine.execXori d a v2 n p s
  | .shfi d a k m n p => Sys2Proof.Machine.execShfi d a k m n p s
  | .lui d v1 => Sys2Proof.Machine.execLui d v1 s
  | .auipc d v1 => Sys2Proof.Machine.execAuipc d v1 s
  | .fadd d a b n p => Sys2Proof.Machine.execFadd d a b n p s
  | .fsub d a b n p => Sys2Proof.Machine.execFsub d a b n p s
  | .fmul d a b n p => Sys2Proof.Machine.execFmul d a b n p s
  | .fdiv d a b n p => Sys2Proof.Machine.execFdiv d a b n p s
  | .fsqrt d a n p => Sys2Proof.Machine.execFsqrt d a n p s
  | .fmin d a b n p => Sys2Proof.Machine.execFmin d a b n p s
  | .fmax d a b n p => Sys2Proof.Machine.execFmax d a b n p s
  | .fminm d a b n p => Sys2Proof.Machine.execFminm d a b n p s
  | .fmaxm d a b n p => Sys2Proof.Machine.execFmaxm d a b n p s
  | .fabs d a n p => Sys2Proof.Machine.execFabs d a n p s
  | .fneg d a n p => Sys2Proof.Machine.execFneg d a n p s
  | .fcpys d a b n p => Sys2Proof.Machine.execFcpys d a b n p s
  | .frnd d a m n p => Sys2Proof.Machine.execFrnd d a m n p s
  | .fclass d a n p => Sys2Proof.Machine.execFclass d a n p s
  | .ffma d a b c n p => Sys2Proof.Machine.execFfma d a b c n p s
  | .ffms d a b c n p => Sys2Proof.Machine.execFfms d a b c n p s
  | .ffnma d a b c n p => Sys2Proof.Machine.execFfnma d a b c n p s
  | .dadd d a b n p => Sys2Proof.Machine.execDadd d a b n p s
  | .dsub d a b n p => Sys2Proof.Machine.execDsub d a b n p s
  | .dmul d a b n p => Sys2Proof.Machine.execDmul d a b n p s
  | .ddiv d a b n p => Sys2Proof.Machine.execDdiv d a b n p s
  | .dsqrt d a n p => Sys2Proof.Machine.execDsqrt d a n p s
  | .dmin d a b n p => Sys2Proof.Machine.execDmin d a b n p s
  | .dmax d a b n p => Sys2Proof.Machine.execDmax d a b n p s
  | .dminm d a b n p => Sys2Proof.Machine.execDminm d a b n p s
  | .dmaxm d a b n p => Sys2Proof.Machine.execDmaxm d a b n p s
  | .dabs d a n p => Sys2Proof.Machine.execDabs d a n p s
  | .dneg d a n p => Sys2Proof.Machine.execDneg d a n p s
  | .dcpys d a b n p => Sys2Proof.Machine.execDcpys d a b n p s
  | .drnd d a m n p => Sys2Proof.Machine.execDrnd d a m n p s
  | .dclass d a n p => Sys2Proof.Machine.execDclass d a n p s
  | .dfma d a b c n p => Sys2Proof.Machine.execDfma d a b c n p s
  | .dfms d a b c n p => Sys2Proof.Machine.execDfms d a b c n p s
  | .hadd2 d a b n p => Sys2Proof.Machine.execHadd2 d a b n p s
  | .hsub2 d a b n p => Sys2Proof.Machine.execHsub2 d a b n p s
  | .hmul2 d a b n p => Sys2Proof.Machine.execHmul2 d a b n p s
  | .hmin2 d a b n p => Sys2Proof.Machine.execHmin2 d a b n p s
  | .hmax2 d a b n p => Sys2Proof.Machine.execHmax2 d a b n p s
  | .habs2 d a n p => Sys2Proof.Machine.execHabs2 d a n p s
  | .hneg2 d a n p => Sys2Proof.Machine.execHneg2 d a n p s
  | .hfma2 d a b c n p => Sys2Proof.Machine.execHfma2 d a b c n p s
  | .vaddH2 d a b n p => Sys2Proof.Machine.execVaddH2 d a b n p s
  | .vsubH2 d a b n p => Sys2Proof.Machine.execVsubH2 d a b n p s
  | .vaddsH2 d a b n p => Sys2Proof.Machine.execVaddsH2 d a b n p s
  | .vsubsH2 d a b n p => Sys2Proof.Machine.execVsubsH2 d a b n p s
  | .vmaxH2 d a b n p => Sys2Proof.Machine.execVmaxH2 d a b n p s
  | .vminH2 d a b n p => Sys2Proof.Machine.execVminH2 d a b n p s
  | .acsH2 d a b n p => Sys2Proof.Machine.execAcsH2 d a b n p s
  | .fexp2 d a n p => Sys2Proof.Machine.execFexp2 d a n p s
  | .flog2 d a n p => Sys2Proof.Machine.execFlog2 d a n p s
  | .fsin d a n p => Sys2Proof.Machine.execFsin d a n p s
  | .fcos d a n p => Sys2Proof.Machine.execFcos d a n p s
  | .frcp d a n p => Sys2Proof.Machine.execFrcp d a n p s
  | .frsq d a n p => Sys2Proof.Machine.execFrsq d a n p s
  | .ftanh d a n p => Sys2Proof.Machine.execFtanh d a n p s
  | .cvt d a v2 m f n p => Sys2Proof.Machine.execCvt d a v2 m f n p s
  | .zpackZ8 d a b n p => Sys2Proof.Machine.execZpackZ8 d a b n p s
  | .zpackZ6 d a b n p => Sys2Proof.Machine.execZpackZ6 d a b n p s
  | .zunpkZ8 d a n p => Sys2Proof.Machine.execZunpkZ8 d a n p s
  | .zunpkZ6 d a n p => Sys2Proof.Machine.execZunpkZ6 d a n p s
  | .zscale d a b n p => Sys2Proof.Machine.execZscale d a b n p s
  | .cmpi d a b f n p => Sys2Proof.Machine.execCmpi d a b f n p s
  | .cmpf d a b f n p => Sys2Proof.Machine.execCmpf d a b f n p s
  | .cmpd d a b f n p => Sys2Proof.Machine.execCmpd d a b f n p s
  | .cmph2 d a b f n p => Sys2Proof.Machine.execCmph2 d a b f n p s
  | .cmpz d a b f n p => Sys2Proof.Machine.execCmpz d a b f n p s
  | .pand d a b n p => Sys2Proof.Machine.execPand d a b n p s
  | .por d a b n p => Sys2Proof.Machine.execPor d a b n p s
  | .pxor d a b n p => Sys2Proof.Machine.execPxor d a b n p s
  | .pnot d a n p => Sys2Proof.Machine.execPnot d a n p s
  | .pmov d a n p => Sys2Proof.Machine.execPmov d a n p s
  | .pset d a n p => Sys2Proof.Machine.execPset d a n p s
  | .gset d a n p => Sys2Proof.Machine.execGset d a n p s
  | .gsetOpen d n p => Sys2Proof.Machine.execGsetOpen d n p s
  | .mov d a n p => Sys2Proof.Machine.execMov d a n p s
  | .srd d b n p => Sys2Proof.Machine.execSrd d b n p s
  | .swr a b n p => Sys2Proof.Machine.execSwr a b n p s
  | .ldkW d a n p => Sys2Proof.Machine.execLdkW d a n p s
  | .ldkD d a n p => Sys2Proof.Machine.execLdkD d a n p s
  | .tseed d a w k n p => Sys2Proof.Machine.execTseed d a w k n p s
  | .tget d a k n p => Sys2Proof.Machine.execTget d a k n p s
  | .tset d a k n p => Sys2Proof.Machine.execTset d a k n p s
  | .tzero d a w n p => Sys2Proof.Machine.execTzero d a w n p s
  | .tmov d a w n p => Sys2Proof.Machine.execTmov d a w n p s
  | .dext d a b n p => Sys2Proof.Machine.execDext d a b n p s
  | .foot d a n p => Sys2Proof.Machine.execFoot d a n p s
  | .motv d a n p => Sys2Proof.Machine.execMotv d a n p s
  | .ld d a o v3 k p => Sys2Proof.Machine.execLd d a o v3 k p s
  | .st d a o v3 k p => Sys2Proof.Machine.execSt d a o v3 k p s
  | .lds d a o v3 k p => Sys2Proof.Machine.execLds d a o v3 k p s
  | .sts d a o v3 k p => Sys2Proof.Machine.execSts d a o v3 k p s
  | .ldt d a o v3 k p => Sys2Proof.Machine.execLdt d a o v3 k p s
  | .stt d a o v3 k p => Sys2Proof.Machine.execStt d a o v3 k p s
  | .ldc d a o v3 k p => Sys2Proof.Machine.execLdc d a o v3 k p s
  | .prf a o v2 p => Sys2Proof.Machine.execPrf a o v2 p s
  | .atom d a b f v4 p => Sys2Proof.Machine.execAtom d a b f v4 p s
  | .red a b f v3 p => Sys2Proof.Machine.execRed a b f v3 p s
  | .fence v0 n p => Sys2Proof.Machine.execFence v0 n p s
  | .watch a n p => Sys2Proof.Machine.execWatch a n p s
  | .waitm d a n p => Sys2Proof.Machine.execWaitm d a n p s
  | .bar a v1 n p => Sys2Proof.Machine.execBar a v1 n p s
  | .bara a v1 n p => Sys2Proof.Machine.execBara a v1 n p s
  | .barw a n p => Sys2Proof.Machine.execBarw a n p s
  | .seal d n p => Sys2Proof.Machine.execSeal d n p s
  | .waitb a n p => Sys2Proof.Machine.execWaitb a n p s
  | .trig n p => Sys2Proof.Machine.execTrig n p s
  | .flushd n p => Sys2Proof.Machine.execFlushd n p s
  | .lgetAt d a b n p => Sys2Proof.Machine.execLgetAt d a b n p s
  | .lgetLower d a b n p => Sys2Proof.Machine.execLgetLower d a b n p s
  | .lgetHigher d a b n p => Sys2Proof.Machine.execLgetHigher d a b n p s
  | .lgetFlip d a b n p => Sys2Proof.Machine.execLgetFlip d a b n p s
  | .push d a b n p => Sys2Proof.Machine.execPush d a b n p s
  | .voteAnd d a b n p => Sys2Proof.Machine.execVoteAnd d a b n p s
  | .voteOr d a b n p => Sys2Proof.Machine.execVoteOr d a b n p s
  | .voteEqv d a b n p => Sys2Proof.Machine.execVoteEqv d a b n p s
  | .ballot d a b n p => Sys2Proof.Machine.execBallot d a b n p s
  | .bfly d a b n p => Sys2Proof.Machine.execBfly d a b n p s
  | .compress d a b n p => Sys2Proof.Machine.execCompress d a b n p s
  | .expand d a b n p => Sys2Proof.Machine.execExpand d a b n p s
  | .hist d a b n p => Sys2Proof.Machine.execHist d a b n p s
  | .hmerge d a b n p => Sys2Proof.Machine.execHmerge d a b n p s
  | .osmx d a n p => Sys2Proof.Machine.execOsmx d a n p s
  | .osmxf d a n p => Sys2Proof.Machine.execOsmxf d a n p s
  | .bra p n t r => Sys2Proof.Machine.execBra p n t r s
  | .call v0 => Sys2Proof.Machine.execCall v0 s
  | .nop n p => Sys2Proof.Machine.execNop n p s
  | .yield n p => Sys2Proof.Machine.execYield n p s
  | .brx a n p => Sys2Proof.Machine.execBrx a n p s
  | .calli a n p => Sys2Proof.Machine.execCalli a n p s
  | .ret n p => Sys2Proof.Machine.execRet n p s
  | .exit n p => Sys2Proof.Machine.execExit n p s
  | .brk a n p => Sys2Proof.Machine.execBrk a n p s
  | .loop c l => Sys2Proof.Machine.execLoop c l s
  | .loopi c l => Sys2Proof.Machine.execLoopi c l s
  | .trap a n p => Sys2Proof.Machine.execTrap a n p s
  | .eret n p => Sys2Proof.Machine.execEret n p s
  | .srdp d b n p => Sys2Proof.Machine.execSrdp d b n p s
  | .swrp a b n p => Sys2Proof.Machine.execSwrp a b n p s
  | .halt a n p => Sys2Proof.Machine.execHalt a n p s
  | .fork a b n p => Sys2Proof.Machine.execFork a b n p s
  | .rdvz a b n p => Sys2Proof.Machine.execRdvz a b n p s
  | .rdvzEngine a b n p => Sys2Proof.Machine.execRdvzEngine a b n p s
  | .mburst a n p => Sys2Proof.Machine.execMburst a n p s
  | .cpyG2s a b => Sys2Proof.Machine.execCpyG2s a b s
  | .cpyS2g a b => Sys2Proof.Machine.execCpyS2g a b s
  | .cpyG2g a b => Sys2Proof.Machine.execCpyG2g a b s
  | .cpyGath a b v => Sys2Proof.Machine.execCpyGath a b v s
  | .cpyFill a b => Sys2Proof.Machine.execCpyFill a b s
  | .cpyMap a b => Sys2Proof.Machine.execCpyMap a b s
  | .cpyUnmap b => Sys2Proof.Machine.execCpyUnmap b s
  | .cpyWb b => Sys2Proof.Machine.execCpyWb b s
  | .mtxMwld a b => Sys2Proof.Machine.execMtxMwld a b s
  | .mtxMwscl a b => Sys2Proof.Machine.execMtxMwscl a b s
  | .mtxMswap v => Sys2Proof.Machine.execMtxMswap v s
  | .mtxMstr a b => Sys2Proof.Machine.execMtxMstr a b s
  | .mtxMprom v => Sys2Proof.Machine.execMtxMprom v s
  | .mtxMzero b => Sys2Proof.Machine.execMtxMzero b s
  | .mtxMrd d a => Sys2Proof.Machine.execMtxMrd d a s
  | .mtxMwr a b => Sys2Proof.Machine.execMtxMwr a b s
  | .mtxMout d a b v => Sys2Proof.Machine.execMtxMout d a b v s
  | .mtxMdrain d a b v => Sys2Proof.Machine.execMtxMdrain d a b v s
  | .mtxMstat d v => Sys2Proof.Machine.execMtxMstat d v s
  | .splScfg a => Sys2Proof.Machine.execSplScfg a s
  | .splSproj d a => Sys2Proof.Machine.execSplSproj d a s
  | .splSbin d a => Sys2Proof.Machine.execSplSbin d a s
  | .splSsort d a => Sys2Proof.Machine.execSplSsort d a s
  | .splSblend d a => Sys2Proof.Machine.execSplSblend d a s
  | .splSrepl d a => Sys2Proof.Machine.execSplSrepl d a s
  | .slvCfg a => Sys2Proof.Machine.execSlvCfg a s
  | .slvLu d a => Sys2Proof.Machine.execSlvLu d a s
  | .slvLus d a => Sys2Proof.Machine.execSlvLus d a s
  | .slvChol d a => Sys2Proof.Machine.execSlvChol d a s
  | .slvChs d a => Sys2Proof.Machine.execSlvChs d a s
  | .slvCg d a => Sys2Proof.Machine.execSlvCg d a s
  | .slvJac d a => Sys2Proof.Machine.execSlvJac d a s
  | .colGrp d a b => Sys2Proof.Machine.execColGrp d a b s
  | .colGrpFree b => Sys2Proof.Machine.execColGrpFree b s
  | .colAred d a => Sys2Proof.Machine.execColAred d a s
  | .colRsc d a => Sys2Proof.Machine.execColRsc d a s
  | .colAgath d a => Sys2Proof.Machine.execColAgath d a s
  | .colBcast d a => Sys2Proof.Machine.execColBcast d a s
  | .colPut d a => Sys2Proof.Machine.execColPut d a s
  | .colWait d a b => Sys2Proof.Machine.execColWait d a b s
  | .grfLaunch d a v => Sys2Proof.Machine.execGrfLaunch d a v s
  | .grfQput b => Sys2Proof.Machine.execGrfQput b s
  | .grfQget d => Sys2Proof.Machine.execGrfQget d s
  | .grfNsig a => Sys2Proof.Machine.execGrfNsig a s
  | .prbMark a b => Sys2Proof.Machine.execPrbMark a b s
  | .prbSamp => Sys2Proof.Machine.execPrbSamp s
  | .prbRdx d a => Sys2Proof.Machine.execPrbRdx d a s
  | .packageReset => Sys2Proof.Machine.execPackageReset s
  | .pkgrst value => Sys2Proof.Machine.execPkgrst value s
  | .fwgo value => Sys2Proof.Machine.execFwgo value s
  | .start value => Sys2Proof.Machine.execStart value s
  | .attgo value => Sys2Proof.Machine.execAttgo value s
  | .dbgnonceRead => Sys2Proof.Machine.execDbgnonceRead s
  | .dbggo value => Sys2Proof.Machine.execDbggo value s
  | .dbgsessOpen asid => Sys2Proof.Machine.execDbgsessOpen asid s
  | .dbgsessClose => Sys2Proof.Machine.execDbgsessClose s
  | .dbgresSame die cluster core slot lane => Sys2Proof.Machine.execDbgresSame die cluster core slot lane s
  | .dbgresNext die cluster core slot lane => Sys2Proof.Machine.execDbgresNext die cluster core slot lane s
  | .invRange ch asid => Sys2Proof.Machine.execInvRange ch asid s
  | .invAsid ch asid => Sys2Proof.Machine.execInvAsid ch asid s
  | .contextRefresh ch asid => Sys2Proof.Machine.execContextRefresh ch asid s
  | .invalidationDone ch => Sys2Proof.Machine.execInvalidationDone ch s
  | .portReset port => Sys2Proof.Machine.execPortReset port s
  | .pwrP0 die => Sys2Proof.Machine.execPwrP0 die s
  | .pwrP1 die => Sys2Proof.Machine.execPwrP1 die s
  | .pwrP2 die => Sys2Proof.Machine.execPwrP2 die s
  | .pwrP3 die => Sys2Proof.Machine.execPwrP3 die s
  | .p3Wake die => Sys2Proof.Machine.execP3Wake die s
  | .registerWrite bar2 offset value => Sys2Proof.Machine.execRegisterWrite bar2 offset value s
  | .hostHdmAccess write addr size value => Sys2Proof.Machine.execHostHdmAccess write addr size value s
  | .submissionWordFire asid word => Sys2Proof.Machine.execSubmissionWordFire asid word s
  | .faultResponse die index => Sys2Proof.Machine.execFaultResponse die index s
  | .coreDump die => Sys2Proof.Machine.execCoreDump die s
  | .unitPlace die kind => Sys2Proof.Machine.execUnitPlace die kind s
  | .placingDone core slot => Sys2Proof.Machine.execPlacingDone core slot s
  | .slotRetire core slot => Sys2Proof.Machine.execSlotRetire core slot s
  | .clusterModeSwitch die cluster => Sys2Proof.Machine.execClusterModeSwitch die cluster s
  | .waitlimExpiry die kind => Sys2Proof.Machine.execWaitlimExpiry die kind s
  | .cohortSave cohort => Sys2Proof.Machine.execCohortSave cohort s
  | .flushdMakeRoom node => Sys2Proof.Machine.execFlushdMakeRoom node s
  | .nodeRetire node => Sys2Proof.Machine.execNodeRetire node s
  | .nodeTrigger node => Sys2Proof.Machine.execNodeTrigger node s
  | .copyNodeRun node => Sys2Proof.Machine.execCopyNodeRun node s
  | .signalNodeRun node => Sys2Proof.Machine.execSignalNodeRun node s
  | .clauseOpen core => Sys2Proof.Machine.execClauseOpen core s
  | .parkedGroupResume index => Sys2Proof.Machine.execParkedGroupResume index s
  | .deferralRelease thread => Sys2Proof.Machine.execDeferralRelease thread s
  | .deferralExpiry thread => Sys2Proof.Machine.execDeferralExpiry thread s
  | .rendezvousComplete core slot pc level => Sys2Proof.Machine.execRendezvousComplete core slot pc level s
  | .debugStop thread => Sys2Proof.Machine.execDebugStop thread s
  | .threadExitComplete thread => Sys2Proof.Machine.execThreadExitComplete thread s
  | .loadDataReturn access => Sys2Proof.Machine.execLoadDataReturn access s
  | .writeArrivalHome access => Sys2Proof.Machine.execWriteArrivalHome access s
  | .waitmTimeout thread => Sys2Proof.Machine.execWaitmTimeout thread s
  | .leaseExpiry copy => Sys2Proof.Machine.execLeaseExpiry copy s
  | .stackRowFill core slot offset => Sys2Proof.Machine.execStackRowFill core slot offset s
  | .guardHead core cls => Sys2Proof.Machine.execGuardHead core cls s
  | .commandReply core cls => Sys2Proof.Machine.execCommandReply core cls s
  | .copyComplete core => Sys2Proof.Machine.execCopyComplete core s
  | .arrayRowExit core => Sys2Proof.Machine.execArrayRowExit core s
  | .arrayRampUpDone core => Sys2Proof.Machine.execArrayRampUpDone core s
  | .arrayRampDown core => Sys2Proof.Machine.execArrayRampDown core s
  | .mburstWindowExpiry core => Sys2Proof.Machine.execMburstWindowExpiry core s
  | .barrierPhaseComplete cohort barrier => Sys2Proof.Machine.execBarrierPhaseComplete cohort barrier s
  | .flushdComplete node => Sys2Proof.Machine.execFlushdComplete node s
  | .queueRecordDeliver core => Sys2Proof.Machine.execQueueRecordDeliver core s
  | .flitReceive source chan seq tag die kind args payload => Sys2Proof.Machine.execFlitReceive source chan seq tag die kind args payload s
  | .flitCrcRetry port => Sys2Proof.Machine.execFlitCrcRetry port s
  | .linkFailure port => Sys2Proof.Machine.execLinkFailure port s
  | .trainingSuccess port => Sys2Proof.Machine.execTrainingSuccess port s
  | .retrainTimeout port => Sys2Proof.Machine.execRetrainTimeout port s
  | .collectiveInstanceComplete die asid handle => Sys2Proof.Machine.execCollectiveInstanceComplete die asid handle s
  | .collectiveTimeout core => Sys2Proof.Machine.execCollectiveTimeout core s
  | .putDelivered put => Sys2Proof.Machine.execPutDelivered put s
  | .cicadaSample core => Sys2Proof.Machine.execCicadaSample core s
  | .requestSampleComplete access queueing => Sys2Proof.Machine.execRequestSampleComplete access queueing s
  | .softError corrected place a b c => Sys2Proof.Machine.execSoftError corrected place a b c s
  | .storePerformed access => Sys2Proof.Machine.execStorePerformed access s
  | .hostRecall line => Sys2Proof.Machine.execHostRecall line s
  | .openIntervalWaitExpiry core => Sys2Proof.Machine.execOpenIntervalWaitExpiry core s
  | .commandComplete core cls => Sys2Proof.Machine.execCommandComplete core cls s
  | .hdmDecoderProgram base => Sys2Proof.Machine.execHdmDecoderProgram base s

end Sys2Proof.Machine
end

