-- ==== Sys2Proof/Machine/Schedule.lean ====
section
/-! DEFINITION. Which act comes next (DESIGN CHOICE, unsafe: log 10): an event of the agenda, the next instruction of an open clause (R201, R49-R51), a
word of an engine program (R236), or an event that is due. One step lasts the ticks that `elapse` names (DESIGN CHOICE, unsafe: log 2). -/

namespace Sys2Proof.Machine

/-- What a step does: the meaning of an instruction in a state, or what an event or a step of the machine's own gives. -/
inductive Act where
  | exec (i : Instr) (s : State)
  | out (o : Host.Outcome State Fault Refusal)

/-- A step of the machine's own that ends in a state. -/
def Act.done (s : State) : Act := .out (Host.Outcome.next s)

/-- The outcome of an act. -/
def Act.run : Act → Host.Outcome State Fault Refusal
  | .exec i s => Sys2Proof.Machine.exec i s
  | .out o => o

/-- Time goes on: by the next entry of `elapse`, else by one tick; the core cycles of each die with it (R3). Where the rules leave a point open: log 2 (DESIGN CHOICE, unsafe). -/
def tick (s : State) : State :=
  let n := s.elapse.headD 1
  { s with
    span := s.span + n
    cycles := (List.range 4).map fun die => (die, cyclesOf s die + n * cycleRate s die)
    elapse := s.elapse.tail }

/-- Whether an instruction is an event: it has no word. -/
def isEvent (i : Instr) : Bool :=
  match i with
  | .rdvzEngine _ _ _ _ => false
  | i => (encode i).isNone

/-- A word that decoding refuses, over the issuing group (R49-R51): a no-op where no thread's predicate is true; else Illegal
Instruction, or Illegal Operand after the gates of its opcode. -/
def illegalWord (e : DecodeErr) (w : Word) (s : State) : State :=
  match e with
  | .operand => runGroup (gateOf w) (predOf w) true (fun _ _ _ _ => .trap .operand) s
  | _ => runGroup freeGate (predOf w) true (fun _ _ _ _ => .trap .instruction) s

/-- The members of a group that stop before its word at a breakpoint (R376): those that have not resumed at it. Where the rules leave a point open: log 25 (DEDUCED, unsafe). -/
def stopsHere (s : State) (g : Group) : Option Nat :=
  g.members.find? fun t =>
    match getThread s t with
    | some th => (breakpointAt s th.lc.asid g.pc).isSome && !th.stopReq
    | none => false

/-- The machine as a group is about to issue: a lane that has left its breakpoint may stop at it again (R376), and the first
instruction of a node dates it (R327). -/
def beforeIssue (s : State) (g : Group) : State :=
  let s1 := g.members.foldl (fun s t => modThread s t fun th =>
    if th.stopReq && (breakpointAt s th.lc.asid g.pc).isNone then { th with stopReq := false } else th) s
  match (g.members.head?).bind (getThread s) with
  | some th => startNode s1 th.lc.node
  | none => s1

/-- A lane with an open Cocoon at the end of its clause (R209): it falls through into the next one unless that ends an open loop,
cannot be fetched, is illegal, waits for a counter or reports an engine fault; then its run-ahead stops. Where the rules leave a point open: log 24 (DEDUCED, unsafe). -/
def aheadBoundary (s : State) (g : Group) (t : Nat) (th : Thread) : State :=
  let pc := g.next
  let stop := parkIssuing s g
  if (match th.loops with | l :: _ => decide (l.stop = pc) | [] => false) || pc.toNat % 4 != 0 || decide (pc.toNat ≥ 2 ^ 57) then stop
  else
    match (threadClause s g.core th pc).2 with
    | .ok w code =>
      match legalClause w code 0 with
      | none => stop
      | some h =>
        if !waitMetBy h th || (h.wait.getLsbD 3 && th.reports.any Report.atHeader) then stop
        else
          setIssuing (setThread s t { th with pc := pc + 4, cla := pc, lats := noLatches })
            { g with cla := pc, hdr := h, code := code, idx := 0 }
    | _ => stop

/-- A group past the last word of its clause (R202, R209). -/
def clauseOver (s : State) (g : Group) : State :=
  match g.ahead, g.members with
  | true, [t] =>
    (match getThread s t with
     | some th => aheadBoundary s g t th
     | none => closeIssuing s)
  | _, _ => endClause (closeIssuing s) g

/-- The next act of open clause k: it closes, a lane stops at a breakpoint, or its word issues. -/
def issueAct (s0 : State) (k : Nat) : Act :=
  let s := { s0 with cur := k }
  match issuing s with
  | none => .done s
  | some g =>
    if s.halted.contains g.core then .done s
    else if g.members.isEmpty then .done (closeIssuing s)
    else if g.code.length ≤ g.idx then .done (clauseOver s g)
    else
      match stopsHere s g with
      | some t => .out (execDebugStop t s)
      | none =>
        match decode g.word with
        | .ok i => .exec i (beforeIssue s g)
        | .error e => .done (illegalWord e g.word (beforeIssue s g))

/-- The next act of a program (R236). -/
def progAct (s : State) (p : Prog) : Act :=
  if p.hdr.isSome && decide (p.idx < p.code.length) then
    match decodeEngine p.word with
    | .ok (.rdvzEngine a b n q) => .exec (.rdvzEngine a b n q) s
    | _ => .done (progStep s p)
  else .done (progStep s p)

/-- The next act of the first program of the machine that can go on. -/
def firstProgAct (s : State) : Act :=
  match s.crews.findSome? fun c => c.2.progs.findSome? fun p => nextProg s (c.1 / 16) p.cls with
  | some p => progAct s p
  | none => .done s

/-- An act that may come next. -/
abbrev Choice := State → Act

/-- An event as a choice. -/
def event (f : State → Host.Outcome State Fault Refusal) : Choice := fun s => .out (f s)

/-- The next word of the program whose turn it is on a core's sequencer of a class. -/
def progChoice (core cls : Nat) : Choice := fun s =>
  match nextProg s core cls with
  | some p => progAct s p
  | none => .done s

/-- A record's check tried again, no fault record having been free for it (R429). -/
def checkChoice (c : Check) : Choice := fun s =>
  if s.faults.any fun f => f.2.reqs.contains (.hive 1 c.id) then .done s else .done (runCheck s c false)

/-- An access's next event (R160, R351, R354). -/
def accessEvent (a : Access) : Choice :=
  match a.kind with
  | .load => event (execLoadDataReturn a.id)
  | .atom => event (execLoadDataReturn a.id)
  | _ => if a.arrived then event (execStorePerformed a.id) else event (execWriteArrivalHome a.id)

/-- Events of threads: exits, time limits, deferrals, rendezvous, barriers. Where the rules leave a point open: log 11 (DESIGN CHOICE, safe). -/
def threadEvents (s : State) : List Choice :=
  (s.deferrals.map fun d => event (execDeferralRelease d.thread)) ++ (s.deferrals.map fun d => event (execDeferralExpiry d.thread))
    ++ ((s.threads.filter fun t => t.2.status == .exiting).map fun t => event (execThreadExitComplete t.1))
    ++ ((s.threads.filter fun t => match t.2.wait with | some w => w.kind == waitmKind | none => false).map
        fun t => event (execWaitmTimeout t.1))
    ++ (s.cohorts.flatMap fun c => c.2.barriers.map fun b => event (execBarrierPhaseComplete c.1 b.1))
    ++ (s.parked.zipIdx.map fun g => event (execParkedGroupResume g.2))

/-- Cores with crews. -/
def busyCores (s : State) : List Nat := (s.crews.map fun c => c.1 / 16).eraseDups

/-- Events of a core's queues and engines. -/
def engineEvents (s : State) : List Choice :=
  ((s.queues.filter fun q => !q.2.isEmpty).flatMap fun q =>
    let core := q.1 / 8
    let cls := q.1 % 8
    [event (execGuardHead core cls), event (execCommandReply core cls), event (execCommandComplete core cls)]
      ++ (if cls = 0 then [event (execCopyComplete core)] else []) ++ (if cls = 5 then [event (execQueueRecordDeliver core)] else []))
    ++ (s.girders.flatMap fun g => [event (execArrayRowExit g.1)] ++ (if g.2.ramp = 1 then [event (execArrayRampUpDone g.1)] else []))
    ++ (s.colCmds.flatMap fun c => [event (execCollectiveTimeout c.core),
        event (execCollectiveInstanceComplete c.die (handleAsid c.handle) (c.handle % 256))])
    ++ (s.puts.map fun p => event (execPutDelivered p.id))

/-- Events of the Hives. -/
def hiveEvents (s : State) : List Choice :=
  (s.subFired.map fun w => event (execSubmissionWordFire w.1 (w.2 % 64)))
    ++ ((s.faults.filter fun f => respOf s (f.1 / 1024) (f.1 % 1024) != 0).map fun f => event (execFaultResponse (f.1 / 1024) (f.1 % 1024)))
    ++ ((s.slots.filter fun e => e.2.state == 1).map fun e => event (execPlacingDone (e.1 / 16) (e.1 % 16)))
    ++ ((s.cohorts.filter fun c => c.2.state == 2 || c.2.state == 5).map fun c => event (execCohortSave c.1))
    ++ ((s.slots.filter fun e => e.2.state == 3 || (e.2.state == 2 && crewEnded s e.1)).map fun e => event (execSlotRetire (e.1 / 16) (e.1 % 16)))
    ++ (s.nodes.flatMap fun n => [event (execNodeTrigger n.1), event (execCopyNodeRun n.1), event (execSignalNodeRun n.1), event (execFlushdComplete n.1),
        event (execNodeRetire n.1), event (execFlushdMakeRoom n.1)])
    ++ (if s.nodes.isEmpty then [] else
        (List.range 4).flatMap fun d => [event (execUnitPlace d 0), event (execUnitPlace d 1), event (execWaitlimExpiry d 0), event (execWaitlimExpiry d 1)])
    ++ (s.draining.map fun c => event (execClusterModeSwitch (c / 12) (c % 12)))

/-- Events of the package. Where the rules leave a point open: log 38 (DESIGN CHOICE, unsafe). -/
def packageEvents (s : State) : List Choice :=
  (s.dumps.map fun d => event (execCoreDump d.die)) ++ (s.inval.map fun c => event (execInvalidationDone c.1))
    ++ ((List.range 4).flatMap fun d =>
        if rawPower s d = 4 then [event (execP3Wake d)] else if rawPower s d = 5 then [event (execPwrP3 d)] else [])
    ++ (s.hostQueue.map fun a s => .done (serveHost s a))
    ++ (((s.crews.map fun c => c.1 / 16).eraseDups.filter (cicadaDue s)).map fun c => event (execCicadaSample c))
    ++ ((s.ports.filter fun p => p.2.state == 1).map fun p => event (execRetrainTimeout p.1)) ++ [fun s => .done (rerouteFlits s)]
    ++ ((s.copies.filter fun c => decide (c.expiry ≤ s.span)).map fun c => event (execLeaseExpiry c.id))

/-- Events that end a wait for more work; they come when nothing else is due. -/
def lateEvents (s : State) : List Choice :=
  s.girders.flatMap fun g =>
    let done := match g.2.owner.bind (getCohort s) with
      | some c => c.state == 5
      | none => false
    (if done then [event (execOpenIntervalWaitExpiry g.1)] else [])
      ++ (if g.2.burst then [event (execMburstWindowExpiry g.1)] else []) ++ (if g.2.ramp = 0 then [] else [event (execArrayRampDown g.1)])

/-- Events of the cores: accesses in flight, open clauses by age, threads, engines, programs, opening clauses. -/
def coreChoices (s : State) : List Choice :=
  (s.access.map accessEvent) ++ ((List.range s.opens.length).map fun k s => issueAct s k)
    ++ threadEvents s ++ engineEvents s
    ++ (s.crews.flatMap fun c => c.2.progs.map fun p => progChoice (c.1 / 16) p.cls)
    ++ (busyCores s).map fun c => event (execClauseOpen c)

/-- What may come next, in the order in which it is tried: the cores first, or the Hives every fourth tick; the package, and what
comes late. In every eighth tick a later choice comes first, so that each comes at some time. Where the rules leave a point open: log 10 (DESIGN CHOICE, unsafe). -/
def choices (s : State) : List Choice :=
  let cores := coreChoices s
  let hives := hiveEvents s ++ s.checks.map checkChoice ++ packageEvents s
  let all := (if s.span % 4 = 0 then hives ++ cores else cores ++ hives) ++ lateEvents s
  if s.span % 8 = 7 then all.rotateLeft (s.span / 8) else all

/-- Whether an act changes the machine, its choice of an open clause apart. -/
def changes (s : State) (a : Act) : Bool :=
  match a.run with
  | .next t => decide ({ t with cur := s.cur } ≠ s)
  | _ => true

/-- The first choice that changes something; with none the machine is idle. Where the rules leave a point open: log 10 (DESIGN CHOICE, unsafe). -/
def defaultAct (s : State) : Act :=
  match (choices s).find? fun c => changes s (c s) with
  | some c => c s
  | none => .done s

/-- The machine after an act (R406): an act that has met a die in P3 has waked it and is still to come; any other is done. Where the rules
leave a point open: log 34 (DEDUCED, unsafe). -/
def settleWake (s t : State) : State := if sleeps t then { s with power := (calm t).power } else t

/-- The next act: the wake of a die that is waited for (R406); else the first event of the agenda; else what `turns` asks for, 0 a program and k + 1 open clause k; else the default. Where the rules leave a point open: log 10 (DESIGN CHOICE, unsafe). -/
def nextAct (s : State) : Act :=
  match s.power.find? fun e => e.2.1 == 4 with
  | some e => .out (execP3Wake e.1 s)
  | none =>
    match s.agenda with
    | i :: rest =>
      let s1 := { s with agenda := rest }
      if isEvent i then .exec i s1 else .done s1
    | [] =>
      match s.turns with
      | [] => defaultAct s
      | n :: rest =>
        let s1 := { s with turns := rest }
        if n = 0 then firstProgAct s1 else issueAct s1 (n - 1)

/-- The launch constants of the thread of `withFetchWord`: every register, eight tangent slots, every feature. Where the rules leave a point open: log 4 (DESIGN CHOICE, safe). -/
def probeLaunch (cohort node : Nat) (crew : Nat) : Launch :=
  { regs := 60, tcount := 8, t16 := false, ndecl := 8, params := [1, 2, 3, 4, 5, 6, 7, 8], stack := 256, constBase := 0x1000
    kargs := [], asid := 1, node := node, cohort := cohort, crew := crew, coh := (0, 0, 0), grid := (1, 1, 1), stage := 0
    det := false, feats := 0x3FF }

/-- The core on which `withFetchWord` runs a word: an S-core for `SPL` words. Where the rules leave a point open: log 4 (DESIGN CHOICE, safe). -/
def probeCore (w : Word) : Nat := if (opF w).toNat = 0x3A then 28 else 0

/-- The machine with one resident cohort of one thread, nothing of which has run. Where the rules leave a point open: log 4 (DESIGN CHOICE, safe). -/
def probeCohort (s : State) (core : Nat) (th : Thread) : State :=
  let crew := core * 16
  let c := s.seqno + 1
  let node := s.seqno + 2
  let n := { nodeOf 0 0 [] none [] with
    asid := 1, grid := (1, 1, 1), stages := 1, crews := 1, lanes := 1, phase := 2, nextUnit := 1 }
  { s with
    threads := putK s.threads (crew * 64) { th with lc := probeLaunch c node 0 }
    slots := putK s.slots crew ⟨2, node, c, 16384, 0⟩
    crews := putK s.crews crew ⟨c, 0, 1, [0, 0, 0, 0, 0, 0, 0], [], []⟩
    cohorts := putK s.cohorts c ⟨node, 0, 0, [crew], 0, [], [], [], 0, none, none, [], [], [], [], [], 0, s.span, 0, 1⟩
    nodes := putK s.nodes node n
    halted := s.halted.filter (· != core)
    seqno := s.seqno + 2
    agenda := [] }

/-- The machine about to issue a word (DESIGN CHOICE, safe: log 4): in the one open clause, which holds it alone; a word of engine programs alone in
a program. The thread stands at trap level 2, the only one at which every instruction may run. -/
def issueReady (s : State) (w : Word) : State :=
  let core := probeCore w
  let cla : DWord := 0x10000
  let hdr : Header := { headerFields 0xB0040000 with count := 1 }
  let th : Thread := { launchThread (probeLaunch 0 0 0) cla 0 0 s.span with
    level := 2, status := .issuing, thandler := 0x20000, shandler := 0x30000, stopReq := true }
  let s1 := probeCohort s core th
  match decode w, decodeEngine w with
  | .error _, .ok _ =>
    let p : Prog := ⟨2, core * 16, [], cla + 4, cla, some hdr, [w], 0, [], none, 0, 1⟩
    { modCrew s1 (core * 16) fun c => { c with progs := [p] } with opens := [], turns := [0] }
  | _, _ => { s1 with opens := [⟨core, [core * 16 * 64], cla, hdr, [w], 0, false⟩], cur := 0, turns := [1] }

end Sys2Proof.Machine
end

