-- ==== Sys2Proof/Machine/Step.lean ====
section
/-! DEFINITION. One step of the machine. -/

namespace Sys2Proof.Machine

/-- One step: time goes on, and the next act is done, unless it has to wait for a die (R406). -/
def step (s : State) : Host.Outcome State Fault Refusal :=
  match (nextAct (tick s)).run with
  | .next t => .next (settleWake (tick s) t)
  | o => o

/-- A machine about to issue an instruction (DESIGN CHOICE, safe: log 4). -/
def State.withFetchWord (s : State) (nbits w : Nat) : State := issueReady s (BitVec.ofNat 32 (w % 2 ^ nbits))

end Sys2Proof.Machine
end

