-- ==== Sys2Proof/Safety.lean ====
section
/-! DEFINITION. Runs of the machine, what a safe state and a safe run are, and the terms of the claims: when a group issues its word,
and what an instruction leaves of its threads and of the rest of the machine. -/

namespace Sys2Proof

open Sys2Proof.Machine

/-- A step that answers a next state. -/
def Steps (s t : State) : Prop := step s = .next t

/-- The states that steps lead to from a state. -/
inductive Reaches : State → State → Prop where
  | refl (s : State) : Reaches s s
  | tail {s t u : State} : Reaches s t → Steps t u → Reaches s u

/-- A state is well formed: its memory is in canonical form. -/
def State.Inv (s : State) : Prop := memWf s.mem = true

/-- A run is safe: every state that it reaches is well formed and takes a step. -/
def SafeRun (s : State) : Prop := ∀ t, Reaches s t → State.Inv t ∧ ∃ u, Steps t u

/-- Group g issues its word to its threads: no lane runs ahead under a Cocoon (R209), and no register that the word touches awaits
data (R161). -/
structure Issues (s : State) (g : Group) : Prop where
  group : issuing s = some g
  level : g.ahead = false
  free : interlocked s g = false

/-- Nothing keeps a lane from its effect before its own operands do: the gates of the instruction are open to its context (R48, R51)
and it consumes nothing poisoned (R384). -/
def LaneFree (g : Group) (gate : Gate) (th : Thread) : Prop :=
  gateFails gate g.core th = false ∧ poisonedSource th g.word = none

/-- No trap of R98: the thread enables none of the flags raised, or they come from a binary64 instruction in a context that lacks the
binary64 trap feature (R129). -/
def NoFlagTrap (th : Thread) (dbl : Bool) (fl : Word) : Prop :=
  fl &&& ((th.fcr >>> 3) &&& 31) = 0 ∨ (dbl = true ∧ th.lc.feats.getLsbD 5 = false)

/-- Every thread of the group in which the predicate is true is as `ok` says of its number and state. -/
def LanesAt (s : State) (g : Group) (p : BitVec 3) (ok : Nat → Thread → Prop) : Prop :=
  ∀ u ∈ g.members, ∀ th, getThread s u = some th → readPred th p.toNat = true → ok u th

/-- `LanesAt` for a property of the thread alone. -/
def Lanes (s : State) (g : Group) (p : BitVec 3) (ok : Thread → Prop) : Prop := LanesAt s g p fun _ => ok

/-- A thread in which the predicate is false (R40): the latch of the word becomes invalid, the pc goes on, and nothing else changes but
that an invalid latch is not poisoned. -/
structure Skipped (g : Group) (th th' : Thread) : Prop where
  latch : ∀ k, k < 4 → readLatch th' k = if k = g.latch then Latch.invalid else readLatch th k
  rest : th' = { th with pc := g.pc + 4, lats := th'.lats, poison := th.poison.filter (· != 60 + g.latch) }

/-- A thread after an instruction under a predicate: as `R` says where it is true. -/
def LaneAfter (g : Group) (p : BitVec 3) (R : Thread → Thread → Prop) (th th' : Thread) : Prop :=
  if readPred th p.toNat = true then R th th' else Skipped g th th'

/-- What an instruction of the issuing group leaves that changes only its threads: each of them is as `R` says, every other thread is
as it was, and of the rest of the machine only the group's place in its clause changes. -/
structure GroupResult (s t : State) (g : Group) (R : Nat → Thread → Thread → Prop) : Prop where
  lanes : ∀ u ∈ g.members, ∀ th, getThread s u = some th → ∃ th', getThread t u = some th' ∧ R u th th'
  others : ∀ u, u ∉ g.members → getThread t u = getThread s u
  rest : t = { s with threads := t.threads, opens := s.opens.set s.cur { g with idx := g.idx + 1 } }

/-- Thread u alone is in the group that issues, its predicate is true, and nothing keeps the word from its effect before its own operands
do. -/
structure Alone (s : State) (g : Group) (gate : Gate) (p : BitVec 3) (u : Nat) (th : Thread) : Prop where
  issues : Issues s g
  members : g.members = [u]
  thread : getThread s u = some th
  pred : readPred th p.toNat = true
  free : LaneFree g gate th

/-- The deferrals after thread u met the condition of those of which `met` holds (R205). -/
def waitsLeft (u : Nat) (met : Deferral → Bool) (ds : List Deferral) : List Deferral :=
  ds.map fun d => if met d then { d with waits := d.waits.filter (· != u) } else d

/-- Thread u became th', and met the condition of the deferrals of which `met` holds (R205): those that wait for no thread any more
release theirs, which stands at its target. Every other thread is as it was. -/
structure Moved (s t : State) (u : Nat) (th' : Thread) (met : Deferral → Bool) : Prop where
  thread : getThread t u = some th'
  others : ∀ v, v ≠ u → getThread t v = (getThread s v).map fun x =>
    if x.status = .deferred ∧ ((waitsLeft u met s.deferrals).any fun d => d.thread == v && d.waits.isEmpty) = true then
      { x with status := .ready, since := s.span } else x
  deferrals : t.deferrals = (waitsLeft u met s.deferrals).filter fun d => !d.waits.isEmpty

/-- `Moved`, with nothing else changed but the open clauses, which are as given. -/
structure Left (s t : State) (u : Nat) (th' : Thread) (met : Deferral → Bool) (opens : List Group) : Prop where
  moved : Moved s t u th' met
  rest : t = { s with threads := t.threads, deferrals := t.deferrals, opens := opens }

/-- The word at an address, fetched for an ASID on a core, is the header of a clause (R428, R54). -/
def HeaderAt (s : State) (core asid : Nat) (addr : DWord) : Prop :=
  addr.toNat % 4 = 0 ∧ addr.toNat < 2 ^ 57 ∧ ∃ e, (translate s (tlbUnits core) asid addr.toNat .fetch).2 = .ok e ∧
    poisoned s (paOf e addr.toNat) = false ∧ isTagged (BitVec.ofNat 32 (readNum s (keyOf s asid) (paOf e addr.toNat) 4)) = true

/-- Result v went to register d, unless nw keeps it, and to the latch of the word (R40, R42): every other register and latch, the
predicates and all else of the thread are as they were, and what was written is not poisoned (R384). -/
structure WroteReg (g : Group) (d : BitVec 6) (nw : Bool) (v : Dexel) (th th' : Thread) : Prop where
  reg : nw = false → d ≠ 0 → readReg th' d.toNat = v
  zero : readReg th' 0 = Dexel.zero
  regs : ∀ n, n ≠ d.toNat ∨ nw = true → readReg th' n = readReg th n
  latch : ∀ k, k < 4 → readLatch th' k = if k = g.latch then latch32 v else readLatch th k
  poison : ∀ c, c ∈ th'.poison ↔ c ∈ th.poison ∧ c ≠ 60 + g.latch ∧ (nw = true ∨ d = 0 ∨ c ≠ d.toNat)
  log : th.cocoon = none → th'.cocoon = none
  rest : th' = { th with pc := g.pc + 4, regs := th'.regs, lats := th'.lats, poison := th'.poison, cocoon := th'.cocoon }

/-- As `WroteReg` for a pair result (R37): register d gets the low word and d + 1 the high word. -/
structure WrotePair (g : Group) (d : BitVec 6) (nw : Bool) (v : Dexel × Dexel) (th th' : Thread) : Prop where
  reg : nw = false → d ≠ 0 → readReg th' d.toNat = v.1 ∧ readReg th' (d.toNat + 1) = v.2
  zero : readReg th' 0 = Dexel.zero
  regs : ∀ n, (n ≠ d.toNat ∧ n ≠ d.toNat + 1) ∨ nw = true → readReg th' n = readReg th n
  latch : ∀ k, k < 4 → readLatch th' k = if k = g.latch then latch64 v.1 v.2 else readLatch th k
  poison : ∀ c, c ∈ th'.poison ↔ c ∈ th.poison ∧ c ≠ 60 + g.latch ∧ (nw = true ∨ d = 0 ∨ (c ≠ d.toNat ∧ c ≠ d.toNat + 1))
  log : th.cocoon = none → th'.cocoon = none
  rest : th' = { th with pc := g.pc + 4, regs := th'.regs, lats := th'.lats, poison := th'.poison, cocoon := th'.cocoon }

/-- Predicates were written as `v` says, and the latch of the word became invalid (R38, R40): registers, other predicates and latches
and all else of the thread are as they were. -/
structure WrotePreds (g : Group) (v : Nat → Option Bool) (th th' : Thread) : Prop where
  preds : ∀ n, n ≠ 7 → readPred th' n = (v n).getD (readPred th n)
  latch : ∀ k, k < 4 → readLatch th' k = if k = g.latch then Latch.invalid else readLatch th k
  log : th.cocoon = none → th'.cocoon = none
  rest : th' = { th with pc := g.pc + 4, preds := th'.preds, lats := th'.lats, poison := th.poison.filter (· != 60 + g.latch), cocoon := th'.cocoon }

end Sys2Proof
end

