-- ==== Sys2Proof/Certificates/Slice0/Obligations.lean ====
section
/-! DEFINITION. The statements for the provers, and the tables of instructions that they range over. -/

open Sys2Proof Sys2Proof.Machine

namespace Sys2Proof

/-- An instruction with one 32-bit result: its predicate, destination, nw, and the value that the rules give in a thread, none where
they make one of its source operands illegal. -/
structure RegForm where
  instr : Instr
  pred : BitVec 3
  d : BitVec 6
  nw : Bool
  val : Thread → Option Dexel

/-- An instruction with one 64-bit result. -/
structure PairForm where
  instr : Instr
  pred : BitVec 3
  d : BitVec 6
  nw : Bool
  val : Thread → Option (Dexel × Dexel)

/-- A 32-bit integer value of two registers, with zero tangents. -/
def intOf2 (a b : BitVec 6) (f : Word → Word → Word) (th : Thread) : Option Dexel :=
  match srcReg th a, srcReg th b with
  | some x, some y => some ⟨f x.val y.val, []⟩
  | _, _ => none

/-- A 32-bit integer value of one register, with zero tangents. -/
def intOf1 (a : BitVec 6) (f : Word → Word) (th : Thread) : Option Dexel := (srcReg th a).map fun x => ⟨f x.val, []⟩

/-- The 32-bit integer instructions of R114-R118, R120 and R121, `SHFI` of KIND 0-3 (R122) and `LUI` (R123), each with its result. -/
def intForms (d a b c : BitVec 6) (nw : Bool) (p : BitVec 3) (q : Bool) (i12 : BitVec 12) (i20 : BitVec 20) (amount : BitVec 5) :
    List RegForm :=
  [⟨.iadd d a b nw p, p, d, nw, intOf2 a b fun x y => x + y⟩,
   ⟨.isub d a b nw p, p, d, nw, intOf2 a b fun x y => x - y⟩,
   ⟨.imul d a b nw p, p, d, nw, intOf2 a b fun x y => x * y⟩,
   ⟨.imulh d a b nw p, p, d, nw, intOf2 a b fun x y => BitVec.ofInt 32 (x.toInt * y.toInt / 2 ^ 32)⟩,
   ⟨.imulhu d a b nw p, p, d, nw, intOf2 a b fun x y => BitVec.ofNat 32 (x.toNat * y.toNat / 2 ^ 32)⟩,
   ⟨.and d a b nw p, p, d, nw, intOf2 a b fun x y => x &&& y⟩,
   ⟨.or d a b nw p, p, d, nw, intOf2 a b fun x y => x ||| y⟩,
   ⟨.xor d a b nw p, p, d, nw, intOf2 a b fun x y => x ^^^ y⟩,
   ⟨.andn d a b nw p, p, d, nw, intOf2 a b fun x y => x &&& ~~~y⟩,
   ⟨.shl d a b nw p, p, d, nw, intOf2 a b fun x y => x <<< (y.toNat % 32)⟩,
   ⟨.shr d a b nw p, p, d, nw, intOf2 a b fun x y => x >>> (y.toNat % 32)⟩,
   ⟨.sra d a b nw p, p, d, nw, intOf2 a b fun x y => x.sshiftRight (y.toNat % 32)⟩,
   ⟨.rotl d a b nw p, p, d, nw, intOf2 a b fun x y => (x <<< (y.toNat % 32)) ||| (x >>> ((32 - y.toNat % 32) % 32))⟩,
   ⟨.min d a b nw p, p, d, nw, intOf2 a b fun x y => if x.toInt ≤ y.toInt then x else y⟩,
   ⟨.max d a b nw p, p, d, nw, intOf2 a b fun x y => if y.toInt ≤ x.toInt then x else y⟩,
   ⟨.absd d a b nw p, p, d, nw, intOf2 a b fun x y => BitVec.ofNat 32 (x.toInt - y.toInt).natAbs⟩,
   ⟨.minu d a b nw p, p, d, nw, intOf2 a b fun x y => if x.toNat ≤ y.toNat then x else y⟩,
   ⟨.maxu d a b nw p, p, d, nw, intOf2 a b fun x y => if y.toNat ≤ x.toNat then x else y⟩,
   ⟨.popc d a nw p, p, d, nw, intOf1 a popCount⟩,
   ⟨.clz d a nw p, p, d, nw, intOf1 a leadingZeros⟩,
   ⟨.ctz d a nw p, p, d, nw, intOf1 a trailingZeros⟩,
   ⟨.brev d a nw p, p, d, nw, intOf1 a reverseBits⟩,
   ⟨.bfx d a b nw p, p, d, nw, intOf2 a b extractField⟩,
   ⟨.bfi d a b nw p, p, d, nw, fun th => intOf2 a b (insertField (readReg th d.toNat).val) th⟩,
   ⟨.lea d a b nw p, p, d, nw, intOf2 a b fun x y => x + (y <<< 2)⟩,
   ⟨.idiv d a b nw p, p, d, nw, intOf2 a b fun x y =>
     if y = 0 then 0xFFFFFFFF else if x = 0x80000000 ∧ y = 0xFFFFFFFF then 0x80000000 else BitVec.ofInt 32 (x.toInt.tdiv y.toInt)⟩,
   ⟨.idivu d a b nw p, p, d, nw, intOf2 a b fun x y => if y = 0 then 0xFFFFFFFF else x / y⟩,
   ⟨.irem d a b nw p, p, d, nw, intOf2 a b fun x y =>
     if y = 0 then x else if x = 0x80000000 ∧ y = 0xFFFFFFFF then 0 else BitVec.ofInt 32 (x.toInt.tmod y.toInt)⟩,
   ⟨.iremu d a b nw p, p, d, nw, intOf2 a b fun x y => if y = 0 then x else x % y⟩,
   ⟨.sel d a b nw p, 7, d, nw, fun th =>
     match srcReg th a, srcReg th b with
     | some x, some y => some (if readPred th p.toNat then x else y)
     | _, _ => none⟩,
   ⟨.imad d a b c nw q, if q then 0 else 7, d, nw, fun th =>
     match srcReg th a, srcReg th b, srcReg th c with
     | some x, some y, some z => some ⟨x.val * y.val + z.val, []⟩
     | _, _, _ => none⟩,
   ⟨.iaddi d a i12 nw q, if q then 0 else 7, d, nw, intOf1 a fun x => x + i12.signExtend 32⟩,
   ⟨.andi d a i12 nw q, if q then 0 else 7, d, nw, intOf1 a fun x => x &&& i12.signExtend 32⟩,
   ⟨.ori d a i12 nw q, if q then 0 else 7, d, nw, intOf1 a fun x => x ||| i12.signExtend 32⟩,
   ⟨.xori d a i12 nw q, if q then 0 else 7, d, nw, intOf1 a fun x => x ^^^ i12.signExtend 32⟩,
   ⟨.shfi d a 0 (amount.setWidth 6) nw q, if q then 0 else 7, d, nw, intOf1 a fun x => x <<< amount.toNat⟩,
   ⟨.shfi d a 1 (amount.setWidth 6) nw q, if q then 0 else 7, d, nw, intOf1 a fun x => x >>> amount.toNat⟩,
   ⟨.shfi d a 2 (amount.setWidth 6) nw q, if q then 0 else 7, d, nw, intOf1 a fun x => x.sshiftRight amount.toNat⟩,
   ⟨.shfi d a 3 (amount.setWidth 6) nw q, if q then 0 else 7, d, nw, intOf1 a fun x =>
     (x <<< amount.toNat) ||| (x >>> ((32 - amount.toNat) % 32))⟩,
   ⟨.lui d i20, 7, d, false, fun _ => some ⟨i20.setWidth 32 <<< 12, []⟩⟩]

end Sys2Proof

/-- The 32-bit integer instructions write the result of their rule to the latch and, without nw, to d, and change nothing else
(R108, R114-R118, R120-R123; R40, R42 for the latch and nw). -/
def Obligations.IntegerRegisterResults : Prop :=
  ∀ (d a b c : BitVec 6) (nw : Bool) (p : BitVec 3) (q : Bool) (i12 : BitVec 12) (i20 : BitVec 20) (amount : BitVec 5),
    ∀ f ∈ intForms d a b c nw p q i12 i20 amount, ∀ s g, Issues s g →
      Lanes s g f.pred (fun th => LaneFree g freeGate th ∧ (f.val th).isSome = true ∧ dstReg th f.d f.nw = true) →
      ∃ t, exec f.instr s = .next t ∧
        GroupResult s t g fun _ => LaneAfter g f.pred fun th th' => ∃ v, f.val th = some v ∧ WroteReg g f.d f.nw v th th'

namespace Sys2Proof

/-- A 64-bit word as a pair with zero tangents: the low word first (R37). -/
def plainOf (v : DWord) : Dexel × Dexel := (⟨v.setWidth 32, []⟩, ⟨(v >>> 32).setWidth 32, []⟩)

/-- The 64 bits of a pair: its first register is the low word (R37). -/
def bitsOf (x : Dexel × Dexel) : DWord := x.2.val ++ x.1.val

/-- A 64-bit integer value of two pairs. -/
def wideOf2 (a b : BitVec 6) (f : DWord → DWord → DWord) (th : Thread) : Option (Dexel × Dexel) :=
  match srcPair th a, srcPair th b with
  | some x, some y => some (plainOf (f (bitsOf x) (bitsOf y)))
  | _, _ => none

/-- A 64-bit integer value of a pair and a register. -/
def wideOfReg (a b : BitVec 6) (f : DWord → Word → DWord) (th : Thread) : Option (Dexel × Dexel) :=
  match srcPair th a, srcReg th b with
  | some x, some y => some (plainOf (f (bitsOf x) y.val))
  | _, _ => none

/-- A 64-bit integer value of one pair. -/
def wideOf1 (a : BitVec 6) (f : DWord → DWord) (th : Thread) : Option (Dexel × Dexel) := (srcPair th a).map fun x => plainOf (f (bitsOf x))

/-- The 64-bit integer instructions of R119 and R121 and `SHFI` of KIND 4-6 (R122), each with its result. -/
def wideForms (d a b : BitVec 6) (nw : Bool) (p : BitVec 3) (q : Bool) (i12 : BitVec 12) (amount : BitVec 6) : List PairForm :=
  [⟨.iadd64 d a b nw p, p, d, nw, wideOf2 a b fun x y => x + y⟩,
   ⟨.isub64 d a b nw p, p, d, nw, wideOf2 a b fun x y => x - y⟩,
   ⟨.imul64 d a b nw p, p, d, nw, wideOf2 a b fun x y => x * y⟩,
   ⟨.shl64 d a b nw p, p, d, nw, wideOfReg a b fun x y => x <<< (y.toNat % 64)⟩,
   ⟨.shr64 d a b nw p, p, d, nw, wideOfReg a b fun x y => x >>> (y.toNat % 64)⟩,
   ⟨.sra64 d a b nw p, p, d, nw, wideOfReg a b fun x y => x.sshiftRight (y.toNat % 64)⟩,
   ⟨.lea64 d a b nw p, p, d, nw, wideOfReg a b fun x y => x + (y.signExtend 64 <<< 2)⟩,
   ⟨.mov64 d a nw p, p, d, nw, fun th => srcPair th a⟩,
   ⟨.iaddi64 d a i12 nw q, if q then 0 else 7, d, nw, wideOf1 a fun x => x + i12.signExtend 64⟩,
   ⟨.shfi d a 4 amount nw q, if q then 0 else 7, d, nw, wideOf1 a fun x => x <<< amount.toNat⟩,
   ⟨.shfi d a 5 amount nw q, if q then 0 else 7, d, nw, wideOf1 a fun x => x >>> amount.toNat⟩,
   ⟨.shfi d a 6 amount nw q, if q then 0 else 7, d, nw, wideOf1 a fun x => x.sshiftRight amount.toNat⟩]

/-- The 64-bit integer instructions write the result of their rule to the latch and, without nw, to the pair d, and change nothing
else (R119, R121, R122; R37, R40, R42). -/
def IntegerPairResults : Prop :=
  ∀ (d a b : BitVec 6) (nw : Bool) (p : BitVec 3) (q : Bool) (i12 : BitVec 12) (amount : BitVec 6),
    ∀ f ∈ wideForms d a b nw p q i12 amount, ∀ s g, Issues s g →
      Lanes s g f.pred (fun th => LaneFree g freeGate th ∧ (f.val th).isSome = true ∧ dstPair th f.d f.nw = true) →
      ∃ t, exec f.instr s = .next t ∧
        GroupResult s t g fun _ => LaneAfter g f.pred fun th th' => ∃ v, f.val th = some v ∧ WrotePair g f.d f.nw v th th'

/-- `AUIPC` writes the address of its own word plus the immediate shifted by 12 and sign-extended, in every thread (R123). -/
def AuipcResult : Prop :=
  ∀ (d : BitVec 6) (i20 : BitVec 20) s g, Issues s g →
    Lanes s g 7 (fun th => LaneFree g freeGate th ∧ dstPair th d false = true) →
    ∃ t, exec (.auipc d i20) s = .next t ∧
      GroupResult s t g fun _ th th' =>
        WrotePair g d false (plainOf ((g.cla + BitVec.ofNat 64 (4 * (g.idx + 1))) + (((i20.setWidth 32 : Word) <<< 12).signExtend 64))) th th'

end Sys2Proof

/-- The 64-bit integer instructions and `AUIPC` (R119, R121, R122, R123, R37, R40, R42). -/
def Obligations.WideIntegerResults : Prop := IntegerPairResults ∧ AuipcResult

/-- The bits of the results of `POPC`, `CLZ`, `CTZ`, `BREV`, `BFX` and `BFI` (R115, R116): a count of set bits, the number of leading
and of trailing zeros with 32 for 0, bit i at 31 - i, a field of w bits at pos moved down, and one put in its place. -/
def Obligations.BitFieldResults : Prop :=
  (∀ x : Word, (popCount x).toNat = ((List.range 32).filter fun i => x.getLsbD i).length) ∧
  (leadingZeros 0 = 32 ∧ trailingZeros 0 = 32) ∧
  (∀ x : Word, x ≠ 0 → ∃ n, n < 32 ∧ leadingZeros x = BitVec.ofNat 32 n ∧ x.getLsbD (31 - n) = true ∧ ∀ i, 31 - n < i → x.getLsbD i = false) ∧
  (∀ x : Word, x ≠ 0 → ∃ n, n < 32 ∧ trailingZeros x = BitVec.ofNat 32 n ∧ x.getLsbD n = true ∧ ∀ i, i < n → x.getLsbD i = false) ∧
  (∀ (x : Word) (i : Nat), i < 32 → (reverseBits x).getLsbD (31 - i) = x.getLsbD i) ∧
  (∀ (x ctl : Word) (i : Nat), i < 32 →
    let pos := ctl.toNat % 32
    let w := Nat.min (ctl.toNat / 256 % 64) (32 - pos)
    (extractField x ctl).getLsbD i = (decide (i < w) && x.getLsbD (pos + i))) ∧
  (∀ (old x ctl : Word) (i : Nat), i < 32 →
    let pos := ctl.toNat % 32
    let w := Nat.min (ctl.toNat / 256 % 64) (32 - pos)
    (insertField old x ctl).getLsbD i = if pos ≤ i ∧ i < pos + w then x.getLsbD (i - pos) else old.getLsbD i)

namespace Sys2Proof

/-- An instruction that writes one predicate and raises no flag: its gate, predicate, destination, nw, and the truth value that the rules
give in a thread, none where they make one of its operands illegal. -/
structure PredForm where
  instr : Instr
  gate : Gate
  pred : BitVec 3
  d : BitVec 6
  nw : Bool
  val : Thread → Option Bool

/-- The truth of a compare by its fn code (R44, R139) on the signed and the unsigned operands. -/
def intTruth (f : Nat) (x y : Int) (ux uy : Nat) : Bool :=
  if f = 0 ∨ f = 10 then decide (ux = uy)
  else if f = 1 ∨ f = 11 then decide (ux ≠ uy)
  else if f = 2 ∨ f = 12 then decide (x < y)
  else if f = 3 ∨ f = 13 then decide (x ≤ y)
  else if f = 4 then decide (y < x)
  else if f = 5 then decide (y ≤ x)
  else if f = 6 ∨ f = 14 then decide (ux < uy)
  else if f = 7 ∨ f = 15 then decide (ux ≤ uy)
  else if f = 8 then decide (uy < ux)
  else decide (uy ≤ ux)

/-- Two predicate sources (R38). -/
def predOf2 (a b : BitVec 6) (f : Bool → Bool → Bool) (th : Thread) : Option Bool :=
  match srcPred th a, srcPred th b with
  | some x, some y => some (f x y)
  | _, _ => none

/-- The Z6 feature's gate on the Z6 members (R388). -/
def z6Gate (on : Bool) : Gate := if on then ⟨some 1, 0, 0⟩ else ⟨none, 0, 0⟩

/-- The instructions of R139, R141 and R142 that write one predicate. -/
def predForms (d a b : BitVec 6) (nw : Bool) (p : BitVec 3) (f : BitVec 4) (z : BitVec 3) : List PredForm :=
  [⟨.cmpi d a b f nw p, freeGate, p, d, nw, fun th =>
     if f.toNat < 10 then
       match srcReg th a, srcReg th b with
       | some x, some y => some (intTruth f.toNat x.val.toInt y.val.toInt x.val.toNat y.val.toNat)
       | _, _ => none
     else
       match srcPair th a, srcPair th b with
       | some x, some y => some (intTruth f.toNat (bitsOf x).toInt (bitsOf y).toInt (bitsOf x).toNat (bitsOf y).toNat)
       | _, _ => none⟩,
   ⟨.cmpz d a b z nw p, z6Gate (decide (3 ≤ z.toNat)), p, d, nw, fun th =>
     match srcReg th a, srcReg th b with
     | some x, some y =>
       let u : Int := if z.toNat < 3 then (x.val.setWidth 8).toInt else (x.val.setWidth 6).toInt
       let v : Int := if z.toNat < 3 then (y.val.setWidth 8).toInt else (y.val.setWidth 6).toInt
       some (if z.toNat % 3 = 0 then decide (u = v) else if z.toNat % 3 = 1 then decide (u < v) else decide (u ≤ v))
     | _, _ => none⟩,
   ⟨.pand d a b nw p, freeGate, p, d, nw, predOf2 a b fun x y => x && y⟩,
   ⟨.por d a b nw p, freeGate, p, d, nw, predOf2 a b fun x y => x || y⟩,
   ⟨.pxor d a b nw p, freeGate, p, d, nw, predOf2 a b fun x y => x != y⟩,
   ⟨.pnot d a nw p, freeGate, p, d, nw, fun th => (srcPred th a).map fun x => !x⟩,
   ⟨.pmov d a nw p, freeGate, p, d, nw, fun th => srcPred th a⟩,
   ⟨.pset d a nw p, freeGate, p, d, nw, fun th => (srcReg th a).map fun x => decide (x.val ≠ 0)⟩]

end Sys2Proof

/-- Integer and tapered-format compares and the predicate operations write predicate d and make the latch invalid; nothing else
changes (R139, R141, R142, R102, R38, R40). -/
def Obligations.PredicateResults : Prop :=
  ∀ (d a b : BitVec 6) (nw : Bool) (p : BitVec 3) (f : BitVec 4) (z : BitVec 3), ∀ x ∈ predForms d a b nw p f z, ∀ s g, Issues s g →
    Lanes s g x.pred (fun th => LaneFree g x.gate th ∧ (x.val th).isSome = true ∧ dstPred x.d x.nw = true) →
    ∃ t, exec x.instr s = .next t ∧
      GroupResult s t g fun _ => LaneAfter g x.pred fun th th' =>
        ∃ v, x.val th = some v ∧ WrotePreds g (fun n => if n = x.d.toNat then some v else none) th th'

namespace Sys2Proof

/-- An instruction with a 32-bit result that may raise flags: its gate, predicate, destination, nw, whether it is a binary64
instruction, and the result with its flags in a thread, none where the rules make one of its source operands illegal. -/
structure FlagForm where
  instr : Instr
  gate : Gate
  pred : BitVec 3
  d : BitVec 6
  nw : Bool
  dbl : Bool
  val : Thread → Option (Dexel × Word)

/-- As `FlagForm` with a 64-bit result. -/
structure FlagPairForm where
  instr : Instr
  gate : Gate
  pred : BitVec 3
  d : BitVec 6
  nw : Bool
  dbl : Bool
  val : Thread → Option ((Dexel × Dexel) × Word)

/-- A result as a register value with its tangents, and its flags. -/
def flagged (r : DRes) : Dexel × Word := (dexelOf ⟨r.bits, r.tan⟩, r.flags)

/-- A result as a pair with its tangents split by R74, and its flags. -/
def flaggedPair (th : Thread) (r : DRes) : (Dexel × Dexel) × Word := (pairOf th ⟨r.bits, r.tan⟩, r.flags)

/-- A result of one register operand. -/
def fOf1 (a : BitVec 6) (f : Thread → Val → DRes) (th : Thread) : Option (Dexel × Word) :=
  (srcReg th a).map fun x => flagged (f th (valOf th x))

/-- A result of two register operands. -/
def fOf2 (a b : BitVec 6) (f : Thread → Val → Val → DRes) (th : Thread) : Option (Dexel × Word) :=
  match srcReg th a, srcReg th b with
  | some x, some y => some (flagged (f th (valOf th x) (valOf th y)))
  | _, _ => none

/-- A result of three register operands. -/
def fOf3 (a b c : BitVec 6) (f : Thread → Val → Val → Val → DRes) (th : Thread) : Option (Dexel × Word) :=
  match srcReg th a, srcReg th b, srcReg th c with
  | some x, some y, some z => some (flagged (f th (valOf th x) (valOf th y) (valOf th z)))
  | _, _, _ => none

/-- A result of one pair. -/
def dOf1 (a : BitVec 6) (f : Thread → Val → DRes) (th : Thread) : Option ((Dexel × Dexel) × Word) :=
  (srcPair th a).map fun x => flaggedPair th (f th (valOfPair th x))

/-- A result of two pairs. -/
def dOf2 (a b : BitVec 6) (f : Thread → Val → Val → DRes) (th : Thread) : Option ((Dexel × Dexel) × Word) :=
  match srcPair th a, srcPair th b with
  | some x, some y => some (flaggedPair th (f th (valOfPair th x) (valOfPair th y)))
  | _, _ => none

/-- A result of three pairs. -/
def dOf3 (a b c : BitVec 6) (f : Thread → Val → Val → Val → DRes) (th : Thread) : Option ((Dexel × Dexel) × Word) :=
  match srcPair th a, srcPair th b, srcPair th c with
  | some x, some y, some z => some (flaggedPair th (f th (valOfPair th x) (valOfPair th y) (valOfPair th z)))
  | _, _, _ => none

/-- A binary32 value rounded to an integral one in the mode that the word names, with zero tangents (R126). -/
def fOfRnd (a : BitVec 6) (m : BitVec 2) (th : Thread) : Option (Dexel × Word) :=
  match srcReg th a, modeSel th m with
  | some x, some rm => some (flagged (rndRes b32 rm (valOf th x)))
  | _, _ => none

/-- As `fOfRnd` in binary64. -/
def dOfRnd (a : BitVec 6) (m : BitVec 2) (th : Thread) : Option ((Dexel × Dexel) × Word) :=
  match srcPair th a, modeSel th m with
  | some x, some rm => some (flaggedPair th (rndRes b64 rm (valOfPair th x)))
  | _, _ => none

/-- The predicate of a word whose field accepts only always and `p0` (R35). -/
def shortPred (q : Bool) : BitVec 3 := if q then 0 else 7

/-- The binary32 instructions of R124-R128 and `DEXT` (R148), each with its result: the primal by the arithmetic of its rule, in `FCR.RM`
where R92 says so, the tangents by R76-R79. -/
def binary32Forms (d a b c : BitVec 6) (nw : Bool) (p : BitVec 3) (q : Bool) (m : BitVec 2) : List FlagForm :=
  let f1 (i : Instr) (f : Thread → Val → DRes) : FlagForm := ⟨i, freeGate, p, d, nw, false, fOf1 a f⟩
  let f2 (i : Instr) (f : Thread → Val → Val → DRes) : FlagForm := ⟨i, freeGate, p, d, nw, false, fOf2 a b f⟩
  let f3 (i : Instr) (f : Thread → Val → Val → Val → DRes) : FlagForm := ⟨i, freeGate, shortPred q, d, nw, false, fOf3 a b c f⟩
  [f2 (.fadd d a b nw p) fun th => dAdd b32 (tanFmt th) (modeOf th) th.lc.tcount,
   f2 (.fsub d a b nw p) fun th => dSub b32 (tanFmt th) (modeOf th) th.lc.tcount,
   f2 (.fmul d a b nw p) fun th => dMul b32 (tanFmt th) (modeOf th) th.lc.tcount,
   f2 (.fdiv d a b nw p) fun th => dDiv b32 (tanFmt th) (modeOf th) th.lc.tcount,
   f1 (.fsqrt d a nw p) fun th => dSqrt b32 (tanFmt th) (modeOf th) th.lc.tcount,
   f2 (.fmin d a b nw p) fun _ => dSelect b32 false false,
   f2 (.fmax d a b nw p) fun _ => dSelect b32 true false,
   f2 (.fminm d a b nw p) fun _ => dSelect b32 false true,
   f2 (.fmaxm d a b nw p) fun _ => dSelect b32 true true,
   f1 (.fabs d a nw p) fun th => dAbs b32 (tanFmt th) th.lc.tcount,
   f1 (.fneg d a nw p) fun th => dNeg b32 (tanFmt th) th.lc.tcount,
   f2 (.fcpys d a b nw p) fun th => dCopySign b32 (tanFmt th) th.lc.tcount,
   ⟨.frnd d a m nw p, freeGate, p, d, nw, false, fOfRnd a m⟩,
   f1 (.fclass d a nw p) fun _ x => ⟨fpClass b32 x.bits, [], 0⟩,
   f3 (.ffma d a b c nw q) fun th => dFma b32 (tanFmt th) (modeOf th) th.lc.tcount false false,
   f3 (.ffms d a b c nw q) fun th => dFma b32 (tanFmt th) (modeOf th) th.lc.tcount false true,
   f3 (.ffnma d a b c nw q) fun th => dFma b32 (tanFmt th) (modeOf th) th.lc.tcount true false,
   f2 (.dext d a b nw p) fun th => dExt (tanFmt th) (modeOf th) th.lc.tcount]

end Sys2Proof

/-- The binary32 instructions write their result and its tangents to the latch and, without nw, to d, and raise their flags in `FSR`,
where none of these traps; nothing else changes (R124-R128, R148; R65, R97, R98). -/
def Obligations.Binary32Results : Prop :=
  ∀ (d a b c : BitVec 6) (nw : Bool) (p : BitVec 3) (q : Bool) (m : BitVec 2), ∀ f ∈ binary32Forms d a b c nw p q m, ∀ s g, Issues s g →
    Lanes s g f.pred (fun th => LaneFree g f.gate th ∧ dstReg th f.d f.nw = true ∧ ∃ r, f.val th = some r ∧ NoFlagTrap th f.dbl r.2) →
    ∃ t, exec f.instr s = .next t ∧
      GroupResult s t g fun _ => LaneAfter g f.pred fun th th' =>
        ∃ r, f.val th = some r ∧ WroteReg g f.d f.nw r.1 { th with fsr := th.fsr ||| r.2 } th'

namespace Sys2Proof

/-- The packed binary16 instructions of R130, element by element, with the tangents of R83. -/
def binary16Forms (d a b c : BitVec 6) (nw : Bool) (p : BitVec 3) (q : Bool) : List FlagForm :=
  let f1 (i : Instr) (f : Thread → Val → DRes) : FlagForm := ⟨i, freeGate, p, d, nw, false, fOf1 a f⟩
  let f2 (i : Instr) (f : Thread → Val → Val → DRes) : FlagForm := ⟨i, freeGate, p, d, nw, false, fOf2 a b f⟩
  let f3 (i : Instr) (f : Thread → Val → Val → Val → DRes) : FlagForm := ⟨i, freeGate, shortPred q, d, nw, false, fOf3 a b c f⟩
  [f2 (.hadd2 d a b nw p) (packed2 fun th => dAdd b16 b16 (modeOf th) th.lc.tcount),
   f2 (.hsub2 d a b nw p) (packed2 fun th => dSub b16 b16 (modeOf th) th.lc.tcount),
   f2 (.hmul2 d a b nw p) (packed2 fun th => dMul b16 b16 (modeOf th) th.lc.tcount),
   f2 (.hmin2 d a b nw p) (packed2 fun _ => dSelect b16 false false),
   f2 (.hmax2 d a b nw p) (packed2 fun _ => dSelect b16 true false),
   f1 (.habs2 d a nw p) (packed1 fun th => dAbs b16 b16 th.lc.tcount),
   f1 (.hneg2 d a nw p) (packed1 fun th => dNeg b16 b16 th.lc.tcount),
   f3 (.hfma2 d a b c nw q) (packed3 fun th => dFma b16 b16 (modeOf th) th.lc.tcount false false)]

end Sys2Proof

/-- The packed binary16 instructions write both elements and the union of their flags (R130, R83, R97). -/
def Obligations.Binary16Results : Prop :=
  ∀ (d a b c : BitVec 6) (nw : Bool) (p : BitVec 3) (q : Bool), ∀ f ∈ binary16Forms d a b c nw p q, ∀ s g, Issues s g →
    Lanes s g f.pred (fun th => LaneFree g f.gate th ∧ dstReg th f.d f.nw = true ∧ ∃ r, f.val th = some r ∧ NoFlagTrap th f.dbl r.2) →
    ∃ t, exec f.instr s = .next t ∧
      GroupResult s t g fun _ => LaneAfter g f.pred fun th th' =>
        ∃ r, f.val th = some r ∧ WroteReg g f.d f.nw r.1 { th with fsr := th.fsr ||| r.2 } th'

namespace Sys2Proof

/-- The special functions of R133 and the tapered-format helpers of R137 and R138; the Z6 members need their feature (R388). -/
def specialForms (d a b : BitVec 6) (nw : Bool) (p : BitVec 3) : List FlagForm :=
  let f1 (i : Instr) (f : Thread → Val → DRes) : FlagForm := ⟨i, freeGate, p, d, nw, false, fOf1 a f⟩
  let f2 (i : Instr) (f : Thread → Val → Val → DRes) : FlagForm := ⟨i, freeGate, p, d, nw, false, fOf2 a b f⟩
  [f1 (.fexp2 d a nw p) fun th => dExp2 (tanFmt th) th.lc.tcount,
   f1 (.flog2 d a nw p) fun th => dLog2 (tanFmt th) th.lc.tcount,
   f1 (.fsin d a nw p) fun th => dSin (tanFmt th) th.lc.tcount,
   f1 (.fcos d a nw p) fun th => dCos (tanFmt th) th.lc.tcount,
   f1 (.frcp d a nw p) fun th => dRcp (tanFmt th) th.lc.tcount,
   f1 (.frsq d a nw p) fun th => dRsq (tanFmt th) th.lc.tcount,
   f1 (.ftanh d a nw p) fun th => dTanh (tanFmt th) th.lc.tcount,
   f2 (.zpackZ8 d a b nw p) (zpack z8),
   f1 (.zunpkZ8 d a nw p) (zunpack z8),
   ⟨.zpackZ6 d a b nw p, z6Gate true, p, d, nw, false, fOf2 a b (zpack z6)⟩,
   ⟨.zunpkZ6 d a nw p, z6Gate true, p, d, nw, false, fOf1 a (zunpack z6)⟩,
   f2 (.zscale d a b nw p) zscale]

end Sys2Proof

/-- The special functions and the tapered-format helpers write their result, its tangents and their flags (R133, R137, R138). -/
def Obligations.SpecialFunctionResults : Prop :=
  ∀ (d a b : BitVec 6) (nw : Bool) (p : BitVec 3), ∀ f ∈ specialForms d a b nw p, ∀ s g, Issues s g →
    Lanes s g f.pred (fun th => LaneFree g f.gate th ∧ dstReg th f.d f.nw = true ∧ ∃ r, f.val th = some r ∧ NoFlagTrap th f.dbl r.2) →
    ∃ t, exec f.instr s = .next t ∧
      GroupResult s t g fun _ => LaneAfter g f.pred fun th th' =>
        ∃ r, f.val th = some r ∧ WroteReg g f.d f.nw r.1 { th with fsr := th.fsr ||| r.2 } th'

namespace Sys2Proof

/-- The binary64 instructions of R124-R129 with a pair result, and the conversions of R134 to the codes 0, 8 and 9. -/
def doubleForms (d a b c : BitVec 6) (nw : Bool) (p : BitVec 3) (q : Bool) (m : BitVec 2) : List FlagPairForm :=
  let d1 (i : Instr) (f : Thread → Val → DRes) : FlagPairForm := ⟨i, freeGate, p, d, nw, true, dOf1 a f⟩
  let d2 (i : Instr) (f : Thread → Val → Val → DRes) : FlagPairForm := ⟨i, freeGate, p, d, nw, true, dOf2 a b f⟩
  let d3 (i : Instr) (f : Thread → Val → Val → Val → DRes) : FlagPairForm := ⟨i, freeGate, shortPred q, d, nw, true, dOf3 a b c f⟩
  [d2 (.dadd d a b nw p) fun th => dAdd b64 (tanFmt64 th) (modeOf th) th.lc.tcount,
   d2 (.dsub d a b nw p) fun th => dSub b64 (tanFmt64 th) (modeOf th) th.lc.tcount,
   d2 (.dmul d a b nw p) fun th => dMul b64 (tanFmt64 th) (modeOf th) th.lc.tcount,
   d2 (.ddiv d a b nw p) fun th => dDiv b64 (tanFmt64 th) (modeOf th) th.lc.tcount,
   d1 (.dsqrt d a nw p) fun th => dSqrt b64 (tanFmt64 th) (modeOf th) th.lc.tcount,
   d2 (.dmin d a b nw p) fun _ => dSelect b64 false false,
   d2 (.dmax d a b nw p) fun _ => dSelect b64 true false,
   d2 (.dminm d a b nw p) fun _ => dSelect b64 false true,
   d2 (.dmaxm d a b nw p) fun _ => dSelect b64 true true,
   d1 (.dabs d a nw p) fun th => dAbs b64 (tanFmt64 th) th.lc.tcount,
   d1 (.dneg d a nw p) fun th => dNeg b64 (tanFmt64 th) th.lc.tcount,
   d2 (.dcpys d a b nw p) fun th => dCopySign b64 (tanFmt64 th) th.lc.tcount,
   ⟨.drnd d a m nw p, freeGate, p, d, nw, true, dOfRnd a m⟩,
   d3 (.dfma d a b c nw q) fun th => dFma b64 (tanFmt64 th) (modeOf th) th.lc.tcount false false,
   d3 (.dfms d a b c nw q) fun th => dFma b64 (tanFmt64 th) (modeOf th) th.lc.tcount false true]

end Sys2Proof

/-- The binary64 instructions write their result and its tangents to the latch and, without nw, to the pair d, and raise their flags,
where none traps; without the binary64 trap feature none does (R124-R126, R128, R129; R74, R82). -/
def Obligations.DoubleResults : Prop :=
  ∀ (d a b c : BitVec 6) (nw : Bool) (p : BitVec 3) (q : Bool) (m : BitVec 2), ∀ f ∈ doubleForms d a b c nw p q m, ∀ s g, Issues s g →
    Lanes s g f.pred (fun th => LaneFree g f.gate th ∧ dstPair th f.d f.nw = true ∧ ∃ r, f.val th = some r ∧ NoFlagTrap th f.dbl r.2) →
    ∃ t, exec f.instr s = .next t ∧
      GroupResult s t g fun _ => LaneAfter g f.pred fun th th' =>
        ∃ r, f.val th = some r ∧ WrotePair g f.d f.nw r.1 { th with fsr := th.fsr ||| r.2 } th'

namespace Sys2Proof

/-- A conversion (R134, R135, R46): the source of code src read at its width, the destination code dst, the mode m; none where src is no
format, equals dst, names an illegal operand, or m is 3. The result comes with its flags. -/
def cvtOf (a : BitVec 6) (src dst : BitVec 4) (m : BitVec 2) (th : Thread) : Option (Val × Word) :=
  let x : Option Val := if src = 0 ∨ src = 8 ∨ src = 9 then (srcPair th a).map (valOfPair th) else (srcReg th a).map (valOf th)
  match x, modeSel th m with
  | some v, some rm =>
    if 9 < src.toNat ∨ src = dst then none
    else
      let r := convert (cvtFmt src.toNat) (cvtFmt dst.toNat) rm v.bits
      some (⟨r.bits, cvtTans th src.toNat dst.toNat v⟩, r.flags)
  | _, _ => none

end Sys2Proof

/-- A conversion writes its result to a register, or to a pair for the formats of codes 0, 8 and 9, with the tangents of R135, and
raises its flags; a conversion from or to binary64 is a binary64 instruction, one from or to Z6 needs that feature (R134, R135, R129). -/
def Obligations.ConversionResults : Prop :=
  ∀ (d a : BitVec 6) (src dst : BitVec 4) (m : BitVec 2) (nw : Bool) (p : BitVec 3) s g, Issues s g →
    Lanes s g p (fun th => LaneFree g (z6Gate (decide (src = 5 ∨ dst = 5))) th ∧
      (if dst = 0 ∨ dst = 8 ∨ dst = 9 then dstPair th d nw else dstReg th d nw) = true ∧
      ∃ r, cvtOf a src dst m th = some r ∧ NoFlagTrap th (decide (src = 0 ∨ dst = 0)) r.2) →
    ∃ t, exec (.cvt d a src m dst nw p) s = .next t ∧
      GroupResult s t g fun _ => LaneAfter g p fun th th' => ∃ r, cvtOf a src dst m th = some r ∧
        if dst = 0 ∨ dst = 8 ∨ dst = 9 then WrotePair g d nw (pairOf th r.1) { th with fsr := th.fsr ||| r.2 } th'
        else WroteReg g d nw (dexelOf r.1) { th with fsr := th.fsr ||| r.2 } th'

namespace Sys2Proof

/-- Slots 0 to T - 1 of a register, each by its number. -/
def slotsOf (th : Thread) (f : Nat → Word) : List Word := (List.range th.lc.tcount).map f

/-- The 32-bit uniform kernel value of index i: four launch bytes, little-endian, 0 beyond those supplied (R143). -/
def uniform (th : Thread) (i : Nat) : Word :=
  BitVec.ofNat 32 ((th.lc.kargs.getD (4 * i) 0).toNat + (th.lc.kargs.getD (4 * i + 1) 0).toNat * 2 ^ 8
    + (th.lc.kargs.getD (4 * i + 2) 0).toNat * 2 ^ 16 + (th.lc.kargs.getD (4 * i + 3) 0).toNat * 2 ^ 24)

/-- One signed half of a register. -/
def halfOfWord (x : Word) (high : Bool) : Int := if high then (x.extractLsb' 16 16 : BitVec 16).toInt else (x.setWidth 16 : BitVec 16).toInt

/-- Two halves, each modulo 2^16. -/
def halves (lo hi : Int) : Word := (BitVec.ofInt 16 hi : BitVec 16) ++ (BitVec.ofInt 16 lo : BitVec 16)

/-- The value clamped to -32768 … 32767 (R131). -/
def clamp16 (x : Int) : Int := if x < -32768 then -32768 else if 32767 < x then 32767 else x

/-- The packed 16-bit integer instructions of R131. -/
def halfForms (d a b : BitVec 6) (nw : Bool) (p : BitVec 3) : List RegForm :=
  let v (i : Instr) (f : Int → Int → Int) : RegForm := ⟨i, p, d, nw, intOf2 a b fun x y =>
    halves (f (halfOfWord x false) (halfOfWord y false)) (f (halfOfWord x true) (halfOfWord y true))⟩
  [v (.vaddH2 d a b nw p) fun x y => x + y,
   v (.vsubH2 d a b nw p) fun x y => x - y,
   v (.vaddsH2 d a b nw p) fun x y => clamp16 (x + y),
   v (.vsubsH2 d a b nw p) fun x y => clamp16 (x - y),
   v (.vmaxH2 d a b nw p) fun x y => if y ≤ x then x else y,
   v (.vminH2 d a b nw p) fun x y => if x ≤ y then x else y]

/-- The packed 16-bit integer instructions work on each signed half, wrapping or saturating (R131). -/
def HalfIntegerResults : Prop :=
  ∀ (d a b : BitVec 6) (nw : Bool) (p : BitVec 3), ∀ f ∈ halfForms d a b nw p, ∀ s g, Issues s g →
    Lanes s g f.pred (fun th => LaneFree g freeGate th ∧ (f.val th).isSome = true ∧ dstReg th f.d f.nw = true) →
    ∃ t, exec f.instr s = .next t ∧
      GroupResult s t g fun _ => LaneAfter g f.pred fun th th' => ∃ v, f.val th = some v ∧ WroteReg g f.d f.nw v th th'

/-- `ACS.H2` writes the survivors of its butterfly, ties keeping x, and shifts the two decisions into `SURV`, whatever its destination
is (R132). -/
def AcsResult : Prop :=
  ∀ (d a b : BitVec 6) (nw : Bool) (p : BitVec 3) s g, Issues s g →
    Lanes s g p (fun th => LaneFree g freeGate th ∧ (srcReg th a).isSome = true ∧ (srcReg th b).isSome = true ∧ dstReg th d nw = true) →
    ∃ t, exec (.acsH2 d a b nw p) s = .next t ∧
      GroupResult s t g fun _ => LaneAfter g p fun th th' => ∃ x y, srcReg th a = some x ∧ srcReg th b = some y ∧
        let m := halfOfWord y.val false
        let x0 := clamp16 (halfOfWord x.val false + m)
        let y0 := clamp16 (halfOfWord x.val true - m)
        let x1 := clamp16 (halfOfWord x.val false - m)
        let y1 := clamp16 (halfOfWord x.val true + m)
        WroteReg g d nw ⟨halves (if x0 < y0 then y0 else x0) (if x1 < y1 then y1 else x1), []⟩
          { th with surv := (th.surv <<< 2) ||| (if x1 < y1 then 2 else 0) ||| (if x0 < y0 then 1 else 0) } th'

end Sys2Proof

/-- The packed 16-bit integer instructions and `ACS.H2` (R131, R132). -/
def Obligations.PackedIntegerResults : Prop := HalfIntegerResults ∧ AcsResult

namespace Sys2Proof

/-- Moves, uniform values, the class of a binary64 value and the tangent instructions with a 32-bit result (R143, R127, R147). -/
def moveForms (d a : BitVec 6) (nw : Bool) (p : BitVec 3) (k : BitVec 3) : List RegForm :=
  [⟨.mov d a nw p, p, d, nw, fun th => srcReg th a⟩,
   ⟨.ldkW d a nw p, p, d, nw, fun th => some ⟨uniform th a.toNat, []⟩⟩,
   ⟨.dclass d a nw p, p, d, nw, fun th => (srcPair th a).map fun x => ⟨BitVec.ofNat 32 (fpClass b64 (valOfPair th x).bits), []⟩⟩,
   ⟨.tseed d a false k nw p, p, d, nw, fun th =>
     if k.toNat < th.lc.tcount then
       (srcReg th a).map fun x => ⟨x.val, slotsOf th fun i => if i = k.toNat then (if th.lc.t16 then 0x3C00 else 0x3F800000) else 0⟩
     else none⟩,
   ⟨.tget d a k nw p, p, d, nw, fun th =>
     if k.toNat < th.lc.tcount then
       (srcReg th a).map fun x => ⟨if th.lc.t16 then x.slot k.toNat &&& 0xFFFF else x.slot k.toNat, []⟩
     else none⟩,
   ⟨.tset d a k nw p, p, d, nw, fun th =>
     if k.toNat < th.lc.tcount then
       (srcReg th a).map fun x => ⟨(readReg th d.toNat).val, slotsOf th fun i =>
         if i = k.toNat then (if th.lc.t16 then x.val &&& 0xFFFF else x.val) else (readReg th d.toNat).slot i⟩
     else none⟩,
   ⟨.tzero d a false nw p, p, d, nw, fun th => (srcReg th a).map fun x => ⟨x.val, []⟩⟩,
   ⟨.tmov d a false nw p, p, d, nw, fun th => (srcReg th a).map fun x => ⟨(readReg th d.toNat).val, x.tan⟩⟩]

/-- Moves, uniform values and the 32-bit tangent instructions write their result, whose tangents R143 and R147 give (R143, R147, R127;
R73, R74 for the slots). -/
def MoveAndTangentResults : Prop :=
  ∀ (d a : BitVec 6) (nw : Bool) (p : BitVec 3) (k : BitVec 3), ∀ f ∈ moveForms d a nw p k, ∀ s g, Issues s g →
    Lanes s g f.pred (fun th => LaneFree g freeGate th ∧ (f.val th).isSome = true ∧ dstReg th f.d f.nw = true) →
    ∃ t, exec f.instr s = .next t ∧
      GroupResult s t g fun _ => LaneAfter g f.pred fun th th' => ∃ v, f.val th = some v ∧ WroteReg g f.d f.nw v th th'

/-- The slot that a kernel declares for a parameter code (R72). -/
def declaredSlot (th : Thread) (code : Nat) : Option Nat := (List.range th.lc.tcount).find? fun k => th.lc.params.getD k 0 == code

/-- The uniform pairs and the tangent instructions with a pair result (R143, R147, R149, R150). -/
def movePairForms (d a : BitVec 6) (nw : Bool) (p : BitVec 3) (k : BitVec 3) : List PairForm :=
  [⟨.ldkD d a nw p, p, d, nw, fun th => if a.toNat % 2 = 0 then some (⟨uniform th a.toNat, []⟩, ⟨uniform th (a.toNat + 1), []⟩) else none⟩,
   ⟨.tseed d a true k nw p, p, d, nw, fun th =>
     if k.toNat < th.lc.tcount then
       (srcPair th a).map fun x => pairOf th ⟨(bitsOf x).toNat,
         (List.range th.lc.tcount).map fun i => if i = k.toNat then (if th.lc.t16 then 0x3F800000 else 0x3FF0000000000000) else 0⟩
     else none⟩,
   ⟨.tzero d a true nw p, p, d, nw, fun th => (srcPair th a).map fun x => plainOf (bitsOf x)⟩,
   ⟨.tmov d a true nw p, p, d, nw, fun th => (srcPair th a).map fun x =>
     (⟨(readReg th d.toNat).val, x.1.tan⟩, ⟨if nw then 0 else (readReg th (d.toNat + 1)).val, x.2.tan⟩)⟩,
   ⟨.foot d a nw p, p, d, nw, fun th =>
     match srcPair th a, declaredSlot th 1, declaredSlot th 2 with
     | some x, some kx, some ky =>
       let r := footprint (tanFmt th) (slotBits th x.1 kx) (slotBits th x.2 kx) (slotBits th x.1 ky) (slotBits th x.2 ky)
       some (⟨BitVec.ofNat 32 r.1, []⟩, ⟨BitVec.ofNat 32 r.2, []⟩)
     | _, _, _ => none⟩,
   ⟨.motv d a nw p, p, d, nw, fun th =>
     match srcPair th a, declaredSlot th 3 with
     | some x, some j =>
       let v (y : Dexel) : Dexel :=
         ⟨BitVec.ofNat 32 (if th.lc.t16 then (fpConvert b16 b32 .rne (slotBits th y j)).bits else slotBits th y j), []⟩
       some (v x.1, v x.2)
     | _, _ => none⟩]

/-- `LDK.d` and the tangent instructions on pairs write theirs: `FOOT` the footprint from the slots SX and SY, `MOTV` the slot TIME
(R143, R147, R149, R150). -/
def PairMoveAndTangentResults : Prop :=
  ∀ (d a : BitVec 6) (nw : Bool) (p : BitVec 3) (k : BitVec 3), ∀ f ∈ movePairForms d a nw p k, ∀ s g, Issues s g →
    Lanes s g f.pred (fun th => LaneFree g freeGate th ∧ (f.val th).isSome = true ∧ dstPair th f.d f.nw = true) →
    ∃ t, exec f.instr s = .next t ∧
      GroupResult s t g fun _ => LaneAfter g f.pred fun th th' => ∃ v, f.val th = some v ∧ WrotePair g f.d f.nw v th th'

end Sys2Proof

/-- Moves, uniform values and the tangent instructions, on registers and on pairs (R143, R147, R149, R150, R127, R73, R74). -/
def Obligations.MoveResults : Prop := MoveAndTangentResults ∧ PairMoveAndTangentResults

namespace Sys2Proof

/-- Floating-point compares write their predicates by R140 and R141 and raise NV, where that does not trap: `CMPF`, `CMPD`, and
`CMPH2` element 0 to predicate d and element 1 to d + 1 (R140, R141, R129, R98). -/
def FloatCompareResults : Prop :=
  ∀ (d a b : BitVec 6) (f : BitVec 4) (h : BitVec 3) (nw : Bool) (p : BitVec 3) s g, Issues s g →
    (Lanes s g p (fun th => LaneFree g freeGate th ∧ dstPred d nw = true ∧ ∃ x y, srcReg th a = some x ∧ srcReg th b = some y ∧
        NoFlagTrap th false (fpCompare b32 f.toNat x.val.toNat y.val.toNat).2) →
      ∃ t, exec (.cmpf d a b f nw p) s = .next t ∧
        GroupResult s t g fun _ => LaneAfter g p fun th th' => ∃ x y, srcReg th a = some x ∧ srcReg th b = some y ∧
          let r := fpCompare b32 f.toNat x.val.toNat y.val.toNat
          WrotePreds g (fun n => if n = d.toNat then some r.1 else none) { th with fsr := th.fsr ||| r.2 } th') ∧
    (Lanes s g p (fun th => LaneFree g freeGate th ∧ dstPred d nw = true ∧ ∃ x y, srcPair th a = some x ∧ srcPair th b = some y ∧
        NoFlagTrap th true (fpCompare b64 f.toNat (bitsOf x).toNat (bitsOf y).toNat).2) →
      ∃ t, exec (.cmpd d a b f nw p) s = .next t ∧
        GroupResult s t g fun _ => LaneAfter g p fun th th' => ∃ x y, srcPair th a = some x ∧ srcPair th b = some y ∧
          let r := fpCompare b64 f.toNat (bitsOf x).toNat (bitsOf y).toNat
          WrotePreds g (fun n => if n = d.toNat then some r.1 else none) { th with fsr := th.fsr ||| r.2 } th') ∧
    (Lanes s g p (fun th => LaneFree g freeGate th ∧ d.toNat ≤ 5 ∧ (nw = true → d = 0) ∧
        ∃ x y, srcReg th a = some x ∧ srcReg th b = some y ∧
          let fn := if h = 6 then 12 else if h = 7 then 13 else h.toNat
          NoFlagTrap th false ((fpCompare b16 fn (x.val.toNat % 2 ^ 16) (y.val.toNat % 2 ^ 16)).2 |||
            (fpCompare b16 fn (x.val.toNat / 2 ^ 16) (y.val.toNat / 2 ^ 16)).2)) →
      ∃ t, exec (.cmph2 d a b h nw p) s = .next t ∧
        GroupResult s t g fun _ => LaneAfter g p fun th th' => ∃ x y, srcReg th a = some x ∧ srcReg th b = some y ∧
          let fn := if h = 6 then 12 else if h = 7 then 13 else h.toNat
          let r0 := fpCompare b16 fn (x.val.toNat % 2 ^ 16) (y.val.toNat % 2 ^ 16)
          let r1 := fpCompare b16 fn (x.val.toNat / 2 ^ 16) (y.val.toNat / 2 ^ 16)
          WrotePreds g (fun n => if n = d.toNat then some r0.1 else if n = d.toNat + 1 then some r1.1 else none)
            { th with fsr := th.fsr ||| (r0.2 ||| r1.2) } th')

/-- The truth of a floating-point compare (R140): each code by the order of the two values, unordered operands by its row, and NV
for a signalling NaN, or for any NaN with the codes 2 to 5. -/
def FloatCompareTruth : Prop :=
  ∀ (fm : IeeeFmt) (f a b : Nat), f ≤ 13 →
    (fpCompare fm f a b).1 =
      (match fcmp (fval fm a) (fval fm b) with
       | none => decide (6 ≤ f ∧ f ≠ 12)
       | some o =>
         if f = 0 ∨ f = 6 then decide (o = .eq)
         else if f = 1 ∨ f = 7 then decide (o ≠ .eq)
         else if f = 2 ∨ f = 8 then decide (o = .lt)
         else if f = 3 ∨ f = 9 then decide (o ≠ .gt)
         else if f = 4 ∨ f = 10 then decide (o = .gt)
         else if f = 5 ∨ f = 11 then decide (o ≠ .lt)
         else decide (f = 12)) ∧
    (fpCompare fm f a b).2 =
      (if isSNaN fm a = true ∨ isSNaN fm b = true ∨ ((isNaN fm a = true ∨ isNaN fm b = true) ∧ 2 ≤ f ∧ f ≤ 5) then 1 else 0)

end Sys2Proof

/-- Floating-point compares: the predicates that they write, and the truth of each code (R140, R141, R129, R98). -/
def Obligations.FloatComparisons : Prop := FloatCompareResults ∧ FloatCompareTruth

namespace Sys2Proof

/-- A 32-bit special register's value as `SRD` writes it: zero tangents (R62). -/
def w32 (x : Word) : Dexel × Dexel := (⟨x, []⟩, Dexel.zero)

/-- The registers of a trap record, from number n on (R57, R144, R189): cause, pc, val, word, the two fields, the clause, validity and
widths of the latches, the latches themselves. -/
def recordTable (n : Nat) (r : TrapRec) : List (Nat × (Dexel × Dexel)) :=
  let l (x : Latch) : Dexel × Dexel := if x.valid then (x.lo, if x.wide then x.hi else Dexel.zero) else (Dexel.zero, Dexel.zero)
  let v (b : Bool) (k : Nat) : Nat := if b then 2 ^ k else 0
  [(n, w32 r.cause), (n + 1, plainOf r.pc), (n + 2, plainOf r.val), (n + 3, w32 r.word), (n + 4, w32 r.fld0), (n + 5, w32 r.fld1),
   (n + 6, plainOf r.cla),
   (n + 7, w32 (BitVec.ofNat 32 (v r.lats.l0.valid 0 + v r.lats.l1.valid 1 + v r.lats.l2.valid 2 + v r.lats.l3.valid 3
     + v r.lats.l0.wide 4 + v r.lats.l1.wide 5 + v r.lats.l2.wide 6 + v r.lats.l3.wide 7))),
   (n + 8, l r.lats.l0), (n + 9, l r.lats.l1), (n + 10, l r.lats.l2), (n + 11, l r.lats.l3)]

/-- The trap record of the level that a thread is at: zeros at level 0 (R61). -/
def recordInForce (th : Thread) : TrapRec := if th.level = 1 then th.rec1 else if th.level = 2 then th.rec2 else TrapRec.zero

/-- The loop counter of depth k, the outermost open loop first: 0 with no loop open there (R68). -/
def loopCounter (th : Thread) (k : Nat) : Word := ((th.loops.reverse)[k]?.map (·.lc)).getD 0

/-- The special registers of R144 by number, as read in thread u: cores are numbered by die, cluster and core, threads by core, slot and
lane. -/
def specialTable (s : State) (u : Nat) (th : Thread) : List (Nat × (Dexel × Dexel)) :=
  let n (x : Nat) := w32 (BitVec.ofNat 32 x)
  [(0, n (u % 64)), (1, n (u / 64 % 16)), (2, n th.lc.crew), (3, w32 th.lc.coh.1), (4, w32 th.lc.coh.2.1), (5, w32 th.lc.coh.2.2),
   (6, w32 th.lc.grid.1), (7, w32 th.lc.grid.2.1), (8, w32 th.lc.grid.2.2), (9, n th.lc.stage), (10, n (u / 1024 % 32)),
   (11, n (u / 32768 % 12)), (12, n (u / 393216)), (13, plainOf (BitVec.ofNat 64 s.span)), (14, plainOf (BitVec.ofNat 64 th.wct)),
   (15, w32 th.fcr), (16, w32 th.fsr), (17, n (th.lc.tcount + (if th.lc.t16 then 16 else 0) + 256 * th.lc.ndecl)), (18, w32 th.sp),
   (19, w32 th.slim), (20, w32 (loopCounter th 0)), (21, w32 (loopCounter th 1)), (22, w32 (loopCounter th 2)), (23, w32 th.surv),
   (24, plainOf th.thandler), (25, n th.level)] ++ recordTable 26 (recordInForce th)

/-- The privileged special registers of R189 by number. -/
def privilegedTable (th : Thread) : List (Nat × (Dexel × Dexel)) :=
  [(40, plainOf th.shandler), (41, w32 (BitVec.ofNat 32 th.lc.asid))] ++ recordTable 42 th.rec1
    ++ [(54, plainOf th.ksave0), (55, plainOf th.ksave1), (56, plainOf th.stkbase)]

/-- The special registers of 64 bits (R144, R189): they move through pairs (R62). -/
def wideSpecials : List Nat := [13, 14, 24, 27, 28, 32, 34, 35, 36, 37, 40, 43, 44, 48, 50, 51, 52, 53, 54, 55, 56]

/-- `SRD` reads every special register of R144 into d, or into the pair d for one of 64 bits, and `SRDP`, at level 2, those and the ones
of R189; nothing else changes (R143, R144, R189, R61, R62, R57). -/
def SpecialRegisterReads : Prop :=
  ∀ (d b : BitVec 6) (nw : Bool) (p : BitVec 3) s g, Issues s g →
    ∀ i ∈ [(Instr.srd d b nw p, 0, fun (u : Nat) (th : Thread) => specialTable s u th),
           (Instr.srdp d b nw p, 2, fun (u : Nat) (th : Thread) => specialTable s u th ++ privilegedTable th)],
      LanesAt s g p (fun u th => LaneFree g ⟨none, i.2.1, 0⟩ th ∧ (getK (i.2.2 u th) b.toNat).isSome = true ∧
        (if b.toNat ∈ wideSpecials then dstPair th d nw else dstReg th d nw) = true) →
      ∃ t, exec i.1 s = .next t ∧
        GroupResult s t g fun u => LaneAfter g p fun th th' => ∃ v, getK (i.2.2 u th) b.toNat = some v ∧
          if b.toNat ∈ wideSpecials then WrotePair g d nw v th th' else WroteReg g d nw v.1 th th'

/-- A latch whose validity and width bits are set to those of `TLATV` (R57): a latch of 32 bits has a zero high word. -/
def latchSet (l : Latch) (valid wide : Bool) : Latch := ⟨valid, wide, l.lo, if wide then l.hi else Dexel.zero⟩

/-- A trap record with its register of place k written from a register or pair (R57); none where the value is illegal. -/
def recordWritten (r : TrapRec) (k : Nat) (x : Dexel × Dexel) : Option TrapRec :=
  let v := x.1.val
  let put (l : Latch) : Latch := ⟨true, l.wide, x.1, if l.wide then x.2 else Dexel.zero⟩
  match k with
  | 0 => some { r with cause := v }
  | 1 => some { r with pc := bitsOf x }
  | 2 => some { r with val := bitsOf x }
  | 3 => some { r with word := v }
  | 4 => some { r with fld0 := v }
  | 5 => some { r with fld1 := v }
  | 6 => some { r with cla := bitsOf x }
  | 7 => if v.toNat < 256 then
      some { r with lats := ⟨latchSet r.lats.l0 (v.getLsbD 0) (v.getLsbD 4), latchSet r.lats.l1 (v.getLsbD 1) (v.getLsbD 5),
        latchSet r.lats.l2 (v.getLsbD 2) (v.getLsbD 6), latchSet r.lats.l3 (v.getLsbD 3) (v.getLsbD 7)⟩ } else none
  | 8 => some { r with lats := { r.lats with l0 := put r.lats.l0 } }
  | 9 => some { r with lats := { r.lats with l1 := put r.lats.l1 } }
  | 10 => some { r with lats := { r.lats with l2 := put r.lats.l2 } }
  | 11 => some { r with lats := { r.lats with l3 := put r.lats.l3 } }
  | _ => none

/-- The open loops with the counter of depth k written; the innermost loop stands first (R68, R145). -/
def loopsWritten (ls : List Loop) (k : Nat) (w : Word) : List Loop :=
  (ls.reverse.zipIdx.map fun e => if e.2 = k then { e.1 with lc := w } else e.1).reverse

/-- A thread with special register n written by `SWR`; none where R61, R64, R65 or R67 refuse the write or its value. -/
def specialWritten (th : Thread) (n : Nat) (x : Dexel × Dexel) : Option Thread :=
  let v := x.1.val
  if n = 15 then (if v.toNat < 256 ∧ v.toNat % 8 ≤ 4 then some { th with fcr := v } else none)
  else if n = 16 then (if v.toNat < 128 then some { th with fsr := v } else none)
  else if n = 18 then (if v.toNat % 16 = 0 ∧ th.slim.toNat ≤ v.toNat then some { th with sp := v } else none)
  else if n = 19 then (if th.level = 0 then none else some { th with slim := v })
  else if n = 20 ∨ n = 21 ∨ n = 22 then some { th with loops := loopsWritten th.loops (n - 20) v }
  else if n = 23 then some { th with surv := v }
  else if n = 24 then some { th with thandler := bitsOf x }
  else if 26 ≤ n ∧ n ≤ 37 ∧ th.level = 1 then (recordWritten th.rec1 (n - 26) x).map fun r => { th with rec1 := r }
  else if 26 ≤ n ∧ n ≤ 37 ∧ th.level = 2 then (recordWritten th.rec2 (n - 26) x).map fun r => { th with rec2 := r }
  else none

/-- A thread with special register n written by `SWRP` (R189). -/
def privilegedWritten (th : Thread) (n : Nat) (x : Dexel × Dexel) : Option Thread :=
  if n = 40 then some { th with shandler := bitsOf x }
  else if 42 ≤ n ∧ n ≤ 53 then (recordWritten th.rec1 (n - 42) x).map fun r => { th with rec1 := r }
  else if n = 54 then some { th with ksave0 := bitsOf x }
  else if n = 55 then some { th with ksave1 := bitsOf x }
  else specialWritten th n x

/-- The source of a special register's write: a pair for one of 64 bits (R62). -/
def specialSource (th : Thread) (a : BitVec 6) (n : Nat) : Option (Dexel × Dexel) :=
  if n ∈ wideSpecials then srcPair th a else (srcReg th a).map fun x => (x, Dexel.zero)

/-- `SWR` writes a special register that the level may write, and `SWRP`, at level 2, those and the ones of R189; the latch of the word
becomes invalid and nothing else changes (R143, R144, R145, R189, R57, R61, R62, R64, R65, R67, R68). -/
def SpecialRegisterWrites : Prop :=
  ∀ (a b : BitVec 6) (nw : Bool) (p : BitVec 3) s g, Issues s g →
    ∀ i ∈ [(Instr.swr a b nw p, 0, specialWritten), (Instr.swrp a b nw p, 2, privilegedWritten)],
      Lanes s g p (fun th => LaneFree g ⟨none, i.2.1, 0⟩ th ∧
        ∃ x, specialSource th a b.toNat = some x ∧ (i.2.2 th b.toNat x).isSome = true) →
      ∃ t, exec i.1 s = .next t ∧
        GroupResult s t g fun _ => LaneAfter g p fun th th' =>
          ∃ x y, specialSource th a b.toNat = some x ∧ i.2.2 th b.toNat x = some y ∧ Skipped g y th'

end Sys2Proof

/-- Special registers read and written, at the level that may (R143, R144, R145, R189, R57, R61, R62, R64, R65, R67, R68). -/
def Obligations.SpecialRegisterAccess : Prop := SpecialRegisterReads ∧ SpecialRegisterWrites

namespace Sys2Proof

/-- `NOP` changes nothing but the latch and the pc, `YIELD` also ranks the thread's entry last (R173, R33); `HIST` counts one bin up to
0xFFFF, an index past the bins changing
nothing (R228; a kernel has at most 60 registers, R28, so that d + n is at most 60). -/
def PlainLaneResults : Prop :=
  ∀ (d a b : BitVec 6) (nw : Bool) (p : BitVec 3) s g, Issues s g →
    (Lanes s g p (LaneFree g freeGate) →
      (∃ t, exec (.nop nw p) s = .next t ∧ GroupResult s t g fun _ => LaneAfter g p (Skipped g)) ∧
      (∃ t, exec (.yield nw p) s = .next t ∧
        GroupResult s t g fun _ => LaneAfter g p fun th th' => Skipped g { th with yielded := true } th')) ∧
    (Lanes s g p (fun th => LaneFree g freeGate th ∧ (srcReg th a).isSome = true ∧ nw = false ∧ 1 ≤ b.toNat ∧ b.toNat ≤ 32 ∧
        1 ≤ d.toNat ∧ d.toNat + b.toNat - 1 < th.lc.regs ∧ d.toNat + b.toNat ≤ 60) →
      ∃ t, exec (.hist d a b nw p) s = .next t ∧
        GroupResult s t g fun _ => LaneAfter g p fun th th' => ∃ x, srcReg th a = some x ∧
          if x.val.toNat < 2 * b.toNat then
            let n := d.toNat + x.val.toNat / 2
            let r := (readReg th n).val
            let bin : BitVec 16 := if x.val.toNat % 2 = 1 then r.extractLsb' 16 16 else r.setWidth 16
            let new : BitVec 16 := if bin = 0xFFFF then bin else bin + 1
            WroteReg g (BitVec.ofNat 6 n) false
              ⟨if x.val.toNat % 2 = 1 then new ++ (r.setWidth 16 : BitVec 16) else (r.extractLsb' 16 16 : BitVec 16) ++ new, []⟩ th th'
          else Skipped g th th')

/-- The state after `OSMX` or `OSMXF` (R230, R83), from the pair d and the state folded in. -/
def foldOf (one : Bool) (d : BitVec 6) (m2 s2 : Thread → Option Val) (th : Thread) : Option ((Dexel × Dexel) × Word) :=
  match srcPair th d, m2 th, s2 th with
  | some st, some m, some v =>
    let r := osmxFold (tanFmt th) th.lc.tcount one (valOf th st.1) (valOf th st.2) m v
    some ((dexelOf r.1, dexelOf r.2.1), r.2.2)
  | _, _, _ => none

/-- `OSMX` and `OSMXF` write the folded maximum and sum to pair d with their tangents and flags (R230, R83, R97, R98). -/
def SoftmaxResults : Prop :=
  ∀ (d a : BitVec 6) (nw : Bool) (p : BitVec 3) s g, Issues s g →
    ∀ i ∈ [(Instr.osmx d a nw p, foldOf true d (fun th => (srcReg th a).map (valOf th)) fun _ => some ⟨0x3F800000, []⟩),
           (Instr.osmxf d a nw p, foldOf false d (fun th => (srcPair th a).map fun x => valOf th x.1) fun th => (srcPair th a).map fun x => valOf th x.2)],
      Lanes s g p (fun th => LaneFree g freeGate th ∧ dstPair th d nw = true ∧ ∃ r, i.2 th = some r ∧ NoFlagTrap th false r.2) →
      ∃ t, exec i.1 s = .next t ∧
        GroupResult s t g fun _ => LaneAfter g p fun th th' =>
          ∃ r, i.2 th = some r ∧ WrotePair g d nw r.1 { th with fsr := th.fsr ||| r.2 } th'

end Sys2Proof

/-- `NOP`, `YIELD`, `HIST`, `OSMX` and `OSMXF` (R173, R33, R228, R230). -/
def Obligations.LaneStateResults : Prop := PlainLaneResults ∧ SoftmaxResults

namespace Sys2Proof

/-- The address of the word that a group issues. -/
def wordAddr (g : Group) : DWord := g.cla + BitVec.ofNat 64 (4 * (g.idx + 1))

/-- The trap record at the word that a group issues (R52, R55-R57, R183): cause code and level, the word's address, `TVAL`, the word and
its fields, the clause, and the latches whole, but for the word's own after a decode fault, a floating-point trap, `TRAP` and `BRK`
(R57, R98, R40; log 45). -/
def recordAt (g : Group) (th : Thread) (code : Nat) (val : DWord) : TrapRec :=
  let w := g.code.getD g.idx 0
  ⟨BitVec.ofNat 32 (code + th.level * 256), wordAddr g, val, w, tfld0 w, tfld1 w, g.cla,
    if code ∈ [1, 2, 3, 4, 5, 0x0F, 0x10] then th.lats.set (g.idx % 4) Latch.invalid else th.lats⟩

/-- The level that an exception enters and its handler (R183): level 1 at `THANDLER` from level 0, else level 2 at `SHANDLER`; none halts the
core. -/
def handlerOf (th : Thread) : Option (Nat × DWord) :=
  if th.level = 0 ∧ th.thandler ≠ 0 then some (1, th.thandler)
  else if th.level ≤ 1 ∧ th.shandler ≠ 0 then some (2, th.shandler)
  else none

/-- A thread that has entered level l at handler h with a record: its registers, predicates, `FCR`, `SP`, `SLIM` and loops stay, and so
does `FSR` but for the flags of a floating-point trap (R183, R98). -/
def entered (s : State) (th : Thread) (flags : Word) (r : TrapRec) (l : Nat) (h : DWord) : Thread :=
  { th with
    fsr := th.fsr ||| flags
    rec1 := if l = 1 then r else th.rec1
    rec2 := if l = 2 then r else th.rec2
    level := l, pc := h, cla := h, lats := noLatches, wait := none, answers := [], cocoon := none, status := .ready, since := s.span }

/-- The open clauses after a lane, its group's only one, left a group that goes on. -/
def emptied (s : State) (g : Group) : List Group := s.opens.set s.cur { g with members := [], idx := g.idx + 1 }

/-- `TRAP` and `BRK` enter their handler: the record of the level entered, `TLEVEL` and the pc as R183 says, cause 0x0F with register a
and cause 0x10 with the code; with no handler `TRAP` halts the core and starts a core dump (R183, R188, R173, R52, R55, R57, R205, R382). -/
def TrapEntry : Prop :=
  ∀ (a : BitVec 6) (nw : Bool) (p : BitVec 3) s g u th, Alone s g freeGate p u th →
    (∀ l h x, handlerOf th = some (l, h) → srcReg th a = some x →
      ∃ t, exec (.trap a nw p) s = .next t ∧
        Left s t u (entered s th 0 (recordAt g th 0x0F (x.val.setWidth 64)) l h) (fun _ => true) (emptied s g)) ∧
    (∀ l h, handlerOf th = some (l, h) → s.session ≠ some th.lc.asid →
      ∃ t, exec (.brk a nw p) s = .next t ∧
        Left s t u (entered s th 0 (recordAt g th 0x10 (a.setWidth 64)) l h) (fun _ => true) (s.opens.eraseIdx s.cur)) ∧
    (∀ x, handlerOf th = none → srcReg th a = some x →
      ∃ t, exec (.trap a nw p) s = .next t ∧ u / 1024 ∈ t.halted ∧
        (∃ d ∈ t.dumps, d.die = u / 1024 / 384 ∧ d.asid = th.lc.asid) ∧
        Moved s t u { th with status := .parked, pc := wordAddr g, cla := g.cla } (fun _ => true) ∧
        t = { s with threads := t.threads, deferrals := t.deferrals, opens := emptied s g, halted := t.halted, dumps := t.dumps })

/-- What an instruction raises is taken as R183 says: Illegal Operand by the integer instructions, Poison by one that consumes a poisoned
register or latch, an enabled flag by the binary32 instructions, and Illegal Instruction by an instruction of a level that the thread
has not reached; that Poison comes after the other traps of one instruction is the model's choice, log 16 (R41, R42, R45, R51, R52, R56, R98, R183, R189, R384). -/
def LaneTraps : Prop :=
  ∀ (d a b c : BitVec 6) (nw : Bool) (p : BitVec 3) (q : Bool) (i12 : BitVec 12) (i20 : BitVec 20) (amount : BitVec 5) (m : BitVec 2)
    s g u th l h, Issues s g → g.members = [u] → getThread s u = some th → handlerOf th = some (l, h) →
    let w := g.code.getD g.idx 0
    let traps (i : Instr) (flags : Word) (code : Nat) (val : DWord) : Prop :=
      ∃ t, exec i s = .next t ∧ Left s t u (entered s th flags (recordAt g th code val) l h) (fun _ => true) (emptied s g)
    (∀ f ∈ intForms d a b c nw p q i12 i20 amount, readPred th f.pred.toNat = true →
      ((f.val th = none ∨ dstReg th f.d f.nw = false) → traps f.instr 0 0x02 (immediateOf w)) ∧
      (∀ n, (f.val th).isSome = true → dstReg th f.d f.nw = true → poisonedSource th w = some n →
        traps f.instr 0 0x0B (BitVec.ofNat 64 (2 ^ 63 + n)))) ∧
    (∀ f ∈ binary32Forms d a b c nw p q m, ∀ r, readPred th f.pred.toNat = true → dstReg th f.d f.nw = true → f.val th = some r →
      ¬ NoFlagTrap th f.dbl r.2 → traps f.instr r.2 0x05 ((r.2 &&& 31).setWidth 64)) ∧
    (∀ i ∈ [(Instr.srdp d b nw p, 2), (Instr.swrp a b nw p, 2), (Instr.eret nw p, 1)],
      readPred th p.toNat = true → th.level < i.2 → traps i.1 0 0x01 (immediateOf w)) ∧
    (readPred th p.toNat = true → th.level < 2 → ∃ t, exec (.halt a nw p) s = .next (settleCrews t [u / 64]) ∧
      Left s t u (entered s th 0 (recordAt g th 0x01 (immediateOf w)) l h) (fun _ => true) (emptied s g))

end Sys2Proof

/-- `TRAP` and `BRK`, and what other instructions raise, enter their handler (R183, R188, R41, R42, R45, R51, R52, R55-R57, R98, R384; the order of Poison is log 16, the latches recorded log 45). -/
def Obligations.TrapsAreTaken : Prop := TrapEntry ∧ LaneTraps

namespace Sys2Proof

/-- The clauses that a thread's loop buffer keeps with some loops open (R8, R177): those that lie in an open loop, while the loops together span
at most 256 words. -/
def keptClauses (buf : Map (List Word)) (loops : List Loop) : Map (List Word) :=
  buf.filter fun e => loops.any (insideLoop · (BitVec.ofNat 64 e.1)) && decide (loopSpan loops ≤ 256)

/-- A thread that stands at a clause boundary after the word of its group (R202, R33): the latches are lost. -/
def stands (s : State) (g : Group) (th : Thread) (addr : DWord) (loops : List Loop) : Thread :=
  { th with
    pc := addr, cla := addr, loops := loops, loopBuf := keptClauses th.loopBuf loops, answers := [], lats := noLatches, poison := th.poison.filter (· != 60 + g.idx % 4), wait := none
    stopReq := false, yielded := th.yielded || g.hdr.yields, status := .ready, since := s.span }

/-- The address after the clause of a group. -/
def nextAddr (g : Group) : DWord := g.cla + BitVec.ofNat 64 (4 * (g.code.length + 1))

/-- The end check of R175 at an address, the innermost loop first: the loops that stay open and the pc. -/
def endCheck : List Loop → DWord → List Loop × DWord
  | [], e => ([], e)
  | l :: ls, e =>
    if l.stop = e then (if l.lc = 0 then endCheck ls e else ({ l with lc := l.lc - 1 } :: ls, l.start)) else (l :: ls, e)

/-- The loops left open by a taken transfer (R176), outermost first: one whose body the target lies outside closes, and so do all in
it. -/
def keptLoops (ls : List Loop) (addr : DWord) : List Loop :=
  ((ls.reverse).takeWhile fun l => decide (l.start.toNat ≤ addr.toNat) && decide (addr.toNat < l.stop.toNat)).reverse

/-- The thread fell through into an address (R175). -/
def FellThrough (s t : State) (g : Group) (u : Nat) (th : Thread) (addr : DWord) (opens : List Group) : Prop :=
  let r := endCheck th.loops addr
  Left s t u (stands s g th r.2 r.1) (fun d => decide (d.join = r.2)) opens

end Sys2Proof

/-- `BRX`, `CALLI`, `CALL` and `RET` in a thread: a target that is a clause header is where it stands; a transfer of `BRX` closes the loops
that it leaves; a call writes its frame, the address of the next clause and `SP`, below `SP`, a return reads it and takes Stack Overflow where the
new `SP` lies below `SLIM`; a thread whose predicate is false falls through (R67, R169-R171, R175, R176, R202, R205, R428). That a call whose frame
lies beyond `STACK` writes nothing and goes on is the model's choice (log 51), and so is what a transfer to a fetch fault does (log 24). -/
def Obligations.TransferResults : Prop :=
  ∀ (a : BitVec 6) (nw : Bool) (p : BitVec 3) (off : BitVec 26) s g u th,
    let closed : State := { s with opens := s.opens.eraseIdx s.cur }
    let framed := writeWindow closed u (th.sp.toNat - 16) (toBytes 8 (wordAddr g + 4).toNat ++ toBytes 8 th.sp.toNat)
    let callTo (i : Instr) (addr : DWord) : Prop :=
      HeaderAt s (u / 1024) th.lc.asid addr → th.slim.toNat + 16 ≤ th.sp.toNat →
      let r := if th.sp.toNat ≤ th.lc.stack then framed else closed
      ∃ t th1, exec i s = .next t ∧ getThread r u = some th1 ∧
        Left r t u { stands s g th1 addr th1.loops with sp := th.sp - 16 } (fun d => decide (d.join = addr)) (s.opens.eraseIdx s.cur)
    (Alone s g freeGate p u th → ∀ x, srcPair th a = some x →
      (HeaderAt s (u / 1024) th.lc.asid (bitsOf x) →
        ∃ t, exec (.brx a nw p) s = .next t ∧
          Left s t u (stands s g th (bitsOf x) (keptLoops th.loops (bitsOf x))) (fun d => decide (d.join = bitsOf x)) (s.opens.eraseIdx s.cur)) ∧
      callTo (.calli a nw p) (bitsOf x)) ∧
    (Alone s g freeGate 7 u th → callTo (.call off) (wordAddr g + off.signExtend 64 * 4)) ∧
    (Alone s g freeGate p u th →
      let r := readWindow closed u th.sp.toNat 8
      let addr : DWord := BitVec.ofNat 64 (ofBytes r.2)
      let traps (code val : Nat) := ∀ l h, handlerOf th = some (l, h) → ∃ t, exec (.ret nw p) s = .next t ∧
        Left s t u (entered s th 0 (recordAt g th code (BitVec.ofNat 64 val)) l h) (fun _ => true) (s.opens.eraseIdx s.cur)
      (th.lc.stack < th.sp.toNat + 16 → traps 0x0D (th.sp.toNat + 16)) ∧
      (th.sp.toNat + 16 ≤ th.lc.stack → windowPoisoned r.1 u th.sp.toNat = true → traps 0x0B th.sp.toNat) ∧
      (th.sp.toNat + 16 ≤ th.lc.stack → HeaderAt r.1 (u / 1024) th.lc.asid addr → windowPoisoned r.1 u th.sp.toNat = false →
        (th.sp.toNat + 16 < th.slim.toNat → traps 0x0C (th.sp.toNat + 16)) ∧
        (th.slim.toNat ≤ th.sp.toNat + 16 → ∃ t th1, exec (.ret nw p) s = .next t ∧ getThread r.1 u = some th1 ∧
          Left r.1 t u { stands s g th1 addr th1.loops with sp := th1.sp + 16 } (fun d => decide (d.join = addr)) (s.opens.eraseIdx s.cur)))) ∧
    (Issues s g → g.members = [u] → getThread s u = some th → readPred th p.toNat = false →
      (∀ i ∈ [Instr.brx a nw p, .calli a nw p, .ret nw p, .brk a nw p],
        ∃ t, exec i s = .next t ∧ FellThrough s t g u th (nextAddr g) (s.opens.eraseIdx s.cur)) ∧
      ∃ t, exec (.exit nw p) s = .next (settleCrews t [u / 64]) ∧ FellThrough s t g u th (nextAddr g) (s.opens.eraseIdx s.cur))

/-- `LOOP` and `LOOPI` open a loop over the words up to E, its counter one less than the count, and fall through into its body; a count of
0 opens none and falls through into E (R174, R175, R205, R428). -/
def Obligations.LoopResults : Prop :=
  ∀ (k : BitVec 6) (count : BitVec 12) (len : BitVec 8) s g u th, Alone s g freeGate 7 u th →
    let first := wordAddr g + 4
    let last := first + len.setWidth 64 * 4
    HeaderAt s (u / 1024) th.lc.asid last → (∀ l ∈ th.loops, last.toNat ≤ l.stop.toNat) →
    ∀ i ∈ [(Instr.loop k len, (srcReg th k).map (·.val)), (Instr.loopi count len, some (count.setWidth 32))],
      (i.2 = some 0 → ∃ t, exec i.1 s = .next t ∧ FellThrough s t g u th last (s.opens.eraseIdx s.cur)) ∧
      (∀ n, i.2 = some n → n ≠ 0 → th.loops.length < 3 →
        ∃ t, exec i.1 s = .next t ∧
          FellThrough s t g u { th with loops := ⟨n - 1, first, last⟩ :: th.loops } first (s.opens.eraseIdx s.cur))

/-- `BRA` over a group (R167, R168, R204): where all its threads take it they stand at the target, where none does they fall through, and
where they split the threads that take it are deferred with their join and the others fall through. Loops that the taken threads leave
close (R176). No deferral stands before, and no thread of the group ends a loop or stands at the join at once. -/
def Obligations.BranchResults : Prop :=
  ∀ (p : BitVec 3) (n : Bool) (target : BitVec 13) (rec9 : BitVec 9) s g, Issues s g → ¬ (p = 7 ∧ n = true) → s.deferrals = [] →
    let dest := wordAddr g + target.signExtend 64 * 4
    let join := if rec9 = 0 then dest else wordAddr g + rec9.setWidth 64 * 4
    let takes (th : Thread) : Bool := decide (p = 7) || (readPred th p.toNat != n)
    let stay := g.members.filter fun u => match getThread s u with | some th => !takes th | none => false
    join ≠ nextAddr g →
    (∀ u ∈ g.members, ∀ th, getThread s u = some th →
      (takes th = true → HeaderAt s (u / 1024) th.lc.asid dest ∧ (rec9 ≠ 0 → HeaderAt s (u / 1024) th.lc.asid join)) ∧
      (takes th = false → endCheck th.loops (nextAddr g) = (th.loops, nextAddr g))) →
    ∃ t, exec (.bra p n target rec9) s = .next t ∧
      (∀ u ∈ g.members, ∀ th, getThread s u = some th → getThread t u = some
        (if takes th then
          (if stay = [] then stands s g th dest (keptLoops th.loops dest)
           else { stands s g th dest (keptLoops th.loops dest) with status := .deferred, since := th.since, stopReq := th.stopReq })
         else stands s g th (nextAddr g) th.loops)) ∧
      (∀ u, u ∉ g.members → getThread t u = getThread s u) ∧
      t.deferrals = (if stay = [] then [] else
        (g.members.filter fun u => !stay.contains u).map fun u => ⟨u, join, stay, cyclesOf s (coreDie g.core)⟩) ∧
      t = { s with threads := t.threads, deferrals := t.deferrals, opens := s.opens.eraseIdx s.cur }

namespace Sys2Proof

/-- The trap record of the level that a thread is at (R184). -/
def recordOf (th : Thread) : TrapRec := if th.level = 1 then th.rec1 else th.rec2

/-- A thread that has returned from its level (R185): the level that its record's cause names, the record cleared, the pc and the clause
of the record, and its latches. -/
def returned (g : Group) (th : Thread) : Thread :=
  let r := recordOf th
  { th with
    rec1 := if th.level = 1 then TrapRec.zero else th.rec1
    rec2 := if th.level = 1 then th.rec2 else TrapRec.zero
    level := r.cause.toNat / 256 % 4, pc := r.pc, cla := r.cla, lats := r.lats, loopBuf := []
    poison := th.poison.filter (· != 60 + g.idx % 4), wait := none }

/-- A thread at a clause boundary, ready to issue from an address (R202). -/
def atClause (s : State) (th : Thread) (addr : DWord) : Thread :=
  { th with pc := addr, cla := addr, lats := noLatches, answers := [], stopReq := false, status := .ready, since := s.span }

end Sys2Proof

/-- `ERET` at level 1 or 2 restores what its record holds: to a clause's start, into a clause at the word that the record names with its
latches, past a clause's end by the end check of loops, or to any other clause header (R184, R185, R58, R175, R202, R205). -/
def Obligations.ReturnResults : Prop :=
  ∀ (nw : Bool) (p : BitVec 3) s g u th, Alone s g ⟨none, 1, 0⟩ p u th → th.level ≤ 2 →
    let r := recordOf th
    let back := returned g th
    r.cause.toNat / 256 % 4 ≤ 2 →
    (r.pc = r.cla → ∃ t, exec (.eret nw p) s = .next t ∧ Left s t u (atClause s back r.pc) (fun d => decide (d.join = r.pc)) (emptied s g)) ∧
    (∀ s' w code h, fetchClause s (u / 1024) th.lc.asid r.cla.toNat = (s', .ok w code) → legalClause w code 0 = some h →
      r.cla.toNat % 4 = 0 → r.pc.toNat % 4 = 0 → r.cla.toNat < r.pc.toNat → r.cla.toNat + 64 < 2 ^ 57 →
      (r.pc.toNat ≤ r.cla.toNat + 4 * code.length →
        ∃ t, exec (.eret nw p) s = .next t ∧ getThread t u = some { back with status := .parked, answers := [] } ∧
          (∀ v, v ≠ u → getThread t v = getThread s v) ∧
          t = { s with
            threads := t.threads, opens := emptied s g
            parked := s.parked ++ [⟨g.core, [u], r.cla, h, code, (r.pc.toNat - r.cla.toNat) / 4 - 1, false⟩] }) ∧
      (r.pc.toNat = r.cla.toNat + 4 * (code.length + 1) →
        let e := endCheck th.loops r.pc
        ∃ t, exec (.eret nw p) s = .next t ∧
          Left s t u (atClause s { back with loops := e.1 } e.2) (fun d => decide (d.join = e.2)) (emptied s g))) ∧
    (r.pc.toNat < r.cla.toNat → HeaderAt s (u / 1024) th.lc.asid r.pc →
      ∃ t, exec (.eret nw p) s = .next t ∧ Left s t u (atClause s back r.pc) (fun d => decide (d.join = r.pc)) (emptied s g))

namespace Sys2Proof

/-- Whether every launched thread of a crew has exited or halted. -/
def crewOver (s : State) (crew : Nat) : Bool :=
  (List.range 64).all fun l =>
    match getThread s (crew * 64 + l) with
    | some th => th.status == .exited || th.status == .halted
    | none => true

/-- A thread ended (R162, R190): it is as given, its node is changed by f and triggers if its threads have all triggered or ended by that (R340),
its deferrals are as when it leaves, and the slot of a crew all of whose threads have ended passes from RESIDENT to RETIRING (R194), but for one of a
cohort that has a bound region (R284, log 32). Open clauses and accesses are as given. -/
structure Ended (s t : State) (u : Nat) (th' : Thread) (f : Node → Node) (opens : List Group) (access : List Access) : Prop where
  moved : Moved s t u th' fun _ => true
  nodes : ∀ n, getK t.nodes n = (getK s.nodes n).map fun x => if n = th'.lc.node then
      { f x with triggered := (f x).triggered || (th'.status == .exited && (f x).failed.isNone && allTriggered t n (f x)) } else x
  slots : ∀ c, getK t.slots c = (getK s.slots c).map fun e =>
    if c = u / 64 ∧ e.state = 2 ∧ crewOver t c = true ∧ (∀ x, getCohort s e.cohort = some x → x.regions = []) then { e with state := 3 } else e
  rest : t = { s with
    threads := t.threads, deferrals := t.deferrals, nodes := t.nodes, slots := t.slots, opens := opens, access := access }

/-- A thread after its word, its latch invalid (R40). -/
def afterWord (g : Group) (th : Thread) : Thread :=
  { th with lats := th.lats.set (g.idx % 4) Latch.invalid, poison := th.poison.filter (· != 60 + g.idx % 4) }

/-- Whether a report may be taken at a header that waits on `dc3`, or at `EXIT` (R238): it is of a command that threads issued, not of an engine
program. -/
def direct (r : Report) : Prop := r.point = 0 ∨ r.point % 2 = 1

end Sys2Proof

/-- `EXIT` ends a thread whose counters read zero, its sticky TG and ZS going to its node, or takes its oldest engine fault of a command that
threads issued; with a counter that does not read zero the thread waits, its group of one parked. `HALT` ends a thread of level 2 at once, its node
failing with register a unless it has failed, and its pending loads write nothing and count no more. The rendezvous instances of its crew that
this completes are complete (R66, R162, R190, R194, R205, R218, R238). -/
def Obligations.EndResults : Prop :=
  (∀ (a : BitVec 6) (nw : Bool) (p : BitVec 3) s g u th,
    (Alone s g freeGate p u th →
      let waiting := ∃ k, k < 4 ∧ readDc th k ≠ 0
      let ends (m : State) := exec (.exit nw p) s = .next (settleCrews m [u / 64])
      (¬ waiting → (∀ r ∈ th.reports, ¬ direct r) → ∃ t, ends t ∧
        Ended s t u { afterWord g th with loops := [], pc := wordAddr g, status := .exited, watch := none }
          (fun n => { n with sticky := n.sticky ||| ((if th.fsr.getLsbD 6 then 4 else 0) + (if th.fsr.getLsbD 5 then 8 else 0)) })
          (s.opens.eraseIdx s.cur) s.access) ∧
      (∀ pre r post l h, ¬ waiting → th.reports = pre ++ r :: post → (∀ x ∈ pre, ¬ direct x) → direct r → handlerOf th = some (l, h) → ∃ t, ends t ∧
        Left s t u { entered s { th with reports := pre ++ post } 0 (recordAt g (afterWord g th) r.cause r.val) l h with
            loops := [], poison := th.poison.filter (· != 60 + g.idx % 4) }
          (fun _ => true) (s.opens.eraseIdx s.cur)) ∧
      (waiting → ∃ t, ends t ∧
        Moved s t u { afterWord g th with loops := [], pc := wordAddr g, status := .exiting } (fun _ => true) ∧
        t = { s with
          threads := t.threads, deferrals := t.deferrals, opens := s.opens.eraseIdx s.cur
          parked := s.parked ++ [{ g with members := [u] }] })) ∧
    (∀ x, Alone s g ⟨none, 2, 0⟩ p u th → srcReg th a = some x → ∃ t, exec (.halt a nw p) s = .next (settleCrews t [u / 64]) ∧
      Ended s t u { afterWord g th with loops := [], dc := [], busy := [], watch := none, status := .halted }
        (fun n => if n.failed.isSome then n else { n with failed := some x.val.toNat })
        (emptied s g) (s.access.map fun c => if c.thread = u then { c with dests := [], dc := 4 } else c))) ∧
  (∀ s c, (∀ l th, l < 64 → getThread s (c * 64 + l) = some th → (th.wait.map (·.kind)) ≠ some joinedKind) → settleCrews s [c] = s) ∧
  (∀ s core slot r pc level, slot < 16 → crewInstances s (core * 16 + slot) = [(r, pc, level)] →
    exec (.rendezvousComplete core slot pc level) s = .next (settleCrews s [core * 16 + slot]))

/-- `BRK` on a context with an open debug session stops the thread at the word, its group of one parked, after an observation record of
KIND 4 with the code (R173, R376, R405). -/
def Obligations.DebugBreak : Prop :=
  ∀ (a : BitVec 6) (nw : Bool) (p : BitVec 3) s g u th, Alone s g freeGate p u th → s.session = some th.lc.asid →
    let seen := writeObs { s with opens := s.opens.eraseIdx s.cur } (u / 1024) th.lc.asid 4 (obsPlace u) (wordAddr g) a.toNat
    ∃ t th1, exec (.brk a nw p) s = .next t ∧ getThread seen u = some th1 ∧
      Moved seen t u { th1 with status := .stopped, pc := wordAddr g } (fun _ => true) ∧
      t = { seen with threads := t.threads, deferrals := t.deferrals, parked := s.parked ++ [{ g with members := [u] }] }

namespace Sys2Proof

/-- A load, store, dexel load or dexel store: its predicate, kind (0 load, 1 store, 2 dexel load, 3 dexel store), primal size in bytes, counter,
register, whether its address is a local offset, and the address in a thread, none where the rules make an operand illegal. -/
structure MemForm where
  instr : Instr
  kind : Nat
  size : Nat
  loc : Bool
  addr : Thread → Option DWord

/-- A pair-form address: pair a plus the offset in units of the size (R151). -/
def pairAt (a : BitVec 6) (o : BitVec 9) (size : Nat) (th : Thread) : Option DWord :=
  (srcPair th a).map fun x => bitsOf x + o.signExtend 64 * BitVec.ofNat 64 size

/-- A local-form offset: register a plus the offset in units of the size, 32 bits wide (R151). -/
def localAt (a : BitVec 6) (o : BitVec 9) (size : Nat) (th : Thread) : Option DWord :=
  (srcReg th a).map fun x => (x.val + o.signExtend 32 * BitVec.ofNat 32 size).setWidth 64

/-- The loads of R155-R157 and R85. -/
def loadForms (d a : BitVec 6) (o : BitVec 9) (sz k : BitVec 2) (p wide : Bool) : List MemForm :=
  let size := 2 ^ sz.toNat
  let tsize := if wide then 8 else 4
  [⟨.ld d a o sz k p, 0, size, false, pairAt a o size⟩,
   ⟨.lds d a o sz k p, 0, size, true, localAt a o size⟩,
   ⟨.ldt d a o wide k p, 2, tsize, false, pairAt a o tsize⟩,
   ⟨.ldc d a o sz k p, 0, size, false, fun th =>
     if th.lc.constBase = 0 then none else (localAt a o size th).map fun x => th.lc.constBase + x⟩]

/-- The stores of R155, R156 and R85. -/
def storeForms (d a : BitVec 6) (o : BitVec 9) (sz k : BitVec 2) (p wide : Bool) : List MemForm :=
  let size := 2 ^ sz.toNat
  let tsize := if wide then 8 else 4
  [⟨.st d a o sz k p, 1, size, false, pairAt a o size⟩,
   ⟨.sts d a o sz k p, 1, size, true, localAt a o size⟩,
   ⟨.stt d a o wide k p, 3, tsize, false, pairAt a o tsize⟩]

/-- The pieces of an access: offset and bytes of the primal, and for a dexel record of each tangent slot, half the primal's size under T16
(R85, R86). -/
def pieces (th : Thread) (f : MemForm) : List (Nat × Nat) :=
  if f.kind < 2 then [(0, f.size)]
  else
    let w := if th.lc.t16 then f.size / 2 else f.size
    (0, f.size) :: (List.range th.lc.tcount).map fun k => (f.size + k * w, w)

/-- Bytes of all the pieces. -/
def span (l : List (Nat × Nat)) : Nat := l.foldl (fun n e => n + e.2) 0

/-- The registers that a load of a size writes, from the bytes of its pieces (R85, R156): a pair for 8 bytes, else one register, an access
of 1 or 2 bytes zero-extended. -/
def loaded (th : Thread) (d : BitVec 6) (size : Nat) (parts : List (List Byte)) : List (Nat × Dexel) :=
  let v : Val := ⟨ofBytes (parts.headD []), parts.tail.map ofBytes⟩
  if d = 0 then []
  else if size = 8 then [(d.toNat, (pairOf th v).1), (d.toNat + 1, (pairOf th v).2)]
  else [(d.toNat, dexelOf v)]

/-- The bytes that a store writes at each piece's offset: the low bytes of register or pair d, then its tangents (R85, R156). -/
def stored (th : Thread) (d : BitVec 6) (f : MemForm) : Option (List (Nat × List Byte)) :=
  let at' (v : Val) := (pieces th f).zipIdx.map fun e => (e.1.1, toBytes e.1.2 (if e.2 = 0 then v.bits else v.tan.getD (e.2 - 1) 0))
  if f.size = 8 then (srcPair th d).map fun x => at' (valOfPair th x) else (srcReg th d).map fun x => at' (valOf th x)

/-- A global place (R152): aligned to the size, and within 57 bits to its end. -/
def GlobalAt (a : DWord) (size n : Nat) : Prop := a.toNat % size = 0 ∧ a.toNat + n ≤ 2 ^ 57

/-- The pieces as a core reads them one after the other at their physical addresses, with the machine after it and the latest stamp: near
copies first, then the home (R349, R352). -/
def readPieces (u : Nat) (th : Thread) (s : State) (l : List ((Nat × Nat) × Nat × Nat)) : State × List (List Byte) × Nat :=
  l.foldl (fun r e =>
    let x := readNear r.1 u (keyOf s th.lc.asid) e.2.1 e.1.2 e.2.2
    (x.1, r.2.1 ++ [x.2.1], Nat.max r.2.2 x.2.2)) (s, [], 0)

/-- A thread that has issued an access (R160, R161): its latch is lost, the pc goes on, counter k has risen, the destinations are busy, and a mark
of `PRB.SAMP` is spent. -/
def waitsFor (g : Group) (th : Thread) (k : Nat) (dests : List (Nat × Dexel)) : Thread :=
  { afterWord g th with
    pc := wordAddr g + 4, dc := putK th.dc k (readDc th k + 1), busy := th.busy ++ dests.map (·.1), wait := none
    sampMark := th.sampMark && !(th.sampMark && markable g.word) }

/-- Access x was put in flight in machine r for thread u, which became th'; nothing else changed but numbering and sampling (R160, R379). -/
structure Flies (s r t : State) (g : Group) (u : Nat) (th' : Thread) (x : Access) : Prop where
  thread : getThread t u = some th'
  others : ∀ v, v ≠ u → getThread t v = getThread s v
  access : ∃ m st, t.access = r.access ++ [{ x with id := r.seqno, issued := r.seqno, pc := wordAddr g, sampled := m, stages := st }]
  rest : t = { r with
    threads := t.threads, access := t.access, seqno := r.seqno + 1, sampCount := t.sampCount
    opens := s.opens.set s.cur { g with idx := g.idx + 1 } }

end Sys2Proof

/-- A global load puts an access in flight that holds its counter and makes its destinations busy; the values to come are those of the bytes
read now (log 47), and the writes of other threads that they come from go with it; no byte of memory, register or predicate changes. A global store puts its bytes in flight to its home and changes no byte of
memory yet (R151, R152, R155-R157, R85, R86, R160, R161, R352). -/
def Obligations.GlobalAccessResults : Prop :=
  ∀ (d a : BitVec 6) (o : BitVec 9) (sz k : BitVec 2) (p wide : Bool) s g u th, Alone s g freeGate (shortPred p) u th →
    th.cocoon = none → readDc th k.toNat < 63 →
    let core := u / 1024
    (∀ f ∈ loadForms d a o sz k p wide, ∀ x s1 pas, f.loc = false → f.addr th = some x → GlobalAt x f.size (span (pieces th f)) →
      (if f.size = 8 then dstPair th d false else dstReg th d false) = true →
      xlatElems s core th.lc.asid x.toNat .read (pieces th f) = (s1, .ok pas) → (∀ e ∈ pas, poisoned s1 e.1 = false) →
      let at' := (pieces th f).zip pas
      let r := readPieces u th s1 at'
      let dests := loaded th d f.size r.2.1
      ∃ t, exec f.instr s = .next t ∧ (∀ b, memGet t.mem b = memGet s.mem b) ∧
        Flies s r.1 t g u (waitsFor g th k.toNat dests)
          ⟨0, .load, u, core, k.toNat, dests, [], x.toNat, 0, r.2.2, true, 0, 0, 0, false, at'.flatMap fun e => writersOf s1 u e.2.1 e.1.2, 0⟩) ∧
    (∀ f ∈ storeForms d a o sz k p wide, ∀ x s1 pas bs, f.loc = false → f.addr th = some x → GlobalAt x f.size (span (pieces th f)) →
      stored th d f = some bs → xlatElems s core th.lc.asid x.toNat .write (pieces th f) = (s1, .ok pas) →
      ∃ t, exec f.instr s = .next t ∧ (∀ b, memGet t.mem b = memGet s.mem b) ∧
        Flies s s1 t g u (waitsFor g th k.toNat [])
          ⟨0, .store, u, core, k.toNat, [], (bs.zip pas).map fun e => (e.2.1, e.1.2), x.toNat, 0, th.wct, false, 0, 0, 0, false, [], 0⟩)

namespace Sys2Proof

/-- The local offset that an address names (R152, R153): a local form's own, or the low 32 bits of a pair whose high word is 0x8000_0000. -/
def localOff (f : MemForm) (x : DWord) : Option Nat :=
  if f.loc ∨ x.toNat / 2 ^ 32 = 2 ^ 31 then some (x.toNat % 2 ^ 32) else none

/-- A thread after a local access performed at once: the registers written, then its latch lost and the pc at the next word. -/
def localDone (g : Group) (th : Thread) (wct : Nat) (dests : List (Nat × Dexel)) : Thread :=
  let w := dests.foldl (fun th d => writeReg th d.1 d.2) { th with wct := wct }
  { w with
    pc := wordAddr g + 4, wait := none
    lats := th.lats.set (g.idx % 4) Latch.invalid, poison := w.poison.filter (· != 60 + g.idx % 4) }

/-- The nodes are as they were but for the bytes that deterministic ones keep of their last flush points (R166); without such a node nothing
is kept. -/
def KeptBytes (s t : State) : Prop :=
  (∀ n x, getK s.nodes n = some x → ∃ b, getK t.nodes n = some { x with bases := b }) ∧ ((∀ e ∈ s.nodes, e.2.det = false) → t.nodes = s.nodes)

/-- A local access is performed at once. In the scratchpad a load gives its bytes as they stand and merges its write-completion time, a store
changes the bytes it writes and no others and leaves its thread's time, one time for the whole of a cohort's scratchpad (log 21); in the
private window they go through the stack cache, a load where no error lies (R384). No counter,
no global memory and no other thread changes (R152, R153, R156, R85, R86, R353, R198). -/
def LocalAccessResults : Prop :=
  ∀ (d a : BitVec 6) (o : BitVec 9) (sz k : BitVec 2) (p wide : Bool) s g u th, Alone s g freeGate (shortPred p) u th →
    readDc th k.toNat < 63 →
    let opens := s.opens.set s.cur { g with idx := g.idx + 1 }
    (∀ co, getK s.cohorts th.lc.cohort = some co → co.regions = [] → memWf co.scratch = true → s.poison = [] →
      (∀ f ∈ loadForms d a o sz k p wide, ∀ x off, f.addr th = some x → localOff f x = some off → x.toNat % f.size = 0 →
        off < 2 ^ 31 → off + span (pieces th f) ≤ co.units * 32768 → (if f.size = 8 then dstPair th d false else dstReg th d false) = true →
        let bytes (e : Nat × Nat) := (List.range e.2).map fun i => memGet co.scratch (off + e.1 + i)
        ∃ t, exec f.instr s = .next t ∧
          getThread t u = some (localDone g th (Nat.max th.wct co.wct) (loaded th d f.size ((pieces th f).map bytes))) ∧
          (∀ v, v ≠ u → getThread t v = getThread s v) ∧ t = { s with threads := t.threads, opens := opens }) ∧
      (∀ f ∈ storeForms d a o sz k p wide, ∀ x off bs, f.addr th = some x → localOff f x = some off → x.toNat % f.size = 0 →
        off < 2 ^ 31 → off + span (pieces th f) ≤ co.units * 32768 → stored th d f = some bs →
        ∃ t, exec f.instr s = .next t ∧ getThread t u = some (localDone g th th.wct []) ∧
          (∀ v, v ≠ u → getThread t v = getThread s v) ∧ (∀ c, c ≠ th.lc.cohort → getK t.cohorts c = getK s.cohorts c) ∧
          (∃ co', getK t.cohorts th.lc.cohort = some co' ∧ co' = { co with scratch := co'.scratch, wct := Nat.max co.wct th.wct } ∧
            ∀ q, memGet co'.scratch q = bs.foldl (fun r e => if off + e.1 ≤ q ∧ q < off + e.1 + e.2.length then e.2.getD (q - (off + e.1)) 0 else r)
              (memGet co.scratch q)) ∧
          KeptBytes s t ∧ t = { s with threads := t.threads, cohorts := t.cohorts, nodes := t.nodes, opens := opens })) ∧
    (∀ f ∈ loadForms d a o sz k p wide, ∀ x off, f.addr th = some x → localOff f x = some off → x.toNat % f.size = 0 →
      2 ^ 31 ≤ off → off - 2 ^ 31 + span (pieces th f) ≤ th.lc.stack → (if f.size = 8 then dstPair th d false else dstReg th d false) = true →
      let r := (pieces th f).foldl (fun (r : State × List (List Byte)) e =>
        let w := readWindow r.1 u (off - 2 ^ 31 + e.1) e.2
        (w.1, r.2 ++ [w.2])) (s, [])
      (∀ e ∈ pieces th f, windowPoisoned r.1 u (off - 2 ^ 31 + e.1) = false) →
      ∃ t th1, exec f.instr s = .next t ∧ getThread r.1 u = some th1 ∧
        getThread t u = some (localDone g th1 th1.wct (loaded th d f.size r.2)) ∧
        (∀ v, v ≠ u → getThread t v = getThread r.1 v) ∧ t = { r.1 with threads := t.threads, opens := opens }) ∧
    (∀ f ∈ storeForms d a o sz k p wide, ∀ x off bs, f.addr th = some x → localOff f x = some off → x.toNat % f.size = 0 →
      2 ^ 31 ≤ off → off - 2 ^ 31 + span (pieces th f) ≤ th.lc.stack → stored th d f = some bs →
      let r := bs.foldl (fun s e => writeWindow s u (off - 2 ^ 31 + e.1) e.2) s
      ∃ t th1, exec f.instr s = .next t ∧ getThread r u = some th1 ∧ getThread t u = some (localDone g th1 th1.wct []) ∧
        (∀ v, v ≠ u → getThread t v = getThread r v) ∧ t = { r with threads := t.threads, opens := opens })

/-- What a function of R164 puts in place of the old number of its size, none where a comparison fails (R163, R164). -/
def atomOf (fn size old b c : Nat) : Option Nat :=
  let m := 2 ^ (8 * size)
  let signed (x : Nat) : Int := if x < m / 2 then x else (x : Int) - m
  match fn with
  | 0 | 11 => some ((old + b) % m)
  | 1 => some (if signed old < signed b then old else b)
  | 2 => some (if signed old < signed b then b else old)
  | 3 => some (if old < b then old else b)
  | 4 | 12 => some (if old < b then b else old)
  | 5 => some (old &&& b)
  | 6 => some (old ||| b)
  | 7 => some (old ^^^ b)
  | 8 => some b
  | 9 | 13 => if old = b then some c else none
  | _ => some (if (fpAdd b32 .rne old b).bits = 0x80000000 then 0 else (fpAdd b32 .rne old b).bits)

/-- The numbers that the operand field b gives a function (R163): b or b.low, and the new value of a compare-and-swap. -/
def atomArgs (th : Thread) (fn : Nat) (b : BitVec 6) : Option (Nat × Nat) :=
  match fn with
  | 9 => (srcPair th b).map fun x => (x.1.val.toNat, x.2.val.toNat)
  | 11 | 12 => (srcPair th b).map fun x => ((bitsOf x).toNat, 0)
  | 13 =>
    if b.toNat % 4 = 0 ∧ 4 ≤ b.toNat ∧ b.toNat < 60 ∧ b.toNat + 3 < th.lc.regs then
      some ((bitsOf (readReg th b.toNat, readReg th (b.toNat + 1))).toNat, (bitsOf (readReg th (b.toNat + 2), readReg th (b.toNat + 3))).toNat)
    else none
  | _ => (srcReg th b).map fun x => (x.val.toNat, 0)

/-- Bytes that read under a key as in machine h but for those of a number from an address on. -/
def NumberAt (h r : State) (key pa size : Nat) (v : Option Nat) : Prop :=
  ∀ q, readPa r key q = if v ≠ none ∧ pa ≤ q ∧ q < pa + size then (toBytes size (v.getD 0)).getD (q - pa) 0 else readPa h key q

/-- Whether no request sample is due of a thread's next access (R378, R379). -/
def Unsampled (s : State) (u : Nat) (th : Thread) : Prop :=
  let q := dieReg s (coreDie (u / 1024)) 0x10
  th.sampMark = false ∧ (q = 0 ∨ (getK s.sampCount (u / 1024)).getD 0 + 1 < q)

/-- The entry that a buffered atomic of a thread puts into its node's buffer (R166, R364): with its logical cohort, its crew, lane, stage and
write-completion time, and its number among the thread's. -/
def entryOf (s : State) (u : Nat) (th : Thread) (fn : Nat) (loc : Bool) (addr va b0 b1 : Nat) (red : Bool) : BufEntry :=
  ⟨((getK s.cohorts th.lc.cohort).map (·.j)).getD 0, th.lc.crew, threadLane u, th.buffered, th.lc.cohort, fn, loc, addr, va, BitVec.ofNat 64 b0,
    BitVec.ofNat 64 b1, red, th.lc.stage, th.wct⟩

/-- A node with an entry put into the buffer of the node of a thread. -/
def withEntry (th : Thread) (e : BufEntry) (n : Nat) (x : Node) : Node := if n = th.lc.node then { x with buffer := x.buffer ++ [e] } else x

end Sys2Proof

/-- `ATOM` and `RED` on global memory. At crew and core scope, and at cluster scope in a fused cluster, while the L1 has
a unit left, the old value is that of the core's
L1, the new one is in flight; at the wider scopes the location changes at its home at once, after the earlier writes of the core to its
line; the old value comes back to the registers of `ATOM` under counter 3. In a deterministic node the operation enters the buffer, `ATOM`
writes the value of the last flush point at once, and where no sample of it is due nothing else changes (R163-R166, R160, R161, R85, R379). -/
def Obligations.AtomicResults : Prop :=
  ∀ (d a b : BitVec 6) (fn : BitVec 4) (sc : BitVec 3) (p : Bool) s g u th addr b0 b1 s1 pa c,
    Alone s g freeGate (shortPred p) u th → th.cocoon = none → readDc th 3 < 63 → fn.toNat ≤ 13 → sc.toNat ≤ 5 → memWf s.mem = true →
    let size := if 11 ≤ fn.toNat then 8 else 4
    let core := u / 1024
    let key := keyOf s th.lc.asid
    (srcPair th a).map bitsOf = some addr → atomArgs th fn.toNat b = some (b0, b1) →
    (if size = 8 then dstPair th d false else dstReg th d false) = true → GlobalAt addr size size →
    xlatElems s core th.lc.asid addr.toNat .atomic [(0, size)] = (s1, .ok [(pa, c)]) → poisoned s1 pa = false →
    ∀ f ∈ [(Instr.atom d a b fn sc p, true), (.red a b fn sc p, false)],
      let kind := if f.2 then AccKind.atom else AccKind.red
      let dests (old : Nat) := if f.2 then loaded th d size [toBytes size old] else []
      let near : Bool := (sc.toNat ≤ 1 || (sc.toNat == 2 && s.fusedClusters.contains (core / 32))) && hasL1 s core (lineOf pa)
      (th.lc.det = false → near = true →
        let r := readNear s1 u key pa size c
        let old := ofBytes r.2.1
        let new := atomOf fn.toNat size old b0 b1
        ∃ t, exec f.1 s = .next t ∧ (∀ q, memGet t.mem q = memGet s.mem q) ∧
          Flies s r.1 t g u (waitsFor g th 3 (dests old)) ⟨0, kind, u, core, 3, dests old, new.toList.map fun v => (pa, toBytes size v),
            addr.toNat, sc.toNat, Nat.max th.wct r.2.2, new.isNone, 0, 0, 0, false, writersOf s1 u pa size, 0⟩) ∧
      (th.lc.det = false → near = false →
        let h := flushLine s1 core (lineOf pa)
        let old := readNum h key pa size
        ∃ t r th1 st gw, exec f.1 s = .next t ∧ NumberAt h r key pa size (atomOf fn.toNat size old b0 b1) ∧
          (∀ v, ∃ w, getThread r v = (getThread s v).map fun x => { x with watch := w }) ∧ getThread r u = some th1 ∧
          Flies r r t g u (waitsFor g th1 3 (dests old))
            ⟨0, kind, u, core, 3, dests old, [], addr.toNat, sc.toNat, st, true, gw, 0, 0, false, [], 0⟩) ∧
      (th.lc.det = true →
        let now := readBytes s1 key pa size
        let base := ofBytes (now.zipIdx.map fun x => baseByte s1 th (pa + x.2) x.1)
        let done := localDone g { th with buffered := th.buffered + 1 } th.wct (dests base)
        let e := entryOf s u th fn.toNat false pa addr.toNat b0 b1 (!f.2)
        ∃ t w, exec f.1 s = .next t ∧
          getThread t u = some { done with watch := w, sampMark := th.sampMark && !(th.sampMark && markable g.word) } ∧
          (∀ n x, getK s.nodes n = some x → ∃ y, getK t.nodes n = some y ∧ y.buffer = (withEntry th e n x).buffer) ∧
          (Unsampled s u th → getThread t u = some done ∧ (∀ v, v ≠ u → getThread t v = getThread s v) ∧
            (∀ n, getK t.nodes n = (getK s.nodes n).map (withEntry th e n)) ∧
            t = { s1 with
              threads := t.threads, nodes := t.nodes, sampCount := t.sampCount, opens := s.opens.set s.cur { g with idx := g.idx + 1 } }))

namespace Sys2Proof

/-- `ATOM` and `RED` on local memory, at once and whatever the scope: in the scratchpad old and new as in R164, in the private window
through the stack cache. In a deterministic node they enter the buffer, those of the window too, with their write-completion time at issue (log 22), and `ATOM` writes the value of the
last flush point (R153, R163-R166, R353, R198). -/
def LocalAtomicResults : Prop :=
  ∀ (d a b : BitVec 6) (fn : BitVec 4) (sc : BitVec 3) (p : Bool) s g u th addr b0 b1,
    Alone s g freeGate (shortPred p) u th → readDc th 3 < 63 → fn.toNat ≤ 13 → sc.toNat ≤ 5 →
    let size := if 11 ≤ fn.toNat then 8 else 4
    let opens := s.opens.set s.cur { g with idx := g.idx + 1 }
    (srcPair th a).map bitsOf = some addr → atomArgs th fn.toNat b = some (b0, b1) →
    (if size = 8 then dstPair th d false else dstReg th d false) = true → addr.toNat % size = 0 → addr.toNat / 2 ^ 32 = 2 ^ 31 →
    let off := addr.toNat % 2 ^ 32
    ∀ f ∈ [(Instr.atom d a b fn sc p, true), (.red a b fn sc p, false)],
      let dests (old : Nat) := if f.2 then loaded th d size [toBytes size old] else []
      let e := entryOf s u th fn.toNat true off 0 b0 b1 (!f.2)
      let counted (th : Thread) : Thread := { th with buffered := th.buffered + 1 }
      (∀ co, getK s.cohorts th.lc.cohort = some co → co.regions = [] → memWf co.scratch = true → s.poison = [] → off < 2 ^ 31 →
        off + size ≤ co.units * 32768 →
        let now := (List.range size).map fun i => memGet co.scratch (off + i)
        let wct := Nat.max th.wct co.wct
        (th.lc.det = false →
          let new := atomOf fn.toNat size (ofBytes now) b0 b1
          ∃ t m, exec f.1 s = .next t ∧ getThread t u = some (localDone g th wct (dests (ofBytes now))) ∧
            (∀ v, v ≠ u → getThread t v = getThread s v) ∧
            (∀ c, getK t.cohorts c = if c = th.lc.cohort then some { co with scratch := m, wct := Nat.max co.wct wct } else getK s.cohorts c) ∧
            (∀ q, memGet m q = if new ≠ none ∧ off ≤ q ∧ q < off + size then (toBytes size (new.getD 0)).getD (q - off) 0 else memGet co.scratch q) ∧
            KeptBytes s t ∧ t = { s with threads := t.threads, cohorts := t.cohorts, nodes := t.nodes, opens := opens }) ∧
        (th.lc.det = true →
          let base := ofBytes (now.zipIdx.map fun x => baseByte s th (localKey th.lc.cohort off + x.2) x.1)
          ∃ t, exec f.1 s = .next t ∧ getThread t u = some (localDone g (counted th) wct (dests base)) ∧ (∀ v, v ≠ u → getThread t v = getThread s v) ∧
            (∀ c, getK t.cohorts c = if c = th.lc.cohort then some { co with wct := Nat.max co.wct wct } else getK s.cohorts c) ∧
            (∀ n, getK t.nodes n = (getK s.nodes n).map (withEntry th e n)) ∧
            t = { s with threads := t.threads, cohorts := t.cohorts, nodes := t.nodes, opens := opens })) ∧
      (2 ^ 31 ≤ off → off - 2 ^ 31 + size ≤ th.lc.stack →
        let r := readWindow s u (off - 2 ^ 31) size
        windowPoisoned r.1 u (off - 2 ^ 31) = false →
        (th.lc.det = false →
          let h := match atomOf fn.toNat size (ofBytes r.2) b0 b1 with
            | some v => writeWindow r.1 u (off - 2 ^ 31) (toBytes size v)
            | none => r.1
          ∃ t th1, exec f.1 s = .next t ∧ getThread h u = some th1 ∧ getThread t u = some (localDone g th1 th1.wct (dests (ofBytes r.2))) ∧
            (∀ v, v ≠ u → getThread t v = getThread h v) ∧ t = { h with threads := t.threads, opens := opens }) ∧
        (th.lc.det = true →
          let base := ofBytes (r.2.zipIdx.map fun x => baseByte r.1 th (windowKey th.lc.cohort th.lc.crew (threadLane u) (off - 2 ^ 31) + x.2) x.1)
          ∃ t th1, exec f.1 s = .next t ∧ getThread r.1 u = some th1 ∧ getThread t u = some (localDone g (counted th1) th1.wct (dests base)) ∧
            (∀ v, v ≠ u → getThread t v = getThread r.1 v) ∧ (∀ n, getK t.nodes n = (getK r.1.nodes n).map (withEntry th e n)) ∧
            t = { r.1 with threads := t.threads, nodes := t.nodes, opens := opens }))

end Sys2Proof

/-- Accesses and atomics on the scratchpad and on private windows (R152, R153, R156, R163-R166, R353, R198; logs 21 and 22 for the stamps). -/
def Obligations.LocalMemoryResults : Prop := LocalAccessResults ∧ LocalAtomicResults

/-- `PRF` reads the line at its address into the near copies where the address is aligned, in range, mapped and not poisoned, and else does
nothing; no register, predicate, counter or byte of memory changes. `LDC` of a kernel whose CONSTBASE is 0 gives zeros at once, at every offset
and with no access (R157, R158, R40). -/
def Obligations.PrefetchAndZeroConstants : Prop :=
  ∀ (d a : BitVec 6) (o : BitVec 9) (sz k : BitVec 2) (p : Bool) s g u th, Alone s g freeGate (shortPred p) u th →
    let size := 2 ^ sz.toNat
    let opens := s.opens.set s.cur { g with idx := g.idx + 1 }
    (∀ x, pairAt a o size th = some x →
      let r := prefetch s u th.lc.asid size x.toNat
      ∃ t, exec (.prf a o sz p) s = .next t ∧ getThread t u = some { afterWord g th with pc := wordAddr g + 4 } ∧
        (∀ v, v ≠ u → getThread t v = getThread s v) ∧ t = { r with threads := t.threads, opens := opens } ∧
        t = { s with threads := t.threads, opens := opens, tlb := r.tlb, power := r.power, copies := r.copies, seqno := r.seqno, reuse := r.reuse }) ∧
    (∀ x, localAt a o size th = some x → th.lc.constBase = 0 → (if size = 8 then dstPair th d false else dstReg th d false) = true →
      readDc th k.toNat < 63 →
      ∃ t, exec (.ldc d a o sz k p) s = .next t ∧
        getThread t u = some { localDone g th th.wct (loaded th d size [toBytes size 0]) with wait := th.wait } ∧
        (∀ v, v ≠ u → getThread t v = getThread s v) ∧ t = { s with threads := t.threads, opens := opens })

namespace Sys2Proof

/-- Thread u went on past its word from machine r (R203): it is as given, no driver's answer is kept for it, and nothing else changed but the
place in the clause. -/
structure GoesOn (s r t : State) (g : Group) (u : Nat) (th' : Thread) : Prop where
  thread : getThread t u = some { th' with pc := wordAddr g + 4, wait := none, answers := [], status := .issuing }
  others : ∀ v, v ≠ u → getThread t v = getThread r v
  rest : t = { r with threads := t.threads, opens := s.opens.set s.cur { g with idx := g.idx + 1 } }

/-- Thread u waits at its word (R203, R207): its group of one is parked there, and it meets the condition of every deferral (R205). -/
structure Waits (s r t : State) (g : Group) (u : Nat) (th' : Thread) : Prop where
  moved : Moved r t u { th' with pc := wordAddr g, status := .parked } fun _ => true
  rest : t = { r with
    threads := t.threads, deferrals := t.deferrals, opens := s.opens.eraseIdx s.cur, parked := r.parked ++ [g] }

/-- What a fence of a scope waits for is over (R286, R354): the accesses of the thread and, at die scope and wider, its writes by `SPAN`. -/
def FenceMet (s : State) (u : Nat) (th : Thread) (scope : Nat) : Prop :=
  scope = 7 ∨ ((∀ x ∈ s.access, x.thread ≠ u) ∧ (scope ≤ 2 ∨ th.wct ≤ s.span))

end Sys2Proof

/-- `FENCE`, `WATCH`, `WAITM`, `SEAL`, `WAITB` and `TRIG` in a thread: what each writes when what it waits for has come, and that the thread
waits at the word when it has not; a cluster-scope fence outside fused mode makes later reads of the core
fetch anew (R358), a watch that fired drops the copies of its line from which the thread would be served (R361), and the `TRIG` of a node's last
thread is the moment at which the node triggers (R340) (R280, R281, R286, R289, R290, R355,
R203, R207, R205). -/
def Obligations.SyncResults : Prop :=
  ∀ (d a : BitVec 6) (sc : BitVec 3) (nw : Bool) (p : BitVec 3) s g u th, Alone s g freeGate p u th →
    let goes (i : Instr) (r : State) (th' : Thread) : Prop := ∃ t, exec i s = .next t ∧ GoesOn s r t g u th'
    let waits (i : Instr) (w : WaitRec) : Prop := ∃ t, exec i s = .next t ∧ Waits s s t g u { th with wait := some w }
    let gives (i : Instr) (v : Word) (r : State) (th0 : Thread) : Prop :=
      ∃ t th', exec i s = .next t ∧ WroteReg g d nw ⟨v, []⟩ { th0 with wait := none, status := .issuing } th' ∧ GoesOn s r t g u th'
    (sc ≠ 6 →
      (FenceMet s u th sc.toNat →
        (sc = 2 ∧ s.fusedClusters.contains (u / 1024 / 32) = false →
          goes (.fence sc nw p) { s with acquired := putK s.acquired (u / 1024) s.seqno, seqno := s.seqno + 1 } (afterWord g th)) ∧
        (¬ (sc = 2 ∧ s.fusedClusters.contains (u / 1024 / 32) = false) → goes (.fence sc nw p) s (afterWord g th))) ∧
      (¬ FenceMet s u th sc.toNat → waits (.fence sc nw p) ⟨startedKind, 0, 0⟩)) ∧
    (∀ x s1 e, srcPair th a = some x → (bitsOf x).toNat < 2 ^ 57 →
      translate s (tlbUnits (u / 1024)) th.lc.asid (bitsOf x).toNat .read = (s1, .ok e) → poisoned s1 (paOf e (bitsOf x).toNat) = false →
      goes (.watch a nw p) s1 { afterWord g th with watch := some (lineOf (paOf e (bitsOf x).toNat), false) }) ∧
    (∀ x, srcReg th a = some x → dstReg th d nw = true →
      (th.watch = none → gives (.waitm d a nw p) 2 s th) ∧
      (∀ l, th.watch = some (l, true) → ∃ c, gives (.waitm d a nw p) 1 { s with copies := c } { th with watch := none } ∧
        (∀ x, x ∈ c ↔ x ∈ s.copies ∧ ¬ (x.line = l ∧ ((x.place, x.unit) = nearPlace s (u / 1024) ∨ (x.place, x.unit) = (2, coreDie (u / 1024)))))) ∧
      (∀ l, th.watch = some (l, false) →
        waits (.waitm d a nw p) ⟨waitmKind, if x.val.toNat = 0 then 0 else s.span + x.val.toNat, 0⟩)) ∧
    (dstReg th d nw = true → gives (.seal d nw p) (BitVec.ofNat 32 th.batch) s { th with batch := (th.batch + 1) % 2 ^ 32 }) ∧
    (∀ x, srcReg th a = some x →
      let covered (k : Nat) : Prop := (x.val - BitVec.ofNat 32 k).toNat < 2 ^ 31
      let pending : Prop := ∃ e ∈ getQueue s (u / 1024) 0, ∃ o ∈ lanesLeft e, o.thread = u ∧ covered o.batch
      (¬ pending → (∀ r ∈ th.reports, r.point ≠ 0 → ¬ covered ((r.point - 1) / 2)) → goes (.waitb a nw p) s (afterWord g th)) ∧
      (pending → waits (.waitb a nw p) ⟨startedKind, 0, 0⟩)) ∧
    (th.triggered = true → goes (.trig nw p) s (afterWord g th)) ∧
    (th.triggered = false → ¬ FenceMet s u th 4 → waits (.trig nw p) ⟨startedKind, 0, 0⟩) ∧
    (th.triggered = false → FenceMet s u th 4 →
      let past (x : Thread) : Bool := x.triggered || x.status == .exited || x.status == .halted
      let last (x : Node) : Bool := x.failed.isNone && decide (x.kind ≤ 1) && decide (x.grid.1 * x.grid.2.1 * x.grid.2.2 ≤ x.nextUnit)
        && ((putK s.threads u { th with triggered := true }).all fun e => e.2.lc.node != th.lc.node || past e.2)
        && s.cohorts.all fun c => c.2.node != th.lc.node || c.2.saved.all fun v => past v.thread
      ∃ t, exec (.trig nw p) s = .next t ∧ (∀ n, getK t.nodes n = (getK s.nodes n).map fun x =>
          if n = th.lc.node then { x with trigThreads := x.trigThreads + 1, triggered := x.triggered || last x } else x) ∧
        GoesOn s { s with nodes := t.nodes } t g u { afterWord g th with triggered := true })

namespace Sys2Proof

/-- Barrier k of a cohort with the arrival of a thread at a scope (R287). -/
def arrivedBarrier (co : Cohort) (k u scope : Nat) : Barrier :=
  let b := getBarrier co k
  { b with arrivals := b.arrivals ++ [(u, scope)], last := putK b.last u b.phase }

/-- Every other thread of thread u's cohort that has not exited or halted has arrived at the phase (R287). -/
def LastOf (s : State) (c u : Nat) (b : Barrier) : Prop :=
  ∀ v x, getThread s v = some x → x.lc.cohort = c → x.over = false → v = u ∨ ∃ y ∈ b.arrivals, y.1 = v

/-- The phase of barrier k completed with the arrival of thread u, which went on as given (R287, R288): the phase counter has risen and the
arrivals are gone, each thread of the cohort knows of the write completion that an arriving thread knew of (log 32), and an arrival at cluster
scope outside fused mode makes later reads of their cores fetch anew (R355, R358). -/
structure PhaseDone (s t : State) (g : Group) (u : Nat) (th : Thread) (co : Cohort) (k scope : Nat) : Prop where
  barrier : ∀ c, getK t.cohorts c = if c = th.lc.cohort then
    some { co with barriers := putK co.barriers k { arrivedBarrier co k u scope with phase := (getBarrier co k).phase + 1, arrivals := [] } }
    else getK s.cohorts c
  threads : let w := ((arrivedBarrier co k u scope).arrivals.map fun x => ((getThread s x.1).map (·.wct)).getD 0).foldl Nat.max 0
    ∀ v x, getThread s v = some x → getThread t v = some
      (if v = u then { afterWord g th with pc := wordAddr g + 4, wait := none, answers := [], status := .issuing, wct := Nat.max th.wct w }
       else if x.lc.cohort = th.lc.cohort then { x with wct := Nat.max x.wct w } else x)
  acquired : ∀ core,
    let anew : Prop := (∃ v x, getThread s v = some x ∧ x.lc.cohort = th.lc.cohort ∧ v / 1024 = core) ∧
      (∃ y ∈ (arrivedBarrier co k u scope).arrivals, y.2 = 2) ∧ s.fusedClusters.contains (core / 32) = false
    (anew → ∃ q, getK t.acquired core = some q ∧ s.seqno ≤ q) ∧ (¬ anew → getK t.acquired core = getK s.acquired core)
  rest : t = { s with
    threads := t.threads, cohorts := t.cohorts, acquired := t.acquired, seqno := t.seqno, opens := s.opens.set s.cur { g with idx := g.idx + 1 } }

end Sys2Proof

/-- `BARA`, `BARW` and `BAR` outside deterministic nodes: a thread waits for the phase of its last arrival and for its release fence, then
`BARA` and `BAR` record an arrival at the current phase; the last arrival completes the phase; `BAR` and `BARW` wait for that. That a
completed phase merges the write-completion times of the cohort's threads is the model's reading of R358 (log 32) (R287, R288, R286, R355, R358, R203). -/
def Obligations.BarrierResults : Prop :=
  ∀ (a : BitVec 6) (sc : BitVec 3) (nw : Bool) (p : BitVec 3) s g u th co, Alone s g freeGate p u th → th.over = false →
    getK s.cohorts th.lc.cohort = some co →
    (∀ n, getK s.nodes co.node = some n → n.det = false) → a.toNat < 16 →
    let k := a.toNat
    let c := th.lc.cohort
    let opened : Prop := ∃ x ∈ (getBarrier co k).arrivals, x.1 = u
    let added (i : Instr) (f : State → State → Prop) : Prop := ∃ t, exec i s = .next t ∧
      (∀ d, getK t.cohorts d = if d = c then some { co with barriers := putK co.barriers k (arrivedBarrier co k u sc.toNat) } else getK s.cohorts d) ∧
      f { s with cohorts := t.cohorts } t
    (¬ opened → ∃ t, exec (.barw a nw p) s = .next t ∧ GoesOn s s t g u (afterWord g th)) ∧
    (opened → ∃ t, exec (.barw a nw p) s = .next t ∧ Waits s s t g u { th with wait := some ⟨startedKind, 0, 0⟩ }) ∧
    (sc.toNat ≤ 5 → barrierScope s c ≤ sc.toNat → ∀ i ∈ [(Instr.bar a sc nw p, true), (.bara a sc nw p, false)],
      ((opened ∨ ¬ FenceMet s u th sc.toNat) → ∃ t, exec i.1 s = .next t ∧ Waits s s t g u { th with wait := some ⟨startedKind, 0, 0⟩ }) ∧
      (¬ opened → FenceMet s u th sc.toNat → LastOf s c u (getBarrier co k) → ∃ t, exec i.1 s = .next t ∧ PhaseDone s t g u th co k sc.toNat) ∧
      (¬ opened → FenceMet s u th sc.toNat → ¬ LastOf s c u (getBarrier co k) →
        added i.1 fun r t => if i.2 then Waits s r t g u { th with wait := some ⟨arrivedKind, 0, 0⟩ } else GoesOn s r t g u (afterWord g th)))

namespace Sys2Proof

/-- A thread that waited in `FLUSHD` of a node, released. -/
def flushReleased (node : Nat) (x : Thread) : Thread :=
  match x.wait with
  | some w => if w.kind = flushdKind ∧ x.lc.node = node then { x with wait := some ⟨doneKind, 0, 0⟩ } else x
  | none => x

/-- A thread that `FLUSHD` does not wait for: over, or in `FLUSHD` (R291). -/
def InFlush (x : Thread) : Prop := x.over = true ∨ ∃ w, x.wait = some w ∧ w.kind = flushdKind

end Sys2Proof

/-- `FLUSHD` outside deterministic nodes: it waits as `FENCE.die` does, then for every launched thread of the node's grid, placed or saved;
the last one lets all go on (R291, R292, R203). -/
def Obligations.FlushdResults : Prop :=
  ∀ (nw : Bool) (p : BitVec 3) s g u th n, Alone s g freeGate p u th → th.over = false →
    getK s.nodes th.lc.node = some n → n.det = false →
    let node := th.lc.node
    let full : Prop := n.grid.1 * n.grid.2.1 * n.grid.2.2 ≤ n.nextUnit ∧
      (∀ v x, v ≠ u → getThread s v = some x → x.lc.node = node → InFlush x) ∧
      (∀ c ∈ s.cohorts, c.2.node = node → ∀ v ∈ c.2.saved, InFlush v.thread)
    (¬ FenceMet s u th 3 → ∃ t, exec (.flushd nw p) s = .next t ∧ Waits s s t g u { th with wait := some ⟨startedKind, 0, 0⟩ }) ∧
    (FenceMet s u th 3 → ¬ full →
      ∃ t, exec (.flushd nw p) s = .next t ∧ Waits s s t g u { afterWord g th with wait := some ⟨flushdKind, 0, 0⟩ }) ∧
    (FenceMet s u th 3 → full → ∃ t, exec (.flushd nw p) s = .next t ∧
      (∀ v, getThread t v = if v = u then some { afterWord g th with pc := wordAddr g + 4, wait := none, status := .issuing }
        else (getThread s v).map (flushReleased node)) ∧
      (∀ c, getK t.cohorts c = (getK s.cohorts c).map fun x =>
        { x with saved := x.saved.map fun v => { v with thread := flushReleased node v.thread } }) ∧
      t = { s with threads := t.threads, cohorts := t.cohorts, opens := s.opens.set s.cur { g with idx := g.idx + 1 } })

namespace Sys2Proof

/-- A format-C command: its engine class, its gates, how it uses the fields d, a and b, and its reply bit. -/
structure CmdForm where
  instr : Instr
  cls : Nat
  gate : Gate
  d : CmdField
  a : CmdField
  b : CmdField
  reply : Bool

/-- The commands of CPY. -/
def copyForms (d a b : BitVec 6) (v : BitVec 3) (q : Bool) : List CmdForm :=
  [⟨.cpyG2s a b, 0, freeGate, .none, .pair, .pair, false⟩, ⟨.cpyS2g a b, 0, freeGate, .none, .pair, .pair, false⟩,
   ⟨.cpyG2g a b, 0, freeGate, .none, .pair, .block, false⟩, ⟨.cpyGath a b v, 0, freeGate, .none, .pair, .block, false⟩,
   ⟨.cpyFill a b, 0, freeGate, .none, .pair, .pair, false⟩, ⟨.cpyMap a b, 0, freeGate, .none, .pair, .block, false⟩,
   ⟨.cpyUnmap b, 0, freeGate, .none, .none, .reg, false⟩, ⟨.cpyWb b, 0, freeGate, .none, .none, .reg, false⟩]

/-- The commands of MTX. -/
def matrixForms (d a b : BitVec 6) (v : BitVec 3) (q : Bool) : List CmdForm :=
  [⟨.mtxMwld a b, 1, ⟨none, 0, 1⟩, .none, .pair, .reg, false⟩, ⟨.mtxMwscl a b, 1, ⟨none, 0, 1⟩, .none, .pair, .reg, false⟩,
   ⟨.mtxMswap v, 1, ⟨none, 0, 1⟩, .none, .none, .none, false⟩, ⟨.mtxMstr a b, 1, ⟨none, 0, 1⟩, .none, .pair, .reg, false⟩,
   ⟨.mtxMprom v, 1, ⟨none, 0, 1⟩, .none, .none, .none, false⟩, ⟨.mtxMzero b, 1, ⟨none, 0, 1⟩, .none, .none, .reg, false⟩,
   ⟨.mtxMrd d a, 1, ⟨none, 0, 1⟩, .first 8 52, .reg, .none, true⟩, ⟨.mtxMwr a b, 1, ⟨none, 0, 1⟩, .none, .reg, .first 8 52, false⟩,
   ⟨.mtxMout d a b v, 1, ⟨none, 0, 1⟩, .reg, .pair, .pair, true⟩, ⟨.mtxMdrain d a b v, 1, ⟨none, 0, 1⟩, .reg, .pair, .reg, true⟩,
   ⟨.mtxMstat d v, 1, ⟨none, 0, 1⟩, .pair, .none, .none, true⟩]

/-- The commands of SPL and SLV. -/
def unitForms (d a b : BitVec 6) (v : BitVec 3) (q : Bool) : List CmdForm :=
  [⟨.splScfg a, 2, ⟨some 3, 0, 2⟩, .none, .pair, .none, false⟩, ⟨.splSproj d a, 2, ⟨some 3, 0, 2⟩, .reg, .pair, .none, true⟩,
   ⟨.splSbin d a, 2, ⟨some 3, 0, 2⟩, .reg, .pair, .none, true⟩, ⟨.splSsort d a, 2, ⟨some 3, 0, 2⟩, .reg, .pair, .none, true⟩,
   ⟨.splSblend d a, 2, ⟨some 3, 0, 2⟩, .reg, .pair, .none, true⟩, ⟨.splSrepl d a, 2, ⟨some 3, 0, 2⟩, .reg, .pair, .none, true⟩,
   ⟨.slvCfg a, 3, ⟨some 4, 0, 0⟩, .none, .pair, .none, false⟩, ⟨.slvLu d a, 3, ⟨some 4, 0, 0⟩, .reg, .pair, .none, true⟩,
   ⟨.slvLus d a, 3, ⟨some 4, 0, 0⟩, .reg, .pair, .none, true⟩, ⟨.slvChol d a, 3, ⟨some 4, 0, 0⟩, .reg, .pair, .none, true⟩,
   ⟨.slvChs d a, 3, ⟨some 4, 0, 0⟩, .reg, .pair, .none, true⟩, ⟨.slvCg d a, 3, ⟨some 4, 0, 0⟩, .reg, .pair, .none, true⟩,
   ⟨.slvJac d a, 3, ⟨some 4, 0, 0⟩, .reg, .pair, .none, true⟩]

/-- The commands of COL, GRF and PRB. -/
def nodeForms (d a b : BitVec 6) (v : BitVec 3) (q : Bool) : List CmdForm :=
  [⟨.colGrp d a b, 4, ⟨some 8, 0, 0⟩, .reg, .pair, .reg, true⟩, ⟨.colGrpFree b, 4, ⟨some 8, 0, 0⟩, .none, .none, .reg, false⟩,
   ⟨.colAred d a, 4, ⟨some 8, 0, 0⟩, .reg, .pair, .none, true⟩, ⟨.colRsc d a, 4, ⟨some 8, 0, 0⟩, .reg, .pair, .none, true⟩,
   ⟨.colAgath d a, 4, ⟨some 8, 0, 0⟩, .reg, .pair, .none, true⟩, ⟨.colBcast d a, 4, ⟨some 8, 0, 0⟩, .reg, .pair, .none, true⟩,
   ⟨.colPut d a, 4, ⟨some 8, 0, 0⟩, .reg, .pair, .none, true⟩, ⟨.colWait d a b, 4, ⟨some 8, 0, 0⟩, .reg, .reg, .reg, true⟩,
   ⟨.grfLaunch d a q, 5, ⟨some 7, 0, 0⟩, .reg, .pair, .none, true⟩, ⟨.grfQput b, 5, freeGate, .none, .none, .first 3 57, false⟩,
   ⟨.grfQget d, 5, freeGate, .first 4 56, .none, .none, true⟩, ⟨.grfNsig a, 5, freeGate, .none, .pair, .none, false⟩,
   ⟨.prbMark a b, 6, freeGate, .none, .reg, .reg, false⟩, ⟨.prbSamp, 6, freeGate, .none, .none, .none, false⟩,
   ⟨.prbRdx d a, 6, freeGate, .reg, .reg, .none, true⟩]

/-- The commands of every engine (R245, R275, R293, R300, R335, R377, R416). -/
def cmdForms (d a b : BitVec 6) (v : BitVec 3) (q : Bool) : List CmdForm :=
  copyForms d a b v q ++ matrixForms d a b v q ++ unitForms d a b v q ++ nodeForms d a b v q

/-- A cohort that holds the array or the pipeline of a core, if the class of a command has one (R242, R298). -/
def holderOf (s : State) (core cls : Nat) : Option Nat :=
  if cls = 1 then (getGirder s core).owner else if cls = 2 then (getScarab s core).owner else none

/-- Thread u issued a command into the queue of a class in machine r: the entry is its queue's last, the thread's `dc3` and busy registers say
what the command will reply, a free array or pipeline of the core is the cohort's now, and nothing else changes (R160, R161, R232, R242, R243,
R298, R299). -/
structure Placed (s r t : State) (g : Group) (u cohort : Nat) (th : Thread) (f : CmdForm) (d : BitVec 6) (e : QEntry) : Prop where
  thread : getThread t u = some
    (let th1 := { afterWord g th with pc := wordAddr g + 4 }
     if f.reply then { th1 with dc := putK th.dc 3 (readDc th 3 + 1), busy := th.busy ++ (if d = 0 then [] else f.d.regs d) } else th1)
  others : ∀ v, v ≠ u → getThread t v = getThread s v
  queue : ∀ core cls, cls < 8 → getQueue t core cls =
    if core = g.core ∧ cls = f.cls then getQueue s core cls ++ [e] else getQueue s core cls
  array : ∀ core, getGirder t core =
    if core = g.core ∧ f.cls = 1 ∧ (getGirder s core).owner = none then
      { Girder.free with owner := some cohort, ramp := (getGirder s core).ramp, burst := (getGirder s core).burst }
    else getGirder s core
  pipeline : ∀ core, getScarab t core =
    if core = g.core ∧ f.cls = 2 ∧ (getScarab s core).owner = none then { Scarab.free with owner := some cohort } else getScarab s core
  rest : t = { r with
    threads := t.threads, opens := s.opens.set s.cur { g with idx := g.idx + 1 }, queues := t.queues, girders := t.girders
    scarabs := t.scarabs, seqno := t.seqno }

end Sys2Proof

/-- Each format-C word puts one entry at the end of its engine's queue, with the operands of its lane, the guard of its clause and, with a
reply, `dc3` raised and its registers pending; an `MTX` command that reads memory takes the values that stand there now (R249, R256; a row
that cannot be read now is read when it starts: log 29); with the queue full, or the unit held by another cohort, it does not issue (R160, R161, R232,
R242, R245, R275, R281, R293, R298, R300, R335, R377, R416). -/
def Obligations.CommandResults : Prop :=
  ∀ (d a b : BitVec 6) (v : BitVec 3) (q : Bool), ∀ f ∈ cmdForms d a b v q, ∀ s g u th w, Alone s g f.gate 7 u th → encode f.instr = some w →
    let cohort := crewCohort s (u / 64)
    ∀ xs ys, destLegal th f.d d = true → readField th f.a a = some xs → readField th f.b b = some ys →
      ((getQueue s g.core f.cls).length < 16 → (f.reply = true → readDc th 3 < 63) →
        (holderOf s g.core f.cls = none ∨ holderOf s g.core f.cls = some cohort) →
        ∃ t n, exec f.instr s = .next t ∧
          -- the rows of memory that an `MTX` command reads are read now
          let e := withSeen (claimUnit s g.core f.cls cohort) g.core
            ⟨n, w, wordAddr g, u / 64, cohort, [⟨u % 64, u, xs, ys, th.batch⟩], g.hdr.guard, g.hdr.sense, false, 0, [], []⟩
          Placed s e.1 t g u cohort th f d e.2 ∧ (mtxReads e.2 = [] → e.2.seen = []) ∧ t.mem = s.mem) ∧
      ((16 ≤ (getQueue s g.core f.cls).length ∨ (∃ c, holderOf s g.core f.cls = some c ∧ c ≠ cohort)) → exec f.instr s = .next s)

namespace Sys2Proof

/-- The threads of a group in which the predicate is true (R40). -/
def ActiveIn (s : State) (g : Group) (p : BitVec 3) (u : Nat) (th : Thread) : Prop :=
  u ∈ g.members ∧ getThread s u = some th ∧ readPred th p.toNat = true

/-- What a word that acts once for its group leaves of its threads: each of them is past it with its latch invalid (R40), and every other
thread is as it was. -/
structure GroupGoes (s t : State) (g : Group) : Prop where
  lanes : ∀ u ∈ g.members, ∀ th, getThread s u = some th → ∃ th', getThread t u = some th' ∧ Skipped g th th'
  others : ∀ u, u ∉ g.members → getThread t u = getThread s u
  opens : t.opens = s.opens.set s.cur { g with idx := g.idx + 1 }

/-- The clause header of an engine program at an address: class 1 or 2 (R235, R428). -/
def ProgramAt (s : State) (core asid : Nat) (addr : DWord) (cls : Nat) : Prop :=
  addr.toNat % 4 = 0 ∧ addr.toNat < 2 ^ 57 ∧ (cls = 1 ∨ cls = 2) ∧
    ∃ e h, (translate s (tlbUnits core) asid addr.toNat .fetch).2 = .ok e ∧ poisoned s (paOf e addr.toNat) = false ∧
      decodeHeader (BitVec.ofNat 32 (readNum s (keyOf s asid) (paOf e addr.toNat) 4)) = some h ∧ h.cls = cls

/-- A crew's guard slot after `GSET` in a group (R231). -/
def SlotSet (s t : State) (g : Group) (p : BitVec 3) (slot : Nat) (v : Nat → Nat → Prop) : Prop :=
  ∀ c, ((∃ u th, ActiveIn s g p u th ∧ u / 64 = c) →
      ∃ n, v c n ∧ getK t.crews c = (getK s.crews c).map fun x => { x with guards := x.guards.set (slot - 1) n }) ∧
    ((¬ ∃ u th, ActiveIn s g p u th ∧ u / 64 = c) → getK t.crews c = getK s.crews c)

/-- The ramp of an array after `MBURST` (R240, R257): IDLE ramps up, ramp-down goes on and ramps up after it. -/
def burstRamp (ramp : Nat) : Nat := if ramp = 0 then 1 else if ramp = 3 then 4 else ramp

end Sys2Proof

/-- `GSET` makes a guard slot TRUE in each crew with an active thread in which its predicate is true and FALSE in the other crews with an
active thread, `GSET.open` makes it PENDING; `MBURST` opens the window of the core's array and starts or restarts its ramp-up; `FORK` starts
one program for a crew, with the registers that R235 gives, and waits while four of its class run on the core (R231, R235, R240, R257). -/
def Obligations.CrewResults : Prop :=
  ∀ (d a b : BitVec 6) (nw : Bool) (p : BitVec 3) s g, Issues s g →
    (Lanes s g p (LaneFree g freeGate) → 1 ≤ d.toNat → d.toNat ≤ 7 →
      (a.toNat ≤ 7 → ∃ t, exec (.gset d a nw p) s = .next t ∧ GroupGoes s t g ∧
        SlotSet s t g p d.toNat (fun c n =>
          (n = 1 ∧ ∃ u th, ActiveIn s g p u th ∧ u / 64 = c ∧ readPred th a.toNat = true) ∨
          (n = 2 ∧ ∀ u th, ActiveIn s g p u th → u / 64 = c → readPred th a.toNat = false)) ∧
        t = { s with threads := t.threads, opens := t.opens, crews := t.crews }) ∧
      (∃ t, exec (.gsetOpen d nw p) s = .next t ∧ GroupGoes s t g ∧ SlotSet s t g p d.toNat (fun _ n => n = 0) ∧
        t = { s with threads := t.threads, opens := t.opens, crews := t.crews })) ∧
    (Lanes s g p (fun th => LaneFree g ⟨none, 0, 1⟩ th ∧ (srcReg th a).isSome = true) → (∃ u th, ActiveIn s g p u th) →
      ∃ t, exec (.mburst a nw p) s = .next t ∧ GroupGoes s t g ∧
        (∀ c, getGirder t c = if c = g.core then { getGirder s c with burst := true, ramp := burstRamp (getGirder s c).ramp } else getGirder s c) ∧
        t = { s with threads := t.threads, opens := t.opens, girders := t.girders }) ∧
    (∀ u th x y crew, Alone s g freeGate p u th → srcPair th a = some x → srcPair th b = some y → getK s.crews (u / 64) = some crew →
      ∀ cls, ProgramAt s g.core th.lc.asid (bitsOf x) cls → (cls = 1 → isSCore g.core = false) → (∀ q ∈ crew.progs, q.cls ≠ cls) →
        (4 ≤ runningPrograms s g.core cls → exec (.fork a b nw p) s = .next s) ∧
        (runningPrograms s g.core cls < 4 → ∃ t n, exec (.fork a b nw p) s = .next t ∧ GroupGoes s t g ∧
          (∀ c, getK t.crews c = if c = u / 64 then some { crew with
              progs := crew.progs ++
                [⟨cls, u / 64, [(1, BitVec.ofNat 32 crew.idx), (2, y.1.val), (3, y.2.val)], bitsOf x, bitsOf x, none, [], 0, [], none, n, 0⟩] }
            else getK s.crews c) ∧
          t = { s with threads := t.threads, opens := t.opens, crews := t.crews, seqno := t.seqno }))

namespace Sys2Proof

/-- The taking-part lanes of a rendezvous of a group in crew c (R218): lane l is named by the mask and its thread is in the group with its
predicate true. -/
def partLane (s : State) (g : Group) (p : BitVec 3) (c : Nat) (m : DWord) (l : Nat) : Option Thread :=
  if m.getLsbD l = true ∧ c * 64 + l ∈ g.members then (getThread s (c * 64 + l)).filter fun th => readPred th p.toNat else none

/-- The group is all that a rendezvous instance of crew c needs (R217, R218): it issues with its threads all of that crew and of one level,
no other thread of the crew waits at the word, all its threads present mask m, and each lane that m names is in it, ended, or never
launched. -/
structure MeetsAt (s : State) (g : Group) (c : Nat) (mask : Thread → Option DWord) (m : DWord) : Prop where
  issues : Issues s g
  nonempty : g.members ≠ []
  crew : ∀ u ∈ g.members, u / 64 = c
  level : ∃ l, ∀ u ∈ g.members, ∀ th, getThread s u = some th → th.level = l
  alone : ∀ v x w, getThread s v = some x → v / 64 = c → v ∉ g.members → x.wait = some w → w.kind = joinedKind → x.pc ≠ wordAddr g
  mask : ∀ u ∈ g.members, ∀ th, getThread s u = some th → mask th = some m
  named : ∀ l, l < 64 → m.getLsbD l = true → c * 64 + l ∈ g.members ∨ (∀ th, getThread s (c * 64 + l) = some th → th.status = .exited ∨ th.status = .halted)

/-- What a rendezvous leaves of its threads: each that joined with its predicate true is as R says, the others are past the word with their
latch invalid (R219). -/
structure Met (s t : State) (g : Group) (p : BitVec 3) (R : Nat → Thread → Thread → Prop) : Prop where
  lanes : ∀ u ∈ g.members, ∀ th, getThread s u = some th → ∃ th', getThread t u = some { th' with pc := wordAddr g + 4, wait := none, status := .issuing } ∧
    LaneAfter g p (R u) { th with wait := none, status := .issuing } th'
  others : ∀ u, u ∉ g.members → getThread t u = getThread s u
  opens : t.opens = s.opens.set s.cur { g with idx := g.idx + 1 }

/-- A register of a thread as an exchange reads it, and the control word in register d (R222). -/
def valueB (b : BitVec 6) (th : Thread) : Dexel := (srcReg th b).getD Dexel.zero
/-- See `valueB`. -/
def control (d : BitVec 6) (th : Thread) : Nat := (readReg th d.toNat).val.toNat

/-- `BFLY` on halves (R225, R74, R83): element 0 from the lane's own element 0 and element 1 from the partner's element 0, or element 0 from
the partner's element 1 and element 1 from its own element 1; each with its tangents, of which T16 stores only those of an element 0. -/
def halfMix (th : Thread) (low : Bool) (own partner : Dexel) : Dexel :=
  let join (x y : Word) : Word := if low then (x &&& 0xFFFF) ||| (y <<< 16) else (y >>> 16) ||| (x &&& 0xFFFF0000)
  ⟨join own.val partner.val,
    (List.range th.lc.tcount).map fun k =>
      if th.lc.t16 then (if low then own.slot k else 0) else join (own.slot k) (partner.slot k)⟩

/-- The taking-part lanes in ascending order (R226). -/
def partLanes (part : Nat → Option Thread) : List Nat := (List.range 64).filter fun l => (part l).isSome

/-- An exchange member of a thread to which nothing is delivered: no register changes, and the latch of the word takes register d, with its
error if it has one (log 26). -/
structure KeptReg (g : Group) (d : BitVec 6) (th th' : Thread) : Prop where
  regs : ∀ n, readReg th' n = readReg th n
  latch : ∀ k, k < 4 → readLatch th' k = if k = g.latch then latch32 (readReg th d.toNat) else readLatch th k
  poison : ∀ c, c ∈ th'.poison ↔ (c ∈ th.poison ∧ c ≠ 60 + g.latch) ∨ (c = 60 + g.latch ∧ d.toNat ∈ th.poison)
  rest : th' = { th with pc := g.pc + 4, lats := th'.lats, poison := th'.poison }

/-- The value that each exchange member delivers to a thread in lane l, if any (R223-R226). -/
def exchangeForms (d a b : BitVec 6) (nw : Bool) (p : BitVec 3) :
    List (Instr × ((Nat → Option Thread) → Nat → Thread → Option Dexel → Prop)) :=
  let bv := valueB b
  let k (th : Thread) : Nat := control d th % 64
  let from? (x : Option Thread) (th : Thread) : Option Dexel := some ((x.map bv).getD (bv th))
  [(.lgetAt d a b nw p, fun part _ th v => v = from? (part (k th)) th),
   (.lgetLower d a b nw p, fun part l th v => v = from? (if k th ≤ l then part (l - k th) else none) th),
   (.lgetHigher d a b nw p, fun part l th v => v = from? (part (l + k th)) th),
   (.lgetFlip d a b nw p, fun part l th v => v = from? (part (l ^^^ k th)) th),
   (.push d a b nw p, fun part l _ v =>
     let sends (n : Nat) (x : Thread) : Prop := part n = some x ∧ control d x / 64 % 2 = 0 ∧ control d x % 64 = l
     ((∀ n x, ¬ sends n x) ∧ v = none) ∨ (∃ n x, sends n x ∧ (∀ n' x', sends n' x' → n' ≤ n) ∧ v = some (bv x))),
   (.bfly d a b nw p, fun part l th v => v =
     (match part (l ^^^ k th) with
      | none => some (bv th)
      | some x => if control d th / 64 % 4 = 0 then some (bv x) else some (halfMix th (l &&& k th == 0) (bv th) (bv x)))),
   (.compress d a b nw p, fun part l _ v => v = some ((((partLanes part)[l]?.bind part).map bv).getD Dexel.zero)),
   (.expand d a b nw p, fun part l _ v => v =
     if (part l).isSome then some (((part ((partLanes part).filter (· < l)).length).map bv).getD Dexel.zero) else none)]

/-- The predicate that each vote writes: mask m, and what named lane l supplies (R227). -/
def voteForms (d a b : BitVec 6) (nw : Bool) (p : BitVec 3) : List (Instr × (DWord → (Nat → Bool) → Prop)) :=
  [(.voteAnd d a b nw p, fun m bit => ∀ l, l < 64 → m.getLsbD l = true → bit l = true),
   (.voteOr d a b nw p, fun m bit => ∃ l, l < 64 ∧ m.getLsbD l = true ∧ bit l = true),
   (.voteEqv d a b nw p, fun m bit => ∃ v, ∀ l, l < 64 → m.getLsbD l = true → bit l = v)]

/-- An exchange member whose instance its own group completes writes what R223-R226 say in each thread that joined with its predicate
true; where `PUSH` or `EXPAND` delivers nothing no register changes, and that the latch takes register d then is log 26 (R217-R220, R222, R74). -/
def ExchangeResults : Prop :=
  ∀ (d a b : BitVec 6) (nw : Bool) (p : BitVec 3), ∀ f ∈ exchangeForms d a b nw p, ∀ s g c m,
    MeetsAt s g c (fun th => (srcPair th a).map bitsOf) m →
    (Lanes s g p fun th => LaneFree g freeGate th ∧ (srcReg th b).isSome = true ∧ dstReg th d nw = true ∧
      (f.1 = .bfly d a b nw p → control d th % 64 ≠ 0 ∧ control d th / 64 % 4 ≤ 1)) →
    ∃ t, exec f.1 s = .next t ∧
      Met s t g p (fun u th th' => ∃ v, f.2 (partLane s g p c m) (u % 64) th v ∧
        (match v with | some x => WroteReg g d nw x th th' | none => KeptReg g d th th')) ∧
      t = { s with threads := t.threads, opens := t.opens }

/-- `VOTE`, `BALLOT` and `HMERGE` whose instance their own group completes: the vote over the named lanes in a predicate, their bits in a
pair, or the sums of the two bins of register b over the taking-part lanes in a pair (R217-R220, R222, R227, R229, R37, R38). -/
def VoteResults : Prop :=
  ∀ (d a b : BitVec 6) (nw : Bool) (p : BitVec 3) s g c m,
    MeetsAt s g c (fun th => (srcPair th a).map bitsOf) m → 
    let part := partLane s g p c m
    let bit (l : Nat) : Bool := (part l).any fun x => readPred x b.toNat
    (∀ f ∈ voteForms d a b nw p, (Lanes s g p fun th => LaneFree g freeGate th ∧ dstPred d nw = true ∧ b.toNat ≤ 7) →
      ∃ t v, exec f.1 s = .next t ∧ (v = true ↔ f.2 m bit) ∧
        Met s t g p (fun _ th th' => WrotePreds g (fun n => if n = d.toNat then some v else none) th th') ∧
        t = { s with threads := t.threads, opens := t.opens }) ∧
    ((Lanes s g p fun th => LaneFree g freeGate th ∧ dstPair th d nw = true ∧ b.toNat ≤ 7) →
      ∃ t v, exec (.ballot d a b nw p) s = .next t ∧
        (∀ l, l < 64 → (bitsOf v).getLsbD l = (m.getLsbD l && bit l)) ∧ v.1.tan = [] ∧ v.2.tan = [] ∧
        Met s t g p (fun _ th th' => WrotePair g d nw v th th') ∧ t = { s with threads := t.threads, opens := t.opens }) ∧
    ((Lanes s g p fun th => LaneFree g freeGate th ∧ dstPair th d nw = true ∧ (srcReg th b).isSome = true) →
      ∃ t, exec (.hmerge d a b nw p) s = .next t ∧
        (let sum (f : Nat → Nat) : Dexel := ⟨BitVec.ofNat 32 ((partLanes part).map fun l => ((part l).map fun x => f (valueB b x).val.toNat).getD 0).sum, []⟩
         Met s t g p (fun _ th th' => WrotePair g d nw (sum (· % 65536), sum (· / 65536)) th th')) ∧
        t = { s with threads := t.threads, opens := t.opens })

end Sys2Proof

/-- The cross-lane instructions whose instance their own group completes (R217-R220, R222-R227, R229; log 26). -/
def Obligations.CrossLaneResults : Prop := ExchangeResults ∧ VoteResults

/-- The thread form of `RDVZ` for all live lanes of a crew: when every program of a named class waits at the point, they and the threads go on,
and a program at `RDVZ.end` ends (R217-R220, R239). -/
def Obligations.RdvzResults : Prop :=
  ∀ (a b : BitVec 6) (nw : Bool) (p : BitVec 3) s g c crew,
    MeetsAt s g c (fun _ => some (BitVec.allOnes 64)) (BitVec.allOnes 64) → a.toNat < 16 → 1 ≤ b.toNat → b.toNat ≤ 3 →
    Lanes s g p (LaneFree g freeGate) → getK s.crews c = some crew →
    let named (cls : Nat) : Prop := (cls = 1 ∧ b.toNat ≠ 2) ∨ (cls = 2 ∧ b.toNat ≠ 1)
    (∀ q ∈ crew.progs, (q.cls = 1 ∨ q.cls = 2) ∧ (named q.cls → ∃ e, q.waiting = some (a.toNat, e))) →
    (∀ f ∈ crew.faults, (f.cls = 1 ∨ f.cls = 2) ∧ ¬ named f.cls) →
    ∃ t qs, exec (.rdvz a b nw p) s = .next t ∧
      (∀ k, getK t.crews k = if k = c then some { crew with progs := qs } else getK s.crews k) ∧
      (∀ q, q ∈ qs ↔ (q ∈ crew.progs ∧ ¬ named q.cls) ∨
        (∃ q0 ∈ crew.progs, named q0.cls ∧ q0.waiting = some (a.toNat, false) ∧ q = { q0 with waiting := none, idx := q0.idx + 1 })) ∧
      Met s t g p (fun _ th th' => th' = afterWord g th) ∧ t = { s with threads := t.threads, opens := t.opens, crews := t.crews }

namespace Sys2Proof

/-- Program q of a crew is q' now, and nothing else changed but the order of the programs. -/
structure ProgMoved (s t : State) (crew : Crew) (q q' : Prog) : Prop where
  crews : ∀ c, getK t.crews c = if c = q.crew then some { crew with progs := crew.progs.map fun x => if x.cls = q.cls then q' else x } else getK s.crews c
  rest : t = { s with crews := t.crews, seqno := t.seqno }

/-- Program q of a crew stopped with an engine fault (R238): its class, the cause, the word's address and the word wait for the crew's
`RDVZ`. -/
structure ProgStopped (s t : State) (crew : Crew) (q : Prog) (cause : Nat) : Prop where
  crews : ∀ c, getK t.crews c = if c = q.crew then some { crew with
      progs := crew.progs.filter fun x => x.cls ≠ q.cls
      faults := crew.faults ++ [⟨q.cls, cause, q.cla + BitVec.ofNat 64 (4 * (q.idx + 1)), q.code.getD q.idx 0⟩] } else getK s.crews c
  rest : t = { s with crews := t.crews, seqno := t.seqno }

/-- Pair codes of an engine program (R237). -/
def progPair (c : BitVec 6) : Prop := c.toNat % 2 = 0 ∧ 2 ≤ c.toNat ∧ c.toNat ≤ 14

end Sys2Proof

/-- The engine form of `RDVZ` makes its program wait at point a, to end there if b is 1; a point or form that does not exist is an engine
fault that stops the program. That it accepts any predicate field is log 26. The words of a program compute in its `e` registers, `e0` reading 0 and discarding writes, and a field that
names none is an engine fault (R235-R239). -/
def Obligations.ProgramResults : Prop :=
  ∀ (d a b : BitVec 6) (i12 : BitVec 12) (i20 : BitVec 20) (nw : Bool) (p : BitVec 3) s q crew, getK s.crews q.crew = some crew →
    q.hdr ≠ none → q.idx < q.code.length →
    let w := q.code.getD q.idx 0
    let at' := q.cla + BitVec.ofNat 64 (4 * (q.idx + 1))
    let e (n : Nat) : Word := if n = 0 then 0 else (getK q.regs n).getD 0
    let wrote (t : State) (n : Nat) (v : Word) : Prop := ∃ q' : Prog, ProgMoved s t crew q { q' with idx := q.idx + 1 } ∧
      (∀ k, (if k = 0 then 0 else (getK q'.regs k).getD 0) = if k = n ∧ n ≠ 0 then v else e k) ∧ q' = { q with regs := q'.regs, turn := q'.turn }
    let wrotePair (t : State) (n : Nat) (v : DWord) : Prop := ∃ q' : Prog, ProgMoved s t crew q { q' with idx := q.idx + 1 } ∧
      (∀ k, (if k = 0 then 0 else (getK q'.regs k).getD 0) = if k = n then v.setWidth 32 else if k = n + 1 then (v >>> 32).setWidth 32 else e k) ∧
      q' = { q with regs := q'.regs, turn := q'.turn }
    (progAtRdvz s (.rdvzEngine a b nw p) = some q → opF w = 0x3F → decodeEngine w = .ok (.rdvzEngine a b nw p) → q.cls ≤ 2 →
      (a.toNat < 16 → b.toNat ≤ 1 → ∃ t, exec (.rdvzEngine a b nw p) s = .next t ∧
        ProgMoved s t crew q { q with waiting := some (a.toNat, b = 1) }) ∧
      ((16 ≤ a.toNat ∨ 2 ≤ b.toNat) → ∃ t, exec (.rdvzEngine a b nw p) s = .next t ∧ ProgStopped s t crew q 0x02)) ∧
    ((opF w).toNat < 0x38 →
      (decodeEngine w = .ok (.iaddi d a i12 false false) →
        (d.toNat < 16 → a.toNat < 16 → wrote (progStep s q) d.toNat (e a.toNat + i12.signExtend 32)) ∧
        ((16 ≤ d.toNat ∨ 16 ≤ a.toNat) → ProgStopped s (progStep s q) crew q 0x02)) ∧
      (decodeEngine w = .ok (.iaddi64 d a i12 false false) →
        (progPair d → progPair a → wrotePair (progStep s q) d.toNat ((e (a.toNat + 1) ++ e a.toNat) + i12.signExtend 64)) ∧
        (¬ (progPair d ∧ progPair a) → ProgStopped s (progStep s q) crew q 0x02)) ∧
      (decodeEngine w = .ok (.lui d i20) →
        (d.toNat < 16 → wrote (progStep s q) d.toNat (i20.setWidth 32 <<< 12)) ∧
        (16 ≤ d.toNat → ProgStopped s (progStep s q) crew q 0x02)) ∧
      (decodeEngine w = .ok (.auipc d i20) →
        (progPair d → wrotePair (progStep s q) d.toNat (at' + (i20.setWidth 32 <<< 12 : Word).signExtend 64)) ∧
        (¬ progPair d → ProgStopped s (progStep s q) crew q 0x02)))

namespace Sys2Proof

/-- Machine t is r after bytes have arrived at their home under a key (R351, R399): they read as given and every other byte as before, and nothing
else changed but what arriving does: keys, stamps and poison of lines, the watches that fired, what nodes keep of their bases, and the power state of
a die that was met (R406). -/
structure Landed (r t : State) (key pa : Nat) (bs : List Byte) : Prop where
  bytes : ∀ q, readPa t key q = if pa ≤ q ∧ q < pa + bs.length then bs.getD (q - pa) 0 else readPa r key q
  threads : ∀ v, ((getThread t v).map fun th => { th with watch := none }) = (getThread r v).map fun th => { th with watch := none }
  rest : t = { r with
    mem := t.mem, lineKeys := t.lineKeys, poison := t.poison, nodes := t.nodes, threads := t.threads, subFired := t.subFired
    subWatch := t.subWatch, gwct := t.gwct, stamps := t.stamps, power := t.power }

/-- FAILCODE of STATE (R386). -/
def failOf (s : State) : Nat := (bar0 s 8).toNat / 256 % 256

/-- Registers of BAR 0 changed, those of the offsets given alone, and nothing else of the machine r did. -/
structure RegsOnly (s r t : State) (offs : List Nat) : Prop where
  regs : ∀ o, o ∉ offs → bar0 t o = bar0 s o
  rest : t = { r with bar0 := t.bar0 }

/-- The package was reset (R387): everything is as after reset but memory, of which device lines read back under a key that no slot holds, and
what the model alone keeps. -/
structure PackageWasReset (s t : State) : Prop where
  orphaned : ∀ c ∈ s.mem, isHostPa c.1 = false → ∀ asid, keyOf t asid ≠ lineKey t (lineOf c.1)
  poison : ∀ l, l ∈ t.poison ↔ l ∈ s.poison ∧ l < 2 ^ 52
  rest : t = { State.reset with
    mem := s.mem, lineKeys := t.lineKeys, nextKey := t.nextKey, poison := t.poison, hostReplies := s.hostReplies, msix := s.msix, seqno := t.seqno
    elapse := s.elapse, turns := s.turns, agenda := s.agenda }

end Sys2Proof

/-- A power-on, a conventional reset or a 1 to PKGRST resets the package. FWGO in phase 0 boots the image that passes every check, into phase 1 with
its measurement and the offered features, or halts in phase 3 with the FAILCODE. START in phase 1 commits the accepted words, measures
them and trains every port that has a partner. ATTGO writes the report after its nonce. A read of DBGNONCE0 draws a fresh nonce. A
write that is not a 1, or in another phase, is discarded (R386, R387, R389, R402-R404, R413). -/
def Obligations.PackageEvents : Prop :=
  ∀ (v : BitVec 64) s, 0 < s.nextKey → memWf s.mem = true →
    (∃ t, exec .packageReset s = .next t ∧ PackageWasReset s t) ∧
    (v = 1 → ∃ t, exec (.pkgrst v) s = .next t ∧ PackageWasReset s t) ∧ (v ≠ 1 → exec (.pkgrst v) s = .next s) ∧
    (v = 1 → phaseOf s = 0 →
      let i := imageAt s (bar0 s 0x10).toNat
      (i.fails = 0 → ∃ t, exec (.fwgo v) s = .next t ∧ phaseOf t = 1 ∧ dbgOf t = dbgOf s ∧ failOf t = 0 ∧ bar0 t 0x20 = (Config.offered &&& 0x3FF) ∧
        (∀ k, measOf t k = if k = 0 then sha384 (measOf s 0 ++ sha384 i.signed) else measOf s k) ∧
        RegsOnly s { s with meas := t.meas } t [8, 0x20]) ∧
      (i.fails ≠ 0 → ∃ t, exec (.fwgo v) s = .next t ∧ phaseOf t = 3 ∧ dbgOf t = dbgOf s ∧ failOf t = i.fails ∧ RegsOnly s s t [8])) ∧
    (¬ (v = 1 ∧ phaseOf s = 0) → exec (.fwgo v) s = .next s) ∧
    (v = 1 → phaseOf s = 1 → ∃ t, exec (.start v) s = .next t ∧ phaseOf t = 2 ∧ dbgOf t = dbgOf s ∧ failOf t = 0 ∧
      (∀ k, measOf t k = if k = 1 then sha384 (measOf s 1 ++ acptBytes s) else measOf s k) ∧
      (∀ p, getPort t p = if p < 128 ∧ Config.linkPartner p = true then { getPort s p with state := 1, since := s.span } else getPort s p) ∧
      RegsOnly s { s with meas := t.meas, ports := t.ports } t [8]) ∧
    (¬ (v = 1 ∧ phaseOf s = 1) → exec (.start v) s = .next s) ∧
    (let a := 2 ^ 51 + (bar0 s 0x90).toNat % 2 ^ 51
     (v = 1 → ∃ t, exec (.attgo v) s = .next t ∧ Landed s t 0 (a + 64) (reportBytes s (readBytes s 0 a 64))) ∧ (v ≠ 1 → exec (.attgo v) s = .next s)) ∧
    (∃ t, exec .dbgnonceRead s = .next t ∧ (∀ k, k < 4 → bar0 t (0xA0 + 8 * k) = Config.nonce (s.seqno + 1) k) ∧
      t.hostReplies = s.hostReplies ++ [.data (s.seqno + 1) (Config.nonce (s.seqno + 1) 0) false] ∧
      RegsOnly s { s with seqno := s.seqno + 1, hostReplies := t.hostReplies } t [0xA0, 0xA8, 0xB0, 0xB8])

namespace Sys2Proof

/-- Every node of some contexts has ended (R391, R405): failed with 0x300 unless it had failed before, its cohorts off the machine. Other nodes are as
they were. -/
structure ContextsEnded (s t : State) (asids : List Nat) : Prop where
  nodes : ∀ n x, getK s.nodes n = some x → x.asid ∈ asids → ∃ y, getK t.nodes n = some y ∧ y.failed = some (x.failed.getD 0x300)
  others : ∀ n, (∀ e ∈ s.nodes, e.1 = n → e.2.asid ∉ asids) → getK t.nodes n = getK s.nodes n
  cohorts : ∀ c y x, getK t.cohorts c = some y → getK s.nodes y.node = some x → x.asid ∈ asids → y.state = 4

/-- A thread that the debugger has let go (R376): a stopped one is parked at its instruction, where no breakpoint stops it again. -/
def letGo (th : Thread) : Thread := if th.status = .stopped then { th with status := .parked, stopReq := true } else th

/-- The session of context a was closed (R405, R407): no breakpoint is left, its stopped lanes resume, and D1 ends. -/
structure SessionClosed (s t : State) (a : Nat) : Prop where
  session : t.session = none
  regs : ∀ o, o ≠ 8 → bar0 t o = if o = 0x800 ∨ (0x808 ≤ o ∧ o < 0x848 ∧ o % 8 = 0) then 0 else bar0 s o
  debug : dbgOf t = (if dbgOf s = 1 then 0 else dbgOf s) ∧ phaseOf t = phaseOf s ∧ failOf t = failOf s
  threads : ∀ u, getThread t u = (getThread s u).map fun th => if th.lc.asid = a then letGo th else th
  saved : ∀ c x, getK s.cohorts c = some x → getK t.cohorts c = some { x with
    saved := x.saved.map fun v => { v with thread := if v.thread.lc.asid = a then letGo v.thread else v.thread } }
  rest : t = { s with session := t.session, bar0 := t.bar0, threads := t.threads, cohorts := t.cohorts }

end Sys2Proof

/-- A 1 to DBGGO with a token that verifies, names this unit and its nonce, and finds no die in P3 unlocks the package: D2, every slot a new key,
the live contexts ended with 0x300, the token measured; otherwise nothing changes. A session opens on an eligible context alone, at D1,
an open one closing first; closing clears the breakpoints and resumes the context's lanes. The debugger resumes a stopped lane at its
instruction, or past a `BRK` (R376, R402, R403, R405, R407). -/
def Obligations.DebugEvents : Prop :=
  ∀ (v : BitVec 64) (asid die cluster core slot lane : Nat) s,
    let token := imageAt s (bar0 s 0xC0).toNat
    let accepted := v = 1 ∧ (∀ d, d < 4 → powerState s d ≠ 3) ∧ token.fails = 0 ∧ Config.tokenNames token.bytes unitIdBytes (nonceWords s) = true
    let u := (((die * 12 + cluster) * 32 + core) * 16 + slot) * 64 + lane
    (accepted → ∃ t, exec (.dbggo v) s = .next t ∧ dbgOf t = 2 ∧ phaseOf t = phaseOf s ∧ ContextsEnded s t s.valid ∧
      (∀ a, a < 16384 → keyOf t a = t.nextKey - 16384 + a) ∧ s.nextKey + 16384 = t.nextKey ∧
      (∀ k, measOf t k = if k = 2 then sha384 (measOf s 2 ++ sha384 token.bytes) else measOf s k) ∧
      t.mem = s.mem ∧ (∀ o, o ≠ 8 → bar0 t o = bar0 s o)) ∧
    (¬ accepted → exec (.dbggo v) s = .next s) ∧
    (∀ a, s.session = some a → ∃ t, exec .dbgsessClose s = .next t ∧ SessionClosed s t a) ∧
    (s.session = none → exec .dbgsessClose s = .next s) ∧
    (mayDebug s asid = true → ∃ r t, exec (.dbgsessOpen asid) s = .next t ∧
      (if s.session = some asid ∨ s.session = none then r = s else exec .dbgsessClose s = .next r) ∧
      t.session = some asid ∧ bar0 t 0x800 = BitVec.ofNat 64 (asid + 2 ^ 16) ∧ dbgOf t = (if dbgOf r = 0 then 1 else dbgOf r) ∧
      phaseOf t = phaseOf s ∧ failOf t = failOf s ∧ RegsOnly r { r with session := t.session } t [8, 0x800]) ∧
    (mayDebug s asid = false → exec (.dbgsessOpen asid) s = .next s) ∧
    (∃ t, exec (.dbgresSame die cluster core slot lane) s = .next t ∧ getThread t u = (getThread s u).map letGo ∧
      (∀ x, x ≠ u → getThread t x = getThread s x) ∧ t = { s with threads := t.threads }) ∧
    (∀ th g, getThread s u = some th → groupOf s u = some g →
      (th.status = .stopped → (∃ c nw p, decode g.word = .ok (.brk c nw p)) →
        ∃ t, exec (.dbgresNext die cluster core slot lane) s = .next t ∧
          getThread t u = some { afterWord g th with status := .parked, pc := wordAddr g + 4 } ∧
          (∀ x, x ≠ u → getThread t x = getThread s x) ∧
          t = { s with threads := t.threads, parked := s.parked.map fun x => if x.members.contains u then { x with idx := x.idx + 1 } else x }) ∧
      (¬ (th.status = .stopped ∧ ∃ c nw p, decode g.word = .ok (.brk c nw p)) → exec (.dbgresNext die cluster core slot lane) s = .next s)) ∧
    ((getThread s u = none ∨ groupOf s u = none) → exec (.dbgresNext die cluster core slot lane) s = .next s)

namespace Sys2Proof

/-- Whether [va, va + n) meets a range of pages. -/
def meetsPages (va n first pages : Nat) : Bool := decide (va < first + pages * 4096) && decide (first < va + n)

/-- A channel of the invalidations changed, and nothing else of the machine r did. -/
structure ChannelOnly (s r t : State) (ch : Nat) (x : Inval) : Prop where
  channels : ∀ k, getInval t k = if k = ch then x else getInval s k
  rest : t = { r with inval := t.inval }

/-- Whether a stack-cache row has its backing in pages of an ASID (R198, R347). -/
def rowIn (s : State) (core : Nat) (r : StackRow) (asid first pages : Nat) : Prop :=
  ∃ l th, l < 64 ∧ getThread s ((core * 16 + r.slot) * 64 + l) = some th ∧ th.lc.asid = asid ∧ meetsPages (th.stkbase.toNat + r.off) 16 first pages = true

/-- Machine t is r after an invalidation (R347): the TLBs hold no entry of the ASID that meets the range and every other one, and where no stack
row has its backing there, only the regions of its cohorts that meet it became stale besides. -/
structure Invalidated (r t : State) (asid first pages : Nat) : Prop where
  tlb : ∀ e, e ∈ t.tlb ↔ e ∈ r.tlb ∧ ¬ (e.asid = asid ∧ meetsPages e.va e.size first pages = true)
  rest : (∀ c ∈ r.rows, ∀ x ∈ c.2, ¬ rowIn r c.1 x asid first pages) → t = { r with tlb := t.tlb, cohorts := t.cohorts } ∧
    ∀ c x, getK r.cohorts c = some x → getK t.cohorts c = some (if ((getK r.nodes x.node).map (·.asid)) = some asid then
      { x with regions := x.regions.map fun g => if meetsPages g.2.base g.2.len first pages = true then (g.1, { g.2 with stale := true }) else g } else x)

end Sys2Proof

/-- An idle channel takes a command: a range, a whole ASID, or a refresh, which ends the nodes of a context that is valid no
more; a slot that does not exist or an INVLEN of 0 sets ERR; a busy or absent channel discards it. The command completes once no access through
an old translation is in flight, an atomic in a deterministic node's buffer among them: translations, region maps and rows are gone as R347 says; a refresh draws or destroys the context's
key, advances KGEN, and arms its submission words (R347, R348, R391, R392, R399). -/
def Obligations.InvalidationEvents : Prop :=
  ∀ (ch asid : Nat) s,
    let i := getInval s ch
    let va := (bar0 s (0x200 + 32 * ch)).toNat
    let len := (bar0 s (0x208 + 32 * ch)).toNat
    let now := ctxField s asid 40 4 % 2
    let flying (a first pages : Nat) := (∃ x ∈ s.access, threadAsid s x.thread = a ∧ meetsPages x.va 128 first pages = true) ∨
      ∃ n ∈ s.nodes, n.2.asid = a ∧ ∃ e ∈ n.2.buffer, e.loc = false ∧ meetsPages e.va 8 first pages = true
    (16 ≤ ch ∨ i.busy = true → exec (.invRange ch asid) s = .next s ∧ exec (.invAsid ch asid) s = .next s ∧ exec (.contextRefresh ch asid) s = .next s) ∧
    (ch < 16 → i.busy = false →
      (asid < 16384 → len ≠ 0 →
        (∃ t, exec (.invRange ch asid) s = .next t ∧ ChannelOnly s s t ch ⟨0, asid, va, len, true, false, 0⟩) ∧
        (∃ t, exec (.invAsid ch asid) s = .next t ∧ ChannelOnly s s t ch ⟨1, asid, 0, 2 ^ 45, true, false, 0⟩) ∧
        (∃ r t, exec (.contextRefresh ch asid) s = .next t ∧ (if now ≠ 1 ∧ asid ∈ s.valid then ContextsEnded s r [asid] ∧ r.mem = s.mem else r = s) ∧
          ChannelOnly s r t ch ⟨2, asid, 0, (if now = 1 then (if asid ∈ s.valid then 3 else 1) else if asid ∈ s.valid then 2 else 0), true, false, 0⟩)) ∧
      (16384 ≤ asid ∨ len = 0 → ∀ x ∈ [Instr.invRange ch asid, .invAsid ch asid, .contextRefresh ch asid],
        ∃ t, exec x s = .next t ∧ ChannelOnly s s t ch { i with done := false, err := 1 })) ∧
    (i.busy = false → exec (.invalidationDone ch) s = .next s) ∧
    (i.busy = true →
      let finished := { i with busy := false, done := true }
      (i.kind ≠ 2 →
        (flying i.asid i.va i.pages → exec (.invalidationDone ch) s = .next s) ∧
        (¬ flying i.asid i.va i.pages → ∃ r t, exec (.invalidationDone ch) s = .next t ∧ Invalidated s r i.asid i.va i.pages ∧ ChannelOnly s r t ch finished)) ∧
      (i.kind = 2 → i.pages = 2 →
        (flying i.asid 0 (2 ^ 45) ∨ contextRuns s i.asid = true → exec (.invalidationDone ch) s = .next s) ∧
        (¬ flying i.asid 0 (2 ^ 45) → contextRuns s i.asid = false → ∃ r t, exec (.invalidationDone ch) s = .next t ∧
          Invalidated { s with handles := s.handles.filter fun h => handleAsid h.1 ≠ i.asid } r i.asid 0 (2 ^ 45) ∧
          keyOf t i.asid = s.nextKey ∧ (∀ a, a ≠ i.asid → keyOf t a = keyOf s a) ∧ (∀ a, a ∈ t.valid ↔ a ∈ s.valid ∧ a ≠ i.asid) ∧
          (∀ w ∈ t.subWatch, w.1 ≠ i.asid) ∧ (∀ w ∈ t.subFired, w.1 ≠ i.asid) ∧
          ChannelOnly s { r with
            keys := t.keys, nextKey := s.nextKey + 1, valid := t.valid, subWatch := t.subWatch, subFired := t.subFired } t ch finished)) ∧
      (i.kind = 2 → i.pages = 1 → memWf s.mem = true →
        let q := { s with handles := s.handles.filter fun h => handleAsid h.1 ≠ i.asid }
        ∃ r t, exec (.invalidationDone ch) s = .next t ∧
          Landed q r (keyOf s 0) (ctxAddr s i.asid + 44) (toBytes 4 (ctxField s i.asid 44 4 + 1)) ∧
          keyOf t i.asid = s.nextKey ∧ (∀ a, a ≠ i.asid → keyOf t a = keyOf s a) ∧ t.valid = s.valid ++ [i.asid] ∧
          ChannelOnly s { r with
            keys := t.keys, nextKey := s.nextKey + 1, valid := t.valid
            subFired := r.subFired ++ (idleWords r i.asid).map fun j => (i.asid, 64 + j) } t ch finished) ∧
      (i.kind = 2 → i.pages = 3 → ∃ t, exec (.invalidationDone ch) s = .next t ∧ ChannelOnly s { s with
        handles := s.handles.filter fun h => handleAsid h.1 ≠ i.asid
        subFired := s.subFired ++ (idleWords s i.asid).map fun j => (i.asid, 64 + j) } t ch finished) ∧
      (i.kind = 2 → (i.pages = 0 ∨ 4 ≤ i.pages) → ∃ t, exec (.invalidationDone ch) s = .next t ∧ ChannelOnly s { s with
        handles := s.handles.filter fun h => handleAsid h.1 ≠ i.asid } t ch finished))

namespace Sys2Proof

/-- A die's power as the machine holds it (R386, R406): target register, current state and REFUSED. -/
structure PowerSet (s r t : State) (die target now refused : Nat) : Prop where
  target : bar0 t (0x440 + 0x100 * die) = BitVec.ofNat 64 target
  now : ∀ d, getK t.power d = if d = die then some (now, refused) else getK s.power d
  regs : ∀ o, o ≠ 0x440 + 0x100 * die → bar0 t o = bar0 s o
  rest : t = { r with bar0 := t.bar0, power := t.power }

end Sys2Proof

/-- A die moves to P0, P1 or P2 at once, from P3 as one that wakes; to P3 it goes when no cohort and no access of it is left, its caches and TLBs
lost, after its cohorts are marked for saving, or it stays in P2 as refused where a node lacks save slots. A die that wakes stands in P2 or its
target, the D2 token is verified again, a failure of which resets the package, and a D1 session checked again (R386, R405-R407). -/
def Obligations.PowerEvents : Prop :=
  ∀ (die : Nat) s,
    let asleep := rawPower s die = 3 ∨ rawPower s die = 4
    let own (level unit : Nat) : Prop := (if level = 0 then unit / 384 else if level = 1 then unit / 12 else unit) = die
    (∀ x ∈ [(0, Instr.pwrP0 die), (1, .pwrP1 die), (2, .pwrP2 die)],
      (4 ≤ die → exec x.2 s = .next s) ∧
      (die < 4 → asleep → ∃ t, exec x.2 s = .next t ∧ PowerSet s s t die x.1 4 0) ∧
      (die < 4 → ¬ asleep → ∃ t, exec x.2 s = .next t ∧ PowerSet s s t die x.1 x.1 0)) ∧
    (4 ≤ die ∨ asleep → exec (.pwrP3 die) s = .next s) ∧
    (die < 4 → ¬ asleep →
      (slotsSuffice s die = false → ∃ t, exec (.pwrP3 die) s = .next t ∧ PowerSet s s t die 3 2 1) ∧
      (slotsSuffice s die = true →
        let idle := dieCohorts s die = [] ∧ ∀ a ∈ s.access, a.core / 384 ≠ die
        (idle → ∃ t, exec (.pwrP3 die) s = .next t ∧ (∀ c, c ∈ t.copies ↔ c ∈ s.copies ∧ ¬ own c.place c.unit) ∧
          (∀ e, e ∈ t.tlb ↔ e ∈ s.tlb ∧ ¬ own e.level e.unit) ∧ PowerSet s { s with copies := t.copies, tlb := t.tlb } t die 3 3 0) ∧
        (¬ idle → ∃ t, exec (.pwrP3 die) s = .next t ∧
          PowerSet s (((dieCohorts s die).map (·.1)).foldl markSave s) t die 3 5 0))) ∧
    (¬ asleep → exec (.p3Wake die) s = .next s) ∧
    (asleep →
      let target := (bar0 s (0x440 + 0x100 * die)).toNat % 4
      let s1 := { s with power := putK s.power die (if target < 2 then target else 2, 0) }
      (dbgOf s = 2 → (imageAt s (bar0 s 0xC0).toNat).fails = 0 → exec (.p3Wake die) s = .next s1) ∧
      (dbgOf s = 2 → (imageAt s (bar0 s 0xC0).toNat).fails ≠ 0 → 0 < s.nextKey → ∃ t, exec (.p3Wake die) s = .next t ∧ PackageWasReset s1 t) ∧
      (dbgOf s ≠ 2 → ∀ a, s.session = some a → mayDebug s a = false → ∃ t, exec (.p3Wake die) s = .next t ∧ SessionClosed s1 t a) ∧
      (dbgOf s ≠ 2 → (∀ a, s.session = some a → mayDebug s a = true) → exec (.p3Wake die) s = .next s1))

namespace Sys2Proof

/-- A value of a register with a limit (R386): what it must be a multiple of, and what it must be below. -/
def upTo (n limit : Nat) (v : DWord) : Option DWord := if v.toNat % n = 0 ∧ v.toNat < limit then some v else none

/-- A power of two from a least one to 2^20, or 0 (R379, R381). -/
def rateFrom (least : Nat) (v : DWord) : Option DWord :=
  if v = 0 ∨ (least ≤ v.toNat ∧ v.toNat ≤ 2 ^ 20 ∧ 2 ^ Nat.log2 v.toNat = v.toNat) then some v else none

/-- A lease length (R350). -/
abbrev leaseOk (n : Nat) : Prop := n % 16 = 0 ∧ 16 ≤ n ∧ n ≤ 65536

/-- A write met what stands behind an aperture or the physical part of the HDM range, r being the machine that waits for it (R362, R400, R406):
a read is answered with the bytes at the home, or with poison; a write is acknowledged once `SPAN` is at its GWCT. -/
def Served (s r : State) (access : Host.Outcome State Fault Refusal) (write : Bool) (size : Nat) (v : BitVec 64) (pa key : Nat) : Prop :=
  let replied (t : State) (x : HostReply) : State :=
    { t with hostQueue := t.hostQueue.filter fun y => y.id ≠ s.seqno, hostReplies := t.hostReplies ++ [x] }
  (write = true → memWf r.mem = true → ∃ t g, Landed r t key pa (toBytes size v.toNat) ∧ g = (arrive r key 0 pa (toBytes size v.toNat)).2 ∧
    access = .next (if t.span < g then
      { t with hostQueue := t.hostQueue.map fun y => if y.id = s.seqno then { y with gwct := some g } else y } else replied t (.ack s.seqno))) ∧
  (write = false → lineOf pa ∉ r.poison → access = .next (replied r (.data s.seqno (BitVec.ofNat 64 (readNum r key pa size)) false))) ∧
  (write = false → lineOf pa ∈ r.poison →
    access = .next (replied { r with seqno := r.seqno + 1 } (.data s.seqno (freeDWord r.seqno) true)))

/-- The registers of BAR 0 that a write may change without any other effect, with what a value leaves in each; none discards it (R386). -/
def writableRegs (s : State) : List (Nat × (DWord → Option DWord)) :=
  [(0x10, fun v => if phaseOf s = 0 then some v else none), (0x68, fun v => if phaseOf s = 1 then upTo 4096 (0x18000000000) v else none),
    (0x70, upTo 64 (0x18000000000)), (0x90, upTo 64 (2 ^ 64)), (0xC0, some)] ++
  ((List.range 4).map fun k => (0x40 + 8 * k, fun v => if phaseOf s = 1 then some (v &&& bar0 s (0x20 + 8 * k)) else none)) ++
  ((List.range 3).map fun k => (0x78 + 8 * k, fun v =>
    if leaseOk (v.toNat % 2 ^ 32) ∧ leaseOk (v.toNat / 2 ^ 32) then some v else none)) ++
  ((List.range 16).map fun n => (0x100 + 16 * n, upTo (2 ^ 30) (2 ^ 57))) ++
  ((List.range 16).map fun n => (0x108 + 16 * n, fun v => some (v &&& 0x13FFF))) ++
  ((List.range 16).map fun c => (0x200 + 32 * c, fun v => if (getInval s c).busy then none else upTo 4096 (2 ^ 57) v)) ++
  ((List.range 16).map fun c => (0x208 + 32 * c, fun v => if (getInval s c).busy ∨ v = 0 then none else some v)) ++
  ((List.range 4).map fun d => (0x400 + 0x100 * d, upTo 32768 (0x18000000000))) ++ ((List.range 4).map fun d => (0x408 + 0x100 * d, some)) ++
  ((List.range 4).map fun d => (0x410 + 0x100 * d, rateFrom 64)) ++
  ((List.range 4).map fun d => (0x430 + 0x100 * d, upTo 4096 (0x18000000000))) ++
  ((List.range 8).map fun i => (0x808 + 8 * i, fun v => some (v &&& 0x01FFFFFFFFFFFFFD)))

/-- The flits of which `lost` holds took the first route whose port is UP, if there is one (R412, R413). -/
def Rerouted (s t : State) (lost : Flit → Bool) : Prop :=
  t.outbox = s.outbox.map fun f => if lost f then { f with port := routePort t f.peer } else f

end Sys2Proof

/-- A write to a register of BAR 0 or BAR 2 leaves what the register's phase, limits and reserved bits let through, and is discarded otherwise and
everywhere else; naming another node starts a die's reuse unit afresh, a Cicada period counts from its write, a route table is read again for the flits that
wait, and RESET in a port's register is its reset. A host access to the HDM range reads or writes device memory at its home, through an
enabled aperture by the context's tables and key, or nothing, which reads as ones; one that faults is reported and not replayed, and reads as
ones with poison; one that meets a die in P3 waits for it; a write is acknowledged once `SPAN` is at its GWCT. The host places the range (R362,
R380, R381, R386, R400, R401, R406, R411-R413). -/
def Obligations.HostEvents : Prop :=
  ∀ (write : Bool) (off addr size base : Nat) (v : BitVec 64) s,
    let discarded := exec (.registerWrite false off v) s = .next s
    let wrote (x : DWord) := ∃ t, exec (.registerWrite false off v) s = .next t ∧ bar0 t off = x ∧ RegsOnly s s t [off]
    (∀ r ∈ writableRegs s, off = r.1 → match r.2 v with
      | some x => wrote x
      | none => discarded) ∧
    (∀ d, d < 4 → (off = 0x420 + 0x100 * d ∨ off = 0x428 + 0x100 * d) → ∃ t, exec (.registerWrite false off v) s = .next t ∧
      bar0 t off = (if off = 0x420 + 0x100 * d then v else v &&& 0x3FFF) ∧ getK t.reuse d = none ∧
      (∀ e, e ≠ d → getK t.reuse e = getK s.reuse e) ∧ RegsOnly s { s with reuse := t.reuse } t [off]) ∧
    (∀ d, d < 4 → off = 0x418 + 0x100 * d → match rateFrom 256 v with
      | some x => ∃ t, exec (.registerWrite false off v) s = .next t ∧ bar0 t off = x ∧
        (∀ k, getK t.cicadaAt k = if k = 1536 + d then some (cyclesOf s d / 20) else getK s.cicadaAt k) ∧
        RegsOnly s { s with cicadaAt := t.cicadaAt } t [off]
      | none => discarded) ∧
    ((∀ r ∈ writableRegs s, off ≠ r.1) →
      (∀ d, d < 4 → off ≠ 0x418 + 0x100 * d ∧ off ≠ 0x420 + 0x100 * d ∧ off ≠ 0x428 + 0x100 * d) → discarded) ∧
    (let ok := (off = 0 ∧ phaseOf s = 1) ∨ (off = 8 ∧ v.toNat % 4096 = 0 ∧ v.toNat < 0x18000000000) ∨
        (off = 0x10 ∧ 1000 ≤ v.toNat ∧ v.toNat ≤ 2 ^ 40) ∨ (off = 0x18 ∧ 1000 ≤ v.toNat ∧ v.toNat ≤ 2 ^ 32)
     let port := 0x100 ≤ off ∧ off < 0x500 ∧ off % 8 = 0
     (ok → ∃ r, (∀ o, getK r.bar2 o = if o = off then some (if off = 0 then v &&& 0x1FFFFF else v) else getK s.bar2 o) ∧
       r = { s with bar2 := r.bar2 } ∧ ∃ t, exec (.registerWrite true off v) s = .next t ∧ Rerouted r t (fun f => f.port.isNone) ∧
         t = { r with outbox := t.outbox }) ∧
     (port → exec (.registerWrite true off v) s = (if v.getLsbD 63 then exec (.portReset ((off - 0x100) / 8)) s else .next s)) ∧
     (¬ ok → ¬ port → exec (.registerWrite true off v) s = .next s)) ∧
    exec (.hdmDecoderProgram base) s = .next { s with hdmBase := some base } ∧
    (let access := exec (.hostHdmAccess write addr size v) s
     let legal := addr % size = 0 ∧ (size = 1 ∨ size = 2 ∨ size = 4 ∨ size = 8)
     (s.hdmBase = none → access = .next s) ∧
     (∀ b, s.hdmBase = some b → sleeps s = false →
       let h := addr - b
       -- the machine with the access in its queue, and one in which it is over with all ones or an acknowledgement
       let q := { s with hostQueue := s.hostQueue ++ [⟨s.seqno, write, h, size, v, none⟩], seqno := s.seqno + 1 }
       let ones (r : State) (poison : Bool) := access = .next { r with
         hostQueue := r.hostQueue.filter fun y => y.id ≠ s.seqno
         hostReplies := r.hostReplies ++ [if write then .ack s.seqno else .data s.seqno (BitVec.ofNat 64 (2 ^ (8 * size) - 1)) poison] }
       let waits := ∃ w, access = .next { q with power := w }
       (addr < b ∨ b + 0x40000000000 ≤ addr ∨ ¬ legal → access = .next s) ∧
       (b ≤ addr → addr < b + 0x40000000000 → legal →
         (h < 0x18000000000 →
           let asleep := rawPower s (homeDie h) = 3 ∨ rawPower s (homeDie h) = 4
           (asleep → waits) ∧ (¬ asleep → Served s q access write size v h (keyOf s 0))) ∧
         ((0x18000000000 ≤ h ∧ h < 0x20000000000) ∨ 0x30000000000 ≤ h → ones q false) ∧
         (0x20000000000 ≤ h → h < 0x30000000000 →
           let n := (h - 0x20000000000) / 0x1000000000
           let ctl := bar0 s (0x108 + 16 * n)
           let asid := ctl.toNat % 16384
           let va := (bar0 s (0x100 + 16 * n)).toNat + (h - 0x20000000000) % 0x1000000000
           (ctl.getLsbD 16 = false → ones q false) ∧
           (ctl.getLsbD 16 = true →
             (∀ r e, translate q [] asid va (if write then .write else .read) = (r, .ok e) →
               (sleeps r = true → waits) ∧ (sleeps r = false → Served s r access write size v (paOf e va) (keyOf s asid))) ∧
             (∀ r x, translate q [] asid va (if write then .write else .read) = (r, x) → (∀ e, x ≠ .ok e) →
               let z := writeEvent { r with seqno := q.seqno + 1 } 7 ((Config.freeByte q.seqno 0).toNat % 4) asid (Config.freeWord q.seqno).toNat va
               (sleeps z = true → waits) ∧ (sleeps z = false → ones z true))))))) ∧
    (∀ (a : HostAccess) g, a.gwct = some g → (s.span < g → serveHost s a = s) ∧
      (g ≤ s.span → serveHost s a = { s with hostQueue := s.hostQueue.filter fun y => y.id ≠ a.id, hostReplies := s.hostReplies ++ [.ack a.id] }))

namespace Sys2Proof

/-- A port changed, and nothing else of the machine r did (R411). -/
structure PortSet (s r t : State) (port : Nat) (x : Port) : Prop where
  ports : ∀ p, getPort t p = if p = port then x else getPort s p
  rest : t = { r with ports := t.ports }

/-- A flit that fails its CRC is counted and nothing else; an UP port whose link fails trains, and counts it; one that trains is UP, or is LOST once
RETRAIN ticks have passed, and flits without a port take the next route; a DOWN or LOST port trains again when reset. Other ports do
not change (R408, R411-R413). -/
def PortEvents : Prop :=
  ∀ (port : Nat) s,
    let x := getPort s port
    let late := x.since + ((getK s.bar2 0x18).getD 10000000).toNat ≤ s.span
    let lost (t : State) := Rerouted s t (fun f => f.port.isNone || f.port == some port) ∧ PortSet s { s with outbox := t.outbox } t port { x with state := 3 }
    (port < 128 → ∃ t, exec (.flitCrcRetry port) s = .next t ∧ PortSet s s t port { x with retries := if x.retries < 0xFFFFFFFF then x.retries + 1 else x.retries }) ∧
    (128 ≤ port → exec (.flitCrcRetry port) s = .next s) ∧
    (port < 128 → x.state = 2 → ∃ t, exec (.linkFailure port) s = .next t ∧
      PortSet s s t port { x with state := 1, since := s.span, retrains := if x.retrains < 255 then x.retrains + 1 else 255 }) ∧
    (¬ (port < 128 ∧ x.state = 2) → exec (.linkFailure port) s = .next s) ∧
    (port < 128 → x.state = 1 → ¬ late → ∃ t, exec (.trainingSuccess port) s = .next t ∧ Rerouted s t (fun f => f.port.isNone) ∧
      PortSet s { s with outbox := t.outbox } t port { x with state := 2 }) ∧
    (port < 128 → x.state = 1 → late → ∀ i ∈ [Instr.trainingSuccess port, .retrainTimeout port], ∃ t, exec i s = .next t ∧ lost t) ∧
    (¬ (port < 128 ∧ x.state = 1) → exec (.trainingSuccess port) s = .next s) ∧
    (¬ (port < 128 ∧ x.state = 1 ∧ late) → exec (.retrainTimeout port) s = .next s) ∧
    (port < 128 → (x.state = 0 ∨ x.state = 3) → ∃ t, exec (.portReset port) s = .next t ∧ PortSet s s t port { x with state := 1, since := s.span }) ∧
    (¬ (port < 128 ∧ (x.state = 0 ∨ x.state = 3)) → exec (.portReset port) s = .next s)

/-- The number of the flit that a stream's receiver delivers next (R410). -/
def expected (s : State) (source chan : Nat) : Nat := (getK s.inSeq (source * 8 + chan)).getD 0

/-- A stream's receiver expects its next flit (R410); the machine is otherwise r. -/
structure Delivered (s r t : State) (source chan : Nat) : Prop where
  next : ∀ k, getK t.inSeq k = if k = source * 8 + chan then some (expected s source chan + 1) else getK s.inSeq k
  rest : t = { r with inSeq := t.inSeq }

/-- A flit whose number has been delivered or waits already, that holds more than 224 bytes, or that a package without an identifier may not
take, is dropped; one that comes early waits. The expected one is delivered, once: a flit of a contribution or of a `PUT` joins its transfer
if its tag is bound on the die it is for, and else is refused, which is counted and told on channel 6; all but the last of a `PUT` are
acknowledged. A `PUT` outside its window is acknowledged as such; it writes nothing before it is whole and the older ones of its stream are counted;
counted it is once `SPAN` has reached its GWCT (R354, R408-R411, R417, R422-R424; how flits name their transfer is log 39). -/
def StreamEvents : Prop :=
  ∀ (source chan seq tag die kind : Nat) (args : List Nat) (payload : List (BitVec 8)) (put : Nat) s,
    let f : Flit := ⟨source, chan, seq, tag, die, kind, args, payload, none, 0⟩
    let receive := exec (.flitReceive source chan seq tag die kind args payload) s
    let takes := (((getK s.bar2 0).getD 0).getLsbD 20 = true ∨ (kind = 3 ∧ chan = 7)) ∧ payload.length ≤ 224
    let waiting (n : Nat) := ∃ x ∈ s.inbox, x.peer = source ∧ x.chan = chan ∧ x.seq = n
    let arg (i : Nat) := args.getD (i + 2) 0
    let opens : Bool := args.getD 0 0 == 0
    let final : Bool := args.getD 1 0 == args.getD 0 0 + 1
    let acked (r t : State) := Delivered s (sendAck r source chan seq 0) t source chan
    (¬ takes ∨ seq < expected s source chan ∨ waiting seq → receive = .next s) ∧
    (takes → expected s source chan < seq → ¬ waiting seq → ¬ waiting (expected s source chan) → receive = .next { s with inbox := s.inbox ++ [f] }) ∧
    (takes → seq = expected s source chan → ¬ waiting seq → ¬ waiting (seq + 1) →
      (kind = 3 → ∃ t, receive = .next t ∧ Delivered s s t source chan) ∧
      (kind = 4 → ∃ r t, receive = .next t ∧ Rerouted s r (fun f => f.port.isNone) ∧ r = { s with outbox := r.outbox } ∧ acked r t) ∧
      (kind = 5 → ∃ t, receive = .next t ∧ acked s t) ∧
      (kind = 0 ∨ kind = 2 → boundTag s die tag = none →
        let r := { s with refusals := if s.refusals < 2 ^ 64 - 1 then s.refusals + 1 else s.refusals }
        receive = .next (if some source = fabId s then r else sendFlit r ⟨source, 6, 0, tag, 0, 4, [chan, seq], [], none, 0⟩)) ∧
      (kind = 2 → boundTag s die tag ≠ none →
        (opens = true → ∃ t, receive = .next t ∧
          acked { s with contribs := s.contribs ++ [⟨die, tag, arg 0, arg 1, arg 2, arg 3, arg 4, arg 5, arg 6, payload, final⟩] } t) ∧
        (opens = false → ∃ t, receive = .next t ∧ acked { s with
          contribs := s.contribs.map fun c =>
            if c.die = die ∧ c.tag = tag ∧ c.rank = arg 0 ∧ c.k = arg 1 ∧ c.whole = false then { c with data := c.data ++ payload, whole := final } else c } t)) ∧
      (kind = 0 → boundTag s die tag ≠ none →
        let r := if opens then { s with
            puts := s.puts ++ [⟨s.seqno, source, die, chan, tag, args.getD 2 0, payload, seq, 0, false, 0, final⟩], seqno := s.seqno + 1 }
          else { s with puts := s.puts.map fun p =>
            if p.source = source ∧ p.die = die ∧ p.chan = chan ∧ p.tag = tag ∧ p.whole = false then
              { p with data := p.data ++ payload, seq := seq, whole := final } else p }
        ∃ t, receive = .next t ∧ (if final then Delivered s r t source chan else acked r t)) ∧
      (kind = 1 → ∀ o, s.outbox.find? (fun o => o.peer == source && o.chan == args.getD 0 0 && o.seq == args.getD 1 0) = o →
        (o = none → ∃ t, receive = .next t ∧ Delivered s s t source chan) ∧
        (∀ x, o = some x → ∃ t, receive = .next t ∧ Delivered s
          (let s1 := { s with outbox := s.outbox.erase x }
           -- the last flit of a `PUT`, or one that is not written, ends it
           if x.kind = 0 ∧ (x.args.getD 1 0 = x.args.getD 0 0 + 1 ∨ args.getD 2 0 ≠ 0) then endPut s1 x.sender (args.getD 2 0) else s1) t source chan))) ∧
    ((∀ p ∈ s.puts, p.id ≠ put) → exec (.putDelivered put) s = .next s) ∧
    (∀ p, s.puts.find? (fun p => p.id == put) = some p →
      let older := ∃ q ∈ s.puts, q.id < p.id ∧ q.source = p.source ∧ q.die = p.die ∧ q.chan = p.chan
      (older ∨ boundTag s p.die p.tag = none ∨ p.whole = false → exec (.putDelivered put) s = .next s) ∧
      (∀ hn h, boundTag s p.die p.tag = some (hn, h) → ¬ older → p.whole = true →
        let va := h.win + p.off
        let waits (r : State) (g : Nat) := { r with puts := r.puts.map fun q => if q.id = p.id then { p with written := true, gwct := g } else q }
        (h.winLen < p.off + p.data.length → exec (.putDelivered put) s = .next (closePut s p 1)) ∧
        (p.off + p.data.length ≤ h.winLen →
          (p.written = true → exec (.putDelivered put) s = .next (if s.span < p.gwct then waits s p.gwct else
            completeWaits (modHandle (closePut s p 0) hn fun h => { h with rcv := (h.rcv + 1) % 2 ^ 32 }) hn)) ∧
          (∀ r e, p.written = false → p.data ≠ [] → va % 128 + p.data.length ≤ 128 → memWf r.mem = true →
            writable s [(2, p.die)] (handleAsid hn) va p.data.length = (r, none) → (translate r [(2, p.die)] (handleAsid hn) va .write).2 = .ok e →
            ∃ r1 g, Landed r r1 (keyOf s (handleAsid hn)) (paOf e va) p.data ∧
              exec (.putDelivered put) s = .next (if r1.span < g then waits r1 g else
                completeWaits (modHandle (closePut r1 { p with written := true, gwct := g } 0) hn fun h => { h with rcv := (h.rcv + 1) % 2 ^ 32 }) hn)) ∧
          (∀ r c, p.written = false → writable s [(2, p.die)] (handleAsid hn) va p.data.length = (r, some (.fatal c)) →
            exec (.putDelivered put) s = .next (closePut r p 2)))))

end Sys2Proof

/-- Ports and the streams of flits between packages (R354, R408, R410-R413, R417, R422-R424). -/
def Obligations.FabricEvents : Prop := PortEvents ∧ StreamEvents

namespace Sys2Proof

/-- A thread after a reply at a tick (R39, R160, R161): the registers of field d hold its values, if it has any, and no longer wait; `dc3` falls
by one, and the tick is kept if it comes to 0 (R199). -/
def replied (now : Nat) (w : Word) (vals : Option (List Word)) (th : Thread) : Thread :=
  let landed := { th with regs := ((replyRegs w).zip (vals.getD [])).foldl (fun m r => if r.1 = 0 then m else putK m r.1 ⟨r.2, []⟩) th.regs }
  if repF w then { landed with
    dc := putK th.dc 3 (readDc th 3 - 1), zeros := if readDc th 3 ≤ 1 then putK th.zeros 3 now else th.zeros
    busy := (replyRegs w).foldl (fun b r => b.erase r) th.busy }
  else landed

/-- Every lane of an entry got its reply, in their order, and no other thread changed (R232). -/
def LanesReplied (r t : State) (e : QEntry) (vals : LaneOps → Option (List Word)) : Prop :=
  ∀ u, getThread t u = (getThread r u).map fun th => (e.ops.filter fun o => o.thread == u).foldl (fun th o => replied r.span e.word (vals o) th) th

/-- A queue changed, and nothing else of the machine r did. -/
structure QueueSet (s r t : State) (core cls : Nat) (q : List QEntry) : Prop where
  queues : ∀ k, getK t.queues k = if k = core * 8 + cls then some q else getK s.queues k
  rest : t = { r with queues := t.queues }

/-- What the engine of a class makes of a started command at a head, where it ends there: matrix, splat and probe commands, the solver's, the
collective engine's, and those of the Hive. -/
def engineOut (s : State) (core cls : Nat) (e : QEntry) : Option EngOut :=
  if cls = 1 then some (runMtx s core e) else if cls = 2 then some (runSpl s core e) else if cls = 3 then some (runSlv s core e).1
  else if cls = 4 then (if (runCol s core e).2 then none else some (runCol s core e).1)
  else if cls = 5 then (match grfLanes core e (e.ops.drop (e.aux.headD 0)) (e.aux.headD 0) (if e.refused then some e.refusal else none)
      (unpackVals 64 (e.aux.drop 1)) s with
    | .done r v => some (.done r v)
    | _ => none)
  else if cls = 6 then some (runPrb s core e) else none

end Sys2Proof

/-- The head of a queue starts when its guard is open or as it says, a shared engine taking one core after the other; it is discarded when the
guard is against it or can be set by no thread any more; else it waits. A started command that its engine has carried out leaves the queue
with its reply in every lane and `dc3` one lower; one that cannot go on yet stays; a faulted one leaves without a result and is
reported, as is one whose entry holds an uncorrectable error (R160, R232-R234, R247, R293, R338, R384, R419). The turn of an engine
that cores share is log 39. -/
def Obligations.QueueEvents : Prop :=
  ∀ (core cls : Nat) s,
    (getQueue s core cls = [] → exec (.guardHead core cls) s = .next s ∧ exec (.commandReply core cls) s = .next s ∧
      exec (.commandComplete core cls) s = .next s ∧ (cls = 5 → exec (.queueRecordDeliver core) s = .next s)) ∧
    (∀ e q, getQueue s core cls = e :: q →
      let slot := ((getK s.crews e.crew).map fun c => c.guards.getD (e.guard - 1) 0).getD 0
      let runs := e.guard = 0 ∨ (slot = 1 ∧ e.sense = true) ∨ (2 ≤ slot ∧ e.sense = false)
      let never := slot = 0 ∧ crewEnding s e.crew = true
      (e.phase ≠ 0 ∨ (runs ∧ mayStart s core cls = false) ∨ (¬ runs ∧ slot = 0 ∧ ¬ never) → exec (.guardHead core cls) s = .next s) ∧
      (e.phase = 0 → runs → mayStart s core cls = true → ∃ t, exec (.guardHead core cls) s = .next t ∧
        QueueSet s { s with solverTurn := t.solverTurn } t core cls ({ e with phase := 1 } :: q) ∧
        ∀ k, getK t.solverTurn k = if cls = 3 ∧ k = core / 32 then some ((core % 32 + 1) % 32)
          else if cls = 4 ∧ k = 48 + core / 384 then some ((core % 384 + 1) % 384) else getK s.solverTurn k) ∧
      (e.phase = 0 → ¬ runs → (slot ≠ 0 ∨ never) → ∃ t, exec (.guardHead core cls) s = .next t ∧
        QueueSet s { s with threads := t.threads } t core cls q ∧ (if e.prog then t.threads = s.threads else LanesReplied s t e fun _ => none)) ∧
      (let i : Instr := if repF e.word then .commandReply core cls else .commandComplete core cls
       let other : Instr := if repF e.word then .commandComplete core cls else .commandReply core cls
       let started := 1 ≤ cls ∧ cls ≤ 6 ∧ (e.phase = 1 ∨ 3 ≤ e.phase)
       let lastFault (r : State) (c : Nat) := if cls = 1 then mtxFaulted core e.pc r c else if cls = 2 then splFaulted core e.pc r c else r
       exec other s = .next s ∧ (¬ started → exec i s = .next s) ∧
       (cls = 5 → (cmdF e.word).toNat = 2 → started → exec (.queueRecordDeliver core) s = exec i s) ∧
       (cls = 5 → ((cmdF e.word).toNat ≠ 2 ∨ ¬ started) → exec (.queueRecordDeliver core) s = .next s) ∧
       (started → s.poison.contains (queueLine e.id) = true →
        exec i s = .next (reportFault (dropEntry (lastFault s 0x0B) core cls e) cls e e.ops 0x0B)) ∧
       (started → s.poison.contains (queueLine e.id) = false →
        (∀ r v, engineOut s core cls e = some (.done r v) → ∃ t, exec i s = .next t ∧ QueueSet r { r with threads := t.threads } t core cls ((getQueue r core cls).drop 1) ∧
          (if e.prog then t.threads = r.threads else LanesReplied r t e fun o => (v.find? fun x => x.1 == o.lane).map (·.2))) ∧
        (engineOut s core cls e = some .hold → exec i s = .next s) ∧
        (cls = 4 → (runCol s core e).2 = true → ∀ r v, (runCol s core e).1 = .done r v → exec i s = .next r) ∧
        (∀ r c, engineOut s core cls e = some (.fault r c) → exec i s = .next (reportFault (dropEntry (lastFault r c) core cls e) cls e e.ops c)) ∧
        (∀ r va p, engineOut s core cls e = some (.missing r va p) → e.phase = 1 →
          let raised := raiseFault r (coreDie core) (entryAsid s e).1 va p (srcOf cls) (if cls = 4 ∨ cls = 5 then 0xFFFF else unitOf core) (.engine core cls)
          (raised = none → exec i s = .next s) ∧
          (∀ r2, raised = some r2 → exec i s = .next (setHead r2 core cls { e with phase := 2, aux := if cls = 3 then (runSlv s core e).2 else e.aux }))))))

namespace Sys2Proof

/-- Whether a copy of n bytes keeps the limits of R277 at a global address and at a scratchpad offset of a cohort. -/
def CopyFits (co : Cohort) (a off n : Nat) : Prop :=
  a % 16 = 0 ∧ off % 16 = 0 ∧ n % 16 = 0 ∧ n ≤ 2 ^ 24 ∧ a + n ≤ 2 ^ 57 ∧ a < 2 ^ 57 ∧ off < 2 ^ 31 ∧ off + n ≤ co.units * 32768

/-- A started copy of one lane from global memory to the scratchpad, or a fill of the scratchpad, writes the bytes that it reads, or the pattern, and no
other byte, in the scratchpad of its cohort; its lane's write-completion time takes in what it read, and its entry leaves the queue. A queue
without a started head stays as it is; one whose entry holds an uncorrectable error is an engine fault with Poison (R275-R278, R384). -/
def CopyEvents : Prop :=
  ∀ (core : Nat) s,
    (getQueue s core 0 = [] → exec (.copyComplete core) s = .next s) ∧
    (∀ e q, getQueue s core 0 = e :: q → (e.phase ≠ 1 ∧ e.phase < 3) → exec (.copyComplete core) s = .next s) ∧
    (∀ e q, getQueue s core 0 = e :: q → (e.phase = 1 ∨ 3 ≤ e.phase) → s.poison.contains (queueLine e.id) = true →
      exec (.copyComplete core) s = .next (reportFault (dropEntry s core 0 e) 0 e e.ops 0x0B)) ∧
    (∀ e q o co, getQueue s core 0 = e :: q → e.phase = 1 → e.aux = [] → e.ops = [o] → e.prog = false → getK s.cohorts e.cohort = some co →
      co.regions = [] → s.poison = [] → memWf co.scratch = true →
      let a := pairNum o.a
      let asid := (entryAsid s e).1
      let wrote (r : State) (off : Nat) (bs : List Byte) := ∃ t w, exec (.copyComplete core) s = .next t ∧
        (∀ k, getK t.queues k = if k = core * 8 then some q else getK s.queues k) ∧
        getThread t o.thread = (getThread s o.thread).map (fun th => { th with wct := Nat.max th.wct w }) ∧
        (∀ u, u ≠ o.thread → getThread t u = getThread s u) ∧ (∀ c, c ≠ e.cohort → getK t.cohorts c = getK s.cohorts c) ∧
        (∃ x, getK t.cohorts e.cohort = some x ∧ x = { co with scratch := x.scratch } ∧
          ∀ p, memGet x.scratch p = if off ≤ p ∧ p < off + bs.length then bs.getD (p - off) 0 else memGet co.scratch p) ∧
        KeptBytes r t ∧ t = { r with threads := t.threads, cohorts := t.cohorts, queues := t.queues, nodes := t.nodes }
      ((cmdF e.word).toNat = 0 → CopyFits co a (wordAt o.b 0) (wordAt o.b 1) → ∀ r bs,
        readVirt s (tlbUnits core) ⟨some core, co.node⟩ asid a (wordAt o.b 1) = (r, .ok bs) → wrote r (wordAt o.b 0) bs) ∧
      ((cmdF e.word).toNat = 4 → a / 2 ^ 32 = 2 ^ 31 → CopyFits co 0 (a % 2 ^ 32) (wordAt o.b 1) →
        wrote s (a % 2 ^ 32) ((List.range (wordAt o.b 1)).map fun i => BitVec.ofNat 8 (wordAt o.b 0 / 256 ^ (i % 4)))))

/-- A matrix unit changed, and nothing else of the machine r did. -/
structure GirderSet (s r t : State) (core : Nat) (g : Girder) : Prop where
  girders : ∀ c, getGirder t c = if c = core then g else getGirder s c
  rest : t = { r with girders := t.girders }

/-- The oldest row leaves the array, and the interval that it closes is promoted; the rows that wait enter when the ramp-up is done; an array that is
busy, with no row waiting and no burst window, ramps down, to idle or to the ramp-up asked for meanwhile; a burst window ends. A
promotion that reads an element with an uncorrectable error is an engine fault of the command of its row. The save of a cohort begins once it has
waited 65,536 core cycles for an open interval (R240, R247, R252-R254, R257, R266, R267). When an array leaves BUSY is log 11, what a promotion leaves
in a bad element log 29. -/
def ArrayEvents : Prop :=
  ∀ (core : Nat) s,
    let g := getGirder s core
    let becomes (i : Instr) (x : Girder) := ∃ t, exec i s = .next t ∧ GirderSet s s t core x
    (g.rows = [] → exec (.arrayRowExit core) s = .next s) ∧
    (∀ r rs, g.rows = r :: rs → (r.promote = none → becomes (.arrayRowExit core) { g with rows := rs }) ∧
      (∀ iv, r.promote = some iv → (r.src = none ∨ promotesBad { g with rows := rs } iv = false) →
        becomes (.arrayRowExit core) (promoteInterval { g with rows := rs } iv)) ∧
      (∀ iv e, r.promote = some iv → r.src = some e → promotesBad { g with rows := rs } iv = true → ∃ t,
        GirderSet s s t core (promoteInterval { g with rows := rs } iv) ∧
        exec (.arrayRowExit core) s = .next (reportFault (mtxFaulted core e.pc t 0x0B) 1 e e.ops 0x0B))) ∧
    (g.ramp = 1 → (g.feed = [] → becomes (.arrayRampUpDone core) { g with ramp := 2 }) ∧
      (g.feed ≠ [] → ∃ x, becomes (.arrayRampUpDone core) x ∧ x.ramp = 2 ∧ x.feed = [] ∧ (x.rows.map fun r => (r.m, r.tile)) = (g.rows ++ g.feed).map fun r => (r.m, r.tile))) ∧
    (g.ramp ≠ 1 → exec (.arrayRampUpDone core) s = .next s) ∧
    (g.ramp = 2 → g.feed = [] → g.burst = false → becomes (.arrayRampDown core) { g with ramp := 3 }) ∧
    (g.ramp = 3 → becomes (.arrayRampDown core) { g with ramp := 0 }) ∧
    (g.ramp = 4 → becomes (.arrayRampDown core) { g with ramp := 1 }) ∧
    ((g.ramp ≤ 1 ∨ 5 ≤ g.ramp ∨ (g.ramp = 2 ∧ (g.feed ≠ [] ∨ g.burst = true))) → exec (.arrayRampDown core) s = .next s) ∧
    becomes (.mburstWindowExpiry core) { g with burst := false } ∧
    (∀ c x, g.owner = some c → getK s.cohorts c = some x →
      let due := x.state = 5 ∧ x.asked + 20 * 65536 ≤ (getK s.cycles (core / 384)).getD 0
      (due → exec (.openIntervalWaitExpiry core) s = .next (startSave s c)) ∧
      (¬ due → exec (.openIntervalWaitExpiry core) s = .next s)) ∧
    ((∀ c, g.owner = some c → getK s.cohorts c = none) → exec (.openIntervalWaitExpiry core) s = .next s)

end Sys2Proof

/-- Copies that end, and the rows, ramps and windows of arrays (R240, R252-R254, R257, R267, R275-R278). -/
def Obligations.EngineEvents : Prop := CopyEvents ∧ ArrayEvents

namespace Sys2Proof

/-- The bytes that the command at the front of an instance writes at DST and the flags of its reply (R419, R420): of every member's source, or free bytes
where DST overlaps SRC in part. -/
def colBytes (s : State) (h : Handle) (c : ColCmd) (ps : List Contribution) : List Byte :=
  let b := (colResult c.cmd c.typ c.op c.count h.rank c.rank ps).1
  let n := colSrcBytes c.cmd h.members.length c.count (colSize c.typ) h.rank c.rank
  if c.src ≠ c.dst ∧ n ≠ 0 ∧ c.src < c.dst + b.length ∧ c.dst < c.src + n then
    (List.range b.length).map (Config.freeByte s.seqno) else b

/-- Contributions of a tag to the member on a die may have gone, and no others. -/
def ContribsPruned (s t : State) (die tag : Nat) : Prop :=
  (∀ x, x ∈ t.contribs → x ∈ s.contribs) ∧ ∀ x, x ∈ s.contribs → (x.tag ≠ tag ∨ x.die ≠ die) → x ∈ t.contribs

/-- A command of the collective engine has ended (R232, R419): it is on no list, its contributions may go, and its threads have what vals gives them. -/
def ColEnded (s r t : State) (c : ColCmd) (die tag : Nat) (vals : LaneOps → Option (List Word)) : Prop :=
  t = { r with threads := t.threads, contribs := t.contribs, colCmds := s.colCmds.filter fun x => x.entry.id ≠ c.entry.id } ∧
  ContribsPruned s t die tag ∧ LanesReplied r t c.entry vals

/-- A command of the collective engine has timed out on its handle h (R421, R417): the handle is FAILED, the command is on no list, the flits that its
sender has not had acknowledged carry nothing any more, its writes that are still to come are off, and no byte outside its DST changed. -/
structure TimedOut (s t : State) (c : ColCmd) (h : Handle) : Prop where
  handles : ∀ n, getK t.handles n = if n = c.handle then some { h with state := 2 } else getK s.handles n
  commands : t.colCmds = s.colCmds.filter fun x => x.entry.id ≠ c.entry.id
  contribs : ContribsPruned s t c.die h.tag
  flits : t.outbox = s.outbox.map fun f => if f.sender = c.entry.id ∧ c.entry.id ≠ 0 then { f with kind := 5, args := [], payload := [] } else f
  puts : t.puts = s.puts.filter fun p => p.sender != c.entry.id || p.written
  silent : c.cmd = 5 ∨ c.cmd = 6 → t.mem = s.mem
  dst : ∀ r e, let n := colDstBytes c.cmd h.members.length c.count (colSize c.typ)
    let units := engineUnits c.core 4
    let asid := (entryAsid s c.entry).1
    c.cmd ≤ 4 → n ≤ 16 → c.dst % 128 + n ≤ 128 → memWf s.mem = true → writable s units asid c.dst n = (r, none) →
      (translate r units asid c.dst .write).2 = .ok e → ∀ q, ¬ (paOf e c.dst ≤ q ∧ q < paOf e c.dst + n) →
        readPa t (keyOf s asid) q = readPa s (keyOf s asid) q

end Sys2Proof

/-- What a command of the collective engine gives: a reduction combines each element over the members in tree order and ORs the flags, a scattered
one gives rank r its own block, a gathering lays the sources in rank order, a broadcast gives the root's. An instance stays until every
member has contributed; then its result is written at DST, the lowest lane of the command receives the flags, and the command is over; members that
disagree fail it, and the handle; a command whose fault the driver has declared fatal ends without a result. One that has taken COLTO ticks ends
instead, its handle FAILED (R419-R421). What a partial overlap writes is log 40, which contributions go log 27. -/
def Obligations.CollectiveEvents : Prop :=
  (∀ typ op count rank root (ps : List Contribution),
    let size := colSize typ
    let reduced (lo : Nat) := (List.range count).map fun e => tree typ op (ps.map fun p => field p.data (size * (lo + e)) size)
    (∀ cmd lo, (cmd = 1 ∧ lo = 0) ∨ (cmd = 2 ∧ lo = rank * count) → colResult cmd typ op count rank root ps =
      ((reduced lo).flatMap fun x => toBytes size x.1, (reduced lo).foldl (fun f x => f ||| x.2) 0)) ∧
    colResult 3 typ op count rank root ps = (ps.flatMap fun p => p.data.take (count * size), 0) ∧
    (∀ p, ps[root]? = some p → colResult 4 typ op count rank root ps = (p.data, 0)) ∧
    (∀ x, tree typ op [x] = (x, 0)) ∧ (∀ x y, tree typ op [x, y] = ((combine typ op x y).bits, (combine typ op x y).flags))) ∧
  (∀ (die asid handle : Nat) s,
    let hn := handleNo die asid handle
    let complete := exec (.collectiveInstanceComplete die asid handle) s
    let front := s.colCmds.find? fun c => c.handle == hn && decide (c.cmd ≤ 4)
    (getK s.handles hn = none ∨ front = none → complete = .next s) ∧
    (∀ h c, getK s.handles hn = some h → front = some c →
      let parts := instanceParts s die h.tag c.k h.members.length
      let ps := parts.filterMap id
      let alike (p : Contribution) := p.cmd = c.cmd ∧ p.typ = c.typ ∧ p.op = c.op ∧ p.count = c.count ∧ (c.cmd = 4 → p.root = c.rank)
      let units := engineUnits c.core 4
      let bytes := colBytes s h c ps
      let due := s.span < c.left + (bar2 s 0x10).toNat
      (¬ due → ∃ t, complete = .next t ∧ TimedOut s t c h) ∧
      (due → none ∈ parts → complete = .next s) ∧
      (due → none ∉ parts → (∀ p ∈ ps, alike p) → c.fatal = true → ∃ t, complete = .next t ∧ t.handles = s.handles ∧
        t.colCmds = s.colCmds.filter (fun x => x.entry.id ≠ c.entry.id) ∧ t.mem = s.mem ∧ ContribsPruned s t die h.tag) ∧
      (due → none ∉ parts → (∃ p ∈ ps, ¬ alike p) → ∃ t, complete = .next t ∧ (getK t.handles hn).map (·.state) = some 2 ∧
        t.colCmds = s.colCmds.filter (fun x => x.entry.id ≠ c.entry.id) ∧ t.mem = s.mem ∧ ContribsPruned s t die h.tag) ∧
      (due → none ∉ parts → (∀ p ∈ ps, alike p) → c.fatal = false → ∀ r,
        writable { s with seqno := s.seqno + 1 } units asid c.dst bytes.length = (r, none) →
        let w := writeVirt r units c.core asid (entryAsid s c.entry).2 c.entry.cohort (lowWct s c.entry) c.dst bytes
        ∃ t, complete = .next t ∧ ColEnded s (mergeLow w.1 c.entry w.2) t c die h.tag
            (fun o => if o.lane = c.entry.low.lane then some [if c.cmd ≤ 2 then (colResult c.cmd c.typ c.op c.count h.rank c.rank ps).2 &&& 31 else 0] else none) ∧
          (∀ e, bytes ≠ [] → c.dst % 128 + bytes.length ≤ 128 → memWf s.mem = true → (translate r units asid c.dst .write).2 = .ok e → ∀ q,
            readPa t (keyOf s asid) q = if paOf e c.dst ≤ q ∧ q < paOf e c.dst + bytes.length then bytes.getD (q - paOf e c.dst) 0 else readPa s (keyOf s asid) q)))) ∧
  (∀ (core : Nat) s,
    let late := s.colCmds.find? fun c => c.core == core && decide (c.left + (bar2 s 0x10).toNat ≤ s.span)
    (late = none → exec (.collectiveTimeout core) s = .next s) ∧
    (∀ c h, late = some c → getK s.handles c.handle = some h → ∃ t, exec (.collectiveTimeout core) s = .next t ∧ TimedOut s t c h))

namespace Sys2Proof

/-- Machine t is r after bytes have been put, one part after another, at the parts of physical memory given (R375). -/
def PutIn (key : Nat) : List (Nat × Nat) → List Byte → State → State → Prop
  | [], _, r, t => t = r
  | p :: ps, bs, r, t => ∃ a, Landed r a key p.1 (bs.take p.2) ∧ PutIn key ps (bs.drop p.2) a t

end Sys2Proof

/-- A record goes to the buffer of its context: one is dropped, and counted, when WRITE has reached CAP; else WRITE grows by one, bytes 8 to 31 of the
record land, then its first eight; one whose slot cannot be written is dropped, and counted, all the same; a context without a buffer, and one whose
counters cannot be read and written, takes none. A sample of a core that is due takes a record for each of its
launched threads that run, with the lowest code that says what the thread does; a die whose sampler is off takes none (R373-R375, R381). Which open
clause issued in the cycle of a sample, and when samples are taken, is log 37. -/
def Obligations.ObservationRecords : Prop :=
  (∀ s core asid kind (place : List Nat) (pc : DWord) data, memWf s.mem = true →
    let buf := ctxField s asid 24 8
    let key := keyOf s asid
    let seen := writeObs s core asid kind place pc data
    let slot (r : State) (off n : Nat) := reached r (tlbUnits core) asid (buf + off) n
    let counted (r : State) := (∀ d, slot r 8 8 = some d → PutIn key d (toBytes 8 (partsNum r key d + 1)) r seen) ∧ (slot r 8 8 = none → seen = r)
    (buf = 0 → seen = s) ∧
    (buf ≠ 0 → (slot s 0 4 = none ∨ slot s 4 4 = none) → seen = s) ∧
    (∀ c w, buf ≠ 0 → slot s 0 4 = some c → slot s 4 4 = some w →
      let written := partsNum s key w
      (partsNum s key c ≤ written → counted s) ∧
      (written < partsNum s key c → ∃ a, PutIn key w (toBytes 4 (written + 1)) s a ∧
        ((slot a (64 + 32 * written) 8 = none ∨ slot a (72 + 32 * written) 24 = none) → counted a) ∧
        (∀ l h, slot a (64 + 32 * written) 8 = some l → slot a (72 + 32 * written) 24 = some h → ∃ b,
          PutIn key h (toBytes 8 pc.toNat ++ toBytes 8 s.span ++ toBytes 8 data) a b ∧
          PutIn key l ([BitVec.ofNat 8 kind] ++ place.map (BitVec.ofNat 8) ++ toBytes 2 asid) b seen)))) ∧
  (∀ (core : Nat) s,
    let die := coreDie core
    let p := dieReg s die 0x18
    let now := (getK s.cycles die).getD 0 / 20
    let last := Nat.max ((getK s.cicadaAt core).getD 0) ((getK s.cicadaAt (1536 + die)).getD 0)
    let due := p ≠ 0 ∧ last / p < now / p
    let taken (r : State) : State := { r with seqno := r.seqno + 1, cicadaAt := putK r.cicadaAt core now }
    let runs := s.threads.filter fun e => threadCore e.1 == core && !e.2.over && (getSlot s (threadCrew e.1)).state == 2
    (¬ due → exec (.cicadaSample core) s = .next s) ∧
    (due → (∃ t, exec (.cicadaSample core) s = .next t ∧ getK t.cicadaAt core = some now ∧ ∀ v, getThread t v = none ↔ getThread s v = none) ∧
      (runs = [] → exec (.cicadaSample core) s = .next (taken s)) ∧
      (∀ u th, runs = [(u, th)] → ∃ code, code ≤ 7 ∧ exec (.cicadaSample core) s = .next (taken (writeObs s core th.lc.asid 3 (obsPlace u) th.pc code)) ∧
        ((∀ g ∈ s.opens, u ∉ g.members) → (∀ g ∈ s.parked, u ∉ g.members) → (∀ x ∈ coreSwarm s core, u ∉ x.members) →
          (th.status = .exiting → code = 2) ∧ (th.status = .fetchWait → code = 4) ∧ (th.status = .stopped → code = 5)) ∧
        (∀ g, s.opens.find? (fun g => g.members.contains u) = some g → (∀ g ∈ s.parked, u ∉ g.members) → th.status = .ready → th.cocoon = none →
          (groupHeld s g = false → interlocked s g = false → code ≤ 1) ∧
          ((∀ x ∈ s.opens, x.core = core → groupHeld s x = true ∨ interlocked s x = true) →
            code = if interlocked s g = true then 2 else if groupHeld s g = true then 6 else 1)))))

namespace Sys2Proof

/-- One node changed, and nothing else of the machine r did. -/
structure NodeSet (r t : State) (node : Nat) (f : Node → Node) : Prop where
  nodes : ∀ n, getK t.nodes n = (getK r.nodes n).map fun y => if n = node then f y else y
  rest : t = { r with nodes := t.nodes }

end Sys2Proof

/-- A submission word of a context is armed, or, having fired, is taken and zeroed, and its record checked and made ready or refused; where its leaf
forbids the access or it is poisoned, it is left unwatched, with an event. The driver's answer frees the record of a device fault and resolves its
requester, the page's translations forgotten: an engine's head goes on or ends, a thread that waited for its clause stands again, a node or a submission word of the Hive learns it, a
lane that ran ahead replays its access or stands at it again and traps. The first dump due on a die ends its node, the area holding the
dump, its header first, or, where a line of it cannot be written, the die halting (R211, R212, R345, R382, R383, R392, R429). The order and width of
the header's items are log 50, the node that a dump ends log 33. -/
def Obligations.HiveEvents : Prop :=
  (∀ (asid word : Nat) s,
    let go := exec (.submissionWordFire asid word) s
    let fired := (asid, word) ∈ s.subFired
    let toArm := (asid, word + 64) ∈ s.subFired
    let die := word % 4
    let va := ctxField s asid 8 8 + 128 * word
    let tr := translate { s with subFired := s.subFired.filter fun x => x != (asid, word) && x != (asid, word + 64) } (hiveUnits die) asid va .atomic
    let mapped := match walk s asid va with | .page .. => true | _ => false
    let unwatched := writeEvent tr.1 1 die asid 6 va
    (64 ≤ word ∨ (¬ fired ∧ ¬ toArm) → go = .next s) ∧
    (word < 64 → fired ∨ toArm →
      (∀ c, tr.2 = .fatal c → go = .next unwatched) ∧
      (tr.2 = .fault → (mapped = true → go = .next unwatched) ∧
        (mapped = false → ∀ r, raiseFault tr.1 die asid va .atomic 7 0xFFFF (.hive 0 (asid * 128 + word + if fired then 0 else 64)) = r →
          go = .next (r.getD s))) ∧
      (∀ e, tr.2 = .ok e →
        let pa := paOf e va
        let watched (r : State) : State := { r with subWatch := r.subWatch ++ [(asid, word, lineOf pa)] }
        let v := readNum tr.1 (keyOf s asid) pa 8
        (poisoned tr.1 pa = true → go = .next unwatched) ∧
        (poisoned tr.1 pa = false → ¬ fired ∨ v = 0 → go = .next (watched tr.1)) ∧
        (poisoned tr.1 pa = false → fired → v ≠ 0 →
          let m := (arrive tr.1 (keyOf s asid) 0 pa (List.replicate 8 0)).1
          let c : Check := ⟨m.seqno, die, asid, v, s.span, false⟩
          ∀ r out, checkRecord { m with seqno := m.seqno + 1 } die asid v 4 false = (r, out) →
            (∀ code, out = .refused code → go = .next (watched (writeEvent { r with checks := r.checks.filter (· != c) } 1 die asid code v))) ∧
            (∀ n pred, out = .accepted n pred → ∃ t pooled, go = .next t ∧
              getNode t (r.seqno + 1) = some (if pred = 0 then { n with phase := 1, die := die, ready := s.span, pooled := pooled } else n) ∧
              t.subWatch = r.subWatch ++ [(asid, word, lineOf pa)]) ∧
            (∀ a p, out = .missing a p → ∃ t, go = .next t ∧ c ∈ t.checks))))) ∧
  (∀ (die index : Nat) s,
    let go := exec (.faultResponse die index) s
    let resp := readNum s (keyOf s 0) (dieReg s die 0 + 32 * index + 24) 4
    let fatal := if resp = 3 then 0x0A else 0x09
    (getK s.faults (die * 1024 + index) = none ∨ resp = 0 ∨ 1024 ≤ index → go = .next s) ∧
    (∀ f, getK s.faults (die * 1024 + index) = some f → resp ≠ 0 → index < 1024 →
      let freed : State := { s with
        faults := delK s.faults (die * 1024 + index)
        tlb := s.tlb.filter fun e => !(e.asid == f.asid && decide (e.va < f.page * 4096 + 4096) && decide (f.page * 4096 < e.va + e.size)) }
      (f.reqs = [] → go = .next freed) ∧
      (∀ core cls e q, f.reqs = [.engine core cls] → getQueue s core cls = e :: q → e.phase = 2 → ∃ t, go = .next t ∧
        QueueSet freed freed t core cls ({ e with phase := if resp = 1 then 1 else if resp = 3 then 4 else 3 } :: q)) ∧
      (∀ u th, f.reqs = [.fetch u] → getThread s u = some th → th.status = .fetchWait → groupOf s u = none → ∃ t, go = .next t ∧
        t = { freed with threads := t.threads } ∧ ∀ v, getThread t v = (getThread s v).map fun th => if v = u then
          { th with status := .ready, since := s.span, answers := if resp = 1 then th.answers else th.answers ++ [(f.page, fatal)] } else th) ∧
      (∀ kind node, f.reqs = [.hive kind node] → 2 ≤ kind → kind ≤ 4 → ∃ t, go = .next t ∧
        NodeSet freed t node fun n => { n with answer := if resp = 1 then n.answer else fatal }) ∧
      (∀ item, f.reqs = [.hive 0 item] → go = .next (if resp = 1 then { freed with subFired := s.subFired ++ [(item / 128, item % 128)] }
        else writeEvent freed 1 (item % 64 % 4) (item / 128) 6 (ctxField s (item / 128) 8 8 + 128 * (item % 64)))) ∧
      (∀ u th c, f.reqs = [.cocoon u] → getThread s u = some th → th.cocoon = some c → (∀ a ∈ s.access, a.thread ≠ u) →
        (∀ r, resp = 1 → performMem (setThread freed u { decDc th c.req.dc s.span with cocoon := none }) u { decDc th c.req.dc s.span with cocoon := none } c.req = .done r →
          go = .next (stopAhead r u)) ∧
        (∀ th', resp ≠ 1 → enterLevel (unwound th c s.span) (trapInfoAt (c.group (threadCore u) u) (unwound th c s.span) fatal (BitVec.ofNat 64 c.va)) = some th' →
          ∃ t, go = .next t ∧ getThread t u = some { th' with status := .ready, since := s.span })))) ∧
  (∀ (die : Nat) s,
    let go := exec (.coreDump die) s
    ((∀ d ∈ s.dumps, d.die ≠ die) ∨ die ∈ s.dumpAborts → go = .next s) ∧
    (∀ d, s.dumps.find? (fun d => d.die == die) = some d → die ∉ s.dumpAborts →
      let base := dieReg s die 0x30
      let taken : State := { s with dumps := s.dumps.filter (· != d) }
      let code := 0x200 + d.cause % 256
      (base = 0 → go = .next (endNode taken (dumpNode s d) code)) ∧
      (∀ o, base ≠ 0 → dumpBad s base (dumpBytes s d) = some o → ∃ h, (∀ c, c ∈ h ↔ c ∈ s.halted ∨ c / 384 = die) ∧
        go = .next (writeEvent { endNode taken (dumpNode s d) code with halted := h, dumpAborts := s.dumpAborts ++ [die] } 6 die d.asid 0xDAB o)) ∧
      (base ≠ 0 → dumpBad s base (dumpBytes s d) = none → ∃ bs c rest, bs.length = dumpBytes s d ∧
        bs = ([d.cause, d.pc.toNat, d.val.toNat, threadLane d.thread, threadSlot d.thread, coreIndex d.core, coreCluster d.core, d.die, d.asid, d.at',
          d.written, d.counted].flatMap (toBytes 8)) ++ rest ∧
        let m := (arrive taken (keyOf s 0) 0 base bs).1
        go = .next (writeEvent (endNode { m with seqno := m.seqno + 2 } (dumpNode s d) code) 5 die d.asid c 0))))

namespace Sys2Proof

/-- No thread of a cohort waits in the Swarm Table of a core (R214, step 1). -/
def OutOfSwarm (t : State) (c : Nat) : Prop := ∀ core, ∀ y ∈ coreSwarm t core, ∀ u ∈ y.members, ofCohort t c u = false

/-- A cohort marked for saving (R331): resident before, with the lowest free save slot of its node; its save begins at once, or waits for its open
interval (R267); nothing else of the machine r changed. -/
structure Marked (r t : State) (c : Nat) : Prop where
  cohorts : ∀ x n k ks, getCohort r c = some x → x.state = 1 → getNode r x.node = some n → freeSaveSlots r x.node n = k :: ks →
    (∀ m, getCohort t m = if m = c then some { x with
        state := if openInterval r c = true then 5 else 2, slot := some k, asked := cyclesOf r (coreDie (x.crews.headD 0 / 16)) }
      else getCohort r m) ∧
    (openInterval r c = true → t.swarm = r.swarm) ∧ (openInterval r c = false → OutOfSwarm t c)
  unfit : ∀ x, getCohort r c = some x → x.state ≠ 1 → t = r
  rest : t = { r with cohorts := t.cohorts, swarm := t.swarm }

/-- Each of some cohorts marked for saving in turn. -/
def MarkedAll : State → State → List Nat → Prop
  | s, t, [] => t = s
  | s, t, c :: cs => ∃ r, Marked s r c ∧ MarkedAll r t cs

/-- A unit of one stage placed on a die for a node (R193-R195, R329): its cohort takes as many slots of one core as it has crews, which are PLACING, and its
threads stand at the entry of their kernel at their launch values (R59). -/
structure UnitPlaced (s t : State) (node : Nat) (n : Node) (cluster core : Nat) : Prop where
  place : core / 32 = cluster ∧ ((n.kind = 1) = (28 ≤ core % 32))
  cohort : ∃ x, getCohort t (s.seqno + 1) = some x ∧ x.node = node ∧ x.j = n.nextUnit ∧ x.state = 0 ∧ x.crews.length = n.crews ∧
    (∀ k ∈ x.crews, k / 16 = core ∧ (getSlot s k).state = 0 ∧ getSlot t k = ⟨1, node, s.seqno + 1, storeBytes n.kernel, n.kernel.scratch⟩) ∧
    (∀ k, k ∉ x.crews → getSlot t k = getSlot s k) ∧
    (∀ i k l, x.crews[i]? = some k → l < n.lanes → ∃ th, getThread t (k * 64 + l) = some th ∧ th.pc = n.kernel.entry ∧ th.status = .ready ∧
      th.level = 0 ∧ th.regs = [] ∧ th.preds = [] ∧ th.dc = [] ∧ th.wct = 0 ∧ th.sp = BitVec.ofNat 32 n.kernel.stack ∧ th.lc.kargs = n.kargs ∧
      th.lc.asid = n.asid ∧ th.lc.node = node ∧ th.lc.crew = i ∧ th.lc.coh.1 = BitVec.ofNat 32 (n.nextUnit % n.grid.1))
  node : (getNode t node).map (·.nextUnit) = some (n.nextUnit + 1)

end Sys2Proof

/-- A die's queue holds the nodes that have an item to place, in the order of R328; the first whose item fits is served, a unit taking the slots of one
core; when the first node of some PRIO needs a mode that no cluster holds, the one with the fewest resident cohorts drains, and changes its mode
once empty. A placed cohort's slots become RESIDENT, and those of crews that are over already RETIRING. When the first node of a PRIO has waited
longer than WAITLIM, the cluster is freed for it that needs the fewest saves. A node whose threads all wait in `FLUSHD` saves its most recently
placed cohort, or fails without a save slot (R194, R274, R292, R328-R331). -/
def Obligations.PlacementEvents : Prop :=
  (∀ (die kind : Nat) s,
    let order := poolOrder s die kind
    let go := exec (.unitPlace die kind) s
    (∀ e, e ∈ order ↔ e ∈ s.nodes ∧ inQueue s die kind e = true) ∧
    order.Pairwise (fun x y => nodeBefore y.2 x.2 = false) ∧
    (2 ≤ powerState s die ∨ order = [] → go = .next s) ∧
    (∀ e, e ∈ queueHeads order ↔ ∃ pre post, order = pre ++ e :: post ∧ ∀ x ∈ pre, x.2.prio ≠ e.2.prio) ∧
    (powerState s die < 2 →
      let lacks (n : Node) := ∀ c, c < 12 → (s.fusedClusters.contains (die * 12 + c)) = !n.fused
      let switch := (∃ e ∈ queueHeads order, lacks e.2) ∧ ∀ c ∈ s.draining, c / 12 ≠ die
      let resident (cl : Nat) := (s.cohorts.filter fun c => c.2.state != 3 && c.2.crews.headD 0 / 16 / 32 == cl).length
      ∃ s0, (¬ switch → s0 = s) ∧
        (switch → ∃ c, c / 12 = die ∧ (∀ d, d / 12 = die → resident c ≤ resident d) ∧ s0 = { s with draining := s.draining ++ [c] }) ∧
        (∀ pre node n post r, order = pre ++ (node, n) :: post → (∀ x ∈ pre, tryNode s0 x.1 x.2 = none) → tryNode s0 node n = some r → go = .next (refillPool r die)) ∧
        ((∀ x ∈ order, tryNode s0 x.1 x.2 = none) → go = .next s0))) ∧
  (∀ s node n cl r, getNode s node = some n → n.stages = 1 → n.kernel.stack = 0 → n.spread = false → n.det = false → n.lanes ≤ 64 → n.kind ≤ 1 →
    placeUnit s node n cl = some r → ∃ core, UnitPlaced s r node n cl core) ∧
  (∀ (core slot : Nat) s,
    let e := getSlot s (core * 16 + slot)
    (e.state ≠ 1 → exec (.placingDone core slot) s = .next s) ∧
    (e.state = 1 → ∃ t, exec (.placingDone core slot) s = .next t ∧
      (∀ k, getSlot t k = if (getSlot s k).cohort = e.cohort ∧ (getSlot s k).state = 1 then
          { getSlot s k with state := if crewEnded s k = true ∧ (∀ x, getCohort s e.cohort = some x → x.regions = []) then 3 else 2 }
        else getSlot s k) ∧
      (∀ c, getCohort t c = (getCohort s c).map fun x => if c = e.cohort ∧ x.state = 0 then { x with state := 1 } else x) ∧
      (∀ u, getThread t u = (getThread s u).map fun th => if th.lc.cohort = e.cohort ∧ th.status = .ready then { th with since := s.span } else th) ∧
      t = { s with slots := t.slots, cohorts := t.cohorts, threads := t.threads })) ∧
  (∀ (die cluster : Nat) s,
    let cl := die * 12 + cluster
    let empty := ∀ e ∈ s.slots, e.1 / 16 / 32 = cl → e.2.state = 0
    let go := exec (.clusterModeSwitch die cluster) s
    (cl ∉ s.draining ∨ ¬ empty → go = .next s) ∧
    (cl ∈ s.draining → empty → (∀ a ∈ s.access, a.core / 32 = cl → a.arrived = true) → ∃ t, go = .next t ∧
      (∀ c, c ∈ t.fusedClusters ↔ if c = cl then c ∉ s.fusedClusters else c ∈ s.fusedClusters) ∧ (∀ c, c ∈ t.draining ↔ c ∈ s.draining ∧ c ≠ cl) ∧
      (∀ c, c ∈ t.copies ↔ c ∈ s.copies ∧ ¬ (c.place = 0 ∧ c.unit / 32 = cl) ∧ ¬ (c.place = 1 ∧ c.unit = cl)) ∧
      t = { s with fusedClusters := t.fusedClusters, draining := t.draining, copies := t.copies })) ∧
  (∀ (die kind : Nat) s,
    let heads := queueHeads (poolOrder s die kind)
    let go := exec (.waitlimExpiry die kind) s
    let saving := ∃ c ∈ s.cohorts, (c.2.state = 2 ∨ c.2.state = 5) ∧ coreDie (c.2.crews.headD 0 / 16) = die
    (saving → go = .next s) ∧
    ((∀ e ∈ heads, waitVictims s die e.1 e.2 = none) → go = .next s) ∧
    (∀ pre e post vs, ¬ saving → heads = pre ++ e :: post → (∀ x ∈ pre, waitVictims s die x.1 x.2 = none) → waitVictims s die e.1 e.2 = some vs →
      ∃ t, go = .next t ∧ MarkedAll s t vs)) ∧
  (∀ s die node n,
    let due := n.ready + dieReg s die 8 < s.span ∧ tryNode s node n = none
    (¬ due → waitVictims s die node n = none) ∧
    (∀ vs, waitVictims s die node n = some vs → vs ≠ [] ∧ ∃ cl, cl / 12 = die ∧ fitsWithout s node n cl vs = true ∧ ∀ v ∈ vs, v ∈ victimsOn s n cl) ∧
    (due → ∀ cl ws, cl / 12 = die → enoughVictims (fitsWithout s node n cl) [] (victimsOn s n cl) = some ws → ws ≠ [] →
      ∃ vs, waitVictims s die node n = some vs ∧ vs.length ≤ ws.length)) ∧
  (∀ (node : Nat) s,
    let go := exec (.flushdMakeRoom node) s
    (getNode s node = none → go = .next s) ∧
    (∀ n, getNode s node = some n →
      let due := needsRoom s node n = true ∧ tryNode s node n = none ∧ ∀ c ∈ s.cohorts, c.2.node = node → c.2.state ≠ 2 ∧ c.2.state ≠ 5
      let placed := s.cohorts.filter fun c => c.2.node == node && c.2.state == 1
      (¬ due → go = .next s) ∧
      (due → freeSaveSlots s node n = [] → go = .next (endNode s node 0x400)) ∧
      (due → freeSaveSlots s node n ≠ [] → placed = [] → go = .next s) ∧
      (due → freeSaveSlots s node n ≠ [] → placed ≠ [] → ∃ v ∈ placed, (∀ w ∈ placed, w.2.placed ≤ v.2.placed) ∧ ∃ t, go = .next t ∧ Marked s t v.1)))

namespace Sys2Proof

/-- The threads and the lease of a slot are gone. -/
def SlotEmpty (t : State) (crew : Nat) : Prop :=
  getK t.slots crew = none ∧ getK t.crews crew = none ∧ ∀ l, l < 64 → getThread t (crew * 64 + l) = none

end Sys2Proof

/-- A cohort chosen as a victim is saved once it stands still: it is saved, and its threads and crews are on no core. Until its clauses are over
nothing happens, and an open interval of its array keeps the save from beginning; one still open when it is saved marks its node. The slots of a
cohort whose threads are over pass to RETIRING once its regions are written back. A RETIRING slot becomes FREE when the engines and accesses of its
crew are over; a reported engine fault that no thread took
fails its node; with the last slot of a cohort the cohort retires, and its array and pipeline are free (R194, R196, R214, R238, R267, R284, R298). When a
cohort may be saved is log 32. -/
def Obligations.SaveEvents : Prop :=
  (∀ (c : Nat) s,
    let go := exec (.cohortSave c) s
    (getCohort s c = none → go = .next s) ∧
    (∀ x, getCohort s c = some x →
      (x.state ≠ 2 → x.state ≠ 5 → go = .next s) ∧
      (x.state = 5 → openInterval s c = true → go = .next s) ∧
      (x.state = 5 → openInterval s c = false → ∃ t, go = .next t ∧ OutOfSwarm t c ∧
        (∀ m, getCohort t m = if m = c then some { x with state := 2 } else getCohort s m) ∧ t = { s with cohorts := t.cohorts, swarm := t.swarm }) ∧
      (x.state = 2 → saveReady s c x = false → (clausesOver s c = false → go = .next s) ∧
        (clausesOver s c = true → go = .next (withdrawAll s c (coresOf x.crews)))) ∧
      (x.state = 2 → saveReady s c x = true → ∃ t, go = .next t ∧ (∃ y, getCohort t c = some y ∧ y.state = 3 ∧ y.crews = x.crews) ∧
        (∀ k ∈ x.crews, getCrew t k = none ∧ ∀ l, l < 64 → getThread t (k * 64 + l) = none) ∧
        (∀ k ∈ s.slots, k.2.cohort = c → (k.1, { k.2 with state := 3 }) ∈ t.slots) ∧
        (∀ n, openInterval s c = true → getNode s x.node = some n → ∃ m, getNode t x.node = some m ∧ m.sticky.testBit 6 = true)))) ∧
  (∀ (core slot : Nat) s,
    let crew := core * 16 + slot
    let e := getSlot s crew
    let go := exec (.slotRetire core slot) s
    let bad := (∃ x, getCrew s crew = some x ∧ x.faults ≠ []) ∨ ∃ v ∈ s.threads, v.1 / 64 = crew ∧ v.2.reports ≠ []
    let node (t : State) (f : Node → Node) := ∀ n, getK t.nodes n = (getK s.nodes n).map fun y =>
      if n = e.node then f { y with failed := if bad then some (y.failed.getD 0x12) else y.failed } else y
    let flags := (if ∃ g ∈ s.girders, g.2.owner = some e.cohort ∧ g.2.ovf = true then 1 else 0) + (if ∃ g ∈ s.girders, g.2.owner = some e.cohort ∧ g.2.unf = true then 2 else 0)
      + (if ∃ g ∈ s.scarabs, g.2.owner = some e.cohort ∧ g.2.tg = true then 8 else 0)
    (e.state ≠ 2 → e.state ≠ 3 → go = .next s) ∧
    (e.state = 2 → (getCohort s e.cohort = none → go = .next s) ∧
      (∀ x, getCohort s e.cohort = some x →
        let done := ∀ k ∈ x.crews, crewEnded s k = true ∧ crewQuiet s k = true
        let offered := ∃ f ∈ s.faults, .hive 5 e.cohort ∈ f.2.reqs
        let home := x.crews.headD 0 / 16
        (¬ done ∨ offered → go = .next s) ∧
        (done → ¬ offered → ∀ r,
          (writeBackAll s home e.cohort (x.regions.map (·.1)) = (r, none) → (∀ y, getCohort r e.cohort = some y → y.regions = []) →
            (∀ k ∈ x.crews, (getSlot r k).cohort = e.cohort ∧ crewEnded r k = true) → ∃ t, go = .next t ∧ t = { r with slots := t.slots } ∧
            ∀ k, getSlot t k = if k ∈ x.crews ∧ (getSlot r k).state = 2 then { getSlot r k with state := 3 } else getSlot r k) ∧
          (∀ code, writeBackAll s home e.cohort (x.regions.map (·.1)) = (r, some (.fatal code)) → ∃ t, go = .next t ∧
            NodeSet r { t with cohorts := r.cohorts } x.node (fun y => { y with failed := some (y.failed.getD code) }) ∧
            ∀ m, getCohort t m = (getCohort r m).map fun y => if m = e.cohort then { y with regions := y.regions.drop 1 } else y) ∧
          (∀ va p, writeBackAll s home e.cohort (x.regions.map (·.1)) = (r, some (.missing va p)) →
            go = .next ((raiseFault r (coreDie home) (((getNode s x.node).map (·.asid)).getD 0) va p 2 (unitOf home) (.hive 5 e.cohort)).getD r))))) ∧
    (e.state = 3 →
      (getCohort s e.cohort = none → ∃ t, go = .next t ∧ SlotEmpty t crew ∧ node t id ∧ t.cohorts = s.cohorts) ∧
      (∀ x, getCohort s e.cohort = some x →
        let quiet := crewQuiet s crew = true
        (x.state = 3 → ∃ t, go = .next t ∧ SlotEmpty t crew ∧ t.nodes = s.nodes ∧ t.cohorts = s.cohorts) ∧
        (x.state ≠ 3 → ¬ quiet → go = .next s) ∧
        (x.state ≠ 3 → quiet → otherSlots s e.cohort crew = true → ∃ t, go = .next t ∧ SlotEmpty t crew ∧ node t id ∧ t.cohorts = s.cohorts) ∧
        (x.state ≠ 3 → quiet → otherSlots s e.cohort crew = false →
          ((∃ g ∈ s.girders, g.2.owner = some e.cohort ∧ g.2.drained = false) → go = .next s) ∧
          ((∀ g ∈ s.girders, g.2.owner = some e.cohort → g.2.drained = true) → x.node = e.node → ∃ t, go = .next t ∧ SlotEmpty t crew ∧ node t (fun y => { y with sticky := y.sticky ||| flags, retired := y.retired + 1 }) ∧
            getCohort t e.cohort = none ∧ (∀ c, c ≠ e.cohort → getCohort t c = getCohort s c) ∧
            (∀ g ∈ t.girders, g.2.owner ≠ some e.cohort) ∧ (∀ g ∈ t.scarabs, g.2.owner ≠ some e.cohort))))))

/-- A copy node copies its source to its destination, a signal node stores its word; one that cannot go on waits for the driver, and a fatal fault fails it.
A node whose cohorts have all triggered releases its successors. A node whose work is over passes its flush point, waits for its writes and children,
writes its status block with the tick at which they were over, and is gone, its parent learning of it; one that failed is reported (R325-R327, R336,
R340, R363, R429). What a successor that cannot be reached does is log 31, the START of a node that had no access log 32. -/
def Obligations.NodeEvents : Prop :=
  (∀ (node : Nat) s, getNode s node = none → exec (.copyNodeRun node) s = .next s ∧ exec (.signalNodeRun node) s = .next s ∧ exec (.nodeTrigger node) s = .next s ∧
    exec (.nodeRetire node) s = .next s) ∧
  (∀ (node : Nat) s n, getNode s node = some n →
    let turn := n.phase = 1 ∧ (n.start ≠ none ∨ nextOfDie s n = true)
    let units := hiveUnits n.die
    let src := (n.opnds.getD 0 (0, 0, 0)).1
    let len := (n.opnds.getD 0 (0, 0, 0)).2.1
    let dst := (n.opnds.getD 1 (0, 0, 0)).1
    let atEnd (t : State) (c : Option Nat) := ∃ y, getNode t node = some y ∧ y.phase = 2 ∧ y.answer = 0 ∧ y.addr = n.addr ∧
      y.failed = if n.failed = none then c else n.failed
    let stops (i : Instr) (r : State) (o : Option EngErr) :=
      (∀ a p, o = some (.missing a p) → n.answer = 0 → exec i s = .next (if r.faults.any fun f => f.2.reqs.contains (.hive 2 node) then r
        else (raiseFault r n.die n.asid a p 7 0xFFFF (.hive 2 node)).getD r)) ∧
      (∀ c, o = some (.fatal c) ∨ (∃ a p, o = some (.missing a p) ∧ n.answer = c ∧ c ≠ 0) → ∃ t, exec i s = .next t ∧ atEnd t (some c))
    let lands (t r : State) (va : Nat) (bs : List Byte) := ∀ e, bs ≠ [] → va % 128 + bs.length ≤ 128 → memWf s.mem = true → (translate r units n.asid va .write).2 = .ok e →
      ∀ q, readPa t (keyOf s n.asid) q = if paOf e va ≤ q ∧ q < paOf e va + bs.length then bs.getD (q - paOf e va) 0 else readPa s (keyOf s n.asid) q
    (n.kind ≠ 2 ∨ ¬ turn → exec (.copyNodeRun node) s = .next s) ∧
    (n.kind ≠ 3 ∨ ¬ turn → exec (.signalNodeRun node) s = .next s) ∧
    (n.kind = 2 → turn →
      (∀ r e, readVirt (startNode s node) units ⟨none, node⟩ n.asid src len = (r, .error e) → stops (.copyNodeRun node) r (some e)) ∧
      (∀ r1 bs, readVirt (startNode s node) units ⟨none, node⟩ n.asid src len = (r1, .ok bs) →
        (∀ r2 e, writable r1 units n.asid dst len = (r2, some e) → stops (.copyNodeRun node) r2 (some e)) ∧
        (∀ r2, writable r1 units n.asid dst len = (r2, none) → ∃ t, exec (.copyNodeRun node) s = .next t ∧
          NodeSet (writeVirt r2 units (n.die * 384) n.asid node 0 0 dst bs).1 t node (fun y => { y with phase := 2, answer := 0 }) ∧ atEnd t none ∧ lands t r2 dst bs))) ∧
    (n.kind = 3 → turn →
      (∀ r e, writable (startNode s node) units n.asid n.sigAddr 8 = (r, some e) → stops (.signalNodeRun node) r (some e)) ∧
      (∀ r, writable (startNode s node) units n.asid n.sigAddr 8 = (r, none) → ∃ t, exec (.signalNodeRun node) s = .next t ∧
        atEnd t none ∧ lands t r n.sigAddr (toBytes 8 n.sigVal.toNat))) ∧
    ((n.triggered = false ∧ (n.failed ≠ none ∨ allTriggered s node n = false)) ∨ (n.triggered = true ∧ n.nsucc ≤ n.trigDone) → exec (.nodeTrigger node) s = .next s) ∧
    ((n.triggered = true ∧ n.trigDone < n.nsucc) ∨ (n.triggered = false ∧ n.failed = none ∧ allTriggered s node n = true) →
      let s1 : State := { s with nodes := putK s.nodes node { n with triggered := true } }
      ((∃ f ∈ s.faults, .hive 4 node ∈ f.2.reqs) → ∃ t, exec (.nodeTrigger node) s = .next t ∧ NodeSet s t node fun y => { y with triggered := true }) ∧
      ((∀ f ∈ s.faults, (.hive 4 node) ∉ f.2.reqs) → ∀ r k,
        (walkSucc { n with triggered := true } (n.nsucc - n.trigDone) n.trigDone n.answer s1 = (r, k, none) →
          ∃ t, exec (.nodeTrigger node) s = .next t ∧ NodeSet r t node fun y => { y with trigDone := k, answer := 0 }) ∧
        (∀ va p, walkSucc { n with triggered := true } (n.nsucc - n.trigDone) n.trigDone n.answer s1 = (r, k, some (va, p)) →
          ∃ t, exec (.nodeTrigger node) s = .next t ∧
            NodeSet ((raiseFault (modNode r node fun y => { y with answer := 0 }) n.die n.asid va p 7 0xFFFF (.hive 4 node)).getD r) t node
              fun y => { y with trigDone := k })))) ∧
  (∀ n left k answer s,
    let entry := n.succ + 8 * k
    walkSucc n 0 k answer s = (s, k, none) ∧
    (∀ r bs, readVirt s (hiveUnits n.die) hiveReader n.asid entry 8 = (r, .ok bs) → ofBytes bs % 128 = 0 → (∀ r2 g, decrementPred r n.die n.asid (ofBytes bs) n.maxGwct = .done r2 g →
      walkSucc n (left + 1) k answer s = walkSucc n left (k + 1) 0 r2) ∧
      (∀ r2, decrementPred r n.die n.asid (ofBytes bs) n.maxGwct = .graphError r2 → ∃ c, walkSucc n (left + 1) k answer s =
        walkSucc n left (k + 1) 0 (writeEvent { r2 with seqno := r2.seqno + 1 } 2 n.die n.asid c (ofBytes bs)))) ∧
    (∀ r c, readVirt s (hiveUnits n.die) hiveReader n.asid entry 8 = (r, .error (.fatal c)) → ∃ c, walkSucc n (left + 1) k answer s =
      walkSucc n left (k + 1) 0 (writeEvent { r with seqno := r.seqno + 1 } 2 n.die n.asid c entry)) ∧
    (∀ r a p, readVirt s (hiveUnits n.die) hiveReader n.asid entry 8 = (r, .error (.missing a p)) → answer = 0 → walkSucc n (left + 1) k answer s = (r, k, some (a, p)))) ∧
  (∀ s die asid va stamp r bs e, readVirt s (hiveUnits die) hiveReader asid (va + 4) 2 = (r, .ok bs) → (translate r (hiveUnits die) asid (va + 32) .atomic).2 = .ok e →
    let m := (translate r (hiveUnits die) asid (va + 32) .atomic).1
    let pa := paOf e (va + 32)
    let pred := readNum m (keyOf s asid) pa 4
    poisoned m pa = false →
    (ofBytes bs ≠ asid ∨ pred = 0 → decrementPred s die asid va stamp = .graphError m) ∧
    (ofBytes bs = asid → pred ≠ 0 → ∃ t g, decrementPred s die asid va stamp = .done (if pred = 1 then readyRecord t die asid va else t) g ∧
      (memWf s.mem = true → Landed m t (keyOf s asid) pa (toBytes 4 (pred - 1))))) ∧
  (∀ (node : Nat) s n, getNode s node = some n →
    let go := exec (.nodeRetire node) s
    let unwatched := ∀ d, d < 4 → (bar0 s (0x420 + 0x100 * d)).toNat ≠ n.addr
    let closes (r : State) := ∃ t, go = .next t ∧ getNode t node = none ∧ (∀ m, m ≠ node → ((getNode t m).map fun y => { y with pooled := false }) =
        (getNode r m).map fun y => { (if n.parent = some m then { y with children := y.children - 1, failed := if y.failed = none then n.failed else y.failed } else y) with
          pooled := false }) ∧ t = { r with nodes := t.nodes }
    (workOver s node n = false → go = .next s) ∧
    (workOver s node n = true →
      (n.stepDone = 0 → unwatched → ∃ t, go = .next t ∧ NodeSet (if n.kind ≤ 1 then flushNode s node else s) t node (fun y => { y with stepDone := 1, phase := 3 }) ∧
        (n.det = false → NodeSet s t node fun y => { y with stepDone := 1, phase := 3 })) ∧
      (n.stepDone = 1 →
        (s.span < n.maxGwct ∨ n.children ≠ 0 → go = .next s) ∧
        (n.maxGwct ≤ s.span → n.children = 0 →
          let n1 := { n with retireTick := some (n.retireTick.getD s.span) }
          let s1 : State := { s with nodes := putK s.nodes node n1 }
          let ends (r : State) (c : Option Nat) := ∃ t, go = .next t ∧
            NodeSet r t node fun y => { y with stepDone := 2, answer := 0, failed := match c with | some c => some (y.failed.getD c) | none => y.failed }
          (n.status = 0 → ends s1 none) ∧
          (n.status ≠ 0 → ∀ r,
            (∀ g, hiveWrite s1 n.die n.asid n.status (statusBlock s1 n1) = (r, .ok g) → ends { r with seqno := r.seqno + 1 } none) ∧
            (∀ c, hiveWrite s1 n.die n.asid n.status (statusBlock s1 n1) = (r, .error (.fatal c)) → ends r (some c)) ∧
            (∀ va p, hiveWrite s1 n.die n.asid n.status (statusBlock s1 n1) = (r, .error (.missing va p)) →
              (n.answer ≠ 0 → ends r (some n.answer)) ∧
              (n.answer = 0 → (∃ f ∈ s.faults, .hive 3 node ∈ f.2.reqs) → go = .next s1) ∧
              (n.answer = 0 → (∀ f ∈ s.faults, (.hive 3 node) ∉ f.2.reqs) →
                go = .next ((raiseFault r n.die n.asid va p 7 0xFFFF (.hive 3 node)).getD r)))))) ∧
      (2 ≤ n.stepDone →
        (∀ c, n.failed = some c → n.triggered = false ∨ n.nsucc ≤ n.trigDone → closes (writeEvent s 3 n.die n.asid c n.addr)) ∧
        (n.failed = none → n.triggered = true → n.nsucc ≤ n.trigDone → closes s) ∧
        (n.triggered = true → n.trigDone < n.nsucc → go = .next s) ∧
        (n.failed = none → n.triggered = false → n.nsucc = n.stepDone - 2 → (∀ f ∈ s.faults, (.hive 4 node) ∉ f.2.reqs) → closes s)))) ∧
  (∀ s n, let b := statusBlock s n
    b.length = 640 ∧ field b 4 4 = n.failed.getD 0 % 2 ^ 32 ∧ field b 8 8 = n.odEvents % 2 ^ 64 ∧ field b 16 4 = n.odLines.length % 2 ^ 32 ∧
    field b 20 4 = n.saves % 2 ^ 32 ∧ (∀ x, n.start = some x → field b 24 8 = x % 2 ^ 64) ∧ field b 32 8 = n.retireTick.getD s.span % 2 ^ 64 ∧
    (n.sticky / 16 % 2 = 0 → (field b 0 4).testBit 4 = n.failed.isSome) ∧ field b 0 4 % 16 = n.sticky % 16)

namespace Sys2Proof

/-- The lane of a split that was deferred stands at its target once each lane it waits for has exited, halted, blocked, or
reached the join, or once 4,096 core cycles have passed. A lane that comes to an enabled breakpoint of its context's session, running ahead or not, stops
before the word, and a record says which; it stops there again only after it has left the word (log 25). A thread in `EXIT` ends, or takes its oldest
report, once its counters read zero. A `WAITM` answers 0 once `SPAN` is at its
limit. Where that is not so, nothing changes (R162, R205, R206, R238, R289, R374, R376). -/
def ThreadEvents : Prop :=
  ∀ (u : Nat) s,
    (let past (d : Deferral) (v : Nat) := ∀ th, getThread s v = some th →
        th.status ∈ [Status.exited, .halted, .exiting, .fetchWait, .stopped, .held] ∨ (th.status = .parked ∧ (th.wait ≠ none ∨ th.cocoon ≠ none)) ∨
          (th.status = .ready ∧ th.pc = d.join)
      let long (d : Deferral) := d.start + 20 * 4096 ≤ cyclesOf s (coreDie (u / 1024))
      let found := s.deferrals.find? fun d => d.thread == u
      (found = none → exec (.deferralRelease u) s = .next s ∧ exec (.deferralExpiry u) s = .next s) ∧
      (∀ d, found = some d → ∀ i ∈ [(Instr.deferralRelease u, ∀ v ∈ d.waits, past d v), (.deferralExpiry u, long d)],
        (¬ i.2 → exec i.1 s = .next s) ∧
        (i.2 → ∃ t, exec i.1 s = .next t ∧ t = { s with threads := t.threads, deferrals := s.deferrals.erase d } ∧
          ∀ v, getThread t v = (getThread s v).map fun th => if v = u ∧ th.status = .deferred then { th with status := .ready, since := s.span } else th))) ∧
    (∀ g th, s.opens.find? (fun g => g.members.contains u) = some g → getThread s u = some th →
      let at' (i : Nat) := (bar0 s (0x808 + 8 * i)).getLsbD 0 = true ∧ (bar0 s (0x808 + 8 * i)).toNat / 4 % 2 ^ 55 = g.pc.toNat / 4
      (s.session ≠ some th.lc.asid ∨ (∀ i, i < 8 → ¬ at' i) ∨ th.stopReq = true ∨ g.code.length ≤ g.idx →
        exec (.debugStop u) s = .next s) ∧
      (∀ i, s.session = some th.lc.asid → i < 8 → at' i → (∀ j, j < i → ¬ at' j) → th.stopReq = false → g.idx < g.code.length →
        let r := leaveGroup s u
        let seen := writeObs r (u / 1024) th.lc.asid 4 (obsPlace u) g.pc (64 + i)
        ∃ th1 t, exec (.debugStop u) s = .next t ∧ getThread seen u = some th1 ∧
          Moved seen t u { th1 with status := .stopped, pc := g.pc } (fun _ => true) ∧
          t = { seen with threads := t.threads, deferrals := t.deferrals, parked := r.parked ++ [{ g with members := [u] }] })) ∧
    (∀ g th, groupOf s u = some g → getThread s u = some th →
      let waiting := th.status ≠ .exiting ∨ ∃ k, k < 4 ∧ readDc th k ≠ 0
      let r := { leaveGroup s u with parked := (leaveGroup s u).parked.filter fun g => !g.members.isEmpty }
      (waiting → exec (.threadExitComplete u) s = .next s) ∧
      (¬ waiting → (∀ r ∈ th.reports, ¬ direct r) → ∃ t, exec (.threadExitComplete u) s = .next (settleCrews t [u / 64]) ∧
        Ended r t u { th with status := .exited, loops := [], watch := none }
          (fun n => { n with sticky := n.sticky ||| ((if th.fsr.getLsbD 6 then 4 else 0) + (if th.fsr.getLsbD 5 then 8 else 0)) }) r.opens r.access) ∧
      (∀ pre x post l h, ¬ waiting → th.reports = pre ++ x :: post → (∀ y ∈ pre, ¬ direct y) → direct x → handlerOf th = some (l, h) → ∃ t,
        exec (.threadExitComplete u) s = .next (settleCrews t [u / 64]) ∧
        Left r t u (entered s { th with reports := pre ++ post } 0 (recordAt g th x.cause x.val) l h) (fun _ => true) r.opens)) ∧
    (∀ g th w, groupOf s u = some g → getThread s u = some th → th.wait = some w →
      (∀ r l, syncOf g.word = some r → r.fn = 2 → w.kind = waitmKind → th.watch = some (l, false) →
        (w.a = 0 ∨ s.span < w.a → exec (.waitmTimeout u) s = .next s) ∧
        (w.a ≠ 0 → w.a ≤ s.span → ∃ t th', exec (.waitmTimeout u) s = .next t ∧
          WroteReg g r.d r.nw ⟨0, []⟩ th th' ∧ t = { s with threads := t.threads } ∧
          ∀ v, getThread t v = if v = u then some { th' with pc := th.pc, wait := some ⟨doneKind, 0, 0⟩, answers := [] } else getThread s v)) ∧
      (w.kind ≠ waitmKind → exec (.waitmTimeout u) s = .next s))

/-- A parked group has an open clause of its core again (R207): its lanes issue, as f leaves them, and nothing else has changed. -/
structure Reopened (s t : State) (i : Nat) (g : Group) (idx : Nat) (f : Thread → Thread) : Prop where
  threads : ∀ v, getThread t v = (getThread s v).map fun th => if v ∈ g.members then { f th with status := .issuing } else th
  rest : t = { s with threads := t.threads, parked := s.parked.eraseIdx i, opens := s.opens ++ [{ g with idx := idx }] }

/-- Whether a parked group's lanes may issue again (R194, R203, R207, R214): each is parked, in a RESIDENT slot of a core that runs, its cohort resident
and not being saved. -/
def lanesFree (s : State) (g : Group) : Prop :=
  g.members ≠ [] ∧ ∀ u ∈ g.members, ∃ th, getThread s u = some th ∧ th.status = .parked ∧ (getSlot s (u / 64)).state = 2 ∧
    u / 1024 ∉ s.halted ∧ powerState s (coreDie (u / 1024)) < 2 ∧ ∃ c, getK s.cohorts th.lc.cohort = some c ∧ (c.state = 1 ∨ c.state = 5)

end Sys2Proof

/-- A parked group goes on where its core runs, has one of its eight clauses free and no lane of it is held: at its word, or past the word at which every lane is
done waiting; of a core's groups that may go on the one parked earliest does. A core opens the clause of a parked group that may go on first; else, of
the groups in its Swarm Table, one for which none is better:
not marked by `YIELD` before marked, then older, then in a lower set, then in a lower way; the clause is fetched whole, or comes from the loop buffer of
lanes that all hold it, its lanes issue with their latches invalid (R8, R33, R40, R177, R182, R199, R201, R202, R207). That a group that goes on is the
latest opened is the model's choice (log 10). -/
def Obligations.ClauseEvents : Prop :=
  (∀ (i : Nat) s,
    (s.parked[i]? = none → exec (.parkedGroupResume i) s = .next s) ∧
    (∀ g, s.parked[i]? = some g → g.ahead = true →
      (∀ u, g.members = [u] → cocoonLoose s u = true → exec (.parkedGroupResume i) s = .next (replayCocoon s u)) ∧
      ((∀ u, g.members = [u] → cocoonLoose s u = false) → exec (.parkedGroupResume i) s = .next s)) ∧
    (∀ g, s.parked[i]? = some g → g.ahead = false →
      let free := (s.opens.filter fun x => x.core == g.core).length < 8
      let waits := syncOf g.word ≠ none ∨ rdvzOf g.word ≠ none
      (¬ lanesFree s g ∨ ¬ free ∨ readyParked s g.core ≠ some i → exec (.parkedGroupResume i) s = .next s) ∧
      (readyParked s g.core = some i → g.members.Nodup →
        (g.code.length ≤ g.idx ∨ ¬ waits ∨ (∀ u ∈ g.members, ∀ th, getThread s u = some th → th.wait = none) →
          ∃ t, exec (.parkedGroupResume i) s = .next t ∧ Reopened s t i g g.idx id) ∧
        (g.idx < g.code.length → syncOf g.word ≠ none → (∀ u ∈ g.members, ∀ th, getThread s u = some th → th.wait = some ⟨doneKind, 0, 0⟩) →
          ∃ t, exec (.parkedGroupResume i) s = .next t ∧ Reopened s t i g (g.idx + 1) fun th => { th with wait := none, pc := g.pc + 4 })) ∧
      (lanesFree s g → free → (∀ j, j < i → ∀ x, s.parked[j]? = some x → x.core = g.core → parkedReady s j = false) →
        g.code.length ≤ g.idx ∨ ¬ waits → readyParked s g.core = some i))) ∧
  (∀ (core : Nat) s,
    let r := gatherCore s core
    let table := coreSwarm r core
    (∀ i, readyParked s core = some i → exec (.clauseOpen core) s = exec (.parkedGroupResume i) s) ∧
    (readyParked s core = none →
      (core ∈ r.halted ∨ 2 ≤ powerState r (coreDie core) ∨ 8 ≤ (r.opens.filter fun x => x.core == core).length ∨ table = [] →
        exec (.clauseOpen core) s = .next r) ∧
      (core ∉ r.halted → powerState r (coreDie core) < 2 → (r.opens.filter fun x => x.core == core).length < 8 → table ≠ [] →
        ∃ e ∈ table, (∀ x ∈ table, (e.last = true → x.last = true) ∧ (e.last = x.last → e.age ≤ x.age ∧ (e.age = x.age → e.set ≤ x.set ∧ (e.set = x.set → e.way ≤ x.way)))) ∧
          ∀ u us w code h, e.members = u :: us → e.members.Nodup → (entryClause r core e u).2 = .ok w code →
            legalClause w code 0 = some h → ∃ t ms, exec (.clauseOpen core) s = .next t ∧ ms.Perm e.members ∧ ms.Pairwise (· ≤ ·) ∧
              (∀ c, coreSwarm t c = if c = core then (table.erase e).map fun x => { x with last := false } else coreSwarm r c) ∧
              (∀ v, getThread t v = (getThread r v).map fun th => if v ∈ e.members then
                { th with
                  status := .issuing, cla := e.pc, lats := noLatches, wait := none
                  loopBuf := if inBuffer th e.pc = true then putK th.loopBuf e.pc.toNat (w :: code) else th.loopBuf } else th) ∧
              t = { r with threads := t.threads, swarm := t.swarm, opens := r.opens ++ [⟨core, ms, e.pc, h, code, 0, false⟩] }))) ∧
  (∀ s core (e : SwarmEntry) u th, getThread s u = some th →
    let held (v : Nat) (c : List Word) := ∃ th, getThread s v = some th ∧ inBuffer th e.pc = true ∧ getK th.loopBuf e.pc.toNat = some c
    (∀ w code, held u (w :: code) → (∀ v ∈ e.members, held v (w :: code)) → entryClause s core e u = (s, .ok w code)) ∧
    ((∀ c, ¬ held u c) → entryClause s core e u = fetchClause s core th.lc.asid e.pc.toNat))

namespace Sys2Proof

/-- A rendezvous completes once every lane of its mask has arrived: each lane that joined is done at the word, with its result where its predicate was
true. A barrier outside deterministic nodes completes its phase, and `FLUSHD` lets all go on, once every thread has come;
until then nothing changes (R217-R219, R287, R291, R355, R358). -/
def GatheringEvents : Prop :=
  (∀ (core slot : Nat) (pc : BitVec 64) (level : Nat) s,
    let c := core * 16 + slot
    let js := joinedThreads s c pc level
    let e : Instr := .rendezvousComplete core slot pc level
    (js = [] → exec e s = .next s) ∧
    (∀ l0 th0 rest g r, js = (l0, th0) :: rest → groupOf s (c * 64 + l0) = some g → rdvzOf g.word = some r → r.fn ≠ 13 →
      let mask := js.foldl (fun m x => m ||| r.mask x.2) 0
      let missing := ∃ l, l < 64 ∧ mask.getLsbD l = true ∧ laneArrived s c pc level l = false
      let part := (js.filter fun x => joinedTrue x.2).filter fun x => mask.getLsbD x.1
      (missing → exec e s = .next s) ∧
      (¬ missing → (∀ x ∈ js, ∀ y ∈ js, joinedTrue x.2 = true → joinedTrue y.2 = true → r.mask x.2 = r.mask y.2) → r.fn ≠ 9 → ∃ t, exec e s = .next t ∧
        t = { s with threads := t.threads } ∧
        (∀ l th, (l, th) ∈ js → getThread t (c * 64 + l) = some { (if joinedTrue th then rdvzResult r l th part mask else dropLatch th (joinedLatch th)) with
          wait := some ⟨doneKind, 0, 0⟩ }) ∧
        ∀ v, (∀ x ∈ js, v ≠ c * 64 + x.1) → getThread t v = getThread s v))) ∧
  (∀ (c k : Nat) s x, getK s.cohorts c = some x → (∀ n, getK s.nodes x.node = some n → n.det = false) →
    let b := getBarrier x k
    let live (v : Nat) := ∃ th, getThread s v = some th ∧ th.lc.cohort = c ∧ th.over = false
    let full := (∃ v, live v) ∧ ∀ v, live v → ∃ y ∈ b.arrivals, y.1 = v
    (¬ full → exec (.barrierPhaseComplete c k) s = .next s) ∧
    (full → ∃ t, exec (.barrierPhaseComplete c k) s = .next t ∧
      (∀ d, getK t.cohorts d = if d = c then some { x with barriers := putK x.barriers k { b with phase := b.phase + 1, arrivals := [] } } else getK s.cohorts d) ∧
      (let w := (b.arrivals.map fun y => ((getThread s y.1).map (·.wct)).getD 0).foldl Nat.max 0
       ∀ v th, getThread s v = some th → getThread t v = some (if th.lc.cohort = c then { th with wct := Nat.max th.wct w } else th)) ∧
      (∀ core, let acquires := (∃ y ∈ b.arrivals, y.2 = 2) ∧ s.fusedClusters.contains (core / 32) = false ∧
          ∃ v th, getThread s v = some th ∧ th.lc.cohort = c ∧ v / 1024 = core
        (acquires → ∃ q, s.seqno ≤ q ∧ getK t.acquired core = some q) ∧ (¬ acquires → getK t.acquired core = getK s.acquired core)) ∧
      t = { s with threads := t.threads, cohorts := t.cohorts, seqno := t.seqno, acquired := t.acquired })) ∧
  (∀ (node : Nat) s n, getK s.nodes node = some n → n.det = false →
    let mine (f : Thread → Prop) := (∀ v th, getThread s v = some th → th.lc.node = node → f th) ∧
      ∀ c ∈ s.cohorts, c.2.node = node → ∀ v ∈ c.2.saved, f v.thread
    let full := n.grid.1 * n.grid.2.1 * n.grid.2.2 ≤ n.nextUnit ∧ mine InFlush
    (¬ full → exec (.flushdComplete node) s = .next s) ∧
    (full → (∃ v th, getThread s v = some th ∧ th.lc.node = node ∧ th.over = false) → ∃ t, exec (.flushdComplete node) s = .next t ∧
      (∀ v, getThread t v = (getThread s v).map (flushReleased node)) ∧
      (∀ c, getK t.cohorts c = (getK s.cohorts c).map fun x =>
        { x with saved := x.saved.map fun v => { v with thread := flushReleased node v.thread } }) ∧
      t = { s with threads := t.threads, cohorts := t.cohorts }))

end Sys2Proof

/-- Events of threads, and of what threads gather at (R162, R205, R206, R217-R219, R238, R287, R289, R291, R355, R358, R374, R376; logs 25 and 32). -/
def Obligations.ThreadAndGatheringEvents : Prop := ThreadEvents ∧ GatheringEvents

namespace Sys2Proof

/-- Counter k of a thread one lower at a tick, which is kept where the counter comes to 0 (R160, R199); 4 names no counter. -/
def lowered (k now : Nat) (th : Thread) : Thread :=
  { th with
    dc := if k < 4 then putK th.dc k (readDc th k - 1) else th.dc
    zeros := if k < 4 ∧ readDc th k ≤ 1 then putK th.zeros k now else th.zeros }

/-- A thread after the data of an access has come (R160, R161, R353): its destinations hold it and wait no more, the counter has fallen, and the
access's write-completion times are merged. -/
def received (x : Access) (now : Nat) (th : Thread) : Thread :=
  { lowered x.dc now th with
    regs := x.dests.foldl (fun m d => if d.1 = 0 then m else putK m d.1 d.2) th.regs
    busy := x.dests.foldl (fun b d => b.erase d.1) th.busy
    wct := Nat.max th.wct (Nat.max x.stamp x.gwct) }

/-- The DATA of a sample's record (R379): the access's kind, then 12 bits for each stage, QMC first: 0 for one that it did not pass, else the cycles
it waited there by 8, saturated. -/
def sampleOf (x : Access) (queueing : List Nat) : Nat :=
  let code := match x.kind with | .load => 0 | .store => 1 | .atom => 2 | .red => 3
  let q (i : Nat) := if x.stages / 2 ^ (4 - i) % 2 = 1 then Nat.min (queueing.getD i 0 / 8) 4095 else 0
  ((((code * 4096 + q 0) * 4096 + q 1) * 4096 + q 2) * 4096 + q 3) * 4096 + q 4

/-- An access came to its end: one thread changed, and the accesses in flight, and, if it is sampled, its record was written, with the queueing times
given; nothing else. -/
def AccessDone (s t : State) (x : Access) (f : Thread → Thread) (access : List Access) (queueing : List Nat) : Prop :=
  ∃ m, (∀ v, getThread m v = (getThread s v).map fun th => if v = x.thread then f th else th) ∧ m = { s with threads := m.threads } ∧
    t = { (if x.sampled then writeObs { m with seqno := s.seqno + 5 } x.core (((getThread s x.thread).map fun th => th.lc.asid).getD 0) 2 (obsPlace x.thread)
        x.pc (sampleOf x queueing) else m) with access := access }

/-- The data of a load or an atomic returns to its thread once the writes whose bytes it returns are at their homes; the write of an atomic that has not
reached its home goes on as a store. An element of a write reaches its home
once no earlier write of its L1 to the line is on its way: memory reflects it. A store or reduction all of whose elements have reached it is performed: its
counter falls and its GWCT is merged. A sampled access writes its record as it completes, its queueing times free or as given (log 20). An event that
names no access in flight changes
nothing (R86, R159-R161, R351-R354, R379). The order of a store's elements, and that a return waits for stamps, are log 47. -/
def AccessEvents : Prop :=
  ∀ (n : Nat) s,
    let gone := s.access.filter fun y => y.id != n
    let overtakes (x : Access) := ∃ y ∈ s.access.takeWhile fun y => y.id != n, y.arrived = false ∧ nearPlace s y.core = nearPlace s x.core ∧ sameLine x y = true
    (findAccess s n = none → exec (.loadDataReturn n) s = .next s ∧ exec (.writeArrivalHome n) s = .next s ∧ exec (.storePerformed n) s = .next s ∧
      ∀ q, exec (.requestSampleComplete n q) s = .next s) ∧
    (∀ x, findAccess s n = some x →
      let known := ∀ y ∈ s.access, y.id ∈ x.after → y.arrived = true
      let stored (th : Thread) : Thread := { lowered x.dc s.span th with wct := Nat.max th.wct x.gwct }
      let onWay := s.access.map fun y => if y.id = n then { y with kind := .store, dc := 4, dests := [], sampled := false } else y
      (¬ known → exec (.loadDataReturn n) s = .next s) ∧
      (known → x.kind = .load → ∃ t q, exec (.loadDataReturn n) s = .next t ∧ AccessDone s t x (received x s.span) gone q) ∧
      (known → x.kind = .atom → ∃ t q, exec (.loadDataReturn n) s = .next t ∧
        AccessDone s t x (received x s.span) (if x.arrived = true then gone else onWay) q) ∧
      (x.kind = .store ∨ x.kind = .red → exec (.loadDataReturn n) s = .next s) ∧
      (x.arrived = true ∨ overtakes x → exec (.writeArrivalHome n) s = .next s) ∧
      (∀ pa bs rest th, x.arrived = false → x.writes = (pa, bs) :: rest → getThread s x.thread = some th → memWf s.mem = true →
        ¬ overtakes x → ∃ t g, exec (.writeArrivalHome n) s = .next t ∧
          (∀ q, readPa t (keyOf s th.lc.asid) q = if pa ≤ q ∧ q < pa + bs.length then bs.getD (q - pa) 0 else readPa s (keyOf s th.lc.asid) q) ∧
          (∀ v, ((getThread t v).map fun th => { th with watch := none }) = (getThread s v).map fun th => { th with watch := none }) ∧
          t = { s with
            mem := t.mem, lineKeys := t.lineKeys, poison := t.poison, nodes := t.nodes, threads := t.threads, subFired := t.subFired
            subWatch := t.subWatch, gwct := t.gwct, stamps := t.stamps, copies := t.copies, reuse := t.reuse, power := t.power
            access := s.access.map fun y =>
              if y.id = n then { y with writes := rest, va := y.va + bs.length, arrived := rest.isEmpty, gwct := Nat.max y.gwct g }
              else if n ∈ y.after then { y with stamp := Nat.max y.stamp (Nat.max x.stamp g) } else y }) ∧
      (x.arrived = true → x.kind = .store ∨ x.kind = .red → ∃ t q, exec (.storePerformed n) s = .next t ∧ AccessDone s t x stored gone q) ∧
      (x.arrived = false ∨ x.kind = .load ∨ x.kind = .atom → exec (.storePerformed n) s = .next s) ∧
      (∀ q, let go := exec (.requestSampleComplete n q) s
        let reads := x.kind = .load ∨ x.kind = .atom
        (x.sampled = false ∨ (reads ∧ ¬ known) ∨ (¬ reads ∧ x.arrived = false) → go = .next s) ∧
        (x.sampled = true → known → x.kind = .load → ∃ t, go = .next t ∧ AccessDone s t x (received x s.span) gone q) ∧
        (x.sampled = true → known → x.kind = .atom → ∃ t, go = .next t ∧
          AccessDone s t x (received x s.span) (if x.arrived = true then gone else onWay) q) ∧
        (x.sampled = true → x.arrived = true → ¬ reads → ∃ t, go = .next t ∧ AccessDone s t x stored gone q)))

/-- A copy whose lease has ended is dropped. A recall by the host fires the watches on a line of its memory. The stack cache of a core takes a row of a
crew's window. An error corrected counts on its die; one uncorrected poisons a line of memory or of a scratchpad, a register or latch of a thread, an
element of an array, a row of a stack cache, a translation or a queue entry (R198, R266, R350, R361, R384). Which places an error may name, and how much of
an on-chip store it takes, is log 49. -/
def MemoryEvents : Prop :=
  ∀ s,
    (∀ (copy : Nat), exec (.leaseExpiry copy) s = .next { s with copies := s.copies.filter fun c => decide (¬ (c.id = copy ∧ c.expiry ≤ s.span)) }) ∧
    (∀ (line : Nat), (isHostPa (line * 128) = false → exec (.hostRecall line) s = .next s) ∧
      (isHostPa (line * 128) = true → ∃ t, exec (.hostRecall line) s = .next t ∧
        (∀ v, getThread t v = (getThread s v).map fun th => { th with watch := th.watch.map fun w => if w.1 = line then (w.1, true) else w }) ∧
        t = { s with
          threads := t.threads
          subFired := s.subFired ++ (s.subWatch.filter fun w => w.2.2 == line).map fun w => (w.1, w.2.1)
          subWatch := s.subWatch.filter fun w => w.2.2 != line })) ∧
    (∀ (core slot off : Nat),
      (16 ≤ slot ∨ (∀ l th, l < 64 → getThread s ((core * 16 + slot) * 64 + l) = some th → th.lc.stack ≤ off) → exec (.stackRowFill core slot off) s = .next s) ∧
      (∀ l th, slot < 16 → l < 64 → getThread s ((core * 16 + slot) * 64 + l) = some th → off < th.lc.stack →
        ∃ t, exec (.stackRowFill core slot off) s = .next t ∧ (∃ r ∈ coreRows t core, r.slot = slot ∧ r.off = off / 16 * 16) ∧
          (∀ c, c ≠ core → coreRows t c = coreRows s c) ∧
          ((coreRows s core).length < 32 → t = { s with rows := t.rows } ∧ ∀ r ∈ coreRows s core, r ∈ coreRows t core))) ∧
    (∀ (place a b c : Nat),
      (a < 4 → ∃ t, exec (.softError true place a b c) s = .next t ∧ bar0 t (0x438 + 0x100 * a) = bar0 s (0x438 + 0x100 * a) + 1 ∧
        RegsOnly s s t [0x438 + 0x100 * a]) ∧
      (4 ≤ a → exec (.softError true place a b c) s = .next s) ∧
      (place = 0 ∨ place = 2 → let l := if place = 0 then a else scratchLine a b
        ∃ t, exec (.softError false place a b c) s = .next t ∧ t = { s with poison := t.poison } ∧ ∀ k, k ∈ t.poison ↔ k ∈ s.poison ∨ k = l) ∧
      (place = 1 → ∃ t, exec (.softError false place a b c) s = .next t ∧ t = { s with threads := t.threads } ∧
        ∀ v, (v ≠ a → getThread t v = getThread s v) ∧ (∀ th, v = a → getThread s a = some th →
          ∃ p, getThread t a = some { th with poison := p } ∧ ∀ k, k ∈ p ↔ k ∈ th.poison ∨ k = b)) ∧
      (place = 3 → ∀ g, getK s.girders a = some g → ∃ t p, exec (.softError false place a b c) s = .next t ∧ GirderSet s s t a { g with poison := p } ∧
        ∀ k, k ∈ p ↔ k ∈ g.poison ∨ k = b) ∧
      (place = 4 → ∃ t, exec (.softError false place a b c) s = .next t ∧ t = { s with rows := t.rows } ∧
        ∀ k, coreRows t k = if k = a then (coreRows s k).map fun r => if r.slot = b ∧ r.off = c / 16 * 16 then { r with poison := List.range 64 } else r
          else coreRows s k) ∧
      (place = 5 → exec (.softError false place a b c) s = .next { s with tlb := s.tlb.modify a fun e => { e with bad := true } }) ∧
      (place = 6 → ∃ t, exec (.softError false place a b c) s = .next t ∧ t = { s with poison := t.poison } ∧
        ∀ k, k ∈ t.poison ↔ k ∈ s.poison ∨ k = queueLine a) ∧
      (7 ≤ place → exec (.softError false place a b c) s = .next s))

end Sys2Proof

/-- Accesses in flight, and what happens to memory and its copies (R159-R161, R198, R350-R354, R361, R379, R384). -/
def Obligations.AccessAndMemoryEvents : Prop := AccessEvents ∧ MemoryEvents

namespace Sys2Proof

/-- No die is on its way out of P3, for which an act waits (R406). -/
def Awake (s : State) : Prop := ∀ e ∈ s.power, e.2.1 ≠ 4

/-- A machine whose next step is the turn of open clause k (log 10): no die wakes, nothing of the agenda comes first, group g of the clause has a word
left and a lane, its core runs, and no lane of it stops at a breakpoint before the word. -/
structure TurnOf (s s1 : State) (k : Nat) (rest : List Nat) (g : Group) : Prop where
  awake : Awake s
  agenda : s.agenda = []
  turns : s.turns = (k + 1) :: rest
  time : s1 = { tick s with turns := rest, cur := k }
  group : issuing s1 = some g
  lanes : g.members ≠ []
  word : g.idx < g.code.length
  runs : g.core ∉ s.halted
  stops : stopsHere s1 g = none

/-- What comes before a word issues: a lane that has left its breakpoint may stop at one again (R376), and the first instruction of a node
dates it (R327). Nothing else changes. -/
structure Prepared (s t : State) (g : Group) : Prop where
  thread : ∀ u, getThread t u = (getThread s u).map fun th =>
    if u ∈ g.members ∧ (breakpointAt s th.lc.asid g.pc).isNone = true then { th with stopReq := false } else th
  rest : t = { s with threads := t.threads, nodes := t.nodes }
  node : ∀ n, getNode t n = (getNode s n).map fun x =>
    if (g.members.head?.bind (getThread s)).map (·.lc.node) = some n ∧ x.start = none then { x with start := some s.span } else x

/-- A step of s that does an act ending in t: the act is done, unless it met a die in P3 (R406): that die is waked, and the act still to come. -/
def StepDoes (s t : State) : Prop :=
  step s = .next (if sleeps t = true then { tick s with power := (calm t).power } else t)

end Sys2Proof

/-- A step runs the decoded instruction. On the turn of an open clause whose word decodes to i it is i, in the state that time and the
issue prepare; a word that does not decode is taken as R49 to R51 say. An event of the agenda is run as an instruction is, and without a
turn the step is one of the machine's choices or changes nothing but the time (log 10, log 2). A die on its way out of P3 wakes first, and an act that meets
one still in P3 wakes it and comes again (R406, log 34). -/
def Obligations.StepRunsDecodedWord : Prop :=
  (∀ s s1 k rest g, TurnOf s s1 k rest g →
    ∃ s2, Prepared s1 s2 g ∧
      (∀ i, decode (g.code.getD g.idx 0) = .ok i → ∃ t, exec i s2 = .next t ∧ StepDoes s t) ∧
      (∀ e, decode (g.code.getD g.idx 0) = .error e → StepDoes s (illegalWord e (g.code.getD g.idx 0) s2))) ∧
  (∀ s i rest, Awake s → s.agenda = i :: rest → encode i = none → ∃ t, exec i { tick s with agenda := rest } = .next t ∧ StepDoes s t) ∧
  (∀ s, Awake s → s.agenda = [] → s.turns = [] →
    (∃ c ∈ choices (tick s), ∃ t, (c (tick s)).run = .next t ∧ StepDoes s t) ∨ StepDoes s (tick s)) ∧
  (∀ s e, s.power.find? (fun e => e.2.1 == 4) = some e → ∃ t, exec (.p3Wake e.1) (tick s) = .next t ∧ StepDoes s t) ∧
  (∀ s, (tick s).span = s.span + s.elapse.headD 1 ∧ tick s = { s with span := (tick s).span, cycles := (tick s).cycles, elapse := s.elapse.tail } ∧
    ∀ die, die < 4 → cyclesOf (tick s) die = cyclesOf s die +
      s.elapse.headD 1 * (if powerState s die = 0 then 42 else if powerState s die = 3 then 0 else 21))

/-- A word that does not decode. In a thread in which its predicate is true it is Illegal Instruction, or, where only an unused operand
field is not zero and nothing of its opcode is shut to the thread, Illegal Operand; where its predicate is true in no thread of the group
it is a no-op that makes the latch invalid (R49, R50, R51, R39, R56). -/
def Obligations.IllegalWords : Prop :=
  ∀ s g e, Issues s g →
    let w := g.code.getD g.idx 0
    decode w = .error e →
    (∀ u th l h, g.members = [u] → getThread s u = some th → handlerOf th = some (l, h) → readPred th (predOf w).toNat = true →
      Left s (illegalWord e w s) u
        (entered s th 0 (recordAt g th (if e = .operand ∧ gateFails (gateOf w) g.core th = false then 0x02 else 0x01) (immediateOf w)) l h)
        (fun _ => true) (emptied s g)) ∧
    ((∀ u ∈ g.members, ∀ th, getThread s u = some th → readPred th (predOf w).toNat = false) →
      GroupResult s (illegalWord e w s) g fun _ => Skipped g)

/-- Words written out from the encodings that the chapters work (R44 to R47) decode to the instructions that they stand for: one or more
of each family of the opcode map. -/
def Obligations.WorkedEncodings : Prop :=
  [decode 0x0402080F, decode 0x7C800017, decode 0x2831081C, decode 0x2C312345, decode 0x6061C627, decode 0x6C138027, decode 0x48828C38,
    decode 0x80C30007, decode 0x88E48054, decode 0x8C32406A, decode 0xA0018118, decode 0xA4518846, decode 0xA8028CA4, decode 0xBBBFF400,
    decode 0xBC000028, decode 0xC0010037, decode 0xC470C000, decode 0xC8020800, decode 0xCC00C007, decode 0xCC602B27, decode 0x58B28C67,
    decode 0x08A2CA80, decode 0xB0C10DA7, decode 0xB4628037, decode 0x78200167, decode 0xFC010607, decode 0xE4310633, decode 0xE0010826,
    decode 0xE831000B, decode 0xEC310003, decode 0xAC004337, decode 0x68020007] =
  [.ok (.iadd 0 8 8 true 7), .ok (.srd 8 0 false 7), .ok (.shfi 3 4 2 7 false false), .ok (.lui 3 0x12345),
    .ok (.cvt 6 7 1 2 2 false 7), .ok (.cmpf 1 14 0 2 false 7), .ok (.dfma 8 10 12 14 false false), .ok (.tseed 12 12 false 0 false 7),
    .ok (.st 14 18 2 2 2 false), .ok (.lds 3 9 3 1 1 false), .ok (.prf 6 8 3 false), .ok (.atom 5 6 8 4 3 false),
    .ok (.red 10 12 10 2 false), .ok (.bra 7 false (-6) 0), .ok (.call 40), .ok (.calli 4 false 7), .ok (.loop 7 12), .ok (.loopi 8 32),
    .ok (.trap 3 false 7), .ok (.srdp 6 43 false 7), .ok (.acsH2 11 10 12 false 7), .ok (.sel 10 11 10 false 0),
    .ok (.compress 12 4 13 false 7), .ok (.osmxf 6 10 false 7), .ok (.gsetOpen 2 false 7), .ok (.fork 4 6 false 7),
    .ok (.mtxMdrain 3 4 6 1), .ok (.cpyGath 4 8 1), .ok (.splSrepl 3 4), .ok (.slvLu 3 4), .ok (.bar 1 3 false 7),
    .ok (.cmpi 0 8 0 0 false 7)]

/-- Each word that decodes stands for one well-formed instruction, whose word it is, and the word of each well-formed instruction decodes
to it, in the decoder of threads or, for the engine form of `RDVZ`, in that of engine programs (R34, R44 to R47, R236, R239). -/
def Obligations.WordsAndInstructions : Prop :=
  (∀ w i, decode w = .ok i ↔ wellFormed i = true ∧ encode i = some w ∧ ∀ a b n p, i ≠ .rdvzEngine a b n p) ∧
  (∀ w i, decodeEngine w = .ok i ↔ wellFormed i = true ∧ encode i = some w ∧ ∀ a b n p, i ≠ .rdvz a b n p)

/-- Every step answers a next state: no state stops the machine. -/
def Obligations.EveryStepAnswers : Prop := ∀ s, ∃ t, step s = .next t

/-- Every step keeps the canonical form of memory: its bytes by rising addresses, none of them equal to what an unlisted address reads
as (log 1 for that value). -/
def Obligations.StepKeepsMemoryForm : Prop := ∀ s t, State.Inv s → step s = .next t → State.Inv t

/-- What reset leaves: `SPAN` at 0, no thread, cohort, node or access, every BAR 0 register at its reset value, that is DEVID, LEASE0 to LEASE2, the
WAITLIM of each die and the nonce at theirs and every other at 0, COLTO and RETRAIN at theirs, PHASE and DBG 0, no key
and no measurement, every port DOWN, and memory that lists nothing, in its canonical form (R3, R386, R387, R411; log 1 for the memory, log 6 for the
nonce, which is a free value). -/
def Obligations.ResetLeaves : Prop :=
  State.reset.span = 0 ∧ State.reset.threads = [] ∧ State.reset.cohorts = [] ∧ State.reset.nodes = [] ∧ State.reset.access = [] ∧
  State.reset.opens = [] ∧ State.reset.faults = [] ∧ State.reset.keys = [] ∧ State.reset.meas = [] ∧ State.reset.mem = [] ∧
  State.Inv State.reset ∧ State.reset.session = none ∧
  bar0 State.reset 0 = 0x19160 ∧ bar0 State.reset 0x78 = 0x0000080000000100 ∧ bar0 State.reset 0x80 = 0x0000020000000040 ∧
  bar0 State.reset 0x88 = 0x0000200000000400 ∧ (∀ k, k < 4 → bar0 State.reset (0xA0 + 8 * k) = Config.nonce 0 k) ∧
  (∀ die, die < 4 → bar0 State.reset (0x408 + 0x100 * die) = 0x1E8480) ∧
  (∀ off, off ∉ [0, 0x78, 0x80, 0x88] → ¬ (0xA0 ≤ off ∧ off ≤ 0xB8) → ¬ (0x400 ≤ off ∧ off < 0x800 ∧ off % 0x100 = 8) → bar0 State.reset off = 0) ∧
  (∀ die, die < 4 → rawPower State.reset die = 0) ∧ (∀ p, getPort State.reset p = ⟨0, 0, 0, 0⟩) ∧
  (∀ asid, keyOf State.reset asid = 0) ∧ (∀ off, (getK State.reset.bar2 off) = none) ∧
  bar2 State.reset 0x10 = 0x3B9ACA00 ∧ bar2 State.reset 0x18 = 0x989680

/-- Operand codes. As a single source code 0 reads `v0`, which is 0 with zero tangents, 1 to 59 a register that the kernel declares, and
60 to 63 a valid latch, its low word where it is wide. As a destination code 0 discards the write and 1 to 59 name a declared register. A
pair is an even code from 2 to 58 with both registers declared, or, as a source, a wide latch. A predicate is 0 to 6, and 7 as a source
reads true. Any other code is Illegal Operand (R36, R37, R38, R41, and R42 for nw). -/
def Obligations.OperandCodes : Prop :=
  (∀ (th : Thread) (c : BitVec 6), srcReg th c =
    if c = 0 then some Dexel.zero
    else if c.toNat < 60 then (if c.toNat < th.lc.regs then some (readReg th c.toNat) else none)
    else if (readLatch th (c.toNat - 60)).valid = true then some (readLatch th (c.toNat - 60)).lo else none) ∧
  (∀ (th : Thread) (c : BitVec 6), srcPair th c =
    if c.toNat < 60 then
      (if 2 ≤ c.toNat ∧ c.toNat % 2 = 0 ∧ c.toNat + 1 < th.lc.regs then some (readReg th c.toNat, readReg th (c.toNat + 1)) else none)
    else if (readLatch th (c.toNat - 60)).valid = true ∧ (readLatch th (c.toNat - 60)).wide = true then
      some ((readLatch th (c.toNat - 60)).lo, (readLatch th (c.toNat - 60)).hi)
    else none) ∧
  (∀ (th : Thread) (d : BitVec 6), (dstReg th d false = true ↔ d = 0 ∨ (d.toNat < 60 ∧ d.toNat < th.lc.regs)) ∧
    (dstReg th d true = true ↔ d = 0)) ∧
  (∀ (th : Thread) (d : BitVec 6),
    (dstPair th d false = true ↔ 2 ≤ d.toNat ∧ d.toNat ≤ 58 ∧ d.toNat % 2 = 0 ∧ d.toNat + 1 < th.lc.regs) ∧
    (dstPair th d true = true ↔ d = 0)) ∧
  (∀ (d : BitVec 6), dstPred d false = true ↔ d.toNat ≤ 6) ∧
  (∀ (th : Thread) (c : BitVec 6), srcPred th c = if c.toNat ≤ 6 then some (readPred th c.toNat) else if c = 7 then some true else none) ∧
  (∀ (th : Thread) (x : Dexel), writeReg th 0 x = th ∧ readReg th 0 = Dexel.zero) ∧
  (∀ (th : Thread) (n m : Nat) (x : Dexel), n ≠ 0 → readReg (writeReg th n x) m = if m = n then x else readReg th m)

namespace Sys2Proof

/-- The real value of a finite pattern of a format (R88). -/
def realOf (f : IeeeFmt) (x : Nat) : Option ℚ :=
  match fval f x with
  | .fin n m e => some ((if n = true then -1 else 1) * (m : ℚ) * (2 : ℚ) ^ e)
  | _ => none

/-- The whole number n that a mode chooses for y ≥ 0 units of the last place, in a value of sign neg (R93): the nearer one, on a tie the even
one or the one farther from zero; or the one towards zero, -∞ or +∞. -/
def Chosen (mode : RMode) (neg : Bool) (y : ℚ) (n : ℤ) : Prop :=
  match mode with
  | .rne => |y - n| < 1 / 2 ∨ (|y - n| = 1 / 2 ∧ n % 2 = 0)
  | .rtz => (n : ℚ) ≤ y ∧ y < n + 1
  | .rdn => if neg = true then (n : ℚ) - 1 < y ∧ y ≤ n else (n : ℚ) ≤ y ∧ y < n + 1
  | .rup => if neg = true then (n : ℚ) ≤ y ∧ y < n + 1 else (n : ℚ) - 1 < y ∧ y ≤ n
  | .rna => |y - n| < 1 / 2 ∨ (|y - n| = 1 / 2 ∧ y < n)

/-- An exact magnitude x, with 2^k ≤ x < 2^(k+1), rounded to a format (R93, R94, R95, R97): to the format's precision, in units of the last
place of a subnormal below the normal range; the overflowed result, with OF and NX; NX where it is not exact, UF where it is also tiny after
rounding with an unbounded exponent. -/
def Rounds (f : IeeeFmt) (mode : RMode) (neg : Bool) (x : ℚ) (k : ℤ) (r : FRes) : Prop :=
  let unit : ℚ := 2 ^ (max k f.emin - f.mbits)
  let free : ℚ := 2 ^ (k - f.mbits)
  ∃ n n' : ℤ, Chosen mode neg (x / unit) n ∧ Chosen mode neg (x / free) n' ∧
    if (2 : ℚ) ^ ((f.bias : ℤ) + 1) ≤ (n : ℚ) * unit then
      r.flags = flOF ||| flNX ∧ r.bits =
        (match mode with
          | .rne | .rna => f.inf neg
          | .rtz => f.maxFinite neg
          | .rdn => if neg = true then f.inf true else f.maxFinite false
          | .rup => if neg = true then f.maxFinite true else f.inf false)
    else
      realOf f r.bits = some ((if neg = true then -1 else 1) * ((n : ℚ) * unit)) ∧ signBit f r.bits = neg ∧ r.bits < 2 ^ f.width ∧
      r.flags = (if (n : ℚ) * unit = x then 0 else if (n' : ℚ) * free < (2 : ℚ) ^ f.emin then flNX ||| flUF else flNX)

end Sys2Proof

/-- Rounding to binary64, binary32, binary16 and BF16 is right: for every exact nonzero value, sign and mode, the result is the neighbour
that the mode chooses, subnormal or overflowed as the rules say, with the flags of the rules (R88, R93, R94, R95, R97). -/
def Obligations.RoundingIsRight : Prop :=
  ([b64, b32, b16, bf16].map fun f => f.maxFinite false) = [0x7FEFFFFFFFFFFFFF, 0x7F7FFFFF, 0x7BFF, 0x7F7F] ∧
  ([b64, b32, b16, bf16].map fun f => f.emin) = [-1022, -126, -14, -126] ∧
  ∀ f ∈ [b64, b32, b16, bf16], ∀ (mode : RMode) (neg : Bool) (m : Nat) (e k : ℤ), 0 < m →
    (2 : ℚ) ^ k ≤ (m : ℚ) * 2 ^ e → (m : ℚ) * 2 ^ e < (2 : ℚ) ^ (k + 1) →
    Rounds f mode neg ((m : ℚ) * 2 ^ e) k (roundFin f mode neg m e false)

/-- Sums, differences, products and fused products of finite numbers are exact before they are rounded once (R93, R96, R124): the result
is that of rounding the exact value, and an exact zero of operands of opposite sign is +0, or -0 in RDN. -/
def Obligations.ArithmeticIsExactThenRounded : Prop :=
  ∀ f ∈ [b64, b32, b16, bf16], ∀ (mode : RMode) (a b c : Nat) (x y z : ℚ),
    realOf f a = some x → realOf f b = some y → realOf f c = some z →
    let rounded (v : ℚ) (r : FRes) : Prop := ∃ (neg : Bool) (m : Nat) (e : ℤ), (neg = true ↔ v < 0) ∧ 0 < m ∧ |v| = (m : ℚ) * 2 ^ e ∧
      r = roundFin f mode neg m e false
    let zero (neg : Bool) (r : FRes) : Prop := r = ⟨f.zero neg, 0⟩
    let sign (n1 n2 : Bool) : Bool := if n1 = n2 then n1 else mode == .rdn
    (x + y ≠ 0 → rounded (x + y) (fpAdd f mode a b)) ∧ (x + y = 0 → zero (sign (signBit f a) (signBit f b)) (fpAdd f mode a b)) ∧
    (x - y ≠ 0 → rounded (x - y) (fpSub f mode a b)) ∧ (x - y = 0 → zero (sign (signBit f a) (!signBit f b)) (fpSub f mode a b)) ∧
    (x * y ≠ 0 → rounded (x * y) (fpMul f mode a b)) ∧ (x * y = 0 → zero (signBit f a != signBit f b) (fpMul f mode a b)) ∧
    (x * y + z ≠ 0 → rounded (x * y + z) (fpFma f mode false false a b c)) ∧
    (x * y + z = 0 → zero (sign (signBit f a != signBit f b) (signBit f c)) (fpFma f mode false false a b c))
end

