-- ==== Sys2Proof/Laws/Maps.lean ====
section
/-! SUPPORT. Reading a map or a list after a write. -/

namespace Sys2Proof.Machine

/-- An entry just set reads back. -/
@[simp] theorem getK_putK_same {α : Type} (m : Map α) (i : Nat) (x : α) : getK (putK m i x) i = some x := by
  induction m with
  | nil => simp [putK, getK]
  | cons e m ih =>
    obtain ⟨k, v⟩ := e
    by_cases h : k = i
    · simp [putK, getK, h]
    · by_cases h2 : i < k
      · simp [putK, getK, h, h2]
      · simp [putK, getK, h, h2, ih]

/-- Setting an entry leaves every other one alone. -/
theorem getK_putK_ne {α : Type} (m : Map α) (x : α) {i j : Nat} (h : j ≠ i) : getK (putK m i x) j = getK m j := by
  have h' : i ≠ j := fun e => h e.symm
  induction m with
  | nil => simp [putK, getK, h']
  | cons e m ih =>
    obtain ⟨k, v⟩ := e
    by_cases h1 : k = i
    · subst h1; simp [putK, getK, h']
    · by_cases h2 : i < k
      · simp [putK, getK, h1, h2, h']
      · simp [putK, getK, h1, h2, ih]

/-- What an entry reads after another one or itself is set. -/
theorem getK_putK {α : Type} (m : Map α) (x : α) (i j : Nat) : getK (putK m i x) j = if j = i then some x else getK m j := by
  by_cases h : j = i
  · subst h; simp
  · simp [h, getK_putK_ne m x h]

/-- An entry taken away reads as absent. -/
theorem getK_delK_same {α : Type} (m : Map α) (i : Nat) : getK (delK m i) i = none := by
  induction m with
  | nil => rfl
  | cons e m ih =>
    obtain ⟨k, v⟩ := e
    by_cases h : k = i
    · simpa [delK, h] using ih
    · have : (delK ((k, v) :: m) i) = (k, v) :: delK m i := by simp [delK, h]
      simp [this, getK, h, ih]

/-- Taking an entry away leaves every other one alone. -/
theorem getK_delK_ne {α : Type} (m : Map α) {i j : Nat} (h : j ≠ i) : getK (delK m i) j = getK m j := by
  induction m with
  | nil => rfl
  | cons e m ih =>
    obtain ⟨k, v⟩ := e
    by_cases h1 : k = i
    · have : (delK ((k, v) :: m) i) = delK m i := by simp [delK, h1]
      have h2 : k ≠ j := by rw [h1]; exact fun e => h e.symm
      simp [this, getK, h2, ih]
    · have : (delK ((k, v) :: m) i) = (k, v) :: delK m i := by simp [delK, h1]
      simp [this, getK, ih]

/-- The numbers of a list without repeats are those of the list. -/
@[simp] theorem mem_distinct (l : List Nat) (t : Nat) : t ∈ distinct l ↔ t ∈ l := by
  induction l with
  | nil => simp [distinct]
  | cons a l ih =>
    by_cases h : t = a
    · simp [distinct, h]
    · simp [distinct, h, ih]

/-- `distinct` leaves no number twice. -/
theorem distinct_nodup (l : List Nat) : (distinct l).Nodup := by
  induction l with
  | nil => simp [distinct]
  | cons a l ih =>
    simp only [distinct, List.nodup_cons, List.mem_filter]
    exact ⟨by simp, ih.sublist List.filter_sublist⟩

/-- The threads of the issuing group exist and stand in it once each. -/
theorem issuing_members {s : State} {g : Group} (h : issuing s = some g) :
    g.members.Nodup ∧ ∀ t ∈ g.members, ∃ th, getThread s t = some th := by
  unfold issuing at h
  cases e : s.opens[s.cur]? with
  | none => simp [e] at h
  | some g0 =>
    simp [e] at h
    subst h
    refine ⟨(distinct_nodup _).sublist List.filter_sublist, fun t ht => ?_⟩
    simp only [present, List.mem_filter] at ht
    exact Option.isSome_iff_exists.mp ht.2

/-- The issuing group is an open clause. -/
theorem issuing_cur {s : State} {g : Group} (h : issuing s = some g) : s.cur < s.opens.length := by
  unfold issuing at h
  cases e : s.opens[s.cur]? with
  | none => simp [e] at h
  | some g0 => exact (List.getElem?_eq_some_iff.mp e).1

/-- A map's entry stands in its list. -/
theorem mem_of_getK {α : Type} (m : Map α) (k : Nat) (x : α) (h : getK m k = some x) : (k, x) ∈ m := by
  induction m with
  | nil => simp [getK] at h
  | cons e m ih =>
    obtain ⟨i, y⟩ := e
    unfold getK at h
    by_cases hi : i = k
    · rw [if_pos hi] at h; simp at h; simp [hi, h]
    · rw [if_neg hi] at h; exact List.mem_cons_of_mem _ (ih h)

/-- What stands in a map after an entry is put into it. -/
theorem mem_putK {α : Type} (m : Map α) (i : Nat) (x : α) (e : Nat × α) (h : e ∈ putK m i x) : e ∈ m ∨ e = (i, x) := by
  induction m with
  | nil => right; simpa [putK] using h
  | cons a m ih =>
    obtain ⟨j, y⟩ := a
    unfold putK at h
    split at h
    · rcases List.mem_cons.1 h with h | h
      · exact Or.inr h
      · exact Or.inl (List.mem_cons_of_mem _ h)
    · split at h
      · rcases List.mem_cons.1 h with h | h
        · exact Or.inr h
        · exact Or.inl h
      · rcases List.mem_cons.1 h with h | h
        · exact Or.inl (h ▸ List.mem_cons_self)
        · rcases ih h with h | h
          · exact Or.inl (List.mem_cons_of_mem _ h)
          · exact Or.inr h

/-- A map listed from numbers. -/
theorem getK_listmap {β : Type} (f : Nat → β) (l : List Nat) (k : Nat) : getK (l.map fun a => (a, f a)) k = if k ∈ l then some (f k) else none := by
  induction l with
  | nil => rfl
  | cons a l ih =>
    rw [List.map_cons]
    unfold getK
    by_cases h : a = k
    · rw [if_pos h, h, if_pos List.mem_cons_self]
    · rw [if_neg h, ih]
      have : k ∈ a :: l ↔ k ∈ l := by simp [Ne.symm h]
      simp only [this]

/-- A map whose values are all changed. -/
theorem getK_map' {α : Type} (f : α → α) (m : Map α) (u : Nat) : getK (m.map fun e => (e.1, f e.2)) u = (getK m u).map f := by
  induction m with
  | nil => rfl
  | cons e m ih =>
    obtain ⟨k, x⟩ := e
    rw [List.map_cons]
    unfold getK
    split
    · rfl
    · exact ih

end Sys2Proof.Machine
end

