-- ==== Sys2Proof/Laws/Memory.lean ====
section
/-! SUPPORT. Memory as a list of cells: a byte written reads back, every other byte is as it was, and the canonical form stays. -/

namespace Sys2Proof.Machine

/-- A lower bound holds of a canonical list that starts above it. -/
theorem memWfFrom_weaken {m : List Host.Cell} {lo lo' : Option Nat} (h : memWfFrom lo m = true)
    (hl : ∀ l, lo' = some l → ∃ k, lo = some k ∧ l ≤ k) : memWfFrom lo' m = true := by
  cases m with
  | nil => rfl
  | cons e m =>
    obtain ⟨a, b⟩ := e
    simp only [memWfFrom, Bool.and_eq_true] at h ⊢
    refine ⟨⟨?_, h.1.2⟩, h.2⟩
    cases lo' with
    | none => rfl
    | some l =>
      obtain ⟨k, rfl, hk⟩ := hl l rfl
      have := h.1.1
      simp only [decide_eq_true_eq] at this ⊢
      omega

/-- A canonical list lists nothing at or below its bound. -/
theorem memGet_below {m : List Host.Cell} {lo : Nat} (h : memWfFrom (some lo) m = true) {i : Nat} (hi : i ≤ lo) : memGet m i = emptyByte := by
  induction m generalizing lo with
  | nil => rfl
  | cons e m ih =>
    obtain ⟨a, b⟩ := e
    simp only [memWfFrom, Bool.and_eq_true, decide_eq_true_eq] at h
    have : a ≠ i := by omega
    unfold memGet
    rw [if_neg this]
    exact ih h.2 (by omega)

/-- A byte set keeps the canonical form. -/
theorem memWfFrom_memSet {m : List Host.Cell} {lo : Option Nat} (h : memWfFrom lo m = true) (i : Nat) (x : Byte) (hl : ∀ l, lo = some l → l < i) :
    memWfFrom lo (memSet m i x) = true := by
  induction m generalizing lo with
  | nil =>
    unfold memSet
    split
    · rfl
    · rename_i hx
      simp only [memWfFrom, Bool.and_true, Bool.and_eq_true, bne_iff_ne, ne_eq]
      refine ⟨?_, hx⟩
      cases lo with
      | none => rfl
      | some l => simpa using hl l rfl
  | cons e m ih =>
    obtain ⟨a, b⟩ := e
    have h0 := h
    simp only [memWfFrom, Bool.and_eq_true] at h
    unfold memSet
    split
    · split
      · refine memWfFrom_weaken h.2 fun l e => ⟨a, rfl, ?_⟩
        have := hl l e; omega
      · rename_i ha hx
        simp only [memWfFrom, Bool.and_eq_true, bne_iff_ne, ne_eq]
        refine ⟨⟨?_, hx⟩, ha ▸ h.2⟩
        cases lo with
        | none => rfl
        | some l => simpa using hl l rfl
    · split
      · split
        · exact h0
        · rename_i ha hi hx
          simp only [memWfFrom, Bool.and_eq_true, bne_iff_ne, ne_eq]
          refine ⟨⟨?_, hx⟩, ⟨?_, ?_⟩, h.2⟩
          · cases lo with
            | none => rfl
            | some l => simpa using hl l rfl
          · simpa using hi
          · simpa using h.1.2
      · simp only [memWfFrom, Bool.and_eq_true]
        exact ⟨h.1, ih h.2 fun l e => by simp only [Option.some.injEq] at e; omega⟩

/-- A byte set reads back, and every other byte is as it was. -/
theorem memGet_memSet_from {m : List Host.Cell} {lo : Option Nat} (h : memWfFrom lo m = true) (i : Nat) (x : Byte) (q : Nat) :
    memGet (memSet m i x) q = if q = i then x else memGet m q := by
  induction m generalizing lo with
  | nil =>
    unfold memSet
    by_cases hx : x = emptyByte
    · rw [if_pos hx, hx]; simp [memGet]
    · rw [if_neg hx]
      unfold memGet
      by_cases hq : q = i
      · rw [if_pos hq.symm, if_pos hq]
      · rw [if_neg (fun e => hq e.symm), if_neg hq]; rfl
  | cons e m ih =>
    obtain ⟨a, b⟩ := e
    simp only [memWfFrom, Bool.and_eq_true] at h
    unfold memSet
    by_cases ha : a = i
    · subst ha
      rw [if_pos rfl]
      by_cases hx : x = emptyByte
      · rw [if_pos hx]
        by_cases hq : q = a
        · rw [if_pos hq, hx]; exact memGet_below h.2 (by omega)
        · rw [if_neg hq, memGet, if_neg (fun e => hq e.symm)]
      · rw [if_neg hx]
        by_cases hq : q = a
        · rw [if_pos hq, memGet, if_pos hq.symm]
        · rw [if_neg hq, memGet, if_neg (fun e => hq e.symm), memGet, if_neg (fun e => hq e.symm)]
    · rw [if_neg ha]
      by_cases hi : i < a
      · rw [if_pos hi]
        have hb : memGet ((a, b) :: m) i = emptyByte := by
          rw [memGet, if_neg ha]; exact memGet_below h.2 (by omega)
        by_cases hx : x = emptyByte
        · rw [if_pos hx]
          by_cases hq : q = i
          · rw [if_pos hq, hq, hb, hx]
          · rw [if_neg hq]
        · rw [if_neg hx]
          by_cases hq : q = i
          · rw [if_pos hq, memGet, if_pos hq.symm]
          · rw [if_neg hq, memGet, if_neg (fun e => hq e.symm)]
      · rw [if_neg hi]
        by_cases hq : a = q
        · rw [memGet, if_pos hq, memGet, if_pos hq, if_neg (fun e => ha (hq.trans e))]
        · rw [memGet, if_neg hq, memGet, if_neg hq]
          exact ih h.2

theorem memGet_memSet {m : List Host.Cell} (h : memWf m = true) (i : Nat) (x : Byte) (q : Nat) :
    memGet (memSet m i x) q = if q = i then x else memGet m q := memGet_memSet_from h i x q

theorem memWf_memSet {m : List Host.Cell} (h : memWf m = true) (i : Nat) (x : Byte) : memWf (memSet m i x) = true :=
  memWfFrom_memSet h i x fun l e => by cases e

/-- Bytes written keep the canonical form. -/
theorem memWf_memWrite {m : List Host.Cell} (h : memWf m = true) (a : Nat) (bs : List Byte) : memWf (memWrite m a bs) = true := by
  induction bs generalizing m a with
  | nil => exact h
  | cons b bs ih => exact ih (memWf_memSet h a b) (a + 1)

/-- Bytes written read back, and every byte outside them is as it was. -/
theorem memGet_memWrite {m : List Host.Cell} (h : memWf m = true) (a : Nat) (bs : List Byte) (q : Nat) :
    memGet (memWrite m a bs) q = if a ≤ q ∧ q < a + bs.length then bs.getD (q - a) 0 else memGet m q := by
  induction bs generalizing m a with
  | nil =>
    have h0 : ¬ (a ≤ q ∧ q < a + ([] : List Byte).length) := by simp only [List.length_nil]; omega
    rw [if_neg h0]; rfl
  | cons b bs ih =>
    rw [memWrite, ih (memWf_memSet h a b), memGet_memSet h]
    simp only [List.length_cons]
    by_cases h1 : a + 1 ≤ q ∧ q < a + 1 + bs.length
    · rw [if_pos h1, if_pos (by omega)]
      have : q - a = (q - (a + 1)) + 1 := by omega
      rw [this, List.getD_cons_succ]
    · rw [if_neg h1]
      by_cases h2 : q = a
      · subst h2; rw [if_pos rfl, if_pos (by omega)]; simp
      · rw [if_neg h2, if_neg (by omega)]

end Sys2Proof.Machine
end

