-- ==== Sys2Proof/Laws/Arrive.lean ====
section
/-! SUPPORT. A write that arrives at its home (R351) reads back under its key, every other byte reads as before, and memory stays
in canonical form. -/

namespace Sys2Proof.Machine

theorem host_line (pa : Nat) : isHostPa (lineOf pa * 128) = isHostPa pa := by
  unfold isHostPa lineOf
  have : pa / 128 * 128 / 2 ^ 51 = pa / 2 ^ 51 := by omega
  rw [this]

/-- What is read does not depend on anything but memory and the keys of its lines. -/
theorem readPa_congr {s t : State} (h1 : t.mem = s.mem) (h2 : t.lineKeys = s.lineKeys) (key q : Nat) : readPa t key q = readPa s key q := by
  unfold readPa lineKey
  rw [h1, h2]

theorem rekey_eq (s : State) (key line : Nat) (bs : List Byte) (hb : bs = readBytes s key (line * 128) 128) (h : lineKey s line ≠ key) :
    rekeyLine s key line = { s with mem := memWrite s.mem (line * 128) bs, lineKeys := putK s.lineKeys line key } := by
  unfold rekeyLine
  rw [if_neg h, hb]

/-- A line brought under a key reads as before, and so does every other one. -/
theorem readPa_rekey {s : State} (hm : memWf s.mem = true) (key line : Nat) :
    memWf (rekeyLine s key line).mem = true ∧ (∀ q, readPa (rekeyLine s key line) key q = readPa s key q) ∧
      lineKey (rekeyLine s key line) line = key := by
  by_cases h : lineKey s line = key
  · have e : rekeyLine s key line = s := by unfold rekeyLine; rw [if_pos h]
    rw [e]
    exact ⟨hm, fun _ => rfl, h⟩
  · have hl : (readBytes s key (line * 128) 128).length = 128 := by simp [readBytes]
    have hget : ∀ i, i < 128 → (readBytes s key (line * 128) 128).getD i 0 = readPa s key (line * 128 + i) := by
      intro i hi
      unfold readBytes
      rw [List.getD_eq_getElem?_getD, List.getElem?_map, List.getElem?_range hi]
      rfl
    generalize hb : readBytes s key (line * 128) 128 = bs at hl hget
    rw [rekey_eq s key line bs hb.symm h]
    refine ⟨memWf_memWrite hm (line * 128) bs, fun q => ?_, ?_⟩
    · unfold readPa lineKey
      dsimp only
      rw [memGet_memWrite hm, getK_putK, hl]
      by_cases hq : lineOf q = line
      · have hr : line * 128 ≤ q ∧ q < line * 128 + 128 := by unfold lineOf at hq; omega
        rw [if_pos hr, if_pos hq, if_pos (.inr rfl), hget _ (by omega)]
        have : line * 128 + (q - line * 128) = q := by omega
        rw [this]
        rfl
      · have hr : ¬ (line * 128 ≤ q ∧ q < line * 128 + 128) := by unfold lineOf at hq; omega
        rw [if_neg hr, if_neg hq]
    · unfold lineKey
      dsimp only
      rw [getK_putK_same]; rfl

/-- Bytes written within a line. -/
theorem readPa_writePa {s : State} (hm : memWf s.mem = true) (key pa : Nat) (bs : List Byte) (hl : pa % 128 + bs.length ≤ 128) :
    memWf (writePa s key pa bs).mem = true ∧
    ∀ q, readPa (writePa s key pa bs) key q = if pa ≤ q ∧ q < pa + bs.length then bs.getD (q - pa) 0 else readPa s key q := by
  have hline : ∀ q, pa ≤ q ∧ q < pa + bs.length → lineOf q = lineOf pa := fun q hq => by unfold lineOf; omega
  unfold writePa
  by_cases hh : isHostPa pa = true
  · simp only [hh, if_true]
    refine ⟨memWf_memWrite hm _ _, fun q => ?_⟩
    unfold readPa lineKey
    dsimp only
    rw [memGet_memWrite hm]
    by_cases hq : pa ≤ q ∧ q < pa + bs.length
    · have hhq : isHostPa q = true := by rw [← host_line, hline q hq, host_line]; exact hh
      rw [if_pos hq, if_pos hq]
      exact if_pos (.inl hhq)
    · rw [if_neg hq, if_neg hq]
  · simp only [if_neg hh]
    obtain ⟨w1, r1, k1⟩ := readPa_rekey hm key (lineOf pa)
    generalize rekeyLine s key (lineOf pa) = s1 at w1 r1 k1
    refine ⟨memWf_memWrite w1 _ _, fun q => ?_⟩
    rw [← r1 q]
    unfold readPa
    dsimp only
    have hk : lineKey { s1 with
          mem := memWrite s1.mem pa bs, lineKeys := putK s1.lineKeys (lineOf pa) key
          poison := if bs.length = 128 then s1.poison.filter (· != lineOf pa) else s1.poison } (lineOf q) = lineKey s1 (lineOf q) := by
      unfold lineKey at k1 ⊢
      dsimp only
      rw [getK_putK]
      by_cases hq : lineOf q = lineOf pa
      · rw [if_pos hq, hq, k1]; rfl
      · rw [if_neg hq]
    rw [hk, memGet_memWrite w1]
    by_cases hq : pa ≤ q ∧ q < pa + bs.length
    · rw [if_pos hq, if_pos hq, if_pos (.inr (by rw [hline q hq, k1]))]
    · rw [if_neg hq, if_neg hq]

/-- A met die changes nothing of memory. -/
theorem wakeHome_mem (s : State) (pa : Nat) : (wakeHome s pa).mem = s.mem ∧ (wakeHome s pa).lineKeys = s.lineKeys := by
  unfold wakeHome
  split
  · split <;> exact ⟨rfl, rfl⟩
  · exact ⟨rfl, rfl⟩

theorem readPa_arriveLine {s : State} (hm : memWf s.mem = true) (key stamp pa : Nat) (bs : List Byte) (hl : pa % 128 + bs.length ≤ 128) :
    memWf (arriveLine s key stamp pa bs).1.mem = true ∧
    ∀ q, readPa (arriveLine s key stamp pa bs).1 key q = if pa ≤ q ∧ q < pa + bs.length then bs.getD (q - pa) 0 else readPa s key q := by
  obtain ⟨wm, wk⟩ := wakeHome_mem s pa
  have h := readPa_writePa (s := keepBases (wakeHome s pa) key pa bs.length) (by rw [show (keepBases (wakeHome s pa) key pa bs.length).mem = (wakeHome s pa).mem from rfl, wm]; exact hm) key pa bs hl
  have e : ∀ q, readPa (keepBases (wakeHome s pa) key pa bs.length) key q = readPa s key q := fun q => readPa_congr wm wk key q
  refine ⟨h.1, fun q => ?_⟩
  rw [← e, ← h.2 q]
  exact readPa_congr rfl rfl key q

theorem arrive_fold (key stamp : Nat) : ∀ (fuel : Nat) (bs : List Byte) (pa : Nat) (acc : State × Nat), pa % 128 + bs.length ≤ 128 * fuel → memWf acc.1.mem = true →
    let r := ((splitLines pa bs fuel).foldl (fun acc p =>
      let r := arriveLine acc.1 key stamp p.1 p.2
      (r.1, Nat.max acc.2 r.2)) acc).1
    memWf r.mem = true ∧ ∀ q, readPa r key q = if pa ≤ q ∧ q < pa + bs.length then bs.getD (q - pa) 0 else readPa acc.1 key q := by
  intro fuel
  induction fuel with
  | zero =>
    intro bs pa acc hl hm
    have : bs.length = 0 := by omega
    refine ⟨hm, fun q => ?_⟩
    rw [if_neg (by omega)]; rfl
  | succ n ih =>
    intro bs pa acc hl hm
    unfold splitLines
    by_cases he : bs.isEmpty = true
    · rw [if_pos he]
      have : bs.length = 0 := by rw [List.isEmpty_iff.mp he]; rfl
      refine ⟨hm, fun q => ?_⟩
      rw [if_neg (by omega)]; rfl
    · rw [if_neg he]
      dsimp only
      rw [List.foldl_cons]
      have hp : 0 < 128 - pa % 128 := by omega
      have ht : (bs.take (128 - pa % 128)).length = min (128 - pa % 128) bs.length := List.length_take
      have hd : (bs.drop (128 - pa % 128)).length = bs.length - (128 - pa % 128) := List.length_drop
      have h1 := readPa_arriveLine hm key stamp pa (bs.take (128 - pa % 128)) (by omega)
      have h2 := ih (bs.drop (128 - pa % 128)) (pa + (128 - pa % 128)) ((arriveLine acc.1 key stamp pa (bs.take (128 - pa % 128))).1,
        Nat.max acc.2 (arriveLine acc.1 key stamp pa (bs.take (128 - pa % 128))).2) (by omega) h1.1
      dsimp only at h2 ⊢
      refine ⟨h2.1, fun q => ?_⟩
      rw [h2.2, h1.2, ht, hd]
      by_cases a1 : pa + (128 - pa % 128) ≤ q ∧ q < pa + (128 - pa % 128) + (bs.length - (128 - pa % 128))
      · rw [if_pos a1, if_pos (by omega)]
        rw [List.getD_eq_getElem?_getD, List.getD_eq_getElem?_getD, List.getElem?_drop]
        congr 2; omega
      · rw [if_neg a1]
        by_cases a2 : pa ≤ q ∧ q < pa + min (128 - pa % 128) bs.length
        · rw [if_pos a2, if_pos (by omega)]
          rw [List.getD_eq_getElem?_getD, List.getD_eq_getElem?_getD, List.getElem?_take, if_pos (by omega)]
        · rw [if_neg a2, if_neg (by omega)]

/-- A write of any length that arrives at its homes. -/
theorem readPa_arrive {s : State} (hm : memWf s.mem = true) (key stamp pa : Nat) (bs : List Byte) :
    memWf (arrive s key stamp pa bs).1.mem = true ∧
    ∀ q, readPa (arrive s key stamp pa bs).1 key q = if pa ≤ q ∧ q < pa + bs.length then bs.getD (q - pa) 0 else readPa s key q :=
  arrive_fold key stamp (bs.length / 128 + 2) bs pa (s, 0) (by omega) hm

end Sys2Proof.Machine
end

