-- ==== Sys2Proof/Laws/Lanes.lean ====
section
/-! SUPPORT. What an instruction over the lanes of the issuing group leaves (R98, R202), and what the writes of registers, latches
and predicates do to a thread. -/

namespace Sys2Proof.Machine

open Sys2Proof

@[simp] theorem getThread_setThread_same (s : State) (t : Nat) (th : Thread) : getThread (setThread s t th) t = some th := by
  simp [getThread, setThread]

theorem getThread_setThread_ne (s : State) (th : Thread) {t u : Nat} (h : u ≠ t) :
    getThread (setThread s t th) u = getThread s u := by
  simp [getThread, setThread, getK_putK_ne _ _ h]

theorem getThread_modThread (s : State) (t u : Nat) (f : Thread → Thread) :
    getThread (modThread s t f) u = if u = t then (getThread s t).map f else getThread s u := by
  unfold modThread
  cases h : getThread s t with
  | none => by_cases e : u = t <;> simp [e, h]
  | some th =>
    by_cases e : u = t
    · subst e; simp
    · simp [e, getThread_setThread_ne]

/-- The machine with its threads replaced. -/
def withThreads (s : State) (T : Map Thread) : State := { s with threads := T }

theorem withThreads_self (s : State) : withThreads s s.threads = s := rfl
theorem setThread_with (s : State) (T : Map Thread) (t : Nat) (th : Thread) :
    setThread (withThreads s T) t th = withThreads s (putK T t th) := rfl
theorem getThread_with (s : State) (T : Map Thread) (t : Nat) : getThread (withThreads s T) t = getK T t := rfl
theorem modThread_with (s : State) (T : Map Thread) (t : Nat) (f : Thread → Thread) {th : Thread} (h : getK T t = some th) :
    modThread (withThreads s T) t f = withThreads s (putK T t (f th)) := by
  simp [modThread, getThread_with, h, setThread_with]

theorem latch_lt (g : Group) : g.latch < 4 := Nat.mod_lt _ (by decide)

/-- A latch just set reads back; every other one is as it was. -/
theorem readLatch_setLatch (th : Thread) (i k : Nat) (l : Latch) (hi : i < 4) (hk : k < 4) :
    readLatch (setLatch th i l) k = if k = i then l else readLatch th k := by
  have h1 : i = 0 ∨ i = 1 ∨ i = 2 ∨ i = 3 := by omega
  have h2 : k = 0 ∨ k = 1 ∨ k = 2 ∨ k = 3 := by omega
  rcases h1 with rfl | rfl | rfl | rfl <;> rcases h2 with rfl | rfl | rfl | rfl <;> rfl

/-- A skipped lane. -/
theorem skipped_lane (g : Group) (th : Thread) : Skipped g th (advance g (dropLatch th g.latch)) where
  latch k hk := readLatch_setLatch th g.latch k _ (latch_lt g) hk
  rest := rfl

/-- What a lane of `runThreads` leaves. -/
def laneThread (g : Group) (p : BitVec 3) (f : Thread → Except Trap Thread) (th : Thread) : Thread :=
  if readPred th p.toNat then (match f th with | .ok th' => advance g th' | .error _ => th)
  else advance g (dropLatch th g.latch)

/-- The lanes of `runThreads`, one after the other, where none traps. -/
theorem laneSteps (g : Group) (gate : Gate) (p : BitVec 3) (f : Group → State → Nat → Thread → Except Trap Thread) (s : State)
    (hf : ∀ T u th, f g (withThreads s T) u th = f g s u th)
    (hgo : ∀ u ∈ g.members, ∀ th, getThread s u = some th → readPred th p.toNat = true →
      LaneFree g gate th ∧ ∃ th', f g s u th = .ok th') :
    ∀ (l : List Nat) (T : Map Thread) (ms : List Nat), l.Nodup → (∀ u ∈ l, u ∈ g.members) → (∀ u ∈ l, getK T u = getThread s u) →
      (∀ u ∈ l, ∃ th, getThread s u = some th) →
      ∃ T', l.foldl (laneStep g gate p (fun g s t th => threadOut s t (f g s t th))) (withThreads s T, ms) = (withThreads s T', ms ++ l)
        ∧ (∀ u ∈ l, ∀ th, getThread s u = some th → getK T' u = some (laneThread g p (f g s u) th))
        ∧ (∀ u, u ∉ l → getK T' u = getK T u) := by
  intro l
  induction l with
  | nil => intro T ms _ _ _ _; exact ⟨T, by simp, by simp, by simp⟩
  | cons a l ih =>
    intro T ms hnd hin hT hex
    obtain ⟨th, hth⟩ := hex a (by simp)
    have hTa : getK T a = some th := by rw [hT a (by simp), hth]
    have key : ∃ T1, laneStep g gate p (fun g s t th => threadOut s t (f g s t th)) (withThreads s T, ms) a = (withThreads s T1, ms ++ [a])
        ∧ getK T1 a = some (laneThread g p (f g s a) th) ∧ ∀ u, u ≠ a → getK T1 u = getK T u := by
      have hg : getThread (withThreads s T) a = some th := hTa
      by_cases hp : readPred th p.toNat = true
      · obtain ⟨⟨h1, h2⟩, th', h3⟩ := hgo a (hin a (by simp)) th hth hp
        have h4 : f g (withThreads s T) a th = .ok th' := by rw [hf]; exact h3
        refine ⟨putK (putK T a th') a (advance g th'), ?_, ?_, ?_⟩
        · simp [laneStep, hg, hp, h1, poisonCheck, threadOut, h4, h2, setThread_with, modThread_with _ _ a _ (getK_putK_same T a th')]
        · simp [laneThread, hp, h3]
        · intro u hu; rw [getK_putK_ne _ _ hu, getK_putK_ne _ _ hu]
      · refine ⟨putK T a (advance g (dropLatch th g.latch)), ?_, ?_, ?_⟩
        · simp [laneStep, hg, hp, setThread_with]
        · simp [laneThread, hp]
        · intro u hu; rw [getK_putK_ne _ _ hu]
    obtain ⟨T1, e1, e2, e3⟩ := key
    have hnd' := List.nodup_cons.mp hnd
    have hne : ∀ u ∈ l, u ≠ a := fun u hu e => hnd'.1 (e ▸ hu)
    obtain ⟨T', f1, f2, f3⟩ := ih T1 (ms ++ [a]) hnd'.2 (fun u hu => hin u (by simp [hu]))
      (fun u hu => by rw [e3 u (hne u hu), hT u (by simp [hu])]) (fun u hu => hex u (by simp [hu]))
    refine ⟨T', ?_, ?_, ?_⟩
    · rw [List.foldl_cons, e1, f1]; simp
    · intro u hu th1 h1
      rcases List.mem_cons.mp hu with rfl | hu
      · rw [f3 _ hnd'.1, e2]; rw [hth] at h1; cases h1; rfl
      · exact f2 u hu th1 h1
    · intro u hu
      simp only [List.mem_cons, not_or] at hu
      rw [f3 u hu.2, e3 u hu.1]

/-- `runThreads` where no active lane traps: its threads change, and the group goes on. -/
theorem runThreads_next (g : Group) (gate : Gate) (p : BitVec 3) (stop : Bool)
    (f : Group → State → Nat → Thread → Except Trap Thread) (s : State) (h : Issues s g)
    (hf : ∀ T u th, f g (withThreads s T) u th = f g s u th)
    (hgo : ∀ u ∈ g.members, ∀ th, getThread s u = some th → readPred th p.toNat = true →
      LaneFree g gate th ∧ ∃ th', f g s u th = .ok th') :
    GroupResult s (runThreads gate p stop f s) g fun u th th' =>
      LaneAfter g p (fun th th' => ∃ th1, f g s u th = .ok th1 ∧ th' = advance g th1) th th' := by
  have hm := issuing_members h.group
  obtain ⟨T', f1, f2, f3⟩ := laneSteps g gate p f s hf hgo g.members s.threads [] hm.1 (fun _ hu => hu) (fun _ _ => rfl) hm.2
  have e : runThreads gate p stop f s = { s with threads := T', opens := s.opens.set s.cur { g with idx := g.idx + 1 } } := by
    rw [withThreads_self] at f1
    simp only [runThreads, runGroup, h.group, h.level, runLanes, h.free, Bool.false_eq_true, if_false]
    rw [f1]
    rfl
  refine ⟨?_, ?_, ?_⟩
  · intro u hu th hth
    refine ⟨laneThread g p (f g s u) th, ?_, ?_⟩
    · rw [e]; exact f2 u hu th hth
    · unfold LaneAfter laneThread
      by_cases hp : readPred th p.toNat = true
      · obtain ⟨_, th', h3⟩ := hgo u hu th hth hp
        simp [hp, h3]
      · simp only [hp, if_false, Bool.false_eq_true]; exact skipped_lane g th
  · intro u hu; rw [e]; exact f3 u hu
  · rw [e]

/-- A weaker result of the lanes. -/
theorem groupResult_imp {s t : State} {g : Group} {R Q : Nat → Thread → Thread → Prop} (h : GroupResult s t g R)
    (hi : ∀ u ∈ g.members, ∀ th, getThread s u = some th → ∀ th', R u th th' → Q u th th') : GroupResult s t g Q where
  lanes u hu th hth := by
    obtain ⟨th', h1, h2⟩ := h.lanes u hu th hth
    exact ⟨th', h1, hi u hu th hth th' h2⟩
  others := h.others
  rest := h.rest

/-- Registers after one of them is written. -/
theorem readReg_writeReg (th : Thread) (n m : Nat) (x : Dexel) :
    readReg (writeReg th n x) m = if m = n ∧ n ≠ 0 then x else readReg th m := by
  unfold writeReg readReg
  by_cases hn : n = 0
  · simp [hn]
  · by_cases hm : m = 0
    · have : ¬ (0 = n) := fun e => hn e.symm
      simp [hn, hm, this]
    · by_cases e : m = n
      · subst e; simp [hn]
      · simp [hn, hm, e, getK_putK_ne _ _ e]

theorem writeReg_rest (th : Thread) (n : Nat) (x : Dexel) :
    writeReg th n x = { th with regs := (writeReg th n x).regs, poison := (writeReg th n x).poison, cocoon := (writeReg th n x).cocoon } := by
  unfold writeReg; split <;> rfl

theorem writeReg_log (th : Thread) (n : Nat) (x : Dexel) (h : th.cocoon = none) : (writeReg th n x).cocoon = none := by
  unfold writeReg; split
  · exact h
  · simp [logReg, h]

theorem mem_poison_writeReg (th : Thread) (n c : Nat) (x : Dexel) :
    c ∈ (writeReg th n x).poison ↔ c ∈ th.poison ∧ (n = 0 ∨ c ≠ n) := by
  unfold writeReg; split
  · simp_all
  · simp_all

/-- A single result (R40, R42). -/
theorem wroteReg_putReg (g : Group) (d : BitVec 6) (nw : Bool) (x : Dexel) (th : Thread) :
    WroteReg g d nw x th (advance g (putReg th g.latch d nw x)) := by
  have hl := latch_lt g
  have hd : d.toNat = 0 ↔ d = 0 := ⟨fun h => BitVec.eq_of_toNat_eq h, fun h => by subst h; rfl⟩
  cases nw with
  | true =>
    exact ⟨by simp, rfl, fun n _ => rfl, fun k hk => readLatch_setLatch th g.latch k _ hl hk,
      fun c => by simp [putReg, advance, setLatch], fun h => h, rfl⟩
  | false =>
    have e : putReg th g.latch d false x = writeReg (setLatch th g.latch (latch32 x)) d.toNat x := rfl
    have hr := writeReg_rest (setLatch th g.latch (latch32 x)) d.toNat x
    refine ⟨fun _ h0 => ?_, ?_, fun n hn => ?_, fun k hk => ?_, fun c => ?_, fun h => ?_, ?_⟩
    · rw [e]; show readReg (writeReg _ _ _) _ = _
      rw [readReg_writeReg, if_pos ⟨rfl, fun h => h0 (hd.mp h)⟩]
    · rfl
    · rw [e]; show readReg (writeReg _ _ _) _ = _
      rw [readReg_writeReg]
      have : n ≠ d.toNat := by simpa using hn
      simp [this]; rfl
    · rw [← readLatch_setLatch th g.latch k (latch32 x) hl hk, e]
      show readLatch (writeReg _ _ _) k = _
      rw [hr]; rfl
    · rw [e]; show c ∈ (writeReg _ _ _).poison ↔ _
      rw [mem_poison_writeReg]
      simp [setLatch, hd, and_assoc]
    · rw [e]; exact writeReg_log _ _ _ h
    · rw [e]; show advance g (writeReg _ _ _) = _
      rw [hr]; rfl

/-- A pair result (R40, R42). -/
theorem wrotePair_putPair (g : Group) (d : BitVec 6) (nw : Bool) (x : Dexel × Dexel) (th : Thread) :
    WrotePair g d nw x th (advance g (putPair th g.latch d nw x)) := by
  have hl := latch_lt g
  have hd : d.toNat = 0 ↔ d = 0 := ⟨fun h => BitVec.eq_of_toNat_eq h, fun h => by subst h; rfl⟩
  cases nw with
  | true =>
    exact ⟨by simp, rfl, fun n _ => rfl, fun k hk => readLatch_setLatch th g.latch k _ hl hk,
      fun c => by simp [putPair, advance, setLatch], fun h => h, rfl⟩
  | false =>
    by_cases h0 : d = 0
    · subst h0
      refine ⟨by simp, rfl, fun n _ => rfl, fun k hk => readLatch_setLatch th g.latch k _ hl hk,
        fun c => by simp [putPair, writePair, advance, setLatch], fun h => h, rfl⟩
    · have hd0 : d.toNat ≠ 0 := fun h => h0 (hd.mp h)
      have e : putPair th g.latch d false x = writeReg (writeReg (setLatch th g.latch (latch64 x.1 x.2)) d.toNat x.1) (d.toNat + 1) x.2 := by
        simp [putPair, writePair, hd0]
      have hr1 := writeReg_rest (setLatch th g.latch (latch64 x.1 x.2)) d.toNat x.1
      have hr := writeReg_rest (writeReg (setLatch th g.latch (latch64 x.1 x.2)) d.toNat x.1) (d.toNat + 1) x.2
      refine ⟨fun _ _ => ⟨?_, ?_⟩, rfl, fun n hn => ?_, fun k hk => ?_, fun c => ?_, fun h => ?_, ?_⟩
      · rw [e]; show readReg (writeReg _ _ _) _ = _
        rw [readReg_writeReg, if_neg (by omega), readReg_writeReg, if_pos ⟨rfl, hd0⟩]
      · rw [e]; show readReg (writeReg _ _ _) _ = _
        rw [readReg_writeReg, if_pos ⟨rfl, by omega⟩]
      · rw [e]; show readReg (writeReg _ _ _) _ = _
        have : n ≠ d.toNat ∧ n ≠ d.toNat + 1 := by simpa using hn
        rw [readReg_writeReg, if_neg (by omega), readReg_writeReg, if_neg (by omega)]
        rfl
      · rw [← readLatch_setLatch th g.latch k (latch64 x.1 x.2) hl hk, e]
        show readLatch (writeReg _ _ _) k = _
        rw [hr]; show readLatch (writeReg _ _ _) k = _
        rw [hr1]; rfl
      · rw [e]; show c ∈ (writeReg _ _ _).poison ↔ _
        rw [mem_poison_writeReg, mem_poison_writeReg]
        have h1 : d.toNat + 1 ≠ 0 := by omega
        clear hr hr1 e
        simp only [setLatch, List.mem_filter, bne_iff_ne, ne_eq, hd0, h1, h0, false_or, and_assoc, Bool.false_eq_true]
      · rw [e]; exact writeReg_log _ _ _ (writeReg_log _ _ _ h)
      · rw [e]; show advance g (writeReg _ _ _) = _
        rw [hr, hr1]; rfl

/-- Predicates after one of them is written. -/
theorem readPred_writePred (th : Thread) (n m : Nat) (b : Bool) (hm : m ≠ 7) :
    readPred (writePred th n b) m = if m = n then b else readPred th m := by
  by_cases e : m = n
  · subst e; simp [readPred, writePred, hm]
  · simp [readPred, writePred, hm, e, getK_putK_ne _ _ e]

/-- A predicate result (R38, R40). -/
theorem wrotePreds_putPred (g : Group) (d : BitVec 6) (b : Bool) (th : Thread) :
    WrotePreds g (fun n => if n = d.toNat then some b else none) th (advance g (putPred th g.latch d b)) := by
  refine ⟨fun n hn => ?_, fun k hk => readLatch_setLatch th g.latch k _ (latch_lt g) hk, fun h => ?_, rfl⟩
  · show readPred (writePred _ _ _) _ = _
    rw [readPred_writePred _ _ _ _ hn]
    by_cases e : n = d.toNat <;> simp [e] <;> rfl
  · show Option.map _ th.cocoon = none
    rw [h]; rfl

/-- `alu` where no active lane traps. -/
theorem alu_law (p : BitVec 3) (f : Nat → Thread → Except Trap Thread) (s : State) (g : Group) (h : Issues s g)
    (hgo : Lanes s g p fun th => LaneFree g freeGate th ∧ ∃ th', f g.latch th = .ok th') :
    GroupResult s (alu p f s) g fun _ => LaneAfter g p fun th th' => ∃ th1, f g.latch th = .ok th1 ∧ th' = advance g th1 :=
  runThreads_next g freeGate p false (fun g _ _ th => f g.latch th) s h (fun _ _ _ => rfl) hgo

/-- The result of a lane where the predicate is true. -/
theorem laneAfter_true {g : Group} {p : BitVec 3} {R : Thread → Thread → Prop} {th th' : Thread} (hp : readPred th p.toNat = true) :
    LaneAfter g p R th th' ↔ R th th' := by unfold LaneAfter; rw [if_pos hp]

/-- A weaker result of a lane. -/
theorem laneAfter_imp {g : Group} {p : BitVec 3} {R Q : Thread → Thread → Prop} {th th' : Thread}
    (h : LaneAfter g p R th th') (hi : readPred th p.toNat = true → R th th' → Q th th') : LaneAfter g p Q th th' := by
  unfold LaneAfter at *; split at h <;> rename_i hp
  · rw [if_pos hp]; exact hi hp h
  · rw [if_neg hp]; exact h

/-- A register instruction with one 32-bit result. -/
theorem reg_law (p : BitVec 3) (f : Nat → Thread → Except Trap Thread) (val : Thread → Option Dexel) (d : BitVec 6) (nw : Bool)
    (s : State) (g : Group) (h : Issues s g)
    (hf : ∀ k th v, val th = some v → dstReg th d nw = true → f k th = .ok (putReg th k d nw v))
    (hgo : Lanes s g p fun th => LaneFree g freeGate th ∧ (val th).isSome = true ∧ dstReg th d nw = true) :
    GroupResult s (alu p f s) g fun _ => LaneAfter g p fun th th' => ∃ v, val th = some v ∧ WroteReg g d nw v th th' := by
  have := alu_law p f s g h (fun u hu th hth hp => by
    obtain ⟨h1, h2, h3⟩ := hgo u hu th hth hp
    obtain ⟨v, hv⟩ := Option.isSome_iff_exists.mp h2
    exact ⟨h1, _, hf _ th v hv h3⟩)
  refine groupResult_imp this fun u hu th hth th' hr => laneAfter_imp hr fun hp => ?_
  rintro ⟨th1, e1, rfl⟩
  obtain ⟨h1, h2, h3⟩ := hgo u hu th hth hp
  obtain ⟨v, hv⟩ := Option.isSome_iff_exists.mp h2
  rw [hf _ th v hv h3] at e1
  cases e1
  exact ⟨v, hv, wroteReg_putReg g d nw v th⟩

/-- A register instruction with one 64-bit result. -/
theorem pair_law (p : BitVec 3) (f : Nat → Thread → Except Trap Thread) (val : Thread → Option (Dexel × Dexel)) (d : BitVec 6) (nw : Bool)
    (s : State) (g : Group) (h : Issues s g)
    (hf : ∀ k th v, val th = some v → dstPair th d nw = true → f k th = .ok (putPair th k d nw v))
    (hgo : Lanes s g p fun th => LaneFree g freeGate th ∧ (val th).isSome = true ∧ dstPair th d nw = true) :
    GroupResult s (alu p f s) g fun _ => LaneAfter g p fun th th' => ∃ v, val th = some v ∧ WrotePair g d nw v th th' := by
  have := alu_law p f s g h (fun u hu th hth hp => by
    obtain ⟨h1, h2, h3⟩ := hgo u hu th hth hp
    obtain ⟨v, hv⟩ := Option.isSome_iff_exists.mp h2
    exact ⟨h1, _, hf _ th v hv h3⟩)
  refine groupResult_imp this fun u hu th hth th' hr => laneAfter_imp hr fun hp => ?_
  rintro ⟨th1, e1, rfl⟩
  obtain ⟨h1, h2, h3⟩ := hgo u hu th hth hp
  obtain ⟨v, hv⟩ := Option.isSome_iff_exists.mp h2
  rw [hf _ th v hv h3] at e1
  cases e1
  exact ⟨v, hv, wrotePair_putPair g d nw v th⟩

/-- An instruction whose flags do not trap sets them and writes its result (R65, R98). -/
theorem raising_ok (th : Thread) (dbl : Bool) (fl : Word) (w : Thread → Thread) (h : NoFlagTrap th dbl fl) :
    raising th dbl fl w = .ok (w { th with fsr := th.fsr ||| fl }) := by
  have e : trapsOn th dbl fl = false := by
    unfold trapsOn enabledFlags
    rcases h with h | ⟨h1, h2⟩
    · rw [h]; simp
    · rw [h1, h2]; simp
  simp [raising, e, setFlags]

/-- `raising_ok` for a 32-bit result. -/
theorem finish32_ok (th : Thread) (k : Nat) (d : BitVec 6) (nw : Bool) (r : DRes) (h : NoFlagTrap th false r.flags) :
    finish32 th k d nw r = .ok (putReg { th with fsr := th.fsr ||| r.flags } k d nw (dexelOf ⟨r.bits, r.tan⟩)) := raising_ok _ _ _ _ h
/-- `raising_ok` for a 64-bit result. -/
theorem finish64_ok (th : Thread) (k : Nat) (d : BitVec 6) (nw : Bool) (r : DRes) (h : NoFlagTrap th true r.flags) :
    finish64 th k d nw r = .ok (putPair { th with fsr := th.fsr ||| r.flags } k d nw (pairOf th ⟨r.bits, r.tan⟩)) := raising_ok _ _ _ _ h

/-- `runThreads` with a predicate of the lanes that makes each of them complete as R says. -/
theorem laneAt_law (gate : Gate) (p : BitVec 3) (stop : Bool) (f : Group → State → Nat → Thread → Except Trap Thread) (ok : Nat → Thread → Prop)
    (R : Nat → Thread → Thread → Prop)
    (s : State) (g : Group) (h : Issues s g) (hf : ∀ T u th, f g (withThreads s T) u th = f g s u th)
    (hr : ∀ u th, ok u th → ∃ th1, f g s u th = .ok th1 ∧ R u th (advance g th1))
    (hgo : LanesAt s g p fun u th => LaneFree g gate th ∧ ok u th) :
    GroupResult s (runThreads gate p stop f s) g fun u => LaneAfter g p (R u) := by
  have := runThreads_next g gate p stop f s h hf (fun u hu th hth hp => by
    obtain ⟨h1, h2⟩ := hgo u hu th hth hp
    obtain ⟨th1, h3, _⟩ := hr u th h2
    exact ⟨h1, th1, h3⟩)
  refine groupResult_imp this fun u hu th hth th' hr' => laneAfter_imp hr' fun hp => ?_
  rintro ⟨th1, e1, rfl⟩
  obtain ⟨h1, h2⟩ := hgo u hu th hth hp
  obtain ⟨th2, h3, h4⟩ := hr u th h2
  rw [h3] at e1; cases e1; exact h4

/-- `laneAt_law` for a property of the thread alone. -/
theorem lane_law (gate : Gate) (p : BitVec 3) (stop : Bool) (f : Group → State → Nat → Thread → Except Trap Thread) (ok : Thread → Prop)
    (R : Nat → Thread → Thread → Prop)
    (s : State) (g : Group) (h : Issues s g) (hf : ∀ T u th, f g (withThreads s T) u th = f g s u th)
    (hr : ∀ u th, ok th → ∃ th1, f g s u th = .ok th1 ∧ R u th (advance g th1))
    (hgo : Lanes s g p fun th => LaneFree g gate th ∧ ok th) :
    GroupResult s (runThreads gate p stop f s) g fun u => LaneAfter g p (R u) :=
  laneAt_law gate p stop f (fun _ => ok) R s g h hf hr hgo

end Sys2Proof.Machine
end

