-- ==== Sys2Proof/Laws/Leave.lean ====
section
/-! SUPPORT. What a thread that leaves its group does to the rest of the machine (R205), and what taking an exception does (R183). -/

namespace Sys2Proof.Machine

open Sys2Proof

/-- Deferred threads released, one after the other. -/
theorem releases_eq (ds : List Deferral) (s : State) :
    ∃ T, ds.foldl (fun s d => releaseThread s d.thread) s = withThreads s T ∧
      ∀ v, getK T v = (getThread s v).map fun x =>
        if x.status = .deferred ∧ (ds.any fun d => d.thread == v) = true then standing s x else x := by
  induction ds generalizing s with
  | nil => exact ⟨s.threads, rfl, fun v => by cases h : getThread s v <;> simp [← h, getThread]⟩
  | cons d ds ih =>
    have e : ∃ T1, releaseThread s d.thread = withThreads s T1 ∧ ∀ v, getK T1 v = (getThread s v).map fun x =>
        if x.status = .deferred ∧ d.thread = v then standing s x else x := by
      unfold releaseThread
      cases h : getThread s d.thread with
      | none =>
        refine ⟨s.threads, by simp [modThread, h, withThreads], fun v => ?_⟩
        show getThread s v = _
        by_cases hv : d.thread = v
        · subst hv; rw [h]; rfl
        · cases h2 : getThread s v <;> simp [hv]
      | some th =>
        refine ⟨putK s.threads d.thread (if th.status = .deferred then standing s th else th), by simp [modThread, h, setThread, withThreads],
          fun v => ?_⟩
        by_cases hv : d.thread = v
        · subst hv; rw [getK_putK_same, h]; simp
        · rw [getK_putK_ne _ _ (fun h => hv h.symm)]
          show getThread s v = _
          cases h2 : getThread s v <;> simp [hv]
    obtain ⟨T1, e1, e2⟩ := e
    obtain ⟨T, f1, f2⟩ := ih (withThreads s T1)
    refine ⟨T, by rw [List.foldl_cons, e1, f1]; rfl, fun v => ?_⟩
    rw [f2, getThread_with, e2]
    cases h : getThread s v with
    | none => rfl
    | some x =>
      have hs : ∀ y, standing (withThreads s T1) y = standing s y := fun _ => rfl
      have hst : (standing s x).status = .ready := rfl
      by_cases h1 : x.status = .deferred <;> by_cases h2 : d.thread = v <;> simp only [h1, h2, hs, hst, Option.map_some,
        List.any_cons, BEq.rfl, Bool.true_or, if_true, if_false, and_self, true_and, false_and, and_false, reduceCtorEq]
      rw [show (d.thread == v) = false from by simp [h2], Bool.false_or]

/-- What thread u does to the deferrals when it meets a condition of R205 (R205). -/
theorem unwait_moved (s : State) (u : Nat) (th : Thread) (met : Deferral → Bool) (h : th.status ≠ .deferred) :
    Moved s (unwait (setThread s u th) u met) u th met ∧
      unwait (setThread s u th) u met = { s with
        threads := (unwait (setThread s u th) u met).threads
        deferrals := (unwait (setThread s u th) u met).deferrals } := by
  obtain ⟨T, e, f⟩ := releases_eq ((waitsLeft u met s.deferrals).filter (·.waits.isEmpty))
    { setThread s u th with deferrals := (waitsLeft u met s.deferrals).filter fun d => !d.waits.isEmpty }
  have e' : unwait (setThread s u th) u met = withThreads { setThread s u th with
      deferrals := (waitsLeft u met s.deferrals).filter fun d => !d.waits.isEmpty } T := e
  refine ⟨⟨?_, ?_, ?_⟩, ?_⟩
  · rw [e']; show getK T u = _; rw [f]
    show ((getThread (setThread s u th) u).map _) = _
    rw [getThread_setThread_same]; simp [h]
  · intro v hv
    rw [e']; show getK T v = _; rw [f]
    show ((getThread (setThread s u th) v).map _) = _
    rw [getThread_setThread_ne _ _ hv]
    cases getThread s v with
    | none => rfl
    | some x =>
      simp only [Option.map_some, List.any_filter]
      have : (fun d : Deferral => d.waits.isEmpty && d.thread == v) = fun d => d.thread == v && d.waits.isEmpty := by
        funext d; exact Bool.and_comm _ _
      rw [this]; rfl
  · rw [e']; rfl
  · rw [e']; rfl

/-- Taking an exception whose handler exists: the record, the level and the handler as R183 says, and the condition of R205 met. -/
theorem takeTrap_moved (s : State) (u : Nat) (th th' : Thread) (i : TrapInfo) (h : enterLevel th i = some th') :
    Moved s (takeTrap s u th i) u (standing s th') (fun _ => true) ∧
      takeTrap s u th i = { s with threads := (takeTrap s u th i).threads, deferrals := (takeTrap s u th i).deferrals } := by
  have e : takeTrap s u th i = unwait (setThread s u (standing s th')) u fun _ => true := by simp [takeTrap, h, noteBlocked]
  rw [e]
  exact unwait_moved s u (standing s th') _ (by simp [standing])

end Sys2Proof.Machine
end

