-- ==== Sys2Proof/Laws/Translate.lean ====
section
/-! SUPPORT. What a translation answers and what it leaves as it was (R341-R343), and the check of a transfer's target (R428). -/

namespace Sys2Proof.Machine

open Sys2Proof

/-- The answer of a translation, of the entry alone. -/
theorem translate_answer (s : State) (units : List (Nat × Nat)) (asid va : Nat) (p : Perm) :
    (translate s units asid va p).2 =
      match xlatEntry s units asid va p with
      | (some e, _) =>
        if e.bad then .fatal 0x0B else if !permits e p then .fault else if !paExists (e.pa + (va - e.va)) then .fatal 0x0A else .ok e
      | (none, acc) => if acc then .fatal 0x0A else .fault := by
  unfold translate
  rcases xlatEntry s units asid va p with ⟨_ | e, acc⟩
  · rfl
  · dsimp only
    split
    · rfl
    · split
      · rfl
      · split <;> rfl

/-- A translation with its TLBs and power states forgotten. -/
def tlbless (s : State) (tlb : List TlbEntry) (power : Map (Nat × Nat)) : State := { s with tlb := tlb, power := power }

theorem tlbPut_only (s : State) (e : TlbEntry) : ∃ l, tlbPut s e = { s with tlb := l } := by
  unfold tlbPut; dsimp only
  split
  · exact ⟨s.tlb, rfl⟩
  · split
    · exact ⟨_, rfl⟩
    · split
      · exact ⟨_, rfl⟩
      · split
        · exact ⟨s.tlb, rfl⟩
        · exact ⟨_, rfl⟩

theorem tlbFill_only (us : List (Nat × Nat)) (e : TlbEntry) (s : State) : ∃ l, tlbFill s us e = { s with tlb := l } := by
  unfold tlbFill
  induction us generalizing s with
  | nil => exact ⟨s.tlb, rfl⟩
  | cons u us ih =>
    obtain ⟨l, h⟩ := tlbPut_only s { e with level := u.1, unit := u.2 }
    rw [List.foldl_cons, h]
    obtain ⟨l2, h2⟩ := ih { s with tlb := l }
    exact ⟨l2, h2⟩

/-- A met die changes the power states and nothing else (R406). -/
theorem wakeHome_only (s : State) (pa : Nat) : ∃ w, wakeHome s pa = { s with power := w } := by
  unfold wakeHome
  split
  · split
    · exact ⟨_, rfl⟩
    · exact ⟨s.power, rfl⟩
  · exact ⟨s.power, rfl⟩

theorem wakeHomes_only (l : List Nat) (s : State) : ∃ w, l.foldl wakeHome s = { s with power := w } := by
  induction l generalizing s with
  | nil => exact ⟨s.power, rfl⟩
  | cons a l ih =>
    obtain ⟨w, h⟩ := wakeHome_only s a
    obtain ⟨w2, h2⟩ := ih { s with power := w }
    exact ⟨w2, by rw [List.foldl_cons, h, h2]⟩

theorem wakeTables_only (s : State) (units : List (Nat × Nat)) (asid va : Nat) (p : Perm) :
    ∃ w, wakeTables s units asid va p = { s with power := w } := by
  unfold wakeTables
  split
  · exact ⟨s.power, rfl⟩
  · exact wakeHomes_only _ _

/-- A translation changes the TLBs, and the power state of the dies that it meets, and nothing else (R341, R406). -/
theorem translate_only (s : State) (units : List (Nat × Nat)) (asid va : Nat) (p : Perm) :
    ∃ l w, (translate s units asid va p).1 = { s with tlb := l, power := w } := by
  obtain ⟨w0, h0⟩ := wakeTables_only s units asid va p
  unfold translate
  rw [h0]
  rcases xlatEntry s units asid va p with ⟨_ | e, acc⟩
  · exact ⟨s.tlb, w0, rfl⟩
  · obtain ⟨l, h⟩ := tlbFill_only units e { s with power := w0 }
    dsimp only
    split
    · exact ⟨s.tlb, w0, rfl⟩
    · split
      · exact ⟨s.tlb, w0, rfl⟩
      · split
        · exact ⟨l, w0, h⟩
        · rw [h]
          obtain ⟨w, hw⟩ := wakeHome_only { s with power := w0, tlb := l } (e.pa + (va - e.va))
          exact ⟨l, w, hw⟩

/-- A translation answers the same of machines with the same TLBs and tables. -/
theorem xlatEntry_with (s : State) (T : Map Thread) (units : List (Nat × Nat)) (asid va : Nat) (p : Perm) :
    xlatEntry (withThreads s T) units asid va p = xlatEntry s units asid va p := rfl

/-- The check of a target that is a clause header succeeds (R428). -/
theorem checkTarget_header (s : State) (u : Nat) (th : Thread) (addr : DWord) (dest : Bool)
    (h : HeaderAt s (threadCore u) th.lc.asid addr) : checkTarget s u th addr dest = .ok := by
  obtain ⟨h1, h2, e, h3, h4, h5⟩ := h
  obtain ⟨l, w, ht⟩ := translate_only s (tlbUnits (threadCore u)) th.lc.asid addr.toNat .fetch
  have hw : (fetchWord s (threadCore u) th.lc.asid addr.toNat).2
      = .ok (BitVec.ofNat 32 (readNum s (keyOf s th.lc.asid) (paOf e addr.toNat) 4)) [] := by
    unfold fetchWord
    simp only [h3, ht]
    have hp : poisoned { s with tlb := l, power := w } (paOf e addr.toNat) = false := h4
    rw [if_neg (by rw [hp]; decide)]
    rfl
  unfold checkTarget
  simp only [hw, h5, if_true]
  rw [if_neg (by omega)]

/-- A target is a header whatever the threads, the deferrals and the open and parked groups are. -/
theorem headerAt_with (s s' : State) (core asid : Nat) (addr : DWord)
    (h : ∃ T D O P q, s' = { s with threads := T, deferrals := D, opens := O, parked := P, seqno := q }) :
    HeaderAt s' core asid addr ↔ HeaderAt s core asid addr := by
  obtain ⟨T, D, O, P, q, rfl⟩ := h
  unfold HeaderAt
  simp only [translate_answer]
  exact Iff.rfl

/-- A word over a group of one thread (R202). -/
theorem runGroup_alone {s : State} {g : Group} {gate : Gate} {p : BitVec 3} {u : Nat} {th : Thread} (h : Alone s g gate p u th) (stop : Bool)
    (f : Group → State → Nat → Thread → LaneOut) :
    runGroup gate p stop f s =
      match f g s u th with
      | .done s1 => setIssuing (modThread s1 u (advance g)) { g with members := [u], idx := g.idx + 1 }
      | .left s1 => setIssuing s1 { g with members := [], idx := g.idx + 1 }
      | .trap x => setIssuing (trapLane g s u th x) { g with members := [], idx := g.idx + 1 } := by
  obtain ⟨⟨h1, h2, h3⟩, h4, h5, h6, h7, h8⟩ := h
  simp only [runGroup, h1, h2, Bool.false_eq_true, if_false, runLanes, h3, h4, List.foldl_cons, List.foldl_nil, laneStep, h5, h6, h7, if_true]
  cases hf : f g s u th <;> simp [poisonCheck, h8]

/-- A control word over a group of one thread. -/
theorem runControl_alone {s : State} {g : Group} {gate : Gate} {p : BitVec 3} {u : Nat} {th : Thread} (h : Alone s g gate p u th)
    (f : Group → State → Nat → Thread → LaneOut) :
    runControl gate p f s =
      match f g (closeIssuing s) u th with
      | .done s1 => endClause (modThread s1 u (advance g)) { g with members := [u] }
      | .left s1 => s1
      | .trap x => trapLane g (closeIssuing s) u th x := by
  obtain ⟨⟨h1, h2, h3⟩, h4, h5, h6, h7, h8⟩ := h
  have h5' : getThread (closeIssuing s) u = some th := h5
  simp only [runControl, h1, h2, Bool.false_eq_true, if_false, h3, h4, List.foldl_cons, List.foldl_nil, laneStep, h5', h6, h7, if_true]
  cases hf : f g (closeIssuing s) u th <;> simp [poisonCheck, h8, endClause]

/-- A control word whose predicate is false in a group's one thread. -/
theorem runControl_skipped {s : State} {g : Group} (gate : Gate) {p : BitVec 3} {u : Nat} {th : Thread} (h : Issues s g) (hm : g.members = [u])
    (ht : getThread s u = some th) (hp : readPred th p.toNat = false) (f : Group → State → Nat → Thread → LaneOut) :
    runControl gate p f s = fallThrough (setThread (closeIssuing s) u (advance g (dropLatch th g.latch))) u
      { advance g (dropLatch th g.latch) with yielded := th.yielded || g.hdr.yields } g.next := by
  obtain ⟨h1, h2, h3⟩ := h
  have h5' : getThread (closeIssuing s) u = some th := ht
  simp only [runControl, h1, h2, Bool.false_eq_true, if_false, h3, hm, List.foldl_cons, List.foldl_nil, laneStep, h5', hp, endClause]
  simp [advance, dropLatch, setLatch, Group.next, Group.pc]

end Sys2Proof.Machine
end

