-- ==== Sys2Proof/Laws/Window.lean ====
section
/-! SUPPORT. What writes that arrive at their home (R351, R289) and accesses of a thread's private window (R153, R198) leave as it was. -/

namespace Sys2Proof.Machine

open Sys2Proof

/-- A thread with its watch forgotten. -/
def watchless (th : Thread) : Thread := { th with watch := none }

/-- Only what an arriving write or a stack-cache row may change has changed: memory with its keys, poison and stamps, the flush-point bytes
of the nodes, the watches that fired, the rows, the numbering, and the power state of a die that was met. -/
structure Kept (s t : State) : Prop where
  threads : ∀ v, (getThread t v).map watchless = (getThread s v).map watchless
  rest : ∃ T m k p n f w c st r q pw, t = { s with
    threads := T, mem := m, lineKeys := k, poison := p, nodes := n, subFired := f, subWatch := w, gwct := c, stamps := st, rows := r, seqno := q
    power := pw }

theorem Kept.refl (s : State) : Kept s s := ⟨fun _ => rfl, _, _, _, _, _, _, _, _, _, _, _, _, rfl⟩

theorem Kept.trans {s t u : State} (h : Kept s t) (h' : Kept t u) : Kept s u := by
  obtain ⟨a, _, _, _, _, _, _, _, _, _, _, _, _, rfl⟩ := h
  obtain ⟨b, _, _, _, _, _, _, _, _, _, _, _, _, rfl⟩ := h'
  exact ⟨fun v => (b v).trans (a v), _, _, _, _, _, _, _, _, _, _, _, _, rfl⟩

theorem kept_foldl {α : Type} (f : State → α → State) (h : ∀ s a, Kept s (f s a)) (l : List α) (s : State) : Kept s (l.foldl f s) := by
  induction l generalizing s with
  | nil => exact Kept.refl s
  | cons a l ih => exact (h s a).trans (ih _)

theorem fire_threads (T : Map Thread) (line v : Nat) :
    (getK (T.map fun e => match e.2.watch with
      | some (l, _) => if l = line then (e.1, { e.2 with watch := some (l, true) }) else e
      | none => e) v).map watchless = (getK T v).map watchless := by
  induction T with
  | nil => rfl
  | cons e T ih =>
    obtain ⟨k, th⟩ := e
    have hk : ∃ th', (match th.watch with
      | some (l, _) => if l = line then (k, { th with watch := some (l, true) }) else (k, th)
      | none => (k, th)) = (k, th') ∧ watchless th' = watchless th := by
      cases hw : th.watch with
      | none => exact ⟨th, rfl, rfl⟩
      | some w =>
        obtain ⟨l, b⟩ := w
        dsimp only
        split
        · exact ⟨_, rfl, rfl⟩
        · exact ⟨th, rfl, rfl⟩
    obtain ⟨th', e1, e2⟩ := hk
    rw [List.map_cons]
    dsimp only
    rw [e1]
    unfold getK
    by_cases h : k = v
    · rw [if_pos h, if_pos h]; simp [e2]
    · rw [if_neg h, if_neg h]; exact ih

theorem arriveLine_kept (s : State) (key stamp pa : Nat) (bs : List Byte) : Kept s (arriveLine s key stamp pa bs).1 := by
  obtain ⟨pw, ew⟩ := wakeHome_only s pa
  have hw : ∀ s : State, ∃ m k p, writePa s key pa bs = { s with mem := m, lineKeys := k, poison := p } := by
    intro s
    unfold writePa rekeyLine
    dsimp only
    split
    · exact ⟨_, _, _, rfl⟩
    · split <;> exact ⟨_, _, _, rfl⟩
  obtain ⟨m, k, p, e⟩ := hw (keepBases (wakeHome s pa) key pa bs.length)
  unfold arriveLine
  dsimp only
  rw [e, ew]
  exact ⟨fun v => fire_threads s.threads (lineOf pa) v, _, m, k, p, _, _, _, _, _, _, _, pw, rfl⟩

/-- A write that arrives at its homes. -/
theorem arrive_kept (s : State) (key stamp pa : Nat) (bs : List Byte) : Kept s (arrive s key stamp pa bs).1 := by
  unfold arrive
  generalize splitLines pa bs (bs.length / 128 + 2) = l
  have : ∀ (l : List (Nat × List Byte)) (acc : State × Nat), Kept acc.1 (l.foldl (fun acc p =>
      ((arriveLine acc.1 key stamp p.1 p.2).1, Nat.max acc.2 (arriveLine acc.1 key stamp p.1 p.2).2)) acc).1 := by
    intro l
    induction l with
    | nil => exact fun acc => Kept.refl _
    | cons a l ih =>
      intro acc
      rw [List.foldl_cons]
      have h := ih ((arriveLine acc.1 key stamp a.1 a.2).1, Nat.max acc.2 (arriveLine acc.1 key stamp a.1 a.2).2)
      exact (arriveLine_kept acc.1 key stamp a.1 a.2).trans h
  exact this l (s, 0)

theorem kept_poison {s t : State} (h : Kept s t) (line : Nat) : Kept s (poisonLine t line) := by
  obtain ⟨a, _, _, _, _, _, _, _, _, _, _, _, _, rfl⟩ := h
  unfold poisonLine
  split
  · exact ⟨a, _, _, _, _, _, _, _, _, _, _, _, _, rfl⟩
  · exact ⟨a, _, _, _, _, _, _, _, _, _, _, _, _, rfl⟩

theorem spillRow_kept (s : State) (core : Nat) (r : StackRow) : Kept s (spillRow s core r) := by
  unfold spillRow
  refine kept_foldl _ (fun s lane => ?_) _ s
  split
  · exact Kept.refl s
  · split
    · exact Kept.refl s
    · dsimp only
      split
      · exact kept_poison (arrive_kept _ _ _ _ _) _
      · exact arrive_kept _ _ _ _ _

theorem kept_rows {s t : State} (h : Kept s t) (r : Map (List StackRow)) : Kept s { t with rows := r } := by
  obtain ⟨a, _, _, _, _, _, _, _, _, _, _, _, _, rfl⟩ := h
  exact ⟨a, _, _, _, _, _, _, _, _, _, _, _, _, rfl⟩

theorem withRow_kept (s : State) (core slot off : Nat) : Kept s (withRow s core slot off) := by
  unfold withRow
  dsimp only
  split
  · exact Kept.refl s
  · refine kept_rows ?_ _
    split
    · exact Kept.refl s
    · split
      · exact Kept.refl s
      · exact kept_rows (spillRow_kept _ _ _) _

/-- A write in a thread's window. -/
theorem writeWindow_kept (s : State) (u off : Nat) (bs : List Byte) : Kept s (writeWindow s u off bs) := by
  obtain ⟨a, _, _, _, _, _, _, _, _, _, _, _, _, e⟩ := withRow_kept s (threadCore u) (threadSlot u) (off / 16 * 16)
  unfold writeWindow putRow
  dsimp only
  refine ⟨?_, ?_⟩
  · rw [e] at a ⊢; exact a
  · rw [e]; exact ⟨_, _, _, _, _, _, _, _, _, _, _, _, rfl⟩

/-- A read of a thread's window. -/
theorem readWindow_kept (s : State) (u off n : Nat) : Kept s (readWindow s u off n).1 := by
  obtain ⟨a, _, _, _, _, _, _, _, _, _, _, _, _, e⟩ := withRow_kept s (threadCore u) (threadSlot u) (off / 16 * 16)
  unfold readWindow putRow
  dsimp only
  refine ⟨?_, ?_⟩
  · rw [e] at a ⊢; exact a
  · rw [e]; exact ⟨_, _, _, _, _, _, _, _, _, _, _, _, rfl⟩

theorem partsPut_kept (key : Nat) (l : List (Nat × Nat)) (bs : List Byte) (s : State) : Kept s (partsPut s key l bs) := by
  induction l generalizing s bs with
  | nil => exact Kept.refl s
  | cons p l ih => exact (arrive_kept _ _ _ _ _).trans (ih _ _)

/-- An observation record. -/
theorem writeObs_kept (s : State) (core asid kind : Nat) (place : List Nat) (pc : DWord) (data : Nat) :
    Kept s (writeObs s core asid kind place pc data) := by
  have hd : ∀ (s : State) (b key : Nat), Kept s (match reached s (tlbUnits core) asid b 8 with
      | some hd => partsPut s key hd (toBytes 8 (partsNum s key hd + 1))
      | none => s) := by
    intro s b key
    cases reached s (tlbUnits core) asid b 8 with
    | none => exact Kept.refl s
    | some l => exact partsPut_kept _ _ _ _
  unfold writeObs
  generalize ctxField s asid 24 8 = buf
  generalize keyOf s asid = key
  dsimp only
  generalize reached s (tlbUnits core) asid (buf + 0) 4 = o0
  generalize reached s (tlbUnits core) asid (buf + 4) 4 = o1
  split
  · exact Kept.refl _
  · rcases o0 with _ | hc
    · exact Kept.refl _
    · rcases o1 with _ | hw
      · exact Kept.refl _
      · dsimp only
        generalize partsNum s key hw = w
        split
        · exact hd s _ key
        · have h1 := partsPut_kept key hw (toBytes 4 (w + 1)) s
          generalize partsPut s key hw (toBytes 4 (w + 1)) = s1 at h1
          refine h1.trans ?_
          generalize reached s1 (tlbUnits core) asid (buf + (64 + 32 * w)) 8 = p0
          generalize reached s1 (tlbUnits core) asid (buf + (72 + 32 * w)) 24 = p1
          rcases p0 with _ | h0
          · exact hd s1 _ key
          · rcases p1 with _ | h8
            · exact hd s1 _ key
            · exact (partsPut_kept _ _ _ _).trans (partsPut_kept _ _ _ _)

/-- A thread of a kept state is the same thread but for its watch. -/
theorem Kept.thread {s t : State} (h : Kept s t) {u : Nat} {th : Thread} (ht : getThread s u = some th) :
    ∃ w, getThread t u = some { th with watch := w } := by
  have := h.threads u
  rw [ht] at this
  cases e : getThread t u with
  | none => simp [e] at this
  | some x =>
    simp only [e, Option.map_some, Option.some.injEq] at this
    refine ⟨x.watch, ?_⟩
    have h2 : ({ watchless x with watch := x.watch } : Thread) = { watchless th with watch := x.watch } := by rw [this]
    exact congrArg some h2

end Sys2Proof.Machine
end

