-- ==== Sys2Proof/Laws/Package.lean ====
section
/-! SUPPORT. BAR 0 registers (R386), measurements (R403), what arriving bytes leave as it was (R351), and the end of nodes (R391). -/

namespace Sys2Proof.Machine

open Sys2Proof

theorem bar0_set (s : State) (o : Nat) (v : DWord) (o' : Nat) : bar0 (setBar0 s o v) o' = if o' = o then v else bar0 s o' := by
  unfold bar0 setBar0
  dsimp only
  rw [getK_putK]
  split <;> rfl
theorem meas_ext (s : State) (k : Nat) (m : List Byte) (j : Nat) : measOf (extendMeas s k m) j = if j = k then sha384 (measOf s k ++ m) else measOf s j := by
  unfold measOf extendMeas
  dsimp only
  rw [getK_putK]
  split <;> rfl

theorem fold_line (key stamp : Nat) (l : List (Nat × List Byte)) (acc : State × Nat) :
   (l.foldl (fun acc p => let r := arriveLine acc.1 key stamp p.1 p.2; (r.1, Nat.max acc.2 r.2)) acc).1 =
     { acc.1 with
       mem := (l.foldl (fun acc p => let r := arriveLine acc.1 key stamp p.1 p.2; (r.1, Nat.max acc.2 r.2)) acc).1.mem
       lineKeys := (l.foldl (fun acc p => let r := arriveLine acc.1 key stamp p.1 p.2; (r.1, Nat.max acc.2 r.2)) acc).1.lineKeys
       poison := (l.foldl (fun acc p => let r := arriveLine acc.1 key stamp p.1 p.2; (r.1, Nat.max acc.2 r.2)) acc).1.poison
       nodes := (l.foldl (fun acc p => let r := arriveLine acc.1 key stamp p.1 p.2; (r.1, Nat.max acc.2 r.2)) acc).1.nodes
       threads := (l.foldl (fun acc p => let r := arriveLine acc.1 key stamp p.1 p.2; (r.1, Nat.max acc.2 r.2)) acc).1.threads
       subFired := (l.foldl (fun acc p => let r := arriveLine acc.1 key stamp p.1 p.2; (r.1, Nat.max acc.2 r.2)) acc).1.subFired
       subWatch := (l.foldl (fun acc p => let r := arriveLine acc.1 key stamp p.1 p.2; (r.1, Nat.max acc.2 r.2)) acc).1.subWatch
       gwct := (l.foldl (fun acc p => let r := arriveLine acc.1 key stamp p.1 p.2; (r.1, Nat.max acc.2 r.2)) acc).1.gwct
       stamps := (l.foldl (fun acc p => let r := arriveLine acc.1 key stamp p.1 p.2; (r.1, Nat.max acc.2 r.2)) acc).1.stamps
       power := (l.foldl (fun acc p => let r := arriveLine acc.1 key stamp p.1 p.2; (r.1, Nat.max acc.2 r.2)) acc).1.power } := by
  induction l generalizing acc with
  | nil => rfl
  | cons a l ih =>
    rw [List.foldl_cons]
    refine (ih _).trans ?_
    obtain ⟨-, _, _, _, _, _, _, _, _, _, _, _, _, e⟩ := arriveLine_kept acc.1 key stamp a.1 a.2
    have hr : (arriveLine acc.1 key stamp a.1 a.2).1.rows = acc.1.rows ∧ (arriveLine acc.1 key stamp a.1 a.2).1.seqno = acc.1.seqno := by
      unfold arriveLine wakeHome
      dsimp only
      unfold fireWatches writePa rekeyLine keepBases
      dsimp only
      repeat' split
      all_goals exact ⟨rfl, rfl⟩
    rw [e] at hr
    obtain ⟨h1, h2⟩ := hr
    dsimp only at h1 h2
    subst h1; subst h2
    dsimp only
    rw [e]

/-- nodes ended -/
structure EndRel (s t : State) (ids : List Nat) (code : Nat) : Prop where
  some' : ∀ n x, getK s.nodes n = some x → ∃ y, getK t.nodes n = some y ∧ y.asid = x.asid ∧ (n ∉ ids → y = x) ∧
    (n ∈ ids → y.failed = some (x.failed.getD code)) ∧ (y.failed = x.failed ∨ y.failed = some (x.failed.getD code))
  none' : ∀ n, getK s.nodes n = none → getK t.nodes n = none
  cohorts : ∀ c y, getK t.cohorts c = some y → ∃ x, getK s.cohorts c = some x ∧ x.node = y.node ∧ (x.state = 4 → y.state = 4) ∧ (y.node ∈ ids → y.state = 4)
  entries : ∀ e ∈ t.nodes, ∃ e' ∈ s.nodes, e'.1 = e.1 ∧ e'.2.asid = e.2.asid
  frame : t.mem = s.mem ∧ t.bar0 = s.bar0 ∧ t.keys = s.keys ∧ t.nextKey = s.nextKey ∧ t.meas = s.meas ∧ t.valid = s.valid ∧ t.session = s.session

theorem EndRel.refl (s : State) (code : Nat) : EndRel s s [] code :=
  ⟨fun n x h => ⟨x, h, rfl, fun _ => rfl, by simp, Or.inl rfl⟩, fun _ h => h, fun c y h => ⟨y, h, rfl, id, by simp⟩, fun e he => ⟨e, he, rfl, rfl⟩, rfl, rfl, rfl, rfl, rfl, rfl, rfl⟩
theorem EndRel.trans {s t u : State} {i j : List Nat} {code : Nat} (h : EndRel s t i code) (h' : EndRel t u j code) : EndRel s u (i ++ j) code := by
  refine ⟨fun n x hx => ?_, fun n hn => h'.none' n (h.none' n hn), fun c y hy => ?_, fun e he => ?_, ?_⟩
  · obtain ⟨y, hy, a1, a2, a3, a4⟩ := h.some' n x hx
    obtain ⟨z, hz, b1, b2, b3, b4⟩ := h'.some' n y hy
    have hf : (y.failed.getD code) = x.failed.getD code := by rcases a4 with e | e <;> rw [e]; rfl
    rw [hf] at b3 b4
    refine ⟨z, hz, b1.trans a1, fun hn => ?_, fun hn => ?_, ?_⟩
    · simp only [List.mem_append, not_or] at hn; rw [b2 hn.2, a2 hn.1]
    · rcases List.mem_append.1 hn with hn | hn
      · rcases b4 with e | e
        · rw [e, a3 hn]
        · exact e
      · exact b3 hn
    · rcases b4 with e | e
      · rcases a4 with e' | e'
        · exact Or.inl (e.trans e')
        · exact Or.inr (e.trans e')
      · exact Or.inr e
  · obtain ⟨x, hx, a1, a2, a3⟩ := h'.cohorts c y hy
    obtain ⟨w, hw, b1, b2, b3⟩ := h.cohorts c x hx
    refine ⟨w, hw, b1.trans a1, fun e => a2 (b2 e), fun hn => ?_⟩
    rcases List.mem_append.1 hn with hn | hn
    · exact a2 (b3 (by rw [a1]; exact hn))
    · exact a3 hn
  · obtain ⟨e', he', b1, b2⟩ := h'.entries e he
    obtain ⟨e'', he'', c1, c2⟩ := h.entries e' he'
    exact ⟨e'', he'', c1.trans b1, c2.trans b2⟩
  · obtain ⟨a1, a2, a3, a4, a5, a6, a7⟩ := h.frame
    obtain ⟨b1, b2, b3, b4, b5, b6, b7⟩ := h'.frame
    exact ⟨b1.trans a1, b2.trans a2, b3.trans a3, b4.trans a4, b5.trans a5, b6.trans a6, b7.trans a7⟩

theorem blocked_fold (l : List Nat) : ∀ s : State, ∃ T D, l.foldl noteBlocked s = { s with threads := T, deferrals := D } := by
  induction l with
  | nil => intro s; exact ⟨_, _, rfl⟩
  | cons a l ih =>
    intro s
    rw [List.foldl_cons]
    obtain ⟨T, D, e⟩ := ih (noteBlocked s a)
    obtain ⟨T', e', -⟩ := releases_eq ((waitsLeft a (fun _ => true) s.deferrals).filter (·.waits.isEmpty))
      { s with deferrals := (waitsLeft a (fun _ => true) s.deferrals).filter fun d => !d.waits.isEmpty }
    refine ⟨T, D, e.trans ?_⟩
    have : noteBlocked s a = withThreads { s with deferrals := (waitsLeft a (fun _ => true) s.deferrals).filter fun d => !d.waits.isEmpty } T' := e'
    rw [this]; rfl

theorem endCohort_facts (s : State) (c : Nat) : (endCohort s c).nodes = s.nodes ∧
   (∀ k y, getK (endCohort s c).cohorts k = some y → ∃ x, getK s.cohorts k = some x ∧ x.node = y.node ∧ (x.state = 4 → y.state = 4) ∧ (k = c → y.state = 4)) ∧
   ((endCohort s c).mem = s.mem ∧ (endCohort s c).bar0 = s.bar0 ∧ (endCohort s c).keys = s.keys ∧ (endCohort s c).nextKey = s.nextKey ∧
    (endCohort s c).meas = s.meas ∧ (endCohort s c).valid = s.valid ∧ (endCohort s c).session = s.session) := by
  unfold endCohort
  dsimp only
  generalize hs1 : (List.foldl noteBlocked _ _ : State) = s2
  obtain ⟨T, D, e⟩ := blocked_fold _ _
  rw [e] at hs1
  have hn : s2.nodes = s.nodes := by rw [← hs1]
  have hc : s2.cohorts = s.cohorts := by rw [← hs1]
  have hf : s2.mem = s.mem ∧ s2.bar0 = s.bar0 ∧ s2.keys = s.keys ∧ s2.nextKey = s.nextKey ∧ s2.meas = s.meas ∧ s2.valid = s.valid ∧ s2.session = s.session := by
    rw [← hs1]; exact ⟨rfl, rfl, rfl, rfl, rfl, rfl, rfl⟩
  clear hs1 e
  split
  · refine ⟨hn, fun k y h => ?_, hf⟩
    dsimp only at h
    by_cases hk : k = c
    · rw [hk, getK_delK_same] at h; exact absurd h (by simp)
    · rw [getK_delK_ne _ hk, hc] at h
      exact ⟨y, h, rfl, id, fun e => absurd e hk⟩
  · unfold modCohort
    cases hg : getCohort s2 c with
    | none =>
      refine ⟨hn, fun k y h => ?_, hf⟩
      dsimp only at h
      rw [hc] at h
      refine ⟨y, h, rfl, id, fun e => ?_⟩
      have : getK s2.cohorts c = none := hg
      rw [hc, ← e, h] at this
      exact absurd this (by simp)
    | some x =>
      refine ⟨hn, fun k y h => ?_, hf⟩
      dsimp only at h
      rw [getK_putK] at h
      by_cases hk : k = c
      · rw [if_pos hk] at h
        have : getK s2.cohorts c = some x := hg
        rw [hc] at this
        obtain rfl := (Option.some.inj h).symm
        exact ⟨x, by rw [hk]; exact this, rfl, fun _ => rfl, fun _ => rfl⟩
      · rw [if_neg hk, hc] at h
        exact ⟨y, h, rfl, id, fun e => absurd e hk⟩

theorem endCohorts_facts (l : List Nat) : ∀ s : State, (l.foldl endCohort s).nodes = s.nodes ∧
   (∀ k y, getK (l.foldl endCohort s).cohorts k = some y → ∃ x, getK s.cohorts k = some x ∧ x.node = y.node ∧ (x.state = 4 → y.state = 4) ∧ (k ∈ l → y.state = 4)) ∧
   ((l.foldl endCohort s).mem = s.mem ∧ (l.foldl endCohort s).bar0 = s.bar0 ∧ (l.foldl endCohort s).keys = s.keys ∧ (l.foldl endCohort s).nextKey = s.nextKey ∧
    (l.foldl endCohort s).meas = s.meas ∧ (l.foldl endCohort s).valid = s.valid ∧ (l.foldl endCohort s).session = s.session) := by
  induction l with
  | nil => intro s; exact ⟨rfl, fun k y h => ⟨y, h, rfl, id, by simp⟩, rfl, rfl, rfl, rfl, rfl, rfl, rfl⟩
  | cons a l ih =>
    intro s
    rw [List.foldl_cons]
    obtain ⟨a1, a2, a3⟩ := ih (endCohort s a)
    obtain ⟨b1, b2, b3⟩ := endCohort_facts s a
    generalize endCohort s a = s1 at *
    generalize l.foldl endCohort s1 = s2 at *
    refine ⟨a1.trans b1, fun k y h => ?_, ?_⟩
    · obtain ⟨x, hx, c1, c2, c3⟩ := a2 k y h
      obtain ⟨w, hw, d1, d2, d3⟩ := b2 k x hx
      refine ⟨w, hw, d1.trans c1, fun e => c2 (d2 e), fun hk => ?_⟩
      rcases List.mem_cons.1 hk with hk | hk
      · exact c2 (d3 hk)
      · exact c3 hk
    · obtain ⟨a1, a2, a3, a4, a5, a6, a7⟩ := a3
      obtain ⟨b1, b2, b3, b4, b5, b6, b7⟩ := b3
      exact ⟨a1.trans b1, a2.trans b2, a3.trans b3, a4.trans b4, a5.trans b5, a6.trans b6, a7.trans b7⟩

theorem endNode_rel (s : State) (n code : Nat) : EndRel s (endNode s n code) [n] code := by
  unfold endNode
  dsimp only
  have hF : ∃ s1, failNode s n code = s1 ∧ s1.cohorts = s.cohorts ∧ (s1.mem = s.mem ∧ s1.bar0 = s.bar0 ∧ s1.keys = s.keys ∧ s1.nextKey = s.nextKey ∧ s1.meas = s.meas ∧ s1.valid = s.valid ∧ s1.session = s.session) ∧
      (∀ e ∈ s1.nodes, ∃ e' ∈ s.nodes, e'.1 = e.1 ∧ e'.2.asid = e.2.asid) ∧
      ∀ m, getK s1.nodes m = (getK s.nodes m).map fun x => if m = n then (if x.failed.isSome then x else { x with failed := some code }) else x := by
    refine ⟨_, rfl, ?_⟩
    unfold failNode modNode
    cases hx : getNode s n with
    | none =>
      refine ⟨rfl, ⟨rfl, rfl, rfl, rfl, rfl, rfl, rfl⟩, fun e he => ⟨e, he, rfl, rfl⟩, fun m => ?_⟩
      by_cases hm : m = n
      · subst hm; have : getK s.nodes m = none := hx; rw [this]; rfl
      · cases getK s.nodes m <;> simp [hm]
    | some x =>
      refine ⟨rfl, ⟨rfl, rfl, rfl, rfl, rfl, rfl, rfl⟩, fun e he => ?_, fun m => ?_⟩
      · rcases mem_putK _ _ _ _ he with h | h
        · exact ⟨e, h, rfl, rfl⟩
        · refine ⟨(n, x), mem_of_getK _ _ _ hx, by rw [h], ?_⟩
          rw [h]; dsimp only; split <;> rfl
      dsimp only
      rw [getK_putK]
      by_cases hm : m = n
      · subst hm; have : getK s.nodes m = some x := hx; rw [this, if_pos rfl]; simp
      · cases getK s.nodes m <;> simp [hm]
  obtain ⟨s1, e1, c1, f1, en1, n1⟩ := hF
  rw [e1]
  obtain ⟨a1, a2, a3⟩ := endCohorts_facts ((s1.cohorts.filter fun c => c.2.node == n).map (·.1)) s1
  generalize hs2 : ((s1.cohorts.filter fun c => c.2.node == n).map (·.1)).foldl endCohort s1 = s2 at *
  obtain ⟨f1, f2, f3, f4, f5, f6, f7⟩ := f1
  obtain ⟨g1, g2, g3, g4, g5, g6, g7⟩ := a3
  have hcoh : ∀ c y, getK s2.cohorts c = some y → ∃ x, getK s.cohorts c = some x ∧ x.node = y.node ∧ (x.state = 4 → y.state = 4) ∧ (y.node ∈ [n] → y.state = 4) := by
    intro c y hy
    obtain ⟨x, hx, d1, d2, d3⟩ := a2 c y hy
    refine ⟨x, c1 ▸ hx, d1, d2, fun hn => d3 ?_⟩
    refine List.mem_map.2 ⟨(c, x), List.mem_filter.2 ⟨mem_of_getK _ _ _ hx, ?_⟩, rfl⟩
    rw [beq_iff_eq]; exact d1.trans (List.mem_singleton.1 hn)
  unfold modNode
  cases hx : getNode s2 n with
  | none =>
    have hx' : getK s.nodes n = none := by
      have : getK s2.nodes n = none := hx
      rw [a1, n1 n] at this
      cases h : getK s.nodes n with
      | none => rfl
      | some x => rw [h] at this; simp at this
    refine ⟨fun m x hm => ?_, fun m hm => ?_, hcoh, ?_, g1.trans f1, g2.trans f2, g3.trans f3, g4.trans f4, g5.trans f5, g6.trans f6, g7.trans f7⟩
    · have hmn : m ≠ n := by rintro rfl; rw [hx'] at hm; exact absurd hm (by simp)
      dsimp only
      rw [a1, n1 m, hm]
      exact ⟨x, by simp [hmn], rfl, fun _ => rfl, fun h => absurd (List.mem_singleton.1 h) hmn, Or.inl rfl⟩
    · dsimp only; rw [a1, n1 m, hm]; rfl
    · dsimp only; rw [a1]; exact en1
  | some z =>
    refine ⟨fun m x hm => ?_, fun m hm => ?_, hcoh, ?_, g1.trans f1, g2.trans f2, g3.trans f3, g4.trans f4, g5.trans f5, g6.trans f6, g7.trans f7⟩
    · dsimp only
      rw [getK_putK]
      by_cases hmn : m = n
      · rw [if_pos hmn]
        subst hmn
        have hz : z = (if x.failed.isSome then x else { x with failed := some code }) := by
          have : getK s2.nodes m = some z := hx
          rw [a1, n1 m, hm] at this
          simpa using this.symm
        have hz1 : z.asid = x.asid ∧ z.failed = some (x.failed.getD code) := by
          rw [hz]; cases hf : x.failed <;> simp [hf]
        exact ⟨_, rfl, hz1.1, fun h => absurd (List.mem_singleton.2 rfl) h, fun _ => hz1.2, Or.inr hz1.2⟩
      · rw [if_neg hmn, a1, n1 m, hm]
        exact ⟨x, by simp [hmn], rfl, fun _ => rfl, fun h => absurd (List.mem_singleton.1 h) hmn, Or.inl rfl⟩
    · dsimp only
      rw [getK_putK]
      by_cases hmn : m = n
      · have : getK s2.nodes n = some z := hx
        rw [a1, n1 n, ← hmn, hm] at this
        exact absurd this (by simp)
      · rw [if_neg hmn, a1, n1 m, hm]; rfl
    · intro e he
      rcases mem_putK _ _ _ _ he with h | h
      · rw [a1] at h; exact en1 e h
      · have : getK s2.nodes n = some z := hx
        rw [a1] at this
        obtain ⟨e', he', b1, b2⟩ := en1 _ (mem_of_getK _ _ _ this)
        refine ⟨e', he', by rw [h]; exact b1, ?_⟩
        rw [h]; exact b2

theorem endNodes_rel (code : Nat) (l : List Nat) : ∀ s : State, EndRel s (l.foldl (fun s n => endNode s n code) s) l code := by
  induction l with
  | nil => exact fun s => EndRel.refl s code
  | cons a l ih => intro s; rw [List.foldl_cons]; exact (endNode_rel s a code).trans (ih _)

theorem mem_nodesOf (s : State) (asid n : Nat) : n ∈ nodesOf s asid ↔ ∃ e ∈ s.nodes, e.1 = n ∧ e.2.asid = asid := by
  unfold nodesOf
  simp only [List.mem_map, List.mem_filter, beq_iff_eq]
  constructor
  · rintro ⟨e, ⟨h1, h2⟩, rfl⟩; exact ⟨e, h1, rfl, h2⟩
  · rintro ⟨e, h1, rfl, h2⟩; exact ⟨e, ⟨h1, h2⟩, rfl⟩

theorem endContext_rel (s : State) (asid : Nat) : EndRel s (endContext s asid) (nodesOf s asid) 0x300 := by
  have h := endNodes_rel 0x300 (nodesOf s asid) s
  exact ⟨h.some', h.none', h.cohorts, h.entries, h.frame⟩

theorem endContexts (l : List Nat) : ∀ s : State, ∃ ids, EndRel s (l.foldl endContext s) ids 0x300 ∧
   (∀ n x, getK s.nodes n = some x → x.asid ∈ l → n ∈ ids) ∧ (∀ n ∈ ids, ∃ e ∈ s.nodes, e.1 = n ∧ e.2.asid ∈ l) := by
  induction l with
  | nil => exact fun s => ⟨[], EndRel.refl s _, by simp, by simp⟩
  | cons a l ih =>
    intro s
    rw [List.foldl_cons]
    have h := endContext_rel s a
    generalize endContext s a = s1 at *
    obtain ⟨ids, h', i1, i2⟩ := ih s1
    refine ⟨nodesOf s a ++ ids, h.trans h', fun n x hx hm => ?_, fun n hn => ?_⟩
    · rw [List.mem_append]
      rcases List.mem_cons.1 hm with hm | hm
      · left; rw [mem_nodesOf]; exact ⟨(n, x), mem_of_getK _ _ _ hx, rfl, hm⟩
      · right
        obtain ⟨y, hy, b, _⟩ := h.some' n x hx
        exact i1 n y hy (by rw [b]; exact hm)
    · rcases List.mem_append.1 hn with hn | hn
      · obtain ⟨e, he, h1, h2⟩ := (mem_nodesOf s a n).1 hn
        exact ⟨e, he, h1, by rw [h2]; exact List.mem_cons_self⟩
      · obtain ⟨e, he, h1, h2⟩ := i2 n hn
        obtain ⟨e', he', c1, c2⟩ := h.entries e he
        exact ⟨e', he', c1.trans h1, by rw [c2]; exact List.mem_cons_of_mem _ h2⟩

end Sys2Proof.Machine
end

