-- ==== Sys2Proof/Laws/Words.lean ====
section
/-! SUPPORT. The fields of a word that the encoder builds (R34): each reads back as what went in. -/

set_option Elab.async false

namespace Sys2Proof.Laws.Words

/-- A field of m bits above the bits below K of a number. -/
theorem field (n hi lo K m : Nat) (x : BitVec m) (h : lo < K) (e : n = (hi * 2 ^ m + x.toNat) * K + lo) : BitVec.ofNat m (n / K) = x := by
  subst e
  apply BitVec.eq_of_toNat_eq
  rw [Nat.mul_comm, Nat.mul_add_div (Nat.lt_of_le_of_lt (Nat.zero_le lo) h), Nat.div_eq_of_lt h, BitVec.toNat_ofNat, Nat.add_zero,
    Nat.mul_add_mod_self_right]
  exact Nat.mod_eq_of_lt x.isLt

/-- The lowest field. -/
theorem field0 (n hi m : Nat) (x : BitVec m) (e : n = hi * 2 ^ m + x.toNat) : BitVec.ofNat m n = x := by
  have := field n hi 0 1 m x (by omega) (by omega)
  rwa [Nat.div_one] at this

/-- A field of one bit above the bits below K of a number. -/
theorem flag (n hi lo K : Nat) (x : Bool) (h : lo < K) (e : n = (hi * 2 + x.toNat) * K + lo) : decide (n / K % 2 = 1) = x := by
  subst e
  rw [Nat.mul_comm, Nat.mul_add_div (Nat.lt_of_le_of_lt (Nat.zero_le lo) h), Nat.div_eq_of_lt h, Nat.add_zero, Nat.mul_add_mod_self_right]
  cases x <;> rfl

/-- The lowest bit. -/
theorem flag0 (n hi : Nat) (x : Bool) (e : n = hi * 2 + x.toNat) : decide (n % 2 = 1) = x := by
  have := flag n hi 0 1 x (by omega) (by omega)
  rwa [Nat.div_one] at this

theorem encA_toNat (op d a b : BitVec 6) (fn : BitVec 4) (n : Bool) (p : BitVec 3) : (encA op d a b fn n p).toNat = op.toNat * 2 ^ 26 + d.toNat * 2 ^ 20 + a.toNat * 2 ^ 14 + b.toNat * 2 ^ 8 + fn.toNat * 2 ^ 4 + n.toNat * 2 ^ 3 + p.toNat := by
  have hop := op.isLt
  have hd := d.isLt
  have ha := a.isLt
  have hb := b.isLt
  have hfn := fn.isLt
  have hn := Bool.toNat_lt n
  have hp := p.isLt
  rw [encA, BitVec.toNat_ofNat]
  exact Nat.mod_eq_of_lt (by omega)

@[simp] theorem opF_encA (op d a b : BitVec 6) (fn : BitVec 4) (n : Bool) (p : BitVec 3) : opF (encA op d a b fn n p) = op := by
  have hd := d.isLt
  have ha := a.isLt
  have hb := b.isLt
  have hfn := fn.isLt
  have hn := Bool.toNat_lt n
  have hp := p.isLt
  rw [opF, encA_toNat]
  exact field _ (0) (d.toNat * 1048576 + a.toNat * 16384 + b.toNat * 256 + fn.toNat * 16 + n.toNat * 8 + p.toNat * 1) _ 6 op (by omega) (by omega)

@[simp] theorem dF_encA (op d a b : BitVec 6) (fn : BitVec 4) (n : Bool) (p : BitVec 3) : dF (encA op d a b fn n p) = d := by
  have ha := a.isLt
  have hb := b.isLt
  have hfn := fn.isLt
  have hn := Bool.toNat_lt n
  have hp := p.isLt
  rw [dF, encA_toNat]
  exact field _ (op.toNat * 1) (a.toNat * 16384 + b.toNat * 256 + fn.toNat * 16 + n.toNat * 8 + p.toNat * 1) _ 6 d (by omega) (by omega)

@[simp] theorem aF_encA (op d a b : BitVec 6) (fn : BitVec 4) (n : Bool) (p : BitVec 3) : aF (encA op d a b fn n p) = a := by
  have hb := b.isLt
  have hfn := fn.isLt
  have hn := Bool.toNat_lt n
  have hp := p.isLt
  rw [aF, encA_toNat]
  exact field _ (op.toNat * 64 + d.toNat * 1) (b.toNat * 256 + fn.toNat * 16 + n.toNat * 8 + p.toNat * 1) _ 6 a (by omega) (by omega)

@[simp] theorem bF_encA (op d a b : BitVec 6) (fn : BitVec 4) (n : Bool) (p : BitVec 3) : bF (encA op d a b fn n p) = b := by
  have hfn := fn.isLt
  have hn := Bool.toNat_lt n
  have hp := p.isLt
  rw [bF, encA_toNat]
  exact field _ (op.toNat * 4096 + d.toNat * 64 + a.toNat * 1) (fn.toNat * 16 + n.toNat * 8 + p.toNat * 1) _ 6 b (by omega) (by omega)

@[simp] theorem fnF_encA (op d a b : BitVec 6) (fn : BitVec 4) (n : Bool) (p : BitVec 3) : fnF (encA op d a b fn n p) = fn := by
  have hn := Bool.toNat_lt n
  have hp := p.isLt
  rw [fnF, encA_toNat]
  exact field _ (op.toNat * 262144 + d.toNat * 4096 + a.toNat * 64 + b.toNat * 1) (n.toNat * 8 + p.toNat * 1) _ 4 fn (by omega) (by omega)

@[simp] theorem nF_encA (op d a b : BitVec 6) (fn : BitVec 4) (n : Bool) (p : BitVec 3) : nF (encA op d a b fn n p) = n := by
  have hp := p.isLt
  rw [nF, encA_toNat]
  exact flag _ (op.toNat * 4194304 + d.toNat * 65536 + a.toNat * 1024 + b.toNat * 16 + fn.toNat * 1) (p.toNat * 1) _  n (by omega) (by omega)

@[simp] theorem pF_encA (op d a b : BitVec 6) (fn : BitVec 4) (n : Bool) (p : BitVec 3) : pF (encA op d a b fn n p) = p := by
  rw [pF, encA_toNat]
  exact field0 _ (op.toNat * 8388608 + d.toNat * 131072 + a.toNat * 2048 + b.toNat * 32 + fn.toNat * 2 + n.toNat * 1) 3 p (by omega)

theorem encF_toNat (op d a b c : BitVec 6) (n p : Bool) : (encF op d a b c n p).toNat = op.toNat * 2 ^ 26 + d.toNat * 2 ^ 20 + a.toNat * 2 ^ 14 + b.toNat * 2 ^ 8 + c.toNat * 2 ^ 2 + n.toNat * 2 + p.toNat := by
  have hop := op.isLt
  have hd := d.isLt
  have ha := a.isLt
  have hb := b.isLt
  have hc := c.isLt
  have hn := Bool.toNat_lt n
  have hp := Bool.toNat_lt p
  rw [encF, BitVec.toNat_ofNat]
  exact Nat.mod_eq_of_lt (by omega)

@[simp] theorem opF_encF (op d a b c : BitVec 6) (n p : Bool) : opF (encF op d a b c n p) = op := by
  have hd := d.isLt
  have ha := a.isLt
  have hb := b.isLt
  have hc := c.isLt
  have hn := Bool.toNat_lt n
  have hp := Bool.toNat_lt p
  rw [opF, encF_toNat]
  exact field _ (0) (d.toNat * 1048576 + a.toNat * 16384 + b.toNat * 256 + c.toNat * 4 + n.toNat * 2 + p.toNat * 1) _ 6 op (by omega) (by omega)

@[simp] theorem dF_encF (op d a b c : BitVec 6) (n p : Bool) : dF (encF op d a b c n p) = d := by
  have ha := a.isLt
  have hb := b.isLt
  have hc := c.isLt
  have hn := Bool.toNat_lt n
  have hp := Bool.toNat_lt p
  rw [dF, encF_toNat]
  exact field _ (op.toNat * 1) (a.toNat * 16384 + b.toNat * 256 + c.toNat * 4 + n.toNat * 2 + p.toNat * 1) _ 6 d (by omega) (by omega)

@[simp] theorem aF_encF (op d a b c : BitVec 6) (n p : Bool) : aF (encF op d a b c n p) = a := by
  have hb := b.isLt
  have hc := c.isLt
  have hn := Bool.toNat_lt n
  have hp := Bool.toNat_lt p
  rw [aF, encF_toNat]
  exact field _ (op.toNat * 64 + d.toNat * 1) (b.toNat * 256 + c.toNat * 4 + n.toNat * 2 + p.toNat * 1) _ 6 a (by omega) (by omega)

@[simp] theorem bF_encF (op d a b c : BitVec 6) (n p : Bool) : bF (encF op d a b c n p) = b := by
  have hc := c.isLt
  have hn := Bool.toNat_lt n
  have hp := Bool.toNat_lt p
  rw [bF, encF_toNat]
  exact field _ (op.toNat * 4096 + d.toNat * 64 + a.toNat * 1) (c.toNat * 4 + n.toNat * 2 + p.toNat * 1) _ 6 b (by omega) (by omega)

@[simp] theorem cF_encF (op d a b c : BitVec 6) (n p : Bool) : cF (encF op d a b c n p) = c := by
  have hn := Bool.toNat_lt n
  have hp := Bool.toNat_lt p
  rw [cF, encF_toNat]
  exact field _ (op.toNat * 262144 + d.toNat * 4096 + a.toNat * 64 + b.toNat * 1) (n.toNat * 2 + p.toNat * 1) _ 6 c (by omega) (by omega)

@[simp] theorem n1F_encF (op d a b c : BitVec 6) (n p : Bool) : n1F (encF op d a b c n p) = n := by
  have hp := Bool.toNat_lt p
  rw [n1F, encF_toNat]
  exact flag _ (op.toNat * 16777216 + d.toNat * 262144 + a.toNat * 4096 + b.toNat * 64 + c.toNat * 1) (p.toNat * 1) _  n (by omega) (by omega)

@[simp] theorem p0F_encF (op d a b c : BitVec 6) (n p : Bool) : p0F (encF op d a b c n p) = p := by
  rw [p0F, encF_toNat]
  exact flag0 _ (op.toNat * 33554432 + d.toNat * 524288 + a.toNat * 8192 + b.toNat * 128 + c.toNat * 2 + n.toNat * 1)  p (by omega)

theorem encI_toNat (op d a : BitVec 6) (i : BitVec 12) (n p : Bool) : (encI op d a i n p).toNat = op.toNat * 2 ^ 26 + d.toNat * 2 ^ 20 + a.toNat * 2 ^ 14 + i.toNat * 2 ^ 2 + n.toNat * 2 + p.toNat := by
  have hop := op.isLt
  have hd := d.isLt
  have ha := a.isLt
  have hi := i.isLt
  have hn := Bool.toNat_lt n
  have hp := Bool.toNat_lt p
  rw [encI, BitVec.toNat_ofNat]
  exact Nat.mod_eq_of_lt (by omega)

@[simp] theorem opF_encI (op d a : BitVec 6) (i : BitVec 12) (n p : Bool) : opF (encI op d a i n p) = op := by
  have hd := d.isLt
  have ha := a.isLt
  have hi := i.isLt
  have hn := Bool.toNat_lt n
  have hp := Bool.toNat_lt p
  rw [opF, encI_toNat]
  exact field _ (0) (d.toNat * 1048576 + a.toNat * 16384 + i.toNat * 4 + n.toNat * 2 + p.toNat * 1) _ 6 op (by omega) (by omega)

@[simp] theorem dF_encI (op d a : BitVec 6) (i : BitVec 12) (n p : Bool) : dF (encI op d a i n p) = d := by
  have ha := a.isLt
  have hi := i.isLt
  have hn := Bool.toNat_lt n
  have hp := Bool.toNat_lt p
  rw [dF, encI_toNat]
  exact field _ (op.toNat * 1) (a.toNat * 16384 + i.toNat * 4 + n.toNat * 2 + p.toNat * 1) _ 6 d (by omega) (by omega)

@[simp] theorem aF_encI (op d a : BitVec 6) (i : BitVec 12) (n p : Bool) : aF (encI op d a i n p) = a := by
  have hi := i.isLt
  have hn := Bool.toNat_lt n
  have hp := Bool.toNat_lt p
  rw [aF, encI_toNat]
  exact field _ (op.toNat * 64 + d.toNat * 1) (i.toNat * 4 + n.toNat * 2 + p.toNat * 1) _ 6 a (by omega) (by omega)

@[simp] theorem immF_encI (op d a : BitVec 6) (i : BitVec 12) (n p : Bool) : immF (encI op d a i n p) = i := by
  have hn := Bool.toNat_lt n
  have hp := Bool.toNat_lt p
  rw [immF, encI_toNat]
  exact field _ (op.toNat * 4096 + d.toNat * 64 + a.toNat * 1) (n.toNat * 2 + p.toNat * 1) _ 12 i (by omega) (by omega)

@[simp] theorem n1F_encI (op d a : BitVec 6) (i : BitVec 12) (n p : Bool) : n1F (encI op d a i n p) = n := by
  have hp := Bool.toNat_lt p
  rw [n1F, encI_toNat]
  exact flag _ (op.toNat * 16777216 + d.toNat * 262144 + a.toNat * 4096 + i.toNat * 1) (p.toNat * 1) _  n (by omega) (by omega)

@[simp] theorem p0F_encI (op d a : BitVec 6) (i : BitVec 12) (n p : Bool) : p0F (encI op d a i n p) = p := by
  rw [p0F, encI_toNat]
  exact flag0 _ (op.toNat * 33554432 + d.toNat * 524288 + a.toNat * 8192 + i.toNat * 2 + n.toNat * 1)  p (by omega)

theorem encU_toNat (op d : BitVec 6) (i : BitVec 20) : (encU op d i).toNat = op.toNat * 2 ^ 26 + d.toNat * 2 ^ 20 + i.toNat := by
  have hop := op.isLt
  have hd := d.isLt
  have hi := i.isLt
  rw [encU, BitVec.toNat_ofNat]
  exact Nat.mod_eq_of_lt (by omega)

@[simp] theorem opF_encU (op d : BitVec 6) (i : BitVec 20) : opF (encU op d i) = op := by
  have hd := d.isLt
  have hi := i.isLt
  rw [opF, encU_toNat]
  exact field _ (0) (d.toNat * 1048576 + i.toNat * 1) _ 6 op (by omega) (by omega)

@[simp] theorem dF_encU (op d : BitVec 6) (i : BitVec 20) : dF (encU op d i) = d := by
  have hi := i.isLt
  rw [dF, encU_toNat]
  exact field _ (op.toNat * 1) (i.toNat * 1) _ 6 d (by omega) (by omega)

@[simp] theorem imm20F_encU (op d : BitVec 6) (i : BitVec 20) : imm20F (encU op d i) = i := by
  rw [imm20F, encU_toNat]
  exact field0 _ (op.toNat * 64 + d.toNat * 1) 20 i (by omega)

theorem encM_toNat (op d a : BitVec 6) (o : BitVec 9) (s k : BitVec 2) (p : Bool) : (encM op d a o s k p).toNat = op.toNat * 2 ^ 26 + d.toNat * 2 ^ 20 + a.toNat * 2 ^ 14 + o.toNat * 2 ^ 5 + s.toNat * 2 ^ 3 + k.toNat * 2 + p.toNat := by
  have hop := op.isLt
  have hd := d.isLt
  have ha := a.isLt
  have ho := o.isLt
  have hs := s.isLt
  have hk := k.isLt
  have hp := Bool.toNat_lt p
  rw [encM, BitVec.toNat_ofNat]
  exact Nat.mod_eq_of_lt (by omega)

@[simp] theorem opF_encM (op d a : BitVec 6) (o : BitVec 9) (s k : BitVec 2) (p : Bool) : opF (encM op d a o s k p) = op := by
  have hd := d.isLt
  have ha := a.isLt
  have ho := o.isLt
  have hs := s.isLt
  have hk := k.isLt
  have hp := Bool.toNat_lt p
  rw [opF, encM_toNat]
  exact field _ (0) (d.toNat * 1048576 + a.toNat * 16384 + o.toNat * 32 + s.toNat * 8 + k.toNat * 2 + p.toNat * 1) _ 6 op (by omega) (by omega)

@[simp] theorem dF_encM (op d a : BitVec 6) (o : BitVec 9) (s k : BitVec 2) (p : Bool) : dF (encM op d a o s k p) = d := by
  have ha := a.isLt
  have ho := o.isLt
  have hs := s.isLt
  have hk := k.isLt
  have hp := Bool.toNat_lt p
  rw [dF, encM_toNat]
  exact field _ (op.toNat * 1) (a.toNat * 16384 + o.toNat * 32 + s.toNat * 8 + k.toNat * 2 + p.toNat * 1) _ 6 d (by omega) (by omega)

@[simp] theorem aF_encM (op d a : BitVec 6) (o : BitVec 9) (s k : BitVec 2) (p : Bool) : aF (encM op d a o s k p) = a := by
  have ho := o.isLt
  have hs := s.isLt
  have hk := k.isLt
  have hp := Bool.toNat_lt p
  rw [aF, encM_toNat]
  exact field _ (op.toNat * 64 + d.toNat * 1) (o.toNat * 32 + s.toNat * 8 + k.toNat * 2 + p.toNat * 1) _ 6 a (by omega) (by omega)

@[simp] theorem offF_encM (op d a : BitVec 6) (o : BitVec 9) (s k : BitVec 2) (p : Bool) : offF (encM op d a o s k p) = o := by
  have hs := s.isLt
  have hk := k.isLt
  have hp := Bool.toNat_lt p
  rw [offF, encM_toNat]
  exact field _ (op.toNat * 4096 + d.toNat * 64 + a.toNat * 1) (s.toNat * 8 + k.toNat * 2 + p.toNat * 1) _ 9 o (by omega) (by omega)

@[simp] theorem szF_encM (op d a : BitVec 6) (o : BitVec 9) (s k : BitVec 2) (p : Bool) : szF (encM op d a o s k p) = s := by
  have hk := k.isLt
  have hp := Bool.toNat_lt p
  rw [szF, encM_toNat]
  exact field _ (op.toNat * 2097152 + d.toNat * 32768 + a.toNat * 512 + o.toNat * 1) (k.toNat * 2 + p.toNat * 1) _ 2 s (by omega) (by omega)

@[simp] theorem dcF_encM (op d a : BitVec 6) (o : BitVec 9) (s k : BitVec 2) (p : Bool) : dcF (encM op d a o s k p) = k := by
  have hp := Bool.toNat_lt p
  rw [dcF, encM_toNat]
  exact field _ (op.toNat * 8388608 + d.toNat * 131072 + a.toNat * 2048 + o.toNat * 4 + s.toNat * 1) (p.toNat * 1) _ 2 k (by omega) (by omega)

@[simp] theorem p0F_encM (op d a : BitVec 6) (o : BitVec 9) (s k : BitVec 2) (p : Bool) : p0F (encM op d a o s k p) = p := by
  rw [p0F, encM_toNat]
  exact flag0 _ (op.toNat * 33554432 + d.toNat * 524288 + a.toNat * 8192 + o.toNat * 16 + s.toNat * 4 + k.toNat * 1)  p (by omega)

theorem encX_toNat (op d a b : BitVec 6) (fn : BitVec 4) (s : BitVec 3) (p : Bool) : (encX op d a b fn s p).toNat = op.toNat * 2 ^ 26 + d.toNat * 2 ^ 20 + a.toNat * 2 ^ 14 + b.toNat * 2 ^ 8 + fn.toNat * 2 ^ 4 + s.toNat * 2 + p.toNat := by
  have hop := op.isLt
  have hd := d.isLt
  have ha := a.isLt
  have hb := b.isLt
  have hfn := fn.isLt
  have hs := s.isLt
  have hp := Bool.toNat_lt p
  rw [encX, BitVec.toNat_ofNat]
  exact Nat.mod_eq_of_lt (by omega)

@[simp] theorem opF_encX (op d a b : BitVec 6) (fn : BitVec 4) (s : BitVec 3) (p : Bool) : opF (encX op d a b fn s p) = op := by
  have hd := d.isLt
  have ha := a.isLt
  have hb := b.isLt
  have hfn := fn.isLt
  have hs := s.isLt
  have hp := Bool.toNat_lt p
  rw [opF, encX_toNat]
  exact field _ (0) (d.toNat * 1048576 + a.toNat * 16384 + b.toNat * 256 + fn.toNat * 16 + s.toNat * 2 + p.toNat * 1) _ 6 op (by omega) (by omega)

@[simp] theorem dF_encX (op d a b : BitVec 6) (fn : BitVec 4) (s : BitVec 3) (p : Bool) : dF (encX op d a b fn s p) = d := by
  have ha := a.isLt
  have hb := b.isLt
  have hfn := fn.isLt
  have hs := s.isLt
  have hp := Bool.toNat_lt p
  rw [dF, encX_toNat]
  exact field _ (op.toNat * 1) (a.toNat * 16384 + b.toNat * 256 + fn.toNat * 16 + s.toNat * 2 + p.toNat * 1) _ 6 d (by omega) (by omega)

@[simp] theorem aF_encX (op d a b : BitVec 6) (fn : BitVec 4) (s : BitVec 3) (p : Bool) : aF (encX op d a b fn s p) = a := by
  have hb := b.isLt
  have hfn := fn.isLt
  have hs := s.isLt
  have hp := Bool.toNat_lt p
  rw [aF, encX_toNat]
  exact field _ (op.toNat * 64 + d.toNat * 1) (b.toNat * 256 + fn.toNat * 16 + s.toNat * 2 + p.toNat * 1) _ 6 a (by omega) (by omega)

@[simp] theorem bF_encX (op d a b : BitVec 6) (fn : BitVec 4) (s : BitVec 3) (p : Bool) : bF (encX op d a b fn s p) = b := by
  have hfn := fn.isLt
  have hs := s.isLt
  have hp := Bool.toNat_lt p
  rw [bF, encX_toNat]
  exact field _ (op.toNat * 4096 + d.toNat * 64 + a.toNat * 1) (fn.toNat * 16 + s.toNat * 2 + p.toNat * 1) _ 6 b (by omega) (by omega)

@[simp] theorem fnF_encX (op d a b : BitVec 6) (fn : BitVec 4) (s : BitVec 3) (p : Bool) : fnF (encX op d a b fn s p) = fn := by
  have hs := s.isLt
  have hp := Bool.toNat_lt p
  rw [fnF, encX_toNat]
  exact field _ (op.toNat * 262144 + d.toNat * 4096 + a.toNat * 64 + b.toNat * 1) (s.toNat * 2 + p.toNat * 1) _ 4 fn (by omega) (by omega)

@[simp] theorem scF_encX (op d a b : BitVec 6) (fn : BitVec 4) (s : BitVec 3) (p : Bool) : scF (encX op d a b fn s p) = s := by
  have hp := Bool.toNat_lt p
  rw [scF, encX_toNat]
  exact field _ (op.toNat * 4194304 + d.toNat * 65536 + a.toNat * 1024 + b.toNat * 16 + fn.toNat * 1) (p.toNat * 1) _ 3 s (by omega) (by omega)

@[simp] theorem p0F_encX (op d a b : BitVec 6) (fn : BitVec 4) (s : BitVec 3) (p : Bool) : p0F (encX op d a b fn s p) = p := by
  rw [p0F, encX_toNat]
  exact flag0 _ (op.toNat * 33554432 + d.toNat * 524288 + a.toNat * 8192 + b.toNat * 128 + fn.toNat * 8 + s.toNat * 1)  p (by omega)

theorem encB_toNat (op : BitVec 6) (p : BitVec 3) (n : Bool) (t : BitVec 13) (r : BitVec 9) : (encB op p n t r).toNat = op.toNat * 2 ^ 26 + p.toNat * 2 ^ 23 + n.toNat * 2 ^ 22 + t.toNat * 2 ^ 9 + r.toNat := by
  have hop := op.isLt
  have hp := p.isLt
  have hn := Bool.toNat_lt n
  have ht := t.isLt
  have hr := r.isLt
  rw [encB, BitVec.toNat_ofNat]
  exact Nat.mod_eq_of_lt (by omega)

@[simp] theorem opF_encB (op : BitVec 6) (p : BitVec 3) (n : Bool) (t : BitVec 13) (r : BitVec 9) : opF (encB op p n t r) = op := by
  have hp := p.isLt
  have hn := Bool.toNat_lt n
  have ht := t.isLt
  have hr := r.isLt
  rw [opF, encB_toNat]
  exact field _ (0) (p.toNat * 8388608 + n.toNat * 4194304 + t.toNat * 512 + r.toNat * 1) _ 6 op (by omega) (by omega)

@[simp] theorem bpF_encB (op : BitVec 6) (p : BitVec 3) (n : Bool) (t : BitVec 13) (r : BitVec 9) : bpF (encB op p n t r) = p := by
  have hn := Bool.toNat_lt n
  have ht := t.isLt
  have hr := r.isLt
  rw [bpF, encB_toNat]
  exact field _ (op.toNat * 1) (n.toNat * 4194304 + t.toNat * 512 + r.toNat * 1) _ 3 p (by omega) (by omega)

@[simp] theorem bnF_encB (op : BitVec 6) (p : BitVec 3) (n : Bool) (t : BitVec 13) (r : BitVec 9) : bnF (encB op p n t r) = n := by
  have ht := t.isLt
  have hr := r.isLt
  rw [bnF, encB_toNat]
  exact flag _ (op.toNat * 8 + p.toNat * 1) (t.toNat * 512 + r.toNat * 1) _  n (by omega) (by omega)

@[simp] theorem btF_encB (op : BitVec 6) (p : BitVec 3) (n : Bool) (t : BitVec 13) (r : BitVec 9) : btF (encB op p n t r) = t := by
  have hr := r.isLt
  rw [btF, encB_toNat]
  exact field _ (op.toNat * 16 + p.toNat * 2 + n.toNat * 1) (r.toNat * 1) _ 13 t (by omega) (by omega)

@[simp] theorem brF_encB (op : BitVec 6) (p : BitVec 3) (n : Bool) (t : BitVec 13) (r : BitVec 9) : brF (encB op p n t r) = r := by
  rw [brF, encB_toNat]
  exact field0 _ (op.toNat * 131072 + p.toNat * 16384 + n.toNat * 8192 + t.toNat * 1) 9 r (by omega)

theorem encJ_toNat (op : BitVec 6) (s : BitVec 26) : (encJ op s).toNat = op.toNat * 2 ^ 26 + s.toNat := by
  have hop := op.isLt
  have hs := s.isLt
  rw [encJ, BitVec.toNat_ofNat]
  exact Nat.mod_eq_of_lt (by omega)

@[simp] theorem opF_encJ (op : BitVec 6) (s : BitVec 26) : opF (encJ op s) = op := by
  have hs := s.isLt
  rw [opF, encJ_toNat]
  exact field _ (0) (s.toNat * 1) _ 6 op (by omega) (by omega)

@[simp] theorem s26F_encJ (op : BitVec 6) (s : BitVec 26) : s26F (encJ op s) = s := by
  rw [s26F, encJ_toNat]
  exact field0 _ (op.toNat * 1) 26 s (by omega)

theorem encLoop_toNat (op c : BitVec 6) (l : BitVec 8) : (encLoop op c l).toNat = op.toNat * 2 ^ 26 + c.toNat * 2 ^ 20 + l.toNat * 2 ^ 12 := by
  have hop := op.isLt
  have hc := c.isLt
  have hl := l.isLt
  rw [encLoop, BitVec.toNat_ofNat]
  exact Nat.mod_eq_of_lt (by omega)

@[simp] theorem opF_encLoop (op c : BitVec 6) (l : BitVec 8) : opF (encLoop op c l) = op := by
  have hc := c.isLt
  have hl := l.isLt
  rw [opF, encLoop_toNat]
  exact field _ (0) (c.toNat * 1048576 + l.toNat * 4096) _ 6 op (by omega) (by omega)

@[simp] theorem dF_encLoop (op c : BitVec 6) (l : BitVec 8) : dF (encLoop op c l) = c := by
  have hl := l.isLt
  rw [dF, encLoop_toNat]
  exact field _ (op.toNat * 1) (l.toNat * 4096) _ 6 c (by omega) (by omega)

@[simp] theorem llF_encLoop (op c : BitVec 6) (l : BitVec 8) : llF (encLoop op c l) = l := by
  rw [llF, encLoop_toNat]
  exact field _ (op.toNat * 64 + c.toNat * 1) (0) _ 8 l (by omega) (by omega)

theorem encLoopi_toNat (op : BitVec 6) (c : BitVec 12) (l : BitVec 8) : (encLoopi op c l).toNat = op.toNat * 2 ^ 26 + c.toNat * 2 ^ 14 + l.toNat * 2 ^ 6 := by
  have hop := op.isLt
  have hc := c.isLt
  have hl := l.isLt
  rw [encLoopi, BitVec.toNat_ofNat]
  exact Nat.mod_eq_of_lt (by omega)

@[simp] theorem opF_encLoopi (op : BitVec 6) (c : BitVec 12) (l : BitVec 8) : opF (encLoopi op c l) = op := by
  have hc := c.isLt
  have hl := l.isLt
  rw [opF, encLoopi_toNat]
  exact field _ (0) (c.toNat * 16384 + l.toNat * 64) _ 6 op (by omega) (by omega)

@[simp] theorem lcF_encLoopi (op : BitVec 6) (c : BitVec 12) (l : BitVec 8) : lcF (encLoopi op c l) = c := by
  have hl := l.isLt
  rw [lcF, encLoopi_toNat]
  exact field _ (op.toNat * 1) (l.toNat * 64) _ 12 c (by omega) (by omega)

@[simp] theorem lilF_encLoopi (op : BitVec 6) (c : BitVec 12) (l : BitVec 8) : lilF (encLoopi op c l) = l := by
  rw [lilF, encLoopi_toNat]
  exact field _ (op.toNat * 4096 + c.toNat * 1) (0) _ 8 l (by omega) (by omega)

theorem encC_toNat (op d a b : BitVec 6) (v : BitVec 3) (k : BitVec 4) (r : Bool) : (encC op d a b v k r).toNat = op.toNat * 2 ^ 26 + d.toNat * 2 ^ 20 + a.toNat * 2 ^ 14 + b.toNat * 2 ^ 8 + v.toNat * 2 ^ 5 + k.toNat * 2 + r.toNat := by
  have hop := op.isLt
  have hd := d.isLt
  have ha := a.isLt
  have hb := b.isLt
  have hv := v.isLt
  have hk := k.isLt
  have hr := Bool.toNat_lt r
  rw [encC, BitVec.toNat_ofNat]
  exact Nat.mod_eq_of_lt (by omega)

@[simp] theorem opF_encC (op d a b : BitVec 6) (v : BitVec 3) (k : BitVec 4) (r : Bool) : opF (encC op d a b v k r) = op := by
  have hd := d.isLt
  have ha := a.isLt
  have hb := b.isLt
  have hv := v.isLt
  have hk := k.isLt
  have hr := Bool.toNat_lt r
  rw [opF, encC_toNat]
  exact field _ (0) (d.toNat * 1048576 + a.toNat * 16384 + b.toNat * 256 + v.toNat * 32 + k.toNat * 2 + r.toNat * 1) _ 6 op (by omega) (by omega)

@[simp] theorem dF_encC (op d a b : BitVec 6) (v : BitVec 3) (k : BitVec 4) (r : Bool) : dF (encC op d a b v k r) = d := by
  have ha := a.isLt
  have hb := b.isLt
  have hv := v.isLt
  have hk := k.isLt
  have hr := Bool.toNat_lt r
  rw [dF, encC_toNat]
  exact field _ (op.toNat * 1) (a.toNat * 16384 + b.toNat * 256 + v.toNat * 32 + k.toNat * 2 + r.toNat * 1) _ 6 d (by omega) (by omega)

@[simp] theorem aF_encC (op d a b : BitVec 6) (v : BitVec 3) (k : BitVec 4) (r : Bool) : aF (encC op d a b v k r) = a := by
  have hb := b.isLt
  have hv := v.isLt
  have hk := k.isLt
  have hr := Bool.toNat_lt r
  rw [aF, encC_toNat]
  exact field _ (op.toNat * 64 + d.toNat * 1) (b.toNat * 256 + v.toNat * 32 + k.toNat * 2 + r.toNat * 1) _ 6 a (by omega) (by omega)

@[simp] theorem bF_encC (op d a b : BitVec 6) (v : BitVec 3) (k : BitVec 4) (r : Bool) : bF (encC op d a b v k r) = b := by
  have hv := v.isLt
  have hk := k.isLt
  have hr := Bool.toNat_lt r
  rw [bF, encC_toNat]
  exact field _ (op.toNat * 4096 + d.toNat * 64 + a.toNat * 1) (v.toNat * 32 + k.toNat * 2 + r.toNat * 1) _ 6 b (by omega) (by omega)

@[simp] theorem vF_encC (op d a b : BitVec 6) (v : BitVec 3) (k : BitVec 4) (r : Bool) : vF (encC op d a b v k r) = v := by
  have hk := k.isLt
  have hr := Bool.toNat_lt r
  rw [vF, encC_toNat]
  exact field _ (op.toNat * 262144 + d.toNat * 4096 + a.toNat * 64 + b.toNat * 1) (k.toNat * 2 + r.toNat * 1) _ 3 v (by omega) (by omega)

@[simp] theorem cmdF_encC (op d a b : BitVec 6) (v : BitVec 3) (k : BitVec 4) (r : Bool) : cmdF (encC op d a b v k r) = k := by
  have hr := Bool.toNat_lt r
  rw [cmdF, encC_toNat]
  exact field _ (op.toNat * 2097152 + d.toNat * 32768 + a.toNat * 512 + b.toNat * 8 + v.toNat * 1) (r.toNat * 1) _ 4 k (by omega) (by omega)

@[simp] theorem repF_encC (op d a b : BitVec 6) (v : BitVec 3) (k : BitVec 4) (r : Bool) : repF (encC op d a b v k r) = r := by
  rw [repF, encC_toNat]
  exact flag0 _ (op.toNat * 33554432 + d.toNat * 524288 + a.toNat * 8192 + b.toNat * 128 + v.toNat * 16 + k.toNat * 1)  r (by omega)

theorem decode_01 (w : Word) (h : opF w = 1) : decode w = decodeOp01 w := by
  unfold decode
  rw [h]
  rfl

theorem decode_02 (w : Word) (h : opF w = 2) : decode w = decodeOp02 w := by
  unfold decode
  rw [h]
  rfl

theorem decode_03 (w : Word) (h : opF w = 3) : decode w = decodeOp03 w := by
  unfold decode
  rw [h]
  rfl

theorem decode_04 (w : Word) (h : opF w = 4) : decode w = need [] [] (.imad (dF w) (aF w) (bF w) (cF w) (n1F w) (p0F w)) := by
  unfold decode
  rw [h]
  rfl

theorem decode_05 (w : Word) (h : opF w = 5) : decode w = need [] [] (.iaddi (dF w) (aF w) (immF w) (n1F w) (p0F w)) := by
  unfold decode
  rw [h]
  rfl

theorem decode_06 (w : Word) (h : opF w = 6) : decode w = need [] [] (.iaddi64 (dF w) (aF w) (immF w) (n1F w) (p0F w)) := by
  unfold decode
  rw [h]
  rfl

theorem decode_07 (w : Word) (h : opF w = 7) : decode w = need [] [] (.andi (dF w) (aF w) (immF w) (n1F w) (p0F w)) := by
  unfold decode
  rw [h]
  rfl

theorem decode_08 (w : Word) (h : opF w = 8) : decode w = need [] [] (.ori (dF w) (aF w) (immF w) (n1F w) (p0F w)) := by
  unfold decode
  rw [h]
  rfl

theorem decode_09 (w : Word) (h : opF w = 9) : decode w = need [] [] (.xori (dF w) (aF w) (immF w) (n1F w) (p0F w)) := by
  unfold decode
  rw [h]
  rfl

theorem decode_0A (w : Word) (h : opF w = 10) : decode w = need [] [decide ((immF w).toNat / 64 % 4 = 0)] (.shfi (dF w) (aF w) (BitVec.ofNat 4 ((immF w).toNat / 256)) ((immF w).setWidth 6) (n1F w) (p0F w)) := by
  unfold decode
  rw [h]
  rfl

theorem decode_0B (w : Word) (h : opF w = 11) : decode w = need [] [] (.lui (dF w) (imm20F w)) := by
  unfold decode
  rw [h]
  rfl

theorem decode_0C (w : Word) (h : opF w = 12) : decode w = need [] [] (.auipc (dF w) (imm20F w)) := by
  unfold decode
  rw [h]
  rfl

theorem decode_0D (w : Word) (h : opF w = 13) : decode w = decodeOp0D w := by
  unfold decode
  rw [h]
  rfl

theorem decode_0E (w : Word) (h : opF w = 14) : decode w = need [] [] (.ffma (dF w) (aF w) (bF w) (cF w) (n1F w) (p0F w)) := by
  unfold decode
  rw [h]
  rfl

theorem decode_0F (w : Word) (h : opF w = 15) : decode w = need [] [] (.ffms (dF w) (aF w) (bF w) (cF w) (n1F w) (p0F w)) := by
  unfold decode
  rw [h]
  rfl

theorem decode_10 (w : Word) (h : opF w = 16) : decode w = need [] [] (.ffnma (dF w) (aF w) (bF w) (cF w) (n1F w) (p0F w)) := by
  unfold decode
  rw [h]
  rfl

theorem decode_11 (w : Word) (h : opF w = 17) : decode w = decodeOp11 w := by
  unfold decode
  rw [h]
  rfl

theorem decode_12 (w : Word) (h : opF w = 18) : decode w = need [] [] (.dfma (dF w) (aF w) (bF w) (cF w) (n1F w) (p0F w)) := by
  unfold decode
  rw [h]
  rfl

theorem decode_13 (w : Word) (h : opF w = 19) : decode w = need [] [] (.dfms (dF w) (aF w) (bF w) (cF w) (n1F w) (p0F w)) := by
  unfold decode
  rw [h]
  rfl

theorem decode_14 (w : Word) (h : opF w = 20) : decode w = decodeOp14 w := by
  unfold decode
  rw [h]
  rfl

theorem decode_15 (w : Word) (h : opF w = 21) : decode w = need [] [] (.hfma2 (dF w) (aF w) (bF w) (cF w) (n1F w) (p0F w)) := by
  unfold decode
  rw [h]
  rfl

theorem decode_16 (w : Word) (h : opF w = 22) : decode w = decodeOp16 w := by
  unfold decode
  rw [h]
  rfl

theorem decode_17 (w : Word) (h : opF w = 23) : decode w = decodeOp17 w := by
  unfold decode
  rw [h]
  rfl

theorem decode_18 (w : Word) (h : opF w = 24) : decode w = need [decide ((fnF w).toNat ≤ 9)] [] (.cvt (dF w) (aF w) (BitVec.ofNat 4 ((bF w).toNat / 4)) ((bF w).setWidth 2) (fnF w) (nF w) (pF w)) := by
  unfold decode
  rw [h]
  rfl

theorem decode_19 (w : Word) (h : opF w = 25) : decode w = decodeOp19 w := by
  unfold decode
  rw [h]
  rfl

theorem decode_1A (w : Word) (h : opF w = 26) : decode w = need [] [!nF w] (.cmpi (dF w) (aF w) (bF w) (fnF w) (nF w) (pF w)) := by
  unfold decode
  rw [h]
  rfl

theorem decode_1B (w : Word) (h : opF w = 27) : decode w = need [decide ((fnF w).toNat ≤ 13)] [!nF w] (.cmpf (dF w) (aF w) (bF w) (fnF w) (nF w) (pF w)) := by
  unfold decode
  rw [h]
  rfl

theorem decode_1C (w : Word) (h : opF w = 28) : decode w = need [decide ((fnF w).toNat ≤ 13)] [!nF w] (.cmpd (dF w) (aF w) (bF w) (fnF w) (nF w) (pF w)) := by
  unfold decode
  rw [h]
  rfl

theorem decode_1D (w : Word) (h : opF w = 29) : decode w = (if (fnF w).toNat < 8 then need [] [!nF w] (.cmph2 (dF w) (aF w) (bF w) ((fnF w).setWidth 3) (nF w) (pF w)) else need [decide (((fnF w).setWidth 3).toNat ≤ 5)] [!nF w] (.cmpz (dF w) (aF w) (bF w) ((fnF w).setWidth 3) (nF w) (pF w))) := by
  unfold decode
  rw [h]
  rfl

theorem decode_1E (w : Word) (h : opF w = 30) : decode w = decodeOp1E w := by
  unfold decode
  rw [h]
  rfl

theorem decode_1F (w : Word) (h : opF w = 31) : decode w = decodeOp1F w := by
  unfold decode
  rw [h]
  rfl

theorem decode_20 (w : Word) (h : opF w = 32) : decode w = decodeOp20 w := by
  unfold decode
  rw [h]
  rfl

theorem decode_21 (w : Word) (h : opF w = 33) : decode w = need [] [] (.ld (dF w) (aF w) (offF w) (szF w) (dcF w) (p0F w)) := by
  unfold decode
  rw [h]
  rfl

theorem decode_22 (w : Word) (h : opF w = 34) : decode w = need [] [] (.st (dF w) (aF w) (offF w) (szF w) (dcF w) (p0F w)) := by
  unfold decode
  rw [h]
  rfl

theorem decode_23 (w : Word) (h : opF w = 35) : decode w = need [] [] (.lds (dF w) (aF w) (offF w) (szF w) (dcF w) (p0F w)) := by
  unfold decode
  rw [h]
  rfl

theorem decode_24 (w : Word) (h : opF w = 36) : decode w = need [] [] (.sts (dF w) (aF w) (offF w) (szF w) (dcF w) (p0F w)) := by
  unfold decode
  rw [h]
  rfl

theorem decode_25 (w : Word) (h : opF w = 37) : decode w = need [] [decide (2 ≤ (szF w).toNat)] (.ldt (dF w) (aF w) (offF w) (decide ((szF w).toNat = 3)) (dcF w) (p0F w)) := by
  unfold decode
  rw [h]
  rfl

theorem decode_26 (w : Word) (h : opF w = 38) : decode w = need [] [decide (2 ≤ (szF w).toNat)] (.stt (dF w) (aF w) (offF w) (decide ((szF w).toNat = 3)) (dcF w) (p0F w)) := by
  unfold decode
  rw [h]
  rfl

theorem decode_27 (w : Word) (h : opF w = 39) : decode w = need [] [] (.ldc (dF w) (aF w) (offF w) (szF w) (dcF w) (p0F w)) := by
  unfold decode
  rw [h]
  rfl

theorem decode_28 (w : Word) (h : opF w = 40) : decode w = need [] [decide (dF w = 0), decide (dcF w = 0)] (.prf (aF w) (offF w) (szF w) (p0F w)) := by
  unfold decode
  rw [h]
  rfl

theorem decode_29 (w : Word) (h : opF w = 41) : decode w = need [decide ((fnF w).toNat ≤ 13)] [] (.atom (dF w) (aF w) (bF w) (fnF w) (scF w) (p0F w)) := by
  unfold decode
  rw [h]
  rfl

theorem decode_2A (w : Word) (h : opF w = 42) : decode w = need [((fnF w).toNat ≤ 12 && (fnF w).toNat != 8 && (fnF w).toNat != 9)] [decide (dF w = 0)] (.red (aF w) (bF w) (fnF w) (scF w) (p0F w)) := by
  unfold decode
  rw [h]
  rfl

theorem decode_2B (w : Word) (h : opF w = 43) : decode w = decodeOp2B w := by
  unfold decode
  rw [h]
  rfl

theorem decode_2C (w : Word) (h : opF w = 44) : decode w = decodeOp2C w := by
  unfold decode
  rw [h]
  rfl

theorem decode_2D (w : Word) (h : opF w = 45) : decode w = decodeOp2D w := by
  unfold decode
  rw [h]
  rfl

theorem decode_2E (w : Word) (h : opF w = 46) : decode w = need [] [] (.bra (bpF w) (bnF w) (btF w) (brF w)) := by
  unfold decode
  rw [h]
  rfl

theorem decode_2F (w : Word) (h : opF w = 47) : decode w = need [] [] (.call (s26F w)) := by
  unfold decode
  rw [h]
  rfl

theorem decode_30 (w : Word) (h : opF w = 48) : decode w = decodeOp30 w := by
  unfold decode
  rw [h]
  rfl

theorem decode_31 (w : Word) (h : opF w = 49) : decode w = need [decide (w.toNat % 4096 = 0)] [] (.loop (dF w) (llF w)) := by
  unfold decode
  rw [h]
  rfl

theorem decode_32 (w : Word) (h : opF w = 50) : decode w = need [decide (w.toNat % 64 = 0)] [] (.loopi (lcF w) (lilF w)) := by
  unfold decode
  rw [h]
  rfl

theorem decode_33 (w : Word) (h : opF w = 51) : decode w = decodeOp33 w := by
  unfold decode
  rw [h]
  rfl

theorem decode_38 (w : Word) (h : opF w = 56) : decode w = decodeOp38 w := by
  unfold decode
  rw [h]
  rfl

theorem decode_39 (w : Word) (h : opF w = 57) : decode w = decodeOp39 w := by
  unfold decode
  rw [h]
  rfl

theorem decode_3A (w : Word) (h : opF w = 58) : decode w = decodeOp3A w := by
  unfold decode
  rw [h]
  rfl

theorem decode_3B (w : Word) (h : opF w = 59) : decode w = decodeOp3B w := by
  unfold decode
  rw [h]
  rfl

theorem decode_3C (w : Word) (h : opF w = 60) : decode w = decodeOp3C w := by
  unfold decode
  rw [h]
  rfl

theorem decode_3D (w : Word) (h : opF w = 61) : decode w = decodeOp3D w := by
  unfold decode
  rw [h]
  rfl

theorem decode_3E (w : Word) (h : opF w = 62) : decode w = decodeOp3E w := by
  unfold decode
  rw [h]
  rfl

theorem decode_3F (w : Word) (h : opF w = 63) : decode w = decodeOp3F w := by
  unfold decode
  rw [h]
  rfl

end Sys2Proof.Laws.Words
end

