-- ==== Sys2Proof/Laws/PerInstr.lean ====
section
/-! SUPPORT. One law for each instruction (R34, R44-R47): the word of a well-formed instruction decodes to it. -/

namespace Sys2Proof.Laws.RoundTrip

set_option Elab.async false

open Sys2Proof Sys2Proof.Laws.Words

/-- The word of a well-formed instruction decodes to it; the word of `RDVZ` in an engine program in the decoder of engine programs. -/
def Statement (i : Instr) : Prop :=
  wellFormed i = true → ∀ w, encode i = some w →
    (match i with
      | .rdvzEngine _ _ _ _ => decodeEngine w
      | _ => decode w) = .ok i

theorem iadd (d a b : BitVec 6) (n : Bool) (p : BitVec 3) : Statement (.iadd d a b n p) := by
  intro wf w h
  have e : (encA 1 d a (b) (0) n p) = w := Option.some.inj h
  subst e
  refine (decode_01 _ (by simp)).trans ?_
  simp [decodeOp01, need]

theorem isub (d a b : BitVec 6) (n : Bool) (p : BitVec 3) : Statement (.isub d a b n p) := by
  intro wf w h
  have e : (encA 1 d a (b) (1) n p) = w := Option.some.inj h
  subst e
  refine (decode_01 _ (by simp)).trans ?_
  simp [decodeOp01, need]

theorem imul (d a b : BitVec 6) (n : Bool) (p : BitVec 3) : Statement (.imul d a b n p) := by
  intro wf w h
  have e : (encA 1 d a (b) (2) n p) = w := Option.some.inj h
  subst e
  refine (decode_01 _ (by simp)).trans ?_
  simp [decodeOp01, need]

theorem imulh (d a b : BitVec 6) (n : Bool) (p : BitVec 3) : Statement (.imulh d a b n p) := by
  intro wf w h
  have e : (encA 1 d a (b) (3) n p) = w := Option.some.inj h
  subst e
  refine (decode_01 _ (by simp)).trans ?_
  simp [decodeOp01, need]

theorem imulhu (d a b : BitVec 6) (n : Bool) (p : BitVec 3) : Statement (.imulhu d a b n p) := by
  intro wf w h
  have e : (encA 1 d a (b) (4) n p) = w := Option.some.inj h
  subst e
  refine (decode_01 _ (by simp)).trans ?_
  simp [decodeOp01, need]

theorem and (d a b : BitVec 6) (n : Bool) (p : BitVec 3) : Statement (.and d a b n p) := by
  intro wf w h
  have e : (encA 1 d a (b) (5) n p) = w := Option.some.inj h
  subst e
  refine (decode_01 _ (by simp)).trans ?_
  simp [decodeOp01, need]

theorem or (d a b : BitVec 6) (n : Bool) (p : BitVec 3) : Statement (.or d a b n p) := by
  intro wf w h
  have e : (encA 1 d a (b) (6) n p) = w := Option.some.inj h
  subst e
  refine (decode_01 _ (by simp)).trans ?_
  simp [decodeOp01, need]

theorem xor (d a b : BitVec 6) (n : Bool) (p : BitVec 3) : Statement (.xor d a b n p) := by
  intro wf w h
  have e : (encA 1 d a (b) (7) n p) = w := Option.some.inj h
  subst e
  refine (decode_01 _ (by simp)).trans ?_
  simp [decodeOp01, need]

theorem andn (d a b : BitVec 6) (n : Bool) (p : BitVec 3) : Statement (.andn d a b n p) := by
  intro wf w h
  have e : (encA 1 d a (b) (8) n p) = w := Option.some.inj h
  subst e
  refine (decode_01 _ (by simp)).trans ?_
  simp [decodeOp01, need]

theorem shl (d a b : BitVec 6) (n : Bool) (p : BitVec 3) : Statement (.shl d a b n p) := by
  intro wf w h
  have e : (encA 1 d a (b) (9) n p) = w := Option.some.inj h
  subst e
  refine (decode_01 _ (by simp)).trans ?_
  simp [decodeOp01, need]

theorem shr (d a b : BitVec 6) (n : Bool) (p : BitVec 3) : Statement (.shr d a b n p) := by
  intro wf w h
  have e : (encA 1 d a (b) (10) n p) = w := Option.some.inj h
  subst e
  refine (decode_01 _ (by simp)).trans ?_
  simp [decodeOp01, need]

theorem sra (d a b : BitVec 6) (n : Bool) (p : BitVec 3) : Statement (.sra d a b n p) := by
  intro wf w h
  have e : (encA 1 d a (b) (11) n p) = w := Option.some.inj h
  subst e
  refine (decode_01 _ (by simp)).trans ?_
  simp [decodeOp01, need]

theorem rotl (d a b : BitVec 6) (n : Bool) (p : BitVec 3) : Statement (.rotl d a b n p) := by
  intro wf w h
  have e : (encA 1 d a (b) (12) n p) = w := Option.some.inj h
  subst e
  refine (decode_01 _ (by simp)).trans ?_
  simp [decodeOp01, need]

theorem min (d a b : BitVec 6) (n : Bool) (p : BitVec 3) : Statement (.min d a b n p) := by
  intro wf w h
  have e : (encA 1 d a (b) (13) n p) = w := Option.some.inj h
  subst e
  refine (decode_01 _ (by simp)).trans ?_
  simp [decodeOp01, need]

theorem max (d a b : BitVec 6) (n : Bool) (p : BitVec 3) : Statement (.max d a b n p) := by
  intro wf w h
  have e : (encA 1 d a (b) (14) n p) = w := Option.some.inj h
  subst e
  refine (decode_01 _ (by simp)).trans ?_
  simp [decodeOp01, need]

theorem absd (d a b : BitVec 6) (n : Bool) (p : BitVec 3) : Statement (.absd d a b n p) := by
  intro wf w h
  have e : (encA 1 d a (b) (15) n p) = w := Option.some.inj h
  subst e
  refine (decode_01 _ (by simp)).trans ?_
  simp [decodeOp01, need]

theorem minu (d a b : BitVec 6) (n : Bool) (p : BitVec 3) : Statement (.minu d a b n p) := by
  intro wf w h
  have e : (encA 2 d a (b) (0) n p) = w := Option.some.inj h
  subst e
  refine (decode_02 _ (by simp)).trans ?_
  simp [decodeOp02, need]

theorem maxu (d a b : BitVec 6) (n : Bool) (p : BitVec 3) : Statement (.maxu d a b n p) := by
  intro wf w h
  have e : (encA 2 d a (b) (1) n p) = w := Option.some.inj h
  subst e
  refine (decode_02 _ (by simp)).trans ?_
  simp [decodeOp02, need]

theorem popc (d a : BitVec 6) (n : Bool) (p : BitVec 3) : Statement (.popc d a n p) := by
  intro wf w h
  have e : (encA 2 d a (0) (2) n p) = w := Option.some.inj h
  subst e
  refine (decode_02 _ (by simp)).trans ?_
  simp [decodeOp02, need]

theorem clz (d a : BitVec 6) (n : Bool) (p : BitVec 3) : Statement (.clz d a n p) := by
  intro wf w h
  have e : (encA 2 d a (0) (3) n p) = w := Option.some.inj h
  subst e
  refine (decode_02 _ (by simp)).trans ?_
  simp [decodeOp02, need]

theorem ctz (d a : BitVec 6) (n : Bool) (p : BitVec 3) : Statement (.ctz d a n p) := by
  intro wf w h
  have e : (encA 2 d a (0) (4) n p) = w := Option.some.inj h
  subst e
  refine (decode_02 _ (by simp)).trans ?_
  simp [decodeOp02, need]

theorem brev (d a : BitVec 6) (n : Bool) (p : BitVec 3) : Statement (.brev d a n p) := by
  intro wf w h
  have e : (encA 2 d a (0) (5) n p) = w := Option.some.inj h
  subst e
  refine (decode_02 _ (by simp)).trans ?_
  simp [decodeOp02, need]

theorem bfx (d a b : BitVec 6) (n : Bool) (p : BitVec 3) : Statement (.bfx d a b n p) := by
  intro wf w h
  have e : (encA 2 d a (b) (6) n p) = w := Option.some.inj h
  subst e
  refine (decode_02 _ (by simp)).trans ?_
  simp [decodeOp02, need]

theorem bfi (d a b : BitVec 6) (n : Bool) (p : BitVec 3) : Statement (.bfi d a b n p) := by
  intro wf w h
  have e : (encA 2 d a (b) (7) n p) = w := Option.some.inj h
  subst e
  refine (decode_02 _ (by simp)).trans ?_
  simp [decodeOp02, need]

theorem sel (d a b : BitVec 6) (n : Bool) (s : BitVec 3) : Statement (.sel d a b n s) := by
  intro wf w h
  have e : (encA 2 d a (b) (8) n s) = w := Option.some.inj h
  subst e
  refine (decode_02 _ (by simp)).trans ?_
  simp [decodeOp02, need]

theorem lea (d a b : BitVec 6) (n : Bool) (p : BitVec 3) : Statement (.lea d a b n p) := by
  intro wf w h
  have e : (encA 2 d a (b) (9) n p) = w := Option.some.inj h
  subst e
  refine (decode_02 _ (by simp)).trans ?_
  simp [decodeOp02, need]

theorem idiv (d a b : BitVec 6) (n : Bool) (p : BitVec 3) : Statement (.idiv d a b n p) := by
  intro wf w h
  have e : (encA 2 d a (b) (10) n p) = w := Option.some.inj h
  subst e
  refine (decode_02 _ (by simp)).trans ?_
  simp [decodeOp02, need]

theorem idivu (d a b : BitVec 6) (n : Bool) (p : BitVec 3) : Statement (.idivu d a b n p) := by
  intro wf w h
  have e : (encA 2 d a (b) (11) n p) = w := Option.some.inj h
  subst e
  refine (decode_02 _ (by simp)).trans ?_
  simp [decodeOp02, need]

theorem irem (d a b : BitVec 6) (n : Bool) (p : BitVec 3) : Statement (.irem d a b n p) := by
  intro wf w h
  have e : (encA 2 d a (b) (12) n p) = w := Option.some.inj h
  subst e
  refine (decode_02 _ (by simp)).trans ?_
  simp [decodeOp02, need]

theorem iremu (d a b : BitVec 6) (n : Bool) (p : BitVec 3) : Statement (.iremu d a b n p) := by
  intro wf w h
  have e : (encA 2 d a (b) (13) n p) = w := Option.some.inj h
  subst e
  refine (decode_02 _ (by simp)).trans ?_
  simp [decodeOp02, need]

theorem iadd64 (d a b : BitVec 6) (n : Bool) (p : BitVec 3) : Statement (.iadd64 d a b n p) := by
  intro wf w h
  have e : (encA 3 d a (b) (0) n p) = w := Option.some.inj h
  subst e
  refine (decode_03 _ (by simp)).trans ?_
  simp [decodeOp03, need]

theorem isub64 (d a b : BitVec 6) (n : Bool) (p : BitVec 3) : Statement (.isub64 d a b n p) := by
  intro wf w h
  have e : (encA 3 d a (b) (1) n p) = w := Option.some.inj h
  subst e
  refine (decode_03 _ (by simp)).trans ?_
  simp [decodeOp03, need]

theorem shl64 (d a b : BitVec 6) (n : Bool) (p : BitVec 3) : Statement (.shl64 d a b n p) := by
  intro wf w h
  have e : (encA 3 d a (b) (2) n p) = w := Option.some.inj h
  subst e
  refine (decode_03 _ (by simp)).trans ?_
  simp [decodeOp03, need]

theorem shr64 (d a b : BitVec 6) (n : Bool) (p : BitVec 3) : Statement (.shr64 d a b n p) := by
  intro wf w h
  have e : (encA 3 d a (b) (3) n p) = w := Option.some.inj h
  subst e
  refine (decode_03 _ (by simp)).trans ?_
  simp [decodeOp03, need]

theorem sra64 (d a b : BitVec 6) (n : Bool) (p : BitVec 3) : Statement (.sra64 d a b n p) := by
  intro wf w h
  have e : (encA 3 d a (b) (4) n p) = w := Option.some.inj h
  subst e
  refine (decode_03 _ (by simp)).trans ?_
  simp [decodeOp03, need]

theorem mov64 (d a : BitVec 6) (n : Bool) (p : BitVec 3) : Statement (.mov64 d a n p) := by
  intro wf w h
  have e : (encA 3 d a (0) (5) n p) = w := Option.some.inj h
  subst e
  refine (decode_03 _ (by simp)).trans ?_
  simp [decodeOp03, need]

theorem lea64 (d a b : BitVec 6) (n : Bool) (p : BitVec 3) : Statement (.lea64 d a b n p) := by
  intro wf w h
  have e : (encA 3 d a (b) (6) n p) = w := Option.some.inj h
  subst e
  refine (decode_03 _ (by simp)).trans ?_
  simp [decodeOp03, need]

theorem imul64 (d a b : BitVec 6) (n : Bool) (p : BitVec 3) : Statement (.imul64 d a b n p) := by
  intro wf w h
  have e : (encA 3 d a (b) (7) n p) = w := Option.some.inj h
  subst e
  refine (decode_03 _ (by simp)).trans ?_
  simp [decodeOp03, need]

theorem imad (d a b c : BitVec 6) (n p : Bool) : Statement (.imad d a b c n p) := by
  intro wf w h
  have e : (encF 4 d a b c n p) = w := Option.some.inj h
  subst e
  refine (decode_04 _ (by simp)).trans ?_
  simp [need]

theorem iaddi (d a : BitVec 6) (i : BitVec 12) (n p : Bool) : Statement (.iaddi d a i n p) := by
  intro wf w h
  have e : (encI 5 d a i n p) = w := Option.some.inj h
  subst e
  refine (decode_05 _ (by simp)).trans ?_
  simp [need]

theorem iaddi64 (d a : BitVec 6) (i : BitVec 12) (n p : Bool) : Statement (.iaddi64 d a i n p) := by
  intro wf w h
  have e : (encI 6 d a i n p) = w := Option.some.inj h
  subst e
  refine (decode_06 _ (by simp)).trans ?_
  simp [need]

theorem andi (d a : BitVec 6) (i : BitVec 12) (n p : Bool) : Statement (.andi d a i n p) := by
  intro wf w h
  have e : (encI 7 d a i n p) = w := Option.some.inj h
  subst e
  refine (decode_07 _ (by simp)).trans ?_
  simp [need]

theorem ori (d a : BitVec 6) (i : BitVec 12) (n p : Bool) : Statement (.ori d a i n p) := by
  intro wf w h
  have e : (encI 8 d a i n p) = w := Option.some.inj h
  subst e
  refine (decode_08 _ (by simp)).trans ?_
  simp [need]

theorem xori (d a : BitVec 6) (i : BitVec 12) (n p : Bool) : Statement (.xori d a i n p) := by
  intro wf w h
  have e : (encI 9 d a i n p) = w := Option.some.inj h
  subst e
  refine (decode_09 _ (by simp)).trans ?_
  simp [need]

theorem shfi (d a : BitVec 6) (k : BitVec 4) (m : BitVec 6) (n p : Bool) : Statement (.shfi d a k m n p) := by
  intro wf w h
  have e : (encI 10 d a (BitVec.ofNat 12 (k.toNat * 256 + m.toNat)) n p) = w := Option.some.inj h
  subst e
  refine (decode_0A _ (by simp)).trans ?_
  simp [need]
  have hk := k.isLt
  have hm := m.isLt
  have e : (k.toNat * 256 + m.toNat) % 4096 = k.toNat * 256 + m.toNat := Nat.mod_eq_of_lt (by omega)
  rw [e, if_pos (by omega), show (k.toNat * 256 + m.toNat) / 256 = k.toNat by omega]
  congr 2
  · exact BitVec.eq_of_toNat_eq (by simp)
  · exact BitVec.eq_of_toNat_eq (by simp; omega)

theorem lui (d : BitVec 6) (i : BitVec 20) : Statement (.lui d i) := by
  intro wf w h
  have e : (encU 11 d i) = w := Option.some.inj h
  subst e
  refine (decode_0B _ (by simp)).trans ?_
  simp [need]

theorem auipc (d : BitVec 6) (i : BitVec 20) : Statement (.auipc d i) := by
  intro wf w h
  have e : (encU 12 d i) = w := Option.some.inj h
  subst e
  refine (decode_0C _ (by simp)).trans ?_
  simp [need]

theorem fadd (d a b : BitVec 6) (n : Bool) (p : BitVec 3) : Statement (.fadd d a b n p) := by
  intro wf w h
  have e : (encA 13 d a (b) (0) n p) = w := Option.some.inj h
  subst e
  refine (decode_0D _ (by simp)).trans ?_
  simp [decodeOp0D, need]

theorem fsub (d a b : BitVec 6) (n : Bool) (p : BitVec 3) : Statement (.fsub d a b n p) := by
  intro wf w h
  have e : (encA 13 d a (b) (1) n p) = w := Option.some.inj h
  subst e
  refine (decode_0D _ (by simp)).trans ?_
  simp [decodeOp0D, need]

theorem fmul (d a b : BitVec 6) (n : Bool) (p : BitVec 3) : Statement (.fmul d a b n p) := by
  intro wf w h
  have e : (encA 13 d a (b) (2) n p) = w := Option.some.inj h
  subst e
  refine (decode_0D _ (by simp)).trans ?_
  simp [decodeOp0D, need]

theorem fdiv (d a b : BitVec 6) (n : Bool) (p : BitVec 3) : Statement (.fdiv d a b n p) := by
  intro wf w h
  have e : (encA 13 d a (b) (3) n p) = w := Option.some.inj h
  subst e
  refine (decode_0D _ (by simp)).trans ?_
  simp [decodeOp0D, need]

theorem fsqrt (d a : BitVec 6) (n : Bool) (p : BitVec 3) : Statement (.fsqrt d a n p) := by
  intro wf w h
  have e : (encA 13 d a (0) (4) n p) = w := Option.some.inj h
  subst e
  refine (decode_0D _ (by simp)).trans ?_
  simp [decodeOp0D, need]

theorem fmin (d a b : BitVec 6) (n : Bool) (p : BitVec 3) : Statement (.fmin d a b n p) := by
  intro wf w h
  have e : (encA 13 d a (b) (5) n p) = w := Option.some.inj h
  subst e
  refine (decode_0D _ (by simp)).trans ?_
  simp [decodeOp0D, need]

theorem fmax (d a b : BitVec 6) (n : Bool) (p : BitVec 3) : Statement (.fmax d a b n p) := by
  intro wf w h
  have e : (encA 13 d a (b) (6) n p) = w := Option.some.inj h
  subst e
  refine (decode_0D _ (by simp)).trans ?_
  simp [decodeOp0D, need]

theorem fminm (d a b : BitVec 6) (n : Bool) (p : BitVec 3) : Statement (.fminm d a b n p) := by
  intro wf w h
  have e : (encA 13 d a (b) (7) n p) = w := Option.some.inj h
  subst e
  refine (decode_0D _ (by simp)).trans ?_
  simp [decodeOp0D, need]

theorem fmaxm (d a b : BitVec 6) (n : Bool) (p : BitVec 3) : Statement (.fmaxm d a b n p) := by
  intro wf w h
  have e : (encA 13 d a (b) (8) n p) = w := Option.some.inj h
  subst e
  refine (decode_0D _ (by simp)).trans ?_
  simp [decodeOp0D, need]

theorem fabs (d a : BitVec 6) (n : Bool) (p : BitVec 3) : Statement (.fabs d a n p) := by
  intro wf w h
  have e : (encA 13 d a (0) (9) n p) = w := Option.some.inj h
  subst e
  refine (decode_0D _ (by simp)).trans ?_
  simp [decodeOp0D, need]

theorem fneg (d a : BitVec 6) (n : Bool) (p : BitVec 3) : Statement (.fneg d a n p) := by
  intro wf w h
  have e : (encA 13 d a (0) (10) n p) = w := Option.some.inj h
  subst e
  refine (decode_0D _ (by simp)).trans ?_
  simp [decodeOp0D, need]

theorem fcpys (d a b : BitVec 6) (n : Bool) (p : BitVec 3) : Statement (.fcpys d a b n p) := by
  intro wf w h
  have e : (encA 13 d a (b) (11) n p) = w := Option.some.inj h
  subst e
  refine (decode_0D _ (by simp)).trans ?_
  simp [decodeOp0D, need]

theorem frnd (d a : BitVec 6) (m : BitVec 2) (n : Bool) (p : BitVec 3) : Statement (.frnd d a m n p) := by
  intro wf w h
  have e : (encA 13 d a (m.setWidth 6) (12) n p) = w := Option.some.inj h
  subst e
  refine (decode_0D _ (by simp)).trans ?_
  simp [decodeOp0D, need]
  have hm := m.isLt
  omega

theorem fclass (d a : BitVec 6) (n : Bool) (p : BitVec 3) : Statement (.fclass d a n p) := by
  intro wf w h
  have e : (encA 13 d a (0) (13) n p) = w := Option.some.inj h
  subst e
  refine (decode_0D _ (by simp)).trans ?_
  simp [decodeOp0D, need]

theorem ffma (d a b c : BitVec 6) (n p : Bool) : Statement (.ffma d a b c n p) := by
  intro wf w h
  have e : (encF 14 d a b c n p) = w := Option.some.inj h
  subst e
  refine (decode_0E _ (by simp)).trans ?_
  simp [need]

theorem ffms (d a b c : BitVec 6) (n p : Bool) : Statement (.ffms d a b c n p) := by
  intro wf w h
  have e : (encF 15 d a b c n p) = w := Option.some.inj h
  subst e
  refine (decode_0F _ (by simp)).trans ?_
  simp [need]

theorem ffnma (d a b c : BitVec 6) (n p : Bool) : Statement (.ffnma d a b c n p) := by
  intro wf w h
  have e : (encF 16 d a b c n p) = w := Option.some.inj h
  subst e
  refine (decode_10 _ (by simp)).trans ?_
  simp [need]

theorem dadd (d a b : BitVec 6) (n : Bool) (p : BitVec 3) : Statement (.dadd d a b n p) := by
  intro wf w h
  have e : (encA 17 d a (b) (0) n p) = w := Option.some.inj h
  subst e
  refine (decode_11 _ (by simp)).trans ?_
  simp [decodeOp11, need]

theorem dsub (d a b : BitVec 6) (n : Bool) (p : BitVec 3) : Statement (.dsub d a b n p) := by
  intro wf w h
  have e : (encA 17 d a (b) (1) n p) = w := Option.some.inj h
  subst e
  refine (decode_11 _ (by simp)).trans ?_
  simp [decodeOp11, need]

theorem dmul (d a b : BitVec 6) (n : Bool) (p : BitVec 3) : Statement (.dmul d a b n p) := by
  intro wf w h
  have e : (encA 17 d a (b) (2) n p) = w := Option.some.inj h
  subst e
  refine (decode_11 _ (by simp)).trans ?_
  simp [decodeOp11, need]

theorem ddiv (d a b : BitVec 6) (n : Bool) (p : BitVec 3) : Statement (.ddiv d a b n p) := by
  intro wf w h
  have e : (encA 17 d a (b) (3) n p) = w := Option.some.inj h
  subst e
  refine (decode_11 _ (by simp)).trans ?_
  simp [decodeOp11, need]

theorem dsqrt (d a : BitVec 6) (n : Bool) (p : BitVec 3) : Statement (.dsqrt d a n p) := by
  intro wf w h
  have e : (encA 17 d a (0) (4) n p) = w := Option.some.inj h
  subst e
  refine (decode_11 _ (by simp)).trans ?_
  simp [decodeOp11, need]

theorem dmin (d a b : BitVec 6) (n : Bool) (p : BitVec 3) : Statement (.dmin d a b n p) := by
  intro wf w h
  have e : (encA 17 d a (b) (5) n p) = w := Option.some.inj h
  subst e
  refine (decode_11 _ (by simp)).trans ?_
  simp [decodeOp11, need]

theorem dmax (d a b : BitVec 6) (n : Bool) (p : BitVec 3) : Statement (.dmax d a b n p) := by
  intro wf w h
  have e : (encA 17 d a (b) (6) n p) = w := Option.some.inj h
  subst e
  refine (decode_11 _ (by simp)).trans ?_
  simp [decodeOp11, need]

theorem dminm (d a b : BitVec 6) (n : Bool) (p : BitVec 3) : Statement (.dminm d a b n p) := by
  intro wf w h
  have e : (encA 17 d a (b) (7) n p) = w := Option.some.inj h
  subst e
  refine (decode_11 _ (by simp)).trans ?_
  simp [decodeOp11, need]

theorem dmaxm (d a b : BitVec 6) (n : Bool) (p : BitVec 3) : Statement (.dmaxm d a b n p) := by
  intro wf w h
  have e : (encA 17 d a (b) (8) n p) = w := Option.some.inj h
  subst e
  refine (decode_11 _ (by simp)).trans ?_
  simp [decodeOp11, need]

theorem dabs (d a : BitVec 6) (n : Bool) (p : BitVec 3) : Statement (.dabs d a n p) := by
  intro wf w h
  have e : (encA 17 d a (0) (9) n p) = w := Option.some.inj h
  subst e
  refine (decode_11 _ (by simp)).trans ?_
  simp [decodeOp11, need]

theorem dneg (d a : BitVec 6) (n : Bool) (p : BitVec 3) : Statement (.dneg d a n p) := by
  intro wf w h
  have e : (encA 17 d a (0) (10) n p) = w := Option.some.inj h
  subst e
  refine (decode_11 _ (by simp)).trans ?_
  simp [decodeOp11, need]

theorem dcpys (d a b : BitVec 6) (n : Bool) (p : BitVec 3) : Statement (.dcpys d a b n p) := by
  intro wf w h
  have e : (encA 17 d a (b) (11) n p) = w := Option.some.inj h
  subst e
  refine (decode_11 _ (by simp)).trans ?_
  simp [decodeOp11, need]

theorem drnd (d a : BitVec 6) (m : BitVec 2) (n : Bool) (p : BitVec 3) : Statement (.drnd d a m n p) := by
  intro wf w h
  have e : (encA 17 d a (m.setWidth 6) (12) n p) = w := Option.some.inj h
  subst e
  refine (decode_11 _ (by simp)).trans ?_
  simp [decodeOp11, need]
  have hm := m.isLt
  omega

theorem dclass (d a : BitVec 6) (n : Bool) (p : BitVec 3) : Statement (.dclass d a n p) := by
  intro wf w h
  have e : (encA 17 d a (0) (13) n p) = w := Option.some.inj h
  subst e
  refine (decode_11 _ (by simp)).trans ?_
  simp [decodeOp11, need]

theorem dfma (d a b c : BitVec 6) (n p : Bool) : Statement (.dfma d a b c n p) := by
  intro wf w h
  have e : (encF 18 d a b c n p) = w := Option.some.inj h
  subst e
  refine (decode_12 _ (by simp)).trans ?_
  simp [need]

theorem dfms (d a b c : BitVec 6) (n p : Bool) : Statement (.dfms d a b c n p) := by
  intro wf w h
  have e : (encF 19 d a b c n p) = w := Option.some.inj h
  subst e
  refine (decode_13 _ (by simp)).trans ?_
  simp [need]

theorem hadd2 (d a b : BitVec 6) (n : Bool) (p : BitVec 3) : Statement (.hadd2 d a b n p) := by
  intro wf w h
  have e : (encA 20 d a (b) (0) n p) = w := Option.some.inj h
  subst e
  refine (decode_14 _ (by simp)).trans ?_
  simp [decodeOp14, need]

theorem hsub2 (d a b : BitVec 6) (n : Bool) (p : BitVec 3) : Statement (.hsub2 d a b n p) := by
  intro wf w h
  have e : (encA 20 d a (b) (1) n p) = w := Option.some.inj h
  subst e
  refine (decode_14 _ (by simp)).trans ?_
  simp [decodeOp14, need]

theorem hmul2 (d a b : BitVec 6) (n : Bool) (p : BitVec 3) : Statement (.hmul2 d a b n p) := by
  intro wf w h
  have e : (encA 20 d a (b) (2) n p) = w := Option.some.inj h
  subst e
  refine (decode_14 _ (by simp)).trans ?_
  simp [decodeOp14, need]

theorem hmin2 (d a b : BitVec 6) (n : Bool) (p : BitVec 3) : Statement (.hmin2 d a b n p) := by
  intro wf w h
  have e : (encA 20 d a (b) (3) n p) = w := Option.some.inj h
  subst e
  refine (decode_14 _ (by simp)).trans ?_
  simp [decodeOp14, need]

theorem hmax2 (d a b : BitVec 6) (n : Bool) (p : BitVec 3) : Statement (.hmax2 d a b n p) := by
  intro wf w h
  have e : (encA 20 d a (b) (4) n p) = w := Option.some.inj h
  subst e
  refine (decode_14 _ (by simp)).trans ?_
  simp [decodeOp14, need]

theorem habs2 (d a : BitVec 6) (n : Bool) (p : BitVec 3) : Statement (.habs2 d a n p) := by
  intro wf w h
  have e : (encA 20 d a (0) (5) n p) = w := Option.some.inj h
  subst e
  refine (decode_14 _ (by simp)).trans ?_
  simp [decodeOp14, need]

theorem hneg2 (d a : BitVec 6) (n : Bool) (p : BitVec 3) : Statement (.hneg2 d a n p) := by
  intro wf w h
  have e : (encA 20 d a (0) (6) n p) = w := Option.some.inj h
  subst e
  refine (decode_14 _ (by simp)).trans ?_
  simp [decodeOp14, need]

theorem hfma2 (d a b c : BitVec 6) (n p : Bool) : Statement (.hfma2 d a b c n p) := by
  intro wf w h
  have e : (encF 21 d a b c n p) = w := Option.some.inj h
  subst e
  refine (decode_15 _ (by simp)).trans ?_
  simp [need]

theorem vaddH2 (d a b : BitVec 6) (n : Bool) (p : BitVec 3) : Statement (.vaddH2 d a b n p) := by
  intro wf w h
  have e : (encA 22 d a (b) (0) n p) = w := Option.some.inj h
  subst e
  refine (decode_16 _ (by simp)).trans ?_
  simp [decodeOp16, need]

theorem vsubH2 (d a b : BitVec 6) (n : Bool) (p : BitVec 3) : Statement (.vsubH2 d a b n p) := by
  intro wf w h
  have e : (encA 22 d a (b) (1) n p) = w := Option.some.inj h
  subst e
  refine (decode_16 _ (by simp)).trans ?_
  simp [decodeOp16, need]

theorem vaddsH2 (d a b : BitVec 6) (n : Bool) (p : BitVec 3) : Statement (.vaddsH2 d a b n p) := by
  intro wf w h
  have e : (encA 22 d a (b) (2) n p) = w := Option.some.inj h
  subst e
  refine (decode_16 _ (by simp)).trans ?_
  simp [decodeOp16, need]

theorem vsubsH2 (d a b : BitVec 6) (n : Bool) (p : BitVec 3) : Statement (.vsubsH2 d a b n p) := by
  intro wf w h
  have e : (encA 22 d a (b) (3) n p) = w := Option.some.inj h
  subst e
  refine (decode_16 _ (by simp)).trans ?_
  simp [decodeOp16, need]

theorem vmaxH2 (d a b : BitVec 6) (n : Bool) (p : BitVec 3) : Statement (.vmaxH2 d a b n p) := by
  intro wf w h
  have e : (encA 22 d a (b) (4) n p) = w := Option.some.inj h
  subst e
  refine (decode_16 _ (by simp)).trans ?_
  simp [decodeOp16, need]

theorem vminH2 (d a b : BitVec 6) (n : Bool) (p : BitVec 3) : Statement (.vminH2 d a b n p) := by
  intro wf w h
  have e : (encA 22 d a (b) (5) n p) = w := Option.some.inj h
  subst e
  refine (decode_16 _ (by simp)).trans ?_
  simp [decodeOp16, need]

theorem acsH2 (d a b : BitVec 6) (n : Bool) (p : BitVec 3) : Statement (.acsH2 d a b n p) := by
  intro wf w h
  have e : (encA 22 d a (b) (6) n p) = w := Option.some.inj h
  subst e
  refine (decode_16 _ (by simp)).trans ?_
  simp [decodeOp16, need]

theorem fexp2 (d a : BitVec 6) (n : Bool) (p : BitVec 3) : Statement (.fexp2 d a n p) := by
  intro wf w h
  have e : (encA 23 d a (0) (0) n p) = w := Option.some.inj h
  subst e
  refine (decode_17 _ (by simp)).trans ?_
  simp [decodeOp17, need]

theorem flog2 (d a : BitVec 6) (n : Bool) (p : BitVec 3) : Statement (.flog2 d a n p) := by
  intro wf w h
  have e : (encA 23 d a (0) (1) n p) = w := Option.some.inj h
  subst e
  refine (decode_17 _ (by simp)).trans ?_
  simp [decodeOp17, need]

theorem fsin (d a : BitVec 6) (n : Bool) (p : BitVec 3) : Statement (.fsin d a n p) := by
  intro wf w h
  have e : (encA 23 d a (0) (2) n p) = w := Option.some.inj h
  subst e
  refine (decode_17 _ (by simp)).trans ?_
  simp [decodeOp17, need]

theorem fcos (d a : BitVec 6) (n : Bool) (p : BitVec 3) : Statement (.fcos d a n p) := by
  intro wf w h
  have e : (encA 23 d a (0) (3) n p) = w := Option.some.inj h
  subst e
  refine (decode_17 _ (by simp)).trans ?_
  simp [decodeOp17, need]

theorem frcp (d a : BitVec 6) (n : Bool) (p : BitVec 3) : Statement (.frcp d a n p) := by
  intro wf w h
  have e : (encA 23 d a (0) (4) n p) = w := Option.some.inj h
  subst e
  refine (decode_17 _ (by simp)).trans ?_
  simp [decodeOp17, need]

theorem frsq (d a : BitVec 6) (n : Bool) (p : BitVec 3) : Statement (.frsq d a n p) := by
  intro wf w h
  have e : (encA 23 d a (0) (5) n p) = w := Option.some.inj h
  subst e
  refine (decode_17 _ (by simp)).trans ?_
  simp [decodeOp17, need]

theorem ftanh (d a : BitVec 6) (n : Bool) (p : BitVec 3) : Statement (.ftanh d a n p) := by
  intro wf w h
  have e : (encA 23 d a (0) (6) n p) = w := Option.some.inj h
  subst e
  refine (decode_17 _ (by simp)).trans ?_
  simp [decodeOp17, need]

theorem cvt (d a : BitVec 6) (s : BitVec 4) (m : BitVec 2) (f : BitVec 4) (n : Bool) (p : BitVec 3) : Statement (.cvt d a s m f n p) := by
  intro wf w h
  have e : (encA 24 d a (s ++ m) (f) n p) = w := Option.some.inj h
  subst e
  refine (decode_18 _ (by simp)).trans ?_
  simp [need]
  simp only [wellFormed, decide_eq_true_eq] at wf
  rw [if_pos wf]
  congr 2
  · apply BitVec.eq_of_toNat_eq
    have hs := s.isLt
    have hm := m.isLt
    rw [BitVec.toNat_ofNat, BitVec.toNat_append, Nat.shiftLeft_eq, Nat.mul_comm, ← Nat.two_pow_add_eq_or_of_lt m.isLt]
    omega
  · apply BitVec.eq_of_toNat_eq
    have hm := m.isLt
    rw [BitVec.toNat_setWidth, BitVec.toNat_append, Nat.shiftLeft_eq, Nat.mul_comm, ← Nat.two_pow_add_eq_or_of_lt m.isLt]
    omega

theorem zpackZ8 (d a b : BitVec 6) (n : Bool) (p : BitVec 3) : Statement (.zpackZ8 d a b n p) := by
  intro wf w h
  have e : (encA 25 d a (b) (0) n p) = w := Option.some.inj h
  subst e
  refine (decode_19 _ (by simp)).trans ?_
  simp [decodeOp19, need]

theorem zpackZ6 (d a b : BitVec 6) (n : Bool) (p : BitVec 3) : Statement (.zpackZ6 d a b n p) := by
  intro wf w h
  have e : (encA 25 d a (b) (1) n p) = w := Option.some.inj h
  subst e
  refine (decode_19 _ (by simp)).trans ?_
  simp [decodeOp19, need]

theorem zunpkZ8 (d a : BitVec 6) (n : Bool) (p : BitVec 3) : Statement (.zunpkZ8 d a n p) := by
  intro wf w h
  have e : (encA 25 d a (0) (2) n p) = w := Option.some.inj h
  subst e
  refine (decode_19 _ (by simp)).trans ?_
  simp [decodeOp19, need]

theorem zunpkZ6 (d a : BitVec 6) (n : Bool) (p : BitVec 3) : Statement (.zunpkZ6 d a n p) := by
  intro wf w h
  have e : (encA 25 d a (0) (3) n p) = w := Option.some.inj h
  subst e
  refine (decode_19 _ (by simp)).trans ?_
  simp [decodeOp19, need]

theorem zscale (d a b : BitVec 6) (n : Bool) (p : BitVec 3) : Statement (.zscale d a b n p) := by
  intro wf w h
  have e : (encA 25 d a (b) (4) n p) = w := Option.some.inj h
  subst e
  refine (decode_19 _ (by simp)).trans ?_
  simp [decodeOp19, need]

theorem cmpi (d a b : BitVec 6) (f : BitVec 4) (n : Bool) (p : BitVec 3) : Statement (.cmpi d a b f n p) := by
  intro wf w h
  obtain rfl : n = false := by simpa [wellFormed] using wf
  have e : (encA 26 d a (b) (f) false p) = w := Option.some.inj h
  subst e
  refine (decode_1A _ (by simp)).trans ?_
  simp [need]

theorem cmpf (d a b : BitVec 6) (f : BitVec 4) (n : Bool) (p : BitVec 3) : Statement (.cmpf d a b f n p) := by
  intro wf w h
  simp only [wellFormed, Bool.and_eq_true, Bool.not_eq_true'] at wf
  obtain ⟨wf, rfl⟩ := wf
  have e : (encA 27 d a (b) (f) false p) = w := Option.some.inj h
  subst e
  refine (decode_1B _ (by simp)).trans ?_
  simp [need]
  simpa [wellFormed] using wf

theorem cmpd (d a b : BitVec 6) (f : BitVec 4) (n : Bool) (p : BitVec 3) : Statement (.cmpd d a b f n p) := by
  intro wf w h
  simp only [wellFormed, Bool.and_eq_true, Bool.not_eq_true'] at wf
  obtain ⟨wf, rfl⟩ := wf
  have e : (encA 28 d a (b) (f) false p) = w := Option.some.inj h
  subst e
  refine (decode_1C _ (by simp)).trans ?_
  simp [need]
  simpa [wellFormed] using wf

theorem cmph2 (d a b : BitVec 6) (f : BitVec 3) (n : Bool) (p : BitVec 3) : Statement (.cmph2 d a b f n p) := by
  intro wf w h
  obtain rfl : n = false := by simpa [wellFormed] using wf
  have e : (encA 29 d a (b) (0#1 ++ f) false p) = w := Option.some.inj h
  subst e
  have hf := f.isLt
  have e : (0#1 ++ f).toNat = f.toNat := by
    rw [BitVec.toNat_append]
    simp
  have q : (0#1 ++ f).setWidth 3 = f := by
    apply BitVec.eq_of_toNat_eq
    rw [BitVec.toNat_setWidth, e]
    exact Nat.mod_eq_of_lt hf
  refine (decode_1D _ (by simp)).trans ?_
  simp only [need, dF_encA, aF_encA, bF_encA, fnF_encA, nF_encA, pF_encA, e, q]
  simp [hf]

theorem cmpz (d a b : BitVec 6) (f : BitVec 3) (n : Bool) (p : BitVec 3) : Statement (.cmpz d a b f n p) := by
  intro wf w h
  simp only [wellFormed, Bool.and_eq_true, Bool.not_eq_true'] at wf
  obtain ⟨wf, rfl⟩ := wf
  have e : (encA 29 d a (b) (1#1 ++ f) false p) = w := Option.some.inj h
  subst e
  have hf := f.isLt
  have e : (1#1 ++ f).toNat = 8 + f.toNat := by
    rw [BitVec.toNat_append, Nat.shiftLeft_eq, Nat.mul_comm, ← Nat.two_pow_add_eq_or_of_lt f.isLt]
    simp
  have q : (1#1 ++ f).setWidth 3 = f := by
    apply BitVec.eq_of_toNat_eq
    rw [BitVec.toNat_setWidth, e]
    omega
  simp only [decide_eq_true_eq] at wf
  refine (decode_1D _ (by simp)).trans ?_
  simp only [need, dF_encA, aF_encA, bF_encA, fnF_encA, nF_encA, pF_encA, e, q]
  simp [wf]

theorem pand (d a b : BitVec 6) (n : Bool) (p : BitVec 3) : Statement (.pand d a b n p) := by
  intro wf w h
  obtain rfl : n = false := by simpa [wellFormed] using wf
  have e : (encA 30 d a (b) (0) false p) = w := Option.some.inj h
  subst e
  refine (decode_1E _ (by simp)).trans ?_
  simp [decodeOp1E, need]

theorem por (d a b : BitVec 6) (n : Bool) (p : BitVec 3) : Statement (.por d a b n p) := by
  intro wf w h
  obtain rfl : n = false := by simpa [wellFormed] using wf
  have e : (encA 30 d a (b) (1) false p) = w := Option.some.inj h
  subst e
  refine (decode_1E _ (by simp)).trans ?_
  simp [decodeOp1E, need]

theorem pxor (d a b : BitVec 6) (n : Bool) (p : BitVec 3) : Statement (.pxor d a b n p) := by
  intro wf w h
  obtain rfl : n = false := by simpa [wellFormed] using wf
  have e : (encA 30 d a (b) (2) false p) = w := Option.some.inj h
  subst e
  refine (decode_1E _ (by simp)).trans ?_
  simp [decodeOp1E, need]

theorem pnot (d a : BitVec 6) (n : Bool) (p : BitVec 3) : Statement (.pnot d a n p) := by
  intro wf w h
  obtain rfl : n = false := by simpa [wellFormed] using wf
  have e : (encA 30 d a (0) (3) false p) = w := Option.some.inj h
  subst e
  refine (decode_1E _ (by simp)).trans ?_
  simp [decodeOp1E, need]

theorem pmov (d a : BitVec 6) (n : Bool) (p : BitVec 3) : Statement (.pmov d a n p) := by
  intro wf w h
  obtain rfl : n = false := by simpa [wellFormed] using wf
  have e : (encA 30 d a (0) (4) false p) = w := Option.some.inj h
  subst e
  refine (decode_1E _ (by simp)).trans ?_
  simp [decodeOp1E, need]

theorem pset (d a : BitVec 6) (n : Bool) (p : BitVec 3) : Statement (.pset d a n p) := by
  intro wf w h
  obtain rfl : n = false := by simpa [wellFormed] using wf
  have e : (encA 30 d a (0) (5) false p) = w := Option.some.inj h
  subst e
  refine (decode_1E _ (by simp)).trans ?_
  simp [decodeOp1E, need]

theorem gset (d a : BitVec 6) (n : Bool) (p : BitVec 3) : Statement (.gset d a n p) := by
  intro wf w h
  obtain rfl : n = false := by simpa [wellFormed] using wf
  have e : (encA 30 d a (0) (6) false p) = w := Option.some.inj h
  subst e
  refine (decode_1E _ (by simp)).trans ?_
  simp [decodeOp1E, need]

theorem gsetOpen (d : BitVec 6) (n : Bool) (p : BitVec 3) : Statement (.gsetOpen d n p) := by
  intro wf w h
  obtain rfl : n = false := by simpa [wellFormed] using wf
  have e : (encA 30 d 0 (1) (6) false p) = w := Option.some.inj h
  subst e
  refine (decode_1E _ (by simp)).trans ?_
  simp [decodeOp1E, need]

theorem mov (d a : BitVec 6) (n : Bool) (p : BitVec 3) : Statement (.mov d a n p) := by
  intro wf w h
  have e : (encA 31 d a (0) (0) n p) = w := Option.some.inj h
  subst e
  refine (decode_1F _ (by simp)).trans ?_
  simp [decodeOp1F, need]

theorem srd (d b : BitVec 6) (n : Bool) (p : BitVec 3) : Statement (.srd d b n p) := by
  intro wf w h
  have e : (encA 31 d 0 (b) (1) n p) = w := Option.some.inj h
  subst e
  refine (decode_1F _ (by simp)).trans ?_
  simp [decodeOp1F, need]

theorem swr (a b : BitVec 6) (n : Bool) (p : BitVec 3) : Statement (.swr a b n p) := by
  intro wf w h
  obtain rfl : n = false := by simpa [wellFormed] using wf
  have e : (encA 31 0 a (b) (2) false p) = w := Option.some.inj h
  subst e
  refine (decode_1F _ (by simp)).trans ?_
  simp [decodeOp1F, need]

theorem ldkW (d a : BitVec 6) (n : Bool) (p : BitVec 3) : Statement (.ldkW d a n p) := by
  intro wf w h
  have e : (encA 31 d a (0) (3) n p) = w := Option.some.inj h
  subst e
  refine (decode_1F _ (by simp)).trans ?_
  simp [decodeOp1F, need]

theorem ldkD (d a : BitVec 6) (n : Bool) (p : BitVec 3) : Statement (.ldkD d a n p) := by
  intro wf w h
  have e : (encA 31 d a (0) (4) n p) = w := Option.some.inj h
  subst e
  refine (decode_1F _ (by simp)).trans ?_
  simp [decodeOp1F, need]

theorem tseed (d a : BitVec 6) (w : Bool) (k : BitVec 3) (n : Bool) (p : BitVec 3) : Statement (.tseed d a w k n p) := by
  intro wf w h
  cases h
  refine (decode_20 _ (by simp)).trans ?_
  simp [decodeOp20, need]
  have hk := k.isLt
  cases w
  · rw [if_pos (by simp <;> omega)]
    congr 2
    · simp <;> omega
    · exact BitVec.eq_of_toNat_eq (by simp)
  · rw [if_pos (by simp <;> omega)]
    congr 2
    · simp <;> omega
    · exact BitVec.eq_of_toNat_eq (by simp; omega)

theorem tget (d a : BitVec 6) (k : BitVec 3) (n : Bool) (p : BitVec 3) : Statement (.tget d a k n p) := by
  intro wf w h
  have e : (encA 32 d a (k.setWidth 6) (1) n p) = w := Option.some.inj h
  subst e
  refine (decode_20 _ (by simp)).trans ?_
  simp [decodeOp20, need]
  have hk := k.isLt
  omega

theorem tset (d a : BitVec 6) (k : BitVec 3) (n : Bool) (p : BitVec 3) : Statement (.tset d a k n p) := by
  intro wf w h
  have e : (encA 32 d a (k.setWidth 6) (2) n p) = w := Option.some.inj h
  subst e
  refine (decode_20 _ (by simp)).trans ?_
  simp [decodeOp20, need]
  have hk := k.isLt
  omega

theorem tzero (d a : BitVec 6) (w n : Bool) (p : BitVec 3) : Statement (.tzero d a w n p) := by
  intro wf w h
  cases h
  refine (decode_20 _ (by simp)).trans ?_
  simp [decodeOp20, need]
  cases w <;> simp

theorem tmov (d a : BitVec 6) (w n : Bool) (p : BitVec 3) : Statement (.tmov d a w n p) := by
  intro wf w h
  cases h
  refine (decode_20 _ (by simp)).trans ?_
  simp [decodeOp20, need]
  cases w <;> simp

theorem dext (d a b : BitVec 6) (n : Bool) (p : BitVec 3) : Statement (.dext d a b n p) := by
  intro wf w h
  have e : (encA 32 d a (b) (5) n p) = w := Option.some.inj h
  subst e
  refine (decode_20 _ (by simp)).trans ?_
  simp [decodeOp20, need]

theorem foot (d a : BitVec 6) (n : Bool) (p : BitVec 3) : Statement (.foot d a n p) := by
  intro wf w h
  have e : (encA 32 d a (0) (6) n p) = w := Option.some.inj h
  subst e
  refine (decode_20 _ (by simp)).trans ?_
  simp [decodeOp20, need]

theorem motv (d a : BitVec 6) (n : Bool) (p : BitVec 3) : Statement (.motv d a n p) := by
  intro wf w h
  have e : (encA 32 d a (0) (7) n p) = w := Option.some.inj h
  subst e
  refine (decode_20 _ (by simp)).trans ?_
  simp [decodeOp20, need]

theorem ld (d a : BitVec 6) (o : BitVec 9) (s k : BitVec 2) (p : Bool) : Statement (.ld d a o s k p) := by
  intro wf w h
  have e : (encM 33 d a o s k p) = w := Option.some.inj h
  subst e
  refine (decode_21 _ (by simp)).trans ?_
  simp [need]

theorem st (d a : BitVec 6) (o : BitVec 9) (s k : BitVec 2) (p : Bool) : Statement (.st d a o s k p) := by
  intro wf w h
  have e : (encM 34 d a o s k p) = w := Option.some.inj h
  subst e
  refine (decode_22 _ (by simp)).trans ?_
  simp [need]

theorem lds (d a : BitVec 6) (o : BitVec 9) (s k : BitVec 2) (p : Bool) : Statement (.lds d a o s k p) := by
  intro wf w h
  have e : (encM 35 d a o s k p) = w := Option.some.inj h
  subst e
  refine (decode_23 _ (by simp)).trans ?_
  simp [need]

theorem sts (d a : BitVec 6) (o : BitVec 9) (s k : BitVec 2) (p : Bool) : Statement (.sts d a o s k p) := by
  intro wf w h
  have e : (encM 36 d a o s k p) = w := Option.some.inj h
  subst e
  refine (decode_24 _ (by simp)).trans ?_
  simp [need]

theorem ldt (d a : BitVec 6) (o : BitVec 9) (s : Bool) (k : BitVec 2) (p : Bool) : Statement (.ldt d a o s k p) := by
  intro wf w h
  have e : (encM 37 d a o (BitVec.ofNat 2 (2 + s.toNat)) k p) = w := Option.some.inj h
  subst e
  refine (decode_25 _ (by simp)).trans ?_
  simp [need]
  cases s <;> simp

theorem stt (d a : BitVec 6) (o : BitVec 9) (s : Bool) (k : BitVec 2) (p : Bool) : Statement (.stt d a o s k p) := by
  intro wf w h
  have e : (encM 38 d a o (BitVec.ofNat 2 (2 + s.toNat)) k p) = w := Option.some.inj h
  subst e
  refine (decode_26 _ (by simp)).trans ?_
  simp [need]
  cases s <;> simp

theorem ldc (d a : BitVec 6) (o : BitVec 9) (s k : BitVec 2) (p : Bool) : Statement (.ldc d a o s k p) := by
  intro wf w h
  have e : (encM 39 d a o s k p) = w := Option.some.inj h
  subst e
  refine (decode_27 _ (by simp)).trans ?_
  simp [need]

theorem prf (a : BitVec 6) (o : BitVec 9) (s : BitVec 2) (p : Bool) : Statement (.prf a o s p) := by
  intro wf w h
  have e : (encM 40 0 a o s 0 p) = w := Option.some.inj h
  subst e
  refine (decode_28 _ (by simp)).trans ?_
  simp [need]

theorem atom (d a b : BitVec 6) (f : BitVec 4) (s : BitVec 3) (p : Bool) : Statement (.atom d a b f s p) := by
  intro wf w h
  have e : (encX 41 d a b f s p) = w := Option.some.inj h
  subst e
  refine (decode_29 _ (by simp)).trans ?_
  simp [need]
  simpa [wellFormed] using wf

theorem red (a b : BitVec 6) (f : BitVec 4) (s : BitVec 3) (p : Bool) : Statement (.red a b f s p) := by
  intro wf w h
  have e : (encX 42 0 a b f s p) = w := Option.some.inj h
  subst e
  refine (decode_2A _ (by simp)).trans ?_
  simp [need]
  simpa [wellFormed, and_assoc] using wf

theorem fence (s : BitVec 3) (n : Bool) (p : BitVec 3) : Statement (.fence s n p) := by
  intro wf w h
  obtain rfl : n = false := by simpa [wellFormed] using wf
  have e : (encA 43 0 0 (s.setWidth 6) (0) false p) = w := Option.some.inj h
  subst e
  refine (decode_2B _ (by simp)).trans ?_
  simp [decodeOp2B, need]
  have hs := s.isLt
  omega

theorem watch (a : BitVec 6) (n : Bool) (p : BitVec 3) : Statement (.watch a n p) := by
  intro wf w h
  obtain rfl : n = false := by simpa [wellFormed] using wf
  have e : (encA 43 0 a (0) (1) false p) = w := Option.some.inj h
  subst e
  refine (decode_2B _ (by simp)).trans ?_
  simp [decodeOp2B, need]

theorem waitm (d a : BitVec 6) (n : Bool) (p : BitVec 3) : Statement (.waitm d a n p) := by
  intro wf w h
  have e : (encA 43 d a (0) (2) n p) = w := Option.some.inj h
  subst e
  refine (decode_2B _ (by simp)).trans ?_
  simp [decodeOp2B, need]

theorem bar (a : BitVec 6) (s : BitVec 3) (n : Bool) (p : BitVec 3) : Statement (.bar a s n p) := by
  intro wf w h
  obtain rfl : n = false := by simpa [wellFormed] using wf
  have e : (encA 43 0 a (s.setWidth 6) (3) false p) = w := Option.some.inj h
  subst e
  refine (decode_2B _ (by simp)).trans ?_
  simp [decodeOp2B, need]
  have hs := s.isLt
  omega

theorem bara (a : BitVec 6) (s : BitVec 3) (n : Bool) (p : BitVec 3) : Statement (.bara a s n p) := by
  intro wf w h
  obtain rfl : n = false := by simpa [wellFormed] using wf
  have e : (encA 43 0 a (s.setWidth 6) (4) false p) = w := Option.some.inj h
  subst e
  refine (decode_2B _ (by simp)).trans ?_
  simp [decodeOp2B, need]
  have hs := s.isLt
  omega

theorem barw (a : BitVec 6) (n : Bool) (p : BitVec 3) : Statement (.barw a n p) := by
  intro wf w h
  obtain rfl : n = false := by simpa [wellFormed] using wf
  have e : (encA 43 0 a (0) (5) false p) = w := Option.some.inj h
  subst e
  refine (decode_2B _ (by simp)).trans ?_
  simp [decodeOp2B, need]

end Sys2Proof.Laws.RoundTrip

open Sys2Proof Sys2Proof.Laws.Words in
theorem Sys2Proof.Laws.RoundTrip.seal (d : BitVec 6) (n : Bool) (p : BitVec 3) : Statement (.seal d n p) := by
  intro wf w h
  have e : (encA 43 d 0 (0) (6) n p) = w := Option.some.inj h
  subst e
  refine (decode_2B _ (by simp)).trans ?_
  simp [decodeOp2B, need]

namespace Sys2Proof.Laws.RoundTrip

set_option Elab.async false

open Sys2Proof Sys2Proof.Laws.Words

theorem waitb (a : BitVec 6) (n : Bool) (p : BitVec 3) : Statement (.waitb a n p) := by
  intro wf w h
  obtain rfl : n = false := by simpa [wellFormed] using wf
  have e : (encA 43 0 a (0) (7) false p) = w := Option.some.inj h
  subst e
  refine (decode_2B _ (by simp)).trans ?_
  simp [decodeOp2B, need]

theorem trig (n : Bool) (p : BitVec 3) : Statement (.trig n p) := by
  intro wf w h
  obtain rfl : n = false := by simpa [wellFormed] using wf
  have e : (encA 43 0 0 (0) (8) false p) = w := Option.some.inj h
  subst e
  refine (decode_2B _ (by simp)).trans ?_
  simp [decodeOp2B, need]

theorem flushd (n : Bool) (p : BitVec 3) : Statement (.flushd n p) := by
  intro wf w h
  obtain rfl : n = false := by simpa [wellFormed] using wf
  have e : (encA 43 0 0 (0) (9) false p) = w := Option.some.inj h
  subst e
  refine (decode_2B _ (by simp)).trans ?_
  simp [decodeOp2B, need]

theorem lgetAt (d a b : BitVec 6) (n : Bool) (p : BitVec 3) : Statement (.lgetAt d a b n p) := by
  intro wf w h
  have e : (encA 44 d a (b) (0) n p) = w := Option.some.inj h
  subst e
  refine (decode_2C _ (by simp)).trans ?_
  simp [decodeOp2C, need]

theorem lgetLower (d a b : BitVec 6) (n : Bool) (p : BitVec 3) : Statement (.lgetLower d a b n p) := by
  intro wf w h
  have e : (encA 44 d a (b) (1) n p) = w := Option.some.inj h
  subst e
  refine (decode_2C _ (by simp)).trans ?_
  simp [decodeOp2C, need]

theorem lgetHigher (d a b : BitVec 6) (n : Bool) (p : BitVec 3) : Statement (.lgetHigher d a b n p) := by
  intro wf w h
  have e : (encA 44 d a (b) (2) n p) = w := Option.some.inj h
  subst e
  refine (decode_2C _ (by simp)).trans ?_
  simp [decodeOp2C, need]

theorem lgetFlip (d a b : BitVec 6) (n : Bool) (p : BitVec 3) : Statement (.lgetFlip d a b n p) := by
  intro wf w h
  have e : (encA 44 d a (b) (3) n p) = w := Option.some.inj h
  subst e
  refine (decode_2C _ (by simp)).trans ?_
  simp [decodeOp2C, need]

theorem push (d a b : BitVec 6) (n : Bool) (p : BitVec 3) : Statement (.push d a b n p) := by
  intro wf w h
  have e : (encA 44 d a (b) (4) n p) = w := Option.some.inj h
  subst e
  refine (decode_2C _ (by simp)).trans ?_
  simp [decodeOp2C, need]

theorem voteAnd (d a b : BitVec 6) (n : Bool) (p : BitVec 3) : Statement (.voteAnd d a b n p) := by
  intro wf w h
  obtain rfl : n = false := by simpa [wellFormed] using wf
  have e : (encA 44 d a (b) (5) false p) = w := Option.some.inj h
  subst e
  refine (decode_2C _ (by simp)).trans ?_
  simp [decodeOp2C, need]

theorem voteOr (d a b : BitVec 6) (n : Bool) (p : BitVec 3) : Statement (.voteOr d a b n p) := by
  intro wf w h
  obtain rfl : n = false := by simpa [wellFormed] using wf
  have e : (encA 44 d a (b) (6) false p) = w := Option.some.inj h
  subst e
  refine (decode_2C _ (by simp)).trans ?_
  simp [decodeOp2C, need]

theorem voteEqv (d a b : BitVec 6) (n : Bool) (p : BitVec 3) : Statement (.voteEqv d a b n p) := by
  intro wf w h
  obtain rfl : n = false := by simpa [wellFormed] using wf
  have e : (encA 44 d a (b) (7) false p) = w := Option.some.inj h
  subst e
  refine (decode_2C _ (by simp)).trans ?_
  simp [decodeOp2C, need]

theorem ballot (d a b : BitVec 6) (n : Bool) (p : BitVec 3) : Statement (.ballot d a b n p) := by
  intro wf w h
  have e : (encA 44 d a (b) (8) n p) = w := Option.some.inj h
  subst e
  refine (decode_2C _ (by simp)).trans ?_
  simp [decodeOp2C, need]

theorem bfly (d a b : BitVec 6) (n : Bool) (p : BitVec 3) : Statement (.bfly d a b n p) := by
  intro wf w h
  have e : (encA 44 d a (b) (9) n p) = w := Option.some.inj h
  subst e
  refine (decode_2C _ (by simp)).trans ?_
  simp [decodeOp2C, need]

theorem compress (d a b : BitVec 6) (n : Bool) (p : BitVec 3) : Statement (.compress d a b n p) := by
  intro wf w h
  have e : (encA 44 d a (b) (10) n p) = w := Option.some.inj h
  subst e
  refine (decode_2C _ (by simp)).trans ?_
  simp [decodeOp2C, need]

theorem expand (d a b : BitVec 6) (n : Bool) (p : BitVec 3) : Statement (.expand d a b n p) := by
  intro wf w h
  have e : (encA 44 d a (b) (11) n p) = w := Option.some.inj h
  subst e
  refine (decode_2C _ (by simp)).trans ?_
  simp [decodeOp2C, need]

theorem hist (d a b : BitVec 6) (n : Bool) (p : BitVec 3) : Statement (.hist d a b n p) := by
  intro wf w h
  have e : (encA 45 d a (b) (0) n p) = w := Option.some.inj h
  subst e
  refine (decode_2D _ (by simp)).trans ?_
  simp [decodeOp2D, need]

theorem hmerge (d a b : BitVec 6) (n : Bool) (p : BitVec 3) : Statement (.hmerge d a b n p) := by
  intro wf w h
  have e : (encA 45 d a (b) (1) n p) = w := Option.some.inj h
  subst e
  refine (decode_2D _ (by simp)).trans ?_
  simp [decodeOp2D, need]

theorem osmx (d a : BitVec 6) (n : Bool) (p : BitVec 3) : Statement (.osmx d a n p) := by
  intro wf w h
  have e : (encA 45 d a (0) (2) n p) = w := Option.some.inj h
  subst e
  refine (decode_2D _ (by simp)).trans ?_
  simp [decodeOp2D, need]

theorem osmxf (d a : BitVec 6) (n : Bool) (p : BitVec 3) : Statement (.osmxf d a n p) := by
  intro wf w h
  have e : (encA 45 d a (0) (3) n p) = w := Option.some.inj h
  subst e
  refine (decode_2D _ (by simp)).trans ?_
  simp [decodeOp2D, need]

theorem bra (p : BitVec 3) (n : Bool) (t : BitVec 13) (r : BitVec 9) : Statement (.bra p n t r) := by
  intro wf w h
  have e : (encB 46 p n t r) = w := Option.some.inj h
  subst e
  refine (decode_2E _ (by simp)).trans ?_
  simp [need]

theorem call (s : BitVec 26) : Statement (.call s) := by
  intro wf w h
  have e : (encJ 47 s) = w := Option.some.inj h
  subst e
  refine (decode_2F _ (by simp)).trans ?_
  simp [need]

theorem nop (n : Bool) (p : BitVec 3) : Statement (.nop n p) := by
  intro wf w h
  obtain rfl : n = false := by simpa [wellFormed] using wf
  have e : (encA 48 0 0 (0) (0) false p) = w := Option.some.inj h
  subst e
  refine (decode_30 _ (by simp)).trans ?_
  simp [decodeOp30, need]

theorem yield (n : Bool) (p : BitVec 3) : Statement (.yield n p) := by
  intro wf w h
  obtain rfl : n = false := by simpa [wellFormed] using wf
  have e : (encA 48 0 0 (0) (1) false p) = w := Option.some.inj h
  subst e
  refine (decode_30 _ (by simp)).trans ?_
  simp [decodeOp30, need]

theorem brx (a : BitVec 6) (n : Bool) (p : BitVec 3) : Statement (.brx a n p) := by
  intro wf w h
  obtain rfl : n = false := by simpa [wellFormed] using wf
  have e : (encA 48 0 a (0) (2) false p) = w := Option.some.inj h
  subst e
  refine (decode_30 _ (by simp)).trans ?_
  simp [decodeOp30, need]

theorem calli (a : BitVec 6) (n : Bool) (p : BitVec 3) : Statement (.calli a n p) := by
  intro wf w h
  obtain rfl : n = false := by simpa [wellFormed] using wf
  have e : (encA 48 0 a (0) (3) false p) = w := Option.some.inj h
  subst e
  refine (decode_30 _ (by simp)).trans ?_
  simp [decodeOp30, need]

theorem ret (n : Bool) (p : BitVec 3) : Statement (.ret n p) := by
  intro wf w h
  obtain rfl : n = false := by simpa [wellFormed] using wf
  have e : (encA 48 0 0 (0) (4) false p) = w := Option.some.inj h
  subst e
  refine (decode_30 _ (by simp)).trans ?_
  simp [decodeOp30, need]

theorem exit (n : Bool) (p : BitVec 3) : Statement (.exit n p) := by
  intro wf w h
  obtain rfl : n = false := by simpa [wellFormed] using wf
  have e : (encA 48 0 0 (0) (5) false p) = w := Option.some.inj h
  subst e
  refine (decode_30 _ (by simp)).trans ?_
  simp [decodeOp30, need]

theorem brk (a : BitVec 6) (n : Bool) (p : BitVec 3) : Statement (.brk a n p) := by
  intro wf w h
  obtain rfl : n = false := by simpa [wellFormed] using wf
  have e : (encA 48 0 a (0) (6) false p) = w := Option.some.inj h
  subst e
  refine (decode_30 _ (by simp)).trans ?_
  simp [decodeOp30, need]

theorem loop (c : BitVec 6) (l : BitVec 8) : Statement (.loop c l) := by
  intro wf w h
  have e : (encLoop 49 c l) = w := Option.some.inj h
  subst e
  have hc := c.isLt
  have hl : (encLoop 49 c l).toNat % 4096 = 0 := by
    rw [encLoop_toNat]
    simp
    omega
  refine (decode_31 _ (by simp)).trans ?_
  simp only [need, dF_encLoop, llF_encLoop, hl]
  simp

theorem loopi (c : BitVec 12) (l : BitVec 8) : Statement (.loopi c l) := by
  intro wf w h
  have e : (encLoopi 50 c l) = w := Option.some.inj h
  subst e
  have hc := c.isLt
  have hl : (encLoopi 50 c l).toNat % 64 = 0 := by
    rw [encLoopi_toNat]
    simp
    omega
  refine (decode_32 _ (by simp)).trans ?_
  simp only [need, lcF_encLoopi, lilF_encLoopi, hl]
  simp

theorem trap (a : BitVec 6) (n : Bool) (p : BitVec 3) : Statement (.trap a n p) := by
  intro wf w h
  obtain rfl : n = false := by simpa [wellFormed] using wf
  have e : (encA 51 0 a (0) (0) false p) = w := Option.some.inj h
  subst e
  refine (decode_33 _ (by simp)).trans ?_
  simp [decodeOp33, need]

theorem eret (n : Bool) (p : BitVec 3) : Statement (.eret n p) := by
  intro wf w h
  obtain rfl : n = false := by simpa [wellFormed] using wf
  have e : (encA 51 0 0 (0) (1) false p) = w := Option.some.inj h
  subst e
  refine (decode_33 _ (by simp)).trans ?_
  simp [decodeOp33, need]

theorem srdp (d b : BitVec 6) (n : Bool) (p : BitVec 3) : Statement (.srdp d b n p) := by
  intro wf w h
  have e : (encA 51 d 0 (b) (2) n p) = w := Option.some.inj h
  subst e
  refine (decode_33 _ (by simp)).trans ?_
  simp [decodeOp33, need]

theorem swrp (a b : BitVec 6) (n : Bool) (p : BitVec 3) : Statement (.swrp a b n p) := by
  intro wf w h
  obtain rfl : n = false := by simpa [wellFormed] using wf
  have e : (encA 51 0 a (b) (3) false p) = w := Option.some.inj h
  subst e
  refine (decode_33 _ (by simp)).trans ?_
  simp [decodeOp33, need]

theorem halt (a : BitVec 6) (n : Bool) (p : BitVec 3) : Statement (.halt a n p) := by
  intro wf w h
  obtain rfl : n = false := by simpa [wellFormed] using wf
  have e : (encA 51 0 a (0) (4) false p) = w := Option.some.inj h
  subst e
  refine (decode_33 _ (by simp)).trans ?_
  simp [decodeOp33, need]

theorem fork (a b : BitVec 6) (n : Bool) (p : BitVec 3) : Statement (.fork a b n p) := by
  intro wf w h
  obtain rfl : n = false := by simpa [wellFormed] using wf
  have e : (encA 63 0 a (b) (0) false p) = w := Option.some.inj h
  subst e
  refine (decode_3F _ (by simp)).trans ?_
  simp [decodeOp3F, need]

theorem rdvz (a b : BitVec 6) (n : Bool) (p : BitVec 3) : Statement (.rdvz a b n p) := by
  intro wf w h
  simp only [wellFormed, Bool.and_eq_true, Bool.not_eq_true'] at wf
  obtain ⟨wf, rfl⟩ := wf
  have e : (encA 63 0 a (b) (1) false p) = w := Option.some.inj h
  subst e
  refine (decode_3F _ (by simp)).trans ?_
  simp [decodeOp3F, need]
  simpa [wellFormed] using wf

theorem rdvzEngine (a b : BitVec 6) (n : Bool) (p : BitVec 3) : Statement (.rdvzEngine a b n p) := by
  intro wf w h
  obtain rfl : n = false := by simpa [wellFormed] using wf
  have e : (encA 63 0 a (b) (1) false p) = w := Option.some.inj h
  subst e
  simp [decodeEngine, need]

theorem mburst (a : BitVec 6) (n : Bool) (p : BitVec 3) : Statement (.mburst a n p) := by
  intro wf w h
  obtain rfl : n = false := by simpa [wellFormed] using wf
  have e : (encA 63 0 a (0) (2) false p) = w := Option.some.inj h
  subst e
  refine (decode_3F _ (by simp)).trans ?_
  simp [decodeOp3F, need]

theorem cpyG2s (a b : BitVec 6) : Statement (.cpyG2s a b) := by
  intro wf w h
  have e : (encC 56 0 a b (0) 0 false) = w := Option.some.inj h
  subst e
  refine (decode_38 _ (by simp)).trans ?_
  simp [decodeOp38, need]

theorem cpyS2g (a b : BitVec 6) : Statement (.cpyS2g a b) := by
  intro wf w h
  have e : (encC 56 0 a b (0) 1 false) = w := Option.some.inj h
  subst e
  refine (decode_38 _ (by simp)).trans ?_
  simp [decodeOp38, need]

theorem cpyG2g (a b : BitVec 6) : Statement (.cpyG2g a b) := by
  intro wf w h
  have e : (encC 56 0 a b (0) 2 false) = w := Option.some.inj h
  subst e
  refine (decode_38 _ (by simp)).trans ?_
  simp [decodeOp38, need]

theorem cpyGath (a b : BitVec 6) (v : BitVec 3) : Statement (.cpyGath a b v) := by
  intro wf w h
  have e : (encC 56 0 a b (v) 3 false) = w := Option.some.inj h
  subst e
  refine (decode_38 _ (by simp)).trans ?_
  simp [decodeOp38, need]
  simpa [wellFormed] using wf

theorem cpyFill (a b : BitVec 6) : Statement (.cpyFill a b) := by
  intro wf w h
  have e : (encC 56 0 a b (0) 4 false) = w := Option.some.inj h
  subst e
  refine (decode_38 _ (by simp)).trans ?_
  simp [decodeOp38, need]

theorem cpyMap (a b : BitVec 6) : Statement (.cpyMap a b) := by
  intro wf w h
  have e : (encC 56 0 a b (0) 5 false) = w := Option.some.inj h
  subst e
  refine (decode_38 _ (by simp)).trans ?_
  simp [decodeOp38, need]

theorem cpyUnmap (b : BitVec 6) : Statement (.cpyUnmap b) := by
  intro wf w h
  have e : (encC 56 0 0 b (0) 6 false) = w := Option.some.inj h
  subst e
  refine (decode_38 _ (by simp)).trans ?_
  simp [decodeOp38, need]

theorem cpyWb (b : BitVec 6) : Statement (.cpyWb b) := by
  intro wf w h
  have e : (encC 56 0 0 b (0) 7 false) = w := Option.some.inj h
  subst e
  refine (decode_38 _ (by simp)).trans ?_
  simp [decodeOp38, need]

theorem mtxMwld (a b : BitVec 6) : Statement (.mtxMwld a b) := by
  intro wf w h
  have e : (encC 57 0 a b (0) 0 false) = w := Option.some.inj h
  subst e
  refine (decode_39 _ (by simp)).trans ?_
  simp [decodeOp39, need]

theorem mtxMwscl (a b : BitVec 6) : Statement (.mtxMwscl a b) := by
  intro wf w h
  have e : (encC 57 0 a b (0) 1 false) = w := Option.some.inj h
  subst e
  refine (decode_39 _ (by simp)).trans ?_
  simp [decodeOp39, need]

theorem mtxMswap (v : BitVec 3) : Statement (.mtxMswap v) := by
  intro wf w h
  have e : (encC 57 0 0 0 (v) 2 false) = w := Option.some.inj h
  subst e
  refine (decode_39 _ (by simp)).trans ?_
  simp [decodeOp39, need]
  simpa [wellFormed] using wf

theorem mtxMstr (a b : BitVec 6) : Statement (.mtxMstr a b) := by
  intro wf w h
  have e : (encC 57 0 a b (0) 3 false) = w := Option.some.inj h
  subst e
  refine (decode_39 _ (by simp)).trans ?_
  simp [decodeOp39, need]

theorem mtxMprom (v : BitVec 3) : Statement (.mtxMprom v) := by
  intro wf w h
  have e : (encC 57 0 0 0 (v) 4 false) = w := Option.some.inj h
  subst e
  refine (decode_39 _ (by simp)).trans ?_
  simp [decodeOp39, need]
  simpa [wellFormed] using wf

theorem mtxMzero (b : BitVec 6) : Statement (.mtxMzero b) := by
  intro wf w h
  have e : (encC 57 0 0 b (0) 5 false) = w := Option.some.inj h
  subst e
  refine (decode_39 _ (by simp)).trans ?_
  simp [decodeOp39, need]

theorem mtxMrd (d a : BitVec 6) : Statement (.mtxMrd d a) := by
  intro wf w h
  have e : (encC 57 d a 0 (0) 6 true) = w := Option.some.inj h
  subst e
  refine (decode_39 _ (by simp)).trans ?_
  simp [decodeOp39, need]

theorem mtxMwr (a b : BitVec 6) : Statement (.mtxMwr a b) := by
  intro wf w h
  have e : (encC 57 0 a b (0) 7 false) = w := Option.some.inj h
  subst e
  refine (decode_39 _ (by simp)).trans ?_
  simp [decodeOp39, need]

theorem mtxMout (d a b : BitVec 6) (v : BitVec 3) : Statement (.mtxMout d a b v) := by
  intro wf w h
  have e : (encC 57 d a b (v) 8 true) = w := Option.some.inj h
  subst e
  refine (decode_39 _ (by simp)).trans ?_
  simp [decodeOp39, need]
  simpa [wellFormed] using wf

theorem mtxMdrain (d a b : BitVec 6) (v : BitVec 3) : Statement (.mtxMdrain d a b v) := by
  intro wf w h
  have e : (encC 57 d a b (v) 9 true) = w := Option.some.inj h
  subst e
  refine (decode_39 _ (by simp)).trans ?_
  simp [decodeOp39, need]
  simpa [wellFormed] using wf

theorem mtxMstat (d : BitVec 6) (v : BitVec 3) : Statement (.mtxMstat d v) := by
  intro wf w h
  have e : (encC 57 d 0 0 (v) 10 true) = w := Option.some.inj h
  subst e
  refine (decode_39 _ (by simp)).trans ?_
  simp [decodeOp39, need]
  simpa [wellFormed] using wf

theorem splScfg (a : BitVec 6) : Statement (.splScfg a) := by
  intro wf w h
  have e : (encC 58 0 a 0 (0) 0 false) = w := Option.some.inj h
  subst e
  refine (decode_3A _ (by simp)).trans ?_
  simp [decodeOp3A, need]

theorem splSproj (d a : BitVec 6) : Statement (.splSproj d a) := by
  intro wf w h
  have e : (encC 58 d a 0 (0) 1 true) = w := Option.some.inj h
  subst e
  refine (decode_3A _ (by simp)).trans ?_
  simp [decodeOp3A, need]

theorem splSbin (d a : BitVec 6) : Statement (.splSbin d a) := by
  intro wf w h
  have e : (encC 58 d a 0 (0) 2 true) = w := Option.some.inj h
  subst e
  refine (decode_3A _ (by simp)).trans ?_
  simp [decodeOp3A, need]

theorem splSsort (d a : BitVec 6) : Statement (.splSsort d a) := by
  intro wf w h
  have e : (encC 58 d a 0 (0) 3 true) = w := Option.some.inj h
  subst e
  refine (decode_3A _ (by simp)).trans ?_
  simp [decodeOp3A, need]

theorem splSblend (d a : BitVec 6) : Statement (.splSblend d a) := by
  intro wf w h
  have e : (encC 58 d a 0 (0) 4 true) = w := Option.some.inj h
  subst e
  refine (decode_3A _ (by simp)).trans ?_
  simp [decodeOp3A, need]

theorem splSrepl (d a : BitVec 6) : Statement (.splSrepl d a) := by
  intro wf w h
  have e : (encC 58 d a 0 (0) 5 true) = w := Option.some.inj h
  subst e
  refine (decode_3A _ (by simp)).trans ?_
  simp [decodeOp3A, need]

theorem slvCfg (a : BitVec 6) : Statement (.slvCfg a) := by
  intro wf w h
  have e : (encC 59 0 a 0 (0) 0 false) = w := Option.some.inj h
  subst e
  refine (decode_3B _ (by simp)).trans ?_
  simp [decodeOp3B, need]

theorem slvLu (d a : BitVec 6) : Statement (.slvLu d a) := by
  intro wf w h
  have e : (encC 59 d a 0 (0) 1 true) = w := Option.some.inj h
  subst e
  refine (decode_3B _ (by simp)).trans ?_
  simp [decodeOp3B, need]

theorem slvLus (d a : BitVec 6) : Statement (.slvLus d a) := by
  intro wf w h
  have e : (encC 59 d a 0 (0) 2 true) = w := Option.some.inj h
  subst e
  refine (decode_3B _ (by simp)).trans ?_
  simp [decodeOp3B, need]

theorem slvChol (d a : BitVec 6) : Statement (.slvChol d a) := by
  intro wf w h
  have e : (encC 59 d a 0 (0) 3 true) = w := Option.some.inj h
  subst e
  refine (decode_3B _ (by simp)).trans ?_
  simp [decodeOp3B, need]

theorem slvChs (d a : BitVec 6) : Statement (.slvChs d a) := by
  intro wf w h
  have e : (encC 59 d a 0 (0) 4 true) = w := Option.some.inj h
  subst e
  refine (decode_3B _ (by simp)).trans ?_
  simp [decodeOp3B, need]

theorem slvCg (d a : BitVec 6) : Statement (.slvCg d a) := by
  intro wf w h
  have e : (encC 59 d a 0 (0) 5 true) = w := Option.some.inj h
  subst e
  refine (decode_3B _ (by simp)).trans ?_
  simp [decodeOp3B, need]

theorem slvJac (d a : BitVec 6) : Statement (.slvJac d a) := by
  intro wf w h
  have e : (encC 59 d a 0 (0) 6 true) = w := Option.some.inj h
  subst e
  refine (decode_3B _ (by simp)).trans ?_
  simp [decodeOp3B, need]

theorem colGrp (d a b : BitVec 6) : Statement (.colGrp d a b) := by
  intro wf w h
  have e : (encC 60 d a b (0) 0 true) = w := Option.some.inj h
  subst e
  refine (decode_3C _ (by simp)).trans ?_
  simp [decodeOp3C, need]

theorem colGrpFree (b : BitVec 6) : Statement (.colGrpFree b) := by
  intro wf w h
  have e : (encC 60 0 0 b (1) 0 false) = w := Option.some.inj h
  subst e
  refine (decode_3C _ (by simp)).trans ?_
  simp [decodeOp3C, need]

theorem colAred (d a : BitVec 6) : Statement (.colAred d a) := by
  intro wf w h
  have e : (encC 60 d a 0 (0) 1 true) = w := Option.some.inj h
  subst e
  refine (decode_3C _ (by simp)).trans ?_
  simp [decodeOp3C, need]

theorem colRsc (d a : BitVec 6) : Statement (.colRsc d a) := by
  intro wf w h
  have e : (encC 60 d a 0 (0) 2 true) = w := Option.some.inj h
  subst e
  refine (decode_3C _ (by simp)).trans ?_
  simp [decodeOp3C, need]

theorem colAgath (d a : BitVec 6) : Statement (.colAgath d a) := by
  intro wf w h
  have e : (encC 60 d a 0 (0) 3 true) = w := Option.some.inj h
  subst e
  refine (decode_3C _ (by simp)).trans ?_
  simp [decodeOp3C, need]

theorem colBcast (d a : BitVec 6) : Statement (.colBcast d a) := by
  intro wf w h
  have e : (encC 60 d a 0 (0) 4 true) = w := Option.some.inj h
  subst e
  refine (decode_3C _ (by simp)).trans ?_
  simp [decodeOp3C, need]

theorem colPut (d a : BitVec 6) : Statement (.colPut d a) := by
  intro wf w h
  have e : (encC 60 d a 0 (0) 5 true) = w := Option.some.inj h
  subst e
  refine (decode_3C _ (by simp)).trans ?_
  simp [decodeOp3C, need]

theorem colWait (d a b : BitVec 6) : Statement (.colWait d a b) := by
  intro wf w h
  have e : (encC 60 d a b (0) 6 true) = w := Option.some.inj h
  subst e
  refine (decode_3C _ (by simp)).trans ?_
  simp [decodeOp3C, need]

theorem grfLaunch (d a : BitVec 6) (v : Bool) : Statement (.grfLaunch d a v) := by
  intro wf w h
  have e : (encC 61 d a 0 (BitVec.ofNat 3 v.toNat) 0 true) = w := Option.some.inj h
  subst e
  refine (decode_3D _ (by simp)).trans ?_
  simp [decodeOp3D, need]
  cases v <;> simp

theorem grfQput (b : BitVec 6) : Statement (.grfQput b) := by
  intro wf w h
  have e : (encC 61 0 0 b (0) 1 false) = w := Option.some.inj h
  subst e
  refine (decode_3D _ (by simp)).trans ?_
  simp [decodeOp3D, need]

theorem grfQget (d : BitVec 6) : Statement (.grfQget d) := by
  intro wf w h
  have e : (encC 61 d 0 0 (0) 2 true) = w := Option.some.inj h
  subst e
  refine (decode_3D _ (by simp)).trans ?_
  simp [decodeOp3D, need]

theorem grfNsig (a : BitVec 6) : Statement (.grfNsig a) := by
  intro wf w h
  have e : (encC 61 0 a 0 (0) 3 false) = w := Option.some.inj h
  subst e
  refine (decode_3D _ (by simp)).trans ?_
  simp [decodeOp3D, need]

theorem prbMark (a b : BitVec 6) : Statement (.prbMark a b) := by
  intro wf w h
  have e : (encC 62 0 a b (0) 0 false) = w := Option.some.inj h
  subst e
  refine (decode_3E _ (by simp)).trans ?_
  simp [decodeOp3E, need]

theorem prbSamp : Statement (.prbSamp) := by
  intro wf w h
  have e : (encC 62 0 0 0 (0) 1 false) = w := Option.some.inj h
  subst e
  rfl

theorem prbRdx (d a : BitVec 6) : Statement (.prbRdx d a) := by
  intro wf w h
  have e : (encC 62 d a 0 (0) 2 true) = w := Option.some.inj h
  subst e
  refine (decode_3E _ (by simp)).trans ?_
  simp [decodeOp3E, need]

theorem packageReset : Statement (.packageReset) := by
  intro _ w h
  cases h

theorem pkgrst (value : BitVec 64) : Statement (.pkgrst value) := by
  intro _ w h
  cases h

theorem fwgo (value : BitVec 64) : Statement (.fwgo value) := by
  intro _ w h
  cases h

theorem start (value : BitVec 64) : Statement (.start value) := by
  intro _ w h
  cases h

theorem attgo (value : BitVec 64) : Statement (.attgo value) := by
  intro _ w h
  cases h

theorem dbgnonceRead : Statement (.dbgnonceRead) := by
  intro _ w h
  cases h

theorem dbggo (value : BitVec 64) : Statement (.dbggo value) := by
  intro _ w h
  cases h

theorem dbgsessOpen (asid : Nat) : Statement (.dbgsessOpen asid) := by
  intro _ w h
  cases h

theorem dbgsessClose : Statement (.dbgsessClose) := by
  intro _ w h
  cases h

theorem dbgresSame (die cluster core slot lane : Nat) : Statement (.dbgresSame die cluster core slot lane) := by
  intro _ w h
  cases h

theorem dbgresNext (die cluster core slot lane : Nat) : Statement (.dbgresNext die cluster core slot lane) := by
  intro _ w h
  cases h

theorem invRange (ch asid : Nat) : Statement (.invRange ch asid) := by
  intro _ w h
  cases h

theorem invAsid (ch asid : Nat) : Statement (.invAsid ch asid) := by
  intro _ w h
  cases h

theorem contextRefresh (ch asid : Nat) : Statement (.contextRefresh ch asid) := by
  intro _ w h
  cases h

theorem invalidationDone (ch : Nat) : Statement (.invalidationDone ch) := by
  intro _ w h
  cases h

theorem portReset (port : Nat) : Statement (.portReset port) := by
  intro _ w h
  cases h

theorem pwrP0 (die : Nat) : Statement (.pwrP0 die) := by
  intro _ w h
  cases h

theorem pwrP1 (die : Nat) : Statement (.pwrP1 die) := by
  intro _ w h
  cases h

theorem pwrP2 (die : Nat) : Statement (.pwrP2 die) := by
  intro _ w h
  cases h

theorem pwrP3 (die : Nat) : Statement (.pwrP3 die) := by
  intro _ w h
  cases h

theorem p3Wake (die : Nat) : Statement (.p3Wake die) := by
  intro _ w h
  cases h

theorem registerWrite (bar2 : Bool) (offset : Nat) (value : BitVec 64) : Statement (.registerWrite bar2 offset value) := by
  intro _ w h
  cases h

theorem hostHdmAccess (write : Bool) (addr size : Nat) (value : BitVec 64) : Statement (.hostHdmAccess write addr size value) := by
  intro _ w h
  cases h

theorem submissionWordFire (asid word : Nat) : Statement (.submissionWordFire asid word) := by
  intro _ w h
  cases h

theorem faultResponse (die index : Nat) : Statement (.faultResponse die index) := by
  intro _ w h
  cases h

theorem coreDump (die : Nat) : Statement (.coreDump die) := by
  intro _ w h
  cases h

theorem unitPlace (die kind : Nat) : Statement (.unitPlace die kind) := by
  intro _ w h
  cases h

theorem placingDone (core slot : Nat) : Statement (.placingDone core slot) := by
  intro _ w h
  cases h

theorem slotRetire (core slot : Nat) : Statement (.slotRetire core slot) := by
  intro _ w h
  cases h

theorem clusterModeSwitch (die cluster : Nat) : Statement (.clusterModeSwitch die cluster) := by
  intro _ w h
  cases h

theorem waitlimExpiry (die kind : Nat) : Statement (.waitlimExpiry die kind) := by
  intro _ w h
  cases h

theorem cohortSave (cohort : Nat) : Statement (.cohortSave cohort) := by
  intro _ w h
  cases h

theorem flushdMakeRoom (node : Nat) : Statement (.flushdMakeRoom node) := by
  intro _ w h
  cases h

theorem nodeRetire (node : Nat) : Statement (.nodeRetire node) := by
  intro _ w h
  cases h

theorem nodeTrigger (node : Nat) : Statement (.nodeTrigger node) := by
  intro _ w h
  cases h

theorem copyNodeRun (node : Nat) : Statement (.copyNodeRun node) := by
  intro _ w h
  cases h

theorem signalNodeRun (node : Nat) : Statement (.signalNodeRun node) := by
  intro _ w h
  cases h

theorem clauseOpen (core : Nat) : Statement (.clauseOpen core) := by
  intro _ w h
  cases h

theorem parkedGroupResume (index : Nat) : Statement (.parkedGroupResume index) := by
  intro _ w h
  cases h

theorem deferralRelease (thread : Nat) : Statement (.deferralRelease thread) := by
  intro _ w h
  cases h

theorem deferralExpiry (thread : Nat) : Statement (.deferralExpiry thread) := by
  intro _ w h
  cases h

theorem rendezvousComplete (core slot : Nat) (pc : BitVec 64) (level : Nat) : Statement (.rendezvousComplete core slot pc level) := by
  intro _ w h
  cases h

theorem debugStop (thread : Nat) : Statement (.debugStop thread) := by
  intro _ w h
  cases h

theorem threadExitComplete (thread : Nat) : Statement (.threadExitComplete thread) := by
  intro _ w h
  cases h

theorem loadDataReturn (access : Nat) : Statement (.loadDataReturn access) := by
  intro _ w h
  cases h

theorem writeArrivalHome (access : Nat) : Statement (.writeArrivalHome access) := by
  intro _ w h
  cases h

theorem waitmTimeout (thread : Nat) : Statement (.waitmTimeout thread) := by
  intro _ w h
  cases h

theorem leaseExpiry (copy : Nat) : Statement (.leaseExpiry copy) := by
  intro _ w h
  cases h

theorem stackRowFill (core slot offset : Nat) : Statement (.stackRowFill core slot offset) := by
  intro _ w h
  cases h

theorem guardHead (core cls : Nat) : Statement (.guardHead core cls) := by
  intro _ w h
  cases h

theorem commandReply (core cls : Nat) : Statement (.commandReply core cls) := by
  intro _ w h
  cases h

theorem copyComplete (core : Nat) : Statement (.copyComplete core) := by
  intro _ w h
  cases h

theorem arrayRowExit (core : Nat) : Statement (.arrayRowExit core) := by
  intro _ w h
  cases h

theorem arrayRampUpDone (core : Nat) : Statement (.arrayRampUpDone core) := by
  intro _ w h
  cases h

theorem arrayRampDown (core : Nat) : Statement (.arrayRampDown core) := by
  intro _ w h
  cases h

theorem mburstWindowExpiry (core : Nat) : Statement (.mburstWindowExpiry core) := by
  intro _ w h
  cases h

theorem barrierPhaseComplete (cohort barrier : Nat) : Statement (.barrierPhaseComplete cohort barrier) := by
  intro _ w h
  cases h

theorem flushdComplete (node : Nat) : Statement (.flushdComplete node) := by
  intro _ w h
  cases h

theorem queueRecordDeliver (core : Nat) : Statement (.queueRecordDeliver core) := by
  intro _ w h
  cases h

theorem flitReceive (source chan seq tag die kind : Nat) (args : List Nat) (payload : List (BitVec 8)) : Statement (.flitReceive source chan seq tag die kind args payload) := by
  intro _ w h
  cases h

theorem flitCrcRetry (port : Nat) : Statement (.flitCrcRetry port) := by
  intro _ w h
  cases h

theorem linkFailure (port : Nat) : Statement (.linkFailure port) := by
  intro _ w h
  cases h

theorem trainingSuccess (port : Nat) : Statement (.trainingSuccess port) := by
  intro _ w h
  cases h

theorem retrainTimeout (port : Nat) : Statement (.retrainTimeout port) := by
  intro _ w h
  cases h

theorem collectiveInstanceComplete (die asid handle : Nat) : Statement (.collectiveInstanceComplete die asid handle) := by
  intro _ w h
  cases h

theorem collectiveTimeout (core : Nat) : Statement (.collectiveTimeout core) := by
  intro _ w h
  cases h

theorem putDelivered (put : Nat) : Statement (.putDelivered put) := by
  intro _ w h
  cases h

theorem cicadaSample (core : Nat) : Statement (.cicadaSample core) := by
  intro _ w h
  cases h

theorem requestSampleComplete (access : Nat) (queueing : List Nat) : Statement (.requestSampleComplete access queueing) := by
  intro _ w h
  cases h

theorem softError (corrected : Bool) (place a b c : Nat) : Statement (.softError corrected place a b c) := by
  intro _ w h
  cases h

theorem storePerformed (access : Nat) : Statement (.storePerformed access) := by
  intro _ w h
  cases h

theorem hostRecall (line : Nat) : Statement (.hostRecall line) := by
  intro _ w h
  cases h

theorem openIntervalWaitExpiry (core : Nat) : Statement (.openIntervalWaitExpiry core) := by
  intro _ w h
  cases h

theorem commandComplete (core cls : Nat) : Statement (.commandComplete core cls) := by
  intro _ w h
  cases h

theorem hdmDecoderProgram (base : Nat) : Statement (.hdmDecoderProgram base) := by
  intro _ w h
  cases h

end Sys2Proof.Laws.RoundTrip
end

