-- ==== Sys2Proof/Laws/State.lean ====
section
/-! SUPPORT. The fields of a state and of a thread after each named update: what it changed, and that every other field is as it was. -/

namespace Sys2Proof.Machine

-- `setThread`.
@[simp] theorem setThread_threads (s : State) (t : Nat) (th : Thread) : (setThread s t th).threads = putK s.threads t th := rfl
@[simp] theorem setThread_opens (s : State) (t : Nat) (th : Thread) : (setThread s t th).opens = s.opens := rfl
@[simp] theorem setThread_cur (s : State) (t : Nat) (th : Thread) : (setThread s t th).cur = s.cur := rfl
@[simp] theorem setThread_parked (s : State) (t : Nat) (th : Thread) : (setThread s t th).parked = s.parked := rfl
@[simp] theorem setThread_deferrals (s : State) (t : Nat) (th : Thread) : (setThread s t th).deferrals = s.deferrals := rfl
@[simp] theorem setThread_halted (s : State) (t : Nat) (th : Thread) : (setThread s t th).halted = s.halted := rfl
@[simp] theorem setThread_dumps (s : State) (t : Nat) (th : Thread) : (setThread s t th).dumps = s.dumps := rfl
@[simp] theorem setThread_slots (s : State) (t : Nat) (th : Thread) : (setThread s t th).slots = s.slots := rfl
@[simp] theorem setThread_crews (s : State) (t : Nat) (th : Thread) : (setThread s t th).crews = s.crews := rfl
@[simp] theorem setThread_cohorts (s : State) (t : Nat) (th : Thread) : (setThread s t th).cohorts = s.cohorts := rfl
@[simp] theorem setThread_nodes (s : State) (t : Nat) (th : Thread) : (setThread s t th).nodes = s.nodes := rfl
@[simp] theorem setThread_swarm (s : State) (t : Nat) (th : Thread) : (setThread s t th).swarm = s.swarm := rfl
@[simp] theorem setThread_rows (s : State) (t : Nat) (th : Thread) : (setThread s t th).rows = s.rows := rfl
@[simp] theorem setThread_queues (s : State) (t : Nat) (th : Thread) : (setThread s t th).queues = s.queues := rfl
@[simp] theorem setThread_mem (s : State) (t : Nat) (th : Thread) : (setThread s t th).mem = s.mem := rfl
@[simp] theorem setThread_gwct (s : State) (t : Nat) (th : Thread) : (setThread s t th).gwct = s.gwct := rfl
@[simp] theorem setThread_stamps (s : State) (t : Nat) (th : Thread) : (setThread s t th).stamps = s.stamps := rfl
@[simp] theorem setThread_copies (s : State) (t : Nat) (th : Thread) : (setThread s t th).copies = s.copies := rfl
@[simp] theorem setThread_acquired (s : State) (t : Nat) (th : Thread) : (setThread s t th).acquired = s.acquired := rfl
@[simp] theorem setThread_access (s : State) (t : Nat) (th : Thread) : (setThread s t th).access = s.access := rfl
@[simp] theorem setThread_tlb (s : State) (t : Nat) (th : Thread) : (setThread s t th).tlb = s.tlb := rfl
@[simp] theorem setThread_faults (s : State) (t : Nat) (th : Thread) : (setThread s t th).faults = s.faults := rfl
@[simp] theorem setThread_valid (s : State) (t : Nat) (th : Thread) : (setThread s t th).valid = s.valid := rfl
@[simp] theorem setThread_keys (s : State) (t : Nat) (th : Thread) : (setThread s t th).keys = s.keys := rfl
@[simp] theorem setThread_nextKey (s : State) (t : Nat) (th : Thread) : (setThread s t th).nextKey = s.nextKey := rfl
@[simp] theorem setThread_lineKeys (s : State) (t : Nat) (th : Thread) : (setThread s t th).lineKeys = s.lineKeys := rfl
@[simp] theorem setThread_poison (s : State) (t : Nat) (th : Thread) : (setThread s t th).poison = s.poison := rfl
@[simp] theorem setThread_bar0 (s : State) (t : Nat) (th : Thread) : (setThread s t th).bar0 = s.bar0 := rfl
@[simp] theorem setThread_bar2 (s : State) (t : Nat) (th : Thread) : (setThread s t th).bar2 = s.bar2 := rfl
@[simp] theorem setThread_subWatch (s : State) (t : Nat) (th : Thread) : (setThread s t th).subWatch = s.subWatch := rfl
@[simp] theorem setThread_subFired (s : State) (t : Nat) (th : Thread) : (setThread s t th).subFired = s.subFired := rfl
@[simp] theorem setThread_reuse (s : State) (t : Nat) (th : Thread) : (setThread s t th).reuse = s.reuse := rfl
@[simp] theorem setThread_fusedClusters (s : State) (t : Nat) (th : Thread) : (setThread s t th).fusedClusters = s.fusedClusters := rfl
@[simp] theorem setThread_draining (s : State) (t : Nat) (th : Thread) : (setThread s t th).draining = s.draining := rfl
@[simp] theorem setThread_girders (s : State) (t : Nat) (th : Thread) : (setThread s t th).girders = s.girders := rfl
@[simp] theorem setThread_scarabs (s : State) (t : Nat) (th : Thread) : (setThread s t th).scarabs = s.scarabs := rfl
@[simp] theorem setThread_handles (s : State) (t : Nat) (th : Thread) : (setThread s t th).handles = s.handles := rfl
@[simp] theorem setThread_colCmds (s : State) (t : Nat) (th : Thread) : (setThread s t th).colCmds = s.colCmds := rfl
@[simp] theorem setThread_contribs (s : State) (t : Nat) (th : Thread) : (setThread s t th).contribs = s.contribs := rfl
@[simp] theorem setThread_puts (s : State) (t : Nat) (th : Thread) : (setThread s t th).puts = s.puts := rfl
@[simp] theorem setThread_inbox (s : State) (t : Nat) (th : Thread) : (setThread s t th).inbox = s.inbox := rfl
@[simp] theorem setThread_outbox (s : State) (t : Nat) (th : Thread) : (setThread s t th).outbox = s.outbox := rfl
@[simp] theorem setThread_inSeq (s : State) (t : Nat) (th : Thread) : (setThread s t th).inSeq = s.inSeq := rfl
@[simp] theorem setThread_outSeq (s : State) (t : Nat) (th : Thread) : (setThread s t th).outSeq = s.outSeq := rfl
@[simp] theorem setThread_refusals (s : State) (t : Nat) (th : Thread) : (setThread s t th).refusals = s.refusals := rfl
@[simp] theorem setThread_ports (s : State) (t : Nat) (th : Thread) : (setThread s t th).ports = s.ports := rfl
@[simp] theorem setThread_cicadaAt (s : State) (t : Nat) (th : Thread) : (setThread s t th).cicadaAt = s.cicadaAt := rfl
@[simp] theorem setThread_sampCount (s : State) (t : Nat) (th : Thread) : (setThread s t th).sampCount = s.sampCount := rfl
@[simp] theorem setThread_inval (s : State) (t : Nat) (th : Thread) : (setThread s t th).inval = s.inval := rfl
@[simp] theorem setThread_meas (s : State) (t : Nat) (th : Thread) : (setThread s t th).meas = s.meas := rfl
@[simp] theorem setThread_session (s : State) (t : Nat) (th : Thread) : (setThread s t th).session = s.session := rfl
@[simp] theorem setThread_power (s : State) (t : Nat) (th : Thread) : (setThread s t th).power = s.power := rfl
@[simp] theorem setThread_solverTurn (s : State) (t : Nat) (th : Thread) : (setThread s t th).solverTurn = s.solverTurn := rfl
@[simp] theorem setThread_hdmBase (s : State) (t : Nat) (th : Thread) : (setThread s t th).hdmBase = s.hdmBase := rfl
@[simp] theorem setThread_hostQueue (s : State) (t : Nat) (th : Thread) : (setThread s t th).hostQueue = s.hostQueue := rfl
@[simp] theorem setThread_hostReplies (s : State) (t : Nat) (th : Thread) : (setThread s t th).hostReplies = s.hostReplies := rfl
@[simp] theorem setThread_msix (s : State) (t : Nat) (th : Thread) : (setThread s t th).msix = s.msix := rfl
@[simp] theorem setThread_checks (s : State) (t : Nat) (th : Thread) : (setThread s t th).checks = s.checks := rfl
@[simp] theorem setThread_dumpAborts (s : State) (t : Nat) (th : Thread) : (setThread s t th).dumpAborts = s.dumpAborts := rfl
@[simp] theorem setThread_span (s : State) (t : Nat) (th : Thread) : (setThread s t th).span = s.span := rfl
@[simp] theorem setThread_cycles (s : State) (t : Nat) (th : Thread) : (setThread s t th).cycles = s.cycles := rfl
@[simp] theorem setThread_seqno (s : State) (t : Nat) (th : Thread) : (setThread s t th).seqno = s.seqno := rfl
@[simp] theorem setThread_elapse (s : State) (t : Nat) (th : Thread) : (setThread s t th).elapse = s.elapse := rfl
@[simp] theorem setThread_turns (s : State) (t : Nat) (th : Thread) : (setThread s t th).turns = s.turns := rfl
@[simp] theorem setThread_agenda (s : State) (t : Nat) (th : Thread) : (setThread s t th).agenda = s.agenda := rfl

-- `setIssuing`.
@[simp] theorem setIssuing_threads (s : State) (g : Group) : (setIssuing s g).threads = s.threads := rfl
@[simp] theorem setIssuing_opens (s : State) (g : Group) : (setIssuing s g).opens = s.opens.set s.cur g := rfl
@[simp] theorem setIssuing_cur (s : State) (g : Group) : (setIssuing s g).cur = s.cur := rfl
@[simp] theorem setIssuing_parked (s : State) (g : Group) : (setIssuing s g).parked = s.parked := rfl
@[simp] theorem setIssuing_deferrals (s : State) (g : Group) : (setIssuing s g).deferrals = s.deferrals := rfl
@[simp] theorem setIssuing_halted (s : State) (g : Group) : (setIssuing s g).halted = s.halted := rfl
@[simp] theorem setIssuing_dumps (s : State) (g : Group) : (setIssuing s g).dumps = s.dumps := rfl
@[simp] theorem setIssuing_slots (s : State) (g : Group) : (setIssuing s g).slots = s.slots := rfl
@[simp] theorem setIssuing_crews (s : State) (g : Group) : (setIssuing s g).crews = s.crews := rfl
@[simp] theorem setIssuing_cohorts (s : State) (g : Group) : (setIssuing s g).cohorts = s.cohorts := rfl
@[simp] theorem setIssuing_nodes (s : State) (g : Group) : (setIssuing s g).nodes = s.nodes := rfl
@[simp] theorem setIssuing_swarm (s : State) (g : Group) : (setIssuing s g).swarm = s.swarm := rfl
@[simp] theorem setIssuing_rows (s : State) (g : Group) : (setIssuing s g).rows = s.rows := rfl
@[simp] theorem setIssuing_queues (s : State) (g : Group) : (setIssuing s g).queues = s.queues := rfl
@[simp] theorem setIssuing_mem (s : State) (g : Group) : (setIssuing s g).mem = s.mem := rfl
@[simp] theorem setIssuing_gwct (s : State) (g : Group) : (setIssuing s g).gwct = s.gwct := rfl
@[simp] theorem setIssuing_stamps (s : State) (g : Group) : (setIssuing s g).stamps = s.stamps := rfl
@[simp] theorem setIssuing_copies (s : State) (g : Group) : (setIssuing s g).copies = s.copies := rfl
@[simp] theorem setIssuing_acquired (s : State) (g : Group) : (setIssuing s g).acquired = s.acquired := rfl
@[simp] theorem setIssuing_access (s : State) (g : Group) : (setIssuing s g).access = s.access := rfl
@[simp] theorem setIssuing_tlb (s : State) (g : Group) : (setIssuing s g).tlb = s.tlb := rfl
@[simp] theorem setIssuing_faults (s : State) (g : Group) : (setIssuing s g).faults = s.faults := rfl
@[simp] theorem setIssuing_valid (s : State) (g : Group) : (setIssuing s g).valid = s.valid := rfl
@[simp] theorem setIssuing_keys (s : State) (g : Group) : (setIssuing s g).keys = s.keys := rfl
@[simp] theorem setIssuing_nextKey (s : State) (g : Group) : (setIssuing s g).nextKey = s.nextKey := rfl
@[simp] theorem setIssuing_lineKeys (s : State) (g : Group) : (setIssuing s g).lineKeys = s.lineKeys := rfl
@[simp] theorem setIssuing_poison (s : State) (g : Group) : (setIssuing s g).poison = s.poison := rfl
@[simp] theorem setIssuing_bar0 (s : State) (g : Group) : (setIssuing s g).bar0 = s.bar0 := rfl
@[simp] theorem setIssuing_bar2 (s : State) (g : Group) : (setIssuing s g).bar2 = s.bar2 := rfl
@[simp] theorem setIssuing_subWatch (s : State) (g : Group) : (setIssuing s g).subWatch = s.subWatch := rfl
@[simp] theorem setIssuing_subFired (s : State) (g : Group) : (setIssuing s g).subFired = s.subFired := rfl
@[simp] theorem setIssuing_reuse (s : State) (g : Group) : (setIssuing s g).reuse = s.reuse := rfl
@[simp] theorem setIssuing_fusedClusters (s : State) (g : Group) : (setIssuing s g).fusedClusters = s.fusedClusters := rfl
@[simp] theorem setIssuing_draining (s : State) (g : Group) : (setIssuing s g).draining = s.draining := rfl
@[simp] theorem setIssuing_girders (s : State) (g : Group) : (setIssuing s g).girders = s.girders := rfl
@[simp] theorem setIssuing_scarabs (s : State) (g : Group) : (setIssuing s g).scarabs = s.scarabs := rfl
@[simp] theorem setIssuing_handles (s : State) (g : Group) : (setIssuing s g).handles = s.handles := rfl
@[simp] theorem setIssuing_colCmds (s : State) (g : Group) : (setIssuing s g).colCmds = s.colCmds := rfl
@[simp] theorem setIssuing_contribs (s : State) (g : Group) : (setIssuing s g).contribs = s.contribs := rfl
@[simp] theorem setIssuing_puts (s : State) (g : Group) : (setIssuing s g).puts = s.puts := rfl
@[simp] theorem setIssuing_inbox (s : State) (g : Group) : (setIssuing s g).inbox = s.inbox := rfl
@[simp] theorem setIssuing_outbox (s : State) (g : Group) : (setIssuing s g).outbox = s.outbox := rfl
@[simp] theorem setIssuing_inSeq (s : State) (g : Group) : (setIssuing s g).inSeq = s.inSeq := rfl
@[simp] theorem setIssuing_outSeq (s : State) (g : Group) : (setIssuing s g).outSeq = s.outSeq := rfl
@[simp] theorem setIssuing_refusals (s : State) (g : Group) : (setIssuing s g).refusals = s.refusals := rfl
@[simp] theorem setIssuing_ports (s : State) (g : Group) : (setIssuing s g).ports = s.ports := rfl
@[simp] theorem setIssuing_cicadaAt (s : State) (g : Group) : (setIssuing s g).cicadaAt = s.cicadaAt := rfl
@[simp] theorem setIssuing_sampCount (s : State) (g : Group) : (setIssuing s g).sampCount = s.sampCount := rfl
@[simp] theorem setIssuing_inval (s : State) (g : Group) : (setIssuing s g).inval = s.inval := rfl
@[simp] theorem setIssuing_meas (s : State) (g : Group) : (setIssuing s g).meas = s.meas := rfl
@[simp] theorem setIssuing_session (s : State) (g : Group) : (setIssuing s g).session = s.session := rfl
@[simp] theorem setIssuing_power (s : State) (g : Group) : (setIssuing s g).power = s.power := rfl
@[simp] theorem setIssuing_solverTurn (s : State) (g : Group) : (setIssuing s g).solverTurn = s.solverTurn := rfl
@[simp] theorem setIssuing_hdmBase (s : State) (g : Group) : (setIssuing s g).hdmBase = s.hdmBase := rfl
@[simp] theorem setIssuing_hostQueue (s : State) (g : Group) : (setIssuing s g).hostQueue = s.hostQueue := rfl
@[simp] theorem setIssuing_hostReplies (s : State) (g : Group) : (setIssuing s g).hostReplies = s.hostReplies := rfl
@[simp] theorem setIssuing_msix (s : State) (g : Group) : (setIssuing s g).msix = s.msix := rfl
@[simp] theorem setIssuing_checks (s : State) (g : Group) : (setIssuing s g).checks = s.checks := rfl
@[simp] theorem setIssuing_dumpAborts (s : State) (g : Group) : (setIssuing s g).dumpAborts = s.dumpAborts := rfl
@[simp] theorem setIssuing_span (s : State) (g : Group) : (setIssuing s g).span = s.span := rfl
@[simp] theorem setIssuing_cycles (s : State) (g : Group) : (setIssuing s g).cycles = s.cycles := rfl
@[simp] theorem setIssuing_seqno (s : State) (g : Group) : (setIssuing s g).seqno = s.seqno := rfl
@[simp] theorem setIssuing_elapse (s : State) (g : Group) : (setIssuing s g).elapse = s.elapse := rfl
@[simp] theorem setIssuing_turns (s : State) (g : Group) : (setIssuing s g).turns = s.turns := rfl
@[simp] theorem setIssuing_agenda (s : State) (g : Group) : (setIssuing s g).agenda = s.agenda := rfl

-- `closeIssuing`.
@[simp] theorem closeIssuing_threads (s : State) : (closeIssuing s).threads = s.threads := rfl
@[simp] theorem closeIssuing_opens (s : State) : (closeIssuing s).opens = s.opens.eraseIdx s.cur := rfl
@[simp] theorem closeIssuing_cur (s : State) : (closeIssuing s).cur = s.cur := rfl
@[simp] theorem closeIssuing_parked (s : State) : (closeIssuing s).parked = s.parked := rfl
@[simp] theorem closeIssuing_deferrals (s : State) : (closeIssuing s).deferrals = s.deferrals := rfl
@[simp] theorem closeIssuing_halted (s : State) : (closeIssuing s).halted = s.halted := rfl
@[simp] theorem closeIssuing_dumps (s : State) : (closeIssuing s).dumps = s.dumps := rfl
@[simp] theorem closeIssuing_slots (s : State) : (closeIssuing s).slots = s.slots := rfl
@[simp] theorem closeIssuing_crews (s : State) : (closeIssuing s).crews = s.crews := rfl
@[simp] theorem closeIssuing_cohorts (s : State) : (closeIssuing s).cohorts = s.cohorts := rfl
@[simp] theorem closeIssuing_nodes (s : State) : (closeIssuing s).nodes = s.nodes := rfl
@[simp] theorem closeIssuing_swarm (s : State) : (closeIssuing s).swarm = s.swarm := rfl
@[simp] theorem closeIssuing_rows (s : State) : (closeIssuing s).rows = s.rows := rfl
@[simp] theorem closeIssuing_queues (s : State) : (closeIssuing s).queues = s.queues := rfl
@[simp] theorem closeIssuing_mem (s : State) : (closeIssuing s).mem = s.mem := rfl
@[simp] theorem closeIssuing_gwct (s : State) : (closeIssuing s).gwct = s.gwct := rfl
@[simp] theorem closeIssuing_stamps (s : State) : (closeIssuing s).stamps = s.stamps := rfl
@[simp] theorem closeIssuing_copies (s : State) : (closeIssuing s).copies = s.copies := rfl
@[simp] theorem closeIssuing_acquired (s : State) : (closeIssuing s).acquired = s.acquired := rfl
@[simp] theorem closeIssuing_access (s : State) : (closeIssuing s).access = s.access := rfl
@[simp] theorem closeIssuing_tlb (s : State) : (closeIssuing s).tlb = s.tlb := rfl
@[simp] theorem closeIssuing_faults (s : State) : (closeIssuing s).faults = s.faults := rfl
@[simp] theorem closeIssuing_valid (s : State) : (closeIssuing s).valid = s.valid := rfl
@[simp] theorem closeIssuing_keys (s : State) : (closeIssuing s).keys = s.keys := rfl
@[simp] theorem closeIssuing_nextKey (s : State) : (closeIssuing s).nextKey = s.nextKey := rfl
@[simp] theorem closeIssuing_lineKeys (s : State) : (closeIssuing s).lineKeys = s.lineKeys := rfl
@[simp] theorem closeIssuing_poison (s : State) : (closeIssuing s).poison = s.poison := rfl
@[simp] theorem closeIssuing_bar0 (s : State) : (closeIssuing s).bar0 = s.bar0 := rfl
@[simp] theorem closeIssuing_bar2 (s : State) : (closeIssuing s).bar2 = s.bar2 := rfl
@[simp] theorem closeIssuing_subWatch (s : State) : (closeIssuing s).subWatch = s.subWatch := rfl
@[simp] theorem closeIssuing_subFired (s : State) : (closeIssuing s).subFired = s.subFired := rfl
@[simp] theorem closeIssuing_reuse (s : State) : (closeIssuing s).reuse = s.reuse := rfl
@[simp] theorem closeIssuing_fusedClusters (s : State) : (closeIssuing s).fusedClusters = s.fusedClusters := rfl
@[simp] theorem closeIssuing_draining (s : State) : (closeIssuing s).draining = s.draining := rfl
@[simp] theorem closeIssuing_girders (s : State) : (closeIssuing s).girders = s.girders := rfl
@[simp] theorem closeIssuing_scarabs (s : State) : (closeIssuing s).scarabs = s.scarabs := rfl
@[simp] theorem closeIssuing_handles (s : State) : (closeIssuing s).handles = s.handles := rfl
@[simp] theorem closeIssuing_colCmds (s : State) : (closeIssuing s).colCmds = s.colCmds := rfl
@[simp] theorem closeIssuing_contribs (s : State) : (closeIssuing s).contribs = s.contribs := rfl
@[simp] theorem closeIssuing_puts (s : State) : (closeIssuing s).puts = s.puts := rfl
@[simp] theorem closeIssuing_inbox (s : State) : (closeIssuing s).inbox = s.inbox := rfl
@[simp] theorem closeIssuing_outbox (s : State) : (closeIssuing s).outbox = s.outbox := rfl
@[simp] theorem closeIssuing_inSeq (s : State) : (closeIssuing s).inSeq = s.inSeq := rfl
@[simp] theorem closeIssuing_outSeq (s : State) : (closeIssuing s).outSeq = s.outSeq := rfl
@[simp] theorem closeIssuing_refusals (s : State) : (closeIssuing s).refusals = s.refusals := rfl
@[simp] theorem closeIssuing_ports (s : State) : (closeIssuing s).ports = s.ports := rfl
@[simp] theorem closeIssuing_cicadaAt (s : State) : (closeIssuing s).cicadaAt = s.cicadaAt := rfl
@[simp] theorem closeIssuing_sampCount (s : State) : (closeIssuing s).sampCount = s.sampCount := rfl
@[simp] theorem closeIssuing_inval (s : State) : (closeIssuing s).inval = s.inval := rfl
@[simp] theorem closeIssuing_meas (s : State) : (closeIssuing s).meas = s.meas := rfl
@[simp] theorem closeIssuing_session (s : State) : (closeIssuing s).session = s.session := rfl
@[simp] theorem closeIssuing_power (s : State) : (closeIssuing s).power = s.power := rfl
@[simp] theorem closeIssuing_solverTurn (s : State) : (closeIssuing s).solverTurn = s.solverTurn := rfl
@[simp] theorem closeIssuing_hdmBase (s : State) : (closeIssuing s).hdmBase = s.hdmBase := rfl
@[simp] theorem closeIssuing_hostQueue (s : State) : (closeIssuing s).hostQueue = s.hostQueue := rfl
@[simp] theorem closeIssuing_hostReplies (s : State) : (closeIssuing s).hostReplies = s.hostReplies := rfl
@[simp] theorem closeIssuing_msix (s : State) : (closeIssuing s).msix = s.msix := rfl
@[simp] theorem closeIssuing_checks (s : State) : (closeIssuing s).checks = s.checks := rfl
@[simp] theorem closeIssuing_dumpAborts (s : State) : (closeIssuing s).dumpAborts = s.dumpAborts := rfl
@[simp] theorem closeIssuing_span (s : State) : (closeIssuing s).span = s.span := rfl
@[simp] theorem closeIssuing_cycles (s : State) : (closeIssuing s).cycles = s.cycles := rfl
@[simp] theorem closeIssuing_seqno (s : State) : (closeIssuing s).seqno = s.seqno := rfl
@[simp] theorem closeIssuing_elapse (s : State) : (closeIssuing s).elapse = s.elapse := rfl
@[simp] theorem closeIssuing_turns (s : State) : (closeIssuing s).turns = s.turns := rfl
@[simp] theorem closeIssuing_agenda (s : State) : (closeIssuing s).agenda = s.agenda := rfl

-- `putQueue`.
@[simp] theorem putQueue_threads (s : State) (core cls : Nat) (q : List QEntry) : (putQueue s core cls q).threads = s.threads := rfl
@[simp] theorem putQueue_opens (s : State) (core cls : Nat) (q : List QEntry) : (putQueue s core cls q).opens = s.opens := rfl
@[simp] theorem putQueue_cur (s : State) (core cls : Nat) (q : List QEntry) : (putQueue s core cls q).cur = s.cur := rfl
@[simp] theorem putQueue_parked (s : State) (core cls : Nat) (q : List QEntry) : (putQueue s core cls q).parked = s.parked := rfl
@[simp] theorem putQueue_deferrals (s : State) (core cls : Nat) (q : List QEntry) : (putQueue s core cls q).deferrals = s.deferrals := rfl
@[simp] theorem putQueue_halted (s : State) (core cls : Nat) (q : List QEntry) : (putQueue s core cls q).halted = s.halted := rfl
@[simp] theorem putQueue_dumps (s : State) (core cls : Nat) (q : List QEntry) : (putQueue s core cls q).dumps = s.dumps := rfl
@[simp] theorem putQueue_slots (s : State) (core cls : Nat) (q : List QEntry) : (putQueue s core cls q).slots = s.slots := rfl
@[simp] theorem putQueue_crews (s : State) (core cls : Nat) (q : List QEntry) : (putQueue s core cls q).crews = s.crews := rfl
@[simp] theorem putQueue_cohorts (s : State) (core cls : Nat) (q : List QEntry) : (putQueue s core cls q).cohorts = s.cohorts := rfl
@[simp] theorem putQueue_nodes (s : State) (core cls : Nat) (q : List QEntry) : (putQueue s core cls q).nodes = s.nodes := rfl
@[simp] theorem putQueue_swarm (s : State) (core cls : Nat) (q : List QEntry) : (putQueue s core cls q).swarm = s.swarm := rfl
@[simp] theorem putQueue_rows (s : State) (core cls : Nat) (q : List QEntry) : (putQueue s core cls q).rows = s.rows := rfl
@[simp] theorem putQueue_queues (s : State) (core cls : Nat) (q : List QEntry) : (putQueue s core cls q).queues = putK s.queues (queueNo core cls) q := rfl
@[simp] theorem putQueue_mem (s : State) (core cls : Nat) (q : List QEntry) : (putQueue s core cls q).mem = s.mem := rfl
@[simp] theorem putQueue_gwct (s : State) (core cls : Nat) (q : List QEntry) : (putQueue s core cls q).gwct = s.gwct := rfl
@[simp] theorem putQueue_stamps (s : State) (core cls : Nat) (q : List QEntry) : (putQueue s core cls q).stamps = s.stamps := rfl
@[simp] theorem putQueue_copies (s : State) (core cls : Nat) (q : List QEntry) : (putQueue s core cls q).copies = s.copies := rfl
@[simp] theorem putQueue_acquired (s : State) (core cls : Nat) (q : List QEntry) : (putQueue s core cls q).acquired = s.acquired := rfl
@[simp] theorem putQueue_access (s : State) (core cls : Nat) (q : List QEntry) : (putQueue s core cls q).access = s.access := rfl
@[simp] theorem putQueue_tlb (s : State) (core cls : Nat) (q : List QEntry) : (putQueue s core cls q).tlb = s.tlb := rfl
@[simp] theorem putQueue_faults (s : State) (core cls : Nat) (q : List QEntry) : (putQueue s core cls q).faults = s.faults := rfl
@[simp] theorem putQueue_valid (s : State) (core cls : Nat) (q : List QEntry) : (putQueue s core cls q).valid = s.valid := rfl
@[simp] theorem putQueue_keys (s : State) (core cls : Nat) (q : List QEntry) : (putQueue s core cls q).keys = s.keys := rfl
@[simp] theorem putQueue_nextKey (s : State) (core cls : Nat) (q : List QEntry) : (putQueue s core cls q).nextKey = s.nextKey := rfl
@[simp] theorem putQueue_lineKeys (s : State) (core cls : Nat) (q : List QEntry) : (putQueue s core cls q).lineKeys = s.lineKeys := rfl
@[simp] theorem putQueue_poison (s : State) (core cls : Nat) (q : List QEntry) : (putQueue s core cls q).poison = s.poison := rfl
@[simp] theorem putQueue_bar0 (s : State) (core cls : Nat) (q : List QEntry) : (putQueue s core cls q).bar0 = s.bar0 := rfl
@[simp] theorem putQueue_bar2 (s : State) (core cls : Nat) (q : List QEntry) : (putQueue s core cls q).bar2 = s.bar2 := rfl
@[simp] theorem putQueue_subWatch (s : State) (core cls : Nat) (q : List QEntry) : (putQueue s core cls q).subWatch = s.subWatch := rfl
@[simp] theorem putQueue_subFired (s : State) (core cls : Nat) (q : List QEntry) : (putQueue s core cls q).subFired = s.subFired := rfl
@[simp] theorem putQueue_reuse (s : State) (core cls : Nat) (q : List QEntry) : (putQueue s core cls q).reuse = s.reuse := rfl
@[simp] theorem putQueue_fusedClusters (s : State) (core cls : Nat) (q : List QEntry) : (putQueue s core cls q).fusedClusters = s.fusedClusters := rfl
@[simp] theorem putQueue_draining (s : State) (core cls : Nat) (q : List QEntry) : (putQueue s core cls q).draining = s.draining := rfl
@[simp] theorem putQueue_girders (s : State) (core cls : Nat) (q : List QEntry) : (putQueue s core cls q).girders = s.girders := rfl
@[simp] theorem putQueue_scarabs (s : State) (core cls : Nat) (q : List QEntry) : (putQueue s core cls q).scarabs = s.scarabs := rfl
@[simp] theorem putQueue_handles (s : State) (core cls : Nat) (q : List QEntry) : (putQueue s core cls q).handles = s.handles := rfl
@[simp] theorem putQueue_colCmds (s : State) (core cls : Nat) (q : List QEntry) : (putQueue s core cls q).colCmds = s.colCmds := rfl
@[simp] theorem putQueue_contribs (s : State) (core cls : Nat) (q : List QEntry) : (putQueue s core cls q).contribs = s.contribs := rfl
@[simp] theorem putQueue_puts (s : State) (core cls : Nat) (q : List QEntry) : (putQueue s core cls q).puts = s.puts := rfl
@[simp] theorem putQueue_inbox (s : State) (core cls : Nat) (q : List QEntry) : (putQueue s core cls q).inbox = s.inbox := rfl
@[simp] theorem putQueue_outbox (s : State) (core cls : Nat) (q : List QEntry) : (putQueue s core cls q).outbox = s.outbox := rfl
@[simp] theorem putQueue_inSeq (s : State) (core cls : Nat) (q : List QEntry) : (putQueue s core cls q).inSeq = s.inSeq := rfl
@[simp] theorem putQueue_outSeq (s : State) (core cls : Nat) (q : List QEntry) : (putQueue s core cls q).outSeq = s.outSeq := rfl
@[simp] theorem putQueue_refusals (s : State) (core cls : Nat) (q : List QEntry) : (putQueue s core cls q).refusals = s.refusals := rfl
@[simp] theorem putQueue_ports (s : State) (core cls : Nat) (q : List QEntry) : (putQueue s core cls q).ports = s.ports := rfl
@[simp] theorem putQueue_cicadaAt (s : State) (core cls : Nat) (q : List QEntry) : (putQueue s core cls q).cicadaAt = s.cicadaAt := rfl
@[simp] theorem putQueue_sampCount (s : State) (core cls : Nat) (q : List QEntry) : (putQueue s core cls q).sampCount = s.sampCount := rfl
@[simp] theorem putQueue_inval (s : State) (core cls : Nat) (q : List QEntry) : (putQueue s core cls q).inval = s.inval := rfl
@[simp] theorem putQueue_meas (s : State) (core cls : Nat) (q : List QEntry) : (putQueue s core cls q).meas = s.meas := rfl
@[simp] theorem putQueue_session (s : State) (core cls : Nat) (q : List QEntry) : (putQueue s core cls q).session = s.session := rfl
@[simp] theorem putQueue_power (s : State) (core cls : Nat) (q : List QEntry) : (putQueue s core cls q).power = s.power := rfl
@[simp] theorem putQueue_solverTurn (s : State) (core cls : Nat) (q : List QEntry) : (putQueue s core cls q).solverTurn = s.solverTurn := rfl
@[simp] theorem putQueue_hdmBase (s : State) (core cls : Nat) (q : List QEntry) : (putQueue s core cls q).hdmBase = s.hdmBase := rfl
@[simp] theorem putQueue_hostQueue (s : State) (core cls : Nat) (q : List QEntry) : (putQueue s core cls q).hostQueue = s.hostQueue := rfl
@[simp] theorem putQueue_hostReplies (s : State) (core cls : Nat) (q : List QEntry) : (putQueue s core cls q).hostReplies = s.hostReplies := rfl
@[simp] theorem putQueue_msix (s : State) (core cls : Nat) (q : List QEntry) : (putQueue s core cls q).msix = s.msix := rfl
@[simp] theorem putQueue_checks (s : State) (core cls : Nat) (q : List QEntry) : (putQueue s core cls q).checks = s.checks := rfl
@[simp] theorem putQueue_dumpAborts (s : State) (core cls : Nat) (q : List QEntry) : (putQueue s core cls q).dumpAborts = s.dumpAborts := rfl
@[simp] theorem putQueue_span (s : State) (core cls : Nat) (q : List QEntry) : (putQueue s core cls q).span = s.span := rfl
@[simp] theorem putQueue_cycles (s : State) (core cls : Nat) (q : List QEntry) : (putQueue s core cls q).cycles = s.cycles := rfl
@[simp] theorem putQueue_seqno (s : State) (core cls : Nat) (q : List QEntry) : (putQueue s core cls q).seqno = s.seqno := rfl
@[simp] theorem putQueue_elapse (s : State) (core cls : Nat) (q : List QEntry) : (putQueue s core cls q).elapse = s.elapse := rfl
@[simp] theorem putQueue_turns (s : State) (core cls : Nat) (q : List QEntry) : (putQueue s core cls q).turns = s.turns := rfl
@[simp] theorem putQueue_agenda (s : State) (core cls : Nat) (q : List QEntry) : (putQueue s core cls q).agenda = s.agenda := rfl

-- `tick`.
@[simp] theorem tick_threads (s : State) : (tick s).threads = s.threads := rfl
@[simp] theorem tick_opens (s : State) : (tick s).opens = s.opens := rfl
@[simp] theorem tick_cur (s : State) : (tick s).cur = s.cur := rfl
@[simp] theorem tick_parked (s : State) : (tick s).parked = s.parked := rfl
@[simp] theorem tick_deferrals (s : State) : (tick s).deferrals = s.deferrals := rfl
@[simp] theorem tick_halted (s : State) : (tick s).halted = s.halted := rfl
@[simp] theorem tick_dumps (s : State) : (tick s).dumps = s.dumps := rfl
@[simp] theorem tick_slots (s : State) : (tick s).slots = s.slots := rfl
@[simp] theorem tick_crews (s : State) : (tick s).crews = s.crews := rfl
@[simp] theorem tick_cohorts (s : State) : (tick s).cohorts = s.cohorts := rfl
@[simp] theorem tick_nodes (s : State) : (tick s).nodes = s.nodes := rfl
@[simp] theorem tick_swarm (s : State) : (tick s).swarm = s.swarm := rfl
@[simp] theorem tick_rows (s : State) : (tick s).rows = s.rows := rfl
@[simp] theorem tick_queues (s : State) : (tick s).queues = s.queues := rfl
@[simp] theorem tick_mem (s : State) : (tick s).mem = s.mem := rfl
@[simp] theorem tick_gwct (s : State) : (tick s).gwct = s.gwct := rfl
@[simp] theorem tick_stamps (s : State) : (tick s).stamps = s.stamps := rfl
@[simp] theorem tick_copies (s : State) : (tick s).copies = s.copies := rfl
@[simp] theorem tick_acquired (s : State) : (tick s).acquired = s.acquired := rfl
@[simp] theorem tick_access (s : State) : (tick s).access = s.access := rfl
@[simp] theorem tick_tlb (s : State) : (tick s).tlb = s.tlb := rfl
@[simp] theorem tick_faults (s : State) : (tick s).faults = s.faults := rfl
@[simp] theorem tick_valid (s : State) : (tick s).valid = s.valid := rfl
@[simp] theorem tick_keys (s : State) : (tick s).keys = s.keys := rfl
@[simp] theorem tick_nextKey (s : State) : (tick s).nextKey = s.nextKey := rfl
@[simp] theorem tick_lineKeys (s : State) : (tick s).lineKeys = s.lineKeys := rfl
@[simp] theorem tick_poison (s : State) : (tick s).poison = s.poison := rfl
@[simp] theorem tick_bar0 (s : State) : (tick s).bar0 = s.bar0 := rfl
@[simp] theorem tick_bar2 (s : State) : (tick s).bar2 = s.bar2 := rfl
@[simp] theorem tick_subWatch (s : State) : (tick s).subWatch = s.subWatch := rfl
@[simp] theorem tick_subFired (s : State) : (tick s).subFired = s.subFired := rfl
@[simp] theorem tick_reuse (s : State) : (tick s).reuse = s.reuse := rfl
@[simp] theorem tick_fusedClusters (s : State) : (tick s).fusedClusters = s.fusedClusters := rfl
@[simp] theorem tick_draining (s : State) : (tick s).draining = s.draining := rfl
@[simp] theorem tick_girders (s : State) : (tick s).girders = s.girders := rfl
@[simp] theorem tick_scarabs (s : State) : (tick s).scarabs = s.scarabs := rfl
@[simp] theorem tick_handles (s : State) : (tick s).handles = s.handles := rfl
@[simp] theorem tick_colCmds (s : State) : (tick s).colCmds = s.colCmds := rfl
@[simp] theorem tick_contribs (s : State) : (tick s).contribs = s.contribs := rfl
@[simp] theorem tick_puts (s : State) : (tick s).puts = s.puts := rfl
@[simp] theorem tick_inbox (s : State) : (tick s).inbox = s.inbox := rfl
@[simp] theorem tick_outbox (s : State) : (tick s).outbox = s.outbox := rfl
@[simp] theorem tick_inSeq (s : State) : (tick s).inSeq = s.inSeq := rfl
@[simp] theorem tick_outSeq (s : State) : (tick s).outSeq = s.outSeq := rfl
@[simp] theorem tick_refusals (s : State) : (tick s).refusals = s.refusals := rfl
@[simp] theorem tick_ports (s : State) : (tick s).ports = s.ports := rfl
@[simp] theorem tick_cicadaAt (s : State) : (tick s).cicadaAt = s.cicadaAt := rfl
@[simp] theorem tick_sampCount (s : State) : (tick s).sampCount = s.sampCount := rfl
@[simp] theorem tick_inval (s : State) : (tick s).inval = s.inval := rfl
@[simp] theorem tick_meas (s : State) : (tick s).meas = s.meas := rfl
@[simp] theorem tick_session (s : State) : (tick s).session = s.session := rfl
@[simp] theorem tick_power (s : State) : (tick s).power = s.power := rfl
@[simp] theorem tick_solverTurn (s : State) : (tick s).solverTurn = s.solverTurn := rfl
@[simp] theorem tick_hdmBase (s : State) : (tick s).hdmBase = s.hdmBase := rfl
@[simp] theorem tick_hostQueue (s : State) : (tick s).hostQueue = s.hostQueue := rfl
@[simp] theorem tick_hostReplies (s : State) : (tick s).hostReplies = s.hostReplies := rfl
@[simp] theorem tick_msix (s : State) : (tick s).msix = s.msix := rfl
@[simp] theorem tick_checks (s : State) : (tick s).checks = s.checks := rfl
@[simp] theorem tick_dumpAborts (s : State) : (tick s).dumpAborts = s.dumpAborts := rfl
@[simp] theorem tick_span (s : State) : (tick s).span = s.span + s.elapse.headD 1 := rfl
@[simp] theorem tick_cycles (s : State) : (tick s).cycles = (List.range 4).map fun die => (die, cyclesOf s die + s.elapse.headD 1 * cycleRate s die) := rfl
@[simp] theorem tick_seqno (s : State) : (tick s).seqno = s.seqno := rfl
@[simp] theorem tick_elapse (s : State) : (tick s).elapse = s.elapse.tail := rfl
@[simp] theorem tick_turns (s : State) : (tick s).turns = s.turns := rfl
@[simp] theorem tick_agenda (s : State) : (tick s).agenda = s.agenda := rfl

-- `modThread`.
@[simp] theorem modThread_opens (s : State) (t : Nat) (f : Thread → Thread) : (modThread s t f).opens = s.opens := by unfold modThread; split <;> rfl
@[simp] theorem modThread_cur (s : State) (t : Nat) (f : Thread → Thread) : (modThread s t f).cur = s.cur := by unfold modThread; split <;> rfl
@[simp] theorem modThread_parked (s : State) (t : Nat) (f : Thread → Thread) : (modThread s t f).parked = s.parked := by unfold modThread; split <;> rfl
@[simp] theorem modThread_deferrals (s : State) (t : Nat) (f : Thread → Thread) : (modThread s t f).deferrals = s.deferrals := by unfold modThread; split <;> rfl
@[simp] theorem modThread_halted (s : State) (t : Nat) (f : Thread → Thread) : (modThread s t f).halted = s.halted := by unfold modThread; split <;> rfl
@[simp] theorem modThread_dumps (s : State) (t : Nat) (f : Thread → Thread) : (modThread s t f).dumps = s.dumps := by unfold modThread; split <;> rfl
@[simp] theorem modThread_slots (s : State) (t : Nat) (f : Thread → Thread) : (modThread s t f).slots = s.slots := by unfold modThread; split <;> rfl
@[simp] theorem modThread_crews (s : State) (t : Nat) (f : Thread → Thread) : (modThread s t f).crews = s.crews := by unfold modThread; split <;> rfl
@[simp] theorem modThread_cohorts (s : State) (t : Nat) (f : Thread → Thread) : (modThread s t f).cohorts = s.cohorts := by unfold modThread; split <;> rfl
@[simp] theorem modThread_nodes (s : State) (t : Nat) (f : Thread → Thread) : (modThread s t f).nodes = s.nodes := by unfold modThread; split <;> rfl
@[simp] theorem modThread_swarm (s : State) (t : Nat) (f : Thread → Thread) : (modThread s t f).swarm = s.swarm := by unfold modThread; split <;> rfl
@[simp] theorem modThread_rows (s : State) (t : Nat) (f : Thread → Thread) : (modThread s t f).rows = s.rows := by unfold modThread; split <;> rfl
@[simp] theorem modThread_queues (s : State) (t : Nat) (f : Thread → Thread) : (modThread s t f).queues = s.queues := by unfold modThread; split <;> rfl
@[simp] theorem modThread_mem (s : State) (t : Nat) (f : Thread → Thread) : (modThread s t f).mem = s.mem := by unfold modThread; split <;> rfl
@[simp] theorem modThread_gwct (s : State) (t : Nat) (f : Thread → Thread) : (modThread s t f).gwct = s.gwct := by unfold modThread; split <;> rfl
@[simp] theorem modThread_stamps (s : State) (t : Nat) (f : Thread → Thread) : (modThread s t f).stamps = s.stamps := by unfold modThread; split <;> rfl
@[simp] theorem modThread_copies (s : State) (t : Nat) (f : Thread → Thread) : (modThread s t f).copies = s.copies := by unfold modThread; split <;> rfl
@[simp] theorem modThread_acquired (s : State) (t : Nat) (f : Thread → Thread) : (modThread s t f).acquired = s.acquired := by unfold modThread; split <;> rfl
@[simp] theorem modThread_access (s : State) (t : Nat) (f : Thread → Thread) : (modThread s t f).access = s.access := by unfold modThread; split <;> rfl
@[simp] theorem modThread_tlb (s : State) (t : Nat) (f : Thread → Thread) : (modThread s t f).tlb = s.tlb := by unfold modThread; split <;> rfl
@[simp] theorem modThread_faults (s : State) (t : Nat) (f : Thread → Thread) : (modThread s t f).faults = s.faults := by unfold modThread; split <;> rfl
@[simp] theorem modThread_valid (s : State) (t : Nat) (f : Thread → Thread) : (modThread s t f).valid = s.valid := by unfold modThread; split <;> rfl
@[simp] theorem modThread_keys (s : State) (t : Nat) (f : Thread → Thread) : (modThread s t f).keys = s.keys := by unfold modThread; split <;> rfl
@[simp] theorem modThread_nextKey (s : State) (t : Nat) (f : Thread → Thread) : (modThread s t f).nextKey = s.nextKey := by unfold modThread; split <;> rfl
@[simp] theorem modThread_lineKeys (s : State) (t : Nat) (f : Thread → Thread) : (modThread s t f).lineKeys = s.lineKeys := by unfold modThread; split <;> rfl
@[simp] theorem modThread_poison (s : State) (t : Nat) (f : Thread → Thread) : (modThread s t f).poison = s.poison := by unfold modThread; split <;> rfl
@[simp] theorem modThread_bar0 (s : State) (t : Nat) (f : Thread → Thread) : (modThread s t f).bar0 = s.bar0 := by unfold modThread; split <;> rfl
@[simp] theorem modThread_bar2 (s : State) (t : Nat) (f : Thread → Thread) : (modThread s t f).bar2 = s.bar2 := by unfold modThread; split <;> rfl
@[simp] theorem modThread_subWatch (s : State) (t : Nat) (f : Thread → Thread) : (modThread s t f).subWatch = s.subWatch := by unfold modThread; split <;> rfl
@[simp] theorem modThread_subFired (s : State) (t : Nat) (f : Thread → Thread) : (modThread s t f).subFired = s.subFired := by unfold modThread; split <;> rfl
@[simp] theorem modThread_reuse (s : State) (t : Nat) (f : Thread → Thread) : (modThread s t f).reuse = s.reuse := by unfold modThread; split <;> rfl
@[simp] theorem modThread_fusedClusters (s : State) (t : Nat) (f : Thread → Thread) : (modThread s t f).fusedClusters = s.fusedClusters := by unfold modThread; split <;> rfl
@[simp] theorem modThread_draining (s : State) (t : Nat) (f : Thread → Thread) : (modThread s t f).draining = s.draining := by unfold modThread; split <;> rfl
@[simp] theorem modThread_girders (s : State) (t : Nat) (f : Thread → Thread) : (modThread s t f).girders = s.girders := by unfold modThread; split <;> rfl
@[simp] theorem modThread_scarabs (s : State) (t : Nat) (f : Thread → Thread) : (modThread s t f).scarabs = s.scarabs := by unfold modThread; split <;> rfl
@[simp] theorem modThread_handles (s : State) (t : Nat) (f : Thread → Thread) : (modThread s t f).handles = s.handles := by unfold modThread; split <;> rfl
@[simp] theorem modThread_colCmds (s : State) (t : Nat) (f : Thread → Thread) : (modThread s t f).colCmds = s.colCmds := by unfold modThread; split <;> rfl
@[simp] theorem modThread_contribs (s : State) (t : Nat) (f : Thread → Thread) : (modThread s t f).contribs = s.contribs := by unfold modThread; split <;> rfl
@[simp] theorem modThread_puts (s : State) (t : Nat) (f : Thread → Thread) : (modThread s t f).puts = s.puts := by unfold modThread; split <;> rfl
@[simp] theorem modThread_inbox (s : State) (t : Nat) (f : Thread → Thread) : (modThread s t f).inbox = s.inbox := by unfold modThread; split <;> rfl
@[simp] theorem modThread_outbox (s : State) (t : Nat) (f : Thread → Thread) : (modThread s t f).outbox = s.outbox := by unfold modThread; split <;> rfl
@[simp] theorem modThread_inSeq (s : State) (t : Nat) (f : Thread → Thread) : (modThread s t f).inSeq = s.inSeq := by unfold modThread; split <;> rfl
@[simp] theorem modThread_outSeq (s : State) (t : Nat) (f : Thread → Thread) : (modThread s t f).outSeq = s.outSeq := by unfold modThread; split <;> rfl
@[simp] theorem modThread_refusals (s : State) (t : Nat) (f : Thread → Thread) : (modThread s t f).refusals = s.refusals := by unfold modThread; split <;> rfl
@[simp] theorem modThread_ports (s : State) (t : Nat) (f : Thread → Thread) : (modThread s t f).ports = s.ports := by unfold modThread; split <;> rfl
@[simp] theorem modThread_cicadaAt (s : State) (t : Nat) (f : Thread → Thread) : (modThread s t f).cicadaAt = s.cicadaAt := by unfold modThread; split <;> rfl
@[simp] theorem modThread_sampCount (s : State) (t : Nat) (f : Thread → Thread) : (modThread s t f).sampCount = s.sampCount := by unfold modThread; split <;> rfl
@[simp] theorem modThread_inval (s : State) (t : Nat) (f : Thread → Thread) : (modThread s t f).inval = s.inval := by unfold modThread; split <;> rfl
@[simp] theorem modThread_meas (s : State) (t : Nat) (f : Thread → Thread) : (modThread s t f).meas = s.meas := by unfold modThread; split <;> rfl
@[simp] theorem modThread_session (s : State) (t : Nat) (f : Thread → Thread) : (modThread s t f).session = s.session := by unfold modThread; split <;> rfl
@[simp] theorem modThread_power (s : State) (t : Nat) (f : Thread → Thread) : (modThread s t f).power = s.power := by unfold modThread; split <;> rfl
@[simp] theorem modThread_solverTurn (s : State) (t : Nat) (f : Thread → Thread) : (modThread s t f).solverTurn = s.solverTurn := by unfold modThread; split <;> rfl
@[simp] theorem modThread_hdmBase (s : State) (t : Nat) (f : Thread → Thread) : (modThread s t f).hdmBase = s.hdmBase := by unfold modThread; split <;> rfl
@[simp] theorem modThread_hostQueue (s : State) (t : Nat) (f : Thread → Thread) : (modThread s t f).hostQueue = s.hostQueue := by unfold modThread; split <;> rfl
@[simp] theorem modThread_hostReplies (s : State) (t : Nat) (f : Thread → Thread) : (modThread s t f).hostReplies = s.hostReplies := by unfold modThread; split <;> rfl
@[simp] theorem modThread_msix (s : State) (t : Nat) (f : Thread → Thread) : (modThread s t f).msix = s.msix := by unfold modThread; split <;> rfl
@[simp] theorem modThread_checks (s : State) (t : Nat) (f : Thread → Thread) : (modThread s t f).checks = s.checks := by unfold modThread; split <;> rfl
@[simp] theorem modThread_dumpAborts (s : State) (t : Nat) (f : Thread → Thread) : (modThread s t f).dumpAborts = s.dumpAborts := by unfold modThread; split <;> rfl
@[simp] theorem modThread_span (s : State) (t : Nat) (f : Thread → Thread) : (modThread s t f).span = s.span := by unfold modThread; split <;> rfl
@[simp] theorem modThread_cycles (s : State) (t : Nat) (f : Thread → Thread) : (modThread s t f).cycles = s.cycles := by unfold modThread; split <;> rfl
@[simp] theorem modThread_seqno (s : State) (t : Nat) (f : Thread → Thread) : (modThread s t f).seqno = s.seqno := by unfold modThread; split <;> rfl
@[simp] theorem modThread_elapse (s : State) (t : Nat) (f : Thread → Thread) : (modThread s t f).elapse = s.elapse := by unfold modThread; split <;> rfl
@[simp] theorem modThread_turns (s : State) (t : Nat) (f : Thread → Thread) : (modThread s t f).turns = s.turns := by unfold modThread; split <;> rfl
@[simp] theorem modThread_agenda (s : State) (t : Nat) (f : Thread → Thread) : (modThread s t f).agenda = s.agenda := by unfold modThread; split <;> rfl

-- `modNode`.
@[simp] theorem modNode_threads (s : State) (n : Nat) (f : Node → Node) : (modNode s n f).threads = s.threads := by unfold modNode; split <;> rfl
@[simp] theorem modNode_opens (s : State) (n : Nat) (f : Node → Node) : (modNode s n f).opens = s.opens := by unfold modNode; split <;> rfl
@[simp] theorem modNode_cur (s : State) (n : Nat) (f : Node → Node) : (modNode s n f).cur = s.cur := by unfold modNode; split <;> rfl
@[simp] theorem modNode_parked (s : State) (n : Nat) (f : Node → Node) : (modNode s n f).parked = s.parked := by unfold modNode; split <;> rfl
@[simp] theorem modNode_deferrals (s : State) (n : Nat) (f : Node → Node) : (modNode s n f).deferrals = s.deferrals := by unfold modNode; split <;> rfl
@[simp] theorem modNode_halted (s : State) (n : Nat) (f : Node → Node) : (modNode s n f).halted = s.halted := by unfold modNode; split <;> rfl
@[simp] theorem modNode_dumps (s : State) (n : Nat) (f : Node → Node) : (modNode s n f).dumps = s.dumps := by unfold modNode; split <;> rfl
@[simp] theorem modNode_slots (s : State) (n : Nat) (f : Node → Node) : (modNode s n f).slots = s.slots := by unfold modNode; split <;> rfl
@[simp] theorem modNode_crews (s : State) (n : Nat) (f : Node → Node) : (modNode s n f).crews = s.crews := by unfold modNode; split <;> rfl
@[simp] theorem modNode_cohorts (s : State) (n : Nat) (f : Node → Node) : (modNode s n f).cohorts = s.cohorts := by unfold modNode; split <;> rfl
@[simp] theorem modNode_swarm (s : State) (n : Nat) (f : Node → Node) : (modNode s n f).swarm = s.swarm := by unfold modNode; split <;> rfl
@[simp] theorem modNode_rows (s : State) (n : Nat) (f : Node → Node) : (modNode s n f).rows = s.rows := by unfold modNode; split <;> rfl
@[simp] theorem modNode_queues (s : State) (n : Nat) (f : Node → Node) : (modNode s n f).queues = s.queues := by unfold modNode; split <;> rfl
@[simp] theorem modNode_mem (s : State) (n : Nat) (f : Node → Node) : (modNode s n f).mem = s.mem := by unfold modNode; split <;> rfl
@[simp] theorem modNode_gwct (s : State) (n : Nat) (f : Node → Node) : (modNode s n f).gwct = s.gwct := by unfold modNode; split <;> rfl
@[simp] theorem modNode_stamps (s : State) (n : Nat) (f : Node → Node) : (modNode s n f).stamps = s.stamps := by unfold modNode; split <;> rfl
@[simp] theorem modNode_copies (s : State) (n : Nat) (f : Node → Node) : (modNode s n f).copies = s.copies := by unfold modNode; split <;> rfl
@[simp] theorem modNode_acquired (s : State) (n : Nat) (f : Node → Node) : (modNode s n f).acquired = s.acquired := by unfold modNode; split <;> rfl
@[simp] theorem modNode_access (s : State) (n : Nat) (f : Node → Node) : (modNode s n f).access = s.access := by unfold modNode; split <;> rfl
@[simp] theorem modNode_tlb (s : State) (n : Nat) (f : Node → Node) : (modNode s n f).tlb = s.tlb := by unfold modNode; split <;> rfl
@[simp] theorem modNode_faults (s : State) (n : Nat) (f : Node → Node) : (modNode s n f).faults = s.faults := by unfold modNode; split <;> rfl
@[simp] theorem modNode_valid (s : State) (n : Nat) (f : Node → Node) : (modNode s n f).valid = s.valid := by unfold modNode; split <;> rfl
@[simp] theorem modNode_keys (s : State) (n : Nat) (f : Node → Node) : (modNode s n f).keys = s.keys := by unfold modNode; split <;> rfl
@[simp] theorem modNode_nextKey (s : State) (n : Nat) (f : Node → Node) : (modNode s n f).nextKey = s.nextKey := by unfold modNode; split <;> rfl
@[simp] theorem modNode_lineKeys (s : State) (n : Nat) (f : Node → Node) : (modNode s n f).lineKeys = s.lineKeys := by unfold modNode; split <;> rfl
@[simp] theorem modNode_poison (s : State) (n : Nat) (f : Node → Node) : (modNode s n f).poison = s.poison := by unfold modNode; split <;> rfl
@[simp] theorem modNode_bar0 (s : State) (n : Nat) (f : Node → Node) : (modNode s n f).bar0 = s.bar0 := by unfold modNode; split <;> rfl
@[simp] theorem modNode_bar2 (s : State) (n : Nat) (f : Node → Node) : (modNode s n f).bar2 = s.bar2 := by unfold modNode; split <;> rfl
@[simp] theorem modNode_subWatch (s : State) (n : Nat) (f : Node → Node) : (modNode s n f).subWatch = s.subWatch := by unfold modNode; split <;> rfl
@[simp] theorem modNode_subFired (s : State) (n : Nat) (f : Node → Node) : (modNode s n f).subFired = s.subFired := by unfold modNode; split <;> rfl
@[simp] theorem modNode_reuse (s : State) (n : Nat) (f : Node → Node) : (modNode s n f).reuse = s.reuse := by unfold modNode; split <;> rfl
@[simp] theorem modNode_fusedClusters (s : State) (n : Nat) (f : Node → Node) : (modNode s n f).fusedClusters = s.fusedClusters := by unfold modNode; split <;> rfl
@[simp] theorem modNode_draining (s : State) (n : Nat) (f : Node → Node) : (modNode s n f).draining = s.draining := by unfold modNode; split <;> rfl
@[simp] theorem modNode_girders (s : State) (n : Nat) (f : Node → Node) : (modNode s n f).girders = s.girders := by unfold modNode; split <;> rfl
@[simp] theorem modNode_scarabs (s : State) (n : Nat) (f : Node → Node) : (modNode s n f).scarabs = s.scarabs := by unfold modNode; split <;> rfl
@[simp] theorem modNode_handles (s : State) (n : Nat) (f : Node → Node) : (modNode s n f).handles = s.handles := by unfold modNode; split <;> rfl
@[simp] theorem modNode_colCmds (s : State) (n : Nat) (f : Node → Node) : (modNode s n f).colCmds = s.colCmds := by unfold modNode; split <;> rfl
@[simp] theorem modNode_contribs (s : State) (n : Nat) (f : Node → Node) : (modNode s n f).contribs = s.contribs := by unfold modNode; split <;> rfl
@[simp] theorem modNode_puts (s : State) (n : Nat) (f : Node → Node) : (modNode s n f).puts = s.puts := by unfold modNode; split <;> rfl
@[simp] theorem modNode_inbox (s : State) (n : Nat) (f : Node → Node) : (modNode s n f).inbox = s.inbox := by unfold modNode; split <;> rfl
@[simp] theorem modNode_outbox (s : State) (n : Nat) (f : Node → Node) : (modNode s n f).outbox = s.outbox := by unfold modNode; split <;> rfl
@[simp] theorem modNode_inSeq (s : State) (n : Nat) (f : Node → Node) : (modNode s n f).inSeq = s.inSeq := by unfold modNode; split <;> rfl
@[simp] theorem modNode_outSeq (s : State) (n : Nat) (f : Node → Node) : (modNode s n f).outSeq = s.outSeq := by unfold modNode; split <;> rfl
@[simp] theorem modNode_refusals (s : State) (n : Nat) (f : Node → Node) : (modNode s n f).refusals = s.refusals := by unfold modNode; split <;> rfl
@[simp] theorem modNode_ports (s : State) (n : Nat) (f : Node → Node) : (modNode s n f).ports = s.ports := by unfold modNode; split <;> rfl
@[simp] theorem modNode_cicadaAt (s : State) (n : Nat) (f : Node → Node) : (modNode s n f).cicadaAt = s.cicadaAt := by unfold modNode; split <;> rfl
@[simp] theorem modNode_sampCount (s : State) (n : Nat) (f : Node → Node) : (modNode s n f).sampCount = s.sampCount := by unfold modNode; split <;> rfl
@[simp] theorem modNode_inval (s : State) (n : Nat) (f : Node → Node) : (modNode s n f).inval = s.inval := by unfold modNode; split <;> rfl
@[simp] theorem modNode_meas (s : State) (n : Nat) (f : Node → Node) : (modNode s n f).meas = s.meas := by unfold modNode; split <;> rfl
@[simp] theorem modNode_session (s : State) (n : Nat) (f : Node → Node) : (modNode s n f).session = s.session := by unfold modNode; split <;> rfl
@[simp] theorem modNode_power (s : State) (n : Nat) (f : Node → Node) : (modNode s n f).power = s.power := by unfold modNode; split <;> rfl
@[simp] theorem modNode_solverTurn (s : State) (n : Nat) (f : Node → Node) : (modNode s n f).solverTurn = s.solverTurn := by unfold modNode; split <;> rfl
@[simp] theorem modNode_hdmBase (s : State) (n : Nat) (f : Node → Node) : (modNode s n f).hdmBase = s.hdmBase := by unfold modNode; split <;> rfl
@[simp] theorem modNode_hostQueue (s : State) (n : Nat) (f : Node → Node) : (modNode s n f).hostQueue = s.hostQueue := by unfold modNode; split <;> rfl
@[simp] theorem modNode_hostReplies (s : State) (n : Nat) (f : Node → Node) : (modNode s n f).hostReplies = s.hostReplies := by unfold modNode; split <;> rfl
@[simp] theorem modNode_msix (s : State) (n : Nat) (f : Node → Node) : (modNode s n f).msix = s.msix := by unfold modNode; split <;> rfl
@[simp] theorem modNode_checks (s : State) (n : Nat) (f : Node → Node) : (modNode s n f).checks = s.checks := by unfold modNode; split <;> rfl
@[simp] theorem modNode_dumpAborts (s : State) (n : Nat) (f : Node → Node) : (modNode s n f).dumpAborts = s.dumpAborts := by unfold modNode; split <;> rfl
@[simp] theorem modNode_span (s : State) (n : Nat) (f : Node → Node) : (modNode s n f).span = s.span := by unfold modNode; split <;> rfl
@[simp] theorem modNode_cycles (s : State) (n : Nat) (f : Node → Node) : (modNode s n f).cycles = s.cycles := by unfold modNode; split <;> rfl
@[simp] theorem modNode_seqno (s : State) (n : Nat) (f : Node → Node) : (modNode s n f).seqno = s.seqno := by unfold modNode; split <;> rfl
@[simp] theorem modNode_elapse (s : State) (n : Nat) (f : Node → Node) : (modNode s n f).elapse = s.elapse := by unfold modNode; split <;> rfl
@[simp] theorem modNode_turns (s : State) (n : Nat) (f : Node → Node) : (modNode s n f).turns = s.turns := by unfold modNode; split <;> rfl
@[simp] theorem modNode_agenda (s : State) (n : Nat) (f : Node → Node) : (modNode s n f).agenda = s.agenda := by unfold modNode; split <;> rfl

-- `modCohort`.
@[simp] theorem modCohort_threads (s : State) (c : Nat) (f : Cohort → Cohort) : (modCohort s c f).threads = s.threads := by unfold modCohort; split <;> rfl
@[simp] theorem modCohort_opens (s : State) (c : Nat) (f : Cohort → Cohort) : (modCohort s c f).opens = s.opens := by unfold modCohort; split <;> rfl
@[simp] theorem modCohort_cur (s : State) (c : Nat) (f : Cohort → Cohort) : (modCohort s c f).cur = s.cur := by unfold modCohort; split <;> rfl
@[simp] theorem modCohort_parked (s : State) (c : Nat) (f : Cohort → Cohort) : (modCohort s c f).parked = s.parked := by unfold modCohort; split <;> rfl
@[simp] theorem modCohort_deferrals (s : State) (c : Nat) (f : Cohort → Cohort) : (modCohort s c f).deferrals = s.deferrals := by unfold modCohort; split <;> rfl
@[simp] theorem modCohort_halted (s : State) (c : Nat) (f : Cohort → Cohort) : (modCohort s c f).halted = s.halted := by unfold modCohort; split <;> rfl
@[simp] theorem modCohort_dumps (s : State) (c : Nat) (f : Cohort → Cohort) : (modCohort s c f).dumps = s.dumps := by unfold modCohort; split <;> rfl
@[simp] theorem modCohort_slots (s : State) (c : Nat) (f : Cohort → Cohort) : (modCohort s c f).slots = s.slots := by unfold modCohort; split <;> rfl
@[simp] theorem modCohort_crews (s : State) (c : Nat) (f : Cohort → Cohort) : (modCohort s c f).crews = s.crews := by unfold modCohort; split <;> rfl
@[simp] theorem modCohort_nodes (s : State) (c : Nat) (f : Cohort → Cohort) : (modCohort s c f).nodes = s.nodes := by unfold modCohort; split <;> rfl
@[simp] theorem modCohort_swarm (s : State) (c : Nat) (f : Cohort → Cohort) : (modCohort s c f).swarm = s.swarm := by unfold modCohort; split <;> rfl
@[simp] theorem modCohort_rows (s : State) (c : Nat) (f : Cohort → Cohort) : (modCohort s c f).rows = s.rows := by unfold modCohort; split <;> rfl
@[simp] theorem modCohort_queues (s : State) (c : Nat) (f : Cohort → Cohort) : (modCohort s c f).queues = s.queues := by unfold modCohort; split <;> rfl
@[simp] theorem modCohort_mem (s : State) (c : Nat) (f : Cohort → Cohort) : (modCohort s c f).mem = s.mem := by unfold modCohort; split <;> rfl
@[simp] theorem modCohort_gwct (s : State) (c : Nat) (f : Cohort → Cohort) : (modCohort s c f).gwct = s.gwct := by unfold modCohort; split <;> rfl
@[simp] theorem modCohort_stamps (s : State) (c : Nat) (f : Cohort → Cohort) : (modCohort s c f).stamps = s.stamps := by unfold modCohort; split <;> rfl
@[simp] theorem modCohort_copies (s : State) (c : Nat) (f : Cohort → Cohort) : (modCohort s c f).copies = s.copies := by unfold modCohort; split <;> rfl
@[simp] theorem modCohort_acquired (s : State) (c : Nat) (f : Cohort → Cohort) : (modCohort s c f).acquired = s.acquired := by unfold modCohort; split <;> rfl
@[simp] theorem modCohort_access (s : State) (c : Nat) (f : Cohort → Cohort) : (modCohort s c f).access = s.access := by unfold modCohort; split <;> rfl
@[simp] theorem modCohort_tlb (s : State) (c : Nat) (f : Cohort → Cohort) : (modCohort s c f).tlb = s.tlb := by unfold modCohort; split <;> rfl
@[simp] theorem modCohort_faults (s : State) (c : Nat) (f : Cohort → Cohort) : (modCohort s c f).faults = s.faults := by unfold modCohort; split <;> rfl
@[simp] theorem modCohort_valid (s : State) (c : Nat) (f : Cohort → Cohort) : (modCohort s c f).valid = s.valid := by unfold modCohort; split <;> rfl
@[simp] theorem modCohort_keys (s : State) (c : Nat) (f : Cohort → Cohort) : (modCohort s c f).keys = s.keys := by unfold modCohort; split <;> rfl
@[simp] theorem modCohort_nextKey (s : State) (c : Nat) (f : Cohort → Cohort) : (modCohort s c f).nextKey = s.nextKey := by unfold modCohort; split <;> rfl
@[simp] theorem modCohort_lineKeys (s : State) (c : Nat) (f : Cohort → Cohort) : (modCohort s c f).lineKeys = s.lineKeys := by unfold modCohort; split <;> rfl
@[simp] theorem modCohort_poison (s : State) (c : Nat) (f : Cohort → Cohort) : (modCohort s c f).poison = s.poison := by unfold modCohort; split <;> rfl
@[simp] theorem modCohort_bar0 (s : State) (c : Nat) (f : Cohort → Cohort) : (modCohort s c f).bar0 = s.bar0 := by unfold modCohort; split <;> rfl
@[simp] theorem modCohort_bar2 (s : State) (c : Nat) (f : Cohort → Cohort) : (modCohort s c f).bar2 = s.bar2 := by unfold modCohort; split <;> rfl
@[simp] theorem modCohort_subWatch (s : State) (c : Nat) (f : Cohort → Cohort) : (modCohort s c f).subWatch = s.subWatch := by unfold modCohort; split <;> rfl
@[simp] theorem modCohort_subFired (s : State) (c : Nat) (f : Cohort → Cohort) : (modCohort s c f).subFired = s.subFired := by unfold modCohort; split <;> rfl
@[simp] theorem modCohort_reuse (s : State) (c : Nat) (f : Cohort → Cohort) : (modCohort s c f).reuse = s.reuse := by unfold modCohort; split <;> rfl
@[simp] theorem modCohort_fusedClusters (s : State) (c : Nat) (f : Cohort → Cohort) : (modCohort s c f).fusedClusters = s.fusedClusters := by unfold modCohort; split <;> rfl
@[simp] theorem modCohort_draining (s : State) (c : Nat) (f : Cohort → Cohort) : (modCohort s c f).draining = s.draining := by unfold modCohort; split <;> rfl
@[simp] theorem modCohort_girders (s : State) (c : Nat) (f : Cohort → Cohort) : (modCohort s c f).girders = s.girders := by unfold modCohort; split <;> rfl
@[simp] theorem modCohort_scarabs (s : State) (c : Nat) (f : Cohort → Cohort) : (modCohort s c f).scarabs = s.scarabs := by unfold modCohort; split <;> rfl
@[simp] theorem modCohort_handles (s : State) (c : Nat) (f : Cohort → Cohort) : (modCohort s c f).handles = s.handles := by unfold modCohort; split <;> rfl
@[simp] theorem modCohort_colCmds (s : State) (c : Nat) (f : Cohort → Cohort) : (modCohort s c f).colCmds = s.colCmds := by unfold modCohort; split <;> rfl
@[simp] theorem modCohort_contribs (s : State) (c : Nat) (f : Cohort → Cohort) : (modCohort s c f).contribs = s.contribs := by unfold modCohort; split <;> rfl
@[simp] theorem modCohort_puts (s : State) (c : Nat) (f : Cohort → Cohort) : (modCohort s c f).puts = s.puts := by unfold modCohort; split <;> rfl
@[simp] theorem modCohort_inbox (s : State) (c : Nat) (f : Cohort → Cohort) : (modCohort s c f).inbox = s.inbox := by unfold modCohort; split <;> rfl
@[simp] theorem modCohort_outbox (s : State) (c : Nat) (f : Cohort → Cohort) : (modCohort s c f).outbox = s.outbox := by unfold modCohort; split <;> rfl
@[simp] theorem modCohort_inSeq (s : State) (c : Nat) (f : Cohort → Cohort) : (modCohort s c f).inSeq = s.inSeq := by unfold modCohort; split <;> rfl
@[simp] theorem modCohort_outSeq (s : State) (c : Nat) (f : Cohort → Cohort) : (modCohort s c f).outSeq = s.outSeq := by unfold modCohort; split <;> rfl
@[simp] theorem modCohort_refusals (s : State) (c : Nat) (f : Cohort → Cohort) : (modCohort s c f).refusals = s.refusals := by unfold modCohort; split <;> rfl
@[simp] theorem modCohort_ports (s : State) (c : Nat) (f : Cohort → Cohort) : (modCohort s c f).ports = s.ports := by unfold modCohort; split <;> rfl
@[simp] theorem modCohort_cicadaAt (s : State) (c : Nat) (f : Cohort → Cohort) : (modCohort s c f).cicadaAt = s.cicadaAt := by unfold modCohort; split <;> rfl
@[simp] theorem modCohort_sampCount (s : State) (c : Nat) (f : Cohort → Cohort) : (modCohort s c f).sampCount = s.sampCount := by unfold modCohort; split <;> rfl
@[simp] theorem modCohort_inval (s : State) (c : Nat) (f : Cohort → Cohort) : (modCohort s c f).inval = s.inval := by unfold modCohort; split <;> rfl
@[simp] theorem modCohort_meas (s : State) (c : Nat) (f : Cohort → Cohort) : (modCohort s c f).meas = s.meas := by unfold modCohort; split <;> rfl
@[simp] theorem modCohort_session (s : State) (c : Nat) (f : Cohort → Cohort) : (modCohort s c f).session = s.session := by unfold modCohort; split <;> rfl
@[simp] theorem modCohort_power (s : State) (c : Nat) (f : Cohort → Cohort) : (modCohort s c f).power = s.power := by unfold modCohort; split <;> rfl
@[simp] theorem modCohort_solverTurn (s : State) (c : Nat) (f : Cohort → Cohort) : (modCohort s c f).solverTurn = s.solverTurn := by unfold modCohort; split <;> rfl
@[simp] theorem modCohort_hdmBase (s : State) (c : Nat) (f : Cohort → Cohort) : (modCohort s c f).hdmBase = s.hdmBase := by unfold modCohort; split <;> rfl
@[simp] theorem modCohort_hostQueue (s : State) (c : Nat) (f : Cohort → Cohort) : (modCohort s c f).hostQueue = s.hostQueue := by unfold modCohort; split <;> rfl
@[simp] theorem modCohort_hostReplies (s : State) (c : Nat) (f : Cohort → Cohort) : (modCohort s c f).hostReplies = s.hostReplies := by unfold modCohort; split <;> rfl
@[simp] theorem modCohort_msix (s : State) (c : Nat) (f : Cohort → Cohort) : (modCohort s c f).msix = s.msix := by unfold modCohort; split <;> rfl
@[simp] theorem modCohort_checks (s : State) (c : Nat) (f : Cohort → Cohort) : (modCohort s c f).checks = s.checks := by unfold modCohort; split <;> rfl
@[simp] theorem modCohort_dumpAborts (s : State) (c : Nat) (f : Cohort → Cohort) : (modCohort s c f).dumpAborts = s.dumpAborts := by unfold modCohort; split <;> rfl
@[simp] theorem modCohort_span (s : State) (c : Nat) (f : Cohort → Cohort) : (modCohort s c f).span = s.span := by unfold modCohort; split <;> rfl
@[simp] theorem modCohort_cycles (s : State) (c : Nat) (f : Cohort → Cohort) : (modCohort s c f).cycles = s.cycles := by unfold modCohort; split <;> rfl
@[simp] theorem modCohort_seqno (s : State) (c : Nat) (f : Cohort → Cohort) : (modCohort s c f).seqno = s.seqno := by unfold modCohort; split <;> rfl
@[simp] theorem modCohort_elapse (s : State) (c : Nat) (f : Cohort → Cohort) : (modCohort s c f).elapse = s.elapse := by unfold modCohort; split <;> rfl
@[simp] theorem modCohort_turns (s : State) (c : Nat) (f : Cohort → Cohort) : (modCohort s c f).turns = s.turns := by unfold modCohort; split <;> rfl
@[simp] theorem modCohort_agenda (s : State) (c : Nat) (f : Cohort → Cohort) : (modCohort s c f).agenda = s.agenda := by unfold modCohort; split <;> rfl

-- `modCrew`.
@[simp] theorem modCrew_threads (s : State) (c : Nat) (f : Crew → Crew) : (modCrew s c f).threads = s.threads := by unfold modCrew; split <;> rfl
@[simp] theorem modCrew_opens (s : State) (c : Nat) (f : Crew → Crew) : (modCrew s c f).opens = s.opens := by unfold modCrew; split <;> rfl
@[simp] theorem modCrew_cur (s : State) (c : Nat) (f : Crew → Crew) : (modCrew s c f).cur = s.cur := by unfold modCrew; split <;> rfl
@[simp] theorem modCrew_parked (s : State) (c : Nat) (f : Crew → Crew) : (modCrew s c f).parked = s.parked := by unfold modCrew; split <;> rfl
@[simp] theorem modCrew_deferrals (s : State) (c : Nat) (f : Crew → Crew) : (modCrew s c f).deferrals = s.deferrals := by unfold modCrew; split <;> rfl
@[simp] theorem modCrew_halted (s : State) (c : Nat) (f : Crew → Crew) : (modCrew s c f).halted = s.halted := by unfold modCrew; split <;> rfl
@[simp] theorem modCrew_dumps (s : State) (c : Nat) (f : Crew → Crew) : (modCrew s c f).dumps = s.dumps := by unfold modCrew; split <;> rfl
@[simp] theorem modCrew_slots (s : State) (c : Nat) (f : Crew → Crew) : (modCrew s c f).slots = s.slots := by unfold modCrew; split <;> rfl
@[simp] theorem modCrew_cohorts (s : State) (c : Nat) (f : Crew → Crew) : (modCrew s c f).cohorts = s.cohorts := by unfold modCrew; split <;> rfl
@[simp] theorem modCrew_nodes (s : State) (c : Nat) (f : Crew → Crew) : (modCrew s c f).nodes = s.nodes := by unfold modCrew; split <;> rfl
@[simp] theorem modCrew_swarm (s : State) (c : Nat) (f : Crew → Crew) : (modCrew s c f).swarm = s.swarm := by unfold modCrew; split <;> rfl
@[simp] theorem modCrew_rows (s : State) (c : Nat) (f : Crew → Crew) : (modCrew s c f).rows = s.rows := by unfold modCrew; split <;> rfl
@[simp] theorem modCrew_queues (s : State) (c : Nat) (f : Crew → Crew) : (modCrew s c f).queues = s.queues := by unfold modCrew; split <;> rfl
@[simp] theorem modCrew_mem (s : State) (c : Nat) (f : Crew → Crew) : (modCrew s c f).mem = s.mem := by unfold modCrew; split <;> rfl
@[simp] theorem modCrew_gwct (s : State) (c : Nat) (f : Crew → Crew) : (modCrew s c f).gwct = s.gwct := by unfold modCrew; split <;> rfl
@[simp] theorem modCrew_stamps (s : State) (c : Nat) (f : Crew → Crew) : (modCrew s c f).stamps = s.stamps := by unfold modCrew; split <;> rfl
@[simp] theorem modCrew_copies (s : State) (c : Nat) (f : Crew → Crew) : (modCrew s c f).copies = s.copies := by unfold modCrew; split <;> rfl
@[simp] theorem modCrew_acquired (s : State) (c : Nat) (f : Crew → Crew) : (modCrew s c f).acquired = s.acquired := by unfold modCrew; split <;> rfl
@[simp] theorem modCrew_access (s : State) (c : Nat) (f : Crew → Crew) : (modCrew s c f).access = s.access := by unfold modCrew; split <;> rfl
@[simp] theorem modCrew_tlb (s : State) (c : Nat) (f : Crew → Crew) : (modCrew s c f).tlb = s.tlb := by unfold modCrew; split <;> rfl
@[simp] theorem modCrew_faults (s : State) (c : Nat) (f : Crew → Crew) : (modCrew s c f).faults = s.faults := by unfold modCrew; split <;> rfl
@[simp] theorem modCrew_valid (s : State) (c : Nat) (f : Crew → Crew) : (modCrew s c f).valid = s.valid := by unfold modCrew; split <;> rfl
@[simp] theorem modCrew_keys (s : State) (c : Nat) (f : Crew → Crew) : (modCrew s c f).keys = s.keys := by unfold modCrew; split <;> rfl
@[simp] theorem modCrew_nextKey (s : State) (c : Nat) (f : Crew → Crew) : (modCrew s c f).nextKey = s.nextKey := by unfold modCrew; split <;> rfl
@[simp] theorem modCrew_lineKeys (s : State) (c : Nat) (f : Crew → Crew) : (modCrew s c f).lineKeys = s.lineKeys := by unfold modCrew; split <;> rfl
@[simp] theorem modCrew_poison (s : State) (c : Nat) (f : Crew → Crew) : (modCrew s c f).poison = s.poison := by unfold modCrew; split <;> rfl
@[simp] theorem modCrew_bar0 (s : State) (c : Nat) (f : Crew → Crew) : (modCrew s c f).bar0 = s.bar0 := by unfold modCrew; split <;> rfl
@[simp] theorem modCrew_bar2 (s : State) (c : Nat) (f : Crew → Crew) : (modCrew s c f).bar2 = s.bar2 := by unfold modCrew; split <;> rfl
@[simp] theorem modCrew_subWatch (s : State) (c : Nat) (f : Crew → Crew) : (modCrew s c f).subWatch = s.subWatch := by unfold modCrew; split <;> rfl
@[simp] theorem modCrew_subFired (s : State) (c : Nat) (f : Crew → Crew) : (modCrew s c f).subFired = s.subFired := by unfold modCrew; split <;> rfl
@[simp] theorem modCrew_reuse (s : State) (c : Nat) (f : Crew → Crew) : (modCrew s c f).reuse = s.reuse := by unfold modCrew; split <;> rfl
@[simp] theorem modCrew_fusedClusters (s : State) (c : Nat) (f : Crew → Crew) : (modCrew s c f).fusedClusters = s.fusedClusters := by unfold modCrew; split <;> rfl
@[simp] theorem modCrew_draining (s : State) (c : Nat) (f : Crew → Crew) : (modCrew s c f).draining = s.draining := by unfold modCrew; split <;> rfl
@[simp] theorem modCrew_girders (s : State) (c : Nat) (f : Crew → Crew) : (modCrew s c f).girders = s.girders := by unfold modCrew; split <;> rfl
@[simp] theorem modCrew_scarabs (s : State) (c : Nat) (f : Crew → Crew) : (modCrew s c f).scarabs = s.scarabs := by unfold modCrew; split <;> rfl
@[simp] theorem modCrew_handles (s : State) (c : Nat) (f : Crew → Crew) : (modCrew s c f).handles = s.handles := by unfold modCrew; split <;> rfl
@[simp] theorem modCrew_colCmds (s : State) (c : Nat) (f : Crew → Crew) : (modCrew s c f).colCmds = s.colCmds := by unfold modCrew; split <;> rfl
@[simp] theorem modCrew_contribs (s : State) (c : Nat) (f : Crew → Crew) : (modCrew s c f).contribs = s.contribs := by unfold modCrew; split <;> rfl
@[simp] theorem modCrew_puts (s : State) (c : Nat) (f : Crew → Crew) : (modCrew s c f).puts = s.puts := by unfold modCrew; split <;> rfl
@[simp] theorem modCrew_inbox (s : State) (c : Nat) (f : Crew → Crew) : (modCrew s c f).inbox = s.inbox := by unfold modCrew; split <;> rfl
@[simp] theorem modCrew_outbox (s : State) (c : Nat) (f : Crew → Crew) : (modCrew s c f).outbox = s.outbox := by unfold modCrew; split <;> rfl
@[simp] theorem modCrew_inSeq (s : State) (c : Nat) (f : Crew → Crew) : (modCrew s c f).inSeq = s.inSeq := by unfold modCrew; split <;> rfl
@[simp] theorem modCrew_outSeq (s : State) (c : Nat) (f : Crew → Crew) : (modCrew s c f).outSeq = s.outSeq := by unfold modCrew; split <;> rfl
@[simp] theorem modCrew_refusals (s : State) (c : Nat) (f : Crew → Crew) : (modCrew s c f).refusals = s.refusals := by unfold modCrew; split <;> rfl
@[simp] theorem modCrew_ports (s : State) (c : Nat) (f : Crew → Crew) : (modCrew s c f).ports = s.ports := by unfold modCrew; split <;> rfl
@[simp] theorem modCrew_cicadaAt (s : State) (c : Nat) (f : Crew → Crew) : (modCrew s c f).cicadaAt = s.cicadaAt := by unfold modCrew; split <;> rfl
@[simp] theorem modCrew_sampCount (s : State) (c : Nat) (f : Crew → Crew) : (modCrew s c f).sampCount = s.sampCount := by unfold modCrew; split <;> rfl
@[simp] theorem modCrew_inval (s : State) (c : Nat) (f : Crew → Crew) : (modCrew s c f).inval = s.inval := by unfold modCrew; split <;> rfl
@[simp] theorem modCrew_meas (s : State) (c : Nat) (f : Crew → Crew) : (modCrew s c f).meas = s.meas := by unfold modCrew; split <;> rfl
@[simp] theorem modCrew_session (s : State) (c : Nat) (f : Crew → Crew) : (modCrew s c f).session = s.session := by unfold modCrew; split <;> rfl
@[simp] theorem modCrew_power (s : State) (c : Nat) (f : Crew → Crew) : (modCrew s c f).power = s.power := by unfold modCrew; split <;> rfl
@[simp] theorem modCrew_solverTurn (s : State) (c : Nat) (f : Crew → Crew) : (modCrew s c f).solverTurn = s.solverTurn := by unfold modCrew; split <;> rfl
@[simp] theorem modCrew_hdmBase (s : State) (c : Nat) (f : Crew → Crew) : (modCrew s c f).hdmBase = s.hdmBase := by unfold modCrew; split <;> rfl
@[simp] theorem modCrew_hostQueue (s : State) (c : Nat) (f : Crew → Crew) : (modCrew s c f).hostQueue = s.hostQueue := by unfold modCrew; split <;> rfl
@[simp] theorem modCrew_hostReplies (s : State) (c : Nat) (f : Crew → Crew) : (modCrew s c f).hostReplies = s.hostReplies := by unfold modCrew; split <;> rfl
@[simp] theorem modCrew_msix (s : State) (c : Nat) (f : Crew → Crew) : (modCrew s c f).msix = s.msix := by unfold modCrew; split <;> rfl
@[simp] theorem modCrew_checks (s : State) (c : Nat) (f : Crew → Crew) : (modCrew s c f).checks = s.checks := by unfold modCrew; split <;> rfl
@[simp] theorem modCrew_dumpAborts (s : State) (c : Nat) (f : Crew → Crew) : (modCrew s c f).dumpAborts = s.dumpAborts := by unfold modCrew; split <;> rfl
@[simp] theorem modCrew_span (s : State) (c : Nat) (f : Crew → Crew) : (modCrew s c f).span = s.span := by unfold modCrew; split <;> rfl
@[simp] theorem modCrew_cycles (s : State) (c : Nat) (f : Crew → Crew) : (modCrew s c f).cycles = s.cycles := by unfold modCrew; split <;> rfl
@[simp] theorem modCrew_seqno (s : State) (c : Nat) (f : Crew → Crew) : (modCrew s c f).seqno = s.seqno := by unfold modCrew; split <;> rfl
@[simp] theorem modCrew_elapse (s : State) (c : Nat) (f : Crew → Crew) : (modCrew s c f).elapse = s.elapse := by unfold modCrew; split <;> rfl
@[simp] theorem modCrew_turns (s : State) (c : Nat) (f : Crew → Crew) : (modCrew s c f).turns = s.turns := by unfold modCrew; split <;> rfl
@[simp] theorem modCrew_agenda (s : State) (c : Nat) (f : Crew → Crew) : (modCrew s c f).agenda = s.agenda := by unfold modCrew; split <;> rfl

/-- A cohort after one of them is changed. -/
theorem getCohort_modCohort (s : State) (c k : Nat) (f : Cohort → Cohort) :
    getCohort (modCohort s c f) k = if k = c then (getCohort s c).map f else getCohort s k := by
  unfold modCohort
  cases h : getCohort s c with
  | none => by_cases e : k = c <;> simp [e, h]
  | some x =>
    show getK (putK s.cohorts c (f x)) k = _
    rw [getK_putK]; rfl

/-- A node after one of them is changed. -/
theorem getNode_modNode (s : State) (c k : Nat) (f : Node → Node) :
    getNode (modNode s c f) k = if k = c then (getNode s c).map f else getNode s k := by
  unfold modNode
  cases h : getNode s c with
  | none => by_cases e : k = c <;> simp [e, h]
  | some x =>
    show getK (putK s.nodes c (f x)) k = _
    rw [getK_putK]; rfl

/-- A crew after one of them is changed. -/
theorem getCrew_modCrew (s : State) (c k : Nat) (f : Crew → Crew) :
    getCrew (modCrew s c f) k = if k = c then (getCrew s c).map f else getCrew s k := by
  unfold modCrew
  cases h : getCrew s c with
  | none => by_cases e : k = c <;> simp [e, h]
  | some x =>
    show getK (putK s.crews c (f x)) k = _
    rw [getK_putK]; rfl

/-- A queue after one of them is set. -/
theorem getQueue_putQueue (s : State) (core cls core' cls' : Nat) (q : List QEntry) :
    getQueue (putQueue s core cls q) core' cls' = if queueNo core' cls' = queueNo core cls then q else getQueue s core' cls' := by
  unfold getQueue
  show (getK (putK s.queues (queueNo core cls) q) (queueNo core' cls')).getD [] = _
  rw [getK_putK]
  split <;> rfl

-- `setLatch`.
@[simp] theorem setLatch_lc (th : Thread) (k : Nat) (l : Latch) : (setLatch th k l).lc = th.lc := rfl
@[simp] theorem setLatch_regs (th : Thread) (k : Nat) (l : Latch) : (setLatch th k l).regs = th.regs := rfl
@[simp] theorem setLatch_preds (th : Thread) (k : Nat) (l : Latch) : (setLatch th k l).preds = th.preds := rfl
@[simp] theorem setLatch_lats (th : Thread) (k : Nat) (l : Latch) : (setLatch th k l).lats = th.lats.set k l := rfl
@[simp] theorem setLatch_dc (th : Thread) (k : Nat) (l : Latch) : (setLatch th k l).dc = th.dc := rfl
@[simp] theorem setLatch_zeros (th : Thread) (k : Nat) (l : Latch) : (setLatch th k l).zeros = th.zeros := rfl
@[simp] theorem setLatch_fcr (th : Thread) (k : Nat) (l : Latch) : (setLatch th k l).fcr = th.fcr := rfl
@[simp] theorem setLatch_fsr (th : Thread) (k : Nat) (l : Latch) : (setLatch th k l).fsr = th.fsr := rfl
@[simp] theorem setLatch_sp (th : Thread) (k : Nat) (l : Latch) : (setLatch th k l).sp = th.sp := rfl
@[simp] theorem setLatch_slim (th : Thread) (k : Nat) (l : Latch) : (setLatch th k l).slim = th.slim := rfl
@[simp] theorem setLatch_loops (th : Thread) (k : Nat) (l : Latch) : (setLatch th k l).loops = th.loops := rfl
@[simp] theorem setLatch_loopBuf (th : Thread) (k : Nat) (l : Latch) : (setLatch th k l).loopBuf = th.loopBuf := rfl
@[simp] theorem setLatch_surv (th : Thread) (k : Nat) (l : Latch) : (setLatch th k l).surv = th.surv := rfl
@[simp] theorem setLatch_wct (th : Thread) (k : Nat) (l : Latch) : (setLatch th k l).wct = th.wct := rfl
@[simp] theorem setLatch_thandler (th : Thread) (k : Nat) (l : Latch) : (setLatch th k l).thandler = th.thandler := rfl
@[simp] theorem setLatch_shandler (th : Thread) (k : Nat) (l : Latch) : (setLatch th k l).shandler = th.shandler := rfl
@[simp] theorem setLatch_ksave0 (th : Thread) (k : Nat) (l : Latch) : (setLatch th k l).ksave0 = th.ksave0 := rfl
@[simp] theorem setLatch_ksave1 (th : Thread) (k : Nat) (l : Latch) : (setLatch th k l).ksave1 = th.ksave1 := rfl
@[simp] theorem setLatch_stkbase (th : Thread) (k : Nat) (l : Latch) : (setLatch th k l).stkbase = th.stkbase := rfl
@[simp] theorem setLatch_level (th : Thread) (k : Nat) (l : Latch) : (setLatch th k l).level = th.level := rfl
@[simp] theorem setLatch_rec1 (th : Thread) (k : Nat) (l : Latch) : (setLatch th k l).rec1 = th.rec1 := rfl
@[simp] theorem setLatch_rec2 (th : Thread) (k : Nat) (l : Latch) : (setLatch th k l).rec2 = th.rec2 := rfl
@[simp] theorem setLatch_pc (th : Thread) (k : Nat) (l : Latch) : (setLatch th k l).pc = th.pc := rfl
@[simp] theorem setLatch_cla (th : Thread) (k : Nat) (l : Latch) : (setLatch th k l).cla = th.cla := rfl
@[simp] theorem setLatch_cocoon (th : Thread) (k : Nat) (l : Latch) : (setLatch th k l).cocoon = th.cocoon := rfl
@[simp] theorem setLatch_watch (th : Thread) (k : Nat) (l : Latch) : (setLatch th k l).watch = th.watch := rfl
@[simp] theorem setLatch_triggered (th : Thread) (k : Nat) (l : Latch) : (setLatch th k l).triggered = th.triggered := rfl
@[simp] theorem setLatch_sampMark (th : Thread) (k : Nat) (l : Latch) : (setLatch th k l).sampMark = th.sampMark := rfl
@[simp] theorem setLatch_stopReq (th : Thread) (k : Nat) (l : Latch) : (setLatch th k l).stopReq = th.stopReq := rfl
@[simp] theorem setLatch_batch (th : Thread) (k : Nat) (l : Latch) : (setLatch th k l).batch = th.batch := rfl
@[simp] theorem setLatch_yielded (th : Thread) (k : Nat) (l : Latch) : (setLatch th k l).yielded = th.yielded := rfl
@[simp] theorem setLatch_status (th : Thread) (k : Nat) (l : Latch) : (setLatch th k l).status = th.status := rfl
@[simp] theorem setLatch_since (th : Thread) (k : Nat) (l : Latch) : (setLatch th k l).since = th.since := rfl
@[simp] theorem setLatch_busy (th : Thread) (k : Nat) (l : Latch) : (setLatch th k l).busy = th.busy := rfl
@[simp] theorem setLatch_wait (th : Thread) (k : Nat) (l : Latch) : (setLatch th k l).wait = th.wait := rfl
@[simp] theorem setLatch_answers (th : Thread) (k : Nat) (l : Latch) : (setLatch th k l).answers = th.answers := rfl
@[simp] theorem setLatch_reports (th : Thread) (k : Nat) (l : Latch) : (setLatch th k l).reports = th.reports := rfl
@[simp] theorem setLatch_buffered (th : Thread) (k : Nat) (l : Latch) : (setLatch th k l).buffered = th.buffered := rfl
@[simp] theorem setLatch_poison (th : Thread) (k : Nat) (l : Latch) : (setLatch th k l).poison = th.poison.filter (· != 60 + k) := rfl

-- `dropLatch`.
@[simp] theorem dropLatch_lc (th : Thread) (k : Nat) : (dropLatch th k).lc = th.lc := rfl
@[simp] theorem dropLatch_regs (th : Thread) (k : Nat) : (dropLatch th k).regs = th.regs := rfl
@[simp] theorem dropLatch_preds (th : Thread) (k : Nat) : (dropLatch th k).preds = th.preds := rfl
@[simp] theorem dropLatch_lats (th : Thread) (k : Nat) : (dropLatch th k).lats = th.lats.set k Latch.invalid := rfl
@[simp] theorem dropLatch_dc (th : Thread) (k : Nat) : (dropLatch th k).dc = th.dc := rfl
@[simp] theorem dropLatch_zeros (th : Thread) (k : Nat) : (dropLatch th k).zeros = th.zeros := rfl
@[simp] theorem dropLatch_fcr (th : Thread) (k : Nat) : (dropLatch th k).fcr = th.fcr := rfl
@[simp] theorem dropLatch_fsr (th : Thread) (k : Nat) : (dropLatch th k).fsr = th.fsr := rfl
@[simp] theorem dropLatch_sp (th : Thread) (k : Nat) : (dropLatch th k).sp = th.sp := rfl
@[simp] theorem dropLatch_slim (th : Thread) (k : Nat) : (dropLatch th k).slim = th.slim := rfl
@[simp] theorem dropLatch_loops (th : Thread) (k : Nat) : (dropLatch th k).loops = th.loops := rfl
@[simp] theorem dropLatch_loopBuf (th : Thread) (k : Nat) : (dropLatch th k).loopBuf = th.loopBuf := rfl
@[simp] theorem dropLatch_surv (th : Thread) (k : Nat) : (dropLatch th k).surv = th.surv := rfl
@[simp] theorem dropLatch_wct (th : Thread) (k : Nat) : (dropLatch th k).wct = th.wct := rfl
@[simp] theorem dropLatch_thandler (th : Thread) (k : Nat) : (dropLatch th k).thandler = th.thandler := rfl
@[simp] theorem dropLatch_shandler (th : Thread) (k : Nat) : (dropLatch th k).shandler = th.shandler := rfl
@[simp] theorem dropLatch_ksave0 (th : Thread) (k : Nat) : (dropLatch th k).ksave0 = th.ksave0 := rfl
@[simp] theorem dropLatch_ksave1 (th : Thread) (k : Nat) : (dropLatch th k).ksave1 = th.ksave1 := rfl
@[simp] theorem dropLatch_stkbase (th : Thread) (k : Nat) : (dropLatch th k).stkbase = th.stkbase := rfl
@[simp] theorem dropLatch_level (th : Thread) (k : Nat) : (dropLatch th k).level = th.level := rfl
@[simp] theorem dropLatch_rec1 (th : Thread) (k : Nat) : (dropLatch th k).rec1 = th.rec1 := rfl
@[simp] theorem dropLatch_rec2 (th : Thread) (k : Nat) : (dropLatch th k).rec2 = th.rec2 := rfl
@[simp] theorem dropLatch_pc (th : Thread) (k : Nat) : (dropLatch th k).pc = th.pc := rfl
@[simp] theorem dropLatch_cla (th : Thread) (k : Nat) : (dropLatch th k).cla = th.cla := rfl
@[simp] theorem dropLatch_cocoon (th : Thread) (k : Nat) : (dropLatch th k).cocoon = th.cocoon := rfl
@[simp] theorem dropLatch_watch (th : Thread) (k : Nat) : (dropLatch th k).watch = th.watch := rfl
@[simp] theorem dropLatch_triggered (th : Thread) (k : Nat) : (dropLatch th k).triggered = th.triggered := rfl
@[simp] theorem dropLatch_sampMark (th : Thread) (k : Nat) : (dropLatch th k).sampMark = th.sampMark := rfl
@[simp] theorem dropLatch_stopReq (th : Thread) (k : Nat) : (dropLatch th k).stopReq = th.stopReq := rfl
@[simp] theorem dropLatch_batch (th : Thread) (k : Nat) : (dropLatch th k).batch = th.batch := rfl
@[simp] theorem dropLatch_yielded (th : Thread) (k : Nat) : (dropLatch th k).yielded = th.yielded := rfl
@[simp] theorem dropLatch_status (th : Thread) (k : Nat) : (dropLatch th k).status = th.status := rfl
@[simp] theorem dropLatch_since (th : Thread) (k : Nat) : (dropLatch th k).since = th.since := rfl
@[simp] theorem dropLatch_busy (th : Thread) (k : Nat) : (dropLatch th k).busy = th.busy := rfl
@[simp] theorem dropLatch_wait (th : Thread) (k : Nat) : (dropLatch th k).wait = th.wait := rfl
@[simp] theorem dropLatch_answers (th : Thread) (k : Nat) : (dropLatch th k).answers = th.answers := rfl
@[simp] theorem dropLatch_reports (th : Thread) (k : Nat) : (dropLatch th k).reports = th.reports := rfl
@[simp] theorem dropLatch_buffered (th : Thread) (k : Nat) : (dropLatch th k).buffered = th.buffered := rfl
@[simp] theorem dropLatch_poison (th : Thread) (k : Nat) : (dropLatch th k).poison = th.poison.filter (· != 60 + k) := rfl

-- `advance`.
@[simp] theorem advance_lc (g : Group) (th : Thread) : (advance g th).lc = th.lc := rfl
@[simp] theorem advance_regs (g : Group) (th : Thread) : (advance g th).regs = th.regs := rfl
@[simp] theorem advance_preds (g : Group) (th : Thread) : (advance g th).preds = th.preds := rfl
@[simp] theorem advance_lats (g : Group) (th : Thread) : (advance g th).lats = th.lats := rfl
@[simp] theorem advance_dc (g : Group) (th : Thread) : (advance g th).dc = th.dc := rfl
@[simp] theorem advance_zeros (g : Group) (th : Thread) : (advance g th).zeros = th.zeros := rfl
@[simp] theorem advance_fcr (g : Group) (th : Thread) : (advance g th).fcr = th.fcr := rfl
@[simp] theorem advance_fsr (g : Group) (th : Thread) : (advance g th).fsr = th.fsr := rfl
@[simp] theorem advance_sp (g : Group) (th : Thread) : (advance g th).sp = th.sp := rfl
@[simp] theorem advance_slim (g : Group) (th : Thread) : (advance g th).slim = th.slim := rfl
@[simp] theorem advance_loops (g : Group) (th : Thread) : (advance g th).loops = th.loops := rfl
@[simp] theorem advance_loopBuf (g : Group) (th : Thread) : (advance g th).loopBuf = th.loopBuf := rfl
@[simp] theorem advance_surv (g : Group) (th : Thread) : (advance g th).surv = th.surv := rfl
@[simp] theorem advance_wct (g : Group) (th : Thread) : (advance g th).wct = th.wct := rfl
@[simp] theorem advance_thandler (g : Group) (th : Thread) : (advance g th).thandler = th.thandler := rfl
@[simp] theorem advance_shandler (g : Group) (th : Thread) : (advance g th).shandler = th.shandler := rfl
@[simp] theorem advance_ksave0 (g : Group) (th : Thread) : (advance g th).ksave0 = th.ksave0 := rfl
@[simp] theorem advance_ksave1 (g : Group) (th : Thread) : (advance g th).ksave1 = th.ksave1 := rfl
@[simp] theorem advance_stkbase (g : Group) (th : Thread) : (advance g th).stkbase = th.stkbase := rfl
@[simp] theorem advance_level (g : Group) (th : Thread) : (advance g th).level = th.level := rfl
@[simp] theorem advance_rec1 (g : Group) (th : Thread) : (advance g th).rec1 = th.rec1 := rfl
@[simp] theorem advance_rec2 (g : Group) (th : Thread) : (advance g th).rec2 = th.rec2 := rfl
@[simp] theorem advance_pc (g : Group) (th : Thread) : (advance g th).pc = g.pc + 4 := rfl
@[simp] theorem advance_cla (g : Group) (th : Thread) : (advance g th).cla = th.cla := rfl
@[simp] theorem advance_cocoon (g : Group) (th : Thread) : (advance g th).cocoon = th.cocoon := rfl
@[simp] theorem advance_watch (g : Group) (th : Thread) : (advance g th).watch = th.watch := rfl
@[simp] theorem advance_triggered (g : Group) (th : Thread) : (advance g th).triggered = th.triggered := rfl
@[simp] theorem advance_sampMark (g : Group) (th : Thread) : (advance g th).sampMark = th.sampMark := rfl
@[simp] theorem advance_stopReq (g : Group) (th : Thread) : (advance g th).stopReq = th.stopReq := rfl
@[simp] theorem advance_batch (g : Group) (th : Thread) : (advance g th).batch = th.batch := rfl
@[simp] theorem advance_yielded (g : Group) (th : Thread) : (advance g th).yielded = th.yielded := rfl
@[simp] theorem advance_status (g : Group) (th : Thread) : (advance g th).status = th.status := rfl
@[simp] theorem advance_since (g : Group) (th : Thread) : (advance g th).since = th.since := rfl
@[simp] theorem advance_busy (g : Group) (th : Thread) : (advance g th).busy = th.busy := rfl
@[simp] theorem advance_wait (g : Group) (th : Thread) : (advance g th).wait = th.wait := rfl
@[simp] theorem advance_answers (g : Group) (th : Thread) : (advance g th).answers = th.answers := rfl
@[simp] theorem advance_reports (g : Group) (th : Thread) : (advance g th).reports = th.reports := rfl
@[simp] theorem advance_buffered (g : Group) (th : Thread) : (advance g th).buffered = th.buffered := rfl
@[simp] theorem advance_poison (g : Group) (th : Thread) : (advance g th).poison = th.poison := rfl

-- `standing`.
@[simp] theorem standing_lc (s : State) (th : Thread) : (standing s th).lc = th.lc := rfl
@[simp] theorem standing_regs (s : State) (th : Thread) : (standing s th).regs = th.regs := rfl
@[simp] theorem standing_preds (s : State) (th : Thread) : (standing s th).preds = th.preds := rfl
@[simp] theorem standing_lats (s : State) (th : Thread) : (standing s th).lats = th.lats := rfl
@[simp] theorem standing_dc (s : State) (th : Thread) : (standing s th).dc = th.dc := rfl
@[simp] theorem standing_zeros (s : State) (th : Thread) : (standing s th).zeros = th.zeros := rfl
@[simp] theorem standing_fcr (s : State) (th : Thread) : (standing s th).fcr = th.fcr := rfl
@[simp] theorem standing_fsr (s : State) (th : Thread) : (standing s th).fsr = th.fsr := rfl
@[simp] theorem standing_sp (s : State) (th : Thread) : (standing s th).sp = th.sp := rfl
@[simp] theorem standing_slim (s : State) (th : Thread) : (standing s th).slim = th.slim := rfl
@[simp] theorem standing_loops (s : State) (th : Thread) : (standing s th).loops = th.loops := rfl
@[simp] theorem standing_loopBuf (s : State) (th : Thread) : (standing s th).loopBuf = th.loopBuf := rfl
@[simp] theorem standing_surv (s : State) (th : Thread) : (standing s th).surv = th.surv := rfl
@[simp] theorem standing_wct (s : State) (th : Thread) : (standing s th).wct = th.wct := rfl
@[simp] theorem standing_thandler (s : State) (th : Thread) : (standing s th).thandler = th.thandler := rfl
@[simp] theorem standing_shandler (s : State) (th : Thread) : (standing s th).shandler = th.shandler := rfl
@[simp] theorem standing_ksave0 (s : State) (th : Thread) : (standing s th).ksave0 = th.ksave0 := rfl
@[simp] theorem standing_ksave1 (s : State) (th : Thread) : (standing s th).ksave1 = th.ksave1 := rfl
@[simp] theorem standing_stkbase (s : State) (th : Thread) : (standing s th).stkbase = th.stkbase := rfl
@[simp] theorem standing_level (s : State) (th : Thread) : (standing s th).level = th.level := rfl
@[simp] theorem standing_rec1 (s : State) (th : Thread) : (standing s th).rec1 = th.rec1 := rfl
@[simp] theorem standing_rec2 (s : State) (th : Thread) : (standing s th).rec2 = th.rec2 := rfl
@[simp] theorem standing_pc (s : State) (th : Thread) : (standing s th).pc = th.pc := rfl
@[simp] theorem standing_cla (s : State) (th : Thread) : (standing s th).cla = th.cla := rfl
@[simp] theorem standing_cocoon (s : State) (th : Thread) : (standing s th).cocoon = th.cocoon := rfl
@[simp] theorem standing_watch (s : State) (th : Thread) : (standing s th).watch = th.watch := rfl
@[simp] theorem standing_triggered (s : State) (th : Thread) : (standing s th).triggered = th.triggered := rfl
@[simp] theorem standing_sampMark (s : State) (th : Thread) : (standing s th).sampMark = th.sampMark := rfl
@[simp] theorem standing_stopReq (s : State) (th : Thread) : (standing s th).stopReq = th.stopReq := rfl
@[simp] theorem standing_batch (s : State) (th : Thread) : (standing s th).batch = th.batch := rfl
@[simp] theorem standing_yielded (s : State) (th : Thread) : (standing s th).yielded = th.yielded := rfl
@[simp] theorem standing_status (s : State) (th : Thread) : (standing s th).status = .ready := rfl
@[simp] theorem standing_since (s : State) (th : Thread) : (standing s th).since = s.span := rfl
@[simp] theorem standing_busy (s : State) (th : Thread) : (standing s th).busy = th.busy := rfl
@[simp] theorem standing_wait (s : State) (th : Thread) : (standing s th).wait = th.wait := rfl
@[simp] theorem standing_answers (s : State) (th : Thread) : (standing s th).answers = th.answers := rfl
@[simp] theorem standing_reports (s : State) (th : Thread) : (standing s th).reports = th.reports := rfl
@[simp] theorem standing_buffered (s : State) (th : Thread) : (standing s th).buffered = th.buffered := rfl
@[simp] theorem standing_poison (s : State) (th : Thread) : (standing s th).poison = th.poison := rfl

-- `writePred`.
@[simp] theorem writePred_lc (th : Thread) (n : Nat) (b : Bool) : (writePred th n b).lc = th.lc := rfl
@[simp] theorem writePred_regs (th : Thread) (n : Nat) (b : Bool) : (writePred th n b).regs = th.regs := rfl
@[simp] theorem writePred_preds (th : Thread) (n : Nat) (b : Bool) : (writePred th n b).preds = putK th.preds n b := rfl
@[simp] theorem writePred_lats (th : Thread) (n : Nat) (b : Bool) : (writePred th n b).lats = th.lats := rfl
@[simp] theorem writePred_dc (th : Thread) (n : Nat) (b : Bool) : (writePred th n b).dc = th.dc := rfl
@[simp] theorem writePred_zeros (th : Thread) (n : Nat) (b : Bool) : (writePred th n b).zeros = th.zeros := rfl
@[simp] theorem writePred_fcr (th : Thread) (n : Nat) (b : Bool) : (writePred th n b).fcr = th.fcr := rfl
@[simp] theorem writePred_fsr (th : Thread) (n : Nat) (b : Bool) : (writePred th n b).fsr = th.fsr := rfl
@[simp] theorem writePred_sp (th : Thread) (n : Nat) (b : Bool) : (writePred th n b).sp = th.sp := rfl
@[simp] theorem writePred_slim (th : Thread) (n : Nat) (b : Bool) : (writePred th n b).slim = th.slim := rfl
@[simp] theorem writePred_loops (th : Thread) (n : Nat) (b : Bool) : (writePred th n b).loops = th.loops := rfl
@[simp] theorem writePred_loopBuf (th : Thread) (n : Nat) (b : Bool) : (writePred th n b).loopBuf = th.loopBuf := rfl
@[simp] theorem writePred_surv (th : Thread) (n : Nat) (b : Bool) : (writePred th n b).surv = th.surv := rfl
@[simp] theorem writePred_wct (th : Thread) (n : Nat) (b : Bool) : (writePred th n b).wct = th.wct := rfl
@[simp] theorem writePred_thandler (th : Thread) (n : Nat) (b : Bool) : (writePred th n b).thandler = th.thandler := rfl
@[simp] theorem writePred_shandler (th : Thread) (n : Nat) (b : Bool) : (writePred th n b).shandler = th.shandler := rfl
@[simp] theorem writePred_ksave0 (th : Thread) (n : Nat) (b : Bool) : (writePred th n b).ksave0 = th.ksave0 := rfl
@[simp] theorem writePred_ksave1 (th : Thread) (n : Nat) (b : Bool) : (writePred th n b).ksave1 = th.ksave1 := rfl
@[simp] theorem writePred_stkbase (th : Thread) (n : Nat) (b : Bool) : (writePred th n b).stkbase = th.stkbase := rfl
@[simp] theorem writePred_level (th : Thread) (n : Nat) (b : Bool) : (writePred th n b).level = th.level := rfl
@[simp] theorem writePred_rec1 (th : Thread) (n : Nat) (b : Bool) : (writePred th n b).rec1 = th.rec1 := rfl
@[simp] theorem writePred_rec2 (th : Thread) (n : Nat) (b : Bool) : (writePred th n b).rec2 = th.rec2 := rfl
@[simp] theorem writePred_pc (th : Thread) (n : Nat) (b : Bool) : (writePred th n b).pc = th.pc := rfl
@[simp] theorem writePred_cla (th : Thread) (n : Nat) (b : Bool) : (writePred th n b).cla = th.cla := rfl
@[simp] theorem writePred_watch (th : Thread) (n : Nat) (b : Bool) : (writePred th n b).watch = th.watch := rfl
@[simp] theorem writePred_triggered (th : Thread) (n : Nat) (b : Bool) : (writePred th n b).triggered = th.triggered := rfl
@[simp] theorem writePred_sampMark (th : Thread) (n : Nat) (b : Bool) : (writePred th n b).sampMark = th.sampMark := rfl
@[simp] theorem writePred_stopReq (th : Thread) (n : Nat) (b : Bool) : (writePred th n b).stopReq = th.stopReq := rfl
@[simp] theorem writePred_batch (th : Thread) (n : Nat) (b : Bool) : (writePred th n b).batch = th.batch := rfl
@[simp] theorem writePred_yielded (th : Thread) (n : Nat) (b : Bool) : (writePred th n b).yielded = th.yielded := rfl
@[simp] theorem writePred_status (th : Thread) (n : Nat) (b : Bool) : (writePred th n b).status = th.status := rfl
@[simp] theorem writePred_since (th : Thread) (n : Nat) (b : Bool) : (writePred th n b).since = th.since := rfl
@[simp] theorem writePred_busy (th : Thread) (n : Nat) (b : Bool) : (writePred th n b).busy = th.busy := rfl
@[simp] theorem writePred_wait (th : Thread) (n : Nat) (b : Bool) : (writePred th n b).wait = th.wait := rfl
@[simp] theorem writePred_answers (th : Thread) (n : Nat) (b : Bool) : (writePred th n b).answers = th.answers := rfl
@[simp] theorem writePred_reports (th : Thread) (n : Nat) (b : Bool) : (writePred th n b).reports = th.reports := rfl
@[simp] theorem writePred_buffered (th : Thread) (n : Nat) (b : Bool) : (writePred th n b).buffered = th.buffered := rfl
@[simp] theorem writePred_poison (th : Thread) (n : Nat) (b : Bool) : (writePred th n b).poison = th.poison := rfl

-- `writeReg`.
@[simp] theorem writeReg_lc (th : Thread) (n : Nat) (x : Dexel) : (writeReg th n x).lc = th.lc := by unfold writeReg; split <;> rfl
@[simp] theorem writeReg_preds (th : Thread) (n : Nat) (x : Dexel) : (writeReg th n x).preds = th.preds := by unfold writeReg; split <;> rfl
@[simp] theorem writeReg_lats (th : Thread) (n : Nat) (x : Dexel) : (writeReg th n x).lats = th.lats := by unfold writeReg; split <;> rfl
@[simp] theorem writeReg_dc (th : Thread) (n : Nat) (x : Dexel) : (writeReg th n x).dc = th.dc := by unfold writeReg; split <;> rfl
@[simp] theorem writeReg_zeros (th : Thread) (n : Nat) (x : Dexel) : (writeReg th n x).zeros = th.zeros := by unfold writeReg; split <;> rfl
@[simp] theorem writeReg_fcr (th : Thread) (n : Nat) (x : Dexel) : (writeReg th n x).fcr = th.fcr := by unfold writeReg; split <;> rfl
@[simp] theorem writeReg_fsr (th : Thread) (n : Nat) (x : Dexel) : (writeReg th n x).fsr = th.fsr := by unfold writeReg; split <;> rfl
@[simp] theorem writeReg_sp (th : Thread) (n : Nat) (x : Dexel) : (writeReg th n x).sp = th.sp := by unfold writeReg; split <;> rfl
@[simp] theorem writeReg_slim (th : Thread) (n : Nat) (x : Dexel) : (writeReg th n x).slim = th.slim := by unfold writeReg; split <;> rfl
@[simp] theorem writeReg_loops (th : Thread) (n : Nat) (x : Dexel) : (writeReg th n x).loops = th.loops := by unfold writeReg; split <;> rfl
@[simp] theorem writeReg_loopBuf (th : Thread) (n : Nat) (x : Dexel) : (writeReg th n x).loopBuf = th.loopBuf := by unfold writeReg; split <;> rfl
@[simp] theorem writeReg_surv (th : Thread) (n : Nat) (x : Dexel) : (writeReg th n x).surv = th.surv := by unfold writeReg; split <;> rfl
@[simp] theorem writeReg_wct (th : Thread) (n : Nat) (x : Dexel) : (writeReg th n x).wct = th.wct := by unfold writeReg; split <;> rfl
@[simp] theorem writeReg_thandler (th : Thread) (n : Nat) (x : Dexel) : (writeReg th n x).thandler = th.thandler := by unfold writeReg; split <;> rfl
@[simp] theorem writeReg_shandler (th : Thread) (n : Nat) (x : Dexel) : (writeReg th n x).shandler = th.shandler := by unfold writeReg; split <;> rfl
@[simp] theorem writeReg_ksave0 (th : Thread) (n : Nat) (x : Dexel) : (writeReg th n x).ksave0 = th.ksave0 := by unfold writeReg; split <;> rfl
@[simp] theorem writeReg_ksave1 (th : Thread) (n : Nat) (x : Dexel) : (writeReg th n x).ksave1 = th.ksave1 := by unfold writeReg; split <;> rfl
@[simp] theorem writeReg_stkbase (th : Thread) (n : Nat) (x : Dexel) : (writeReg th n x).stkbase = th.stkbase := by unfold writeReg; split <;> rfl
@[simp] theorem writeReg_level (th : Thread) (n : Nat) (x : Dexel) : (writeReg th n x).level = th.level := by unfold writeReg; split <;> rfl
@[simp] theorem writeReg_rec1 (th : Thread) (n : Nat) (x : Dexel) : (writeReg th n x).rec1 = th.rec1 := by unfold writeReg; split <;> rfl
@[simp] theorem writeReg_rec2 (th : Thread) (n : Nat) (x : Dexel) : (writeReg th n x).rec2 = th.rec2 := by unfold writeReg; split <;> rfl
@[simp] theorem writeReg_pc (th : Thread) (n : Nat) (x : Dexel) : (writeReg th n x).pc = th.pc := by unfold writeReg; split <;> rfl
@[simp] theorem writeReg_cla (th : Thread) (n : Nat) (x : Dexel) : (writeReg th n x).cla = th.cla := by unfold writeReg; split <;> rfl
@[simp] theorem writeReg_watch (th : Thread) (n : Nat) (x : Dexel) : (writeReg th n x).watch = th.watch := by unfold writeReg; split <;> rfl
@[simp] theorem writeReg_triggered (th : Thread) (n : Nat) (x : Dexel) : (writeReg th n x).triggered = th.triggered := by unfold writeReg; split <;> rfl
@[simp] theorem writeReg_sampMark (th : Thread) (n : Nat) (x : Dexel) : (writeReg th n x).sampMark = th.sampMark := by unfold writeReg; split <;> rfl
@[simp] theorem writeReg_stopReq (th : Thread) (n : Nat) (x : Dexel) : (writeReg th n x).stopReq = th.stopReq := by unfold writeReg; split <;> rfl
@[simp] theorem writeReg_batch (th : Thread) (n : Nat) (x : Dexel) : (writeReg th n x).batch = th.batch := by unfold writeReg; split <;> rfl
@[simp] theorem writeReg_yielded (th : Thread) (n : Nat) (x : Dexel) : (writeReg th n x).yielded = th.yielded := by unfold writeReg; split <;> rfl
@[simp] theorem writeReg_status (th : Thread) (n : Nat) (x : Dexel) : (writeReg th n x).status = th.status := by unfold writeReg; split <;> rfl
@[simp] theorem writeReg_since (th : Thread) (n : Nat) (x : Dexel) : (writeReg th n x).since = th.since := by unfold writeReg; split <;> rfl
@[simp] theorem writeReg_busy (th : Thread) (n : Nat) (x : Dexel) : (writeReg th n x).busy = th.busy := by unfold writeReg; split <;> rfl
@[simp] theorem writeReg_wait (th : Thread) (n : Nat) (x : Dexel) : (writeReg th n x).wait = th.wait := by unfold writeReg; split <;> rfl
@[simp] theorem writeReg_answers (th : Thread) (n : Nat) (x : Dexel) : (writeReg th n x).answers = th.answers := by unfold writeReg; split <;> rfl
@[simp] theorem writeReg_reports (th : Thread) (n : Nat) (x : Dexel) : (writeReg th n x).reports = th.reports := by unfold writeReg; split <;> rfl
@[simp] theorem writeReg_buffered (th : Thread) (n : Nat) (x : Dexel) : (writeReg th n x).buffered = th.buffered := by unfold writeReg; split <;> rfl

end Sys2Proof.Machine
end

