-- ==== Sys2Proof/Tests/Slice0.lean ====
section
/-! SUPPORT. Tests of the decoder, of the well-formedness checks and of single steps, and, for each statement with hypotheses, a witness: a
state and operands that meet them. Expected words and values are those that the chapters of the spec work out, or hand calculation from
its rules. -/

set_option Elab.async false

namespace Sys2Proof.Tests

open Sys2Proof Sys2Proof.Machine

/-- A machine about to issue a word in a thread that alone is on its core, as after `withFetchWord` (log 4). -/
def base : State := issueReady State.reset 0xC0000007
/-- Its group. -/
def grp : Group := ⟨0, [0], 0x10000, { headerFields 0xB0040000 with count := 1 }, [0xC0000007], 0, false⟩
/-- Its thread: trap level 2, every register 0. -/
def thr : Thread :=
  { launchThread (probeLaunch 1 2 0) 0x10000 0 0 0 with
    level := 2, status := .issuing, thandler := 0x20000, shandler := 0x30000, stopReq := true }

theorem base_thread : getThread base 0 = some thr := by rfl
theorem base_issues : Issues base grp := ⟨rfl, rfl, by decide⟩

/-- A property of the one thread of a group is one of its lanes. -/
theorem lanes_one {s : State} {g : Group} {u : Nat} {th : Thread} {p : BitVec 3} {ok : Nat → Thread → Prop} (hm : g.members = [u])
    (ht : getThread s u = some th) (h : ok u th) : LanesAt s g p ok := by
  intro v hv x hx _
  rw [hm] at hv
  obtain rfl : v = u := by simpa using hv
  rw [ht] at hx
  obtain rfl : th = x := by simpa using hx
  exact h

theorem base_lanes {p : BitVec 3} {ok : Thread → Prop} (h : ok thr) : Lanes base grp p ok := lanes_one rfl base_thread h
theorem base_free (gate : Gate) (h : gateFails gate 0 thr = false) : LaneFree grp gate thr := ⟨h, by rfl⟩
theorem base_alone (gate : Gate) (h : gateFails gate 0 thr = false) : Alone base grp gate 7 0 thr :=
  ⟨base_issues, rfl, base_thread, by rfl, base_free gate h⟩
theorem base_quiet (dbl : Bool) (fl : Word) : NoFlagTrap thr dbl fl := by
  left; show fl &&& ((0 >>> 3) &&& 31) = 0; simp

theorem witness_IntegerRegisterResults :
    Issues base grp ∧ ∀ f ∈ intForms 8 9 10 59 false 7 false 5 5 31,
      Lanes base grp f.pred (fun th => LaneFree grp freeGate th ∧ (f.val th).isSome = true ∧ dstReg th f.d f.nw = true) := by
  refine ⟨base_issues, fun f hf => base_lanes ⟨base_free _ (by decide), ?_⟩⟩
  revert f; decide

/-- A value of a thread that enables no trap raises none. -/
theorem flags_ok {α : Type} {o : Option (α × Word)} {dbl : Bool} (h : o.isSome = true) : ∃ r, o = some r ∧ NoFlagTrap thr dbl r.2 :=
  ⟨o.get h, by simp, base_quiet _ _⟩

theorem witness_IntegerPairResults :
    Issues base grp ∧ ∀ f ∈ wideForms 58 8 10 false 7 false 5 63,
      Lanes base grp f.pred (fun th => LaneFree grp freeGate th ∧ (f.val th).isSome = true ∧ dstPair th f.d f.nw = true) := by
  refine ⟨base_issues, fun f hf => base_lanes ⟨base_free _ (by decide), ?_⟩⟩
  revert f; decide

theorem witness_AuipcResult : Issues base grp ∧ Lanes base grp 7 fun th => LaneFree grp freeGate th ∧ dstPair th 58 false = true :=
  ⟨base_issues, base_lanes ⟨base_free _ (by decide), by decide⟩⟩

theorem witness_BitFieldResults : (0x80000000 : Word) ≠ 0 ∧ 31 < 32 := by decide

theorem witness_PredicateResults :
    Issues base grp ∧ ∀ f ∈ predForms 6 1 7 false 7 9 5 ++ predForms 0 2 4 true 7 10 2,
      Lanes base grp f.pred (fun th => LaneFree grp f.gate th ∧ (f.val th).isSome = true ∧ dstPred f.d f.nw = true) := by
  refine ⟨base_issues, fun f hf => base_lanes ?_⟩
  have : (gateFails f.gate 0 thr = false) ∧ (f.val thr).isSome = true ∧ dstPred f.d f.nw = true := by revert f; decide
  exact ⟨base_free _ this.1, this.2⟩

theorem witness_Binary32Results :
    Issues base grp ∧ ∀ f ∈ binary32Forms 59 1 2 3 false 7 false 2,
      Lanes base grp f.pred (fun th => LaneFree grp f.gate th ∧ dstReg th f.d f.nw = true ∧ ∃ r, f.val th = some r ∧ NoFlagTrap th f.dbl r.2) := by
  refine ⟨base_issues, fun f hf => base_lanes ?_⟩
  have : gateFails f.gate 0 thr = false ∧ dstReg thr f.d f.nw = true ∧ (f.val thr).isSome = true := by revert f; decide
  exact ⟨base_free _ this.1, this.2.1, flags_ok this.2.2⟩

theorem witness_Binary16Results :
    Issues base grp ∧ ∀ f ∈ binary16Forms 59 1 2 3 false 7 false,
      Lanes base grp f.pred (fun th => LaneFree grp f.gate th ∧ dstReg th f.d f.nw = true ∧ ∃ r, f.val th = some r ∧ NoFlagTrap th f.dbl r.2) := by
  refine ⟨base_issues, fun f hf => base_lanes ?_⟩
  have : gateFails f.gate 0 thr = false ∧ dstReg thr f.d f.nw = true ∧ (f.val thr).isSome = true := by revert f; decide
  exact ⟨base_free _ this.1, this.2.1, flags_ok this.2.2⟩

theorem witness_SpecialFunctionResults :
    Issues base grp ∧ ∀ f ∈ specialForms 0 1 2 true 7,
      Lanes base grp f.pred (fun th => LaneFree grp f.gate th ∧ dstReg th f.d f.nw = true ∧ ∃ r, f.val th = some r ∧ NoFlagTrap th f.dbl r.2) := by
  refine ⟨base_issues, fun f hf => base_lanes ?_⟩
  have : gateFails f.gate 0 thr = false ∧ dstReg thr f.d f.nw = true ∧ (f.val thr).isSome = true := by revert f; decide
  exact ⟨base_free _ this.1, this.2.1, flags_ok this.2.2⟩

theorem witness_DoubleResults :
    Issues base grp ∧ ∀ f ∈ doubleForms 58 2 4 6 false 7 false 0,
      Lanes base grp f.pred (fun th => LaneFree grp f.gate th ∧ dstPair th f.d f.nw = true ∧ ∃ r, f.val th = some r ∧ NoFlagTrap th f.dbl r.2) := by
  refine ⟨base_issues, fun f hf => base_lanes ?_⟩
  have : gateFails f.gate 0 thr = false ∧ dstPair thr f.d f.nw = true ∧ (f.val thr).isSome = true := by revert f; decide
  exact ⟨base_free _ this.1, this.2.1, flags_ok this.2.2⟩

set_option maxRecDepth 4000 in
theorem witness_ConversionResults :
    Issues base grp ∧ ∀ x ∈ [((1 : BitVec 4), (0 : BitVec 4)), (0, 1), (9, 8), (5, 9), (2, 5)],
      Lanes base grp 7 (fun th => LaneFree grp (z6Gate (decide (x.1 = 5 ∨ x.2 = 5))) th ∧
        (if x.2 = 0 ∨ x.2 = 8 ∨ x.2 = 9 then dstPair th 58 false else dstReg th 58 false) = true ∧
        ∃ r, cvtOf 2 x.1 x.2 2 th = some r ∧ NoFlagTrap th (decide (x.1 = 0 ∨ x.2 = 0)) r.2) := by
  refine ⟨base_issues, fun x hx => base_lanes ?_⟩
  have : gateFails (z6Gate (decide (x.1 = 5 ∨ x.2 = 5))) 0 thr = false ∧
      (if x.2 = 0 ∨ x.2 = 8 ∨ x.2 = 9 then dstPair thr 58 false else dstReg thr 58 false) = true ∧ (cvtOf 2 x.1 x.2 2 thr).isSome = true := by
    revert x; decide
  exact ⟨base_free _ this.1, this.2.1, flags_ok this.2.2⟩

theorem witness_HalfIntegerResults :
    Issues base grp ∧ ∀ f ∈ halfForms 59 1 2 false 7,
      Lanes base grp f.pred (fun th => LaneFree grp freeGate th ∧ (f.val th).isSome = true ∧ dstReg th f.d f.nw = true) := by
  refine ⟨base_issues, fun f hf => base_lanes ⟨base_free _ (by decide), ?_⟩⟩
  revert f; decide

theorem witness_AcsResult :
    Issues base grp ∧ Lanes base grp 7 (fun th => LaneFree grp freeGate th ∧ (srcReg th 1).isSome = true ∧ (srcReg th 59).isSome = true ∧
      dstReg th 0 true = true) :=
  ⟨base_issues, base_lanes ⟨base_free _ (by decide), by decide⟩⟩

theorem witness_MoveAndTangentResults :
    Issues base grp ∧ ∀ f ∈ moveForms 58 2 false 7 7,
      Lanes base grp f.pred (fun th => LaneFree grp freeGate th ∧ (f.val th).isSome = true ∧ dstReg th f.d f.nw = true) := by
  refine ⟨base_issues, fun f hf => base_lanes ⟨base_free _ (by decide), ?_⟩⟩
  revert f; decide

theorem witness_PairMoveAndTangentResults :
    Issues base grp ∧ ∀ f ∈ movePairForms 58 2 false 7 7,
      Lanes base grp f.pred (fun th => LaneFree grp freeGate th ∧ (f.val th).isSome = true ∧ dstPair th f.d f.nw = true) := by
  refine ⟨base_issues, fun f hf => base_lanes ⟨base_free _ (by decide), ?_⟩⟩
  revert f; decide

theorem witness_FloatCompareResults :
    Issues base grp ∧
    Lanes base grp 7 (fun th => LaneFree grp freeGate th ∧ dstPred 6 false = true ∧ ∃ x y, srcReg th 1 = some x ∧ srcReg th 2 = some y ∧
      NoFlagTrap th false (fpCompare b32 13 x.val.toNat y.val.toNat).2) ∧
    Lanes base grp 7 (fun th => LaneFree grp freeGate th ∧ dstPred 6 false = true ∧ ∃ x y, srcPair th 2 = some x ∧ srcPair th 4 = some y ∧
      NoFlagTrap th true (fpCompare b64 13 (bitsOf x).toNat (bitsOf y).toNat).2) ∧
    Lanes base grp 7 (fun th => LaneFree grp freeGate th ∧ (5 : BitVec 6).toNat ≤ 5 ∧ (false = true → (5 : BitVec 6) = 0) ∧
      ∃ x y, srcReg th 1 = some x ∧ srcReg th 2 = some y ∧ NoFlagTrap th false ((fpCompare b16 13 (x.val.toNat % 2 ^ 16) (y.val.toNat % 2 ^ 16)).2 |||
        (fpCompare b16 13 (x.val.toNat / 2 ^ 16) (y.val.toNat / 2 ^ 16)).2)) :=
  ⟨base_issues, base_lanes ⟨base_free _ (by decide), by decide, _, _, rfl, rfl, base_quiet _ _⟩,
    base_lanes ⟨base_free _ (by decide), by decide, _, _, rfl, rfl, base_quiet _ _⟩,
    base_lanes ⟨base_free _ (by decide), by decide, by decide, _, _, rfl, rfl, base_quiet _ _⟩⟩

theorem witness_FloatCompareTruth : 13 ≤ 13 := by decide

theorem witness_SpecialRegisterReads :
    Issues base grp ∧
    (∀ b ∈ [(0 : BitVec 6), 13, 25, 37], LanesAt base grp 7 fun u th => LaneFree grp ⟨none, 0, 0⟩ th ∧ (getK (specialTable base u th) b.toNat).isSome = true ∧
      (if b.toNat ∈ wideSpecials then dstPair th 58 false else dstReg th 58 false) = true) ∧
    (∀ b ∈ [(0 : BitVec 6), 37, 40, 56], LanesAt base grp 7 fun u th => LaneFree grp ⟨none, 2, 0⟩ th ∧
      (getK (specialTable base u th ++ privilegedTable th) b.toNat).isSome = true ∧
      (if b.toNat ∈ wideSpecials then dstPair th 58 false else dstReg th 58 false) = true) := by
  refine ⟨base_issues, fun b hb => lanes_one rfl base_thread ⟨base_free _ (by decide), ?_⟩,
    fun b hb => lanes_one rfl base_thread ⟨base_free _ (by decide), ?_⟩⟩ <;> (revert b; decide)

theorem witness_SpecialRegisterWrites :
    Issues base grp ∧
    (∀ b ∈ [(15 : BitVec 6), 16, 18, 19, 20, 22, 23, 24, 26, 37], Lanes base grp 7 fun th => LaneFree grp ⟨none, 0, 0⟩ th ∧
      ∃ x, specialSource th 2 b.toNat = some x ∧ (specialWritten th b.toNat x).isSome = true) ∧
    (∀ b ∈ [(15 : BitVec 6), 37, 40, 42, 53, 54, 55], Lanes base grp 7 fun th => LaneFree grp ⟨none, 2, 0⟩ th ∧
      ∃ x, specialSource th 2 b.toNat = some x ∧ (privilegedWritten th b.toNat x).isSome = true) := by
  refine ⟨base_issues, fun b hb => base_lanes ⟨base_free _ (by decide), ?_⟩, fun b hb => base_lanes ⟨base_free _ (by decide), ?_⟩⟩
  · refine ⟨(specialSource thr 2 b.toNat).getD (Dexel.zero, Dexel.zero), ?_⟩; revert b; decide
  · refine ⟨(specialSource thr 2 b.toNat).getD (Dexel.zero, Dexel.zero), ?_⟩; revert b; decide

theorem witness_PlainLaneResults :
    Issues base grp ∧ Lanes base grp 7 (LaneFree grp freeGate) ∧
    Lanes base grp 7 (fun th => LaneFree grp freeGate th ∧ (srcReg th 1).isSome = true ∧ false = false ∧ 1 ≤ (32 : BitVec 6).toNat ∧ (32 : BitVec 6).toNat ≤ 32 ∧
      1 ≤ (28 : BitVec 6).toNat ∧ (28 : BitVec 6).toNat + (32 : BitVec 6).toNat - 1 < th.lc.regs ∧ (28 : BitVec 6).toNat + (32 : BitVec 6).toNat ≤ 60) :=
  ⟨base_issues, base_lanes (base_free _ (by decide)), base_lanes ⟨base_free _ (by decide), by decide⟩⟩

theorem witness_SoftmaxResults :
    Issues base grp ∧ Lanes base grp 7 (fun th => LaneFree grp freeGate th ∧ dstPair th 58 false = true ∧
      ∃ r, foldOf true 58 (fun th => (srcReg th 1).map (valOf th)) (fun _ => some ⟨0x3F800000, []⟩) th = some r ∧ NoFlagTrap th false r.2) ∧
    Lanes base grp 7 (fun th => LaneFree grp freeGate th ∧ dstPair th 58 false = true ∧
      ∃ r, foldOf false 58 (fun th => (srcPair th 2).map fun x => valOf th x.1) (fun th => (srcPair th 2).map fun x => valOf th x.2) th = some r ∧
        NoFlagTrap th false r.2) :=
  ⟨base_issues, base_lanes ⟨base_free _ (by decide), by decide, flags_ok (by decide)⟩,
    base_lanes ⟨base_free _ (by decide), by decide, flags_ok (by decide)⟩⟩

/-- The machine with its thread changed. -/
def withThr (s : State) (f : Thread → Thread) : State := { s with threads := s.threads.map fun x => (x.1, f x.2) }

/-- The machine with a translation of the thread's context at hand, and the header of a clause of one word at 0, 0x10404, 0x10800,
0x14000 and 0x20000, here with the clause's word, and of one of an engine program
at 0x30000; the last gigabyte of the address space is mapped too. -/
def mapped : State :=
  { base with
    tlb := [⟨0, 0, 1, 0, 2 ^ 30, 0, true, true, true, 0, false⟩, ⟨0, 0, 1, 2 ^ 57 - 2 ^ 30, 2 ^ 30, 2 ^ 30, true, true, true, 0, false⟩]
    mem := [(3, 0xB1), (0x10407, 0xB1), (0x10803, 0xB1), (0x14003, 0xB1), (0x20003, 0xB1), (0x20004, 7), (0x20007, 0xC0), (0x30002, 0x40), (0x30003, 0xB1)] }

theorem withThr_thread (f : Thread → Thread) : getThread (withThr base f) 0 = some (f thr) := by rfl
theorem mapped_thread (f : Thread → Thread) : getThread (withThr mapped f) 0 = some (f thr) := by rfl

/-- The thread of a machine like `base`, alone in its group, if nothing of it awaits data and it holds no poison. -/
theorem alone_of {s : State} {g : Group} {gate : Gate} {th : Thread} (hg : issuing s = some g) (ha : g.ahead = false) (hm : g.members = [0])
    (ht : getThread s 0 = some th) (hi : interlocked s g = false) (hf : gateFails gate g.core th = false) (hp : poisonedSource th g.word = none) :
    Alone s g gate 7 0 th := ⟨⟨hg, ha, hi⟩, hm, ht, by simp [readPred], hf, hp⟩

/-- At trap level 0. -/
def low (th : Thread) : Thread := { th with level := 0 }
/-- At trap level 2 there is no handler. -/
theorem witness_TrapEntry :
    (∃ l h x, Alone (withThr base low) grp freeGate 7 0 (low thr) ∧ handlerOf (low thr) = some (l, h) ∧ srcReg (low thr) 59 = some x ∧
      (withThr base low).session ≠ some (low thr).lc.asid) ∧
    (∃ x, Alone base grp freeGate 7 0 thr ∧ handlerOf thr = none ∧ srcReg thr 59 = some x) := by
  refine ⟨⟨1, 0x20000, _, alone_of rfl rfl rfl (withThr_thread _) (by decide) (by decide) (by rfl), by decide, rfl, by decide⟩,
    ⟨_, base_alone _ (by decide), by decide, rfl⟩⟩

/-- Every floating-point trap enabled, and register 1 poisoned. -/
def trapping (th : Thread) : Thread := { th with level := 1, fcr := 0xF8 }
/-- Register 4 poisoned. -/
def poisonedReg (th : Thread) : Thread := { th with level := 0, poison := [4] }
/-- The same machine whose group issues `IADD` of registers 4 and 5. -/
def adding (f : Thread → Thread) : State := { withThr base f with opens := [{ grp with code := [0x04810507] }] }

theorem division_invalid : fOf2 1 2 (fun th => dDiv b32 (tanFmt th) (modeOf th) th.lc.tcount) (trapping thr) =
    some (⟨0x7FC00000, List.replicate 8 0⟩, 1) := by decide +kernel

theorem witness_LaneTraps :
    (Issues (withThr base low) grp ∧ handlerOf (low thr) = some (1, 0x20000) ∧
      (∃ f ∈ intForms 1 61 2 3 false 7 false 0 0 0, readPred (low thr) f.pred.toNat = true ∧ f.val (low thr) = none) ∧
      (∃ f ∈ intForms 60 1 2 3 false 7 false 0 0 0, readPred (low thr) f.pred.toNat = true ∧ dstReg (low thr) f.d f.nw = false) ∧
      (low thr).level < 1) ∧
    (Issues (adding poisonedReg) { grp with code := [0x04810507] } ∧ getThread (adding poisonedReg) 0 = some (poisonedReg thr) ∧
      handlerOf (poisonedReg thr) = some (1, 0x20000) ∧ poisonedSource (poisonedReg thr) 0x04810507 = some 4 ∧
      ∃ f ∈ intForms 8 4 5 3 false 7 false 0 0 0, (f.val (poisonedReg thr)).isSome = true ∧ dstReg (poisonedReg thr) f.d f.nw = true) ∧
    (Issues (withThr base trapping) grp ∧ handlerOf (trapping thr) = some (2, 0x30000) ∧
      ∃ f ∈ binary32Forms 8 1 2 3 false 7 false 0, ∃ r, readPred (trapping thr) f.pred.toNat = true ∧ dstReg (trapping thr) f.d f.nw = true ∧
        f.val (trapping thr) = some r ∧ ¬ NoFlagTrap (trapping thr) f.dbl r.2) := by
  refine ⟨⟨⟨rfl, rfl, by decide⟩, by decide, ⟨_, List.mem_cons_self .., by decide, by decide⟩, ⟨_, List.mem_cons_self .., by decide, by decide⟩, by decide⟩,
    ⟨⟨rfl, rfl, by decide⟩, rfl, by decide, by decide, ⟨_, List.mem_cons_self .., by decide, by decide⟩⟩,
    ⟨⟨rfl, rfl, by decide⟩, by decide, ⟨.fdiv 8 1 2 false 7, freeGate, 7, 8, false, false, fOf2 1 2 fun th => dDiv b32 (tanFmt th) (modeOf th) th.lc.tcount⟩,
      ?_, (⟨0x7FC00000, List.replicate 8 0⟩, 1), by decide, by decide, division_invalid, by simp [NoFlagTrap, trapping]⟩⟩
  simp [binary32Forms]

/-- What `HeaderAt` says, as a value. -/
def headerAt (s : State) (core asid : Nat) (addr : DWord) : Bool :=
  decide (addr.toNat % 4 = 0) && decide (addr.toNat < 2 ^ 57) &&
    match (translate s (tlbUnits core) asid addr.toNat .fetch).2 with
    | .ok e => !poisoned s (paOf e addr.toNat) && isTagged (BitVec.ofNat 32 (readNum s (keyOf s asid) (paOf e addr.toNat) 4))
    | _ => false

theorem headerAt_iff {s : State} {core asid : Nat} {addr : DWord} (h : headerAt s core asid addr = true) : HeaderAt s core asid addr := by
  unfold headerAt at h
  simp only [Bool.and_eq_true, decide_eq_true_eq] at h
  refine ⟨h.1.1, h.1.2, ?_⟩
  split at h
  · rename_i e he
    exact ⟨e, he, by simpa using h.2⟩
  · exact absurd h.2 (by simp)

/-- Pair 2 holds 0x20000, register 1 holds 5. -/
def loaded2 (th : Thread) : Thread := { th with regs := [(1, ⟨5, []⟩), (2, ⟨0x20000, []⟩)] }

theorem mapped_alone (gate : Gate) (f : Thread → Thread) (h : gateFails gate 0 (f thr) = false) (hb : interlocked (withThr mapped f) grp = false)
    (hp : poisonedSource (f thr) grp.word = none) : Alone (withThr mapped f) grp gate 7 0 (f thr) := alone_of rfl rfl rfl (mapped_thread f) hb h hp

theorem witness_TransferResults :
    (Alone (withThr mapped loaded2) grp freeGate 7 0 (loaded2 thr) ∧
      (∃ x, srcPair (loaded2 thr) 2 = some x ∧ HeaderAt (withThr mapped loaded2) 0 1 (bitsOf x)) ∧
      HeaderAt (withThr mapped loaded2) 0 1 (wordAddr grp + (0x3FFF : BitVec 26).signExtend 64 * 4) ∧
      (loaded2 thr).slim.toNat + 16 ≤ (loaded2 thr).sp.toNat ∧ (loaded2 thr).sp.toNat ≤ (loaded2 thr).lc.stack) ∧
    (let f := fun th : Thread => { th with sp := 240 }
     let closed : State := { withThr mapped f with opens := [] }
     Alone (withThr mapped f) grp freeGate 7 0 (f thr) ∧ (f thr).sp.toNat + 16 ≤ (f thr).lc.stack ∧
       HeaderAt (readWindow closed 0 240 8).1 0 1 (BitVec.ofNat 64 (ofBytes (readWindow closed 0 240 8).2))) ∧
    (Issues mapped grp ∧ grp.members = [0] ∧ readPred thr (0 : BitVec 3).toNat = false) := by
  refine ⟨⟨mapped_alone _ _ (by decide) (by decide) (by rfl), ⟨_, rfl, headerAt_iff (by decide +kernel)⟩, headerAt_iff (by decide +kernel), by decide, by decide⟩,
    ⟨mapped_alone _ _ (by decide) (by decide) (by rfl), by decide, headerAt_iff (by decide +kernel)⟩, ⟨⟨rfl, rfl, by decide⟩, rfl, by decide⟩⟩

/-- A return: whole, without a frame, from a frame with an error, and to a stack pointer below `SLIM`. -/
theorem witness_TransferResults_return :
    (let f := fun th : Thread => { th with level := 1, sp := 240 }
     let r := readWindow { withThr mapped f with opens := [] } 0 240 8
     Alone (withThr mapped f) grp freeGate 7 0 (f thr) ∧ handlerOf (f thr) = some (2, 0x30000) ∧ windowPoisoned r.1 0 240 = false ∧
       (f thr).slim.toNat ≤ (f thr).sp.toNat + 16) ∧
    (let f := fun th : Thread => { th with level := 1, sp := 256 }
     Alone (withThr mapped f) grp freeGate 7 0 (f thr) ∧ handlerOf (f thr) = some (2, 0x30000) ∧ (f thr).lc.stack < (f thr).sp.toNat + 16) ∧
    (let f := fun th : Thread => { th with level := 1, sp := 240 }
     let s : State := { withThr mapped f with rows := [(0, [⟨0, 240, [], [], 0, rowAsid mapped 0 0, [0]⟩])] }
     Alone s grp freeGate 7 0 (f thr) ∧ windowPoisoned (readWindow { s with opens := [] } 0 240 8).1 0 240 = true) ∧
    (let f := fun th : Thread => { th with level := 1, sp := 224, slim := 256 }
     Alone (withThr mapped f) grp freeGate 7 0 (f thr) ∧ (f thr).sp.toNat + 16 < (f thr).slim.toNat) := by
  refine ⟨⟨mapped_alone _ _ (by decide) (by decide) (by rfl), by decide, by decide +kernel, by decide⟩,
    ⟨mapped_alone _ _ (by decide) (by decide) (by rfl), by decide, by decide⟩,
    ⟨alone_of rfl rfl rfl (by rfl) (by decide) (by decide) (by rfl), by decide +kernel⟩,
    ⟨mapped_alone _ _ (by decide) (by decide) (by rfl), by decide⟩⟩

/-- A call from a stack pointer above `STACK`. -/
theorem witness_TransferResults_beyond :
    let f := fun th : Thread => { loaded2 th with sp := 512 }
    Alone (withThr mapped f) grp freeGate 7 0 (f thr) ∧ (f thr).slim.toNat + 16 ≤ (f thr).sp.toNat ∧ (f thr).lc.stack < (f thr).sp.toNat :=
  ⟨mapped_alone _ _ (by decide) (by decide) (by rfl), by decide, by decide⟩

/-- Two loops are open, both ending at the address 0x20000, and register 1 holds 5. -/
def looping (th : Thread) : Thread := { th with regs := [(1, ⟨5, []⟩)], loops := [⟨0, 0x10000, 0x20000⟩, ⟨7, 0x8000, 0x20000⟩] }

theorem witness_LoopResults :
    let last : DWord := wordAddr grp + 4 + (255 : BitVec 8).setWidth 64 * 4
    Alone (withThr mapped looping) grp freeGate 7 0 (looping thr) ∧ HeaderAt (withThr mapped looping) 0 1 last ∧
      (∀ l ∈ (looping thr).loops, last.toNat ≤ l.stop.toNat) ∧ (srcReg (looping thr) 0).map (·.val) = some 0 ∧
      (srcReg (looping thr) 1).map (·.val) = some 5 ∧ (looping thr).loops.length < 3 ∧ some ((0 : BitVec 12).setWidth 32) = some (0 : Word) :=
  ⟨mapped_alone _ _ (by decide) (by decide) (by rfl), headerAt_iff (by decide +kernel), by decide, by rfl, by rfl, by decide, rfl⟩

/-- Two threads in one group: predicate 0 is true in the first alone. -/
def two : State :=
  { mapped with threads := [(0, { thr with preds := [(0, true)] }), (1, thr)], opens := [{ grp with members := [0, 1] }] }

theorem witness_BranchResults :
    let g : Group := { grp with members := [0, 1] }
    let dest : DWord := wordAddr g + (4095 : BitVec 13).signExtend 64 * 4
    let join : DWord := wordAddr g + (511 : BitVec 9).setWidth 64 * 4
    Issues two g ∧ ¬ ((0 : BitVec 3) = 7 ∧ false = true) ∧ two.deferrals = [] ∧ join ≠ nextAddr g ∧
      HeaderAt two 0 1 dest ∧ HeaderAt two 0 1 join ∧ (readPred thr 0 = false ∧ readPred { thr with preds := [(0, true)] } 0 = true) ∧
      endCheck thr.loops (nextAddr g) = (thr.loops, nextAddr g) :=
  ⟨⟨rfl, rfl, by decide⟩, by decide, rfl, by decide, headerAt_iff (by decide +kernel), headerAt_iff (by decide +kernel), by decide, by decide⟩

/-- The record of the level names an address and a clause. -/
def recorded (pc cla : DWord) (th : Thread) : Thread := { th with rec2 := { TrapRec.zero with cause := 0x10F, pc := pc, cla := cla } }

theorem witness_ReturnResults :
    (∀ x ∈ [((0x20000 : DWord), (0x20000 : DWord)), (0x20004, 0x20000), (0x20008, 0x20000), (0, 0x20000)],
      Alone (withThr mapped (recorded x.1 x.2)) grp ⟨none, 1, 0⟩ 7 0 (recorded x.1 x.2 thr) ∧ (recorded x.1 x.2 thr).level ≤ 2 ∧
        (recordOf (recorded x.1 x.2 thr)).cause.toNat / 256 % 4 ≤ 2) ∧
    (∃ h, (fetchClause (withThr mapped (recorded 0x20004 0x20000)) 0 1 0x20000).2 = .ok 0xB1000000 [0xC0000007] ∧
      legalClause 0xB1000000 [0xC0000007] 0 = some h) ∧
    (0x20004 ≤ 0x20000 + 4 * [(0xC0000007 : Word)].length ∧ 0x20008 = 0x20000 + 4 * ([(0xC0000007 : Word)].length + 1)) ∧
    HeaderAt (withThr mapped (recorded 0 0x20000)) 0 1 0 := by
  refine ⟨fun x hx => ⟨mapped_alone _ _ (by rfl) (by rfl) (by rfl), le_refl 2, ?_⟩, ⟨headerFields 0xB1000000, ?_, by decide⟩, by decide,
    headerAt_iff (by decide +kernel)⟩
  · have : recordOf (recorded x.1 x.2 thr) = { TrapRec.zero with cause := 0x10F, pc := x.1, cla := x.2 } := rfl
    rw [this]; show (0x10F : Word).toNat / 256 % 4 ≤ 2; decide
  · rfl

/-- A thread with no report, or with a program's alone; one with a counter that does not read zero; one whose second report is of a direct
command. -/
theorem witness_EndResults :
    (∀ rs ∈ [([] : List Report), [⟨2, 0x12, 0, none⟩]], let f := fun th : Thread => { th with reports := rs }
      Alone (withThr base f) grp freeGate 7 0 (f thr) ∧ (¬ ∃ k, k < 4 ∧ readDc (f thr) k ≠ 0) ∧ ∀ r ∈ (f thr).reports, ¬ direct r) ∧
    (Alone base grp ⟨none, 2, 0⟩ 7 0 thr ∧ ∃ x, srcReg thr 59 = some x) ∧
    (∃ f : Thread → Thread, Alone (withThr base f) grp freeGate 7 0 (f thr) ∧ (∃ k, k < 4 ∧ readDc (f thr) k ≠ 0)) ∧
    (∃ f : Thread → Thread, Alone (withThr base f) grp freeGate 7 0 (f thr) ∧ (¬ ∃ k, k < 4 ∧ readDc (f thr) k ≠ 0) ∧
      (∃ pre r, (f thr).reports = pre ++ r :: [] ∧ (∀ x ∈ pre, ¬ direct x) ∧ direct r) ∧ handlerOf (f thr) = some (1, 0x20000)) := by
  have none_waits (f : Thread → Thread) (h : ∀ k, k < 4 → readDc (f thr) k = 0) : ¬ ∃ k, k < 4 ∧ readDc (f thr) k ≠ 0 :=
    fun ⟨k, hk, hn⟩ => hn (h k hk)
  refine ⟨fun rs hr => ⟨alone_of rfl rfl rfl (withThr_thread _) (by rfl) (by rfl) (by rfl), none_waits (fun th => { th with reports := rs }) (fun k _ => by rfl), ?_⟩,
    ⟨base_alone _ (by decide), _, rfl⟩,
    ⟨fun th => { th with dc := [(3, 1)] }, alone_of rfl rfl rfl (withThr_thread _) (by decide) (by decide) (by rfl), 3, by decide, by decide⟩,
    ⟨fun th => { th with level := 0, reports := [⟨4, 0x12, 0, none⟩, ⟨3, 0x12, 0, none⟩] },
      alone_of rfl rfl rfl (withThr_thread _) (by decide) (by decide) (by rfl), none_waits (fun th => { th with level := 0, reports := [⟨4, 0x12, 0, none⟩, ⟨3, 0x12, 0, none⟩] }) (fun k _ => by rfl),
      ⟨[⟨4, 0x12, 0, none⟩], ⟨3, 0x12, 0, none⟩, rfl, by simp [direct], .inr rfl⟩, by decide⟩⟩
  show ∀ r ∈ rs, ¬ direct r
  rcases List.mem_cons.mp hr with rfl | hr
  · simp
  · obtain rfl := List.mem_singleton.mp hr; simp [direct]

/-- No lane of a crew without a joined lane, and one lane that has joined. -/
theorem witness_EndResults_crews :
    (∀ l th, l < 64 → getThread base (0 * 64 + l) = some th → th.wait.map (·.kind) ≠ some joinedKind) ∧
    (let s : State := { withThr base (fun th => { th with wait := some ⟨joinedKind, 0, 0⟩ }) with
        opens := [], parked := [{ grp with code := [encA 44 8 0 1 8 false 7] }] }
     crewInstances s (0 * 16 + 0) = [(⟨8, 8, 0, 1, false⟩, thr.pc, thr.level)]) := by
  refine ⟨fun l th hl h => ?_, by rfl⟩
  rcases Nat.eq_zero_or_pos l with rfl | hp
  · obtain rfl : thr = th := by simpa [base_thread] using h
    decide
  · have : getThread base (0 * 64 + l) = none := by
      clear h; revert l; decide
    rw [this] at h; cases h

theorem witness_DebugBreak : ∃ s, s = { base with session := some 1 } ∧ Alone s grp freeGate 7 0 thr ∧ s.session = some thr.lc.asid :=
  ⟨_, rfl, alone_of rfl rfl rfl base_thread (by decide) (by decide) (by rfl), rfl⟩

/-- Pair 2 holds 0x20000 and pair 4 the last 8 bytes of the address space, register 6 an offset in the scratchpad and pair 8 its address,
register 10 an offset in the private window and pair 12 its address; two counters are one below their limit. -/
def addressing (th : Thread) : Thread :=
  { th with
    regs := [(2, ⟨0x20000, []⟩), (4, ⟨0xFFFFFFF8, []⟩), (5, ⟨0x01FFFFFF, []⟩), (6, ⟨32640, []⟩), (8, ⟨32640, []⟩), (9, ⟨0x80000000, []⟩),
      (10, ⟨0x80000000, []⟩), (12, ⟨0x80000000, []⟩), (13, ⟨0x80000000, []⟩)]
    dc := [(2, 62), (3, 62)] }

/-- What the statements about global accesses ask of an address, as a value. -/
def placeOk (s : State) (th : Thread) (f : MemForm) (p : Perm) : Bool :=
  match f.addr th with
  | none => false
  | some x => decide (x.toNat % f.size = 0) && decide (x.toNat + span (pieces th f) ≤ 2 ^ 57) &&
    match xlatElems s 0 th.lc.asid x.toNat p (pieces th f) with
    | (s1, .ok pas) => pas.all fun e => !poisoned s1 e.1
    | _ => false

theorem placeOk_iff {s : State} {th : Thread} {f : MemForm} {p : Perm} (h : placeOk s th f p = true) :
    ∃ x s1 pas, f.addr th = some x ∧ GlobalAt x f.size (span (pieces th f)) ∧ xlatElems s 0 th.lc.asid x.toNat p (pieces th f) = (s1, .ok pas) ∧
      ∀ e ∈ pas, poisoned s1 e.1 = false := by
  unfold placeOk at h
  split at h
  · exact absurd h (by simp)
  · rename_i x hx
    simp only [Bool.and_eq_true, decide_eq_true_eq] at h
    obtain ⟨h1, h2⟩ := h
    split at h2
    · rename_i s1 pas he
      exact ⟨x, s1, pas, hx, h1, he, by simpa using h2⟩
    · exact absurd h2 (by simp)

theorem witness_GlobalAccessResults :
    let s := withThr mapped addressing
    let th := addressing thr
    Alone s grp freeGate (shortPred false) 0 th ∧ th.cocoon = none ∧ readDc th (2 : BitVec 2).toNat < 63 ∧
    (∀ f ∈ loadForms 58 2 0 3 2 false true, f.loc = false → (if f.size = 8 then dstPair th 58 false else dstReg th 58 false) = true ∧
      ∃ x s1 pas, f.addr th = some x ∧ GlobalAt x f.size (span (pieces th f)) ∧ xlatElems s 0 th.lc.asid x.toNat .read (pieces th f) = (s1, .ok pas) ∧
        ∀ e ∈ pas, poisoned s1 e.1 = false) ∧
    (∀ f ∈ storeForms 2 2 0 3 2 false true, f.loc = false → (stored th 2 f).isSome = true ∧
      ∃ x s1 pas, f.addr th = some x ∧ GlobalAt x f.size (span (pieces th f)) ∧ xlatElems s 0 th.lc.asid x.toNat .write (pieces th f) = (s1, .ok pas) ∧
        ∀ e ∈ pas, poisoned s1 e.1 = false) ∧
    (∃ f ∈ loadForms 58 4 0 3 2 false true, f.addr th = some 0x1FFFFFFFFFFFFF8 ∧
      ∃ x s1 pas, f.addr th = some x ∧ GlobalAt x f.size (span (pieces th f)) ∧ xlatElems s 0 th.lc.asid x.toNat .read (pieces th f) = (s1, .ok pas) ∧
        ∀ e ∈ pas, poisoned s1 e.1 = false) := by
  refine ⟨mapped_alone _ _ (by decide) (by decide) (by rfl), rfl, by decide, fun f hf h => ?_, fun f hf h => ?_,
    ⟨_, List.mem_cons_self .., by rfl, placeOk_iff (by decide +kernel)⟩⟩
  · have : f.loc = false → (if f.size = 8 then dstPair (addressing thr) 58 false else dstReg (addressing thr) 58 false) = true ∧
        placeOk (withThr mapped addressing) (addressing thr) f .read = true := by revert f; decide +kernel
    exact ⟨(this h).1, placeOk_iff (this h).2⟩
  · have : f.loc = false → (stored (addressing thr) 2 f).isSome = true ∧ placeOk (withThr mapped addressing) (addressing thr) f .write = true := by
      revert f; decide +kernel
    exact ⟨(this h).1, placeOk_iff (this h).2⟩

/-- The machine whose cohort has 32,768 bytes of scratchpad. -/
def withPad (f : Thread → Thread) : State := { withThr mapped f with cohorts := base.cohorts.map fun c => (c.1, { c.2 with units := 1 }) }
theorem withPad_thread (f : Thread → Thread) : getThread (withPad f) 0 = some (f thr) := by rfl
/-- Its cohort. -/
def padCohort : Cohort := ⟨2, 0, 0, [0], 1, [], [], [], 0, none, none, [], [], [], [], [], 0, 0, 0, 1⟩

/-- An access's place in local memory, as a value: within lo and hi. -/
def localIn (th : Thread) (f : MemForm) (lo hi : Nat) : Bool :=
  match f.addr th with
  | none => false
  | some x => decide (x.toNat % f.size = 0) && match localOff f x with
    | some off => decide (lo ≤ off ∧ off + span (pieces th f) ≤ hi)
    | none => false

theorem localIn_iff {th : Thread} {f : MemForm} {lo hi : Nat} (h : localIn th f lo hi = true) :
    ∃ x off, f.addr th = some x ∧ x.toNat % f.size = 0 ∧ localOff f x = some off ∧ lo ≤ off ∧ off + span (pieces th f) ≤ hi := by
  unfold localIn at h
  split at h
  · exact absurd h (by simp)
  · rename_i x hx
    simp only [Bool.and_eq_true, decide_eq_true_eq] at h
    obtain ⟨h1, h2⟩ := h
    split at h2
    · rename_i off he
      exact ⟨x, off, hx, h1, he, by simpa using h2⟩
    · exact absurd h2 (by simp)

/-- Each form that names registers of the thread: its first pair is pair 8 or 12, its local register 6 or 10. -/
def localLoads (pad : Bool) : List MemForm :=
  ((loadForms 58 (if pad then 8 else 12) 0 3 2 false true).filter fun f => !f.loc).take 2 ++
    (loadForms 58 (if pad then 6 else 10) (if pad then 15 else 31) 3 2 false true).filter fun f => f.loc
/-- See `localLoads`. -/
def localStores (pad : Bool) : List MemForm :=
  ((storeForms 2 (if pad then 8 else 12) 0 3 2 false true).filter fun f => !f.loc) ++
    (storeForms 2 (if pad then 6 else 10) (if pad then 15 else 31) 3 2 false true).filter fun f => f.loc

theorem witness_LocalAccessResults :
    let s := withPad addressing
    let th := addressing thr
    Alone s grp freeGate (shortPred false) 0 th ∧ readDc th (2 : BitVec 2).toNat < 63 ∧
    (getK s.cohorts th.lc.cohort = some padCohort ∧ padCohort.regions = [] ∧ memWf padCohort.scratch = true ∧ s.poison = [] ∧
      (∀ n ∈ s.nodes, n.2.det = false)) ∧
    (∀ f ∈ localLoads true, (if f.size = 8 then dstPair th 58 false else dstReg th 58 false) = true ∧
      ∃ x off, f.addr th = some x ∧ x.toNat % f.size = 0 ∧ localOff f x = some off ∧ 0 ≤ off ∧ off + span (pieces th f) ≤ padCohort.units * 32768) ∧
    (∀ f ∈ localStores true, (stored th 2 f).isSome = true ∧
      ∃ x off, f.addr th = some x ∧ x.toNat % f.size = 0 ∧ localOff f x = some off ∧ 0 ≤ off ∧ off + span (pieces th f) ≤ padCohort.units * 32768) ∧
    (∀ f ∈ localLoads false, (if f.size = 8 then dstPair th 58 false else dstReg th 58 false) = true ∧
      ∃ x off, f.addr th = some x ∧ x.toNat % f.size = 0 ∧ localOff f x = some off ∧ 2 ^ 31 ≤ off ∧ off + span (pieces th f) ≤ 2 ^ 31 + th.lc.stack) ∧
    (∀ f ∈ localStores false, (stored th 2 f).isSome = true ∧
      ∃ x off, f.addr th = some x ∧ x.toNat % f.size = 0 ∧ localOff f x = some off ∧ 2 ^ 31 ≤ off ∧ off + span (pieces th f) ≤ 2 ^ 31 + th.lc.stack) := by
  refine ⟨alone_of rfl rfl rfl (withPad_thread _) (by decide) (by decide) (by rfl), by decide,
    ⟨by rfl, rfl, by decide, rfl, by decide⟩, fun f hf => ?_, fun f hf => ?_, fun f hf => ?_, fun f hf => ?_⟩
  · have : (if f.size = 8 then dstPair (addressing thr) 58 false else dstReg (addressing thr) 58 false) = true ∧
        localIn (addressing thr) f 0 32768 = true := by revert f; decide +kernel
    exact ⟨this.1, localIn_iff this.2⟩
  · have : (stored (addressing thr) 2 f).isSome = true ∧ localIn (addressing thr) f 0 32768 = true := by revert f; decide +kernel
    exact ⟨this.1, localIn_iff this.2⟩
  · have : (if f.size = 8 then dstPair (addressing thr) 58 false else dstReg (addressing thr) 58 false) = true ∧
        localIn (addressing thr) f (2 ^ 31) (2 ^ 31 + (addressing thr).lc.stack) = true := by revert f; decide +kernel
    exact ⟨this.1, localIn_iff this.2⟩
  · have : (stored (addressing thr) 2 f).isSome = true ∧ localIn (addressing thr) f (2 ^ 31) (2 ^ 31 + (addressing thr).lc.stack) = true := by
      revert f; decide +kernel
    exact ⟨this.1, localIn_iff this.2⟩

/-- Whether no error lies in the window's bytes of an access, as a value. -/
def windowFree (s : State) (th : Thread) (f : MemForm) : Bool :=
  match (f.addr th).bind (localOff f) with
  | none => false
  | some off =>
    let r := (pieces th f).foldl (fun (r : State × List (List Byte)) e =>
      let w := readWindow r.1 0 (off - 2 ^ 31 + e.1) e.2
      (w.1, r.2 ++ [w.2])) (s, [])
    (pieces th f).all fun e => !windowPoisoned r.1 0 (off - 2 ^ 31 + e.1)

theorem witness_LocalAccessResults_window : ∀ f ∈ localLoads false, windowFree (withPad addressing) (addressing thr) f = true := by
  decide +kernel

/-- In a deterministic node. -/
def deterministic (th : Thread) : Thread := { addressing th with lc := { th.lc with det := true } }

theorem witness_AtomicResults :
    ∀ f ∈ [addressing, deterministic],
      let s := withThr mapped f
      let th := f thr
      Alone s grp freeGate (shortPred false) 0 th ∧ th.cocoon = none ∧ readDc th 3 < 63 ∧ memWf s.mem = true ∧ Unsampled s 0 th ∧
      (∀ fn ∈ [(0 : BitVec 4), 13], fn.toNat ≤ 13 ∧ (atomArgs th fn.toNat 12).isSome = true ∧
        (if (if 11 ≤ fn.toNat then 8 else 4) = 8 then dstPair th 58 false else dstReg th 58 false) = true) ∧
      (∀ sc ∈ [(0 : BitVec 3), 5], sc.toNat ≤ 5) ∧
      ∃ addr s1 pa c, (srcPair th 2).map bitsOf = some addr ∧ GlobalAt addr 8 8 ∧ xlatElems s 0 th.lc.asid addr.toNat .atomic [(0, 8)] = (s1, .ok [(pa, c)]) ∧
        poisoned s1 pa = false := by
  intro f hf
  have h : f = addressing ∨ f = deterministic := by simpa using hf
  rcases h with rfl | rfl <;>
  exact ⟨mapped_alone _ _ (by decide) (by decide) (by rfl), rfl, by decide, by decide, ⟨rfl, .inl rfl⟩, by decide, by decide,
    0x20000, (xlatElems (withThr mapped _) 0 1 0x20000 .atomic [(0, 8)]).1, 0x20000, 0, by rfl, ⟨by decide, by decide⟩, by rfl, by decide⟩

theorem witness_LocalAtomicResults :
    ∀ f ∈ [addressing, deterministic],
      let s := withPad f
      let th := f thr
      Alone s grp freeGate (shortPred false) 0 th ∧ readDc th 3 < 63 ∧
      (getK s.cohorts th.lc.cohort = some padCohort ∧ padCohort.regions = [] ∧ memWf padCohort.scratch = true ∧ s.poison = []) ∧
      (∀ fn ∈ [(0 : BitVec 4), 13], fn.toNat ≤ 13 ∧ (atomArgs th fn.toNat 12).isSome = true ∧
        (if (if 11 ≤ fn.toNat then 8 else 4) = 8 then dstPair th 58 false else dstReg th 58 false) = true) ∧
      (∀ a ∈ [((8 : BitVec 6), 32640), (12, 2 ^ 31)], ∃ addr : DWord, (srcPair th a.1).map bitsOf = some addr ∧ addr.toNat % 8 = 0 ∧
        addr.toNat / 2 ^ 32 = 2 ^ 31 ∧ addr.toNat % 2 ^ 32 = a.2) ∧
      32640 + 8 ≤ padCohort.units * 32768 ∧ 8 ≤ th.lc.stack ∧ windowPoisoned (readWindow s 0 0 8).1 0 0 = false := by
  intro f hf
  have h : f = addressing ∨ f = deterministic := by simpa using hf
  rcases h with rfl | rfl <;>
  · refine ⟨alone_of rfl rfl rfl (withPad_thread _) (by decide) (by decide) (by rfl), by decide, ⟨by rfl, rfl, by decide, rfl⟩, by decide, fun a ha => ?_, by decide, by decide, by decide +kernel⟩
    have h : a = (8, 32640) ∨ a = (12, 2 ^ 31) := by simpa using ha
    rcases h with rfl | rfl <;> exact ⟨_, rfl, by decide +kernel, by decide +kernel, by decide +kernel⟩

theorem witness_PrefetchAndZeroConstants :
    (Alone (withThr mapped addressing) grp freeGate (shortPred false) 0 (addressing thr) ∧ (∃ x, pairAt 2 0 8 (addressing thr) = some x)) ∧
    (let f := fun th : Thread => { addressing th with lc := { th.lc with constBase := 0 } }
     Alone (withThr mapped f) grp freeGate (shortPred false) 0 (f thr) ∧ (∃ x, localAt 6 0 8 (f thr) = some x) ∧ (f thr).lc.constBase = 0 ∧
       dstPair (f thr) 58 false = true ∧ readDc (f thr) (2 : BitVec 2).toNat < 63) :=
  ⟨⟨mapped_alone _ _ (by decide) (by decide) (by rfl), _, rfl⟩, mapped_alone _ _ (by decide) (by decide) (by rfl), ⟨_, rfl⟩, rfl, by decide, by decide⟩

/-- A store of thread 0 in flight. -/
def flight : Access := ⟨9, .store, 0, 0, 2, [], [(0x40000, [1])], 0x40000, 0, 0, false, 0, 0, 0, false, [], 0⟩
/-- A copy command of thread 0 in its queue, of batch 0. -/
def queued : QEntry := ⟨5, 0xE4310633, 0x10004, 0, 1, [⟨0, 0, [0, 0], [0, 0], 0⟩], 0, false, false, 0, [], []⟩

theorem base_access : base.access = [] := by rfl

theorem witness_SyncResults :
    -- FENCE: what it waits for is over, at each scope, or is not
    (Alone base grp freeGate 7 0 thr ∧ (∀ sc ∈ [(0 : BitVec 3), 2, 5, 7], sc ≠ 6 ∧ FenceMet base 0 thr sc.toNat) ∧ base.fusedClusters.contains 0 = false ∧
      dstReg thr 59 false = true) ∧
    (∃ s, s = { base with access := [flight] } ∧ Alone s grp freeGate 7 0 thr ∧ ¬ FenceMet s 0 thr 0 ∧ ¬ FenceMet s 0 thr 4 ∧ thr.triggered = false) ∧
    -- WATCH
    (∃ x s1 e, Alone (withThr mapped loaded2) grp freeGate 7 0 (loaded2 thr) ∧ srcPair (loaded2 thr) 2 = some x ∧ (bitsOf x).toNat < 2 ^ 57 ∧
      translate (withThr mapped loaded2) (tlbUnits 0) 1 (bitsOf x).toNat .read = (s1, .ok e) ∧ poisoned s1 (paOf e (bitsOf x).toNat) = false) ∧
    -- WAITM
    (∀ w ∈ [none, some (1, true), some (1, false)], let f := fun th : Thread => { th with watch := w }
      Alone (withThr base f) grp freeGate 7 0 (f thr) ∧ (∃ x, srcReg (f thr) 1 = some x) ∧ dstReg (f thr) 59 false = true ∧ (f thr).watch = w) ∧
    -- WAITB: a batch pending, or none
    (∃ s, s = { base with queues := [(0, [queued])] } ∧ Alone s grp freeGate 7 0 thr ∧ ∃ x, srcReg thr 1 = some x ∧
      ∃ e ∈ getQueue s 0 0, ∃ o ∈ lanesLeft e, o.thread = 0 ∧ (x.val - BitVec.ofNat 32 o.batch).toNat < 2 ^ 31) ∧
    (∃ x, srcReg thr 1 = some x ∧ (¬ ∃ e ∈ getQueue base 0 0, ∃ o ∈ lanesLeft e, o.thread = 0 ∧ (x.val - BitVec.ofNat 32 o.batch).toNat < 2 ^ 31) ∧
      ∀ r ∈ thr.reports, r.point ≠ 0 → ¬ (x.val - BitVec.ofNat 32 ((r.point - 1) / 2)).toNat < 2 ^ 31) ∧
    -- TRIG
    (let f := fun th : Thread => { th with triggered := true }
     Alone (withThr base f) grp freeGate 7 0 (f thr) ∧ (f thr).triggered = true) ∧ FenceMet base 0 thr 4 := by
  have met : ∀ n, FenceMet base 0 thr n := fun n => Or.inr ⟨by rw [base_access]; simp, Or.inr (by decide)⟩
  refine ⟨⟨base_alone _ (by decide), fun sc h => ⟨by revert sc; decide, met _⟩, by rfl, by decide⟩,
    ⟨_, rfl, alone_of rfl rfl rfl base_thread (by decide) (by decide) (by rfl), ?_, ?_, by rfl⟩,
    ⟨_, (translate (withThr mapped loaded2) (tlbUnits 0) 1 0x20000 .read).1, ⟨0, 0, 1, 0, 2 ^ 30, 0, true, true, true, 0, false⟩,
      mapped_alone _ _ (by decide) (by decide) (by rfl), rfl, by decide, by rfl, by decide +kernel⟩,
    fun w hw => ⟨alone_of rfl rfl rfl (withThr_thread _) (by rfl) (by rfl) (by rfl), ⟨_, rfl⟩, by rfl, rfl⟩,
    ⟨_, rfl, alone_of rfl rfl rfl base_thread (by decide) (by decide) (by rfl), _, rfl, queued, by decide, _, List.mem_cons_self .., rfl, by decide⟩,
    ⟨_, rfl, ?_, by intro r hr; exact absurd hr (by simp [thr, launchThread])⟩,
    ⟨alone_of rfl rfl rfl (withThr_thread _) (by decide) (by decide) (by rfl), rfl⟩, met 4⟩
  · rintro (h | h)
    · exact absurd h (by decide)
    · exact h.1 flight (by simp) rfl
  · rintro (h | h)
    · exact absurd h (by decide)
    · exact h.1 flight (by simp) rfl
  · rintro ⟨e, he, _⟩; have : getQueue base 0 0 = [] := by rfl
    rw [this] at he; exact absurd he (by simp)

/-- The cohort of `base`. -/
def cohort1 : Cohort := ⟨2, 0, 0, [0], 0, [], [], [], 0, none, none, [], [], [], [], [], 0, 0, 0, 1⟩
/-- It with thread 0 arrived at barrier 15. -/
def arrived : Cohort := { cohort1 with barriers := [(15, ⟨0, [(0, 0)], [(0, 0)]⟩)] }
/-- A second thread of its cohort, which has not arrived. -/
def withMate (s : State) : State := { s with threads := s.threads ++ [(1, thr)] }

theorem only_thread {v : Nat} {x : Thread} (h : getThread base v = some x) : v = 0 ∧ x = thr := by
  have e : base.threads = [(0, thr)] := by rfl
  unfold getThread at h
  rw [e] at h
  simp only [getK] at h
  split at h
  · rename_i hv; exact ⟨hv.symm, by simpa using h.symm⟩
  · exact absurd h (by simp)

theorem base_node : ∃ n, getK base.nodes 2 = some n ∧ n.det = false ∧ n.grid = (1, 1, 1) ∧ n.nextUnit = 1 ∧ base.cohorts = [(1, cohort1)] := ⟨_, by rfl, by rfl, by rfl, by rfl, by rfl⟩

theorem base_met (n : Nat) : FenceMet base 0 thr n := Or.inr ⟨by rw [base_access]; simp, Or.inr (by decide)⟩

theorem witness_BarrierResults :
    (Alone base grp freeGate 7 0 thr ∧ thr.over = false ∧ getK base.cohorts thr.lc.cohort = some cohort1 ∧
      (∀ n, getK base.nodes cohort1.node = some n → n.det = false) ∧ (15 : BitVec 6).toNat < 16 ∧
      (¬ ∃ x ∈ (getBarrier cohort1 15).arrivals, x.1 = 0) ∧ (5 : BitVec 3).toNat ≤ 5 ∧ barrierScope base 1 ≤ (0 : BitVec 3).toNat ∧
      FenceMet base 0 thr 0 ∧ LastOf base 1 0 (getBarrier cohort1 15)) ∧
    (∃ s, s = { base with cohorts := [(1, arrived)] } ∧ Alone s grp freeGate 7 0 thr ∧ getK s.cohorts 1 = some arrived ∧
      ∃ x ∈ (getBarrier arrived 15).arrivals, x.1 = 0) ∧
    (Alone (withMate base) grp freeGate 7 0 thr ∧ barrierScope (withMate base) 1 ≤ 0 ∧ FenceMet (withMate base) 0 thr 0 ∧
      ¬ LastOf (withMate base) 1 0 (getBarrier cohort1 15)) := by
  obtain ⟨n, hn, hd, -⟩ := base_node
  refine ⟨⟨base_alone _ (by decide), by decide, by rfl, ?_, by decide, by decide, by decide, by decide, base_met 0, ?_⟩,
    ⟨_, rfl, alone_of rfl rfl rfl base_thread (by decide) (by decide) (by rfl), by rfl, by decide⟩,
    ⟨alone_of rfl rfl rfl (by rfl) (by decide) (by decide) (by rfl), by decide, base_met 0, ?_⟩⟩
  · intro m hm; rw [show cohort1.node = 2 from rfl, hn] at hm; obtain rfl : n = m := by simpa using hm
    exact hd
  · intro v x h _ _; exact Or.inl (only_thread h).1
  · intro h
    have := h 1 thr (by rfl) (by rfl) (by decide)
    revert this; decide

theorem witness_FlushdResults :
    (∃ n, Alone base grp freeGate 7 0 thr ∧ thr.over = false ∧ getK base.nodes thr.lc.node = some n ∧ n.det = false ∧ FenceMet base 0 thr 3 ∧
      n.grid.1 * n.grid.2.1 * n.grid.2.2 ≤ n.nextUnit ∧ (∀ v x, v ≠ 0 → getThread base v = some x → x.lc.node = 2 → InFlush x) ∧
      ∀ c ∈ base.cohorts, c.2.node = 2 → ∀ v ∈ c.2.saved, InFlush v.thread) ∧
    (∃ s, s = { base with access := [flight] } ∧ Alone s grp freeGate 7 0 thr ∧ ¬ FenceMet s 0 thr 3) ∧
    (Alone (withMate base) grp freeGate 7 0 thr ∧ FenceMet (withMate base) 0 thr 3 ∧ ¬ ∀ v x, v ≠ 0 → getThread (withMate base) v = some x → x.lc.node = 2 → InFlush x) := by
  obtain ⟨n, hn, hd, hg, hu, hc⟩ := base_node
  refine ⟨⟨n, base_alone _ (by decide), by decide, hn, hd, base_met 3, by rw [hg, hu]; decide, fun v x hv h _ => absurd (only_thread h).1 hv, ?_⟩,
    ⟨_, rfl, alone_of rfl rfl rfl base_thread (by decide) (by decide) (by rfl), ?_⟩,
    ⟨alone_of rfl rfl rfl (by rfl) (by decide) (by decide) (by rfl), base_met 3, ?_⟩⟩
  · rw [hc]; intro c h; obtain rfl : c = (1, cohort1) := by simpa using h
    intro _ v hv; exact absurd hv (by simp [cohort1])
  · rintro (h | h)
    · exact absurd h (by decide)
    · exact h.1 flight (by simp) rfl
  · intro h
    rcases h 1 thr (by decide) (by rfl) (by rfl) with h | ⟨w, h, _⟩
    · exact absurd h (by decide)
    · exact absurd h (by simp [thr, launchThread])

/-- A machine about to issue a word of the splat unit, on a core that has one. -/
def baseS : State := issueReady State.reset 0xE831000B
/-- Its group. -/
def grpS : Group := { grp with core := 28, members := [28672], code := [0xE831000B] }
theorem baseS_alone : Alone baseS grpS ⟨some 3, 0, 2⟩ 7 28672 thr := ⟨⟨rfl, rfl, by decide⟩, rfl, by rfl, by rfl, by decide, by decide⟩

theorem witness_CommandResults :
    (∀ f ∈ copyForms 8 8 8 1 true ++ matrixForms 8 8 8 1 true ++ (unitForms 8 8 8 1 true).drop 6 ++ nodeForms 8 8 8 1 true,
      Alone base grp f.gate 7 0 thr ∧ (encode f.instr).isSome = true ∧ destLegal thr f.d 8 = true ∧ (readField thr f.a 8).isSome = true ∧
        (readField thr f.b 8).isSome = true ∧ (getQueue base 0 f.cls).length < 16 ∧ readDc thr 3 < 63 ∧ holderOf base 0 f.cls = none) ∧
    (∀ f ∈ (unitForms 8 8 8 1 true).take 6,
      Alone baseS grpS f.gate 7 28672 thr ∧ (encode f.instr).isSome = true ∧ destLegal thr f.d 8 = true ∧ (readField thr f.a 8).isSome = true ∧
        (readField thr f.b 8).isSome = true ∧ (getQueue baseS 28 f.cls).length < 16 ∧ holderOf baseS 28 f.cls = none) ∧
    (∃ s, s = { base with queues := [(0, List.replicate 16 queued)], girders := [(0, { Girder.free with owner := some 7 })] } ∧
      Alone s grp freeGate 7 0 thr ∧ 16 ≤ (getQueue s 0 0).length ∧ (∃ c, holderOf s 0 1 = some c ∧ c ≠ crewCohort s 0)) := by
  refine ⟨fun f hf => ?_, fun f hf => ?_, ⟨_, rfl, alone_of rfl rfl rfl base_thread (by decide) (by decide) (by rfl), by decide, 7, by rfl, by decide⟩⟩
  · have : gateFails f.gate 0 thr = false ∧ (encode f.instr).isSome = true ∧ destLegal thr f.d 8 = true ∧ (readField thr f.a 8).isSome = true ∧
        (readField thr f.b 8).isSome = true ∧ (getQueue base 0 f.cls).length < 16 ∧ readDc thr 3 < 63 ∧ holderOf base 0 f.cls = none := by
      revert f; decide
    exact ⟨base_alone _ this.1, this.2⟩
  · have : f.gate = ⟨some 3, 0, 2⟩ ∧ (encode f.instr).isSome = true ∧ destLegal thr f.d 8 = true ∧ (readField thr f.a 8).isSome = true ∧
        (readField thr f.b 8).isSome = true ∧ (getQueue baseS 28 f.cls).length < 16 ∧ holderOf baseS 28 f.cls = none := by
      revert f; decide
    exact ⟨by rw [this.1]; exact baseS_alone, this.2⟩

/-- Pair 4 holds the address of a clause of an engine program. -/
def forking (th : Thread) : Thread := { th with regs := [(4, ⟨0x30000, []⟩)] }
/-- The machine's crew. -/
def crew1 : Crew := ⟨1, 0, 1, [0, 0, 0, 0, 0, 0, 0], [], []⟩
/-- A program of class 2 at a point of `RDVZ`. -/
def prog (w : Option (Nat × Bool)) : Prog := ⟨2, 0, [], 0x10004, 0x10000, some { headerFields 0xB1400000 with count := 1 }, [0xFC00004F], 0, [], w, 0, 0⟩

theorem witness_CrewResults :
    (Issues base grp ∧ Lanes base grp 7 (LaneFree grp freeGate) ∧ (∀ d ∈ [(1 : BitVec 6), 7], 1 ≤ d.toNat ∧ d.toNat ≤ 7) ∧ (7 : BitVec 6).toNat ≤ 7) ∧
    (Lanes base grp 7 (fun th => LaneFree grp ⟨none, 0, 1⟩ th ∧ (srcReg th 59).isSome = true) ∧ ∃ u th, ActiveIn base grp 7 u th) ∧
    (let s := withThr mapped forking
     ∃ x y, Alone s grp freeGate 7 0 (forking thr) ∧ srcPair (forking thr) 4 = some x ∧ srcPair (forking thr) 2 = some y ∧ getK s.crews 0 = some crew1 ∧
       ProgramAt s 0 1 (bitsOf x) 2 ∧ (∀ q ∈ crew1.progs, q.cls ≠ 2) ∧ runningPrograms s 0 2 < 4) ∧
    (∃ s, s = { withThr mapped forking with crews := (0, crew1) :: (List.range 4).map fun k => (k + 1, { crew1 with progs := [prog none] }) } ∧
      Alone s grp freeGate 7 0 (forking thr) ∧ 4 ≤ runningPrograms s 0 2) := by
  refine ⟨⟨base_issues, base_lanes (base_free _ (by decide)), by decide, by decide⟩,
    ⟨base_lanes ⟨base_free _ (by decide), by decide⟩, 0, thr, List.mem_cons_self .., base_thread, by rfl⟩,
    ⟨_, _, mapped_alone _ _ (by decide) (by decide) (by rfl), rfl, rfl, by rfl,
      ⟨by decide, by decide, Or.inr rfl, ⟨0, 0, 1, 0, 2 ^ 30, 0, true, true, true, 0, false⟩, headerFields 0xB1400000, by rfl, by decide +kernel, by decide +kernel, by decide⟩,
      by decide, by decide⟩,
    ⟨_, rfl, alone_of rfl rfl rfl (by rfl) (by decide) (by decide) (by rfl), by decide⟩⟩

/-- Pair 2 names every lane, and register 8 is a control word of 63. -/
def meeting (th : Thread) : Thread := { th with regs := [(2, ⟨0xFFFFFFFF, []⟩), (3, ⟨0xFFFFFFFF, []⟩), (8, ⟨63, []⟩)] }

theorem only_of {s : State} {x : Thread} (e : s.threads = [(0, x)]) {v : Nat} {y : Thread} (h : getThread s v = some y) : v = 0 ∧ y = x := by
  unfold getThread at h
  rw [e] at h
  simp only [getK] at h
  split at h
  · rename_i hv; exact ⟨hv.symm, by simpa using h.symm⟩
  · exact absurd h (by simp)

theorem meets_one {s : State} {x : Thread} {mask : Thread → Option DWord} {m : DWord} (e : s.threads = [(0, x)]) (hi : Issues s grp) (hm : mask x = some m) :
    MeetsAt s grp 0 mask m where
  issues := hi
  nonempty := by decide
  crew := by decide
  level := ⟨x.level, fun u _ th h => by rw [(only_of e h).2]⟩
  alone := fun v y w h _ hv => absurd (by rw [(only_of e h).1]; exact List.mem_cons_self ..) hv
  mask := fun u _ th h => by rw [(only_of e h).2]; exact hm
  named := fun l _ _ => by
    by_cases hl : l = 0
    · exact Or.inl (by rw [hl]; exact List.mem_cons_self ..)
    · exact Or.inr fun th h => absurd (only_of e h).1 (by omega)

theorem witness_ExchangeResults :
    MeetsAt (withThr base meeting) grp 0 (fun th => (srcPair th 2).map bitsOf) (BitVec.allOnes 64) ∧
    Lanes (withThr base meeting) grp 7 (fun th => LaneFree grp freeGate th ∧ (srcReg th 1).isSome = true ∧ dstReg th 8 false = true ∧
      (control 8 th % 64 ≠ 0 ∧ control 8 th / 64 % 4 ≤ 1)) :=
  ⟨meets_one (x := meeting thr) (by rfl) ⟨rfl, rfl, by decide⟩ (by rfl),
    lanes_one rfl (withThr_thread _) ⟨⟨by decide, by rfl⟩, by decide, by decide, by decide, by decide⟩⟩

theorem witness_VoteResults :
    MeetsAt (withThr base meeting) grp 0 (fun th => (srcPair th 2).map bitsOf) (BitVec.allOnes 64) ∧
    Lanes (withThr base meeting) grp 7 (fun th => LaneFree grp freeGate th ∧ dstPred 6 false = true ∧ (7 : BitVec 6).toNat ≤ 7) ∧
    Lanes (withThr base meeting) grp 7 (fun th => LaneFree grp freeGate th ∧ dstPair th 58 false = true ∧ (7 : BitVec 6).toNat ≤ 7) ∧
    Lanes (withThr base meeting) grp 7 (fun th => LaneFree grp freeGate th ∧ dstPair th 58 false = true ∧ (srcReg th 1).isSome = true) :=
  ⟨meets_one (x := meeting thr) (by rfl) ⟨rfl, rfl, by decide⟩ (by rfl),
    lanes_one rfl (withThr_thread _) ⟨⟨by decide, by rfl⟩, by decide, by decide⟩, lanes_one rfl (withThr_thread _) ⟨⟨by decide, by rfl⟩, by decide, by decide⟩,
    lanes_one rfl (withThr_thread _) ⟨⟨by decide, by rfl⟩, by decide, by decide⟩⟩

theorem witness_RdvzResults :
    let s : State := { base with crews := [(0, { crew1 with progs := [prog (some (15, true))] })] }
    MeetsAt s grp 0 (fun _ => some (BitVec.allOnes 64)) (BitVec.allOnes 64) ∧ (15 : BitVec 6).toNat < 16 ∧ 1 ≤ (3 : BitVec 6).toNat ∧ (3 : BitVec 6).toNat ≤ 3 ∧
      Lanes s grp 7 (LaneFree grp freeGate) ∧ getK s.crews 0 = some { crew1 with progs := [prog (some (15, true))] } ∧
      (∀ q ∈ [prog (some (15, true))], (q.cls = 1 ∨ q.cls = 2) ∧ ∃ e, q.waiting = some ((15 : BitVec 6).toNat, e)) ∧ crew1.faults = [] :=
  ⟨meets_one (x := thr) (by rfl) ⟨rfl, rfl, by decide⟩ rfl, by decide, by decide, by decide, lanes_one rfl (by rfl) ⟨by decide, by rfl⟩, by rfl,
    fun q h => by obtain rfl : q = prog (some (15, true)) := by simpa using h
                  exact ⟨Or.inr rfl, true, rfl⟩, rfl⟩

/-- A program about to issue a word. -/
def issuingProg (w : Word) : Prog := { prog none with code := [w] }

theorem witness_ProgramResults :
    (∀ x ∈ [((15 : BitVec 6), (1 : BitVec 6)), (16, 0), (0, 2)], ∃ w q s, encode (.rdvzEngine x.1 x.2 false 7) = some w ∧ q = issuingProg w ∧
      s = { base with crews := [(0, { crew1 with progs := [q] })] } ∧ getK s.crews q.crew = some { crew1 with progs := [q] } ∧ q.hdr ≠ none ∧ q.idx < q.code.length ∧
      progAtRdvz s (.rdvzEngine x.1 x.2 false 7) = some q ∧ opF w = 0x3F ∧ decodeEngine w = .ok (.rdvzEngine x.1 x.2 false 7) ∧ q.cls ≤ 2) ∧
    (∀ d ∈ [(0 : BitVec 6), 15, 16], ∃ w, encode (.iaddi d d 5 false false) = some w ∧ (opF w).toNat < 0x38 ∧ decodeEngine w = .ok (.iaddi d d 5 false false)) ∧
    (∀ d ∈ [(2 : BitVec 6), 14, 16], ∃ w, encode (.iaddi64 d d 5 false false) = some w ∧ (opF w).toNat < 0x38 ∧ decodeEngine w = .ok (.iaddi64 d d 5 false false)) ∧
    (∀ d ∈ [(0 : BitVec 6), 15, 16], ∃ w, encode (.lui d 5) = some w ∧ (opF w).toNat < 0x38 ∧ decodeEngine w = .ok (.lui d 5)) ∧
    (∀ d ∈ [(2 : BitVec 6), 14, 16], ∃ w, encode (.auipc d 5) = some w ∧ (opF w).toNat < 0x38 ∧ decodeEngine w = .ok (.auipc d 5)) := by
  refine ⟨fun x hx => ?_, fun d hd => ?_, fun d hd => ?_, fun d hd => ?_, fun d hd => ?_⟩
  · have h : x = (15, 1) ∨ x = (16, 0) ∨ x = (0, 2) := by simpa using hx
    rcases h with rfl | rfl | rfl <;>
    exact ⟨_, _, _, rfl, rfl, rfl, by rfl, by decide, by decide, by rfl, by decide, by rfl, by decide⟩
  all_goals
    simp only [List.mem_cons, List.not_mem_nil, or_false] at hd
    rcases hd with rfl | rfl | rfl <;> exact ⟨_, rfl, by decide, by rfl⟩

/-- A package whose context 1 is valid and may be debugged. -/
def live : State :=
  { State.reset with
    valid := [1], bar0 := [(8, 2), (0x40, 0x200), (0x68, 0x40000), (0x208, 1), (0x808, 0x10005)]
    mem := [(0x40061, 2), (0x40068, 2)] }

/-- Whether an image passes its checks rests on open values (log 9): one of the two clauses about it is met. -/
theorem witness_PackageEvents :
    (0 < State.reset.nextKey ∧ memWf State.reset.mem = true ∧ phaseOf State.reset = 0) ∧
    (∃ s, s = { State.reset with bar0 := [(8, 1)] } ∧ 0 < s.nextKey ∧ memWf s.mem = true ∧ phaseOf s = 1) ∧
    (¬ ((0 : BitVec 64) = 1 ∧ phaseOf State.reset = 0) ∧ ¬ ((1 : BitVec 64) = 1 ∧ phaseOf State.reset = 1)) ∧
    ((imageAt State.reset 0).fails = 0 ∨ (imageAt State.reset 0).fails ≠ 0) := by
  refine ⟨by decide, ⟨_, rfl, by decide⟩, by decide, ?_⟩
  exact Decidable.em _

/-- A thread stopped at a `BRK`. -/
def stoppedAt : State :=
  { State.reset with threads := [(0, { thr with status := .stopped })], parked := [{ grp with code := [0xC0600007], members := [0] }] }

theorem witness_DebugEvents :
    (∀ d, d < 4 → powerState State.reset d ≠ 3) ∧
    ({ live with session := some 1 }.session = some 1 ∧ State.reset.session = none ∧ mayDebug live 1 = true ∧ mayDebug live 2 = false) ∧
    (∃ th g, getThread stoppedAt 0 = some th ∧ groupOf stoppedAt 0 = some g ∧ th.status = .stopped) ∧
    (∃ th g, getThread base 0 = some th ∧ groupOf base 0 = some g ∧ ¬ th.status = .stopped) ∧ getThread State.reset 0 = none :=
  ⟨fun d _ => by show (0 : Nat) ≠ 3; decide, ⟨rfl, rfl, by decide, by decide⟩, ⟨_, _, rfl, by rfl, rfl⟩, ⟨_, _, base_thread, by rfl, by decide⟩, rfl⟩

/-- Channel 15 is busy with a command. -/
def busyWith (kind pages : Nat) : State := { live with inval := [(15, ⟨kind, 1, 0, pages, true, false, 0⟩)] }
/-- And an access of context 1 is in flight. -/
def flyingWith (kind pages : Nat) : State := { busyWith kind pages with threads := [(0, thr)], access := [flight] }

theorem witness_InvalidationEvents :
    ((getInval live 15).busy = false ∧ (1 : Nat) < 16384 ∧ (bar0 live 0x208).toNat ≠ 0 ∧ ctxField live 1 40 4 % 2 ≠ 1 ∧ 1 ∈ live.valid) ∧
    ((bar0 State.reset 0x208).toNat = 0 ∧ (getInval State.reset 0).busy = false) ∧
    (∀ k ∈ [(0, 1), (1, 2 ^ 45), (2, 0), (2, 1), (2, 2), (2, 3)], (getInval (busyWith k.1 k.2) 15).busy = true ∧ (getInval (busyWith k.1 k.2) 15).kind = k.1 ∧
      (getInval (busyWith k.1 k.2) 15).pages = k.2 ∧ (¬ ∃ x ∈ (busyWith k.1 k.2).access, threadAsid (busyWith k.1 k.2) x.thread = 1) ∧
      contextRuns (busyWith k.1 k.2) 1 = false ∧ memWf (busyWith k.1 k.2).mem = true) ∧
    (busyWith 2 2).nodes = [] ∧ (16384 ≤ 16384 ∧ (bar0 live 0x208).toNat = 1) ∧
    (∃ x ∈ (flyingWith 0 1000).access, threadAsid (flyingWith 0 1000) x.thread = 1 ∧ meetsPages x.va 128 0 1000 = true) := by
  refine ⟨by decide, by decide, fun k hk => ?_, rfl, by decide, by decide⟩
  simp only [List.mem_cons, List.not_mem_nil, or_false] at hk
  rcases hk with rfl | rfl | rfl | rfl | rfl | rfl <;> decide

/-- A resident cohort on die 0 of a node with no save slot, or none. -/
theorem witness_PowerEvents :
    (rawPower State.reset 3 ≠ 3 ∧ rawPower State.reset 3 ≠ 4 ∧ slotsSuffice State.reset 3 = true ∧ dieCohorts State.reset 3 = [] ∧
      (∀ a ∈ State.reset.access, a.core / 384 ≠ 3)) ∧
    (∃ s, s = { State.reset with power := [(3, (3, 0))] } ∧ rawPower s 3 = 3 ∧ dbgOf s ≠ 2 ∧ ∀ a, s.session = some a → mayDebug s a = true) ∧
    (∃ s, s = { State.reset with power := [(3, (4, 0))], session := some 1 } ∧ rawPower s 3 = 4 ∧ dbgOf s ≠ 2 ∧ s.session = some 1 ∧ mayDebug s 1 = false) ∧
    (∃ s, s = { State.reset with power := [(3, (3, 0))], bar0 := [(8, 10)] } ∧ rawPower s 3 = 3 ∧ dbgOf s = 2 ∧ 0 < s.nextKey ∧
      ((imageAt s (bar0 s 0xC0).toNat).fails = 0 ∨ (imageAt s (bar0 s 0xC0).toNat).fails ≠ 0)) ∧
    (slotsSuffice base 0 = false) ∧
    (∃ s, s = { base with nodes := [], access := [flight] } ∧ slotsSuffice s 0 = true ∧ ¬ dieCohorts s 0 = []) := by
  refine ⟨⟨by decide, by decide, by decide, by decide, by decide⟩, ⟨_, rfl, by decide, by decide, fun a h => absurd h (by simp [State.reset])⟩, ⟨_, rfl, by decide, by decide, rfl, by decide⟩,
    ⟨_, rfl, by decide, by decide, by decide, Decidable.em _⟩, by decide, ⟨_, rfl, by decide, by decide⟩⟩

/-- A package whose range of device memory is placed, its aperture 15 open to context 1. -/
def hosted : State := { mapped with hdmBase := some 0x40000000000, bar0 := [(0x1F8, 0x10001)] }

theorem witness_HostEvents :
    (∃ r ∈ writableRegs State.reset, r.1 = 0x10 ∧ (r.2 5).isSome = true) ∧ (∃ r ∈ writableRegs live, r.1 = 0x10 ∧ r.2 5 = none) ∧
    (∃ d < 4, 0x720 = 0x420 + 0x100 * d) ∧ ((∀ r ∈ writableRegs State.reset, 8 ≠ r.1) ∧ ∀ d, d < 4 → 8 ≠ 0x420 + 0x100 * d ∧ 8 ≠ 0x428 + 0x100 * d) ∧
    (0x10 = 0x10 ∧ 1000 ≤ (1000 : BitVec 64).toNat ∧ (1000 : BitVec 64).toNat ≤ 2 ^ 40) ∧ State.reset.hdmBase = none ∧
    (hosted.hdmBase = some 0x40000000000 ∧ memWf hosted.mem = true ∧ lineOf 0 ∉ hosted.poison ∧ 0x40000000000 + 0x18000000000 - 8 < 0x40000000000 + 0x40000000000 ∧
      (bar0 hosted (0x108 + 16 * 15)).getLsbD 16 = true ∧ (bar0 hosted 0x108).getLsbD 16 = false ∧ 0x40000000000 + 0x2F000000000 + 0x20000 < 0x40000000000 + 0x40000000000) ∧
    (∀ e, (translate hosted [] 1 0x20000 .read).2 ≠ .ok e) := by
  refine ⟨⟨_, List.mem_cons_self .., rfl, by decide⟩, ⟨_, List.mem_cons_self .., rfl, by decide⟩, ⟨3, by decide, rfl⟩, ⟨by decide, by decide⟩, by decide, rfl,
    ⟨rfl, by decide, by decide, by decide, by decide, by decide, by decide⟩, fun e h => ?_⟩
  have : (translate hosted [] 1 0x20000 .read).2 = .fault := by decide +kernel
  rw [this] at h; exact absurd h (by simp)

/-- The tables of its context 1 map the first gigabyte. -/
def tabled : State :=
  { hosted with
    bar0 := (0x68, 0x40000) :: hosted.bar0
    mem := [(0x40042, 5), (0x50000, 1), (0x50001, 0x10), (0x50002, 5), (0x51000, 1), (0x51001, 0x20), (0x51002, 5), (0x52000, 0x0F)] }
/-- A machine with a host access in its queue. -/
def asked (s : State) : State := { s with hostQueue := s.hostQueue ++ [⟨s.seqno, false, 0x2F000020000, 8, 0, none⟩], seqno := s.seqno + 1 }
/-- Whether an access is translated, and whether a die in P3 was met. -/
def meets (s : State) : Bool × Bool :=
  let r := translate (asked s) [] 1 0x20000 .read
  ((match r.2 with | .ok _ => true | _ => false), sleeps r.1)

theorem witness_HostEvents_served :
    (sleeps tabled = false ∧ meets tabled = (true, false) ∧ meets { tabled with power := [(0, (3, 0))] } = (true, true)) ∧
    (meets { tabled with mem := [] } = (false, false) ∧ meets { tabled with mem := [], power := [(0, (3, 0))] } = (false, true)) ∧
    (∃ s, s = { tabled with power := [(homeDie 0x17FFFFFFFF8, (4, 0))] } ∧ rawPower s (homeDie 0x17FFFFFFFF8) = 4) ∧
    (∃ s, s = { tabled with poison := [lineOf 0x17FFFFFFFF8] } ∧ rawPower s (homeDie 0x17FFFFFFFF8) = 0 ∧ lineOf 0x17FFFFFFFF8 ∈ s.poison) ∧
    (∃ a : HostAccess, a.gwct = some 5 ∧ tabled.span < 5) ∧ (∃ a : HostAccess, a.gwct = some 0 ∧ 0 ≤ tabled.span) := by
  refine ⟨by decide +kernel, by decide +kernel, ⟨_, rfl, by decide⟩, ⟨_, rfl, by decide, by decide⟩, ⟨⟨0, true, 0, 8, 0, some 5⟩, rfl, by decide⟩,
    ⟨0, true, 0, 8, 0, some 0⟩, rfl, by decide⟩

theorem witness_HostEvents_registers :
    (∃ d < 4, 0x718 = 0x418 + 0x100 * d) ∧ (rateFrom 256 0x100000).isSome = true ∧ rateFrom 256 128 = none ∧
    (0x100 ≤ 0x4F8 ∧ 0x4F8 < 0x500 ∧ 0x4F8 % 8 = 0) ∧ (0x17FFFFFF000 % 4096 = 0 ∧ 0x17FFFFFF000 < 0x18000000000) := by
  decide

theorem witness_PortEvents :
    (∀ x ∈ [(0, 0), (1, 5), (2, 0), (3, 0)], ∃ s, s = { State.reset with ports := [(127, ⟨x.1, 0, 0, 0⟩)], span := x.2 } ∧ (getPort s 127).state = x.1) ∧
    (∃ s, s = { State.reset with ports := [(127, ⟨1, 0, 0, 0⟩)], span := 10000000 } ∧ (getPort s 127).since + ((getK s.bar2 0x18).getD 10000000).toNat ≤ s.span) ∧
    127 < 128 ∧ 128 ≤ 128 := by
  exact ⟨fun x _ => ⟨_, rfl, rfl⟩, ⟨_, rfl, by decide⟩, by decide, by decide⟩

/-- A package with an identifier and a handle of die 0 bound to tag 7, with a window of 64 bytes at 0x20000; one `PUT` to it is under way. -/
def fabric : State :=
  { mapped with
    bar2 := [(0, 0x100001)], handles := [(handleNo 0 1 3, ⟨1, 7, [1, 2], 0, 0x20000, 64, 0, 0⟩)], tlb := [⟨2, 0, 1, 0, 2 ^ 30, 0, true, true, true, 0, false⟩]
    puts := [⟨9, 5, 0, 1, 7, 56, [1, 2, 3, 4, 5, 6, 7, 8], 0, 0, false, 0, true⟩] }

theorem witness_StreamEvents :
    (((getK fabric.bar2 0).getD 0).getLsbD 20 = true ∧ expected fabric 5 1 = 0 ∧ fabric.inbox = [] ∧ (∃ h ∈ fabric.handles, h.2.tag = 7) ∧
      (∀ h ∈ fabric.handles, h.2.tag ≠ 8) ∧ fabric.refusals < 2 ^ 64 - 1 ∧ (∃ hn h, boundTag fabric 0 7 = some (hn, h) ∧ 56 + 8 ≤ h.winLen ∧ h.winLen < 57 + 8) ∧
      boundTag fabric 0 8 = none ∧ ∀ o ∈ fabric.outbox, ¬ (o.peer = 5 ∧ o.chan = 1 ∧ o.seq = 0)) ∧
    (((getK State.reset.bar2 0).getD 0).getLsbD 20 = false) ∧
    (∃ s f, s = { fabric with inbox := [f] } ∧ f = ⟨5, 1, 2, 7, 0, 0, [0], [1], none, 0⟩ ∧ ∃ x ∈ s.inbox, x.peer = 5 ∧ x.chan = 1 ∧ x.seq = 2) ∧
    (∃ p hn h, fabric.puts.find? (fun p => p.id == 9) = some p ∧ boundTag fabric p.die p.tag = some (hn, h) ∧ p.off + p.data.length ≤ h.winLen ∧
      (¬ ∃ q ∈ fabric.puts, q.id < p.id) ∧ p.whole = true ∧ memWf fabric.mem = true ∧ p.written = false ∧ p.data ≠ [] ∧ (h.win + p.off) % 128 + p.data.length ≤ 128 ∧
      (writable fabric [(2, p.die)] (handleAsid hn) (h.win + p.off) p.data.length).2 = none ∧
      ∃ e, (translate (writable fabric [(2, p.die)] (handleAsid hn) (h.win + p.off) p.data.length).1 [(2, p.die)] (handleAsid hn) (h.win + p.off) .write).2 = .ok e) ∧
    (∃ s, s = { fabric with tlb := [⟨2, 0, 1, 0, 2 ^ 30, 2 ^ 50, true, true, true, 0, false⟩] } ∧ (writable s [(2, 0)] 1 0x20038 8).2 = some (.fatal 0x0A)) ∧
    (∀ p ∈ fabric.puts, p.id ≠ 8) := by
  refine ⟨⟨by decide, by decide, rfl, by decide, by decide, by decide, ⟨_, _, by rfl, by decide, by decide⟩, by decide, by decide⟩, by decide,
    ⟨_, _, rfl, rfl, by decide⟩,
    ⟨_, _, _, rfl, by rfl, by decide, by decide, rfl, by decide, rfl, by decide, by decide, by decide +kernel, ⟨2, 0, 1, 0, 2 ^ 30, 0, true, true, true, 0, false⟩, by decide +kernel⟩,
    ⟨_, rfl, by decide +kernel⟩, by decide⟩

/-- A probe that reads a bin, started at the head of its queue, behind guard 1 of its crew. -/
def probe (phase guard : Nat) (sense : Bool) : QEntry := ⟨5, 0xF8800205, 0x10004, 0, 1, [⟨0, 0, [3], [], 0⟩], guard, sense, false, phase, [], []⟩
/-- A machine with one entry at a queue's head, the guard slot 1 as given. -/
def headed (cls : Nat) (e : QEntry) (slot : Nat) : State :=
  { mapped with queues := [(cls, [e])], crews := [(0, { crew1 with guards := [slot, 0, 0, 0, 0, 0, 0] })] }

theorem witness_QueueEvents :
    getQueue base 0 6 = [] ∧
    (∀ x ∈ [(0, true, 0), (1, true, 1), (1, false, 2)], ∃ s e, e = probe 0 x.1 x.2.1 ∧ s = headed 6 e x.2.2 ∧ getQueue s 0 6 = [e] ∧ e.phase = 0 ∧ mayStart s 0 6 = true ∧
      (e.guard = 0 ∨ (x.2.2 = 1 ∧ e.sense = true) ∨ (2 ≤ x.2.2 ∧ e.sense = false)) ∧
      ((getK s.crews e.crew).map fun c => c.guards.getD 0 0).getD 0 = x.2.2) ∧
    (∃ s e, e = probe 0 1 true ∧ s = headed 6 e 2 ∧ getQueue s 0 6 = [e] ∧ e.phase = 0 ∧ ((getK s.crews e.crew).map fun c => c.guards.getD 0 0).getD 0 = 2) ∧
    (∃ s e, e = probe 0 1 true ∧ s = { headed 6 e 0 with threads := [] } ∧ getQueue s 0 6 = [e] ∧ crewEnding s e.crew = true) ∧
    (∃ s e, e = probe 0 1 true ∧ s = headed 6 e 0 ∧ getQueue s 0 6 = [e] ∧ crewEnding s e.crew = false) ∧
    (∃ s e, e = probe 3 0 false ∧ s = { headed 6 e 0 with poison := [queueLine 5] } ∧ getQueue s 0 6 = [e] ∧ 3 ≤ e.phase ∧ s.poison.contains (queueLine e.id) = true) ∧
    (∃ s e r v, e = probe 1 0 false ∧ s = headed 6 e 0 ∧ getQueue s 0 6 = [e] ∧ repF e.word = true ∧ s.poison.contains (queueLine e.id) = false ∧ engineOut s 0 6 e = some (.done r v)) := by
  refine ⟨rfl, fun x hx => ?_, ⟨_, _, rfl, rfl, rfl, rfl, by rfl⟩, ⟨_, _, rfl, rfl, rfl, by decide⟩, ⟨_, _, rfl, rfl, rfl, by decide⟩,
    ⟨_, _, rfl, rfl, rfl, by decide, by decide⟩, ⟨_, _, _, _, rfl, rfl, rfl, by decide, by decide, rfl⟩⟩
  have h : x = (0, true, 0) ∨ x = (1, true, 1) ∨ x = (1, false, 2) := by simpa using hx
  rcases h with rfl | rfl | rfl <;> exact ⟨_, _, rfl, rfl, rfl, rfl, by decide, by decide, by rfl⟩

theorem ok_of {ε α : Type} {x : Except ε α} (h : (match x with | .ok _ => true | .error _ => false) = true) : ∃ a, x = .ok a := by
  cases x with
  | ok a => exact ⟨a, rfl⟩
  | error e => exact absurd h (by simp)

/-- A started copy of 32,768 bytes to the whole scratchpad, or a fill of it. -/
def copying (w : Word) (a : List Word) : QEntry := ⟨5, w, 0x10004, 0, 1, [⟨0, 0, a, [0, 32768], 0⟩], 0, false, false, 1, [], []⟩

theorem witness_CopyEvents :
    getQueue base 0 0 = [] ∧ (∃ s, s = headed 0 queued 0 ∧ getQueue s 0 0 = [queued] ∧ queued.phase ≠ 1 ∧ queued.phase < 3) ∧
    (∃ s e, e = copying 0xE4001400 [0x20000, 0] ∧ s = { headed 0 e 0 with poison := [queueLine 5] } ∧ getQueue s 0 0 = [e] ∧ s.poison.contains (queueLine e.id) = true) ∧
    (∀ x ∈ [((0xE4001400 : Word), [(0x20000 : Word), 0], 0), (0xE4001408, [0, 0x80000000], 4)], ∃ s e o, e = copying x.1 x.2.1 ∧
      s = { withPad id with queues := [(0, [e])] } ∧ getQueue s 0 0 = [e] ∧ e.phase = 1 ∧ e.aux = [] ∧ e.ops = [o] ∧ e.prog = false ∧
      getK s.cohorts e.cohort = some padCohort ∧ padCohort.regions = [] ∧ s.poison = [] ∧ memWf padCohort.scratch = true ∧ (cmdF e.word).toNat = x.2.2 ∧
      CopyFits padCohort (if x.2.2 = 0 then pairNum o.a else 0) (wordAt o.b 0) (wordAt o.b 1) ∧ (x.2.2 = 4 → pairNum o.a / 2 ^ 32 = 2 ^ 31)) ∧
    (∃ bs, (readVirt (withPad id) (tlbUnits 0) ⟨some 0, 2⟩ 1 0x20000 128).2 = .ok bs) := by
  refine ⟨rfl, ⟨_, rfl, rfl, by decide, by decide⟩, ⟨_, _, rfl, rfl, rfl, by decide⟩, fun x hx => ?_, ok_of (by decide +kernel)⟩
  have h : x = ((0xE4001400 : Word), [(0x20000 : Word), 0], 0) ∨ x = (0xE4001408, [0, 0x80000000], 4) := by simpa using hx
  rcases h with rfl | rfl <;>
  exact ⟨_, _, _, rfl, rfl, rfl, rfl, rfl, rfl, rfl, by rfl, rfl, rfl, by decide, by decide, by unfold CopyFits; decide, by decide⟩

/-- A row that leaves the array, and closes an interval or not. -/
def row (iv : Option Interval) : ArrayRow := ⟨0, 0, 0, [], 0, true, 0, iv, none⟩
/-- An interval. -/
def interval : Interval := ⟨0, 1, 0, [], [], [], []⟩
/-- A machine whose core 0 has an array of cohort 1. -/
def arrayed (g : Girder) : State := { base with girders := [(0, { g with owner := some 1 })] }

theorem witness_ArrayEvents :
    (getGirder base 0).rows = [] ∧
    (∀ iv ∈ [none, some interval], (getGirder (arrayed { Girder.free with rows := [row iv] }) 0).rows = [row iv] ∧ (row iv).promote = iv) ∧
    (∀ fs ∈ [[], [row none]], ∀ r ∈ [0, 1, 2, 3, 4], ∃ g, g = getGirder (arrayed { Girder.free with ramp := r, feed := fs }) 0 ∧ g.ramp = r ∧ g.feed = fs ∧ g.burst = false) ∧
    (∃ e g, e = probe 1 0 false ∧ g = getGirder (arrayed { Girder.free with rows := [{ row (some { interval with formed := [0] }) with src := some e }], poison := [0] }) 0 ∧
      g.rows = [{ row (some { interval with formed := [0] }) with src := some e }] ∧ promotesBad { g with rows := [] } { interval with formed := [0] } = true) ∧
    (∃ s x, s = { arrayed Girder.free with cohorts := [(1, { cohort1 with state := 5 })], cycles := [(0, 20 * 65536)] } ∧ (getGirder s 0).owner = some 1 ∧
      getK s.cohorts 1 = some x ∧ x.state = 5 ∧ x.asked + 20 * 65536 ≤ (getK s.cycles (0 / 384)).getD 0) ∧
    (∃ s x, s = arrayed Girder.free ∧ (getGirder s 0).owner = some 1 ∧ getK s.cohorts 1 = some x ∧ x.state ≠ 5) := by
  refine ⟨rfl, fun iv _ => ⟨rfl, rfl⟩, fun fs _ r _ => ⟨_, rfl, rfl, rfl, rfl⟩, ⟨_, _, rfl, rfl, rfl, by decide +kernel⟩, ⟨_, _, rfl, rfl, rfl, rfl, by decide⟩,
    ⟨_, _, rfl, rfl, by rfl, by decide⟩⟩

/-- A collective command at the front of its instance, as one of a group of two members; both have contributed, alike or not. -/
def colCmd : ColCmd := ⟨0, probe 1 0 false, 0, handleNo 0 1 3, 0, 0, 1, 4, 0, 2, 0, 0x20000, 0x20000, [], false⟩
/-- See `colCmd`. -/
def gathered (op span : Nat) : State :=
  { fabric with
    colCmds := [colCmd]
    contribs := [⟨0, 7, 0, 0, 1, 4, 0, 2, 0, [1, 0, 0, 0, 2, 0, 0, 0], true⟩, ⟨0, 7, 1, 0, 1, 4, op, 2, 0, [3, 0, 0, 0, 4, 0, 0, 0], true⟩]
    bar2 := [(0x10, 1000)], span := span }

theorem witness_CollectiveEvents :
    (∃ h, getK (gathered 0 999).handles (handleNo 0 1 3) = some h ∧
      ((gathered 0 999).colCmds.find? fun c => c.handle == handleNo 0 1 3 && decide (c.cmd ≤ 4)) = some colCmd ∧
      (gathered 0 999).span < colCmd.left + (bar2 (gathered 0 999) 0x10).toNat ∧
      none ∉ instanceParts (gathered 0 999) 0 h.tag colCmd.k h.members.length ∧
      (∀ p ∈ (instanceParts (gathered 0 999) 0 h.tag colCmd.k h.members.length).filterMap id,
        p.cmd = colCmd.cmd ∧ p.typ = colCmd.typ ∧ p.op = colCmd.op ∧ p.count = colCmd.count) ∧
      colCmd.fatal = false ∧ (writable { gathered 0 999 with seqno := (gathered 0 999).seqno + 1 } (engineUnits 0 4) 1 colCmd.dst 8).2 = none ∧
      colCmd.dst % 128 + 8 ≤ 128 ∧ memWf (gathered 0 999).mem = true ∧
      (∃ e, (translate (writable { gathered 0 999 with seqno := (gathered 0 999).seqno + 1 } (engineUnits 0 4) 1 colCmd.dst 8).1 (engineUnits 0 4) 1 colCmd.dst .write).2 = .ok e)) ∧
    (∃ p ∈ (instanceParts (gathered 1 999) 0 7 0 2).filterMap id, p.op ≠ colCmd.op) ∧
    none ∈ instanceParts { gathered 0 999 with contribs := [] } 0 7 0 2 ∧ getK base.handles 5 = none ∧
    (¬ (gathered 0 1000).span < colCmd.left + (bar2 (gathered 0 1000) 0x10).toNat ∧
      ((gathered 0 1000).colCmds.find? fun c => c.core == 0 && decide (c.left + (bar2 (gathered 0 1000) 0x10).toNat ≤ (gathered 0 1000).span)) = some colCmd ∧
      (writable (gathered 0 1000) (engineUnits 0 4) (entryAsid (gathered 0 1000) colCmd.entry).1 colCmd.dst 8).2 = none ∧
      colDstBytes 1 2 2 4 ≤ 16 ∧ ∃ e, (translate (writable (gathered 0 1000) (engineUnits 0 4) 1 colCmd.dst 8).1 (engineUnits 0 4) 1 colCmd.dst .write).2 = .ok e) ∧
    (∃ c : ColCmd, c = { colCmd with fatal := true } ∧ c.fatal = true) ∧
    (∃ ps : List Contribution, ps[1]? = some ⟨0, 7, 1, 0, 1, 4, 0, 2, 0, [], true⟩) := by
  refine ⟨⟨_, by rfl, by rfl, by decide, by decide, by decide, rfl, by decide +kernel, by decide, by decide, ⟨2, 0, 1, 0, 2 ^ 30, 0, true, true, true, 0, false⟩, by decide +kernel⟩,
    by decide, by decide, by rfl, ⟨by decide, by rfl, by decide +kernel, by decide, ⟨2, 0, 1, 0, 2 ^ 30, 0, true, true, true, 0, false⟩, by decide +kernel⟩, ⟨_, rfl, rfl⟩,
    [⟨0, 7, 0, 0, 1, 4, 0, 2, 0, [], true⟩, ⟨0, 7, 1, 0, 1, 4, 0, 2, 0, [], true⟩], rfl⟩

/-- A context whose observation buffer at 0x21000 holds one of two records, or is full; the die samples its cores, and 256 core cycles have passed. -/
def observed (cap : Byte) : State :=
  { mapped with
    tlb := [⟨0, 0, 1, 0, 2 ^ 30, 0, true, true, true, 0, false⟩], bar0 := [(0x68, 0x40000), (0x418, 256)], cycles := [(0, 5120)]
    mem := [(0x21000, cap), (0x21004, 1), (0x40059, 0x10), (0x4005A, 2)] }

theorem witness_ObservationRecords :
    (∀ cap ∈ [(1 : Byte), 2], memWf (observed cap).mem = true ∧ ctxField (observed cap) 1 24 8 = 0x21000 ∧
      (∃ c w, reached (observed cap) (tlbUnits 0) 1 0x21000 4 = some c ∧ reached (observed cap) (tlbUnits 0) 1 0x21004 4 = some w ∧
        partsNum (observed cap) 0 w = 1 ∧ partsNum (observed cap) 0 c = cap.toNat) ∧
      (∃ d l h, reached (observed cap) (tlbUnits 0) 1 0x21008 8 = some d ∧ reached (observed cap) (tlbUnits 0) 1 (0x21000 + 64 + 32) 8 = some l ∧
        reached (observed cap) (tlbUnits 0) 1 (0x21000 + 72 + 32) 24 = some h)) ∧
    ctxField mapped 1 24 8 = 0 ∧ reached { observed 2 with poison := [lineOf 0x21000] } (tlbUnits 0) 1 0x21000 4 = none ∧
    (dieReg (observed 2) 0 0x18 = 256 ∧ 0 / 256 < (5120 / 20) / 256 ∧ (getK (observed 2).cycles 0).getD 0 = 5120 ∧
      ((observed 2).threads.filter fun e => threadCore e.1 == 0 && !e.2.over && (getSlot (observed 2) (threadCrew e.1)).state == 2) = [(0, thr)]) ∧
    (∃ g, (observed 2).opens.find? (fun g => g.members.contains 0) = some g ∧ (∀ g ∈ (observed 2).parked, 0 ∉ g.members) ∧ groupHeld (observed 2) g = false ∧
      interlocked (observed 2) g = false) ∧
    dieReg base 0 0x18 = 0 ∧ { observed 2 with threads := [] }.threads = [] := by
  refine ⟨fun cap h => ?_, by decide +kernel, by decide +kernel, ⟨by decide, by decide, rfl, by rfl⟩, ⟨grp, by rfl, ?_, by decide, by decide⟩, by decide, rfl⟩
  · have h : cap = 1 ∨ cap = 2 := by simpa using h
    rcases h with rfl | rfl <;>
    exact ⟨by decide, by decide +kernel, ⟨[(0x21000, 4)], [(0x21004, 4)], by decide +kernel, by decide +kernel, by decide +kernel, by decide +kernel⟩,
      [(0x21008, 8)], [(0x21060, 8)], [(0x21068, 24)], by decide +kernel, by decide +kernel, by decide +kernel⟩
  · intro g h; exact absurd h (by simp [observed, mapped, show base.parked = [] from by rfl])

/-- A context with submission words at 0x22000, word 0 holding the address 0x23000 of a record that is none, having fired or to be armed. -/
def submitted (w : Nat) (v : Byte) : State :=
  { mapped with
    tlb := [⟨2, 0, 1, 0, 2 ^ 30, 0, true, true, true, 0, false⟩], bar0 := [(0x68, 0x40000)], subFired := [(1, w)]
    mem := (if v = 0 then [] else [(0x22001, v)]) ++ [(0x40049, 0x20), (0x4004A, 2)] }

/-- A device fault of die 0, answered by the driver, whose requester is as given. -/
def answered (resp : Byte) (r : List Requester) (s : State) : State :=
  { s with bar0 := [(0x400, 0x50000)], mem := [(0x50038, resp)], faults := [(1, ⟨1, 0x20, 1, r⟩)] }

theorem witness_HiveEvents :
    (∀ x ∈ [(0, (0x30 : Byte)), (0, 0), (64, 0x30)], ctxField (submitted x.1 x.2) 1 8 8 = 0x22000 ∧ ((1, 0) ∈ (submitted x.1 x.2).subFired ∨ (1, 0 + 64) ∈ (submitted x.1 x.2).subFired) ∧
      ∃ e, (translate { submitted x.1 x.2 with subFired := [] } (hiveUnits 0) 1 0x22000 .atomic).2 = .ok e ∧
        readNum (submitted x.1 x.2) 0 (paOf e 0x22000) 8 = x.2.toNat * 256 ∧ poisoned (submitted x.1 x.2) (paOf e 0x22000) = false) ∧
    (∃ s, s = { submitted 0 0 with tlb := [] } ∧ (translate { s with subFired := [] } (hiveUnits 0) 1 0x22000 .atomic).2 = .fault) ∧
    (∃ s, s = { submitted 0 0 with tlb := [⟨2, 0, 1, 0, 2 ^ 30, 2 ^ 50, true, true, true, 0, false⟩] } ∧ (translate { s with subFired := [] } (hiveUnits 0) 1 0x22000 .atomic).2 = .fatal 0x0A) ∧
    (∃ s, s = { submitted 0 0 with tlb := [], mem := (0x40042, 5) :: (0x40049, 0x20) :: (0x4004A, 2) :: (tabled.mem.drop 1).set 6 (0x52000, 7) } ∧ ctxField s 1 8 8 = 0x22000 ∧ (translate { s with subFired := [] } (hiveUnits 0) 1 0x22000 .atomic).2 = .fault ∧
      (match walk s 1 0x22000 with | .page .. => true | _ => false) = true) ∧
    (∃ s, s = { submitted 0 0x30 with poison := [lineOf 0x22000] } ∧ poisoned s 0x22000 = true) ∧
    (∀ resp ∈ [(1 : Byte), 2, 3], ∀ r ∈ [[], [Requester.engine 0 6], [.fetch 0], [.hive 2 5], [.hive 0 128]], ∃ s, s = answered resp r (headed 6 (probe 2 0 false) 0) ∧
      getK s.faults 1 = some ⟨1, 0x20, 1, r⟩ ∧ readNum s (keyOf s 0) (dieReg s 0 0 + 32 * 1 + 24) 4 = resp.toNat ∧ (1 : Nat) < 1024 ∧
      getQueue s 0 6 = [probe 2 0 false]) ∧
    (∃ s, s = answered 1 [.fetch 0] { base with threads := [(0, { thr with status := .fetchWait })], opens := [] } ∧
      (getThread s 0).map (·.status) = some .fetchWait ∧ groupOf s 0 = none) ∧
    (∃ s c, s = answered 1 [.cocoon 0] { base with threads := [(0, { thr with cocoon := some c })] } ∧ (getThread s 0).bind (·.cocoon) = some c ∧ s.access = []) ∧
    (∃ s d, s = { base with dumps := [d] } ∧ (s.dumps.find? fun d => d.die == 0) = some d ∧ 0 ∉ s.dumpAborts ∧ dieReg s 0 0x30 = 0) ∧
    (∀ ps ∈ [[], [lineOf 0x60000]], ∃ s d, s = { base with dumps := [d], bar0 := [(0x430, 0x60000)], poison := ps } ∧ (s.dumps.find? fun d => d.die == 0) = some d ∧
      dieReg s 0 0x30 ≠ 0 ∧ (dumpBad s 0x60000 (dumpBytes s d)).isSome = !ps.isEmpty) := by
  have hd : ∀ ps : List Nat, ∃ s d, s = { base with dumps := [d], bar0 := [(0x430, 0x60000)], poison := ps } ∧ d = (⟨0, 0, 5, 0, 0x20F, 0x10004, 0, 0, 0, 0⟩ : Dump) :=
    fun ps => ⟨_, _, rfl, rfl⟩
  refine ⟨fun x h => ?_, ⟨_, rfl, by decide +kernel⟩, ⟨_, rfl, by decide +kernel⟩, ⟨_, rfl, by decide +kernel, by decide +kernel, by decide +kernel⟩, ⟨_, rfl, by decide⟩, fun resp hr r hq => ?_, ⟨_, rfl, by rfl, by decide⟩,
    ⟨_, ⟨0xC0000007, 0x10004, 0x10000, grp.hdr, [], 0, [], noLatches, 0, [], 0, 0⟩, rfl, by rfl, by rfl⟩,
    ⟨_, ⟨0, 0, 5, 0, 0x20F, 0x10004, 0, 0, 0, 0⟩, rfl, by rfl, by decide, by decide⟩, fun ps h => ?_⟩
  · have h : x = (0, 0x30) ∨ x = (0, 0) ∨ x = (64, 0x30) := by simpa using h
    rcases h with rfl | rfl | rfl <;>
    exact ⟨by decide +kernel, by decide, ⟨2, 0, 1, 0, 2 ^ 30, 0, true, true, true, 0, false⟩, by decide +kernel, by decide +kernel, by decide⟩
  · have h : resp = 1 ∨ resp = 2 ∨ resp = 3 := by simpa using hr
    have hq : r = [] ∨ r = [.engine 0 6] ∨ r = [.fetch 0] ∨ r = [.hive 2 5] ∨ r = [.hive 0 128] := by simpa using hq
    rcases h with rfl | rfl | rfl <;> rcases hq with rfl | rfl | rfl | rfl | rfl <;> exact ⟨_, rfl, rfl, by decide, by decide, rfl⟩
  · have h : ps = [] ∨ ps = [lineOf 0x60000] := by simpa using h
    rcases h with rfl | rfl <;> exact ⟨_, ⟨0, 0, 5, 0, 0x20F, 0x10004, 0, 0, 0, 0⟩, rfl, by rfl, by decide, by decide +kernel⟩

/-- A lane that runs ahead of a load at 0x20000, which the driver has mapped. -/
def ahead : Cocoon := ⟨((encode (.ld 4 2 0 2 2 true)).getD 0), 0x10004, 0x10000, grp.hdr, [], 0x20000, [], noLatches, 0, [], 0, 0x20000⟩
/-- See `ahead`. -/
def replaying : State :=
  { tabled with
    tlb := [], bar0 := (0x400, 0x60000) :: tabled.bar0, mem := tabled.mem ++ [(0x60038, 1)], faults := [(1, ⟨1, 0x20, 1, [.cocoon 0]⟩)]
    threads := [(0, { thr with cocoon := some ahead, dc := [(2, 1)] })] }

theorem witness_HiveEvents_replay :
    ∃ th, getThread replaying 0 = some th ∧ th.cocoon = some ahead ∧ (∀ a ∈ replaying.access, a.thread ≠ 0) ∧
      getK replaying.faults (0 * 1024 + 1) = some ⟨1, 0x20, 1, [.cocoon 0]⟩ ∧ readNum replaying (keyOf replaying 0) (dieReg replaying 0 0 + 32 * 1 + 24) 4 = 1 ∧
      (match performMem (setThread { replaying with faults := [] } 0 { decDc th ahead.req.dc replaying.span with cocoon := none }) 0
          { decDc th ahead.req.dc replaying.span with cocoon := none } ahead.req with
        | .done _ => true | _ => false) = true := by
  refine ⟨_, rfl, rfl, ?_, rfl, by decide +kernel, by decide +kernel⟩
  show ∀ a ∈ base.access, _; rw [base_access]; simp

/-- A machine with one node of one unit in the ready pool of die 0, of which die 0 has none placed. -/
def pooledNode : Node := { nodeOf 0 0 [] none [] with
  asid := 1, grid := (1, 1, 1), stages := 1, crews := 1, lanes := 64, phase := 1, pooled := true, prio := 5, kernel := { kernelOf [] with regs := 8, crews := 1, stages := 1 } }
/-- See `pooledNode`. -/
def pool (n : Node) : State := { State.reset with nodes := [(5, n)], bar0 := [(0x408, 99)], span := 100 }

/-- A node whose one placed thread waits in `FLUSHD`, its second unit not placed, with save slots as given. -/
def flushing (slots : Nat) : State :=
  { base with
    threads := [(0, { thr with wait := some ⟨flushdKind, 0, 0⟩ })], opens := []
    nodes := base.nodes.map fun n => (n.1, { n.2 with grid := (2, 1, 1), nextUnit := 1, saveSlots := slots, fused := true }) }

theorem witness_PlacementEvents :
    (powerState (pool pooledNode) 0 < 2 ∧ poolOrder (pool pooledNode) 0 0 = [(5, pooledNode)] ∧ (tryNode (pool pooledNode) 5 pooledNode).isSome = true) ∧
    (∃ n, n = { pooledNode with fused := true } ∧ poolOrder (pool n) 0 0 = [(5, n)] ∧ tryNode (pool n) 5 n = none ∧
      (∀ c < 12, ((pool n).fusedClusters.contains (0 * 12 + c)) = !n.fused) ∧ (pool n).draining = [] ∧ n.ready + dieReg (pool n) 0 8 < (pool n).span) ∧
    (getNode (pool pooledNode) 5 = some pooledNode ∧ pooledNode.stages = 1 ∧ pooledNode.kernel.stack = 0 ∧ pooledNode.spread = false ∧ pooledNode.det = false ∧
      pooledNode.lanes ≤ 64 ∧ pooledNode.kind ≤ 1 ∧ (placeUnit (pool pooledNode) 5 pooledNode 0).isSome = true) ∧
    ((getSlot { base with slots := [(15, ⟨1, 2, 1, 0, 0⟩)] } (0 * 16 + 15)).state = 1 ∧ (getSlot base 0).state ≠ 1) ∧
    (∃ s, s = { State.reset with draining := [47] } ∧ 3 * 12 + 11 ∈ s.draining ∧ (∀ e ∈ s.slots, e.1 / 16 / 32 = 47 → e.2.state = 0) ∧
      ∀ a ∈ s.access, a.core / 32 = 47 → a.arrived = true) ∧
    (∀ k ∈ [0, 1], ∃ n, getNode (flushing k) 2 = some n ∧ needsRoom (flushing k) 2 n = true ∧ tryNode (flushing k) 2 n = none ∧
      (∀ c ∈ (flushing k).cohorts, c.2.node = 2 → c.2.state ≠ 2) ∧ (freeSaveSlots (flushing k) 2 n).length = k) := by
  refine ⟨⟨by decide, by rfl, by decide +kernel⟩, ⟨_, rfl, by rfl, by decide +kernel, by decide, rfl, by decide⟩,
    ⟨rfl, rfl, rfl, rfl, rfl, by decide, by decide, by decide +kernel⟩, by decide, ⟨_, rfl, by decide, by decide, by decide⟩, fun k h => ?_⟩
  have h : k = 0 ∨ k = 1 := by simpa using h
  rcases h with rfl | rfl <;> exact ⟨_, by rfl, by decide, by decide +kernel, by decide, by decide⟩

/-- A machine whose one cluster in the mode of a waiting node has no whole core free; a save of cohort 1 would free one. -/
def crowdedNode : Node := { pooledNode with kind := 1, crews := 16, kernel := { pooledNode.kernel with crews := 16 } }
/-- See `crowdedNode`. -/
def crowded : State :=
  { pool crowdedNode with
    fusedClusters := (List.range 11).map (· + 1), cohorts := [(1, { cohort1 with node := 6, crews := [496], state := 1 })]
    nodes := [(5, crowdedNode), (6, { pooledNode with prio := 0, saveSlots := 1, pooled := false })]
    slots := [(448, ⟨3, 9, 0, 0, 0⟩), (464, ⟨3, 9, 0, 0, 0⟩), (480, ⟨3, 9, 0, 0, 0⟩), (496, ⟨2, 6, 1, 0, 0⟩)] }

theorem witness_PlacementEvents_victims :
    queueHeads (poolOrder crowded 0 1) = [(5, crowdedNode)] ∧ waitVictims crowded 0 5 crowdedNode = some [1] ∧
    enoughVictims (fitsWithout crowded 5 crowdedNode 0) [] (victimsOn crowded crowdedNode 0) = some [1] ∧
    crowdedNode.ready + dieReg crowded 0 8 < crowded.span ∧ tryNode crowded 5 crowdedNode = none ∧
    ¬ ∃ c ∈ crowded.cohorts, (c.2.state = 2 ∨ c.2.state = 5) ∧ coreDie (c.2.crews.headD 0 / 16) = 0 := by
  refine ⟨by decide +kernel, by decide +kernel, by decide +kernel, by decide, by decide +kernel, by decide⟩

/-- The cohort of `base` chosen for saving, its thread standing at a clause boundary or in an open clause. -/
def saving (openClause : Bool) : State :=
  { base with
    cohorts := [(1, { cohort1 with state := 2, slot := some 0 })], opens := if openClause then base.opens else []
    threads := [(0, { thr with status := if openClause then .issuing else .ready })] }
/-- Its slot retiring, its thread over. -/
def retiring (others : List (Nat × SlotLease)) (g : Girder) (st : Nat) : State :=
  { base with
    cohorts := [(1, { cohort1 with state := st })], opens := [], threads := [(0, { thr with status := .exited })], girders := [(0, { g with owner := some 1 })]
    slots := (0, ⟨3, 2, 1, 0, 0⟩) :: others }

theorem witness_SaveEvents :
    (∃ x, getCohort (saving false) 1 = some x ∧ x.state = 2 ∧ saveReady (saving false) 1 x = true) ∧
    (∃ x, getCohort (saving true) 1 = some x ∧ x.state = 2 ∧ saveReady (saving true) 1 x = false ∧ clausesOver (saving true) 1 = false) ∧
    (∃ s x, s = { saving false with access := [flight] } ∧ getCohort s 1 = some x ∧ saveReady s 1 x = false ∧ clausesOver s 1 = true) ∧
    (∃ x, getCohort base 1 = some x ∧ x.state ≠ 2) ∧ getCohort base 5 = none ∧
    (∀ o ∈ [[], [(1, (⟨2, 2, 1, 0, 0⟩ : SlotLease))]], (getSlot (retiring o Girder.free 4) 0).state = 3 ∧ (∃ x, getCohort (retiring o Girder.free 4) 1 = some x ∧ x.state = 4 ∧
      x.regions = [] ∧ x.node = 2) ∧ crewQuiet (retiring o Girder.free 4) 0 = true ∧ (retiring o Girder.free 4).faults = [] ∧ otherSlots (retiring o Girder.free 4) 1 0 = !o.isEmpty ∧
      ∀ g ∈ (retiring o Girder.free 4).girders, g.2.owner = some 1 → g.2.drained = true) ∧
    (∃ g ∈ (retiring [] { Girder.free with rows := [row none] } 4).girders, g.2.owner = some 1 ∧ g.2.drained = false) ∧
    (getSlot (retiring [] Girder.free 3) 0).state = 3 ∧ crewQuiet { retiring [] Girder.free 4 with access := [flight] } 0 = false ∧ (getSlot base 0).state ≠ 3 ∧
    getCohort { retiring [] Girder.free 4 with cohorts := [] } 1 = none := by
  refine ⟨⟨_, rfl, rfl, by decide +kernel⟩, ⟨_, rfl, rfl, by decide +kernel, by decide⟩, ⟨_, _, rfl, rfl, by decide +kernel, by decide⟩, ⟨_, by rfl, by decide⟩, by rfl, fun o h => ?_,
    by decide, by decide, by decide, by decide, rfl⟩
  have h : o = [] ∨ o = [(1, (⟨2, 2, 1, 0, 0⟩ : SlotLease))] := by simpa using h
  rcases h with rfl | rfl <;> exact ⟨by decide, ⟨_, rfl, rfl, rfl, rfl⟩, by decide, rfl, by decide, by decide⟩

/-- A copy, signal or compute node on die 0, with its translations at hand: 8 bytes from 0x20000 to 0x21000, or the word at 0x21000. -/
def graphNode (kind phase : Nat) : Node := { nodeOf 0 0x23000 [] none [] with
  asid := 1, kind := kind, phase := phase, sigAddr := 0x21000, opnds := [(0x20000, 8, 0), (0x21000, 0, 0)], nsucc := 1, succ := 0x24000, status := 0x25000 }
/-- A machine with the node, whose one successor has one predecessor left. -/
def graph (n : Node) : State :=
  { mapped with
    threads := [], cohorts := [], nodes := [(5, n)], tlb := [⟨2, 0, 1, 0, 2 ^ 30, 0, true, true, true, 0, false⟩]
    mem := [(0x24001, 0x60), (0x24002, 2), (0x26004, 1), (0x26020, 1)] }

theorem witness_NodeEvents :
    getNode base 9 = none ∧
    (∀ k ∈ [2, 3], ∃ n, n = graphNode k 1 ∧ getNode (graph n) 5 = some n ∧ n.kind = k ∧ n.phase = 1 ∧ nextOfDie (graph n) n = true) ∧
    ((∃ bs, (readVirt (startNode (graph (graphNode 2 1)) 5) (hiveUnits 0) ⟨none, 5⟩ 1 0x20000 8).2 = .ok bs) ∧
      (writable (readVirt (startNode (graph (graphNode 2 1)) 5) (hiveUnits 0) ⟨none, 5⟩ 1 0x20000 8).1 (hiveUnits 0) 1 0x21000 8).2 = none ∧
      0x21000 % 128 + 8 ≤ 128 ∧ memWf (graph (graphNode 2 1)).mem = true ∧ (writable (startNode (graph (graphNode 3 1)) 5) (hiveUnits 0) 1 0x21000 8).2 = none) ∧
    (∃ s, s = { graph (graphNode 2 1) with tlb := [] } ∧ (writable (startNode s 5) (hiveUnits 0) 1 0x21000 8).2 = some (.missing 0x21000 .write)) ∧
    (∃ s, s = { graph (graphNode 2 1) with tlb := [⟨2, 0, 1, 0, 2 ^ 30, 2 ^ 50, true, true, true, 0, false⟩] } ∧ (writable (startNode s 5) (hiveUnits 0) 1 0x21000 8).2 = some (.fatal 0x0A)) ∧
    (∃ n, n = { graphNode 0 2 with trigThreads := 1 } ∧ n.triggered = false ∧ n.failed = none ∧ allTriggered (graph n) 5 n = true ∧ (graph n).faults = [] ∧ n.trigDone = 0) ∧
    ((∃ bs, (readVirt (graph (graphNode 0 2)) (hiveUnits 0) hiveReader 1 0x24000 8).2 = .ok bs ∧ ofBytes bs = 0x26000) ∧
      (∃ bs, (readVirt (graph (graphNode 0 2)) (hiveUnits 0) hiveReader 1 (0x26000 + 4) 2).2 = .ok bs ∧ ofBytes bs = 1) ∧
      readNum (graph (graphNode 0 2)) 0 0x26020 4 = 1 ∧ poisoned (graph (graphNode 0 2)) 0x26020 = false) ∧
    (∀ k ∈ [0, 1, 2, 3], ∃ n, n = { graphNode 0 2 with stepDone := k } ∧ getNode (graph n) 5 = some n ∧ workOver (graph n) 5 n = true ∧
      (∀ d, d < 4 → (bar0 (graph n) (0x420 + 0x100 * d)).toNat ≠ n.addr) ∧ n.maxGwct ≤ (graph n).span ∧ n.children = 0 ∧ n.failed = none) ∧
    (∃ g, (hiveWrite (graph (graphNode 0 2)) 0 1 0x25000 (List.replicate 8 0)).2 = .ok g) ∧
    (∃ n, n = graphNode 0 1 ∧ workOver (graph n) 5 n = false) := by
  have ok8 : ∀ {s : State} {u : List (Nat × Nat)} {a n v : Nat} {r : Reader}, (match (readVirt s u r 1 a n).2 with | .ok b => decide (ofBytes b = v) | .error _ => false) = true →
      ∃ bs, (readVirt s u r 1 a n).2 = .ok bs ∧ ofBytes bs = v := by
    intro s u a n v r h
    split at h
    · rename_i b hb; exact ⟨b, hb, by simpa using h⟩
    · exact absurd h (by simp)
  refine ⟨by rfl, fun k h => ?_, ⟨ok_of (by decide +kernel), by decide +kernel, by decide, by decide, by decide +kernel⟩, ⟨_, rfl, by decide +kernel⟩, ⟨_, rfl, by decide +kernel⟩,
    ⟨_, rfl, rfl, rfl, by decide, rfl, rfl⟩, ⟨ok8 (by decide +kernel), ok8 (by decide +kernel), by decide +kernel, by decide⟩, fun k h => ?_, ok_of (by decide +kernel), ⟨_, rfl, by decide⟩⟩
  · have h : k = 2 ∨ k = 3 := by simpa using h
    rcases h with rfl | rfl <;> exact ⟨_, rfl, rfl, rfl, rfl, by decide⟩
  · have h : k = 0 ∨ k = 1 ∨ k = 2 ∨ k = 3 := by simpa using h
    rcases h with rfl | rfl | rfl | rfl <;> exact ⟨_, rfl, rfl, by decide, by decide, by decide, rfl, rfl⟩

/-- A cohort whose save waits for an open interval, or for none. -/
def intervalSave (iv : Option Interval) : State :=
  { saving false with
    cohorts := [(1, { cohort1 with state := 5, slot := some 0 })], girders := [(0, { Girder.free with owner := some 1, opened := iv })] }
/-- A resident slot whose threads are over; its cohort has a region with a byte to write back, at a page as given. -/
def unbound (rs : Map Region) (tlb : List TlbEntry) : State :=
  { retiring [] Girder.free 1 with slots := [(0, ⟨2, 2, 1, 0, 0⟩)], cohorts := [(1, { cohort1 with regions := rs })], tlb := tlb, mem := [] }
/-- Its region. -/
def region : Map Region := [(0, ⟨0, 256, 0x20000, 0, [], [0], false⟩)]
/-- What stops its write-back, if it is done at once, without a translation, or fatally. -/
def stopOf (s : State) : Nat :=
  match (writeBackAll s 0 1 [0]).2 with | none => 0 | some (.missing ..) => 1 | some (.fatal _) => 2

theorem witness_SaveEvents_retire :
    (∃ x, getCohort (intervalSave (some interval)) 1 = some x ∧ x.state = 5 ∧ openInterval (intervalSave (some interval)) 1 = true) ∧
    (∃ x, getCohort (intervalSave none) 1 = some x ∧ x.state = 5 ∧ openInterval (intervalSave none) 1 = false) ∧
    (getSlot (unbound region []) 0).state = 2 ∧ (∃ x, getCohort (unbound region []) 1 = some x ∧ x.crews.headD 0 / 16 = 0 ∧ x.regions.map (·.1) = [0] ∧
      ∀ k ∈ x.crews, crewEnded (unbound region []) k = true ∧ crewQuiet (unbound region []) k = true) ∧
    (unbound region []).faults = [] ∧ stopOf (unbound region []) = 1 ∧
    stopOf (unbound region [⟨2, 0, 1, 0, 2 ^ 30, 2 ^ 50, true, true, true, 0, false⟩]) = 2 ∧
    (let s := unbound region [⟨2, 0, 1, 0, 2 ^ 30, 0, true, true, true, 0, false⟩]
     stopOf s = 0 ∧ (∀ y, getCohort (writeBackAll s 0 1 [0]).1 1 = some y → y.regions = []) ∧
       (getSlot (writeBackAll s 0 1 [0]).1 0).cohort = 1 ∧ crewEnded (writeBackAll s 0 1 [0]).1 0 = true) ∧
    (∃ s, s = { unbound region [] with faults := [(1, ⟨1, 0x20, 1, [.hive 5 1]⟩)] } ∧ ∃ f ∈ s.faults, .hive 5 1 ∈ f.2.reqs) := by
  refine ⟨⟨_, rfl, rfl, by decide⟩, ⟨_, rfl, rfl, by decide⟩, by decide, ⟨_, rfl, by decide, by decide, by decide⟩, rfl, by decide +kernel, by decide +kernel,
    ⟨by decide +kernel, ?_, by decide +kernel, by decide +kernel⟩, ⟨_, rfl, by decide⟩⟩
  intro y hy
  have : (getCohort (writeBackAll (unbound region [⟨2, 0, 1, 0, 2 ^ 30, 0, true, true, true, 0, false⟩]) 0 1 [0]).1 1).map (·.regions) = some [] := by
    decide +kernel
  rw [hy] at this; simpa using this

/-- What becomes of a node's status block: written, without a translation, or fatal. -/
def statusOf (tlb : List TlbEntry) : Nat :=
  let n := { graphNode 0 2 with stepDone := 1, retireTick := some 0 }
  match (hiveWrite { graph n with tlb := tlb } 0 1 0x25000 (statusBlock { graph n with tlb := tlb } n)).2 with
  | .ok _ => 0 | .error (.missing ..) => 1 | .error (.fatal _) => 2
/-- How far a node releases its successor: done, or stopped. -/
def releases (tlb : List TlbEntry) : Nat × Bool :=
  let n := { graphNode 0 2 with triggered := true }
  let r := walkSucc n 1 0 0 { graph n with tlb := tlb }
  (r.2.1, r.2.2.isNone)

theorem witness_NodeEvents_ends :
    [statusOf [⟨2, 0, 1, 0, 2 ^ 30, 0, true, true, true, 0, false⟩], statusOf [], statusOf [⟨2, 0, 1, 0, 2 ^ 30, 2 ^ 50, true, true, true, 0, false⟩]] = [0, 1, 2] ∧
    [releases [⟨2, 0, 1, 0, 2 ^ 30, 0, true, true, true, 0, false⟩], releases []] = [(1, true), (0, false)] ∧
    (∃ n, n = { graphNode 0 2 with triggered := true } ∧ n.trigDone < n.nsucc) ∧ (∃ n, n = { graphNode 0 2 with triggered := true, trigDone := 1 } ∧ n.nsucc ≤ n.trigDone) ∧
    (∀ x ∈ [(1, 0), (0, 1)], ∃ n, n = { graphNode 0 2 with stepDone := 1, maxGwct := x.1, children := x.2 } ∧ ((graph n).span < n.maxGwct ∨ n.children ≠ 0)) ∧
    (∃ n, n = { graphNode 0 2 with stepDone := 2, failed := some 0x300 } ∧ n.triggered = false ∧ workOver (graph n) 5 n = true) ∧
    (∃ n, n = { graphNode 0 2 with stepDone := 3 } ∧ n.nsucc = n.stepDone - 2 ∧ n.failed = none ∧ n.triggered = false) := by
  refine ⟨by decide +kernel, by decide +kernel, ⟨_, rfl, by decide⟩, ⟨_, rfl, by decide⟩, fun x h => ⟨_, rfl, ?_⟩, ⟨_, rfl, rfl, by decide⟩, ⟨_, rfl, rfl, rfl, rfl⟩⟩
  have h : x = (1, 0) ∨ x = (0, 1) := by simpa using h
  rcases h with rfl | rfl <;> decide

/-- A thread deferred at a split until thread 1 has come to the join, with the core cycles that have passed since. -/
def deferring (mate : Thread) (cycles : Nat) : State :=
  { base with threads := [(0, { thr with status := .deferred }), (1, mate)], opens := [], deferrals := [⟨0, 0x20000, [1], 0⟩], cycles := [(0, 20 * cycles)] }
/-- A thread that reached an enabled breakpoint of its context's session, at 0x10004, the seventh. -/
def breaking : State :=
  { base with threads := [(0, { thr with stopReq := false })], session := some 1, bar0 := [(0x840, 0x10005)] }
/-- A thread parked in its group at a word, as given. -/
def parkedAt (w : Word) (th : Thread) (span : Nat) : State := { base with threads := [(0, th)], opens := [], parked := [{ grp with code := [w] }], span := span }

theorem witness_ThreadEvents :
    (State.reset.deferrals = [] ∧ (∃ d, ((deferring { thr with status := .exited } 0).deferrals.find? fun d => d.thread == 0) = some d ∧ ∀ v ∈ d.waits, v = 1) ∧
      (⟨0, 0x20000, [1], 0⟩ : Deferral).start + 20 * 4096 ≤ cyclesOf (deferring thr 4096) (coreDie (0 / 1024)) ∧
      ¬ (⟨0, 0x20000, [1], 0⟩ : Deferral).start + 20 * 4096 ≤ cyclesOf (deferring thr 4095) (coreDie (0 / 1024))) ∧
    (∃ g, (breaking.opens.find? fun g => g.members.contains 0) = some g ∧ breaking.session = some thr.lc.asid ∧ g.pc = 0x10004 ∧
      (bar0 breaking (0x808 + 8 * 7)).getLsbD 0 = true ∧ (bar0 breaking (0x808 + 8 * 7)).toNat / 4 % 2 ^ 55 = g.pc.toNat / 4 ∧
      (∀ j < 7, ¬ (bar0 breaking (0x808 + 8 * j)).getLsbD 0 = true) ∧ thr.cocoon = none ∧ g.idx < g.code.length) ∧
    (∀ rs ∈ [[], [(⟨2, 0x12, 0, none⟩ : Report)], [⟨2, 0x12, 0, none⟩, ⟨1, 0x12, 0, none⟩]], ∃ g th, th = { thr with status := .exiting, level := 0, reports := rs } ∧ groupOf (parkedAt 0xC0000047 th 0) 0 = some g ∧
      getThread (parkedAt 0xC0000047 th 0) 0 = some th ∧ (¬ (th.status ≠ .exiting ∨ ∃ k, k < 4 ∧ readDc th k ≠ 0)) ∧ handlerOf th = some (1, 0x20000)) ∧
    (¬ direct ⟨2, 0x12, 0, none⟩ ∧ direct ⟨1, 0x12, 0, none⟩ ∧ direct ⟨0, 0x12, 0, none⟩) ∧
    (∀ n ∈ [0, 9, 10], ∃ g th r w, th = { thr with status := .parked, watch := some (1, false), wait := some ⟨waitmKind, 10, 0⟩ } ∧
      groupOf (parkedAt 0xAC804027 th n) 0 = some g ∧ th.wait = some w ∧ syncOf g.word = some r ∧ r.fn = 2 ∧ w.kind = waitmKind ∧ th.watch = some (1, false) ∧ w.a ≠ 0) := by
  refine ⟨⟨rfl, ⟨_, rfl, by decide⟩, by decide, by decide⟩, ⟨_, by rfl, rfl, rfl, by decide, by decide, by decide, rfl, by decide⟩, fun rs h => ?_,
    ⟨by simp [direct], by simp [direct], by simp [direct]⟩, fun n _ => ⟨_, _, _, _, rfl, rfl, rfl, by rfl, by decide, rfl, rfl, by decide⟩⟩
  have h : rs = [] ∨ rs = [⟨2, 0x12, 0, none⟩] ∨ rs = [⟨2, 0x12, 0, none⟩, ⟨1, 0x12, 0, none⟩] := by simpa using h
  rcases h with rfl | rfl | rfl <;> exact ⟨_, _, rfl, rfl, rfl, by rintro (h | ⟨k, _, hk⟩) <;> [exact h rfl; exact hk (by rfl)], by decide⟩

theorem witness_ClauseEvents :
    (State.reset.parked[0]? = none) ∧
    (∀ x ∈ [((0xC0000007 : Word), (none : Option WaitRec)), (0xAC804027, some ⟨doneKind, 0, 0⟩)], ∃ s g th, th = { thr with status := .parked, wait := x.2 } ∧ s = parkedAt x.1 th 0 ∧
      s.parked[0]? = some g ∧ g.ahead = false ∧ g.members = [0] ∧ (∀ u ∈ g.members, u = 0 ∧ getThread s u = some th ∧ th.status = .parked ∧ th.wait = x.2) ∧
      g.core ∉ s.halted ∧ powerState s (coreDie g.core) < 2 ∧ (s.opens.filter fun y => y.core == g.core).length < 8 ∧ g.idx < g.code.length ∧
      (x.2 = none ∨ syncOf g.word ≠ none)) ∧
    (∃ s e, s = { withThr mapped (fun th => { th with status := .ready, pc := 0x20000 }) with opens := [] } ∧ readyParked s 0 = none ∧
      0 ∉ (gatherCore s 0).halted ∧ powerState (gatherCore s 0) (coreDie 0) < 2 ∧ ((gatherCore s 0).opens.filter fun x => x.core == 0).length < 8 ∧
      coreSwarm (gatherCore s 0) 0 = [e] ∧ e.members = [0] ∧
      (fetchClause (gatherCore s 0) 0 (((getThread (gatherCore s 0) 0).map fun th => th.lc.asid).getD 0) e.pc.toNat).2 = .ok 0xB1000000 [0xC0000007] ∧
      (legalClause 0xB1000000 [0xC0000007] 0).isSome = true) ∧
    (∃ s, s = parkedAt 0xC0000007 { thr with status := .parked } 0 ∧ readyParked s 0 = some 0) := by
  refine ⟨rfl, fun x h => ?_, ⟨_, ⟨swarmSet 0x20000, 0x20000, 2, 2, [0], 0, false, 0⟩, rfl, by rfl, by decide, by decide, by decide, by rfl, rfl, by rfl, by decide⟩, ⟨_, rfl, by decide +kernel⟩⟩
  have h : x = (0xC0000007, none) ∨ x = (0xAC804027, some ⟨doneKind, 0, 0⟩) := by simpa using h
  rcases h with rfl | rfl <;>
  exact ⟨_, _, _, rfl, rfl, rfl, rfl, rfl, fun u hu => (by have : u = 0 := (by simpa [grp] using hu); subst this; exact ⟨rfl, rfl, rfl, rfl⟩), by decide, by decide, by decide, by decide, by decide⟩

/-- Lane 0 of a crew has joined a rendezvous over all lanes, alone in its crew or with a lane that has not come. -/
def joined (mates : List (Nat × Thread)) : State :=
  let th := { meeting thr with status := .parked, pc := 0x10004, wait := some ⟨joinedKind, 1, 0⟩ }
  { base with threads := (0, th) :: mates, opens := [], parked := [{ grp with code := [0xB0C10DA7] }] }

theorem witness_GatheringEvents :
    (joinedThreads State.reset 0 0x10004 2 = []) ∧
    (∃ th g r, joinedThreads (joined []) 0 0x10004 2 = [(0, th)] ∧ groupOf (joined []) 0 = some g ∧ rdvzOf g.word = some r ∧ r.fn ≠ 13 ∧ r.fn ≠ 9 ∧
      ∀ l < 64, laneArrived (joined []) 0 0x10004 2 l = true) ∧
    laneArrived (joined [(1, thr)]) 0 0x10004 2 1 = false ∧
    (∃ s x, s = { base with cohorts := [(1, arrived)] } ∧ getK s.cohorts 1 = some x ∧ (∃ y ∈ (getBarrier x 15).arrivals, y.1 = 0) ∧
      (∃ th, getThread s 0 = some th ∧ th.lc.cohort = 1 ∧ th.over = false) ∧ ∀ n, getK s.nodes x.node = some n → n.det = false) ∧
    (getBarrier cohort1 15).arrivals = [] ∧
    (∃ n, getK (flushing 0).nodes 2 = some n ∧ n.det = false ∧ ¬ n.grid.1 * n.grid.2.1 * n.grid.2.2 ≤ n.nextUnit) ∧
    (∃ s n, s = { flushing 0 with nodes := base.nodes } ∧ getK s.nodes 2 = some n ∧ n.det = false ∧ n.grid.1 * n.grid.2.1 * n.grid.2.2 ≤ n.nextUnit ∧
      (∀ v th, getThread s v = some th → th.lc.node = 2 → InFlush th) ∧ (∀ c ∈ s.cohorts, c.2.node = 2 → c.2.saved = []) ∧
      ∃ v th, getThread s v = some th ∧ th.lc.node = 2 ∧ th.over = false) := by
  obtain ⟨n, hn, hd, hg, hu, hc⟩ := base_node
  refine ⟨by decide, ⟨_, _, _, by rfl, by rfl, by rfl, by decide, by decide, by decide⟩, by decide,
    ⟨_, _, rfl, rfl, by decide, ⟨_, base_thread, by decide, by decide⟩, fun m hm => ?_⟩, rfl, ⟨_, by rfl, by decide, by decide⟩,
    ⟨_, n, rfl, hn, hd, by rw [hg, hu]; decide, fun v th h _ => ?_, ?_, 0, _, rfl, by decide, by decide⟩⟩
  · have hm : getK base.nodes 2 = some m := hm
    rw [hn] at hm; obtain rfl : n = m := by simpa using hm
    exact hd
  · have := only_of (x := { thr with wait := some ⟨flushdKind, 0, 0⟩ }) (by rfl) h
    rw [this.2]; exact Or.inr ⟨_, rfl, rfl⟩
  · show ∀ c ∈ base.cohorts, c.2.node = 2 → c.2.saved = []
    rw [hc]; decide

/-- A thread in a loop whose one clause, at 0x20000, its loop buffer holds. -/
def buffered : Thread := { thr with loops := [⟨5, 0x20000, 0x20008⟩], loopBuf := [(0x20000, [0xB1000000, 0xC0000007])], pc := 0x20000, status := .ready }

theorem witness_ClauseEvents_parked :
    (∀ x ∈ [((0xC0000007 : Word), (none : Option WaitRec)), (0xAC804027, some ⟨doneKind, 0, 0⟩)],
      readyParked (parkedAt x.1 { thr with status := .parked, wait := x.2 } 0) 0 = some 0 ∧ grp.members.Nodup) ∧
    (∃ s g, s = parkedAt 0xC0000007 { thr with status := .parked } 0 ∧ s.parked[0]? = some g ∧ lanesFree s g ∧ (s.opens.filter fun x => x.core == g.core).length < 8) ∧
    (∃ s g, s = { parkedAt 0xC0000007 { thr with status := .parked } 0 with slots := [(0, ⟨1, 2, 1, 0, 0⟩)] } ∧ s.parked[0]? = some g ∧ ¬ lanesFree s g) ∧
    (∃ s g, s = { base with opens := [], parked := [{ grp with ahead := true }] } ∧ s.parked[0]? = some g ∧ g.ahead = true ∧ g.members = [0] ∧ cocoonLoose s 0 = false) ∧
    (inBuffer buffered 0x20000 = true ∧ getK buffered.loopBuf 0x20000 = some [0xB1000000, 0xC0000007]) ∧ getK thr.loopBuf 0x20000 = none := by
  refine ⟨fun x h => ?_, ⟨_, _, rfl, rfl, ⟨by decide, fun u hu => ?_⟩, by decide⟩, ⟨_, _, rfl, rfl, ?_⟩, ⟨_, _, rfl, rfl, rfl, rfl, by decide⟩, ⟨by decide, rfl⟩, rfl⟩
  · have h : x = (0xC0000007, none) ∨ x = (0xAC804027, some ⟨doneKind, 0, 0⟩) := by simpa using h
    rcases h with rfl | rfl <;> exact ⟨by decide +kernel, by decide⟩
  · obtain rfl : u = 0 := by simpa [grp] using hu
    exact ⟨_, rfl, rfl, by decide, by decide, by decide, cohort1, by rfl, .inl rfl⟩
  · rintro ⟨-, h⟩
    obtain ⟨th, -, -, hs, -⟩ := h 0 (List.mem_cons_self ..)
    exact absurd hs (by decide)

/-- A machine with one access of thread 0 in flight. -/
def inFlight (x : Access) : State := { mapped with access := [x] }

theorem witness_AccessEvents :
    findAccess base 9 = none ∧
    (∀ k ∈ [AccKind.load, .store, .atom, .red], ∀ a ∈ [true, false], ∃ x, x = { flight with kind := k, arrived := a } ∧ findAccess (inFlight x) 9 = some x ∧ x.kind = k ∧ x.arrived = a) ∧
    (∃ pa bs th, flight.arrived = false ∧ flight.writes = [(pa, bs)] ∧ getThread (inFlight flight) flight.thread = some th ∧ memWf (inFlight flight).mem = true ∧
      ¬ ∃ y ∈ (inFlight flight).access.takeWhile fun y => y.id != 9, y.arrived = false) ∧
    (∃ s, s = { mapped with access := [{ flight with id := 8 }, flight] } ∧
      ∃ y ∈ s.access.takeWhile fun y => y.id != 9, y.arrived = false ∧ nearPlace s y.core = nearPlace s flight.core ∧ sameLine flight y = true) ∧
    -- data that wait for a write that they come from, and samples of each kind
    (∃ s x, x = { flight with kind := .load, writes := [], arrived := true, after := [8] } ∧ s = { mapped with access := [{ flight with id := 8 }, x] } ∧
      findAccess s 9 = some x ∧ ¬ ∀ y ∈ s.access, y.id ∈ x.after → y.arrived = true) ∧
    (∀ k ∈ [AccKind.load, .store, .atom, .red], ∃ x, x = { flight with kind := k, arrived := true, sampled := true } ∧ findAccess (inFlight x) 9 = some x ∧
      ∀ y ∈ (inFlight x).access, y.id ∈ x.after → y.arrived = true) :=
  ⟨by rfl, fun _ _ _ _ => ⟨_, rfl, rfl, rfl, rfl⟩, ⟨_, _, _, rfl, rfl, by rfl, by decide, by decide⟩, ⟨_, rfl, by decide⟩, ⟨_, _, rfl, rfl, rfl, by decide⟩,
    fun _ _ => ⟨_, rfl, rfl, by simp [flight, inFlight]⟩⟩

theorem witness_MemoryEvents :
    (isHostPa (5 * 128) = false ∧ isHostPa (2 ^ 44 * 128) = true) ∧ 16 ≤ 16 ∧
    ((15 : Nat) < 16 ∧ (0 : Nat) < 64 ∧ getThread base ((0 * 16 + 0) * 64 + 0) = some thr ∧ 255 < thr.lc.stack ∧ (coreRows base 0).length < 32) ∧
    ((∀ th, getThread base ((0 * 16 + 1) * 64 + 0) = some th → th.lc.stack ≤ 0) ∧ [0, 2, 1, 3, 4, 5, 6, 7].length = 8) ∧
    (3 < 4 ∧ 4 ≤ 4) ∧ (∃ g, getK (arrayed Girder.free).girders 0 = some g) :=
  ⟨by decide, by decide, ⟨by decide, by decide, base_thread, by decide, by decide⟩,
    ⟨fun th h => absurd h (by rw [show getThread base ((0 * 16 + 1) * 64 + 0) = none from by rfl]; simp), rfl⟩, by decide, _, rfl⟩

theorem base_awake : Awake base := by
  intro e h; exact absurd h (by simp [show base.power = [] from by rfl])

theorem witness_StepRunsDecodedWord :
    (∃ s1, TurnOf base s1 0 [] grp ∧ decode (grp.code.getD grp.idx 0) = .ok (.nop false 7)) ∧
    (∃ s s1 w e, s = { base with opens := [{ grp with code := [w] }] } ∧ TurnOf s s1 0 [] { grp with code := [w] } ∧ decode w = .error e) ∧
    (∃ s, s = { State.reset with agenda := [.packageReset] } ∧ s.agenda = [.packageReset] ∧ encode .packageReset = none) ∧
    (Awake State.reset ∧ State.reset.agenda = [] ∧ State.reset.turns = []) ∧
    (∃ s e, s = { base with power := [(3, (4, 0))] } ∧ s.power.find? (fun e => e.2.1 == 4) = some e) :=
  ⟨⟨_, ⟨base_awake, by rfl, by rfl, rfl, by rfl, by decide, by decide, by decide, by rfl⟩, by rfl⟩,
    ⟨_, _, 0, .instruction, rfl, ⟨base_awake, by rfl, by rfl, rfl, by rfl, by decide, by decide, by decide, by rfl⟩, by rfl⟩, ⟨_, rfl, rfl, by rfl⟩,
    ⟨fun e h => absurd h (by simp [State.reset]), rfl, rfl⟩, ⟨_, _, rfl, by rfl⟩⟩

/-- A machine like `base` at trap level 0 whose group issues a given word. -/
def issuingWord (w : Word) : State := { withThr base low with opens := [{ grp with code := [w] }] }

theorem witness_IllegalWords :
    (∃ e, Issues (issuingWord 0) { grp with code := [0] } ∧ decode 0 = .error e ∧ e ≠ .operand ∧ getThread (issuingWord 0) 0 = some (low thr) ∧
      handlerOf (low thr) = some (1, 0x20000) ∧ readPred (low thr) (predOf 0).toNat = true) ∧
    (Issues (issuingWord 0xC0100007) { grp with code := [0xC0100007] } ∧ decode 0xC0100007 = .error .operand ∧ readPred (low thr) (predOf 0xC0100007).toNat = true) ∧
    (Issues (issuingWord 0xC0100000) { grp with code := [0xC0100000] } ∧ decode 0xC0100000 = .error .operand ∧ readPred (low thr) (predOf 0xC0100000).toNat = false) :=
  ⟨⟨.instruction, ⟨rfl, rfl, by decide⟩, by rfl, by decide, rfl, by decide, by decide⟩, ⟨⟨rfl, rfl, by decide⟩, by rfl, by decide⟩, ⟨⟨rfl, rfl, by decide⟩, by rfl, by decide⟩⟩

theorem witness_WordsAndInstructions : wellFormed (.iadd 59 59 59 true 7) = true ∧ ∃ w, encode (.iadd 59 59 59 true 7) = some w ∧ decode w = .ok (.iadd 59 59 59 true 7) :=
  ⟨by rfl, _, rfl, by rfl⟩

theorem witness_StepKeepsMemoryForm : State.Inv mapped ∧ State.Inv State.reset := ⟨by unfold State.Inv; decide, by unfold State.Inv; decide⟩

theorem witness_OperandCodes : (1 : Nat) ≠ 0 := by decide

theorem witness_RoundingIsRight : b16 ∈ [b64, b32, b16, bf16] ∧ 0 < 3 ∧ (2 : ℚ) ^ (-1 : ℤ) ≤ ((3 : Nat) : ℚ) * 2 ^ (-2 : ℤ) ∧ ((3 : Nat) : ℚ) * 2 ^ (-2 : ℤ) < (2 : ℚ) ^ ((-1 : ℤ) + 1) := by
  refine ⟨by simp, by decide, by norm_num, by norm_num⟩

/-- 1.0, -1.0 and 2.0 in binary16: a sum that is 0 and one that is not. -/
theorem witness_ArithmeticIsExactThenRounded :
    realOf b16 0x3C00 = some 1 ∧ realOf b16 0xBC00 = some (-1) ∧ realOf b16 0x4000 = some 2 ∧ (1 : ℚ) + -1 = 0 ∧ (1 : ℚ) + 2 ≠ 0 := by
  have h1 : fval b16 0x3C00 = .fin false 0x400 (-10) := by decide
  have h2 : fval b16 0xBC00 = .fin true 0x400 (-10) := by decide
  have h3 : fval b16 0x4000 = .fin false 0x400 (-9) := by decide
  refine ⟨?_, ?_, ?_, by norm_num, by norm_num⟩ <;> simp only [realOf, h1, h2, h3] <;> norm_num

/-! Words written out from the fixed bits and field places of each row of the opcode table (R34, R44-R47), with a different pattern in
every field, decode to the instruction of the row with those fields. -/

theorem test_decodeInteger :
    [
      0x06A5730D, 0x06A5731D, 0x06A5732D, 0x06A5733D, 0x06A5734D, 0x06A5735D, 0x06A5736D, 0x06A5737D, 0x06A5738D, 0x06A5739D, 0x06A573AD,
      0x06A573BD, 0x06A573CD, 0x06A573DD, 0x06A573ED, 0x06A573FD, 0x0AA5730D, 0x0AA5731D, 0x0AA5402D, 0x0AA5403D, 0x0AA5404D, 0x0AA5405D,
      0x0AA5736D, 0x0AA5737D, 0x0AA5738A, 0x0AA5739D, 0x0AA573AD, 0x0AA573BD, 0x0AA573CD, 0x0AA573DD, 0x0EA5730D, 0x0EA5731D, 0x0EA5732D,
      0x0EA5733D, 0x0EA5734D, 0x0EA5405D, 0x0EA5736D, 0x0EA5737D, 0x12A5733B, 0x16A56973, 0x1AA56973, 0x1EA56973, 0x22A56973, 0x26A56973,
      0x2AA564B7, 0x2EAABCDE, 0x32AABCDE].map decode =
    [
      .ok (.iadd 42 21 51 true 5), .ok (.isub 42 21 51 true 5), .ok (.imul 42 21 51 true 5), .ok (.imulh 42 21 51 true 5),
      .ok (.imulhu 42 21 51 true 5), .ok (.and 42 21 51 true 5), .ok (.or 42 21 51 true 5), .ok (.xor 42 21 51 true 5),
      .ok (.andn 42 21 51 true 5), .ok (.shl 42 21 51 true 5), .ok (.shr 42 21 51 true 5), .ok (.sra 42 21 51 true 5),
      .ok (.rotl 42 21 51 true 5), .ok (.min 42 21 51 true 5), .ok (.max 42 21 51 true 5), .ok (.absd 42 21 51 true 5),
      .ok (.minu 42 21 51 true 5), .ok (.maxu 42 21 51 true 5), .ok (.popc 42 21 true 5), .ok (.clz 42 21 true 5),
      .ok (.ctz 42 21 true 5), .ok (.brev 42 21 true 5), .ok (.bfx 42 21 51 true 5), .ok (.bfi 42 21 51 true 5),
      .ok (.sel 42 21 51 true 2), .ok (.lea 42 21 51 true 5), .ok (.idiv 42 21 51 true 5), .ok (.idivu 42 21 51 true 5),
      .ok (.irem 42 21 51 true 5), .ok (.iremu 42 21 51 true 5), .ok (.iadd64 42 21 51 true 5), .ok (.isub64 42 21 51 true 5),
      .ok (.shl64 42 21 51 true 5), .ok (.shr64 42 21 51 true 5), .ok (.sra64 42 21 51 true 5), .ok (.mov64 42 21 true 5),
      .ok (.lea64 42 21 51 true 5), .ok (.imul64 42 21 51 true 5), .ok (.imad 42 21 51 14 true true), .ok (.iaddi 42 21 2652 true true),
      .ok (.iaddi64 42 21 2652 true true), .ok (.andi 42 21 2652 true true), .ok (.ori 42 21 2652 true true),
      .ok (.xori 42 21 2652 true true), .ok (.shfi 42 21 9 45 true true), .ok (.lui 42 703710), .ok (.auipc 42 703710)] := by rfl

theorem test_decodeFloat :
    [
      0x36A5730D, 0x36A5731D, 0x36A5732D, 0x36A5733D, 0x36A5404D, 0x36A5735D, 0x36A5736D, 0x36A5737D, 0x36A5738D, 0x36A5409D, 0x36A540AD,
      0x36A573BD, 0x36A542CD, 0x36A540DD, 0x3AA5733B, 0x3EA5733B, 0x42A5733B, 0x46A5730D, 0x46A5731D, 0x46A5732D, 0x46A5733D, 0x46A5404D,
      0x46A5735D, 0x46A5736D, 0x46A5737D, 0x46A5738D, 0x46A5409D, 0x46A540AD, 0x46A573BD, 0x46A542CD, 0x46A540DD, 0x4AA5733B, 0x4EA5733B].map decode =
    [
      .ok (.fadd 42 21 51 true 5), .ok (.fsub 42 21 51 true 5), .ok (.fmul 42 21 51 true 5), .ok (.fdiv 42 21 51 true 5),
      .ok (.fsqrt 42 21 true 5), .ok (.fmin 42 21 51 true 5), .ok (.fmax 42 21 51 true 5), .ok (.fminm 42 21 51 true 5),
      .ok (.fmaxm 42 21 51 true 5), .ok (.fabs 42 21 true 5), .ok (.fneg 42 21 true 5), .ok (.fcpys 42 21 51 true 5),
      .ok (.frnd 42 21 2 true 5), .ok (.fclass 42 21 true 5), .ok (.ffma 42 21 51 14 true true), .ok (.ffms 42 21 51 14 true true),
      .ok (.ffnma 42 21 51 14 true true), .ok (.dadd 42 21 51 true 5), .ok (.dsub 42 21 51 true 5), .ok (.dmul 42 21 51 true 5),
      .ok (.ddiv 42 21 51 true 5), .ok (.dsqrt 42 21 true 5), .ok (.dmin 42 21 51 true 5), .ok (.dmax 42 21 51 true 5),
      .ok (.dminm 42 21 51 true 5), .ok (.dmaxm 42 21 51 true 5), .ok (.dabs 42 21 true 5), .ok (.dneg 42 21 true 5),
      .ok (.dcpys 42 21 51 true 5), .ok (.drnd 42 21 2 true 5), .ok (.dclass 42 21 true 5), .ok (.dfma 42 21 51 14 true true),
      .ok (.dfms 42 21 51 14 true true)] := by rfl

theorem test_decodePackedAndSpecial :
    [
      0x52A5730D, 0x52A5731D, 0x52A5732D, 0x52A5733D, 0x52A5734D, 0x52A5405D, 0x52A5406D, 0x56A5733B, 0x5AA5730D, 0x5AA5731D, 0x5AA5732D,
      0x5AA5733D, 0x5AA5734D, 0x5AA5735D, 0x5AA5736D, 0x5EA5400D, 0x5EA5401D, 0x5EA5402D, 0x5EA5403D, 0x5EA5404D, 0x5EA5405D, 0x5EA5406D,
      0x62A55A9D, 0x66A5730D, 0x66A5731D, 0x66A5402D, 0x66A5403D, 0x66A5734D].map decode =
    [
      .ok (.hadd2 42 21 51 true 5), .ok (.hsub2 42 21 51 true 5), .ok (.hmul2 42 21 51 true 5), .ok (.hmin2 42 21 51 true 5),
      .ok (.hmax2 42 21 51 true 5), .ok (.habs2 42 21 true 5), .ok (.hneg2 42 21 true 5), .ok (.hfma2 42 21 51 14 true true),
      .ok (.vaddH2 42 21 51 true 5), .ok (.vsubH2 42 21 51 true 5), .ok (.vaddsH2 42 21 51 true 5), .ok (.vsubsH2 42 21 51 true 5),
      .ok (.vmaxH2 42 21 51 true 5), .ok (.vminH2 42 21 51 true 5), .ok (.acsH2 42 21 51 true 5), .ok (.fexp2 42 21 true 5),
      .ok (.flog2 42 21 true 5), .ok (.fsin 42 21 true 5), .ok (.fcos 42 21 true 5), .ok (.frcp 42 21 true 5), .ok (.frsq 42 21 true 5),
      .ok (.ftanh 42 21 true 5), .ok (.cvt 42 21 6 2 9 true 5), .ok (.zpackZ8 42 21 51 true 5), .ok (.zpackZ6 42 21 51 true 5),
      .ok (.zunpkZ8 42 21 true 5), .ok (.zunpkZ6 42 21 true 5), .ok (.zscale 42 21 51 true 5)] := by rfl

theorem test_decodeComparesAndMoves :
    [
      0x6AA57355, 0x6EA573D5, 0x72A573D5, 0x76A57355, 0x76A573C5, 0x7AA57305, 0x7AA57315, 0x7AA57325, 0x7AA54035, 0x7AA54045, 0x7AA54055,
      0x7AA54065, 0x7AA00165, 0x7EA5400D, 0x7EA0331D, 0x7C057325, 0x7EA5403D, 0x7EA5404D, 0x82A54A0D, 0x82A5421D, 0x82A5422D, 0x82A5483D,
      0x82A5484D, 0x82A5735D, 0x82A5406D, 0x82A5407D].map decode =
    [
      .ok (.cmpi 42 21 51 5 false 5), .ok (.cmpf 42 21 51 13 false 5), .ok (.cmpd 42 21 51 13 false 5), .ok (.cmph2 42 21 51 5 false 5),
      .ok (.cmpz 42 21 51 4 false 5), .ok (.pand 42 21 51 false 5), .ok (.por 42 21 51 false 5), .ok (.pxor 42 21 51 false 5),
      .ok (.pnot 42 21 false 5), .ok (.pmov 42 21 false 5), .ok (.pset 42 21 false 5), .ok (.gset 42 21 false 5),
      .ok (.gsetOpen 42 false 5), .ok (.mov 42 21 true 5), .ok (.srd 42 51 true 5), .ok (.swr 21 51 false 5), .ok (.ldkW 42 21 true 5),
      .ok (.ldkD 42 21 true 5), .ok (.tseed 42 21 true 2 true 5), .ok (.tget 42 21 2 true 5), .ok (.tset 42 21 2 true 5),
      .ok (.tzero 42 21 true true 5), .ok (.tmov 42 21 true true 5), .ok (.dext 42 21 51 true 5), .ok (.foot 42 21 true 5),
      .ok (.motv 42 21 true 5)] := by rfl

theorem test_decodeMemory :
    [
      0x86A56AB5, 0x8AA56AB5, 0x8EA56AB5, 0x92A56AB5, 0x96A56AB5, 0x9AA56AB5, 0x9EA56AB5, 0xA0056AB1, 0xA6A573D5, 0xA80573C5].map decode =
    [
      .ok (.ld 42 21 341 2 2 true), .ok (.st 42 21 341 2 2 true), .ok (.lds 42 21 341 2 2 true), .ok (.sts 42 21 341 2 2 true),
      .ok (.ldt 42 21 341 false 2 true), .ok (.stt 42 21 341 false 2 true), .ok (.ldc 42 21 341 2 2 true), .ok (.prf 21 341 2 true),
      .ok (.atom 42 21 51 13 2 true), .ok (.red 21 51 12 2 true)] := by rfl

theorem test_decodeSyncAndExchange :
    [
      0xAC000205, 0xAC054015, 0xAEA5402D, 0xAC054235, 0xAC054245, 0xAC054055, 0xAEA0006D, 0xAC054075, 0xAC000085, 0xAC000095, 0xB2A5730D,
      0xB2A5731D, 0xB2A5732D, 0xB2A5733D, 0xB2A5734D, 0xB2A57355, 0xB2A57365, 0xB2A57375, 0xB2A5738D, 0xB2A5739D, 0xB2A573AD, 0xB2A573BD,
      0xB6A5730D, 0xB6A5731D, 0xB6A5402D, 0xB6A5403D].map decode =
    [
      .ok (.fence 2 false 5), .ok (.watch 21 false 5), .ok (.waitm 42 21 true 5), .ok (.bar 21 2 false 5), .ok (.bara 21 2 false 5),
      .ok (.barw 21 false 5), .ok (.seal 42 true 5), .ok (.waitb 21 false 5), .ok (.trig false 5), .ok (.flushd false 5),
      .ok (.lgetAt 42 21 51 true 5), .ok (.lgetLower 42 21 51 true 5), .ok (.lgetHigher 42 21 51 true 5),
      .ok (.lgetFlip 42 21 51 true 5), .ok (.push 42 21 51 true 5), .ok (.voteAnd 42 21 51 false 5), .ok (.voteOr 42 21 51 false 5),
      .ok (.voteEqv 42 21 51 false 5), .ok (.ballot 42 21 51 true 5), .ok (.bfly 42 21 51 true 5), .ok (.compress 42 21 51 true 5),
      .ok (.expand 42 21 51 true 5), .ok (.hist 42 21 51 true 5), .ok (.hmerge 42 21 51 true 5), .ok (.osmx 42 21 true 5),
      .ok (.osmxf 42 21 true 5)] := by rfl

theorem test_decodeControl :
    [
      0xBAEAAAAA, 0xBEAAAAAB, 0xC0000005, 0xC0000015, 0xC0054025, 0xC0054035, 0xC0000045, 0xC0000055, 0xC0054065, 0xC4EA5000, 0xCA972940,
      0xCC054005, 0xCC000015, 0xCEA0332D, 0xCC057335, 0xCC054045].map decode =
    [
      .ok (.bra 5 true 5461 170), .ok (.call 44739243), .ok (.nop false 5), .ok (.yield false 5), .ok (.brx 21 false 5),
      .ok (.calli 21 false 5), .ok (.ret false 5), .ok (.exit false 5), .ok (.brk 21 false 5), .ok (.loop 14 165), .ok (.loopi 2652 165),
      .ok (.trap 21 false 5), .ok (.eret false 5), .ok (.srdp 42 51 true 5), .ok (.swrp 21 51 false 5), .ok (.halt 21 false 5)] := by rfl

theorem test_decodeCopyAndMatrix :
    [
      0xE0057300, 0xE0057302, 0xE0057304, 0xE0057386, 0xE0057308, 0xE005730A, 0xE000330C, 0xE000330E, 0xE4057300, 0xE4057302, 0xE4000044,
      0xE4057306, 0xE4000048, 0xE400330A, 0xE6A5400D, 0xE405730E, 0xE6A57351, 0xE6A57333, 0xE6A00055].map decode =
    [
      .ok (.cpyG2s 21 51), .ok (.cpyS2g 21 51), .ok (.cpyG2g 21 51), .ok (.cpyGath 21 51 4), .ok (.cpyFill 21 51), .ok (.cpyMap 21 51),
      .ok (.cpyUnmap 51), .ok (.cpyWb 51), .ok (.mtxMwld 21 51), .ok (.mtxMwscl 21 51), .ok (.mtxMswap 2), .ok (.mtxMstr 21 51),
      .ok (.mtxMprom 2), .ok (.mtxMzero 51), .ok (.mtxMrd 42 21), .ok (.mtxMwr 21 51), .ok (.mtxMout 42 21 51 2),
      .ok (.mtxMdrain 42 21 51 1), .ok (.mtxMstat 42 2)] := by rfl

theorem test_decodeOtherEngines :
    [
      0xE8054000, 0xEAA54003, 0xEAA54005, 0xEAA54007, 0xEAA54009, 0xEAA5400B, 0xEC054000, 0xEEA54003, 0xEEA54005, 0xEEA54007, 0xEEA54009,
      0xEEA5400B, 0xEEA5400D, 0xF2A57301, 0xF0003320, 0xF2A54003, 0xF2A54005, 0xF2A54007, 0xF2A54009, 0xF2A5400B, 0xF2A5730D, 0xF6A54021,
      0xF4003302, 0xF6A00005, 0xF4054006, 0xF8057300, 0xF8000002, 0xFAA54005, 0xFC057305, 0xFC054315, 0xFC054025].map decode =
    [
      .ok (.splScfg 21), .ok (.splSproj 42 21), .ok (.splSbin 42 21), .ok (.splSsort 42 21), .ok (.splSblend 42 21),
      .ok (.splSrepl 42 21), .ok (.slvCfg 21), .ok (.slvLu 42 21), .ok (.slvLus 42 21), .ok (.slvChol 42 21), .ok (.slvChs 42 21),
      .ok (.slvCg 42 21), .ok (.slvJac 42 21), .ok (.colGrp 42 21 51), .ok (.colGrpFree 51), .ok (.colAred 42 21), .ok (.colRsc 42 21),
      .ok (.colAgath 42 21), .ok (.colBcast 42 21), .ok (.colPut 42 21), .ok (.colWait 42 21 51), .ok (.grfLaunch 42 21 true),
      .ok (.grfQput 51), .ok (.grfQget 42), .ok (.grfNsig 21), .ok (.prbMark 21 51), .ok (.prbSamp), .ok (.prbRdx 42 21),
      .ok (.fork 21 51 false 5), .ok (.rdvz 21 3 false 5), .ok (.mburst 21 false 5)] := by rfl

theorem test_decodeEngine : decodeEngine 0xFC054315 = .ok (.rdvzEngine 21 3 false 5) ∧ decode 0xFC054315 ≠ .ok (.rdvzEngine 21 3 false 5) := ⟨by rfl, by intro h; cases h⟩

/-- The field values that the opcode map does not assign (R44, R46, R47) are ill formed, and the last assigned ones are not. -/
theorem test_wellFormedChecks :
    ([.cvt 0 0 0 0 10 false 7, .cmpf 0 0 0 14 false 7, .cmpd 0 0 0 14 false 7, .cmpz 0 0 0 6 false 7, .atom 0 0 0 14 0 false, .red 0 0 8 0 false,
      .red 0 0 9 0 false, .red 0 0 13 0 false, .rdvz 0 0 false 7, .rdvz 0 4 false 7, .cpyGath 0 0 5, .mtxMswap 3, .mtxMprom 3, .mtxMout 0 0 0 3,
      .mtxMdrain 0 0 0 2, .mtxMstat 0 3].all fun i => !wellFormed i) = true ∧
    ([.cvt 0 0 0 0 9 false 7, .cmpf 0 0 0 13 false 7, .cmpd 0 0 0 13 false 7, .cmpz 0 0 0 5 false 7, .atom 0 0 0 13 0 false, .red 0 0 7 0 false,
      .red 0 0 10 0 false, .red 0 0 12 0 false, .rdvz 0 1 false 7, .rdvz 0 3 false 7, .cpyGath 0 0 4, .mtxMswap 2, .mtxMprom 2, .mtxMout 0 0 0 2,
      .mtxMdrain 0 0 0 1, .mtxMstat 0 2].all wellFormed) = true := by decide

/-- Words of the reserved majors and of values that are not assigned do not decode (R34, R44, R49). -/
theorem test_illegalWords :
    ([0x00000007, 0xD0000007, 0xDC000007, 0xA60000E0, 0xC0000087, 0xC4800001].all fun w => match decode w with | .error .instruction => true | _ => false) =
      true := by decide

/-- A field that the member does not use is not zero (R39). -/
theorem test_unusedFields : ([0xC0100007, 0x08804127, 0xE4100102].all fun w => match decode w with | .error .operand => true | _ => false) = true := by decide

/-- nw is 0 in an instruction without a register result (R39, log 44). -/
theorem test_nwUnused :
    (([
      .cmpf 0 0 0 0 true 0, .cmpd 0 0 0 0 true 0, .cmpz 0 0 0 0 true 0, .rdvz 0 1 true 0, .pand 0 0 0 true 0, .por 0 0 0 true 0,
      .pxor 0 0 0 true 0, .pnot 0 0 true 0, .pmov 0 0 true 0, .pset 0 0 true 0, .gset 0 0 true 0, .gsetOpen 0 true 0, .cmpi 0 0 0 0 true 0,
      .cmph2 0 0 0 0 true 0, .swr 0 0 true 0, .swrp 0 0 true 0, .nop true 0, .yield true 0, .brx 0 true 0, .calli 0 true 0, .ret true 0,
      .exit true 0, .brk 0 true 0, .trap 0 true 0, .eret true 0, .halt 0 true 0, .fence 0 true 0, .watch 0 true 0, .bar 0 0 true 0,
      .bara 0 0 true 0, .barw 0 true 0, .waitb 0 true 0, .trig true 0, .flushd true 0, .voteAnd 0 0 0 true 0, .voteOr 0 0 0 true 0,
      .voteEqv 0 0 0 true 0, .fork 0 0 true 0, .mburst 0 true 0, .rdvzEngine 0 0 true 0] : List Instr).all fun i => !wellFormed i) = true := by decide

/-- The thread after an instruction of the group of `base`, its thread changed first. -/
def after (i : Instr) (f : Thread → Thread) : Option Thread :=
  match exec i (withThr base f) with
  | .next t => getThread t 0
  | _ => none
/-- Registers holding values with no tangents. -/
def holds (l : List (Nat × Word)) (th : Thread) : Thread := { th with regs := l.map fun x => (x.1, ⟨x.2, []⟩) }
/-- A register after an instruction on two operands, in registers 1 and 2. -/
def gives (i : Instr) (a b : Word) (d : Nat) : Option Word := (after i (holds [(1, a), (2, b)])).map fun th => (readReg th d).val
/-- The pair 8 after an instruction on pairs 2 and 4. -/
def givesPair (i : Instr) (a b : DWord) : Option DWord :=
  (after i (holds [(2, a.setWidth 32), (3, (a >>> 32).setWidth 32), (4, b.setWidth 32), (5, (b >>> 32).setWidth 32)])).map fun th =>
    (readReg th 9).val ++ (readReg th 8).val

-- Hand calculation from R114-R121: wraps, signs, the corners of division, shift counts modulo 32, ties and fields.
theorem test_iadd : gives (.iadd 8 1 2 false 7) 0xFFFFFFFF 2 8 = some 1 := by decide +kernel
theorem test_isub_same : gives (.isub 1 1 2 false 7) 0 1 1 = some 0xFFFFFFFF := by decide +kernel
theorem test_imulh : gives (.imulh 8 1 2 false 7) 0xFFFFFFFF 0xFFFFFFFF 8 = some 0 := by decide +kernel
theorem test_imulhu : gives (.imulhu 8 1 2 false 7) 0xFFFFFFFF 0xFFFFFFFF 8 = some 0xFFFFFFFE := by decide +kernel
theorem test_shl : gives (.shl 8 1 2 false 7) 1 33 8 = some 2 := by decide +kernel
theorem test_sra : gives (.sra 8 1 2 false 7) 0x80000000 31 8 = some 0xFFFFFFFF := by decide +kernel
theorem test_min : gives (.min 8 1 2 false 7) 0x80000000 1 8 = some 0x80000000 := by decide +kernel
theorem test_minu : gives (.minu 8 1 2 false 7) 0x80000000 1 8 = some 1 := by decide +kernel
theorem test_idiv : gives (.idiv 8 1 2 false 7) 0x80000000 0xFFFFFFFF 8 = some 0x80000000 := by decide +kernel
theorem test_irem : gives (.irem 8 1 2 false 7) 0xFFFFFFF9 0 8 = some 0xFFFFFFF9 := by decide +kernel
theorem test_iremSign : gives (.irem 8 1 2 false 7) 0xFFFFFFF9 3 8 = some 0xFFFFFFFF := by decide +kernel
theorem test_brev : gives (.brev 8 1 false 7) 1 0 8 = some 0x80000000 := by decide +kernel
theorem test_bfx : gives (.bfx 8 1 2 false 7) 0xDEADBEEF 0x0810 8 = some 0xAD := by decide +kernel
theorem test_discarded : (after (.iadd 0 1 2 true 7) (holds [(1, 5), (2, 6)])).map (fun th => ((readReg th 0).val, (readLatch th 0).lo.val, th.pc)) =
    some (0, 11, 0x10008) := by decide +kernel
theorem test_iadd64 : givesPair (.iadd64 8 2 4 false 7) 0x00000000FFFFFFFF 1 = some 0x100000000 := by decide +kernel

-- The two executions that R132 tabulates.
theorem test_acs : (after (.acsH2 8 1 2 false 7) fun th => { holds [(1, 0x005A0064), (2, 0x1E)] th with surv := 1 }).map (fun th => ((readReg th 8).val, th.surv)) =
    some (0x00780082, 6) := by decide +kernel
theorem test_acsSaturates : (after (.acsH2 8 1 2 false 7) fun th => { holds [(1, 0x80057FF8), (2, 0x1E)] th with surv := 1 }).map (fun th => ((readReg th 8).val, th.surv)) =
    some (0x7FDA7FFF, 4) := by decide +kernel

/-- 1 + 2^-24 and its negative in a rounding mode. -/
def rounded (rm : Word) (a b : Word) : Option (Word × Word) :=
  (after (.fadd 8 1 2 false 7) fun th => { holds [(1, a), (2, b)] th with fcr := rm }).map fun th => ((readReg th 8).val, th.fsr)
-- The table of R93, each result inexact (R97: NX is bit 4 of R65).
theorem test_faddModes : ([0, 1, 2, 3, 4].map fun m => rounded m 0x3F800000 0x33800000) =
    [0x3F800000, 0x3F800000, 0x3F800000, 0x3F800001, 0x3F800001].map fun x => some (x, 0x10) := by decide +kernel
theorem test_faddModesNegative : ([0, 1, 2, 3, 4].map fun m => rounded m 0xBF800000 0xB3800000) =
    [0xBF800000, 0xBF800000, 0xBF800001, 0xBF800000, 0xBF800001].map fun x => some (x, 0x10) := by decide +kernel
-- R94: the largest finite value doubled, with OF and NX.
theorem test_overflow : ([0, 1, 2, 3, 4].map fun m => rounded m 0x7F7FFFFF 0x7F7FFFFF) =
    [0x7F800000, 0x7F7FFFFF, 0x7F7FFFFF, 0x7F800000, 0x7F800000].map fun x => some (x, 0x14) := by decide +kernel
-- R97: division of 1 by 0 raises DZ, of 0 by 0 NV with the canonical NaN (R90).
theorem test_fdiv : (after (.fdiv 8 1 2 false 7) (holds [(1, 0x3F800000)])).map (fun th => ((readReg th 8).val, th.fsr)) = some (0x7F800000, 2) := by decide +kernel
theorem test_fdivInvalid : (after (.fdiv 8 1 2 false 7) id).map (fun th => ((readReg th 8).val, th.fsr)) = some (0x7FC00000, 1) := by decide +kernel
-- R130: elements of 2.0 and 1.0 added to 1.0 and 1.0.
theorem test_hadd2 : gives (.hadd2 8 1 2 false 7) 0x3C004000 0x3C003C00 8 = some 0x40004200 := by decide +kernel
-- R140: a quiet NaN makes an ordered compare false and raises nothing.
theorem test_cmpf : (after (.cmpf 3 1 2 0 false 7) (holds [(1, 0x7FC00000)])).map (fun th => (readPred th 3, th.fsr)) = some (false, 0) := by decide +kernel
-- R134: 2.5 to a signed integer, rounded to the nearest even.
theorem test_cvt : gives (.cvt 8 1 1 0 6 false 7) 0x40200000 0 8 = some 2 := by decide +kernel
-- R131: saturation of each half.
theorem test_vadds : gives (.vaddsH2 8 1 2 false 7) 0x7FFF8000 0x0001FFFF 8 = some 0x7FFF8000 := by decide +kernel
-- R228: the second bin, in the high half of register 20.
theorem test_hist : (after (.hist 20 1 4 false 7) (holds [(1, 1), (20, 0x0002FFFF)])).map (fun th => (readReg th 20).val) = some 0x0003FFFF := by decide +kernel
-- R144: the number of a lane's core, die 0; R65: the flags are sticky.
theorem test_srd : (after (.srd 8 25 false 7) id).map (fun th => (readReg th 8).val) = some 2 := by decide +kernel
-- R183, R188: a trap of a thread at level 1 goes to SHANDLER with cause 0x0F and the level in bits 9:8.
theorem test_trap : (after (.trap 1 false 7) fun th => { holds [(1, 77)] th with level := 1 }).map (fun th => (th.level, th.pc, th.rec2.cause, th.rec2.val, th.rec2.pc)) =
    some (2, 0x30000, 0x10F, 77, 0x10004) := by decide +kernel
-- R190: HALT ends a thread.
theorem test_halt : (after (.halt 1 false 7) id).map (·.status) = some .halted := by decide +kernel
-- R49: a step runs the word.
theorem test_step : (match step base with | .next t => (getThread t 0).map (·.pc) | _ => none) = some 0x10008 := by decide +kernel
theorem test_tableWord : decodeTableWord 32 0x04810507 = some (.iadd 8 4 5 false 7) := by rfl
theorem test_fetchWord : (match step (State.reset.withFetchWord 32 0x2C812345) with | .next t => (getThread t 0).map fun th => (readReg th 8).val | _ => none) =
    some 0x12345000 := by decide +kernel

end Sys2Proof.Tests
end

/-! Instruction words and instructions (R34, R44-R47): every word is built from its own fields, so that each answer of the decoder
encodes back to the word that it came from. -/

namespace Sys2Proof.Laws.Words

open Sys2Proof

set_option Elab.async false

/-- A bit tested and read back. -/
theorem toNat_decide_bit (n : Nat) : (decide (n % 2 = 1)).toNat = n % 2 := by
  rcases Nat.mod_two_eq_zero_or_one n with h | h <;> simp [h]

/-- A word is the format-A word of its fields. -/
theorem encA_fields (w : Word) : encA (opF w) (dF w) (aF w) (bF w) (fnF w) (nF w) (pF w) = w := by
  have hw := w.isLt
  apply BitVec.eq_of_toNat_eq
  rw [encA_toNat]
  simp only [opF, dF, aF, bF, fnF, nF, pF, BitVec.toNat_ofNat, toNat_decide_bit]
  omega

/-- A word is built in format A exactly from its own fields. -/
@[simp] theorem encA_eq_iff {w : Word} {op d a b : BitVec 6} {fn : BitVec 4} {n : Bool} {p : BitVec 3} :
    encA op d a b fn n p = w ↔
      (opF w).toNat = op.toNat ∧ dF w = d ∧ aF w = a ∧ bF w = b ∧ (fnF w).toNat = fn.toNat ∧ nF w = n ∧ pF w = p := by
  constructor
  · rintro rfl
    simp
  · rintro ⟨hop, rfl, rfl, rfl, hfn, rfl, rfl⟩
    rw [← BitVec.eq_of_toNat_eq hop, ← BitVec.eq_of_toNat_eq hfn, encA_fields]

/-- A word is the format-F word of its fields. -/
theorem encF_fields (w : Word) : encF (opF w) (dF w) (aF w) (bF w) (cF w) (n1F w) (p0F w) = w := by
  have hw := w.isLt
  apply BitVec.eq_of_toNat_eq
  rw [encF_toNat]
  simp only [opF, dF, aF, bF, cF, n1F, p0F, BitVec.toNat_ofNat, toNat_decide_bit]
  omega

/-- A word is built in format F exactly from its own fields. -/
@[simp] theorem encF_eq_iff {w : Word} {op d a b c : BitVec 6} {n p : Bool} :
    encF op d a b c n p = w ↔
      (opF w).toNat = op.toNat ∧ dF w = d ∧ aF w = a ∧ bF w = b ∧ cF w = c ∧ n1F w = n ∧ p0F w = p := by
  constructor
  · rintro rfl
    simp
  · rintro ⟨hop, rfl, rfl, rfl, rfl, rfl, rfl⟩
    rw [← BitVec.eq_of_toNat_eq hop, encF_fields]

/-- A word is the format-I word of its fields. -/
theorem encI_fields (w : Word) : encI (opF w) (dF w) (aF w) (immF w) (n1F w) (p0F w) = w := by
  have hw := w.isLt
  apply BitVec.eq_of_toNat_eq
  rw [encI_toNat]
  simp only [opF, dF, aF, immF, n1F, p0F, BitVec.toNat_ofNat, toNat_decide_bit]
  omega

/-- A word is built in format I exactly from its own fields. -/
@[simp] theorem encI_eq_iff {w : Word} {op d a : BitVec 6} {i : BitVec 12} {n p : Bool} :
    encI op d a i n p = w ↔
      (opF w).toNat = op.toNat ∧ dF w = d ∧ aF w = a ∧ immF w = i ∧ n1F w = n ∧ p0F w = p := by
  constructor
  · rintro rfl
    simp
  · rintro ⟨hop, rfl, rfl, rfl, rfl, rfl⟩
    rw [← BitVec.eq_of_toNat_eq hop, encI_fields]

/-- A word is the format-U word of its fields. -/
theorem encU_fields (w : Word) : encU (opF w) (dF w) (imm20F w) = w := by
  have hw := w.isLt
  apply BitVec.eq_of_toNat_eq
  rw [encU_toNat]
  simp only [opF, dF, imm20F, BitVec.toNat_ofNat]
  omega

/-- A word is built in format U exactly from its own fields. -/
@[simp] theorem encU_eq_iff {w : Word} {op d : BitVec 6} {i : BitVec 20} :
    encU op d i = w ↔
      (opF w).toNat = op.toNat ∧ dF w = d ∧ imm20F w = i := by
  constructor
  · rintro rfl
    simp
  · rintro ⟨hop, rfl, rfl⟩
    rw [← BitVec.eq_of_toNat_eq hop, encU_fields]

/-- A word is the format-M word of its fields. -/
theorem encM_fields (w : Word) : encM (opF w) (dF w) (aF w) (offF w) (szF w) (dcF w) (p0F w) = w := by
  have hw := w.isLt
  apply BitVec.eq_of_toNat_eq
  rw [encM_toNat]
  simp only [opF, dF, aF, offF, szF, dcF, p0F, BitVec.toNat_ofNat, toNat_decide_bit]
  omega

/-- A word is built in format M exactly from its own fields. -/
@[simp] theorem encM_eq_iff {w : Word} {op d a : BitVec 6} {o : BitVec 9} {s k : BitVec 2} {p : Bool} :
    encM op d a o s k p = w ↔
      (opF w).toNat = op.toNat ∧ dF w = d ∧ aF w = a ∧ offF w = o ∧ szF w = s ∧ dcF w = k ∧ p0F w = p := by
  constructor
  · rintro rfl
    simp
  · rintro ⟨hop, rfl, rfl, rfl, rfl, rfl, rfl⟩
    rw [← BitVec.eq_of_toNat_eq hop, encM_fields]

/-- A word is the format-X word of its fields. -/
theorem encX_fields (w : Word) : encX (opF w) (dF w) (aF w) (bF w) (fnF w) (scF w) (p0F w) = w := by
  have hw := w.isLt
  apply BitVec.eq_of_toNat_eq
  rw [encX_toNat]
  simp only [opF, dF, aF, bF, fnF, scF, p0F, BitVec.toNat_ofNat, toNat_decide_bit]
  omega

/-- A word is built in format X exactly from its own fields. -/
@[simp] theorem encX_eq_iff {w : Word} {op d a b : BitVec 6} {fn : BitVec 4} {s : BitVec 3} {p : Bool} :
    encX op d a b fn s p = w ↔
      (opF w).toNat = op.toNat ∧ dF w = d ∧ aF w = a ∧ bF w = b ∧ (fnF w).toNat = fn.toNat ∧ scF w = s ∧ p0F w = p := by
  constructor
  · rintro rfl
    simp
  · rintro ⟨hop, rfl, rfl, rfl, hfn, rfl, rfl⟩
    rw [← BitVec.eq_of_toNat_eq hop, ← BitVec.eq_of_toNat_eq hfn, encX_fields]

/-- A word is the format-B word of its fields. -/
theorem encB_fields (w : Word) : encB (opF w) (bpF w) (bnF w) (btF w) (brF w) = w := by
  have hw := w.isLt
  apply BitVec.eq_of_toNat_eq
  rw [encB_toNat]
  simp only [opF, bpF, bnF, btF, brF, BitVec.toNat_ofNat, toNat_decide_bit]
  omega

/-- A word is built in format B exactly from its own fields. -/
@[simp] theorem encB_eq_iff {w : Word} {op : BitVec 6} {p : BitVec 3} {n : Bool} {t : BitVec 13} {r : BitVec 9} :
    encB op p n t r = w ↔
      (opF w).toNat = op.toNat ∧ bpF w = p ∧ bnF w = n ∧ btF w = t ∧ brF w = r := by
  constructor
  · rintro rfl
    simp
  · rintro ⟨hop, rfl, rfl, rfl, rfl⟩
    rw [← BitVec.eq_of_toNat_eq hop, encB_fields]

/-- A word is the format-J word of its fields. -/
theorem encJ_fields (w : Word) : encJ (opF w) (s26F w) = w := by
  have hw := w.isLt
  apply BitVec.eq_of_toNat_eq
  rw [encJ_toNat]
  simp only [opF, s26F, BitVec.toNat_ofNat]
  omega

/-- A word is built in format J exactly from its own fields. -/
@[simp] theorem encJ_eq_iff {w : Word} {op : BitVec 6} {s : BitVec 26} :
    encJ op s = w ↔
      (opF w).toNat = op.toNat ∧ s26F w = s := by
  constructor
  · rintro rfl
    simp
  · rintro ⟨hop, rfl⟩
    rw [← BitVec.eq_of_toNat_eq hop, encJ_fields]

/-- A word with its low bits clear is the LOOP word of its fields. -/
theorem encLoop_fields (w : Word) (hz : w.toNat % 4096 = 0) : encLoop (opF w) (dF w) (llF w) = w := by
  have hw := w.isLt
  apply BitVec.eq_of_toNat_eq
  rw [encLoop_toNat]
  simp only [opF, dF, llF, BitVec.toNat_ofNat]
  omega

/-- A word is built as a LOOP word exactly from its own fields. -/
@[simp] theorem encLoop_eq_iff {w : Word} {op c : BitVec 6} {l : BitVec 8} :
    encLoop op c l = w ↔
      (opF w).toNat = op.toNat ∧ dF w = c ∧ llF w = l ∧ w.toNat % 4096 = 0 := by
  constructor
  · rintro rfl
    refine ⟨by simp, by simp, by simp, ?_⟩
    rw [encLoop_toNat]
    omega
  · rintro ⟨hop, rfl, rfl, hz⟩
    rw [← BitVec.eq_of_toNat_eq hop, encLoop_fields w hz]

/-- A word with its low bits clear is the LOOPI word of its fields. -/
theorem encLoopi_fields (w : Word) (hz : w.toNat % 64 = 0) : encLoopi (opF w) (lcF w) (lilF w) = w := by
  have hw := w.isLt
  apply BitVec.eq_of_toNat_eq
  rw [encLoopi_toNat]
  simp only [opF, lcF, lilF, BitVec.toNat_ofNat]
  omega

/-- A word is built as a LOOPI word exactly from its own fields. -/
@[simp] theorem encLoopi_eq_iff {w : Word} {op : BitVec 6} {c : BitVec 12} {l : BitVec 8} :
    encLoopi op c l = w ↔
      (opF w).toNat = op.toNat ∧ lcF w = c ∧ lilF w = l ∧ w.toNat % 64 = 0 := by
  constructor
  · rintro rfl
    refine ⟨by simp, by simp, by simp, ?_⟩
    rw [encLoopi_toNat]
    omega
  · rintro ⟨hop, rfl, rfl, hz⟩
    rw [← BitVec.eq_of_toNat_eq hop, encLoopi_fields w hz]

/-- A word is the format-C word of its fields. -/
theorem encC_fields (w : Word) : encC (opF w) (dF w) (aF w) (bF w) (vF w) (cmdF w) (repF w) = w := by
  have hw := w.isLt
  apply BitVec.eq_of_toNat_eq
  rw [encC_toNat]
  simp only [opF, dF, aF, bF, vF, cmdF, repF, BitVec.toNat_ofNat, toNat_decide_bit]
  omega

/-- A word is built in format C exactly from its own fields. -/
@[simp] theorem encC_eq_iff {w : Word} {op d a b : BitVec 6} {v : BitVec 3} {k : BitVec 4} {r : Bool} :
    encC op d a b v k r = w ↔
      (opF w).toNat = op.toNat ∧ dF w = d ∧ aF w = a ∧ bF w = b ∧ vF w = v ∧ (cmdF w).toNat = k.toNat ∧ repF w = r := by
  constructor
  · rintro rfl
    simp
  · rintro ⟨hop, rfl, rfl, rfl, rfl, hk, rfl⟩
    rw [← BitVec.eq_of_toNat_eq hop, ← BitVec.eq_of_toNat_eq hk, encC_fields]

/-- An answer of the decoder on a word: what it decodes to is well formed and is encoded as that word, and is no word of engine programs. -/
def Reads (w : Word) (r : Except DecodeErr Instr) : Prop :=
  ∀ i, r = .ok i → wellFormed i = true ∧ encode i = some w ∧ ∀ a b n p, i ≠ .rdvzEngine a b n p

/-- A word that is refused answers nothing. -/
@[simp] theorem reads_error (w : Word) (e : DecodeErr) : Reads w (.error e) := nofun

/-- `need` accepts exactly where no check fails. -/
theorem need_eq_ok {zs os : List Bool} {i j : Instr} : need zs os i = .ok j ↔ false ∉ zs ∧ false ∉ os ∧ i = j := by
  unfold need
  by_cases hz : false ∈ zs
  · simp [hz]
  · by_cases ho : false ∈ os <;> simp [hz, ho]

/-- What `need` accepts has to be well formed and to encode to the word only where no check fails. -/
@[simp] theorem reads_need {w : Word} {zs os : List Bool} {i : Instr} :
    Reads w (need zs os i) ↔ (false ∉ zs → false ∉ os →
      wellFormed i = true ∧ encode i = some w ∧ ∀ a b n p, i ≠ .rdvzEngine a b n p) := by
  simp only [Reads, need_eq_ok]
  constructor
  · intro h hz ho
    exact h i ⟨hz, ho, rfl⟩
  · rintro h _ ⟨hz, ho, rfl⟩
    exact h hz ho

/-- A field narrowed to the bits that it uses, and widened again. -/
theorem setWidth_setWidth_of_lt {v w : Nat} (x : BitVec w) (h : x.toNat < 2 ^ v) : (x.setWidth v).setWidth w = x := by
  apply BitVec.eq_of_toNat_eq
  rw [BitVec.toNat_setWidth, BitVec.toNat_setWidth, Nat.mod_eq_of_lt h, Nat.mod_eq_of_lt x.isLt]

/-! The majors, each by its minor codes: the fields that a member does not use are zero where `need` accepts, so that the member's word
has the fields of the word decoded. -/

theorem reads_decodeOp01 {w : Word} (h : (opF w).toNat = 1) : Reads w (decodeOp01 w) := by
  unfold decodeOp01
  split <;> simp +contextual [*, encode, wellFormed]

theorem reads_decodeOp02 {w : Word} (h : (opF w).toNat = 2) : Reads w (decodeOp02 w) := by
  unfold decodeOp02
  split <;> simp +contextual [*, encode, wellFormed]

theorem reads_decodeOp03 {w : Word} (h : (opF w).toNat = 3) : Reads w (decodeOp03 w) := by
  unfold decodeOp03
  split <;> simp +contextual [*, encode, wellFormed]

theorem reads_decodeOp0D {w : Word} (h : (opF w).toNat = 13) : Reads w (decodeOp0D w) := by
  unfold decodeOp0D
  split <;> simp +contextual [*, encode, wellFormed, setWidth_setWidth_of_lt]

theorem reads_decodeOp11 {w : Word} (h : (opF w).toNat = 17) : Reads w (decodeOp11 w) := by
  unfold decodeOp11
  split <;> simp +contextual [*, encode, wellFormed, setWidth_setWidth_of_lt]

theorem reads_decodeOp14 {w : Word} (h : (opF w).toNat = 20) : Reads w (decodeOp14 w) := by
  unfold decodeOp14
  split <;> simp +contextual [*, encode, wellFormed]

theorem reads_decodeOp16 {w : Word} (h : (opF w).toNat = 22) : Reads w (decodeOp16 w) := by
  unfold decodeOp16
  split <;> simp +contextual [*, encode, wellFormed]

theorem reads_decodeOp17 {w : Word} (h : (opF w).toNat = 23) : Reads w (decodeOp17 w) := by
  unfold decodeOp17
  split <;> simp +contextual [*, encode, wellFormed]

theorem reads_decodeOp19 {w : Word} (h : (opF w).toNat = 25) : Reads w (decodeOp19 w) := by
  unfold decodeOp19
  split <;> simp +contextual [*, encode, wellFormed]

theorem reads_decodeOp1E {w : Word} (h : (opF w).toNat = 30) : Reads w (decodeOp1E w) := by
  unfold decodeOp1E
  split
  case h_7 => split <;> simp +contextual [*, encode, wellFormed]
  all_goals simp +contextual [*, encode, wellFormed]

theorem reads_decodeOp1F {w : Word} (h : (opF w).toNat = 31) : Reads w (decodeOp1F w) := by
  unfold decodeOp1F
  split <;> simp +contextual [*, encode, wellFormed]

/-- The field of `TSEED`: bit 3 is the width, bits 2-0 the slot. -/
theorem seedField_eq (b : BitVec 6) (h : b.toNat < 16) :
    BitVec.ofNat 6 ((decide (b.toNat / 8 % 2 = 1)).toNat * 8 + b.toNat % 8) = b := by
  apply BitVec.eq_of_toNat_eq
  rw [toNat_decide_bit, BitVec.toNat_ofNat]
  omega

/-- The field of `TZERO` and `TMOV`: bit 3 is the width. -/
theorem widthField_eq (b : BitVec 6) (h : ¬ b.toNat = 0 → b.toNat = 8) : BitVec.ofNat 6 ((decide (b.toNat / 8 % 2 = 1)).toNat * 8) = b := by
  apply BitVec.eq_of_toNat_eq
  rw [toNat_decide_bit, BitVec.toNat_ofNat]
  omega

theorem reads_decodeOp20 {w : Word} (h : (opF w).toNat = 32) : Reads w (decodeOp20 w) := by
  unfold decodeOp20
  split <;> simp +contextual [*, encode, wellFormed, setWidth_setWidth_of_lt, seedField_eq, widthField_eq]

theorem reads_decodeOp2B {w : Word} (h : (opF w).toNat = 43) : Reads w (decodeOp2B w) := by
  unfold decodeOp2B
  split <;> simp +contextual [*, encode, wellFormed, setWidth_setWidth_of_lt]

theorem reads_decodeOp2C {w : Word} (h : (opF w).toNat = 44) : Reads w (decodeOp2C w) := by
  unfold decodeOp2C
  split <;> simp +contextual [*, encode, wellFormed]

theorem reads_decodeOp2D {w : Word} (h : (opF w).toNat = 45) : Reads w (decodeOp2D w) := by
  unfold decodeOp2D
  split <;> simp +contextual [*, encode, wellFormed]

theorem reads_decodeOp30 {w : Word} (h : (opF w).toNat = 48) : Reads w (decodeOp30 w) := by
  unfold decodeOp30
  split <;> simp +contextual [*, encode, wellFormed]

theorem reads_decodeOp33 {w : Word} (h : (opF w).toNat = 51) : Reads w (decodeOp33 w) := by
  unfold decodeOp33
  split <;> simp +contextual [*, encode, wellFormed]

theorem reads_decodeOp38 {w : Word} (h : (opF w).toNat = 56) : Reads w (decodeOp38 w) := by
  unfold decodeOp38
  split <;> simp +contextual [*, encode, wellFormed]

theorem reads_decodeOp39 {w : Word} (h : (opF w).toNat = 57) : Reads w (decodeOp39 w) := by
  unfold decodeOp39
  split <;> simp +contextual [*, encode, wellFormed]

theorem reads_decodeOp3A {w : Word} (h : (opF w).toNat = 58) : Reads w (decodeOp3A w) := by
  unfold decodeOp3A
  split <;> simp +contextual [*, encode, wellFormed]

theorem reads_decodeOp3B {w : Word} (h : (opF w).toNat = 59) : Reads w (decodeOp3B w) := by
  unfold decodeOp3B
  split <;> simp +contextual [*, encode, wellFormed]

theorem reads_decodeOp3C {w : Word} (h : (opF w).toNat = 60) : Reads w (decodeOp3C w) := by
  unfold decodeOp3C
  split
  case h_1 =>
    split
    · simp +contextual [*, encode, wellFormed]
    · split <;> simp +contextual [*, encode, wellFormed]
  all_goals simp +contextual [*, encode, wellFormed]

/-- The variant of `GRF.LAUNCH`, 0 or 1, is one bit. -/
theorem launchField_eq (v : BitVec 3) (h : v.toNat < 2) : BitVec.ofNat 3 (decide (v.toNat = 1)).toNat = v := by
  apply BitVec.eq_of_toNat_eq
  rw [BitVec.toNat_ofNat]
  have : v.toNat = 0 ∨ v.toNat = 1 := by omega
  rcases this with h | h <;> simp [h]

theorem reads_decodeOp3D {w : Word} (h : (opF w).toNat = 61) : Reads w (decodeOp3D w) := by
  unfold decodeOp3D
  split <;> simp +contextual [*, encode, wellFormed, launchField_eq]

theorem reads_decodeOp3E {w : Word} (h : (opF w).toNat = 62) : Reads w (decodeOp3E w) := by
  unfold decodeOp3E
  split <;> simp +contextual [*, encode, wellFormed]

theorem reads_decodeOp3F {w : Word} (h : (opF w).toNat = 63) : Reads w (decodeOp3F w) := by
  unfold decodeOp3F
  split <;> simp +contextual [*, encode, wellFormed]

/-- The immediate of `SHFI`: the kind in bits 11-8, the count in bits 5-0, zero between them. -/
theorem shiftField_eq (i : BitVec 12) (h : i.toNat / 64 % 4 = 0) :
    BitVec.ofNat 12 (i.toNat / 256 % 16 * 256 + i.toNat % 64) = i := by
  have hi := i.isLt
  apply BitVec.eq_of_toNat_eq
  rw [BitVec.toNat_ofNat]
  omega

/-- The b field of `CVT`: the source format over the mode. -/
theorem cvtField_eq (b : BitVec 6) : BitVec.ofNat 4 (b.toNat / 4) ++ b.setWidth 2 = b := by
  have hb := b.isLt
  apply BitVec.eq_of_toNat_eq
  rw [BitVec.toNat_append, ← Nat.shiftLeft_add_eq_or_of_lt (BitVec.isLt _), Nat.shiftLeft_eq, BitVec.toNat_ofNat, BitVec.toNat_setWidth]
  omega

/-- The size field of `LDT` and `STT`: 2 for a word, 3 for a pair. -/
theorem doubleField_eq (s : BitVec 2) (h : 1 < s.toNat) : BitVec.ofNat 2 (2 + (decide (s.toNat = 3)).toNat) = s := by
  have hs : s.toNat = 2 ∨ s.toNat = 3 := by omega
  apply BitVec.eq_of_toNat_eq
  rcases hs with hs | hs <;> simp [hs]

/-- The minor code of the compares of major 0x1D: which of the two families, over the condition. -/
theorem toNat_halfCode (x : BitVec 1) (f : BitVec 3) : (x ++ f).toNat = 8 * x.toNat + f.toNat := by
  rw [BitVec.toNat_append, ← Nat.shiftLeft_add_eq_or_of_lt f.isLt, Nat.shiftLeft_eq, Nat.mul_comm]

/-- Major 0x1D: `CMPH2` below minor code 8, `CMPZ` from there. -/
theorem reads_decodeHalfCompare {w : Word} (h : (opF w).toNat = 29) : Reads w
    (if (fnF w).toNat < 8 then need [] [!nF w] (.cmph2 (dF w) (aF w) (bF w) ((fnF w).setWidth 3) (nF w) (pF w))
     else need [decide (((fnF w).setWidth 3).toNat ≤ 5)] [!nF w] (.cmpz (dF w) (aF w) (bF w) ((fnF w).setWidth 3) (nF w) (pF w))) := by
  have hfn := (fnF w).isLt
  split <;> rename_i hlow
  · have code : (0#1 ++ (fnF w).setWidth 3).toNat = (fnF w).toNat := by
      rw [toNat_halfCode, BitVec.toNat_setWidth, BitVec.toNat_ofNat]
      omega
    simp +contextual [h, code, encode, wellFormed]
  · have code : (1#1 ++ (fnF w).setWidth 3).toNat = (fnF w).toNat := by
      rw [toNat_halfCode, BitVec.toNat_setWidth, BitVec.toNat_ofNat]
      omega
    simp +contextual [h, code, encode, wellFormed]

/-- Whatever the decoder of threads answers for a word is well formed and encodes back to it: by the table of each major that has several
members, and at once for the majors of a single one. -/
theorem reads_decode (w : Word) : Reads w (decode w) := by
  unfold decode decodeMajor
  split <;> rename_i h
  case h_1 => exact reads_decodeOp01 h
  case h_2 => exact reads_decodeOp02 h
  case h_3 => exact reads_decodeOp03 h
  case h_13 => exact reads_decodeOp0D h
  case h_17 => exact reads_decodeOp11 h
  case h_20 => exact reads_decodeOp14 h
  case h_22 => exact reads_decodeOp16 h
  case h_23 => exact reads_decodeOp17 h
  case h_25 => exact reads_decodeOp19 h
  case h_29 => exact reads_decodeHalfCompare h
  case h_30 => exact reads_decodeOp1E h
  case h_31 => exact reads_decodeOp1F h
  case h_32 => exact reads_decodeOp20 h
  case h_43 => exact reads_decodeOp2B h
  case h_44 => exact reads_decodeOp2C h
  case h_45 => exact reads_decodeOp2D h
  case h_48 => exact reads_decodeOp30 h
  case h_51 => exact reads_decodeOp33 h
  case h_52 => exact reads_decodeOp38 h
  case h_53 => exact reads_decodeOp39 h
  case h_54 => exact reads_decodeOp3A h
  case h_55 => exact reads_decodeOp3B h
  case h_56 => exact reads_decodeOp3C h
  case h_57 => exact reads_decodeOp3D h
  case h_58 => exact reads_decodeOp3E h
  case h_59 => exact reads_decodeOp3F h
  all_goals simp +contextual [*, encode, wellFormed, shiftField_eq, cvtField_eq, doubleField_eq]

end Sys2Proof.Laws.Words

namespace Sys2Proof.Laws.RoundTrip

open Sys2Proof Sys2Proof.Laws.Words

set_option Elab.async false

/-- An instruction without a word has nothing to decode. -/
theorem statement_of_no_word {i : Instr} (h : encode i = none) : Statement i := by
  intro _ w hw
  rw [h] at hw
  cases hw

/-- Every instruction obeys the law of its own row; an event has no word. -/
theorem statement_holds (i : Instr) : Statement i := by
  cases i
  case iadd d a b n p => exact iadd d a b n p
  case isub d a b n p => exact isub d a b n p
  case imul d a b n p => exact imul d a b n p
  case imulh d a b n p => exact imulh d a b n p
  case imulhu d a b n p => exact imulhu d a b n p
  case and d a b n p => exact and d a b n p
  case or d a b n p => exact or d a b n p
  case xor d a b n p => exact xor d a b n p
  case andn d a b n p => exact andn d a b n p
  case shl d a b n p => exact shl d a b n p
  case shr d a b n p => exact shr d a b n p
  case sra d a b n p => exact sra d a b n p
  case rotl d a b n p => exact rotl d a b n p
  case min d a b n p => exact min d a b n p
  case max d a b n p => exact max d a b n p
  case absd d a b n p => exact absd d a b n p
  case minu d a b n p => exact minu d a b n p
  case maxu d a b n p => exact maxu d a b n p
  case popc d a n p => exact popc d a n p
  case clz d a n p => exact clz d a n p
  case ctz d a n p => exact ctz d a n p
  case brev d a n p => exact brev d a n p
  case bfx d a b n p => exact bfx d a b n p
  case bfi d a b n p => exact bfi d a b n p
  case sel d a b n s => exact sel d a b n s
  case lea d a b n p => exact lea d a b n p
  case idiv d a b n p => exact idiv d a b n p
  case idivu d a b n p => exact idivu d a b n p
  case irem d a b n p => exact irem d a b n p
  case iremu d a b n p => exact iremu d a b n p
  case iadd64 d a b n p => exact iadd64 d a b n p
  case isub64 d a b n p => exact isub64 d a b n p
  case shl64 d a b n p => exact shl64 d a b n p
  case shr64 d a b n p => exact shr64 d a b n p
  case sra64 d a b n p => exact sra64 d a b n p
  case mov64 d a n p => exact mov64 d a n p
  case lea64 d a b n p => exact lea64 d a b n p
  case imul64 d a b n p => exact imul64 d a b n p
  case imad d a b c n p => exact imad d a b c n p
  case iaddi d a i n p => exact iaddi d a i n p
  case iaddi64 d a i n p => exact iaddi64 d a i n p
  case andi d a i n p => exact andi d a i n p
  case ori d a i n p => exact ori d a i n p
  case xori d a i n p => exact xori d a i n p
  case shfi d a k m n p => exact shfi d a k m n p
  case lui d i => exact lui d i
  case auipc d i => exact auipc d i
  case fadd d a b n p => exact fadd d a b n p
  case fsub d a b n p => exact fsub d a b n p
  case fmul d a b n p => exact fmul d a b n p
  case fdiv d a b n p => exact fdiv d a b n p
  case fsqrt d a n p => exact fsqrt d a n p
  case fmin d a b n p => exact fmin d a b n p
  case fmax d a b n p => exact fmax d a b n p
  case fminm d a b n p => exact fminm d a b n p
  case fmaxm d a b n p => exact fmaxm d a b n p
  case fabs d a n p => exact fabs d a n p
  case fneg d a n p => exact fneg d a n p
  case fcpys d a b n p => exact fcpys d a b n p
  case frnd d a m n p => exact frnd d a m n p
  case fclass d a n p => exact fclass d a n p
  case ffma d a b c n p => exact ffma d a b c n p
  case ffms d a b c n p => exact ffms d a b c n p
  case ffnma d a b c n p => exact ffnma d a b c n p
  case dadd d a b n p => exact dadd d a b n p
  case dsub d a b n p => exact dsub d a b n p
  case dmul d a b n p => exact dmul d a b n p
  case ddiv d a b n p => exact ddiv d a b n p
  case dsqrt d a n p => exact dsqrt d a n p
  case dmin d a b n p => exact dmin d a b n p
  case dmax d a b n p => exact dmax d a b n p
  case dminm d a b n p => exact dminm d a b n p
  case dmaxm d a b n p => exact dmaxm d a b n p
  case dabs d a n p => exact dabs d a n p
  case dneg d a n p => exact dneg d a n p
  case dcpys d a b n p => exact dcpys d a b n p
  case drnd d a m n p => exact drnd d a m n p
  case dclass d a n p => exact dclass d a n p
  case dfma d a b c n p => exact dfma d a b c n p
  case dfms d a b c n p => exact dfms d a b c n p
  case hadd2 d a b n p => exact hadd2 d a b n p
  case hsub2 d a b n p => exact hsub2 d a b n p
  case hmul2 d a b n p => exact hmul2 d a b n p
  case hmin2 d a b n p => exact hmin2 d a b n p
  case hmax2 d a b n p => exact hmax2 d a b n p
  case habs2 d a n p => exact habs2 d a n p
  case hneg2 d a n p => exact hneg2 d a n p
  case hfma2 d a b c n p => exact hfma2 d a b c n p
  case vaddH2 d a b n p => exact vaddH2 d a b n p
  case vsubH2 d a b n p => exact vsubH2 d a b n p
  case vaddsH2 d a b n p => exact vaddsH2 d a b n p
  case vsubsH2 d a b n p => exact vsubsH2 d a b n p
  case vmaxH2 d a b n p => exact vmaxH2 d a b n p
  case vminH2 d a b n p => exact vminH2 d a b n p
  case acsH2 d a b n p => exact acsH2 d a b n p
  case fexp2 d a n p => exact fexp2 d a n p
  case flog2 d a n p => exact flog2 d a n p
  case fsin d a n p => exact fsin d a n p
  case fcos d a n p => exact fcos d a n p
  case frcp d a n p => exact frcp d a n p
  case frsq d a n p => exact frsq d a n p
  case ftanh d a n p => exact ftanh d a n p
  case cvt d a s m f n p => exact cvt d a s m f n p
  case zpackZ8 d a b n p => exact zpackZ8 d a b n p
  case zpackZ6 d a b n p => exact zpackZ6 d a b n p
  case zunpkZ8 d a n p => exact zunpkZ8 d a n p
  case zunpkZ6 d a n p => exact zunpkZ6 d a n p
  case zscale d a b n p => exact zscale d a b n p
  case cmpi d a b f n p => exact cmpi d a b f n p
  case cmpf d a b f n p => exact cmpf d a b f n p
  case cmpd d a b f n p => exact cmpd d a b f n p
  case cmph2 d a b f n p => exact cmph2 d a b f n p
  case cmpz d a b f n p => exact cmpz d a b f n p
  case pand d a b n p => exact pand d a b n p
  case por d a b n p => exact por d a b n p
  case pxor d a b n p => exact pxor d a b n p
  case pnot d a n p => exact pnot d a n p
  case pmov d a n p => exact pmov d a n p
  case pset d a n p => exact pset d a n p
  case gset d a n p => exact gset d a n p
  case gsetOpen d n p => exact gsetOpen d n p
  case mov d a n p => exact mov d a n p
  case srd d b n p => exact srd d b n p
  case swr a b n p => exact swr a b n p
  case ldkW d a n p => exact ldkW d a n p
  case ldkD d a n p => exact ldkD d a n p
  case tseed d a w k n p => exact tseed d a w k n p
  case tget d a k n p => exact tget d a k n p
  case tset d a k n p => exact tset d a k n p
  case tzero d a w n p => exact tzero d a w n p
  case tmov d a w n p => exact tmov d a w n p
  case dext d a b n p => exact dext d a b n p
  case foot d a n p => exact foot d a n p
  case motv d a n p => exact motv d a n p
  case ld d a o s k p => exact ld d a o s k p
  case st d a o s k p => exact st d a o s k p
  case lds d a o s k p => exact lds d a o s k p
  case sts d a o s k p => exact sts d a o s k p
  case ldt d a o s k p => exact ldt d a o s k p
  case stt d a o s k p => exact stt d a o s k p
  case ldc d a o s k p => exact ldc d a o s k p
  case prf a o s p => exact prf a o s p
  case atom d a b f s p => exact atom d a b f s p
  case red a b f s p => exact red a b f s p
  case fence s n p => exact fence s n p
  case watch a n p => exact watch a n p
  case waitm d a n p => exact waitm d a n p
  case bar a s n p => exact bar a s n p
  case bara a s n p => exact bara a s n p
  case barw a n p => exact barw a n p
  next d n p => exact RoundTrip.seal d n p
  case waitb a n p => exact waitb a n p
  case trig n p => exact trig n p
  case flushd n p => exact flushd n p
  case lgetAt d a b n p => exact lgetAt d a b n p
  case lgetLower d a b n p => exact lgetLower d a b n p
  case lgetHigher d a b n p => exact lgetHigher d a b n p
  case lgetFlip d a b n p => exact lgetFlip d a b n p
  case push d a b n p => exact push d a b n p
  case voteAnd d a b n p => exact voteAnd d a b n p
  case voteOr d a b n p => exact voteOr d a b n p
  case voteEqv d a b n p => exact voteEqv d a b n p
  case ballot d a b n p => exact ballot d a b n p
  case bfly d a b n p => exact bfly d a b n p
  case compress d a b n p => exact compress d a b n p
  case expand d a b n p => exact expand d a b n p
  case hist d a b n p => exact hist d a b n p
  case hmerge d a b n p => exact hmerge d a b n p
  case osmx d a n p => exact osmx d a n p
  case osmxf d a n p => exact osmxf d a n p
  case bra p n t r => exact bra p n t r
  case call s => exact call s
  case nop n p => exact nop n p
  case yield n p => exact yield n p
  case brx a n p => exact brx a n p
  case calli a n p => exact calli a n p
  case ret n p => exact ret n p
  case exit n p => exact exit n p
  case brk a n p => exact brk a n p
  case loop c l => exact loop c l
  case loopi c l => exact loopi c l
  case trap a n p => exact trap a n p
  case eret n p => exact eret n p
  case srdp d b n p => exact srdp d b n p
  case swrp a b n p => exact swrp a b n p
  case halt a n p => exact halt a n p
  case fork a b n p => exact fork a b n p
  case rdvz a b n p => exact rdvz a b n p
  case rdvzEngine a b n p => exact rdvzEngine a b n p
  case mburst a n p => exact mburst a n p
  case cpyG2s a b => exact cpyG2s a b
  case cpyS2g a b => exact cpyS2g a b
  case cpyG2g a b => exact cpyG2g a b
  case cpyGath a b v => exact cpyGath a b v
  case cpyFill a b => exact cpyFill a b
  case cpyMap a b => exact cpyMap a b
  case cpyUnmap b => exact cpyUnmap b
  case cpyWb b => exact cpyWb b
  case mtxMwld a b => exact mtxMwld a b
  case mtxMwscl a b => exact mtxMwscl a b
  case mtxMswap v => exact mtxMswap v
  case mtxMstr a b => exact mtxMstr a b
  case mtxMprom v => exact mtxMprom v
  case mtxMzero b => exact mtxMzero b
  case mtxMrd d a => exact mtxMrd d a
  case mtxMwr a b => exact mtxMwr a b
  case mtxMout d a b v => exact mtxMout d a b v
  case mtxMdrain d a b v => exact mtxMdrain d a b v
  case mtxMstat d v => exact mtxMstat d v
  case splScfg a => exact splScfg a
  case splSproj d a => exact splSproj d a
  case splSbin d a => exact splSbin d a
  case splSsort d a => exact splSsort d a
  case splSblend d a => exact splSblend d a
  case splSrepl d a => exact splSrepl d a
  case slvCfg a => exact slvCfg a
  case slvLu d a => exact slvLu d a
  case slvLus d a => exact slvLus d a
  case slvChol d a => exact slvChol d a
  case slvChs d a => exact slvChs d a
  case slvCg d a => exact slvCg d a
  case slvJac d a => exact slvJac d a
  case colGrp d a b => exact colGrp d a b
  case colGrpFree b => exact colGrpFree b
  case colAred d a => exact colAred d a
  case colRsc d a => exact colRsc d a
  case colAgath d a => exact colAgath d a
  case colBcast d a => exact colBcast d a
  case colPut d a => exact colPut d a
  case colWait d a b => exact colWait d a b
  case grfLaunch d a v => exact grfLaunch d a v
  case grfQput b => exact grfQput b
  case grfQget d => exact grfQget d
  case grfNsig a => exact grfNsig a
  case prbMark a b => exact prbMark a b
  case prbSamp => exact prbSamp
  case prbRdx d a => exact prbRdx d a
  all_goals exact statement_of_no_word rfl

/-- The word of a well-formed instruction of threads decodes to it. -/
theorem decode_encode {i : Instr} {w : Word} (hwf : wellFormed i = true) (he : encode i = some w)
    (hi : ∀ a b n p, i ≠ .rdvzEngine a b n p) : decode w = .ok i := by
  have h := statement_holds i hwf w he
  split at h
  · exact absurd rfl (hi _ _ _ _)
  · exact h

/-- The word of `RDVZ` in its engine form decodes to it in engine programs (R239). -/
theorem decodeEngine_encode_rdvz {a b : BitVec 6} {n : Bool} {p : BitVec 3} {w : Word}
    (hwf : wellFormed (.rdvzEngine a b n p) = true) (he : encode (.rdvzEngine a b n p) = some w) :
    decodeEngine w = .ok (.rdvzEngine a b n p) :=
  statement_holds _ hwf w he

/-- The words of major 0x3F, minor 1: `RDVZ`, whose engine form differs. -/
def IsRdvzWord (w : Word) : Prop := (opF w).toNat = 63 ∧ (fnF w).toNat = 1

/-- Apart from the words of `RDVZ` the two decoders agree (R236). -/
theorem decodeEngine_of_not_rdvz {w : Word} (h : ¬ IsRdvzWord w) : decodeEngine w = decode w := if_neg h

/-- A word of `RDVZ` decodes, in engine programs, to its engine form, whose word it is. -/
theorem decodeEngine_rdvz_ok {w : Word} (h : IsRdvzWord w) {i : Instr} (hd : decodeEngine w = .ok i) :
    wellFormed i = true ∧ encode i = some w ∧ ∀ a b n p, i ≠ .rdvz a b n p := by
  obtain ⟨hop, hfn⟩ := h
  simp only [decodeEngine, hop, hfn, and_self, if_true, need_eq_ok] at hd
  obtain ⟨-, hos, rfl⟩ := hd
  simpa [encode, wellFormed, hop, hfn, and_comm, eq_comm (a := false)] using hos

/-- A word of `RDVZ` decodes, in the decoder of threads, to nothing else. -/
theorem decode_rdvz_ok {w : Word} (h : IsRdvzWord w) {i : Instr} (hd : decode w = .ok i) : ∃ a b n p, i = .rdvz a b n p := by
  obtain ⟨hop, hfn⟩ := h
  rw [decode, hop] at hd
  have hd : decodeOp3F w = .ok i := hd
  simp only [decodeOp3F, hfn, need_eq_ok] at hd
  exact ⟨_, _, _, _, hd.2.2.symm⟩

theorem isRdvzWord_of_encode_rdvz {a b : BitVec 6} {n : Bool} {p : BitVec 3} {w : Word} (h : encode (.rdvz a b n p) = some w) : IsRdvzWord w := by
  obtain ⟨hop, -, -, -, hfn, -, -⟩ := encA_eq_iff.mp (Option.some.inj h)
  exact ⟨hop, hfn⟩

/-- The decoder of threads and the encoder are inverse to each other. -/
theorem decode_iff (w : Word) (i : Instr) :
    decode w = .ok i ↔ wellFormed i = true ∧ encode i = some w ∧ ∀ a b n p, i ≠ .rdvzEngine a b n p :=
  ⟨reads_decode w i, fun ⟨hwf, he, hi⟩ => decode_encode hwf he hi⟩

/-- The decoder of engine programs and the encoder are inverse to each other: by `decode_iff` off the words of `RDVZ`. -/
theorem decodeEngine_iff (w : Word) (i : Instr) :
    decodeEngine w = .ok i ↔ wellFormed i = true ∧ encode i = some w ∧ ∀ a b n p, i ≠ .rdvz a b n p := by
  constructor
  · intro hd
    by_cases hw : IsRdvzWord w
    · exact decodeEngine_rdvz_ok hw hd
    · rw [decodeEngine_of_not_rdvz hw] at hd
      obtain ⟨hwf, he, -⟩ := (decode_iff w i).mp hd
      refine ⟨hwf, he, ?_⟩
      rintro a b n p rfl
      exact hw (isRdvzWord_of_encode_rdvz he)
  · rintro ⟨hwf, he, hi⟩
    by_cases hr : ∃ a b n p, i = .rdvzEngine a b n p
    · obtain ⟨a, b, n, p, rfl⟩ := hr
      exact decodeEngine_encode_rdvz hwf he
    · push Not at hr
      have hd := decode_encode hwf he hr
      have hw : ¬ IsRdvzWord w := fun hw => by
        obtain ⟨a, b, n, p, rfl⟩ := decode_rdvz_ok hw hd
        exact hi a b n p rfl
      rw [decodeEngine_of_not_rdvz hw, hd]

end Sys2Proof.Laws.RoundTrip

/-- Settles O54: a word is built from its own fields, so that the instruction it decodes to encodes back to it; the other way is the law of
each instruction's row. -/
theorem wordsAndInstructions : Obligations.WordsAndInstructions :=
  ⟨Sys2Proof.Laws.RoundTrip.decode_iff, Sys2Proof.Laws.RoundTrip.decodeEngine_iff⟩

/-- Settles O53: the decoder computes on each of the words. -/
theorem workedEncodings : Obligations.WorkedEncodings := by
  unfold Obligations.WorkedEncodings
  decide

/-! Operand codes (R36-R38, R41, R42): what each code reads, and which codes a destination may have. -/

namespace Sys2Proof.Machine

open Sys2Proof

set_option Elab.async false

/-- A single source: `v0`, a declared register, or a valid latch (R36, R41). -/
theorem srcReg_eq (th : Thread) (c : BitVec 6) : srcReg th c =
    if c = 0 then some Dexel.zero
    else if c.toNat < 60 then (if c.toNat < th.lc.regs then some (readReg th c.toNat) else none)
    else if (readLatch th (c.toNat - 60)).valid = true then some (readLatch th (c.toNat - 60)).lo else none := by
  unfold srcReg
  by_cases h0 : c = 0
  · subst h0; simp [readReg]
  · simp only [h0, or_false, if_false]

/-- An even code names a pair unless it is 0. -/
theorem ne_zero_iff_two_le {c : BitVec 6} (h : c.toNat % 2 = 0) : c ≠ 0 ↔ 2 ≤ c.toNat := by
  rw [ne_eq, BitVec.toNat_eq]
  change ¬ c.toNat = 0 ↔ _
  omega

/-- A pair source: two declared registers from an even code other than 0, or a wide latch (R37, R41). -/
theorem srcPair_eq (th : Thread) (c : BitVec 6) : srcPair th c =
    if c.toNat < 60 then
      (if 2 ≤ c.toNat ∧ c.toNat % 2 = 0 ∧ c.toNat + 1 < th.lc.regs then some (readReg th c.toNat, readReg th (c.toNat + 1)) else none)
    else if (readLatch th (c.toNat - 60)).valid = true ∧ (readLatch th (c.toNat - 60)).wide = true then
      some ((readLatch th (c.toNat - 60)).lo, (readLatch th (c.toNat - 60)).hi)
    else none := by
  have code : (c.toNat % 2 = 0 ∧ c ≠ 0 ∧ c.toNat + 1 < th.lc.regs) ↔ (2 ≤ c.toNat ∧ c.toNat % 2 = 0 ∧ c.toNat + 1 < th.lc.regs) := by
    constructor
    · rintro ⟨heven, h0, hregs⟩
      exact ⟨(ne_zero_iff_two_le heven).mp h0, heven, hregs⟩
    · rintro ⟨htwo, heven, hregs⟩
      exact ⟨heven, (ne_zero_iff_two_le heven).mpr htwo, hregs⟩
  simp only [srcPair, code, Bool.and_eq_true]

/-- A single destination; with nw set only code 0 (R36, R42). -/
theorem dstReg_iff (th : Thread) (d : BitVec 6) :
    (dstReg th d false = true ↔ d = 0 ∨ (d.toNat < 60 ∧ d.toNat < th.lc.regs)) ∧ (dstReg th d true = true ↔ d = 0) := by
  simp [dstReg]

/-- A pair destination; with nw set only code 0 (R37, R42). -/
theorem dstPair_iff (th : Thread) (d : BitVec 6) :
    (dstPair th d false = true ↔ 2 ≤ d.toNat ∧ d.toNat ≤ 58 ∧ d.toNat % 2 = 0 ∧ d.toNat + 1 < th.lc.regs) ∧
    (dstPair th d true = true ↔ d = 0) := by
  refine ⟨?_, by simp [dstPair]⟩
  have code : dstPair th d false = true ↔ d.toNat % 2 = 0 ∧ d ≠ 0 ∧ d.toNat < 60 ∧ d.toNat + 1 < th.lc.regs := by
    simp [dstPair, and_assoc]
  rw [code]
  constructor
  · rintro ⟨heven, h0, h60, hregs⟩
    have := (ne_zero_iff_two_le heven).mp h0
    omega
  · rintro ⟨htwo, h58, heven, hregs⟩
    exact ⟨heven, (ne_zero_iff_two_le heven).mpr htwo, by omega, hregs⟩

/-- A predicate destination (R38). -/
theorem dstPred_iff (d : BitVec 6) : dstPred d false = true ↔ d.toNat ≤ 6 := by simp [dstPred]

/-- A predicate source; code 7 reads true (R38). -/
theorem srcPred_eq (th : Thread) (c : BitVec 6) :
    srcPred th c = if c.toNat ≤ 6 then some (readPred th c.toNat) else if c = 7 then some true else none := by
  have code : c = 7 ↔ c.toNat = 7 := BitVec.toNat_eq
  unfold srcPred
  by_cases h6 : c.toNat ≤ 6
  · rw [if_pos h6, if_pos (by omega)]
  · by_cases h7 : c.toNat = 7
    · obtain rfl := code.mpr h7
      rfl
    · rw [if_neg (by omega), if_neg h6, if_neg (by rwa [code])]

theorem readReg_writeReg_of_ne_zero (th : Thread) (n m : Nat) (x : Dexel) (hn : n ≠ 0) :
    readReg (writeReg th n x) m = if m = n then x else readReg th m := by
  simp [readReg_writeReg, hn]

end Sys2Proof.Machine

/-- Settles O58: each operand code in turn. -/
theorem operandCodes : Obligations.OperandCodes :=
  open Sys2Proof.Machine in
  ⟨srcReg_eq, srcPair_eq, dstReg_iff, dstPair_iff, dstPred_iff, srcPred_eq, fun _ _ => ⟨rfl, rfl⟩, readReg_writeReg_of_ne_zero⟩

/-! Words that do not decode (R49-R51, R39): the trap where the predicate is true, and the no-op elsewhere. -/

namespace Sys2Proof.Machine

open Sys2Proof

set_option Elab.async false

/-- The statements' handler of an exception is the machine's (R183). -/
theorem trapTarget_eq_handlerOf (th : Thread) : trapTarget th = handlerOf th := by
  simp only [trapTarget, handlerOf, Nat.lt_succ_iff]

/-- The causes whose record marks the latch of the word invalid (R57, R98, R40). -/
theorem latchLost_iff (code : Nat) : latchLost code = true ↔ code ∈ [1, 2, 3, 4, 5, 0x0F, 0x10] := by
  simp only [latchLost, Bool.or_eq_true, Bool.and_eq_true, decide_eq_true_eq, beq_iff_eq, List.mem_cons, List.not_mem_nil, or_false]
  omega

/-- The thread that takes an exception at its word, with the flags of the exception: at its handler, its record made (R183). -/
theorem enterLevel_trapInfoAt {th : Thread} {l : Nat} {h : DWord} (hh : handlerOf th = some (l, h)) (s : State) (g : Group) (flags : Word)
    (code : Nat) (val : DWord) :
    ∃ th', enterLevel { th with fsr := th.fsr ||| flags } (trapInfoAt g th code val) = some th' ∧
      standing s th' = entered s th flags (recordAt g th code val) l h := by
  have target : trapTarget { th with fsr := th.fsr ||| flags } = some (l, h) := (trapTarget_eq_handlerOf th).trans hh
  have lats : (trapInfoAt g th code val).lats = (recordAt g th code val).lats := by
    simp only [trapInfoAt, recordAt, latchLost_iff]
    rfl
  refine ⟨_, by rw [enterLevel, target], ?_⟩
  rw [lats]
  rfl

/-- A lane that traps alone in its group leaves it for its handler (R183). -/
theorem trapLane_left {s : State} {g : Group} {u : Nat} {th : Thread} {l : Nat} {h : DWord} (hh : handlerOf th = some (l, h)) (x : Trap) :
    Left s (setIssuing (trapLane g s u th x) { g with members := [], idx := g.idx + 1 }) u
      (entered s th x.flags (recordAt g th (x.codeVal g.word).1 (x.codeVal g.word).2) l h) (fun _ => true) (emptied s g) := by
  obtain ⟨th', he, hth'⟩ := enterLevel_trapInfoAt hh s g x.flags (x.codeVal g.word).1 (x.codeVal g.word).2
  obtain ⟨⟨hthread, hothers, hdeferrals⟩, hrest⟩ := takeTrap_moved s u _ th' _ he
  rw [hth'] at hthread
  refine ⟨⟨hthread, hothers, hdeferrals⟩, ?_⟩
  have e : setIssuing (trapLane g s u th x) { g with members := [], idx := g.idx + 1 } =
      { trapLane g s u th x with opens := (trapLane g s u th x).opens.set (trapLane g s u th x).cur { g with members := [], idx := g.idx + 1 } } := rfl
  rw [e]
  unfold trapLane
  rw [hrest]
  rfl

/-- A word that does not decode raises its trap in every lane: only an unused operand field waits for the gates of its opcode. -/
theorem illegalWord_eq (e : DecodeErr) (w : Word) (s : State) :
    illegalWord e w s = runThreads (if e = .operand then gateOf w else freeGate) (predOf w) true
      (fun _ _ _ _ => .error (if e = .operand then .operand else .instruction)) s := by
  cases e <;> rfl

/-- The one lane of a group, its predicate true, in which a word traps: it takes Illegal Instruction where a gate of the word is shut to its
context, else the trap of the word, whatever is poisoned (R51, R384). -/
theorem runThreads_traps {s : State} {g : Group} {u : Nat} {th : Thread} (hi : Issues s g) (hm : g.members = [u]) (ht : getThread s u = some th)
    (gate : Gate) {p : BitVec 3} (hp : readPred th p.toNat = true) (stop : Bool) (x : Trap) :
    runThreads gate p stop (fun _ _ _ _ => .error x) s =
      setIssuing (trapLane g s u th (if gateFails gate g.core th = true then .instruction else x)) { g with members := [], idx := g.idx + 1 } := by
  obtain ⟨hgroup, hlevel, hfree⟩ := hi
  simp only [runThreads, runGroup, runLanes, hgroup, hlevel, hfree, hm, List.foldl_cons, List.foldl_nil, laneStep, ht, hp, if_true,
    Bool.false_eq_true, if_false, threadOut, poisonCheck]
  by_cases hg : gateFails gate g.core th = true
  · simp only [hg, if_true]
  · simp only [hg]; rfl

/-- A word over lanes in none of which its predicate is true is a no-op that makes the latch invalid (R40). -/
theorem runThreads_skipped {s : State} {g : Group} (hi : Issues s g) {p : BitVec 3}
    (hp : ∀ u ∈ g.members, ∀ th, getThread s u = some th → readPred th p.toNat = false) (gate : Gate) (stop : Bool) (x : Trap) :
    GroupResult s (runThreads gate p stop (fun _ _ _ _ => .error x) s) g fun _ => Skipped g := by
  have inactive : ∀ u ∈ g.members, ∀ th, getThread s u = some th → ¬ readPred th p.toNat = true := fun u hu th hth => by simp [hp u hu th hth]
  refine groupResult_imp (runThreads_next g gate p stop _ s hi (fun _ _ _ => rfl) fun u hu th hth h => absurd h (inactive u hu th hth)) ?_
  intro u hu th hth th' hr
  rwa [LaneAfter, if_neg (inactive u hu th hth)] at hr

/-- The trap that a word which does not decode takes where its predicate is true (R51). -/
def illegalTrap (e : DecodeErr) (w : Word) (core : Nat) (th : Thread) : Trap :=
  if e = .operand ∧ gateFails (gateOf w) core th = false then .operand else .instruction

theorem illegalTrap_flags (e : DecodeErr) (w : Word) (core : Nat) (th : Thread) : (illegalTrap e w core th).flags = 0 := by
  unfold illegalTrap
  split <;> rfl

theorem illegalTrap_codeVal (e : DecodeErr) (w : Word) (core : Nat) (th : Thread) :
    (illegalTrap e w core th).codeVal w = (if e = .operand ∧ gateFails (gateOf w) core th = false then 0x02 else 0x01, immediateOf w) := by
  unfold illegalTrap
  split <;> rfl

theorem gateFails_freeGate (core : Nat) (th : Thread) : gateFails freeGate core th = false := by
  simp [gateFails, freeGate]

/-- The one lane of a group, its predicate true, takes the trap of a word that does not decode. -/
theorem illegalWord_traps {s : State} {g : Group} {u : Nat} {th : Thread} (hi : Issues s g) (hm : g.members = [u]) (ht : getThread s u = some th)
    (e : DecodeErr) {w : Word} (hp : readPred th (predOf w).toNat = true) :
    illegalWord e w s = setIssuing (trapLane g s u th (illegalTrap e w g.core th)) { g with members := [], idx := g.idx + 1 } := by
  rw [illegalWord_eq, runThreads_traps hi hm ht _ hp]
  congr 2
  unfold illegalTrap
  by_cases he : e = .operand
  · cases hg : gateFails (gateOf w) g.core th <;> simp [he, hg]
  · simp [he, gateFails_freeGate]

end Sys2Proof.Machine

/-- Settles O52: a lane in which the predicate is true traps before any poison is seen and enters its handler; any other is skipped. -/
theorem illegalWords : Obligations.IllegalWords := by
  open Sys2Proof.Machine in
  intro s g e hi w _
  refine ⟨fun u th l h hm ht hh hp => ?_, fun hp => ?_⟩
  · rw [illegalWord_traps hi hm ht e hp]
    have left := trapLane_left (s := s) (u := u) (g := g) hh (illegalTrap e w g.core th)
    rw [illegalTrap_flags] at left
    have hw : g.word = w := rfl
    rw [hw, illegalTrap_codeVal] at left
    exact left
  · rw [illegalWord_eq]
    exact runThreads_skipped hi hp _ _ _

/-! Every act of the machine ends in a next state: instructions and events by `exec_eq_next`, and the machine's own choices list by list. -/

namespace Sys2Proof.Machine

open Sys2Proof

set_option Elab.async false

/-- An act that ends in a next state. -/
def Act.Answers (a : Act) : Prop := ∃ t, a.run = .next t

/-- No instruction and no event is refused or faults: every arm of `exec` is a next state. -/
theorem exec_eq_next (i : Instr) (s : State) : ∃ t, exec i s = .next t := by
  cases i <;> exact ⟨_, rfl⟩

theorem answers_exec (i : Instr) (s : State) : (Act.exec i s).Answers := exec_eq_next i s

theorem answers_done (s : State) : (Act.done s).Answers := ⟨s, rfl⟩

theorem issueAct_answers (s : State) (k : Nat) : (issueAct s k).Answers := by
  unfold issueAct
  dsimp only
  split
  · exact answers_done _
  · split_ifs
    · exact answers_done _
    · exact answers_done _
    · exact answers_done _
    · split
      · exact ⟨_, rfl⟩
      · split
        · exact answers_exec _ _
        · exact answers_done _

theorem progAct_answers (s : State) (p : Prog) : (progAct s p).Answers := by
  unfold progAct
  split
  · split
    · exact answers_exec _ _
    · exact answers_done _
  · exact answers_done _

theorem firstProgAct_answers (s : State) : (firstProgAct s).Answers := by
  unfold firstProgAct
  split
  · exact progAct_answers _ _
  · exact answers_done _

/-- Choices each of which ends in a next state, whatever the state. -/
def Answering (cs : List Choice) : Prop := ∀ c ∈ cs, ∀ s, (c s).Answers

@[simp] theorem answering_nil : Answering [] := nofun

@[simp] theorem answering_cons {c : Choice} {cs : List Choice} : Answering (c :: cs) ↔ (∀ s, (c s).Answers) ∧ Answering cs := List.forall_mem_cons

@[simp] theorem answering_append {cs ds : List Choice} : Answering (cs ++ ds) ↔ Answering cs ∧ Answering ds := List.forall_mem_append

@[simp] theorem answering_map {α : Type} {l : List α} {f : α → Choice} : Answering (l.map f) ↔ ∀ x ∈ l, ∀ s, (f x s).Answers := List.forall_mem_map

@[simp] theorem answering_flatMap {α : Type} {l : List α} {f : α → List Choice} : Answering (l.flatMap f) ↔ ∀ x ∈ l, Answering (f x) := by
  simp only [Answering, List.forall_mem_flatMap]

@[simp] theorem answering_ite {p : Prop} [Decidable p] {cs ds : List Choice} :
    Answering (if p then cs else ds) ↔ (p → Answering cs) ∧ (¬p → Answering ds) := by
  split <;> simp [*]

/-- Turning a list of choices around keeps its members. -/
theorem Answering.rotateLeft {cs : List Choice} (h : Answering cs) (n : Nat) : Answering (cs.rotateLeft n) := by
  intro c hc
  rw [List.rotateLeft] at hc
  split at hc
  · exact h c hc
  · rcases List.mem_append.mp hc with hc | hc
    · exact h c (List.mem_of_mem_drop hc)
    · exact h c (List.mem_of_mem_take hc)

theorem accessEvent_answers (a : Access) (s : State) : (accessEvent a s).Answers := by
  unfold accessEvent
  cases a.kind with
  | load | atom => exact ⟨_, rfl⟩
  | store | red =>
    dsimp only
    split <;> exact ⟨_, rfl⟩

theorem progChoice_answers (core cls : Nat) (s : State) : (progChoice core cls s).Answers := by
  unfold progChoice
  split
  · exact progAct_answers _ _
  · exact answers_done _

theorem checkChoice_answers (c : Check) (s : State) : (checkChoice c s).Answers := by
  unfold checkChoice
  split <;> exact answers_done _

theorem threadEvents_answering (s : State) : Answering (threadEvents s) := by
  simp only [threadEvents, answering_append, answering_map, answering_flatMap, and_assoc]
  exact ⟨fun _ _ _ => ⟨_, rfl⟩, fun _ _ _ => ⟨_, rfl⟩, fun _ _ _ => ⟨_, rfl⟩, fun _ _ _ => ⟨_, rfl⟩, fun _ _ _ _ _ => ⟨_, rfl⟩,
    fun _ _ _ => ⟨_, rfl⟩⟩

theorem engineEvents_answering (s : State) : Answering (engineEvents s) := by
  simp only [engineEvents, answering_append, answering_map, answering_flatMap, answering_cons, answering_nil, answering_ite, implies_true, and_true,
    and_assoc]
  exact ⟨fun _ _ => ⟨fun _ => ⟨_, rfl⟩, fun _ => ⟨_, rfl⟩, fun _ => ⟨_, rfl⟩, fun _ _ => ⟨_, rfl⟩, fun _ _ => ⟨_, rfl⟩⟩,
    fun _ _ => ⟨fun _ => ⟨_, rfl⟩, fun _ _ => ⟨_, rfl⟩⟩, fun _ _ => ⟨fun _ => ⟨_, rfl⟩, fun _ => ⟨_, rfl⟩⟩, fun _ _ _ => ⟨_, rfl⟩⟩

theorem hiveEvents_answering (s : State) : Answering (hiveEvents s) := by
  simp only [hiveEvents, answering_append, answering_map, answering_flatMap, answering_cons, answering_nil, answering_ite, implies_true, and_true,
    true_and, and_assoc]
  exact ⟨fun _ _ _ => ⟨_, rfl⟩, fun _ _ _ => ⟨_, rfl⟩, fun _ _ _ => ⟨_, rfl⟩, fun _ _ _ => ⟨_, rfl⟩, fun _ _ _ => ⟨_, rfl⟩,
    fun _ _ => ⟨fun _ => ⟨_, rfl⟩, fun _ => ⟨_, rfl⟩, fun _ => ⟨_, rfl⟩, fun _ => ⟨_, rfl⟩, fun _ => ⟨_, rfl⟩, fun _ => ⟨_, rfl⟩⟩,
    fun _ _ _ => ⟨fun _ => ⟨_, rfl⟩, fun _ => ⟨_, rfl⟩, fun _ => ⟨_, rfl⟩, fun _ => ⟨_, rfl⟩⟩, fun _ _ _ => ⟨_, rfl⟩⟩

theorem packageEvents_answering (s : State) : Answering (packageEvents s) := by
  simp only [packageEvents, answering_append, answering_map, answering_flatMap, answering_cons, answering_nil, answering_ite, implies_true, and_true,
    and_assoc]
  exact ⟨fun _ _ _ => ⟨_, rfl⟩, fun _ _ _ => ⟨_, rfl⟩, fun _ _ => ⟨fun _ _ => ⟨_, rfl⟩, fun _ _ _ => ⟨_, rfl⟩⟩, fun _ _ _ => answers_done _,
    fun _ _ _ => ⟨_, rfl⟩, fun _ _ _ => ⟨_, rfl⟩, fun _ => answers_done _, fun _ _ _ => ⟨_, rfl⟩⟩

theorem lateEvents_answering (s : State) : Answering (lateEvents s) := by
  simp only [lateEvents, answering_append, answering_flatMap, answering_cons, answering_nil, answering_ite, implies_true, and_true, true_and, and_assoc]
  exact fun _ _ => ⟨fun _ _ => ⟨_, rfl⟩, fun _ _ => ⟨_, rfl⟩, fun _ _ => ⟨_, rfl⟩⟩

theorem coreChoices_answering (s : State) : Answering (coreChoices s) := by
  simp only [coreChoices, answering_append, answering_map, answering_flatMap, and_assoc]
  exact ⟨fun a _ => accessEvent_answers a, fun k _ s => issueAct_answers s k, threadEvents_answering s, engineEvents_answering s,
    fun c _ p _ => progChoice_answers (c.1 / 16) p.cls, fun _ _ _ => ⟨_, rfl⟩⟩

/-- Whatever the machine may choose next ends in a next state. -/
theorem choices_answering (s : State) : Answering (choices s) := by
  have hives : Answering (hiveEvents s ++ s.checks.map checkChoice ++ packageEvents s) := by
    simp only [answering_append, answering_map]
    exact ⟨⟨hiveEvents_answering s, fun c _ => checkChoice_answers c⟩, packageEvents_answering s⟩
  have cores := coreChoices_answering s
  have all : Answering ((if s.span % 4 = 0 then (hiveEvents s ++ s.checks.map checkChoice ++ packageEvents s) ++ coreChoices s
      else coreChoices s ++ (hiveEvents s ++ s.checks.map checkChoice ++ packageEvents s)) ++ lateEvents s) := by
    rw [answering_append, answering_ite, answering_append (cs := coreChoices s), answering_append (ds := coreChoices s)]
    exact ⟨⟨fun _ => ⟨hives, cores⟩, fun _ => ⟨cores, hives⟩⟩, lateEvents_answering s⟩
  unfold choices
  dsimp only
  rw [answering_ite]
  exact ⟨fun _ => all.rotateLeft _, fun _ => all⟩

/-- The default act is one of the choices, or none. -/
theorem defaultAct_cases (s : State) : (∃ c ∈ choices s, defaultAct s = c s) ∨ defaultAct s = .done s := by
  unfold defaultAct
  split
  · next c h => exact .inl ⟨c, List.mem_of_find?_eq_some h, rfl⟩
  · exact .inr rfl

theorem defaultAct_answers (s : State) : (defaultAct s).Answers := by
  rcases defaultAct_cases s with ⟨c, hc, h⟩ | h <;> rw [h]
  · exact choices_answering s c hc s
  · exact answers_done s

theorem nextAct_answers (s : State) : (nextAct s).Answers := by
  unfold nextAct
  split
  · exact ⟨_, rfl⟩
  · split
    · dsimp only
      split_ifs
      · exact answers_exec _ _
      · exact answers_done _
    · split
      · exact defaultAct_answers s
      · dsimp only
        split_ifs
        · exact firstProgAct_answers _
        · exact issueAct_answers _ _

/-- A step does the next act, unless it has to wait for a die (R406). -/
theorem step_eq {s t : State} (h : (nextAct (tick s)).run = .next t) : step s = .next (settleWake (tick s) t) := by
  rw [step, h]

theorem step_answers (s : State) : ∃ t, step s = .next t := by
  obtain ⟨t, h⟩ := nextAct_answers (tick s)
  exact ⟨_, step_eq h⟩

end Sys2Proof.Machine

/-- Settles O55: the next act, whichever it is, ends in a next state. -/
theorem everyStepAnswers : Obligations.EveryStepAnswers := Sys2Proof.Machine.step_answers

/-! What a step does (R49, R201, R327, R376, R406): the next act by the agenda and the turns, and the state in which a word issues. -/

namespace Sys2Proof.Machine

open Sys2Proof

set_option Elab.async false

/-- With no die on its way out of P3 none wakes first. -/
theorem find?_waking_tick {s : State} (h : Awake s) : (tick s).power.find? (fun e => e.2.1 == 4) = none := by
  rw [tick_power, List.find?_eq_none]
  intro e he
  simpa using h e he

/-- A step does its next act. -/
theorem stepDoes_of_run {s t : State} (h : (nextAct (tick s)).run = .next t) : StepDoes s t := step_eq h

/-- A die on its way out of P3 wakes first (R406). -/
theorem nextAct_of_waking {s : State} {e : Nat × Nat × Nat} (h : s.power.find? (fun e => e.2.1 == 4) = some e) :
    nextAct (tick s) = .out (execP3Wake e.1 (tick s)) := by
  have h' : (tick s).power.find? (fun e => e.2.1 == 4) = some e := h
  rw [nextAct, h']

/-- An event of the agenda comes before any turn (log 10). -/
theorem nextAct_of_event {s : State} {i : Instr} {rest : List Instr} (hw : Awake s) (ha : s.agenda = i :: rest) (hi : encode i = none) :
    nextAct (tick s) = .exec i { tick s with agenda := rest } := by
  have hev : isEvent i = true := by
    unfold isEvent
    split
    · cases hi
    · rw [hi]; rfl
  simp only [nextAct, find?_waking_tick hw, tick_agenda, ha, hev, if_true]

theorem nextAct_of_no_turn {s : State} (hw : Awake s) (ha : s.agenda = []) (ht : s.turns = []) : nextAct (tick s) = defaultAct (tick s) := by
  simp only [nextAct, find?_waking_tick hw, tick_agenda, tick_turns, ha, ht]

theorem nextAct_of_turn {s : State} {k : Nat} {rest : List Nat} (hw : Awake s) (ha : s.agenda = []) (ht : s.turns = (k + 1) :: rest) :
    nextAct (tick s) = issueAct { tick s with turns := rest } k := by
  simp only [nextAct, find?_waking_tick hw, tick_agenda, tick_turns, ha, ht, Nat.add_one_ne_zero, if_false, Nat.add_sub_cancel]

/-- On the turn of an open clause its word is decoded: the instruction that it stands for is executed, and a word that does not decode is
taken by its predicate (R49-R51). -/
theorem nextAct_of_turnOf {s s1 : State} {k : Nat} {rest : List Nat} {g : Group} (h : TurnOf s s1 k rest g) :
    (∀ i, decode g.word = .ok i → nextAct (tick s) = .exec i (beforeIssue s1 g)) ∧
    (∀ e, decode g.word = .error e → nextAct (tick s) = .done (illegalWord e g.word (beforeIssue s1 g))) := by
  obtain ⟨hawake, hagenda, hturns, rfl, hgroup, hlanes, hword, hruns, hstops⟩ := h
  have hruns : (tick s).halted.contains g.core = false := by simpa using hruns
  rw [nextAct_of_turn hawake hagenda hturns]
  constructor <;> intro x hd <;>
    simp only [issueAct, hgroup, hruns, List.isEmpty_eq_false_iff.mpr hlanes, hstops, if_neg (Nat.not_le.mpr hword), hd, Bool.false_eq_true, if_false]

/-- Threads of a list changed one after the other, by what the other threads do not alter. -/
theorem foldl_modThread (s : State) (f : State → Thread → Thread) (hf : ∀ T, f (withThreads s T) = f s) (l : List Nat) (hl : l.Nodup) :
    ∀ T, ∃ T', l.foldl (fun s t => modThread s t (f s)) (withThreads s T) = withThreads s T' ∧
      ∀ u, getK T' u = (getK T u).map fun th => if u ∈ l then f s th else th := by
  induction l with
  | nil => exact fun T => ⟨T, rfl, fun u => by simp⟩
  | cons a l ih =>
    intro T
    obtain ⟨hal, hl⟩ := List.nodup_cons.mp hl
    have head : modThread (withThreads s T) a (f (withThreads s T)) = withThreads s (modThread (withThreads s T) a (f s)).threads := by
      rw [hf]
      unfold modThread
      split <;> rfl
    obtain ⟨T', hT', hget⟩ := ih hl (modThread (withThreads s T) a (f s)).threads
    refine ⟨T', by rw [List.foldl_cons, head, hT'], fun u => ?_⟩
    have hu : getK (modThread (withThreads s T) a (f s)).threads u = if u = a then (getK T a).map (f s) else getK T u :=
      getThread_modThread (withThreads s T) a u (f s)
    rw [hget, hu]
    by_cases hua : u = a
    · subst hua
      simp [hal, Function.comp_def]
    · simp [hua]

/-- The first instruction of a node dates it (R327), and only the first. -/
theorem getNode_startNode (s : State) (m n : Nat) :
    getNode (startNode s m) n = (getNode s n).map fun x => if m = n ∧ x.start = none then { x with start := some s.span } else x := by
  rw [startNode, getNode_modNode]
  by_cases hn : n = m
  · subst hn
    rw [if_pos rfl]
    congr 1
    funext x
    cases hx : x.start with
    | none => simp
    | some v =>
      simp only [reduceCtorEq, and_false, if_false]
      rw [← hx]
  · simp [hn, Ne.symm hn]

theorem startNode_eq (s : State) (m : Nat) : startNode s m = { s with nodes := (startNode s m).nodes } := by
  unfold startNode modNode
  split <;> rfl

/-- A lane that has resumed at a breakpoint, once it is past it: it may stop again (R376). -/
def mayStopAgain (pc : DWord) (s : State) (th : Thread) : Thread :=
  if th.stopReq && (breakpointAt s th.lc.asid pc).isNone then { th with stopReq := false } else th

/-- A lane that has not resumed at a breakpoint has nothing to forget. -/
theorem mayStopAgain_eq (pc : DWord) (s : State) (th : Thread) :
    mayStopAgain pc s th = if (breakpointAt s th.lc.asid pc).isNone = true then { th with stopReq := false } else th := by
  unfold mayStopAgain
  cases hs : th.stopReq with
  | true => simp
  | false =>
    simp only [Bool.false_and, Bool.false_eq_true, if_false]
    rw [← hs]
    exact (ite_self th).symm

/-- Before a word issues only its group's threads and the date of its node change (R376, R327). -/
theorem beforeIssue_prepared {s : State} {g : Group} (hg : g.members.Nodup) : Prepared s (beforeIssue s g) g := by
  obtain ⟨T, hT, hget⟩ := foldl_modThread s (mayStopAgain g.pc) (fun _ => rfl) g.members hg s.threads
  have hthread : ∀ u, getK T u = (getThread s u).map fun th =>
      if u ∈ g.members ∧ (breakpointAt s th.lc.asid g.pc).isNone = true then { th with stopReq := false } else th := by
    intro u
    rw [hget]
    change Option.map _ (getThread s u) = _
    congr 1
    funext th
    rw [mayStopAgain_eq]
    by_cases hu : u ∈ g.members <;> simp [hu]
  have hb : beforeIssue s g = match (g.members.head?).bind (getThread s) with
      | some th => startNode (withThreads s T) th.lc.node
      | none => withThreads s T := by
    rw [← hT]
    rfl
  cases hf : (g.members.head?).bind (getThread s) with
  | none =>
    simp only [hf] at hb
    rw [hb]
    refine ⟨hthread, rfl, fun n => ?_⟩
    simp only [hf, Option.map_none, reduceCtorEq, false_and, if_false, Option.map_id']
    rfl
  | some th =>
    simp only [hf] at hb
    rw [hb, startNode_eq]
    refine ⟨hthread, rfl, fun n => ?_⟩
    have hn := getNode_startNode (withThreads s T) th.lc.node n
    simp only [hf, Option.map_some, Option.some.injEq]
    exact hn

/-- Each die's core cycles after a step's time: those of its power state for each tick (R3). -/
theorem cyclesOf_tick (s : State) {die : Nat} (hd : die < 4) :
    cyclesOf (tick s) die = cyclesOf s die + s.elapse.headD 1 * (if powerState s die = 0 then 42 else if powerState s die = 3 then 0 else 21) := by
  have hmap : getK (tick s).cycles die = some (cyclesOf s die + s.elapse.headD 1 * cycleRate s die) := by
    change getK ((List.range 4).map fun a => (a, cyclesOf s a + s.elapse.headD 1 * cycleRate s a)) die = _
    rw [getK_listmap, if_pos (List.mem_range.mpr hd)]
  rw [cyclesOf, hmap]
  rfl

/-- The turn of an open clause: its word runs in the prepared state (R49-R51, R201). -/
theorem step_of_turn {s s1 : State} {k : Nat} {rest : List Nat} {g : Group} (h : TurnOf s s1 k rest g) :
    ∃ s2, Prepared s1 s2 g ∧
      (∀ i, decode (g.code.getD g.idx 0) = .ok i → ∃ t, exec i s2 = .next t ∧ StepDoes s t) ∧
      (∀ e, decode (g.code.getD g.idx 0) = .error e → StepDoes s (illegalWord e (g.code.getD g.idx 0) s2)) := by
  refine ⟨beforeIssue s1 g, beforeIssue_prepared (issuing_members h.group).1, fun i hd => ?_, fun e hd => ?_⟩
  · obtain ⟨t, ht⟩ := exec_eq_next i (beforeIssue s1 g)
    refine ⟨t, ht, stepDoes_of_run ?_⟩
    rw [(nextAct_of_turnOf h).1 i hd]
    exact ht
  · apply stepDoes_of_run
    rw [(nextAct_of_turnOf h).2 e hd]
    rfl

/-- An event of the agenda runs as an instruction does. -/
theorem step_of_event {s : State} {i : Instr} {rest : List Instr} (hw : Awake s) (ha : s.agenda = i :: rest) (hi : encode i = none) :
    ∃ t, exec i { tick s with agenda := rest } = .next t ∧ StepDoes s t := by
  obtain ⟨t, ht⟩ := exec_eq_next i { tick s with agenda := rest }
  refine ⟨t, ht, stepDoes_of_run ?_⟩
  rw [nextAct_of_event hw ha hi]
  exact ht

/-- Without a turn a step is one of the machine's choices, or only time goes on. -/
theorem step_of_no_turn {s : State} (hw : Awake s) (ha : s.agenda = []) (ht : s.turns = []) :
    (∃ c ∈ choices (tick s), ∃ t, (c (tick s)).run = .next t ∧ StepDoes s t) ∨ StepDoes s (tick s) := by
  have hact := nextAct_of_no_turn hw ha ht
  rcases defaultAct_cases (tick s) with ⟨c, hc, h⟩ | h <;> rw [h] at hact
  · obtain ⟨t, ht⟩ := choices_answering (tick s) c hc (tick s)
    exact .inl ⟨c, hc, t, ht, stepDoes_of_run (hact ▸ ht)⟩
  · exact .inr (stepDoes_of_run (hact ▸ rfl))

/-- The wake of a die is a step of its own. -/
theorem step_of_waking {s : State} {e : Nat × Nat × Nat} (h : s.power.find? (fun e => e.2.1 == 4) = some e) :
    ∃ t, exec (.p3Wake e.1) (tick s) = .next t ∧ StepDoes s t := by
  obtain ⟨t, ht⟩ := exec_eq_next (.p3Wake e.1) (tick s)
  refine ⟨t, ht, stepDoes_of_run ?_⟩
  rw [nextAct_of_waking h]
  exact ht

end Sys2Proof.Machine

/-- Settles O51: by what the next act is on a turn, on an event, without a turn and with a die that wakes. -/
theorem stepRunsDecodedWord : Obligations.StepRunsDecodedWord :=
  open Sys2Proof.Machine in
  ⟨fun _ _ _ _ _ => step_of_turn, fun _ _ _ => step_of_event, fun _ => step_of_no_turn, fun _ _ => step_of_waking,
    fun s => ⟨rfl, rfl, fun _ => cyclesOf_tick s⟩⟩

/-! What transfers and falling through leave (R169-R176, R202), and traps at a clause's last word (R183). -/

namespace Sys2Proof.Machine

open Sys2Proof

/-- Of two entries put at one place the second stays. -/
theorem putK_putK {α : Type} (m : Map α) (i : Nat) (x y : α) : putK (putK m i x) i y = putK m i y := by
  induction m with
  | nil => simp [putK]
  | cons e m ih =>
    obtain ⟨k, v⟩ := e
    by_cases hk : k = i
    · simp [putK, hk]
    · by_cases hi : i < k
      · simp [putK, hk, hi]
      · simp [putK, hk, hi, ih]

theorem setThread_setThread (s : State) (u : Nat) (x y : Thread) : setThread (setThread s u x) u y = setThread s u y := by
  simp only [setThread, putK_putK]

/-- A thread's move is a matter of the threads, the deferrals and the time alone. -/
theorem moved_congr {s s' t t' : State} {u : Nat} {th : Thread} {met : Deferral → Bool} (h : Moved s t u th met) (hs : s'.threads = s.threads)
    (hsd : s'.deferrals = s.deferrals) (hspan : s'.span = s.span) (ht : t'.threads = t.threads) (htd : t'.deferrals = t.deferrals) :
    Moved s' t' u th met := by
  obtain ⟨hthread, hothers, hdeferrals⟩ := h
  constructor <;> simp only [getThread, hs, hsd, hspan, ht, htd] at *
  · exact hthread
  · exact hothers
  · exact hdeferrals

/-- What a thread leaves of the machine whose issuing clause is closed, it leaves of the machine before. -/
theorem left_of_closeIssuing {s t : State} {u : Nat} {th : Thread} {met : Deferral → Bool} {opens : List Group}
    (h : Left (closeIssuing s) t u th met opens) : Left s t u th met opens :=
  ⟨moved_congr h.moved rfl rfl rfl rfl rfl, h.rest⟩

/-- A target is a header whether or not the issuing clause is closed. -/
theorem headerAt_closeIssuing {s : State} {core asid : Nat} {addr : DWord} :
    HeaderAt (closeIssuing s) core asid addr ↔ HeaderAt s core asid addr :=
  headerAt_with s (closeIssuing s) core asid addr ⟨s.threads, s.deferrals, s.opens.eraseIdx s.cur, s.parked, s.seqno, rfl⟩

/-- The statements' end check of loops is the machine's (R175). -/
theorem fallInto_eq_endCheck (ls : List Loop) (addr : DWord) : fallInto ls addr = endCheck ls addr := by
  induction ls with
  | nil => rfl
  | cons l ls ih => simp only [fallInto, endCheck, ih, ne_eq, ite_not]

/-- A thread that stands at a clause boundary meets the deferrals that join there (R202, R205). -/
theorem standAt_left (s : State) (u : Nat) (th : Thread) (addr : DWord) :
    Left s (standAt s u th addr) u
      { th with
        loopBuf := keptClauses th.loopBuf th.loops, pc := addr, cla := addr, lats := noLatches, wait := none, answers := [], stopReq := false
        status := .ready, since := s.span }
      (fun d => decide (d.join = addr)) s.opens := by
  obtain ⟨hmoved, hrest⟩ := unwait_moved s u (standing s { keepBuffer th with
    pc := addr, cla := addr, lats := noLatches, wait := none, answers := [], stopReq := false }) (fun d => decide (d.join = addr)) (by simp)
  exact ⟨hmoved, hrest⟩

theorem standAt_setThread (s : State) (u : Nat) (x th : Thread) (addr : DWord) : standAt (setThread s u x) u th addr = standAt s u th addr := by
  unfold standAt
  rw [setThread_setThread]
  rfl

/-- A thread whose predicate is false at a control word falls through (R40, R175). -/
theorem runControl_fellThrough {s : State} {g : Group} {u : Nat} {th : Thread} {p : BitVec 3} (hi : Issues s g) (hm : g.members = [u])
    (ht : getThread s u = some th) (hp : readPred th p.toNat = false) (gate : Gate) (f : Group → State → Nat → Thread → LaneOut) :
    FellThrough s (runControl gate p f s) g u th (nextAddr g) (s.opens.eraseIdx s.cur) := by
  rw [runControl_skipped gate hi hm ht hp, fallThrough, standAt_setThread, fallInto_eq_endCheck]
  exact left_of_closeIssuing (standAt_left (closeIssuing s) u _ _)

/-- A lane that traps leaves for its handler (R183). -/
theorem trapLane_leaves {th : Thread} {l : Nat} {h : DWord} (hh : handlerOf th = some (l, h)) (s : State) (g : Group) (u : Nat) (x : Trap) :
    Left s (trapLane g s u th x) u (entered s th x.flags (recordAt g th (x.codeVal g.word).1 (x.codeVal g.word).2) l h) (fun _ => true) s.opens := by
  obtain ⟨th', henter, hth'⟩ := enterLevel_trapInfoAt hh s g x.flags (x.codeVal g.word).1 (x.codeVal g.word).2
  obtain ⟨hmoved, hrest⟩ := takeTrap_moved s u _ th' _ henter
  rw [hth'] at hmoved
  exact ⟨hmoved, hrest⟩

/-- A lane that traps at the control word that ends its clause. -/
theorem trapLane_closed {th : Thread} {l : Nat} {h : DWord} (hh : handlerOf th = some (l, h)) (s : State) (g : Group) (u : Nat) (x : Trap) :
    Left s (trapLane g (closeIssuing s) u th x) u
      (entered s th x.flags (recordAt g th (x.codeVal g.word).1 (x.codeVal g.word).2) l h) (fun _ => true) (s.opens.eraseIdx s.cur) :=
  left_of_closeIssuing (trapLane_leaves hh (closeIssuing s) g u x)

theorem Kept.span {s t : State} (h : Kept s t) : t.span = s.span := by
  obtain ⟨_, _, _, _, _, _, _, _, _, _, _, _, _, rfl⟩ := h
  rfl

theorem Kept.opens {s t : State} (h : Kept s t) : t.opens = s.opens := by
  obtain ⟨_, _, _, _, _, _, _, _, _, _, _, _, _, rfl⟩ := h
  rfl

/-- The check of a target that is a clause header, once the issuing clause is closed (R428). -/
theorem checkTarget_closed {s : State} {u : Nat} {th : Thread} {addr : DWord} (h : HeaderAt s (u / 1024) th.lc.asid addr) :
    checkTarget (closeIssuing s) u th addr true = .ok :=
  checkTarget_header _ _ _ _ _ (headerAt_closeIssuing.mpr h)

/-- A `BRX` to a clause header: the thread stands there, the loops that it leaves closed (R169, R176). -/
theorem execBrx_left {s : State} {g : Group} {u : Nat} {th : Thread} {p : BitVec 3} (h : Alone s g freeGate p u th) {a : BitVec 6} (nw : Bool)
    {x : Dexel × Dexel} (hx : srcPair th a = some x) (hh : HeaderAt s (u / 1024) th.lc.asid (bitsOf x)) :
    ∃ t, execBrx a nw p s = .next t ∧
      Left s t u (stands s g th (bitsOf x) (keptLoops th.loops (bitsOf x))) (fun d => decide (d.join = bitsOf x)) (s.opens.eraseIdx s.cur) := by
  have hok : checkTarget (closeIssuing s) u th (pairBits x) true = .ok := checkTarget_closed hh
  refine ⟨_, rfl, ?_⟩
  rw [runControl_alone h]
  simp only [hx, transferLane, hok]
  exact left_of_closeIssuing (standAt_left (closeIssuing s) u _ _)

/-- The machine in which a thread's call has written its frame below `SP`: the address of the next clause and `SP`. A frame that lies beyond
`STACK` is not written (R170; log 51). -/
def withFrame (s : State) (g : Group) (u : Nat) (th : Thread) : State :=
  if th.sp.toNat ≤ th.lc.stack then writeWindow s u (th.sp.toNat - 16) (toBytes 8 (wordAddr g + 4).toNat ++ toBytes 8 th.sp.toNat) else s

theorem withFrame_kept (s : State) (g : Group) (u : Nat) (th : Thread) : Kept s (withFrame s g u th) := by
  unfold withFrame
  split
  · exact writeWindow_kept _ _ _ _
  · exact Kept.refl s

/-- A call to a clause header with room above `SLIM` writes its frame and stands at the target (R170). -/
theorem callLane_header {s : State} {g : Group} {u : Nat} {th th1 : Thread} {addr : DWord} (hok : checkTarget s u th addr true = .ok)
    (hroom : th.slim.toNat + 16 ≤ th.sp.toNat) (h1 : getThread (withFrame s g u th) u = some th1) :
    callLane g s u th addr = .left (standAt (withFrame s g u th) u
      { dropLatch th1 g.latch with sp := th.sp - 16, wait := none, yielded := th.yielded || g.hdr.yields } addr) := by
  have hn : (th.sp - 16).toNat = th.sp.toNat - 16 := BitVec.toNat_sub_of_le (by rw [BitVec.le_def]; exact le_trans (by simp) hroom)
  have hframe : (if th.sp.toNat - 16 + 16 ≤ th.lc.stack then
      writeWindow s u (th.sp.toNat - 16) (toBytes 8 (g.pc + 4).toNat ++ toBytes 8 th.sp.toNat) else s) = withFrame s g u th := by
    rw [Nat.sub_add_cancel (by omega)]
    rfl
  simp only [callLane, hok, if_neg (Nat.not_lt.mpr hroom), hn, hframe, h1, Option.getD_some]

/-- A call to a clause header (R170). -/
theorem runControl_call {s : State} {g : Group} {u : Nat} {th : Thread} {p : BitVec 3} {addr : DWord} (h : Alone s g freeGate p u th)
    (hh : HeaderAt s (u / 1024) th.lc.asid addr) (hroom : th.slim.toNat + 16 ≤ th.sp.toNat) {f : Group → State → Nat → Thread → LaneOut}
    (hf : f g (closeIssuing s) u th = callLane g (closeIssuing s) u th addr) :
    let r := withFrame (closeIssuing s) g u th
    ∃ th1, getThread r u = some th1 ∧ Left r (runControl freeGate p f s) u
      { stands s g th1 addr th1.loops with sp := th.sp - 16 } (fun d => decide (d.join = addr)) (s.opens.eraseIdx s.cur) := by
  have hkept := withFrame_kept (closeIssuing s) g u th
  obtain ⟨w, h1⟩ := hkept.thread (th := th) h.thread
  refine ⟨_, h1, ?_⟩
  rw [runControl_alone h, hf, callLane_header (checkTarget_closed hh) hroom h1]
  have left := standAt_left (withFrame (closeIssuing s) g u th) u
    { dropLatch { th with watch := w } g.latch with sp := th.sp - 16, wait := none, yielded := th.yielded || g.hdr.yields } addr
  rw [hkept.opens, hkept.span] at left
  exact left

theorem execCall_left {s : State} {g : Group} {u : Nat} {th : Thread} {off : BitVec 26} (h : Alone s g freeGate 7 u th)
    (hh : HeaderAt s (u / 1024) th.lc.asid (wordAddr g + off.signExtend 64 * 4)) (hroom : th.slim.toNat + 16 ≤ th.sp.toNat) :
    let r := withFrame (closeIssuing s) g u th
    ∃ t th1, execCall off s = .next t ∧ getThread r u = some th1 ∧ Left r t u
      { stands s g th1 (wordAddr g + off.signExtend 64 * 4) th1.loops with sp := th.sp - 16 }
      (fun d => decide (d.join = wordAddr g + off.signExtend 64 * 4)) (s.opens.eraseIdx s.cur) := by
  obtain ⟨th1, h1, left⟩ := runControl_call h hh hroom (f := fun g s t th => callLane g s t th (g.pc + off.signExtend 64 * 4)) rfl
  exact ⟨_, th1, rfl, h1, left⟩

theorem execCalli_left {s : State} {g : Group} {u : Nat} {th : Thread} {p : BitVec 3} {a : BitVec 6} (nw : Bool) {x : Dexel × Dexel}
    (h : Alone s g freeGate p u th) (hx : srcPair th a = some x) (hh : HeaderAt s (u / 1024) th.lc.asid (bitsOf x))
    (hroom : th.slim.toNat + 16 ≤ th.sp.toNat) :
    let r := withFrame (closeIssuing s) g u th
    ∃ t th1, execCalli a nw p s = .next t ∧ getThread r u = some th1 ∧ Left r t u
      { stands s g th1 (bitsOf x) th1.loops with sp := th.sp - 16 } (fun d => decide (d.join = bitsOf x)) (s.opens.eraseIdx s.cur) := by
  obtain ⟨th1, h1, left⟩ := runControl_call h hh hroom (f := fun g s t th =>
    match srcPair th a with
    | some x => callLane g s t th (pairBits x)
    | none => .trap .operand) (by rw [hx]; rfl)
  exact ⟨_, th1, rfl, h1, left⟩

/-! `RET` (R171): its traps in order, then the return. -/

/-- A return without a whole frame below `STACK` takes Stack Underflow (R171). -/
theorem execRet_beyond {s : State} {g : Group} {u : Nat} {th : Thread} {p : BitVec 3} (h : Alone s g freeGate p u th) (nw : Bool)
    (hb : th.lc.stack < th.sp.toNat + 16) :
    execRet nw p s = .next (trapLane g (closeIssuing s) u th (.other 0x0D (BitVec.ofNat 64 (th.sp.toNat + 16)))) := by
  rw [execRet, runControl_alone h]
  simp only [gt_iff_lt, hb, if_true]

/-- A return from a frame with an uncorrectable error takes Poison (R384). -/
theorem execRet_poisoned {s : State} {g : Group} {u : Nat} {th : Thread} {p : BitVec 3} (h : Alone s g freeGate p u th) (nw : Bool)
    (hb : th.sp.toNat + 16 ≤ th.lc.stack) (hp : windowPoisoned (readWindow (closeIssuing s) u th.sp.toNat 8).1 u th.sp.toNat = true) :
    execRet nw p s = .next (trapLane g (closeIssuing s) u th (.other 0x0B (BitVec.ofNat 64 th.sp.toNat))) := by
  obtain ⟨w, h1⟩ := (readWindow_kept (closeIssuing s) u th.sp.toNat 8).thread (th := th) h.thread
  rw [execRet, runControl_alone h]
  simp only [gt_iff_lt, Nat.not_lt.mpr hb, if_false, hp, if_true, h1, Option.getD_some, BitVec.ofNat_toNat]

section

variable {s : State} {g : Group} {u : Nat} {th th1 : Thread} {p : BitVec 3} {s1 : State} {bytes : List Byte}
  (h : Alone s g freeGate p u th) (nw : Bool) (hread : readWindow (closeIssuing s) u th.sp.toNat 8 = (s1, bytes))
  (h1 : getThread s1 u = some th1) (hb : th.sp.toNat + 16 ≤ th.lc.stack) (hp : windowPoisoned s1 u th.sp.toNat = false)
  (hok : checkTarget s1 u th1 (BitVec.ofNat 64 (ofBytes bytes)) true = .ok)

include h hread h1 hb hp hok

/-- A return whose new `SP` lies below `SLIM` takes Stack Overflow once its target is checked (R67, R171). -/
theorem execRet_limit (hl : th.sp.toNat + 16 < th.slim.toNat) :
    execRet nw p s = .next (trapLane g (closeIssuing s) u th (.other 0x0C (BitVec.ofNat 64 (th.sp.toNat + 16)))) := by
  rw [execRet, runControl_alone h]
  simp only [gt_iff_lt, Nat.not_lt.mpr hb, if_false, hread, hp, h1, Option.getD_some, hok, hl, decide_true, Bool.and_self, if_true,
    Bool.false_eq_true]

/-- A return stands at the address of its frame (R171). -/
theorem execRet_returns (hl : th.slim.toNat ≤ th.sp.toNat + 16) :
    execRet nw p s = .next (standAt s1 u
      { dropLatch th1 g.latch with wait := none, sp := th1.sp + 16, yielded := th1.yielded || g.hdr.yields } (BitVec.ofNat 64 (ofBytes bytes))) := by
  rw [execRet, runControl_alone h]
  simp only [gt_iff_lt, Nat.not_lt.mpr hb, if_false, hread, hp, h1, Option.getD_some, hok, Nat.not_lt.mpr hl, decide_false, Bool.and_false,
    Bool.false_eq_true, transferLane]
  rfl

end

/-- What a return takes at its word goes to the handler (R183). -/
theorem execRet_traps {s : State} {g : Group} {u : Nat} {th : Thread} {p : BitVec 3} {nw : Bool} {code : Nat} {val : DWord}
    (h : execRet nw p s = .next (trapLane g (closeIssuing s) u th (.other code val))) (l : Nat) (handler : DWord)
    (hh : handlerOf th = some (l, handler)) :
    ∃ t, execRet nw p s = .next t ∧
      Left s t u (entered s th 0 (recordAt g th code val) l handler) (fun _ => true) (s.opens.eraseIdx s.cur) :=
  ⟨_, h, trapLane_closed hh s g u (.other code val)⟩

/-- A return to a clause header, in the machine that has read the frame's address (R171, R67): Stack Overflow below `SLIM`, else the thread
stands there. -/
theorem execRet_header {s : State} {g : Group} {u : Nat} {th : Thread} {p : BitVec 3} (h : Alone s g freeGate p u th) (nw : Bool)
    (hb : th.sp.toNat + 16 ≤ th.lc.stack) :
    let r := readWindow (closeIssuing s) u th.sp.toNat 8
    let addr : DWord := BitVec.ofNat 64 (ofBytes r.2)
    HeaderAt r.1 (u / 1024) th.lc.asid addr → windowPoisoned r.1 u th.sp.toNat = false →
      (th.sp.toNat + 16 < th.slim.toNat →
        execRet nw p s = .next (trapLane g (closeIssuing s) u th (.other 0x0C (BitVec.ofNat 64 (th.sp.toNat + 16))))) ∧
      (th.slim.toNat ≤ th.sp.toNat + 16 → ∃ t th1, execRet nw p s = .next t ∧ getThread r.1 u = some th1 ∧
        Left r.1 t u { stands s g th1 addr th1.loops with sp := th1.sp + 16 } (fun d => decide (d.join = addr)) (s.opens.eraseIdx s.cur)) := by
  intro r addr hh hp
  have hkept := readWindow_kept (closeIssuing s) u th.sp.toNat 8
  obtain ⟨w, h1⟩ := hkept.thread (th := th) h.thread
  have hok : checkTarget r.1 u { th with watch := w } addr true = .ok := checkTarget_header _ _ _ _ _ hh
  refine ⟨execRet_limit h nw rfl h1 hb hp hok, fun hl => ⟨_, _, execRet_returns h nw rfl h1 hb hp hok hl, h1, ?_⟩⟩
  have left := standAt_left r.1 u
    { dropLatch { th with watch := w } g.latch with wait := none, sp := th.sp + 16, yielded := th.yielded || g.hdr.yields } addr
  rw [hkept.opens, hkept.span] at left
  exact left

/-! `EXIT` (R162) in a group of one thread. -/

/-- An instruction that may end its group's one thread settles the instances of that thread's crew (R218). -/
theorem issuingCrews_alone {s : State} {g : Group} {u : Nat} (hi : Issues s g) (hm : g.members = [u]) : issuingCrews s = [u / 64] := by
  simp only [issuingCrews, hi.group, hm]
  rfl

/-- A thread at `EXIT`: no loop is open, and the latch of the word is invalid (R162, R40). -/
def atExit (g : Group) (th : Thread) : Thread := { dropLatch th g.latch with loops := [], pc := g.pc }

/-- What `EXIT` does in a lane (R162): the counters decide between its end, or its oldest report, and a wait. -/
def exitOrWait (g : Group) (s : State) (t : Nat) (th : Thread) : LaneOut :=
  if countersZero (atExit g th) then .left (exitLane g s t (atExit g th))
  else .left (noteBlocked { setThread s t { atExit g th with status := .exiting } with parked := s.parked ++ [{ g with members := [t] }] } t)

theorem execExit_alone {s : State} {g : Group} {u : Nat} (hi : Issues s g) (hm : g.members = [u]) (nw : Bool) (p : BitVec 3) :
    execExit nw p s = .next (settleCrews (runControl freeGate p exitOrWait s) [u / 64]) := by
  rw [← issuingCrews_alone hi hm]
  rfl

end Sys2Proof.Machine

/-- Settles O16: the check of a target that is a header succeeds, so that each transfer ends in a thread that stands there; `RET`'s traps come in
the order of R171. -/
theorem transferResults : Obligations.TransferResults := by
  open Sys2Proof.Machine in
  intro a nw p off s g u th
  refine ⟨fun h x hx => ⟨execBrx_left h nw hx, execCalli_left nw h hx⟩, execCall_left, fun h => ⟨fun hb => ?_, fun hb hp => ?_, fun hb hh hp => ?_⟩,
    fun hi hm ht hp => ⟨fun i hmem => ?_, ?_⟩⟩
  · exact execRet_traps (execRet_beyond h nw hb)
  · exact execRet_traps (execRet_poisoned h nw hb hp)
  · exact ⟨fun hl => execRet_traps ((execRet_header h nw hb hh hp).1 hl), (execRet_header h nw hb hh hp).2⟩
  · simp only [List.mem_cons, List.not_mem_nil, or_false] at hmem
    rcases hmem with rfl | rfl | rfl | rfl <;> exact ⟨_, rfl, runControl_fellThrough hi hm ht hp freeGate _⟩
  · exact ⟨_, execExit_alone hi hm nw p, runControl_fellThrough hi hm ht hp freeGate _⟩

/-! The end of a thread (R162, R190, R194, R238, R340), and the instances of its crew (R218). -/

namespace Sys2Proof.Machine

open Sys2Proof

/-- A map with one entry changed, by what becomes of each entry. -/
theorem getK_putK_map {α : Type} {m : Map α} {i : Nat} {x : α} (h : getK m i = some x) (f : α → α) (k : Nat) :
    getK (putK m i (f x)) k = (getK m k).map fun y => if k = i then f y else y := by
  rw [getK_putK]
  by_cases hk : k = i
  · subst hk; simp [h]
  · simp [hk]

theorem modNode_setThread (s : State) (u : Nat) (th : Thread) (n : Nat) (f : Node → Node) :
    modNode (setThread s u th) n f = setThread (modNode s n f) u th := by
  unfold modNode
  change (match getNode s n with | some x => _ | none => _) = _
  cases getNode s n <;> rfl

theorem modNode_eq (s : State) (n : Nat) (f : Node → Node) : modNode s n f = { s with nodes := (modNode s n f).nodes } := by
  unfold modNode
  split <;> rfl

theorem getK_modNode (s : State) (n k : Nat) (f : Node → Node) :
    getK (modNode s n f).nodes k = (getK s.nodes k).map fun x => if k = n then f x else x := by
  unfold modNode
  split
  · next x h => exact getK_putK_map h f k
  · next h =>
    by_cases hk : k = n
    · subst hk
      rw [show getK s.nodes k = none from h]
      rfl
    · simp [hk]

theorem noteCrewEnd_eq (s : State) (crew : Nat) : noteCrewEnd s crew = { s with slots := (noteCrewEnd s crew).slots } := by
  unfold noteCrewEnd
  split
  · split <;> rfl
  · rfl

/-- A slot passes to RETIRING with the last thread of its crew (R194), but for one of a cohort with a bound region (R284, log 32). -/
theorem getK_noteCrewEnd (s : State) (crew c : Nat) :
    getK (noteCrewEnd s crew).slots c = (getK s.slots c).map fun e =>
      if c = crew ∧ e.state = 2 ∧ crewOver s c = true ∧ (∀ x, getCohort s e.cohort = some x → x.regions = []) then { e with state := 3 } else e := by
  have unbound (e : SlotLease) : (∀ x, getCohort s e.cohort = some x → x.regions = []) ↔
      ((getCohort s e.cohort).all fun x => x.regions.isEmpty) = true := by
    cases getCohort s e.cohort <;> simp
  have ended : crewOver s c = crewEnded s c := rfl
  simp only [unbound, ended]
  unfold noteCrewEnd
  by_cases hc : c = crew
  · subst hc
    cases he : getK s.slots c with
    | none => simp [he]
    | some e =>
      dsimp only
      split
      · next h => simp [h]
      · next h =>
        rw [he]
        simp only [Option.map_some, true_and]
        rw [if_neg (fun h' => h ⟨h'.2.1, h'.1, h'.2.2⟩)]
  · simp only [hc, false_and, if_false, Option.map_id']
    split
    · split
      · exact getK_putK_ne _ _ hc
      · rfl
    · rfl

theorem noteTrigger_eq (s : State) (node : Nat) : noteTrigger s node = { s with nodes := (noteTrigger s node).nodes } := by
  unfold noteTrigger
  split
  · split
    · exact modNode_eq _ _ _
    · rfl
  · rfl

/-- A node triggers once its threads have all triggered or ended, unless it has failed (R340). -/
theorem getK_noteTrigger (s : State) (node n : Nat) :
    getK (noteTrigger s node).nodes n = (getK s.nodes n).map fun x =>
      if n = node then { x with triggered := x.triggered || (x.failed.isNone && allTriggered s n x) } else x := by
  unfold noteTrigger getNode
  by_cases hn : n = node
  · subst hn
    cases hx : getK s.nodes n with
    | none => simp [hx]
    | some x =>
      dsimp only
      split
      · next h =>
        simp only [Bool.and_eq_true] at h
        simp [getK_modNode, hx, h]
      · next h =>
        have kept : (x.triggered || (x.failed.isNone && allTriggered s n x)) = x.triggered := by
          cases ht : x.triggered with
          | true => rfl
          | false => simpa [ht] using h
        simp only [hx, Option.map_some, if_true, kept]
  · simp only [hn, if_false, Option.map_id']
    split
    · split
      · simp [getK_modNode, hn]
      · rfl
    · rfl

theorem allTriggered_congr {s t : State} (ht : t.threads = s.threads) (hc : t.cohorts = s.cohorts) (n : Nat) (x : Node) :
    allTriggered t n x = allTriggered s n x := by
  unfold allTriggered
  rw [ht, hc]

/-- A thread that ends and blocks, its node changed (R205). -/
theorem endBlocked_facts (s : State) (u : Nat) (th : Thread) (n : Nat) (f : Node → Node) (h : th.status ≠ .deferred) :
    let b := noteBlocked (modNode (setThread s u th) n f) u
    Moved s b u th (fun _ => true) ∧ b = { s with threads := b.threads, deferrals := b.deferrals, nodes := (modNode s n f).nodes } := by
  obtain ⟨hmoved, hrest⟩ := unwait_moved (modNode s n f) u th (fun _ => true) h
  rw [← modNode_setThread] at hmoved hrest
  refine ⟨moved_congr hmoved (by simp) (by simp) (by simp) rfl rfl, ?_⟩
  rw [modNode_eq s] at hrest
  exact hrest

/-- What the end of a thread leaves (R162, R190, R205, R194): it is as given, its node is changed, and it was perhaps the last of its crew. -/
theorem endThread_facts (s : State) (u : Nat) (th : Thread) (n : Nat) (f : Node → Node) (h : th.status ≠ .deferred) :
    let t := noteCrewEnd (noteBlocked (modNode (setThread s u th) n f) u) (threadCrew u)
    Moved s t u th (fun _ => true) ∧
      (∀ k, getK t.nodes k = (getK s.nodes k).map fun x => if k = n then f x else x) ∧
      (∀ c, getK t.slots c = (getK s.slots c).map fun e =>
        if c = u / 64 ∧ e.state = 2 ∧ crewOver t c = true ∧ (∀ x, getCohort s e.cohort = some x → x.regions = []) then { e with state := 3 } else e) ∧
      t = { s with threads := t.threads, deferrals := t.deferrals, nodes := t.nodes, slots := t.slots } := by
  obtain ⟨hmoved, hb⟩ := endBlocked_facts s u th n f h
  generalize noteBlocked (modNode (setThread s u th) n f) u = b at hmoved hb
  have ht := noteCrewEnd_eq b (threadCrew u)
  have hslots := getK_noteCrewEnd b (threadCrew u)
  have hover (c : Nat) : crewOver (noteCrewEnd b (threadCrew u)) c = crewOver b c := by rw [ht]; rfl
  refine ⟨moved_congr hmoved rfl rfl rfl (by rw [ht]) (by rw [ht]), fun k => ?_, fun c => ?_, ?_⟩
  · rw [ht, ← getK_modNode, hb]
  · rw [hover, hslots, hb]
    rfl
  · rw [ht, hb]

/-- `HALT` ends a thread at once (R190): its pending loads write nothing, and its node fails unless it has failed. -/
theorem haltThread_ended (s : State) (u : Nat) (th : Thread) (code : Nat) :
    Ended s (haltThread s u th code) u { th with status := .halted, loops := [], dc := [], busy := [], watch := none }
      (fun n => if n.failed.isSome then n else { n with failed := some code }) s.opens
      (s.access.map fun c => if c.thread = u then { c with dests := [], dc := 4 } else c) := by
  obtain ⟨hmoved, hnodes, hslots, hrest⟩ := endThread_facts
    { s with access := s.access.map fun c => if c.thread = u then { c with dests := [], dc := 4 } else c } u
    { th with status := .halted, loops := [], dc := [], busy := [], watch := none } th.lc.node
    (fun n => if n.failed.isSome then n else { n with failed := some code }) nofun
  refine ⟨moved_congr hmoved rfl rfl rfl rfl rfl, fun n => (hnodes n).trans ?_, hslots, hrest⟩
  simp only [show (Status.halted == Status.exited) = false from rfl, Bool.false_and, Bool.or_false]

/-- A thread that exits gives its sticky TG and ZS to its node (R66, R162), which may trigger (R340). -/
theorem exitThread_ended (s : State) (u : Nat) (th : Thread) :
    Ended s (exitThread s u th) u { th with status := .exited, loops := [], watch := none }
      (fun n => { n with sticky := n.sticky ||| ((if th.fsr.getLsbD 6 then 4 else 0) + (if th.fsr.getLsbD 5 then 8 else 0)) })
      s.opens s.access := by
  obtain ⟨hmoved, hnodes, hslots, hrest⟩ := endThread_facts s u { th with status := .exited, loops := [], watch := none } th.lc.node
    (fun n => { n with sticky := n.sticky ||| ((if th.fsr.getLsbD 6 then 4 else 0) + (if th.fsr.getLsbD 5 then 8 else 0)) }) nofun
  unfold exitThread
  dsimp only
  generalize noteCrewEnd _ _ = t at hmoved hnodes hslots hrest ⊢
  have ht := noteTrigger_eq t th.lc.node
  have triggers (n : Nat) (x : Node) : allTriggered (noteTrigger t th.lc.node) n x = allTriggered t n x :=
    allTriggered_congr (by rw [ht]) (by rw [ht]) n x
  refine ⟨moved_congr hmoved rfl rfl rfl (by rw [ht]) (by rw [ht]), fun n => ?_, ?_, ?_⟩
  · rw [getK_noteTrigger, hnodes, Option.map_map]
    congr 1
    funext x
    by_cases hn : n = th.lc.node <;> simp [hn, triggers]
  · rw [ht]
    exact hslots
  · rw [ht, hrest]

/-- The reports that `EXIT` may take are those of commands that threads issued (R238). -/
theorem atHeader_iff (r : Report) : r.atHeader = true ↔ direct r := by
  simp only [Report.atHeader, direct, Bool.or_eq_true, beq_iff_eq]

/-- `EXIT` without a report that it may take ends the thread (R162, R238). -/
theorem exitLane_eq_exitThread {s : State} {g : Group} {u : Nat} {th : Thread} (h : ∀ r ∈ th.reports, ¬ direct r) :
    exitLane g s u th = exitThread s u th := by
  have hnone : th.reports.find? Report.atHeader = none := List.find?_eq_none.mpr fun r hr => by simpa only [atHeader_iff] using h r hr
  simp only [exitLane, takeReport, hnone]

/-- The oldest report that a point may take leaves the others (R238). -/
theorem takeReport_direct {th : Thread} {pre post : List Report} {r : Report} (hr : th.reports = pre ++ r :: post) (hpre : ∀ x ∈ pre, ¬ direct x)
    (hd : direct r) : takeReport th Report.atHeader = some (r, { th with reports := pre ++ post }) := by
  have hfind : th.reports.find? Report.atHeader = some r :=
    List.find?_eq_some_iff_append.mpr ⟨(atHeader_iff r).mpr hd, pre, post, hr, fun x hx => by simpa [← atHeader_iff] using hpre x hx⟩
  have hmem : r ∉ pre := fun hmem => hpre r hmem hd
  have herase : th.reports.erase r = pre ++ post := by rw [hr, List.erase_append_right _ hmem, List.erase_cons_head]
  simp only [takeReport, hfind, herase]

/-- A thread that takes an exception without flags at the word of its group (R183). -/
theorem takeTrap_left {th : Thread} {l : Nat} {h : DWord} (hh : handlerOf th = some (l, h)) (s : State) (g : Group) (u code : Nat) (val : DWord) :
    Left s (takeTrap s u th (trapInfoAt g th code val)) u (entered s th 0 (recordAt g th code val) l h) (fun _ => true) s.opens := by
  have e : takeTrap s u th (trapInfoAt g th code val) = trapLane g s u th (.other code val) := by simp [trapLane, Trap.codeVal, Trap.flags]
  rw [e]
  exact trapLane_leaves hh s g u (.other code val)

/-- `EXIT` with a report of a command that threads issued takes it as an exception (R162, R238). -/
theorem exitLane_left {th : Thread} {pre post : List Report} {r : Report} (hr : th.reports = pre ++ r :: post) (hpre : ∀ x ∈ pre, ¬ direct x)
    (hd : direct r) {l : Nat} {h : DWord} (hh : handlerOf th = some (l, h)) (s : State) (g : Group) (u : Nat) :
    Left s (exitLane g s u th) u (entered s { th with reports := pre ++ post } 0 (recordAt g th r.cause r.val) l h) (fun _ => true) s.opens := by
  simp only [exitLane, takeReport_direct hr hpre hd]
  exact takeTrap_left (th := { th with reports := pre ++ post }) hh s g u r.cause r.val

theorem countersZero_iff (th : Thread) : countersZero th = true ↔ ¬ ∃ k, k < 4 ∧ readDc th k ≠ 0 := by
  simp [countersZero]

/-- `EXIT` over one thread ends it, or takes its report, where its counters read zero (R162). -/
theorem runControl_exits {s : State} {g : Group} {u : Nat} {th : Thread} {p : BitVec 3} (h : Alone s g freeGate p u th)
    (hz : ¬ ∃ k, k < 4 ∧ readDc th k ≠ 0) :
    runControl freeGate p exitOrWait s = exitLane g (closeIssuing s) u (atExit g th) := by
  have hzero : countersZero (atExit g th) = true := (countersZero_iff _).mpr hz
  rw [runControl_alone h]
  simp only [exitOrWait, hzero, if_true]

/-- `EXIT` over one thread waits where a counter does not read zero: its group of one is parked (R162, R205). -/
theorem runControl_exit_waits {s : State} {g : Group} {u : Nat} {th : Thread} {p : BitVec 3} (h : Alone s g freeGate p u th)
    (hz : ∃ k, k < 4 ∧ readDc th k ≠ 0) :
    let t := runControl freeGate p exitOrWait s
    Moved s t u { afterWord g th with loops := [], pc := wordAddr g, status := .exiting } (fun _ => true) ∧
      t = { s with
        threads := t.threads, deferrals := t.deferrals, opens := s.opens.eraseIdx s.cur, parked := s.parked ++ [{ g with members := [u] }] } := by
  have hzero : ¬ countersZero (atExit g th) = true := fun hc => (countersZero_iff _).mp hc hz
  obtain ⟨hmoved, hrest⟩ := unwait_moved { closeIssuing s with parked := s.parked ++ [{ g with members := [u] }] } u
    { atExit g th with status := .exiting } (fun _ => true) nofun
  rw [runControl_alone h]
  simp only [exitOrWait, if_neg hzero]
  exact ⟨moved_congr hmoved rfl rfl rfl rfl rfl, hrest⟩

/-- `HALT` over one thread of level 2 (R190). -/
theorem execHalt_alone {s : State} {g : Group} {u : Nat} {th : Thread} {p : BitVec 3} (h : Alone s g ⟨none, 2, 0⟩ p u th) {a : BitVec 6} (nw : Bool)
    {x : Dexel} (hx : srcReg th a = some x) :
    execHalt a nw p s = .next (settleCrews
      (setIssuing (haltThread s u (dropLatch th g.latch) x.val.toNat) { g with members := [], idx := g.idx + 1 }) [u / 64]) := by
  rw [execHalt, issuingCrews_alone h.issues h.members, runGroup_alone h]
  simp only [hx]

/-- A crew none of whose lanes has joined a rendezvous has none to complete (R218). -/
theorem settleCrews_of_none_joined {s : State} {c : Nat}
    (h : ∀ l th, l < 64 → getThread s (c * 64 + l) = some th → (th.wait.map (·.kind)) ≠ some joinedKind) : settleCrews s [c] = s := by
  have hnone : crewInstances s c = [] := by
    unfold crewInstances
    rw [List.filterMap_eq_nil_iff.mpr]
    · rfl
    · intro l hl
      split
      · next th hth => rw [if_neg (h l th (List.mem_range.mp hl) hth)]
      · rfl
  simp only [settleCrews, List.foldl_cons, List.foldl_nil, hnone]

/-- A crew with one joined rendezvous: to complete it is to settle the crew (R218). -/
theorem execRendezvousComplete_alone {s : State} {core slot : Nat} {r : RdvzOp} {pc : DWord} {level : Nat}
    (h : crewInstances s (core * 16 + slot) = [(r, pc, level)]) :
    execRendezvousComplete core slot pc level s = .next (settleCrews s [core * 16 + slot]) := by
  simp [execRendezvousComplete, settleCrews, h]

end Sys2Proof.Machine

/-- Settles O20: what ends a thread is `exitThread` or `haltThread`, and an `EXIT` that does not end it takes a report or waits. -/
theorem endResults : Obligations.EndResults := by
  open Sys2Proof.Machine in
  refine ⟨fun a nw p s g u th => ⟨fun h => ?_, fun x h hx => ?_⟩, fun _ _ => settleCrews_of_none_joined,
    fun _ _ _ _ _ _ _ => execRendezvousComplete_alone⟩
  · have hexec := execExit_alone h.issues h.members nw p
    refine ⟨fun hz hd => ⟨_, hexec, ?_⟩, fun pre r post l handler hz hr hpre hd hh => ⟨_, hexec, ?_⟩,
      fun hz => ⟨_, hexec, runControl_exit_waits h hz⟩⟩
    · rw [runControl_exits h hz, exitLane_eq_exitThread (th := atExit g th) hd]
      obtain ⟨hmoved, hnodes, hslots, hrest⟩ := exitThread_ended (closeIssuing s) u (atExit g th)
      exact ⟨moved_congr hmoved rfl rfl rfl rfl rfl, hnodes, hslots, hrest⟩
    · rw [runControl_exits h hz]
      exact left_of_closeIssuing (exitLane_left (th := atExit g th) hr hpre hd hh (closeIssuing s) g u)
  · obtain ⟨hmoved, hnodes, hslots, hrest⟩ := haltThread_ended s u (dropLatch th g.latch) x.val.toNat
    refine ⟨_, execHalt_alone h nw hx, ⟨moved_congr hmoved rfl rfl rfl rfl rfl, hnodes, hslots, ?_⟩⟩
    rw [hrest]
    rfl

/-! The 32-bit integer instructions (R108, R114-R118, R120-R123): each is a function of its operands' values, and its result is the form's. -/

namespace Sys2Proof.Machine

open Sys2Proof

/-- What O1 asks of one form: in every issuing group whose lanes are free, the form's value goes to its latch and register alone. -/
def FormHolds (f : RegForm) : Prop :=
  ∀ s g, Issues s g → Lanes s g f.pred (fun th => LaneFree g freeGate th ∧ (f.val th).isSome = true ∧ dstReg th f.d f.nw = true) →
    ∃ t, exec f.instr s = .next t ∧
      GroupResult s t g fun _ => LaneAfter g f.pred fun th th' => ∃ v, f.val th = some v ∧ WroteReg g f.d f.nw v th th'

/-- An instruction that puts its form's value into latch and register has that form. -/
theorem formHolds_of_alu {f : RegForm} (lane : Nat → Thread → Except Trap Thread) (hexec : ∀ s, exec f.instr s = .next (alu f.pred lane s))
    (hlane : ∀ k th v, f.val th = some v → dstReg th f.d f.nw = true → lane k th = .ok (putReg th k f.d f.nw v)) : FormHolds f :=
  fun s g hi hgo => ⟨_, hexec s, reg_law f.pred lane f.val f.d f.nw s g hi hlane hgo⟩

/-- The value of a form of two registers: both are legal. -/
theorem intOf2_eq_some {a b : BitVec 6} {f : Word → Word → Word} {th : Thread} {v : Dexel} (h : intOf2 a b f th = some v) :
    ∃ x y, srcReg th a = some x ∧ srcReg th b = some y ∧ v = ⟨f x.val y.val, []⟩ := by
  unfold intOf2 at h
  split at h
  · next x y hx hy => exact ⟨x, y, hx, hy, (Option.some.inj h).symm⟩
  · cases h

/-- The value of a form of one register: it is legal. -/
theorem intOf1_eq_some {a : BitVec 6} {f : Word → Word} {th : Thread} {v : Dexel} (h : intOf1 a f th = some v) :
    ∃ x, srcReg th a = some x ∧ v = ⟨f x.val, []⟩ := by
  obtain ⟨x, hx, rfl⟩ := Option.map_eq_some_iff.mp h
  exact ⟨x, hx, rfl⟩

/-- A three-operand instruction whose operation is the form's (R114). -/
theorem formHolds_int3 {i : Instr} {p : BitVec 3} {d a b : BitVec 6} {nw : Bool} {op rule : Word → Word → Word}
    (hexec : ∀ s, exec i s = .next (int3 d a b nw p op s)) (hop : ∀ x y, op x y = rule x y) : FormHolds ⟨i, p, d, nw, intOf2 a b rule⟩ := by
  refine formHolds_of_alu _ hexec fun k th v hv hd => ?_
  obtain ⟨x, y, hx, hy, rfl⟩ := intOf2_eq_some hv
  simp only [hx, hy, hop, if_pos hd]

/-- A two-operand instruction whose operation is the form's (R115, R121, R122). -/
theorem formHolds_int2 {i : Instr} {p : BitVec 3} {d a : BitVec 6} {nw : Bool} {op rule : Word → Word}
    (hexec : ∀ s, exec i s = .next (int2 d a nw p op s)) (hop : ∀ x, op x = rule x) : FormHolds ⟨i, p, d, nw, intOf1 a rule⟩ := by
  refine formHolds_of_alu _ hexec fun k th v hv hd => ?_
  obtain ⟨x, hx, rfl⟩ := intOf1_eq_some hv
  simp only [hx, hop, if_pos hd]

/-! The operations against their rules in R108. -/

theorem mulHigh_eq (x y : Word) : mulHigh x y = BitVec.ofInt 32 (x.toInt * y.toInt / 2 ^ 32) := by
  rw [mulHigh, Int.fdiv_eq_ediv_of_nonneg _ (by norm_num)]

theorem rotL_eq (x y : Word) : rotL x y = (x <<< (y.toNat % 32)) ||| (x >>> ((32 - y.toNat % 32) % 32)) := by
  have hlt : y.toNat % 32 < 32 := Nat.mod_lt _ (by norm_num)
  rw [rotL, BitVec.rotateLeft_def, Nat.mod_eq_of_lt hlt]
  rcases Nat.eq_zero_or_pos (y.toNat % 32) with h0 | hpos
  · rw [h0, Nat.sub_zero, Nat.mod_self, BitVec.shiftLeft_zero, BitVec.ushiftRight_zero, BitVec.or_self,
      BitVec.ushiftRight_eq_zero (le_refl 32), BitVec.or_zero]
  · rw [Nat.mod_eq_of_lt (by omega : 32 - y.toNat % 32 < 32)]

theorem absDiff_eq (x y : Word) : absDiff x y = BitVec.ofNat 32 (x.toInt - y.toInt).natAbs := BitVec.ofInt_natCast 32 _

theorem signedMin_eq (x y : Word) : (if y.slt x then y else x) = if x.toInt ≤ y.toInt then x else y := by
  simp only [BitVec.slt_iff_toInt_lt, ← Int.not_le, ite_not]

theorem signedMax_eq (x y : Word) : (if x.slt y then y else x) = if y.toInt ≤ x.toInt then x else y := by
  simp only [BitVec.slt_iff_toInt_lt, ← Int.not_le, ite_not]

theorem unsignedMin_eq (x y : Word) : (if y.ult x then y else x) = if x.toNat ≤ y.toNat then x else y := by
  simp only [BitVec.ult_iff_toNat_lt, ← Nat.not_le, ite_not]

theorem unsignedMax_eq (x y : Word) : (if x.ult y then y else x) = if y.toNat ≤ x.toNat then x else y := by
  simp only [BitVec.ult_iff_toNat_lt, ← Nat.not_le, ite_not]

/-- The overflowing quotient wraps to the dividend (R108). -/
theorem sdivWord_eq (x y : Word) : sdivWord x y =
    if y = 0 then 0xFFFFFFFF else if x = 0x80000000 ∧ y = 0xFFFFFFFF then 0x80000000 else BitVec.ofInt 32 (x.toInt.tdiv y.toInt) := by
  by_cases h : x = 0x80000000 ∧ y = 0xFFFFFFFF
  · obtain ⟨rfl, rfl⟩ := h
    decide
  · rw [sdivWord, if_neg h]

/-- The remainder of the overflowing quotient is 0 (R108). -/
theorem sremWord_eq (x y : Word) : sremWord x y =
    if y = 0 then x else if x = 0x80000000 ∧ y = 0xFFFFFFFF then 0 else BitVec.ofInt 32 (x.toInt.tmod y.toInt) := by
  by_cases h : x = 0x80000000 ∧ y = 0xFFFFFFFF
  · obtain ⟨rfl, rfl⟩ := h
    decide
  · rw [sremWord, if_neg h]

theorem udivWord_eq (x y : Word) : udivWord x y = if y = 0 then 0xFFFFFFFF else x / y := by
  rw [udivWord, BitVec.udiv_def]

theorem uremWord_eq (x y : Word) : uremWord x y = if y = 0 then x else x % y := by
  rw [uremWord, BitVec.umod_def]

/-- The amount of `SHFI` is below 32, so that the shifts take it whole (R122). -/
theorem amount_lt (amount : BitVec 5) : (amount.setWidth 6).toNat = amount.toNat ∧ amount.toNat < 32 := by
  have := amount.isLt
  simp only [BitVec.toNat_setWidth]
  omega

/-- `SHFI` of KIND 0-3 and an amount below 32 is one of the four shifts by it (R122). -/
theorem execShfi_of_kind {d a : BitVec 6} {kind : BitVec 4} {m : BitVec 6} (nw q : Bool) (s : State) (hk : kind.toNat < 4) (hm : m.toNat < 32) :
    execShfi d a kind m nw q s = .next (int2 d a nw (predBit q)
      (([shiftL, shiftR, shiftA, rotL].getD kind.toNat rotL) · (BitVec.ofNat 32 m.toNat)) s) := by
  have hlegal : ¬ (kind.toNat ≥ 7 ∨ (kind.toNat < 4 ∧ m.toNat ≥ 32)) := by omega
  rw [execShfi, if_neg hlegal]
  interval_cases kind.toNat <;> rfl

/-- The form of `SHFI` whose KIND names a shift with this rule. -/
theorem formHolds_shfi {kind : BitVec 4} {rule : Word → Nat → Word} (d a : BitVec 6) (nw q : Bool) (amount : BitVec 5) (hk : kind.toNat < 4)
    (hop : ∀ x y : Word, [shiftL, shiftR, shiftA, rotL].getD kind.toNat rotL x y = rule x (y.toNat % 32)) :
    FormHolds ⟨.shfi d a kind (amount.setWidth 6) nw q, if q then 0 else 7, d, nw, intOf1 a fun x => rule x amount.toNat⟩ := by
  obtain ⟨hwidth, hlt⟩ := amount_lt amount
  refine formHolds_int2 (fun s => execShfi_of_kind nw q s hk (by omega)) fun x => ?_
  have hamount : (BitVec.ofNat 32 (amount.setWidth 6).toNat).toNat % 32 = amount.toNat := by
    rw [hwidth, BitVec.toNat_ofNat]
    omega
  rw [hop, hamount]

/-- `BFI` reads the old value of its destination as a third source (R116). -/
theorem formHolds_bfi (d a b : BitVec 6) (nw : Bool) (p : BitVec 3) :
    FormHolds ⟨.bfi d a b nw p, p, d, nw, fun th => intOf2 a b (insertField (readReg th d.toNat).val) th⟩ := by
  refine formHolds_of_alu _ (fun _ => rfl) fun k th v hv hd => ?_
  obtain ⟨x, y, hx, hy, rfl⟩ := intOf2_eq_some hv
  simp only [hx, hy, if_pos hd]

/-- `SEL` runs in every thread, and its predicate field chooses the operand that passes whole (R117). -/
theorem formHolds_sel (d a b : BitVec 6) (nw : Bool) (p : BitVec 3) :
    FormHolds ⟨.sel d a b nw p, 7, d, nw, fun th =>
      match srcReg th a, srcReg th b with
      | some x, some y => some (if readPred th p.toNat then x else y)
      | _, _ => none⟩ := by
  refine formHolds_of_alu _ (fun _ => rfl) fun k th v hv hd => ?_
  dsimp only at hv
  split at hv
  · next x y hx hy =>
    obtain rfl := Option.some.inj hv
    simp only [hx, hy, if_pos hd]
  · cases hv

/-- `IMAD` (R120). -/
theorem formHolds_imad (d a b c : BitVec 6) (nw q : Bool) :
    FormHolds ⟨.imad d a b c nw q, if q then 0 else 7, d, nw, fun th =>
      match srcReg th a, srcReg th b, srcReg th c with
      | some x, some y, some z => some ⟨x.val * y.val + z.val, []⟩
      | _, _, _ => none⟩ := by
  refine formHolds_of_alu _ (fun _ => rfl) fun k th v hv hd => ?_
  dsimp only at hv
  split at hv
  · next x y z hx hy hz =>
    obtain rfl := Option.some.inj hv
    simp only [hx, hy, hz, if_pos hd]
  · cases hv

/-- `LUI` has no source (R123). -/
theorem formHolds_lui (d : BitVec 6) (i20 : BitVec 20) : FormHolds ⟨.lui d i20, 7, d, false, fun _ => some ⟨i20.setWidth 32 <<< 12, []⟩⟩ := by
  refine formHolds_of_alu _ (fun _ => rfl) fun k th v hv hd => ?_
  obtain rfl := Option.some.inj hv
  exact if_pos hd

/-- Every form of the table holds, each by the law of its shape and the rule of its operation. -/
theorem intForms_hold (d a b c : BitVec 6) (nw : Bool) (p : BitVec 3) (q : Bool) (i12 : BitVec 12) (i20 : BitVec 20) (amount : BitVec 5) :
    ∀ f ∈ intForms d a b c nw p q i12 i20 amount, FormHolds f := by
  have same {op : Word → Word → Word} : ∀ x y, op x y = op x y := fun _ _ => rfl
  simp only [intForms, List.forall_mem_cons]
  refine ⟨formHolds_int3 (fun _ => rfl) same, formHolds_int3 (fun _ => rfl) same, formHolds_int3 (fun _ => rfl) same,
    formHolds_int3 (fun _ => rfl) mulHigh_eq, formHolds_int3 (fun _ => rfl) same, formHolds_int3 (fun _ => rfl) same,
    formHolds_int3 (fun _ => rfl) same, formHolds_int3 (fun _ => rfl) same, formHolds_int3 (fun _ => rfl) same,
    formHolds_int3 (fun _ => rfl) same, formHolds_int3 (fun _ => rfl) same, formHolds_int3 (fun _ => rfl) same,
    formHolds_int3 (fun _ => rfl) rotL_eq, formHolds_int3 (fun _ => rfl) signedMin_eq, formHolds_int3 (fun _ => rfl) signedMax_eq,
    formHolds_int3 (fun _ => rfl) absDiff_eq, formHolds_int3 (fun _ => rfl) unsignedMin_eq, formHolds_int3 (fun _ => rfl) unsignedMax_eq,
    formHolds_int2 (fun _ => rfl) fun _ => rfl, formHolds_int2 (fun _ => rfl) fun _ => rfl, formHolds_int2 (fun _ => rfl) fun _ => rfl,
    formHolds_int2 (fun _ => rfl) fun _ => rfl, formHolds_int3 (fun _ => rfl) same, formHolds_bfi d a b nw p,
    formHolds_int3 (fun _ => rfl) same, formHolds_int3 (fun _ => rfl) sdivWord_eq, formHolds_int3 (fun _ => rfl) udivWord_eq,
    formHolds_int3 (fun _ => rfl) sremWord_eq, formHolds_int3 (fun _ => rfl) uremWord_eq, formHolds_sel d a b nw p,
    formHolds_imad d a b c nw q, formHolds_int2 (fun _ => rfl) fun _ => rfl, formHolds_int2 (fun _ => rfl) fun _ => rfl,
    formHolds_int2 (fun _ => rfl) fun _ => rfl, formHolds_int2 (fun _ => rfl) fun _ => rfl,
    formHolds_shfi (rule := fun x n => x <<< n) d a nw q amount (by decide) same,
    formHolds_shfi (rule := fun x n => x >>> n) d a nw q amount (by decide) same,
    formHolds_shfi (rule := fun x n => x.sshiftRight n) d a nw q amount (by decide) same,
    formHolds_shfi (rule := fun x n => (x <<< n) ||| (x >>> ((32 - n) % 32))) d a nw q amount (by decide) rotL_eq,
    formHolds_lui d i20, by simp⟩

end Sys2Proof.Machine

/-- Settles O1: every instruction of the table is a function of its operands' values, which its form's rule equals. -/
theorem integerRegisterResults : Obligations.IntegerRegisterResults := Sys2Proof.Machine.intForms_hold

/-! Sums, differences, products and fused products (R93, R96, R124): exact on the values of finite patterns, then rounded once. -/

namespace Sys2Proof.Machine

open Sys2Proof

/-- The number that a signed magnitude and an exponent stand for (R88). -/
def numberOf (neg : Bool) (m : Nat) (e : ℤ) : ℚ := (signed neg m : ℚ) * 2 ^ e

/-- A pattern whose value is finite is no NaN, and the value has the pattern's sign. -/
theorem fval_eq_fin {f : IeeeFmt} {a : Nat} {neg : Bool} {m : Nat} {e : ℤ} (h : fval f a = .fin neg m e) :
    isNaN f a = false ∧ neg = signBit f a := by
  unfold fval at h
  by_cases htop : expField f a = f.topExp
  · rw [if_pos htop] at h
    split at h <;> cases h
  · rw [if_neg htop] at h
    refine ⟨by simp [isNaN, htop], ?_⟩
    split at h <;> cases h <;> rfl

/-- A pattern that stands for a number: that of its value, which has the pattern's sign. -/
theorem realOf_eq_some {f : IeeeFmt} {a : Nat} {x : ℚ} (h : realOf f a = some x) :
    isNaN f a = false ∧ ∃ m e, fval f a = .fin (signBit f a) m e ∧ x = numberOf (signBit f a) m e := by
  unfold realOf at h
  split at h
  · next n m e hval =>
    obtain ⟨hnan, rfl⟩ := fval_eq_fin hval
    refine ⟨hnan, m, e, hval, ?_⟩
    rw [← Option.some.inj h]
    cases signBit f a <;> simp [numberOf, signed]
  · cases h

/-- The NaN rule leaves numbers alone (R90). -/
theorem firstNaN_of_numbers {f : IeeeFmt} {xs : List Nat} (h : ∀ x ∈ xs, isNaN f x = false) : firstNaN f xs = none := by
  induction xs with
  | nil => rfl
  | cons x xs ih =>
    rw [firstNaN, h x List.mem_cons_self]
    exact ih fun y hy => h y (List.mem_cons_of_mem _ hy)

theorem orNaN_of_numbers {f : IeeeFmt} {xs : List Nat} (h : ∀ x ∈ xs, isNaN f x = false) (r : FRes) : orNaN f xs r = r := by
  rw [orNaN, firstNaN_of_numbers h]

/-- A result is the one rounding of a nonzero exact value (R93, R96). -/
def RoundedOnce (f : IeeeFmt) (mode : RMode) (v : ℚ) (r : FRes) : Prop :=
  ∃ (neg : Bool) (m : Nat) (e : ℤ), (neg = true ↔ v < 0) ∧ 0 < m ∧ |v| = (m : ℚ) * 2 ^ e ∧ r = roundFin f mode neg m e false

/-- A result is the one rounding of an exact value, or the zero of the given sign with no flag. -/
def ExactThenRounded (f : IeeeFmt) (mode : RMode) (v : ℚ) (zeroNeg : Bool) (r : FRes) : Prop :=
  (v ≠ 0 → RoundedOnce f mode v r) ∧ (v = 0 → r = ⟨f.zero zeroNeg, 0⟩)

/-- The rounding of a nonzero integer number of units is the rounding of that number. -/
theorem roundedOnce_units (f : IeeeFmt) (mode : RMode) {v : ℤ} (hv : v ≠ 0) (e : ℤ) :
    RoundedOnce f mode ((v : ℚ) * 2 ^ e) (roundFin f mode (decide (v < 0)) v.natAbs e false) := by
  refine ⟨_, _, _, ?_, Int.natAbs_pos.mpr hv, ?_, rfl⟩
  · rw [decide_eq_true_iff, ← Int.cast_lt_zero (R := ℚ), ← mul_lt_mul_iff_left₀ (zpow_pos two_pos e), zero_mul]
  · rw [abs_mul, abs_of_pos (zpow_pos two_pos e : (0 : ℚ) < 2 ^ e), Nat.cast_natAbs, Int.cast_abs]

/-- A number in units of a lower power of two. -/
theorem numberOf_in_units (neg : Bool) (m : Nat) {e u : ℤ} (h : u ≤ e) :
    numberOf neg m e = (signed neg (m * 2 ^ (e - u).toNat) : ℚ) * 2 ^ u := by
  have hpow : (2 : ℚ) ^ e = 2 ^ (e - u).toNat * 2 ^ u := by
    rw [← zpow_natCast, Int.toNat_of_nonneg (by omega), ← zpow_add₀ (by norm_num)]
    congr 1
    omega
  cases neg <;> simp [numberOf, signed, hpow, mul_assoc]

/-- The sum of two finite values is exact before it is rounded (R93). -/
theorem sumFVal_exact (f : IeeeFmt) (mode : RMode) (n1 n2 : Bool) (m1 m2 : Nat) (e1 e2 : ℤ) :
    ExactThenRounded f mode (numberOf n1 m1 e1 + numberOf n2 m2 e2) (zeroSumSign mode n1 n2) (sumFVal f mode (.fin n1 m1 e1) (.fin n2 m2 e2)) := by
  have hmin : (if e1 ≤ e2 then e1 else e2) = min e1 e2 := (min_def e1 e2).symm
  have hsum : numberOf n1 m1 e1 + numberOf n2 m2 e2 =
      ((signed n1 (m1 * 2 ^ (e1 - min e1 e2).toNat) + signed n2 (m2 * 2 ^ (e2 - min e1 e2).toNat) : ℤ) : ℚ) * 2 ^ min e1 e2 := by
    rw [numberOf_in_units n1 m1 (min_le_left e1 e2), numberOf_in_units n2 m2 (min_le_right e1 e2), Int.cast_add, add_mul]
  simp only [sumFVal, hmin]
  rw [hsum]
  generalize signed n1 _ + signed n2 _ = v
  have hzero : (v : ℚ) * 2 ^ min e1 e2 = 0 ↔ v = 0 := by
    rw [mul_eq_zero, or_iff_left (zpow_pos two_pos _).ne', Int.cast_eq_zero]
  refine ⟨fun h => ?_, fun h => ?_⟩
  · have hv : v ≠ 0 := fun h0 => h (hzero.mpr h0)
    rw [if_neg hv]
    exact roundedOnce_units f mode hv _
  · rw [if_pos (hzero.mp h)]

theorem numberOf_not (neg : Bool) (m : Nat) (e : ℤ) : numberOf (!neg) m e = -numberOf neg m e := by
  cases neg <;> simp [numberOf, signed]

theorem numberOf_mul (n1 n2 : Bool) (m1 m2 : Nat) (e1 e2 : ℤ) :
    numberOf n1 m1 e1 * numberOf n2 m2 e2 = numberOf (n1 != n2) (m1 * m2) (e1 + e2) := by
  have hpow : (2 : ℚ) ^ (e1 + e2) = 2 ^ e1 * 2 ^ e2 := zpow_add₀ (by norm_num) e1 e2
  cases n1 <;> cases n2 <;> simp [numberOf, signed, hpow] <;> ring

/-- A finite value rounded by itself; a zero keeps its sign. -/
theorem roundFVal_exact (f : IeeeFmt) (mode : RMode) (neg : Bool) (m : Nat) (e : ℤ) :
    ExactThenRounded f mode (numberOf neg m e) neg (roundFVal f mode (.fin neg m e)) := by
  have hm : 0 < m → (0 : ℚ) < m * 2 ^ e := fun h => mul_pos (Nat.cast_pos.mpr h) (zpow_pos two_pos e)
  rcases Nat.eq_zero_or_pos m with rfl | hpos
  · have hzero : numberOf neg 0 e = 0 := by cases neg <;> simp [numberOf, signed]
    exact ⟨fun h => absurd hzero h, fun _ => rfl⟩
  · have habs : |numberOf neg m e| = m * 2 ^ e := by cases neg <;> simp [numberOf, signed]
    have hneg : neg = true ↔ numberOf neg m e < 0 := by
      cases neg
      · simpa [numberOf, signed] using (hm hpos).le
      · simpa [numberOf, signed] using hm hpos
    refine ⟨fun _ => ⟨neg, m, e, hneg, hpos, habs, rfl⟩, fun h => ?_⟩
    rw [h, abs_zero] at habs
    exact absurd habs (hm hpos).ne

section

variable {f : IeeeFmt} {a b c : Nat} {x y z : ℚ} (mode : RMode)

/-- Addition (R124). -/
theorem fpAdd_exact (ha : realOf f a = some x) (hb : realOf f b = some y) :
    ExactThenRounded f mode (x + y) (zeroSumSign mode (signBit f a) (signBit f b)) (fpAdd f mode a b) := by
  obtain ⟨hna, ma, ea, hva, rfl⟩ := realOf_eq_some ha
  obtain ⟨hnb, mb, eb, hvb, rfl⟩ := realOf_eq_some hb
  rw [fpAdd, orNaN_of_numbers (by simp [hna, hnb]), hva, hvb]
  exact sumFVal_exact f mode _ _ _ _ _ _

/-- Subtraction is the sum with the second operand's sign flipped (R124). -/
theorem fpSub_exact (ha : realOf f a = some x) (hb : realOf f b = some y) :
    ExactThenRounded f mode (x - y) (zeroSumSign mode (signBit f a) (!signBit f b)) (fpSub f mode a b) := by
  obtain ⟨hna, ma, ea, hva, rfl⟩ := realOf_eq_some ha
  obtain ⟨hnb, mb, eb, hvb, rfl⟩ := realOf_eq_some hb
  rw [fpSub, orNaN_of_numbers (by simp [hna, hnb]), hva, hvb, sub_eq_add_neg, ← numberOf_not]
  exact sumFVal_exact f mode _ _ _ _ _ _

/-- Multiplication (R124). -/
theorem fpMul_exact (ha : realOf f a = some x) (hb : realOf f b = some y) :
    ExactThenRounded f mode (x * y) (signBit f a != signBit f b) (fpMul f mode a b) := by
  obtain ⟨hna, ma, ea, hva, rfl⟩ := realOf_eq_some ha
  obtain ⟨hnb, mb, eb, hvb, rfl⟩ := realOf_eq_some hb
  rw [fpMul, orNaN_of_numbers (by simp [hna, hnb]), hva, hvb, numberOf_mul]
  exact roundFVal_exact f mode _ _ _

/-- The fused form adds the exact product (R124, R128). -/
theorem fpFma_exact (ha : realOf f a = some x) (hb : realOf f b = some y) (hc : realOf f c = some z) :
    ExactThenRounded f mode (x * y + z) (zeroSumSign mode (signBit f a != signBit f b) (signBit f c)) (fpFma f mode false false a b c) := by
  obtain ⟨hna, ma, ea, hva, rfl⟩ := realOf_eq_some ha
  obtain ⟨hnb, mb, eb, hvb, rfl⟩ := realOf_eq_some hb
  obtain ⟨hnc, mc, ec, hvc, rfl⟩ := realOf_eq_some hc
  have hprod : mulFVal (fval f a) (fval f b) = .fin (signBit f a != signBit f b) (ma * mb) (ea + eb) := by rw [hva, hvb, mulFVal]
  have hfma : fpFma f mode false false a b c = sumFVal f mode (.fin (signBit f a != signBit f b) (ma * mb) (ea + eb)) (.fin (signBit f c) mc ec) := by
    simp [fpFma, firstNaN_of_numbers (f := f) (xs := [a, b, c]) (by simp [hna, hnb, hnc]), hprod, hvc]
  rw [hfma, numberOf_mul]
  exact sumFVal_exact f mode _ _ _ _ _ _

end

end Sys2Proof.Machine

/-- Settles O60: each operation is a signed whole number of units of the lower exponent, exact, which is rounded once. -/
theorem arithmeticIsExactThenRounded : Obligations.ArithmeticIsExactThenRounded := by
  open Sys2Proof.Machine in
  intro f _ mode a b c x y z ha hb hc
  obtain ⟨hadd, haddZero⟩ := fpAdd_exact mode ha hb
  obtain ⟨hsub, hsubZero⟩ := fpSub_exact mode ha hb
  obtain ⟨hmul, hmulZero⟩ := fpMul_exact mode ha hb
  obtain ⟨hfma, hfmaZero⟩ := fpFma_exact mode ha hb hc
  exact ⟨hadd, haddZero, hsub, hsubZero, hmul, hmulZero, hfma, hfmaZero⟩

/-! Rounding to the IEEE formats (R93-R95, R97): a magnitude in units of any weight is rounded to the whole number that its mode chooses, and
the pattern put together from that number stands for as many units. -/

namespace Sys2Proof.Machine

open Sys2Proof

/-! What the mode chooses (R93). -/

/-- Whether a mode goes from q up to q + 1 for q + t units, where 0 ≤ t < 1 (R93). -/
def GoesUp (mode : RMode) (neg : Bool) (q : ℤ) (t : ℚ) : Prop :=
  match mode with
  | .rne => 1 / 2 < t ∨ (t = 1 / 2 ∧ q % 2 = 1)
  | .rtz => False
  | .rdn => neg = true ∧ 0 < t
  | .rup => neg = false ∧ 0 < t
  | .rna => 1 / 2 ≤ t

/-- The machine goes up as the mode says of the dropped part. -/
theorem roundsUp_iff (mode : RMode) (neg : Bool) (q r sh : Nat) :
    roundsUp mode neg q r sh false = true ↔ GoesUp mode neg q ((r : ℚ) / 2 ^ sh) := by
  have hpos : (0 : ℚ) < 2 ^ sh := by positivity
  have hhalf : (r : ℚ) / 2 ^ sh = 1 / 2 ↔ 2 * r = 2 ^ sh := by
    rw [div_eq_div_iff hpos.ne' two_ne_zero, ← Nat.cast_inj (R := ℚ)]
    push_cast
    rw [one_mul, mul_comm (r : ℚ)]
  have hle : (1 : ℚ) / 2 ≤ r / 2 ^ sh ↔ 2 ^ sh ≤ 2 * r := by
    rw [div_le_div_iff₀ two_pos hpos, ← Nat.cast_le (α := ℚ)]
    push_cast
    rw [one_mul, mul_comm (r : ℚ)]
  have hless : (1 : ℚ) / 2 < r / 2 ^ sh ↔ 2 ^ sh < 2 * r := by
    rw [lt_iff_le_and_ne, lt_iff_le_and_ne, hle, ne_comm, ne_eq, hhalf, ne_comm, ne_eq]
  have hodd : (q : ℤ) % 2 = 1 ↔ q % 2 = 1 := by omega
  have hrest : (0 : ℚ) < r / 2 ^ sh ↔ r ≠ 0 := by
    rw [div_pos_iff_of_pos_right hpos, Nat.cast_pos, Nat.pos_iff_ne_zero]
  cases mode with
  | rne => simp [roundsUp, GoesUp, hless, hhalf, hodd, -one_div]
  | rtz => simp [roundsUp, GoesUp]
  | rdn => simp [roundsUp, GoesUp, hrest]
  | rup => simp [roundsUp, GoesUp, hrest]
  | rna => simp [roundsUp, GoesUp, hle, -one_div]

theorem chosen_of_goesUp {mode : RMode} {neg : Bool} {q : ℤ} {t : ℚ} (ht : t < 1) (h : GoesUp mode neg q t) :
    Chosen mode neg (q + t) ((q + 1 : ℤ)) := by
  have habs : |(q : ℚ) + t - ((q + 1 : ℤ) : ℚ)| = 1 - t := by
    rw [abs_sub_comm, abs_of_pos] <;> push_cast <;> linarith
  cases mode with
  | rne =>
    rcases h with h | ⟨h, hq⟩
    · exact .inl (by rw [habs]; linarith)
    · exact .inr ⟨by rw [habs, h]; norm_num, by omega⟩
  | rtz => exact h.elim
  | rdn =>
    obtain ⟨rfl, h⟩ := h
    constructor <;> push_cast <;> linarith
  | rup =>
    obtain ⟨rfl, h⟩ := h
    constructor <;> push_cast <;> linarith
  | rna =>
    rcases lt_or_eq_of_le h with h | h
    · exact .inl (by rw [habs]; linarith)
    · exact .inr ⟨by rw [habs, ← h]; norm_num, by push_cast; linarith⟩

theorem chosen_of_not_goesUp {mode : RMode} {neg : Bool} {q : ℤ} {t : ℚ} (h0 : 0 ≤ t) (ht : t < 1) (h : ¬ GoesUp mode neg q t) :
    Chosen mode neg (q + t) q := by
  have habs : |(q : ℚ) + t - q| = t := by rw [add_sub_cancel_left, abs_of_nonneg h0]
  have htoward : (q : ℚ) ≤ q + t ∧ (q : ℚ) + t < q + 1 := ⟨by linarith, by linarith⟩
  have haway (hzero : ¬ 0 < t) : (q : ℚ) - 1 < q + t ∧ (q : ℚ) + t ≤ q := ⟨by linarith, by linarith⟩
  cases mode with
  | rne =>
    obtain ⟨hle, htie⟩ := not_or.mp h
    rcases lt_or_eq_of_le (not_lt.mp hle) with h | h
    · exact .inl (habs.trans_lt h)
    · exact .inr ⟨habs.trans h, Int.emod_two_ne_one.mp fun hq => htie ⟨h, hq⟩⟩
  | rtz => exact htoward
  | rdn =>
    cases neg with
    | true => exact haway fun hpos => h ⟨rfl, hpos⟩
    | false => exact htoward
  | rup =>
    cases neg with
    | true => exact htoward
    | false => exact haway fun hpos => h ⟨rfl, hpos⟩
  | rna => exact .inl (habs.trans_lt (not_le.mp h))

/-- The number chosen lies less than one unit away. -/
theorem chosen_near {mode : RMode} {neg : Bool} {y : ℚ} {n : ℤ} (h : Chosen mode neg y n) : |y - n| < 1 := by
  have toward (h : (n : ℚ) ≤ y ∧ y < n + 1) : |y - n| < 1 := abs_lt.mpr ⟨by linarith, by linarith⟩
  have away (h : (n : ℚ) - 1 < y ∧ y ≤ n) : |y - n| < 1 := abs_lt.mpr ⟨by linarith, by linarith⟩
  cases mode with
  | rne => rcases h with h | ⟨h, -⟩ <;> linarith
  | rtz => exact toward h
  | rdn =>
    cases neg with
    | true => exact away h
    | false => exact toward h
  | rup =>
    cases neg with
    | true => exact toward h
    | false => exact away h
  | rna => rcases h with h | ⟨h, -⟩ <;> linarith

/-- A whole number below the value is below the number chosen. -/
theorem le_chosen {mode : RMode} {neg : Bool} {y : ℚ} {n i : ℤ} (h : Chosen mode neg y n) (hi : (i : ℚ) ≤ y) : i ≤ n := by
  have hn : (i : ℚ) < n + 1 := by linarith [(abs_lt.mp (chosen_near h)).2]
  exact Int.lt_add_one_iff.mp (by exact_mod_cast hn)

/-- A whole number above the value is above the number chosen. -/
theorem chosen_le {mode : RMode} {neg : Bool} {y : ℚ} {n i : ℤ} (h : Chosen mode neg y n) (hi : y ≤ i) : n ≤ i := by
  have hn : (n : ℚ) < i + 1 := by linarith [(abs_lt.mp (chosen_near h)).1]
  exact Int.lt_add_one_iff.mp (by exact_mod_cast hn)

/-! A magnitude rounded in units of a power of two. -/

/-- A magnitude as its kept part and its dropped part. -/
theorem kept_add_dropped (m sh : Nat) : (m : ℚ) / 2 ^ sh = ((m / 2 ^ sh : ℕ) : ℤ) + ((m % 2 ^ sh : ℕ) : ℚ) / 2 ^ sh := by
  have hm : (m : ℚ) = 2 ^ sh * (m / 2 ^ sh : ℕ) + (m % 2 ^ sh : ℕ) := by exact_mod_cast (Nat.div_add_mod m (2 ^ sh)).symm
  nth_rw 1 [hm]
  rw [add_div, mul_div_cancel_left₀ _ (by positivity), Int.cast_natCast]

theorem dropped_lt_one (m sh : Nat) : ((m % 2 ^ sh : ℕ) : ℚ) / 2 ^ sh < 1 := by
  rw [div_lt_one (by positivity)]
  exact_mod_cast Nat.mod_lt m (by positivity)

theorem roundShift_chosen (mode : RMode) (neg : Bool) (m sh : Nat) :
    Chosen mode neg ((m : ℚ) / 2 ^ sh) ((roundShift mode neg m sh false).1 : ℕ) := by
  rw [kept_add_dropped]
  by_cases h : roundsUp mode neg (m / 2 ^ sh) (m % 2 ^ sh) sh false = true
  · simp only [roundShift, if_pos h]
    exact chosen_of_goesUp (dropped_lt_one m sh) ((roundsUp_iff ..).mp h)
  · simp only [roundShift, if_neg h]
    exact chosen_of_not_goesUp (by positivity) (dropped_lt_one m sh) (mt (roundsUp_iff ..).mpr h)

/-- No whole number lies strictly between two that follow each other. -/
theorem ne_between {n q : ℤ} {t : ℚ} (h0 : 0 < t) (h1 : t < 1) : (n : ℚ) ≠ q + t := by
  intro h
  have hlow : (q : ℚ) < n := by linarith
  have hhigh : (n : ℚ) < (q + 1 : ℤ) := by push_cast; linarith
  exact absurd (Int.cast_lt.mp hlow) (by have := Int.cast_lt.mp hhigh; omega)

/-- The rounding is exact where nothing is dropped, and only there: what is dropped lies strictly between two whole numbers. -/
theorem roundShift_exact (mode : RMode) (neg : Bool) (m sh : Nat) :
    (roundShift mode neg m sh false).2 = false ↔ (((roundShift mode neg m sh false).1 : ℤ) : ℚ) = m / 2 ^ sh := by
  have hflag : (roundShift mode neg m sh false).2 = false ↔ m % 2 ^ sh = 0 := by simp [roundShift]
  have hchosen := roundShift_chosen mode neg m sh
  rw [hflag]
  constructor
  · intro hzero
    have hkept : (m : ℚ) / 2 ^ sh = ((m / 2 ^ sh : ℕ) : ℤ) := by rw [kept_add_dropped, hzero]; simp
    rw [hkept] at hchosen ⊢
    exact congrArg Int.cast (le_antisymm (chosen_le hchosen le_rfl) (le_chosen hchosen le_rfl))
  · intro hexact
    by_contra hzero
    have hpos : (0 : ℚ) < ((m % 2 ^ sh : ℕ) : ℚ) / 2 ^ sh := by have := Nat.pos_of_ne_zero hzero; positivity
    rw [kept_add_dropped] at hexact
    exact ne_between hpos (dropped_lt_one m sh) hexact

/-- m · 2^e rounded in units of 2^u, and whether that is inexact. -/
def roundedTo (mode : RMode) (neg : Bool) (m : Nat) (e u : ℤ) : Nat × Bool := roundShift mode neg m (u - e).toNat false

section

variable (mode : RMode) (neg : Bool) (m : Nat) {e u : ℤ} (h : e ≤ u)

include h

theorem in_units_eq : (m : ℚ) * 2 ^ e / 2 ^ u = m / 2 ^ (u - e).toNat := by
  rw [← zpow_natCast, Int.toNat_of_nonneg (by omega), zpow_sub₀ two_ne_zero, div_div_eq_mul_div]

theorem roundedTo_chosen : Chosen mode neg ((m : ℚ) * 2 ^ e / 2 ^ u) ((roundedTo mode neg m e u).1 : ℕ) := by
  rw [in_units_eq m h]
  exact roundShift_chosen mode neg m _

theorem roundedTo_exact : (roundedTo mode neg m e u).2 = false ↔ (((roundedTo mode neg m e u).1 : ℤ) : ℚ) * 2 ^ u = m * 2 ^ e := by
  rw [← eq_div_iff (zpow_pos two_pos u).ne', in_units_eq m h]
  exact roundShift_exact mode neg m _

/-- A magnitude of at least 2^i units is rounded to at least as many. -/
theorem le_roundedTo {i : Nat} (hi : (2 : ℚ) ^ (u + i) ≤ m * 2 ^ e) : 2 ^ i ≤ (roundedTo mode neg m e u).1 := by
  have hunits : (((2 ^ i : ℕ) : ℤ) : ℚ) ≤ m * 2 ^ e / 2 ^ u := by
    rw [le_div_iff₀ (zpow_pos two_pos u), mul_comm]
    rw [zpow_add₀ two_ne_zero, zpow_natCast] at hi
    exact_mod_cast hi
  exact_mod_cast le_chosen (roundedTo_chosen mode neg m h) hunits

/-- A magnitude of at most 2^i units is rounded to at most as many. -/
theorem roundedTo_le {i : Nat} (hi : (m : ℚ) * 2 ^ e ≤ 2 ^ (u + i)) : (roundedTo mode neg m e u).1 ≤ 2 ^ i := by
  have hunits : (m : ℚ) * 2 ^ e / 2 ^ u ≤ (((2 ^ i : ℕ) : ℤ) : ℚ) := by
    rw [div_le_iff₀ (zpow_pos two_pos u), mul_comm (((2 ^ i : ℕ) : ℤ) : ℚ)]
    rw [zpow_add₀ two_ne_zero, zpow_natCast] at hi
    exact_mod_cast hi
  exact_mod_cast chosen_le (roundedTo_chosen mode neg m h) hunits

end

/-! The patterns of a format (R88). -/

theorem topExp_eq {f : IeeeFmt} (hf : 1 < f.ebits) : f.topExp = 2 * f.bias + 1 ∧ 0 < f.bias := by
  obtain ⟨n, hn⟩ : ∃ n, f.ebits = n + 2 := ⟨f.ebits - 2, by omega⟩
  have hpow : 0 < 2 ^ n := by positivity
  simp only [IeeeFmt.topExp, IeeeFmt.bias, hn, show n + 2 - 1 = n + 1 from rfl, pow_succ]
  omega

/-- A pattern put together from a sign, an exponent field and a fraction field has those fields. -/
theorem fields_of_pattern (f : IeeeFmt) (neg : Bool) {E F : Nat} (hE : E < 2 ^ f.ebits) (hF : F < 2 ^ f.mbits) :
    let x := neg.toNat * f.signWeight + (E * 2 ^ f.mbits + F)
    signBit f x = neg ∧ expField f x = E ∧ fracField f x = F ∧ x < 2 ^ f.width := by
  intro x
  have hweight : f.signWeight = 2 ^ f.ebits * 2 ^ f.mbits := by rw [IeeeFmt.signWeight, pow_add]
  have hlow : E * 2 ^ f.mbits + F < f.signWeight := by
    rw [hweight]
    calc E * 2 ^ f.mbits + F < (E + 1) * 2 ^ f.mbits := by linarith
      _ ≤ 2 ^ f.ebits * 2 ^ f.mbits := Nat.mul_le_mul_right _ hE
  have hx : x / 2 ^ f.mbits = neg.toNat * 2 ^ f.ebits + E := by
    have hassoc : x = F + 2 ^ f.mbits * (neg.toNat * 2 ^ f.ebits + E) := by simp only [x, hweight]; ring
    rw [hassoc, Nat.add_mul_div_left _ _ (by positivity), Nat.div_eq_of_lt hF, zero_add]
  have hsign : x / f.signWeight = neg.toNat := by
    have hcomm : x = E * 2 ^ f.mbits + F + f.signWeight * neg.toNat := by simp only [x]; ring
    rw [hcomm, Nat.add_mul_div_left _ _ (by rw [hweight]; positivity), Nat.div_eq_of_lt hlow, zero_add]
  refine ⟨?_, ?_, ?_, ?_⟩
  · rw [signBit, hsign]
    cases neg <;> rfl
  · rw [expField, hx, Nat.mul_add_mod_of_lt hE]
  · have hassoc : x = F + 2 ^ f.mbits * (neg.toNat * 2 ^ f.ebits + E) := by simp only [x, hweight]; ring
    rw [fracField, hassoc, Nat.add_mul_mod_self_left, Nat.mod_eq_of_lt hF]
  · have hone : neg.toNat ≤ 1 := by cases neg <;> decide
    have hwidth : 2 ^ f.width = 2 * f.signWeight := by rw [IeeeFmt.width, IeeeFmt.signWeight, add_assoc, pow_add, pow_one]
    have := Nat.mul_le_mul_right f.signWeight hone
    omega

/-- A finite pattern stands for its significand times its power of two: subnormal where the exponent field is 0 (R88). -/
theorem realOf_fields (f : IeeeFmt) (neg : Bool) {E F : Nat} (hE : E < f.topExp) (hF : F < 2 ^ f.mbits) :
    let x := neg.toNat * f.signWeight + (E * 2 ^ f.mbits + F)
    realOf f x = some ((if neg = true then -1 else 1) *
      if E = 0 then (F : ℚ) * 2 ^ (f.emin - f.mbits) else ((2 ^ f.mbits + F : ℕ) : ℚ) * 2 ^ ((E : ℤ) - f.bias - f.mbits)) := by
  intro x
  have htop : f.topExp + 1 = 2 ^ f.ebits := Nat.sub_add_cancel Nat.one_le_two_pow
  obtain ⟨hsign, hexp, hfrac, -⟩ := fields_of_pattern f neg (by omega : E < 2 ^ f.ebits) hF
  unfold realOf fval
  rw [hsign, hexp, hfrac, if_neg hE.ne]
  by_cases h0 : E = 0
  · simp only [if_pos h0, mul_assoc]
  · simp only [if_neg h0, mul_assoc]

/-- The pattern that holds n units of the last place at the j-th exponent above the smallest stands for them (R88), whether n is below a normal
number, which is so for j = 0 alone, is the significand of one, or carries into the next exponent. -/
theorem realOf_pattern {f : IeeeFmt} (neg : Bool) {j n : Nat} (hlow : j = 0 ∨ 2 ^ f.mbits ≤ n) (hhigh : n ≤ 2 ^ (f.mbits + 1))
    (hfin : j * 2 ^ f.mbits + n < f.topExp * 2 ^ f.mbits) :
    let x := neg.toNat * f.signWeight + (j * 2 ^ f.mbits + n)
    realOf f x = some ((if neg = true then -1 else 1) * ((n : ℚ) * 2 ^ (f.emin + j - f.mbits))) ∧ signBit f x = neg ∧ x < 2 ^ f.width := by
  intro x
  have hnext : 2 ^ (f.mbits + 1) = 2 * 2 ^ f.mbits := by rw [pow_succ, mul_comm]
  have hpos : 0 < 2 ^ f.mbits := by positivity
  have hemin : f.emin = 1 - (f.bias : ℤ) := rfl
  have htop : f.topExp < 2 ^ f.ebits := Nat.sub_lt (by positivity) one_pos
  obtain ⟨E, F, hx, hF, hval⟩ : ∃ E F, E * 2 ^ f.mbits + F = j * 2 ^ f.mbits + n ∧ F < 2 ^ f.mbits ∧
      (if E = 0 then (F : ℚ) * 2 ^ (f.emin - f.mbits) else ((2 ^ f.mbits + F : ℕ) : ℚ) * 2 ^ ((E : ℤ) - f.bias - f.mbits)) =
        n * 2 ^ (f.emin + j - f.mbits) := by
    rcases lt_or_ge n (2 ^ f.mbits) with hsub | hnorm
    · obtain rfl : j = 0 := hlow.resolve_right (by omega)
      exact ⟨0, n, rfl, hsub, by simp⟩
    rcases lt_or_eq_of_le hhigh with hbelow | hcarry
    · refine ⟨j + 1, n - 2 ^ f.mbits, by rw [add_mul]; omega, by omega, ?_⟩
      have hexp : ((j + 1 : ℕ) : ℤ) - f.bias - f.mbits = f.emin + j - f.mbits := by rw [hemin]; push_cast; ring
      rw [if_neg (by omega), Nat.add_sub_cancel' hnorm, hexp]
    · refine ⟨j + 2, 0, by rw [add_mul]; omega, hpos, ?_⟩
      have hexp : ((j + 2 : ℕ) : ℤ) - f.bias - f.mbits = f.emin + j - f.mbits + 1 := by rw [hemin]; push_cast; ring
      rw [if_neg (by omega), hcarry, hexp, zpow_add_one₀ two_ne_zero]
      push_cast
      ring
  have hE : E < f.topExp := Nat.lt_of_mul_lt_mul_right (a := 2 ^ f.mbits) (by omega)
  have hreal := realOf_fields f neg hE hF
  obtain ⟨hsign, -, -, hwidth⟩ := fields_of_pattern f neg (hE.trans htop) hF
  rw [hx] at hreal hsign hwidth
  exact ⟨by rw [hreal, hval], hsign, hwidth⟩

/-! The leading bit of a magnitude. -/

theorem bitLen_eq {m : Nat} (h : m ≠ 0) : bitLen m = Nat.log 2 m + 1 := by rw [bitLen, if_neg h, Nat.log2_eq_log_two]

theorem bitLen_mul_pow {m : Nat} (h : m ≠ 0) (g : Nat) : bitLen (m * 2 ^ g) = bitLen m + g := by
  induction g with
  | zero => rw [pow_zero, mul_one, add_zero]
  | succ g ih =>
    have hg : m * 2 ^ g ≠ 0 := mul_ne_zero h (by positivity)
    rw [pow_succ, ← mul_assoc, bitLen_eq (mul_ne_zero hg two_ne_zero), Nat.log_mul_base one_lt_two hg, ← bitLen_eq hg, ih, add_assoc]

/-- A magnitude lies between the power of its leading bit and the next. -/
theorem pow_le_magnitude {m : Nat} (h : m ≠ 0) (e : ℤ) :
    (2 : ℚ) ^ ((bitLen m : ℤ) - 1 + e) ≤ m * 2 ^ e ∧ (m : ℚ) * 2 ^ e < 2 ^ ((bitLen m : ℤ) - 1 + e + 1) := by
  have hexp : (bitLen m : ℤ) - 1 = (Nat.log 2 m : ℕ) := by rw [bitLen_eq h]; push_cast; ring
  have hnext : ((Nat.log 2 m : ℕ) : ℤ) + e + 1 = ((Nat.log 2 m + 1 : ℕ) : ℤ) + e := by push_cast; ring
  rw [hexp, hnext, zpow_add₀ two_ne_zero, zpow_add₀ two_ne_zero, zpow_natCast, zpow_natCast, mul_le_mul_iff_left₀ (zpow_pos two_pos e),
    mul_lt_mul_iff_left₀ (zpow_pos two_pos e)]
  exact ⟨by exact_mod_cast Nat.pow_log_le_self 2 h, by exact_mod_cast Nat.lt_pow_succ_log_self one_lt_two m⟩

/-- The exponent of a magnitude is that of its leading bit. -/
theorem exponent_eq {m : Nat} (h : m ≠ 0) {e k : ℤ} (hlow : (2 : ℚ) ^ k ≤ m * 2 ^ e) (hhigh : (m : ℚ) * 2 ^ e < 2 ^ (k + 1)) :
    (bitLen m : ℤ) - 1 + e = k := by
  obtain ⟨hbit, hnext⟩ := pow_le_magnitude h e
  have h1 := (zpow_lt_zpow_iff_right₀ one_lt_two).mp (hlow.trans_lt hnext)
  have h2 := (zpow_lt_zpow_iff_right₀ one_lt_two).mp (hbit.trans_lt hhigh)
  omega

/-! The parts of `roundFin` (R93-R95, R97). -/

/-- The exponent after rounding: the next one where the significand carries. -/
def carried (f : IeeeFmt) (n : Nat) (k : ℤ) : ℤ := if n = 2 ^ (f.mbits + 1) then k + 1 else k

/-- The exponent after rounding is that of the rounded value. -/
theorem pow_le_rounded_iff {f : IeeeFmt} {n : Nat} (hlow : 2 ^ f.mbits ≤ n) (hhigh : n ≤ 2 ^ (f.mbits + 1)) (i k : ℤ) :
    (2 : ℚ) ^ i ≤ n * 2 ^ (k - f.mbits) ↔ i ≤ carried f n k := by
  have units (j : Nat) : ((2 ^ j : ℕ) : ℚ) * 2 ^ (k - f.mbits) = 2 ^ (k - f.mbits + j) := by
    rw [zpow_add₀ two_ne_zero, zpow_natCast, mul_comm]
    push_cast
    rfl
  unfold carried
  split
  · next hcarry =>
    rw [hcarry, units, zpow_le_zpow_iff_right₀ one_lt_two]
    push_cast
    omega
  · next hcarry =>
    have hbelow : n < 2 ^ (f.mbits + 1) := lt_of_le_of_ne hhigh hcarry
    have h1 : (2 : ℚ) ^ k ≤ n * 2 ^ (k - f.mbits) := by
      calc (2 : ℚ) ^ k = (2 ^ f.mbits : ℕ) * 2 ^ (k - f.mbits) := by rw [units]; congr 1; ring
        _ ≤ n * 2 ^ (k - f.mbits) := mul_le_mul_of_nonneg_right (by exact_mod_cast hlow) (zpow_pos two_pos _).le
    have h2 : (n : ℚ) * 2 ^ (k - f.mbits) < 2 ^ (k + 1) := by
      calc (n : ℚ) * 2 ^ (k - f.mbits) < (2 ^ (f.mbits + 1) : ℕ) * 2 ^ (k - f.mbits) :=
            mul_lt_mul_of_pos_right (by exact_mod_cast hbelow) (zpow_pos two_pos _)
        _ = 2 ^ (k + 1) := by rw [units]; congr 1; push_cast; ring
    constructor
    · intro h
      have := (zpow_lt_zpow_iff_right₀ one_lt_two).mp (h.trans_lt h2)
      omega
    · intro h
      exact ((zpow_le_zpow_iff_right₀ one_lt_two).mpr h).trans h1

/-- The overflowed result is that of R94's table. -/
theorem overflowed_bits (f : IeeeFmt) (mode : RMode) (neg : Bool) : (overflowed f mode neg).bits =
    (match mode with
      | .rne | .rna => f.inf neg
      | .rtz => f.maxFinite neg
      | .rdn => if neg = true then f.inf true else f.maxFinite false
      | .rup => if neg = true then f.maxFinite true else f.inf false) := by
  cases mode <;> cases neg <;> rfl

/-- The exponent field after rounding and the fraction that is left make the pattern that holds the rounded significand at the exponent before,
and a finite one unless the result overflows. -/
theorem carried_pattern {f : IeeeFmt} (hf : 1 < f.ebits) {n j : Nat} {k : ℤ} (hlow : 2 ^ f.mbits ≤ n) (hk : k = f.emin + j) :
    (carried f n k + f.bias).toNat * 2 ^ f.mbits + (if n = 2 ^ (f.mbits + 1) then 0 else n - 2 ^ f.mbits) = j * 2 ^ f.mbits + n ∧
      (carried f n k ≤ f.bias → n ≤ 2 ^ (f.mbits + 1) → j * 2 ^ f.mbits + n < f.topExp * 2 ^ f.mbits) := by
  have hemin : f.emin = 1 - (f.bias : ℤ) := rfl
  obtain ⟨htop, -⟩ := topExp_eq hf
  have hnext : 2 ^ (f.mbits + 1) = 2 * 2 ^ f.mbits := by rw [pow_succ, mul_comm]
  have hpos : 0 < 2 ^ f.mbits := by positivity
  unfold carried
  split
  · next hcarry =>
    have hfield : (k + 1 + f.bias).toNat = j + 2 := by omega
    have hpattern : (j + 2) * 2 ^ f.mbits = j * 2 ^ f.mbits + n := by rw [add_mul]; omega
    refine ⟨by rw [hfield, add_zero, hpattern], fun hle _ => ?_⟩
    rw [← hpattern]
    exact Nat.mul_lt_mul_of_pos_right (by omega) hpos
  · next hcarry =>
    have hfield : (k + f.bias).toNat = j + 1 := by omega
    have hpattern : (j + 1) * 2 ^ f.mbits + (n - 2 ^ f.mbits) = j * 2 ^ f.mbits + n := by rw [add_mul]; omega
    refine ⟨by rw [hfield, hpattern], fun hle hhigh => ?_⟩
    calc j * 2 ^ f.mbits + n < (j + 2) * 2 ^ f.mbits := by rw [add_mul]; omega
      _ ≤ f.topExp * 2 ^ f.mbits := Nat.mul_le_mul_right _ (by omega)

/-- NX where the result is not exact, and UF where it is also tiny (R97). -/
theorem raised_eq {inexact tiny : Bool} {isExact small : Prop} [Decidable isExact] [Decidable small] (hexact : inexact = false ↔ isExact)
    (hsmall : tiny = true ↔ small) : flagIf inexact flNX ||| flagIf (inexact && tiny) flUF =
      if isExact then 0 else if small then flNX ||| flUF else flNX := by
  simp only [← hexact, ← hsmall]
  cases inexact <;> cases tiny <;> rfl

/-- The last places of a subnormal make at most the smallest normal number. -/
theorem subnormal_le_pow_emin {f : IeeeFmt} {n : Nat} (hn : n ≤ 2 ^ f.mbits) : (n : ℚ) * 2 ^ (f.emin - f.mbits) ≤ 2 ^ f.emin := by
  calc (n : ℚ) * 2 ^ (f.emin - f.mbits) ≤ 2 ^ f.mbits * 2 ^ (f.emin - f.mbits) :=
        mul_le_mul_of_nonneg_right (by exact_mod_cast hn) (zpow_pos two_pos _).le
    _ = 2 ^ f.emin := by rw [← zpow_natCast, ← zpow_add₀ two_ne_zero, add_sub_cancel]

/-- A magnitude with its low bits extended so that it has two bits more than the format's precision. -/
theorem roundFin_extend (f : IeeeFmt) (mode : RMode) (neg : Bool) {m : Nat} (hm : m ≠ 0) (e : ℤ) :
    ∃ g : Nat, f.mbits + 3 ≤ bitLen (m * 2 ^ g) ∧ roundFin f mode neg m e false = roundFin f mode neg (m * 2 ^ g) (e - g) false := by
  refine ⟨f.mbits + 1 + 2 - bitLen m, by rw [bitLen_mul_pow hm]; omega, ?_⟩
  have hg : f.mbits + 1 + 2 - bitLen (m * 2 ^ (f.mbits + 1 + 2 - bitLen m)) = 0 := by rw [bitLen_mul_pow hm]; omega
  conv_rhs => unfold roundFin
  simp only [hg, pow_zero, mul_one, Nat.cast_zero, sub_zero]
  rw [roundFin, if_neg hm, if_neg (mul_ne_zero hm (by positivity))]

/-- `roundFin` on a magnitude of exponent k that has more bits than the precision: n is its rounding with an unbounded exponent, r that to the
last place of a subnormal. -/
theorem roundFin_wide {f : IeeeFmt} {mode : RMode} {neg : Bool} {m : Nat} {e k : ℤ} (hm : f.mbits + 3 ≤ bitLen m)
    (hk : (bitLen m : ℤ) - 1 + e = k) {n r : Nat × Bool}
    (hn : roundedTo mode neg m e (k - f.mbits) = n) (hr : roundedTo mode neg m e (f.emin - f.mbits) = r) :
    roundFin f mode neg m e false =
      if (f.bias : ℤ) < carried f n.1 k then overflowed f mode neg
      else if f.emin ≤ k then
        ⟨neg.toNat * f.signWeight + (carried f n.1 k + f.bias).toNat * 2 ^ f.mbits + (if n.1 = 2 ^ (f.mbits + 1) then 0 else n.1 - 2 ^ f.mbits),
          flagIf n.2 flNX⟩
      else ⟨neg.toNat * f.signWeight + r.1, flagIf r.2 flNX ||| flagIf (r.2 && decide (carried f n.1 k < f.emin)) flUF⟩ := by
  have hne : m ≠ 0 := by rintro rfl; rw [bitLen, if_pos rfl] at hm; omega
  have hg : f.mbits + 1 + 2 - bitLen m = 0 := by omega
  have hsh : bitLen m - (f.mbits + 1) = (k - f.mbits - e).toNat := by omega
  rw [roundedTo, ← hsh] at hn
  rw [roundedTo] at hr
  rw [roundFin, if_neg hne]
  simp only [hg, pow_zero, mul_one, Nat.cast_zero, sub_zero, hk, hn, hr]
  rfl

section

variable {f : IeeeFmt} (hf : 1 < f.ebits) (mode : RMode) (neg : Bool) {m : Nat} {e k : ℤ} (hm : f.mbits + 3 ≤ bitLen m)
  (hk : (bitLen m : ℤ) - 1 + e = k)

include hm hk

/-- The bounds of the exponent, for a magnitude that has more bits than the precision. -/
theorem magnitude_bounds : (2 : ℚ) ^ k ≤ m * 2 ^ e ∧ (m : ℚ) * 2 ^ e < 2 ^ (k + 1) := by
  have hne : m ≠ 0 := by rintro rfl; rw [bitLen, if_pos rfl] at hm; omega
  rw [← hk]
  exact pow_le_magnitude hne e

/-- With an unbounded exponent a magnitude is rounded to a significand of the precision, or to the carry. -/
theorem significand_bounds :
    2 ^ f.mbits ≤ (roundedTo mode neg m e (k - f.mbits)).1 ∧ (roundedTo mode neg m e (k - f.mbits)).1 ≤ 2 ^ (f.mbits + 1) := by
  obtain ⟨hlow, hhigh⟩ := magnitude_bounds hm hk
  have hunit : e ≤ k - f.mbits := by omega
  refine ⟨le_roundedTo mode neg m hunit (by rwa [sub_add_cancel]), roundedTo_le mode neg m hunit ?_⟩
  rw [Nat.cast_add, Nat.cast_one, ← add_assoc, sub_add_cancel]
  exact hhigh.le

/-- Below the normal range a magnitude is rounded to at most the smallest normal number. -/
theorem subnormal_le (hsub : k < f.emin) : (roundedTo mode neg m e (f.emin - f.mbits)).1 ≤ 2 ^ f.mbits := by
  refine roundedTo_le mode neg m (by omega) ?_
  rw [sub_add_cancel]
  exact (magnitude_bounds hm hk).2.le.trans ((zpow_le_zpow_iff_right₀ one_lt_two).mpr hsub)

include hf

/-- Rounding in the normal range (R93, R94). -/
theorem rounds_of_normal (hnormal : f.emin ≤ k) : Rounds f mode neg ((m : ℚ) * 2 ^ e) k (roundFin f mode neg m e false) := by
  obtain ⟨hlow, hhigh⟩ := significand_bounds mode neg hm hk
  have hchosen := roundedTo_chosen mode neg m (e := e) (u := k - f.mbits) (by omega)
  have hexact := roundedTo_exact mode neg m (e := e) (u := k - f.mbits) (by omega)
  rw [roundFin_wide hm hk rfl rfl]
  generalize roundedTo mode neg m e (k - f.mbits) = n at hlow hhigh hchosen hexact ⊢
  have hpow (i : ℤ) : (2 : ℚ) ^ i ≤ ((n.1 : ℤ) : ℚ) * 2 ^ (k - f.mbits) ↔ i ≤ carried f n.1 k := by
    rw [Int.cast_natCast]
    exact pow_le_rounded_iff hlow hhigh i k
  unfold Rounds
  rw [max_eq_left hnormal]
  refine ⟨n.1, n.1, hchosen, hchosen, ?_⟩
  by_cases hover : (f.bias : ℤ) < carried f n.1 k
  · rw [if_pos hover, if_pos ((hpow _).mpr hover)]
    exact ⟨rfl, overflowed_bits f mode neg⟩
  · obtain ⟨j, hj⟩ : ∃ j : ℕ, k = f.emin + j := ⟨(k - f.emin).toNat, by omega⟩
    obtain ⟨hpattern, hfinite⟩ := carried_pattern hf hlow hj
    obtain ⟨hreal, hsign, hwidth⟩ := realOf_pattern (f := f) neg (.inr hlow) hhigh (hfinite (not_lt.mp hover) hhigh)
    rw [if_neg hover, if_pos hnormal, if_neg (mt (hpow _).mp hover), add_assoc, hpattern]
    refine ⟨by rw [hreal, ← hj, Int.cast_natCast], hsign, hwidth, ?_⟩
    have hlarge : f.emin ≤ carried f n.1 k := by unfold carried; split <;> omega
    have hsmall : (false = true) ↔ ((n.1 : ℤ) : ℚ) * 2 ^ (k - f.mbits) < 2 ^ f.emin :=
      iff_of_false Bool.false_ne_true (not_lt.mpr ((hpow _).mpr hlarge))
    rw [← raised_eq hexact hsmall, Bool.and_false]
    exact (BitVec.or_zero).symm

/-- Rounding below the normal range (R93, R95): tiny unless it carries to the smallest normal number with an unbounded exponent. -/
theorem rounds_of_subnormal (hsub : k < f.emin) : Rounds f mode neg ((m : ℚ) * 2 ^ e) k (roundFin f mode neg m e false) := by
  obtain ⟨hlow, hhigh⟩ := significand_bounds mode neg hm hk
  obtain ⟨htop, hbias⟩ := topExp_eq hf
  have hemin : f.emin = 1 - (f.bias : ℤ) := rfl
  have hpos : 0 < 2 ^ f.mbits := by positivity
  have hchosenFree := roundedTo_chosen mode neg m (e := e) (u := k - f.mbits) (by omega)
  have hunit : e ≤ f.emin - f.mbits := by omega
  have hchosen := roundedTo_chosen mode neg m hunit
  have hexact := roundedTo_exact mode neg m hunit
  have hr := subnormal_le mode neg hm hk hsub
  rw [roundFin_wide hm hk rfl rfl]
  generalize roundedTo mode neg m e (k - f.mbits) = n at hlow hhigh hchosenFree ⊢
  generalize roundedTo mode neg m e (f.emin - f.mbits) = r at hchosen hexact hr ⊢
  have hover : ¬ (f.bias : ℤ) < carried f n.1 k := by unfold carried; split <;> omega
  have hfits : ¬ (2 : ℚ) ^ ((f.bias : ℤ) + 1) ≤ ((r.1 : ℤ) : ℚ) * 2 ^ (f.emin - f.mbits) := by
    rw [Int.cast_natCast]
    exact not_le.mpr ((subnormal_le_pow_emin hr).trans_lt ((zpow_lt_zpow_iff_right₀ one_lt_two).mpr (by omega)))
  have hsmall : decide (carried f n.1 k < f.emin) = true ↔ ((n.1 : ℤ) : ℚ) * 2 ^ (k - f.mbits) < 2 ^ f.emin := by
    rw [decide_eq_true_iff, ← not_le, ← not_le, Int.cast_natCast, pow_le_rounded_iff hlow hhigh]
  have hfinite : 0 * 2 ^ f.mbits + r.1 < f.topExp * 2 ^ f.mbits := by
    calc 0 * 2 ^ f.mbits + r.1 < 2 * 2 ^ f.mbits := by omega
      _ ≤ f.topExp * 2 ^ f.mbits := Nat.mul_le_mul_right _ (by omega)
  obtain ⟨hreal, hsign, hwidth⟩ := realOf_pattern (f := f) neg (.inl rfl) (by rw [pow_succ]; omega) hfinite
  rw [zero_mul, zero_add] at hreal hsign hwidth
  rw [Nat.cast_zero, add_zero] at hreal
  unfold Rounds
  rw [max_eq_right hsub.le]
  refine ⟨r.1, n.1, hchosen, hchosenFree, ?_⟩
  rw [if_neg hover, if_neg (not_le.mpr hsub), if_neg hfits]
  exact ⟨by rw [hreal, Int.cast_natCast], hsign, hwidth, raised_eq hexact hsmall⟩

end

/-- `roundFin` rounds every nonzero magnitude (R93-R95, R97): in the normal range or below it, after its low bits are extended. -/
theorem roundFin_rounds {f : IeeeFmt} (hf : 1 < f.ebits) (mode : RMode) (neg : Bool) {m : Nat} (hm : 0 < m) {e k : ℤ}
    (hlow : (2 : ℚ) ^ k ≤ m * 2 ^ e) (hhigh : (m : ℚ) * 2 ^ e < 2 ^ (k + 1)) :
    Rounds f mode neg ((m : ℚ) * 2 ^ e) k (roundFin f mode neg m e false) := by
  obtain ⟨g, hwide, hround⟩ := roundFin_extend f mode neg hm.ne' e
  have hvalue : ((m * 2 ^ g : ℕ) : ℚ) * 2 ^ (e - g) = m * 2 ^ e := by
    rw [zpow_sub₀ two_ne_zero, zpow_natCast]
    push_cast
    field_simp
  have hk : (bitLen (m * 2 ^ g) : ℤ) - 1 + (e - g) = k := by
    rw [← exponent_eq hm.ne' hlow hhigh, bitLen_mul_pow hm.ne']
    push_cast
    ring
  rw [hround, ← hvalue]
  rcases le_or_gt f.emin k with hnormal | hsub
  · exact rounds_of_normal hf mode neg hwide hk hnormal
  · exact rounds_of_subnormal hf mode neg hwide hk hsub

theorem two_le_ebits : ∀ f ∈ [b64, b32, b16, bf16], 1 < f.ebits := by decide

end Sys2Proof.Machine

/-- Settles O59: the formats' constants evaluate, and `roundFin` is right for every format with an exponent field of two bits or more. -/
theorem roundingIsRight : Obligations.RoundingIsRight :=
  open Sys2Proof.Machine in
  ⟨by decide, by decide, fun f hf mode neg _ _ _ hm hlow hhigh => roundFin_rounds (two_le_ebits f hf) mode neg hm hlow hhigh⟩

/-! The 64-bit integer instructions and `AUIPC` (R119, R121-R123): each is a function of its operands' values, and its pair is the form's. -/

namespace Sys2Proof.Machine

open Sys2Proof

/-- What O2 and O11 ask of one form with a pair result: in every issuing group whose lanes are free, the form's value goes to its latch
and pair alone. -/
def PairFormHolds (f : PairForm) : Prop :=
  ∀ s g, Issues s g → Lanes s g f.pred (fun th => LaneFree g freeGate th ∧ (f.val th).isSome = true ∧ dstPair th f.d f.nw = true) →
    ∃ t, exec f.instr s = .next t ∧
      GroupResult s t g fun _ => LaneAfter g f.pred fun th th' => ∃ v, f.val th = some v ∧ WrotePair g f.d f.nw v th th'

/-- An instruction that puts its form's value into latch and pair has that form. -/
theorem pairFormHolds_of_alu {f : PairForm} (lane : Nat → Thread → Except Trap Thread) (hexec : ∀ s, exec f.instr s = .next (alu f.pred lane s))
    (hlane : ∀ k th v, f.val th = some v → dstPair th f.d f.nw = true → lane k th = .ok (putPair th k f.d f.nw v)) : PairFormHolds f :=
  fun s g hi hgo => ⟨_, hexec s, pair_law f.pred lane f.val f.d f.nw s g hi hlane hgo⟩

/-- The value of a form of two pairs: both are legal. -/
theorem wideOf2_eq_some {a b : BitVec 6} {f : DWord → DWord → DWord} {th : Thread} {v : Dexel × Dexel} (h : wideOf2 a b f th = some v) :
    ∃ x y, srcPair th a = some x ∧ srcPair th b = some y ∧ v = plainOf (f (bitsOf x) (bitsOf y)) := by
  unfold wideOf2 at h
  split at h
  · next x y hx hy => exact ⟨x, y, hx, hy, (Option.some.inj h).symm⟩
  · cases h

/-- The value of a form of a pair and a register: both are legal. -/
theorem wideOfReg_eq_some {a b : BitVec 6} {f : DWord → Word → DWord} {th : Thread} {v : Dexel × Dexel} (h : wideOfReg a b f th = some v) :
    ∃ x y, srcPair th a = some x ∧ srcReg th b = some y ∧ v = plainOf (f (bitsOf x) y.val) := by
  unfold wideOfReg at h
  split at h
  · next x y hx hy => exact ⟨x, y, hx, hy, (Option.some.inj h).symm⟩
  · cases h

/-- The value of a form of one pair: it is legal. -/
theorem wideOf1_eq_some {a : BitVec 6} {f : DWord → DWord} {th : Thread} {v : Dexel × Dexel} (h : wideOf1 a f th = some v) :
    ∃ x, srcPair th a = some x ∧ v = plainOf (f (bitsOf x)) := by
  obtain ⟨x, hx, rfl⟩ := Option.map_eq_some_iff.mp h
  exact ⟨x, hx, rfl⟩

/-- A three-operand instruction on pairs (R119). -/
theorem pairFormHolds_wide3 {i : Instr} {p : BitVec 3} {d a b : BitVec 6} {nw : Bool} {op : DWord → DWord → DWord}
    (hexec : ∀ s, exec i s = .next (wide3 d a b nw p op s)) : PairFormHolds ⟨i, p, d, nw, wideOf2 a b op⟩ := by
  refine pairFormHolds_of_alu _ hexec fun k th v hv hd => ?_
  obtain ⟨x, y, hx, hy, rfl⟩ := wideOf2_eq_some hv
  simp only [hx, hy, if_pos hd]
  rfl

/-- An instruction on a pair and a register (R119). -/
theorem pairFormHolds_wideReg {i : Instr} {p : BitVec 3} {d a b : BitVec 6} {nw : Bool} {op : DWord → Word → DWord}
    (hexec : ∀ s, exec i s = .next (wideReg d a b nw p op s)) : PairFormHolds ⟨i, p, d, nw, wideOfReg a b op⟩ := by
  refine pairFormHolds_of_alu _ hexec fun k th v hv hd => ?_
  obtain ⟨x, y, hx, hy, rfl⟩ := wideOfReg_eq_some hv
  simp only [hx, hy, if_pos hd]
  rfl

/-- A two-operand instruction on pairs whose operation is the form's (R121, R122). -/
theorem pairFormHolds_wide2 {i : Instr} {p : BitVec 3} {d a : BitVec 6} {nw : Bool} {op rule : DWord → DWord}
    (hexec : ∀ s, exec i s = .next (wide2 d a nw p op s)) (hop : ∀ x, op x = rule x) : PairFormHolds ⟨i, p, d, nw, wideOf1 a rule⟩ := by
  refine pairFormHolds_of_alu _ hexec fun k th v hv hd => ?_
  obtain ⟨x, hx, rfl⟩ := wideOf1_eq_some hv
  simp only [hx, hop, if_pos hd]
  rfl

/-- `MOV64` passes a pair whole (R119). -/
theorem pairFormHolds_mov64 (d a : BitVec 6) (nw : Bool) (p : BitVec 3) : PairFormHolds ⟨.mov64 d a nw p, p, d, nw, fun th => srcPair th a⟩ := by
  refine pairFormHolds_of_alu _ (fun _ => rfl) fun k th v hv hd => ?_
  simp only [show srcPair th a = some v from hv, if_pos hd]

/-- `SHFI` of KIND 4-6 is one of the three wide shifts by its amount (R122). -/
theorem execShfi_wide {d a : BitVec 6} {kind : BitVec 4} {m : BitVec 6} (nw q : Bool) (s : State) (hlow : 4 ≤ kind.toNat) (hhigh : kind.toNat < 7) :
    execShfi d a kind m nw q s = .next (wide2 d a nw (predBit q)
      (([shiftL64, shiftR64, shiftA64].getD (kind.toNat - 4) shiftA64) · (BitVec.ofNat 32 m.toNat)) s) := by
  have hlegal : ¬ (kind.toNat ≥ 7 ∨ (kind.toNat < 4 ∧ m.toNat ≥ 32)) := by omega
  rw [execShfi, if_neg hlegal]
  interval_cases kind.toNat <;> rfl

/-- The form of `SHFI` whose KIND names a wide shift with this rule: the amount is below 64, so that the shift takes it whole. -/
theorem pairFormHolds_shfi {kind : BitVec 4} {rule : DWord → Nat → DWord} (d a : BitVec 6) (nw q : Bool) (amount : BitVec 6)
    (hlow : 4 ≤ kind.toNat) (hhigh : kind.toNat < 7)
    (hop : ∀ (x : DWord) (y : Word), [shiftL64, shiftR64, shiftA64].getD (kind.toNat - 4) shiftA64 x y = rule x (y.toNat % 64)) :
    PairFormHolds ⟨.shfi d a kind amount nw q, if q then 0 else 7, d, nw, wideOf1 a fun x => rule x amount.toNat⟩ := by
  refine pairFormHolds_wide2 (fun s => execShfi_wide nw q s hlow hhigh) fun x => ?_
  have hamount : (BitVec.ofNat 32 amount.toNat).toNat % 64 = amount.toNat := by
    have := amount.isLt
    rw [BitVec.toNat_ofNat]
    omega
  rw [hop, hamount]

/-- Every form of the table holds, each by the law of its shape. -/
theorem wideForms_hold (d a b : BitVec 6) (nw : Bool) (p : BitVec 3) (q : Bool) (i12 : BitVec 12) (amount : BitVec 6) :
    ∀ f ∈ wideForms d a b nw p q i12 amount, PairFormHolds f := by
  simp only [wideForms, List.forall_mem_cons]
  exact ⟨pairFormHolds_wide3 fun _ => rfl, pairFormHolds_wide3 fun _ => rfl, pairFormHolds_wide3 fun _ => rfl,
    pairFormHolds_wideReg fun _ => rfl, pairFormHolds_wideReg fun _ => rfl, pairFormHolds_wideReg fun _ => rfl,
    pairFormHolds_wideReg fun _ => rfl, pairFormHolds_mov64 d a nw p, pairFormHolds_wide2 (fun _ => rfl) fun _ => rfl,
    pairFormHolds_shfi (rule := fun x n => x <<< n) d a nw q amount (by decide) (by decide) (fun _ _ => rfl),
    pairFormHolds_shfi (rule := fun x n => x >>> n) d a nw q amount (by decide) (by decide) (fun _ _ => rfl),
    pairFormHolds_shfi (rule := fun x n => x.sshiftRight n) d a nw q amount (by decide) (by decide) (fun _ _ => rfl), by simp⟩

/-- `AUIPC` runs in every thread and writes the sum to its pair (R123). -/
theorem auipcResult : AuipcResult := by
  intro d i20 s g hi hgo
  refine ⟨_, rfl, groupResult_imp (lane_law freeGate 7 false _ (fun th => dstPair th d false = true)
    (fun _ th th' => WrotePair g d false (plainOf (g.pc + ((i20.setWidth 32 : Word) <<< 12).signExtend 64)) th th')
    s g hi (fun _ _ _ => rfl) (fun u th hd => ⟨_, if_pos hd, wrotePair_putPair g d false _ th⟩) hgo) fun _ _ _ _ th' h => ?_⟩
  exact (laneAfter_true rfl).mp h

end Sys2Proof.Machine

/-- Settles O2: every instruction of the table is a function of its operands' values; `AUIPC` writes one sum in every thread. -/
theorem wideIntegerResults : Obligations.WideIntegerResults := ⟨Sys2Proof.Machine.wideForms_hold, Sys2Proof.Machine.auipcResult⟩

/-! The bits of counts, reversals and fields (R115, R116). -/

namespace Sys2Proof.Machine

open Sys2Proof

theorem popCount_toNat (x : Word) : (popCount x).toNat = ((List.range 32).filter fun i => x.getLsbD i).length := by
  have hle := List.length_filter_le (fun i => x.getLsbD i) (List.range 32)
  rw [List.length_range] at hle
  rw [popCount, BitVec.toNat_ofNat, Nat.mod_eq_of_lt (by omega)]

/-- The leading zeros of a nonzero word end at its highest set bit (R115). -/
theorem leadingZeros_spec {x : Word} (hx : x ≠ 0) :
    ∃ n, n < 32 ∧ leadingZeros x = BitVec.ofNat 32 n ∧ x.getLsbD (31 - n) = true ∧ ∀ i, 31 - n < i → x.getLsbD i = false := by
  have h0 : x.toNat ≠ 0 := fun h => hx (BitVec.eq_of_toNat_eq h)
  have hlog : Nat.log2 x.toNat < 32 := (Nat.log2_lt h0).mpr x.isLt
  have htop : 31 - (31 - Nat.log2 x.toNat) = Nat.log2 x.toNat := by omega
  refine ⟨31 - Nat.log2 x.toNat, by omega, ?_, ?_, fun i hi => ?_⟩
  · rw [leadingZeros, bitLen, if_neg h0, Nat.add_comm, Nat.sub_add_eq]
  · rw [htop]
    exact Nat.testBit_log2 h0
  · rw [htop] at hi
    exact Nat.testBit_lt_two_pow ((Nat.log2_lt h0).mp hi)

/-- The sum that `reverseBits` forms of the lowest n bits. -/
def reversedLow (x : Word) (n : Nat) : Nat := (List.range n).foldl (fun acc i => if x.getLsbD i then acc + 2 ^ (31 - i) else acc) 0

theorem reversedLow_succ (x : Word) (n : Nat) : reversedLow x (n + 1) = reversedLow x n + if x.getLsbD n then 2 ^ (31 - n) else 0 := by
  unfold reversedLow
  rw [List.range_succ, List.foldl_append]
  by_cases h : x.getLsbD n = true
  · simp only [List.foldl_cons, List.foldl_nil, if_pos h]
  · simp only [List.foldl_cons, List.foldl_nil, if_neg h, Nat.add_zero]

/-- After n bits the sum holds them from bit 31 down, and nothing below: each next summand lies under all the bits so far. -/
theorem testBit_reversedLow (x : Word) {n : Nat} (hn : n ≤ 32) (j : Nat) :
    (reversedLow x n).testBit j = (decide (32 - n ≤ j ∧ j < 32) && x.getLsbD (31 - j)) := by
  induction n generalizing j with
  | zero =>
    have : ¬ (32 - 0 ≤ j ∧ j < 32) := by omega
    simp [reversedLow, this]
  | succ n ih =>
    have ih := ih (by omega)
    obtain ⟨q, hq⟩ : 2 ^ (32 - n) ∣ reversedLow x n := by
      refine Nat.dvd_of_mod_eq_zero (Nat.eq_of_testBit_eq fun j => ?_)
      rw [Nat.testBit_mod_two_pow, ih, Nat.zero_testBit]
      by_cases hj : j < 32 - n
      · have : ¬ (32 - n ≤ j ∧ j < 32) := by omega
        rw [decide_eq_false this, Bool.false_and, Bool.and_false]
      · rw [decide_eq_false hj, Bool.false_and]
    have hpow : (if x.getLsbD n then 2 ^ (31 - n) else 0) < 2 ^ (32 - n) := by
      split
      · exact Nat.pow_lt_pow_right (by norm_num) (by omega)
      · exact Nat.two_pow_pos _
    rw [reversedLow_succ, hq, Nat.two_pow_add_eq_or_of_lt hpow, ← hq, Nat.testBit_or, ih]
    by_cases hj : j = 31 - n
    · subst hj
      have h1 : ¬ (32 - n ≤ 31 - n ∧ 31 - n < 32) := by omega
      have h2 : 32 - (n + 1) ≤ 31 - n ∧ 31 - n < 32 := by omega
      have h3 : 31 - (31 - n) = n := by omega
      rw [decide_eq_false h1, decide_eq_true h2, h3]
      by_cases h : x.getLsbD n = true
      · simp [h, Nat.testBit_two_pow_self]
      · simp [h]
    · have hoff : (if x.getLsbD n then 2 ^ (31 - n) else 0).testBit j = false := by
        split
        · exact Nat.testBit_two_pow_of_ne (Ne.symm hj)
        · exact Nat.zero_testBit j
      have hsame : (32 - n ≤ j ∧ j < 32) ↔ (32 - (n + 1) ≤ j ∧ j < 32) := by omega
      rw [hoff, Bool.or_false, decide_eq_decide.mpr hsame]

theorem getLsbD_reverseBits (x : Word) (i : Nat) (hi : i < 32) : (reverseBits x).getLsbD (31 - i) = x.getLsbD i := by
  have hall : 32 - 32 ≤ 31 - i ∧ 31 - i < 32 := by omega
  have hback : 31 - (31 - i) = i := by omega
  change (BitVec.ofNat 32 (reversedLow x 32)).getLsbD (31 - i) = _
  rw [BitVec.getLsbD_ofNat, testBit_reversedLow x le_rfl, hback, decide_eq_true hall, decide_eq_true hall.2, Bool.true_and, Bool.true_and]

theorem reverseBits_ne_zero {x : Word} (hx : x ≠ 0) : reverseBits x ≠ 0 := by
  refine fun h => hx (BitVec.eq_of_getLsbD_eq fun i hi => ?_)
  rw [← getLsbD_reverseBits x i hi, h, BitVec.ofNat_eq_ofNat, BitVec.getLsbD_zero, BitVec.getLsbD_zero]

/-- The trailing zeros of a word are the leading ones of its reversal (R115). -/
theorem trailingZeros_spec {x : Word} (hx : x ≠ 0) :
    ∃ n, n < 32 ∧ trailingZeros x = BitVec.ofNat 32 n ∧ x.getLsbD n = true ∧ ∀ i, i < n → x.getLsbD i = false := by
  obtain ⟨n, hn, hcount, hset, hclear⟩ := leadingZeros_spec (reverseBits_ne_zero hx)
  refine ⟨n, hn, hcount, ?_, fun i hi => ?_⟩
  · rw [← getLsbD_reverseBits x n hn, hset]
  · rw [← getLsbD_reverseBits x i (by omega)]
    exact hclear _ (by omega)

theorem getLsbD_extractField (x ctl : Word) {i : Nat} (hi : i < 32) :
    (extractField x ctl).getLsbD i = (decide (i < fieldWidth ctl) && x.getLsbD (ctl.toNat % 32 + i)) := by
  rw [extractField, BitVec.getLsbD_ofNat, Nat.testBit_mod_two_pow, Nat.testBit_div_two_pow, decide_eq_true hi, Bool.true_and, Nat.add_comm]
  rfl

/-- The mask of a field holds as many ones as the field is wide. -/
theorem getLsbD_fieldMask (ctl : Word) {j : Nat} (hj : j < 32) :
    (BitVec.ofNat 32 (2 ^ fieldWidth ctl - 1)).getLsbD j = decide (j < fieldWidth ctl) := by
  rw [BitVec.getLsbD_ofNat, Nat.testBit_two_pow_sub_one, decide_eq_true hj, Bool.true_and]

theorem getLsbD_insertField (old x ctl : Word) {i : Nat} (hi : i < 32) :
    (insertField old x ctl).getLsbD i =
      if ctl.toNat % 32 ≤ i ∧ i < ctl.toNat % 32 + fieldWidth ctl then x.getLsbD (i - ctl.toNat % 32) else old.getLsbD i := by
  have hmask := getLsbD_fieldMask ctl (j := i - ctl.toNat % 32) (by omega)
  simp only [insertField, BitVec.getLsbD_or, BitVec.getLsbD_and, BitVec.getLsbD_not, BitVec.getLsbD_shiftLeft, hmask, decide_eq_true hi,
    Bool.true_and]
  by_cases hlow : i < ctl.toNat % 32
  · have : ¬ (ctl.toNat % 32 ≤ i ∧ i < ctl.toNat % 32 + fieldWidth ctl) := by omega
    simp [hlow, this]
  · by_cases hin : i - ctl.toNat % 32 < fieldWidth ctl
    · have : ctl.toNat % 32 ≤ i ∧ i < ctl.toNat % 32 + fieldWidth ctl := by omega
      simp [hlow, hin, this]
    · have : ¬ (ctl.toNat % 32 ≤ i ∧ i < ctl.toNat % 32 + fieldWidth ctl) := by omega
      simp [hlow, hin, this]

end Sys2Proof.Machine

/-- Settles O3: the bits of each function in turn. -/
theorem bitFieldResults : Obligations.BitFieldResults :=
  open Sys2Proof.Machine in
  ⟨popCount_toNat, by decide, fun _ => leadingZeros_spec, fun _ => trailingZeros_spec, getLsbD_reverseBits,
    fun x ctl _ => getLsbD_extractField x ctl, fun old x ctl _ => getLsbD_insertField old x ctl⟩

/-! Instructions that write one predicate (R139, R141, R142). -/

namespace Sys2Proof.Machine

open Sys2Proof

/-- What O4 asks of one form: in every issuing group whose lanes are free, the form's truth value goes to its predicate alone. -/
def PredFormHolds (f : PredForm) : Prop :=
  ∀ s g, Issues s g → Lanes s g f.pred (fun th => LaneFree g f.gate th ∧ (f.val th).isSome = true ∧ dstPred f.d f.nw = true) →
    ∃ t, exec f.instr s = .next t ∧
      GroupResult s t g fun _ => LaneAfter g f.pred fun th th' =>
        ∃ v, f.val th = some v ∧ WrotePreds g (fun n => if n = f.d.toNat then some v else none) th th'

/-- An instruction that puts its form's truth value into its predicate has that form. -/
theorem predFormHolds_of_lanes {f : PredForm} (lane : Group → State → Nat → Thread → Except Trap Thread)
    (hexec : ∀ s, exec f.instr s = .next (runThreads f.gate f.pred false lane s)) (hpure : ∀ g s t, lane g s = lane g t)
    (hlane : ∀ g s u th v, f.val th = some v → dstPred f.d f.nw = true → lane g s u th = .ok (putPred th g.latch f.d v)) :
    PredFormHolds f := by
  refine fun s g hi hgo => ⟨_, hexec s, lane_law f.gate f.pred false lane (fun th => (f.val th).isSome = true ∧ dstPred f.d f.nw = true) _
    s g hi (fun _ u th => by rw [hpure]) (fun u th => ?_) hgo⟩
  rintro ⟨hv, hd⟩
  obtain ⟨v, hv⟩ := Option.isSome_iff_exists.mp hv
  exact ⟨_, hlane g s u th v hv hd, v, hv, wrotePreds_putPred g f.d v th⟩

/-- The value of a form of two predicates: both are legal. -/
theorem predOf2_eq_some {a b : BitVec 6} {f : Bool → Bool → Bool} {th : Thread} {v : Bool} (h : predOf2 a b f th = some v) :
    ∃ x y, srcPred th a = some x ∧ srcPred th b = some y ∧ v = f x y := by
  unfold predOf2 at h
  split at h
  · next x y hx hy => exact ⟨x, y, hx, hy, (Option.some.inj h).symm⟩
  · cases h

/-- A predicate operation of two sources (R142). -/
theorem predFormHolds_pop2 {i : Instr} {p : BitVec 3} {d a b : BitVec 6} {nw : Bool} {op : Bool → Bool → Bool}
    (hexec : ∀ s, exec i s = .next (pop2 d a b nw p op s)) : PredFormHolds ⟨i, freeGate, p, d, nw, predOf2 a b op⟩ := by
  refine predFormHolds_of_lanes _ hexec (fun _ _ _ => rfl) fun g s u th v hv hd => ?_
  obtain ⟨x, y, hx, hy, rfl⟩ := predOf2_eq_some hv
  simp only [hx, hy, if_pos hd]

/-- A predicate operation of one source (R142). -/
theorem predFormHolds_pop1 {i : Instr} {p : BitVec 3} {d a : BitVec 6} {nw : Bool} {op : Bool → Bool}
    (hexec : ∀ s, exec i s = .next (pop1 d a nw p op s)) : PredFormHolds ⟨i, freeGate, p, d, nw, fun th => (srcPred th a).map op⟩ := by
  refine predFormHolds_of_lanes _ hexec (fun _ _ _ => rfl) fun g s u th v hv hd => ?_
  obtain ⟨x, hx, rfl⟩ := Option.map_eq_some_iff.mp hv
  simp only [hx, if_pos hd]

/-- `PMOV` passes a predicate (R142). -/
theorem predFormHolds_pmov (d a : BitVec 6) (nw : Bool) (p : BitVec 3) :
    PredFormHolds ⟨.pmov d a nw p, freeGate, p, d, nw, fun th => srcPred th a⟩ := by
  refine predFormHolds_of_lanes _ (fun _ => rfl) (fun _ _ _ => rfl) fun g s u th v hv hd => ?_
  simp only [show srcPred th a = some v from hv, if_pos hd]
  rfl

/-- `PSET` (R142). -/
theorem predFormHolds_pset (d a : BitVec 6) (nw : Bool) (p : BitVec 3) :
    PredFormHolds ⟨.pset d a nw p, freeGate, p, d, nw, fun th => (srcReg th a).map fun x => decide (x.val ≠ 0)⟩ := by
  refine predFormHolds_of_lanes _ (fun _ => rfl) (fun _ _ _ => rfl) fun g s u th v hv hd => ?_
  obtain ⟨x, hx, rfl⟩ := Option.map_eq_some_iff.mp hv
  simp only [hx, if_pos hd]

/-- The signed reading of a pattern is two's complement. -/
theorem intOfBits_signed {w : Nat} (hw : 0 < w) (x : BitVec w) : intOfBits w true x.toNat = x.toInt := by
  obtain ⟨n, rfl⟩ : ∃ n, w = n + 1 := ⟨w - 1, by omega⟩
  have hhalf : 2 ^ (n + 1) = 2 * 2 ^ n := by rw [pow_succ, mul_comm]
  simp only [intOfBits, Nat.mod_eq_of_lt x.isLt, BitVec.toInt_eq_toNat_cond, Bool.true_and, decide_eq_true_eq, Nat.add_sub_cancel]
  by_cases h : 2 ^ n ≤ x.toNat
  · rw [if_pos h, if_neg (by omega)]
  · rw [if_neg h, if_pos (by omega)]

/-- The truth of an integer compare is that of the signed and unsigned operands (R44, R139). -/
theorem intCompare_eq {w : Nat} (hw : 0 < w) (f : Nat) (x y : BitVec w) :
    intCompare w f x.toNat y.toNat = intTruth f x.toInt y.toInt x.toNat y.toNat := by
  have heq : (x.toNat == y.toNat) = decide (x.toNat = y.toNat) := rfl
  have hne : (x.toNat != y.toNat) = decide (x.toNat ≠ y.toNat) := by rw [bne, heq, decide_not]
  simp only [intCompare, intTruth, intOfBits_signed hw, heq, hne]

/-- `CMPI`: members 10-15 compare pairs (R139). -/
theorem predFormHolds_cmpi (d a b : BitVec 6) (f : BitVec 4) (nw : Bool) (p : BitVec 3) :
    PredFormHolds ⟨.cmpi d a b f nw p, freeGate, p, d, nw, fun th =>
      if f.toNat < 10 then
        match srcReg th a, srcReg th b with
        | some x, some y => some (intTruth f.toNat x.val.toInt y.val.toInt x.val.toNat y.val.toNat)
        | _, _ => none
      else
        match srcPair th a, srcPair th b with
        | some x, some y => some (intTruth f.toNat (bitsOf x).toInt (bitsOf y).toInt (bitsOf x).toNat (bitsOf y).toNat)
        | _, _ => none⟩ := by
  refine predFormHolds_of_lanes _ (fun _ => rfl) (fun _ _ _ => rfl) fun g s u th v hv hd => ?_
  dsimp only at hv ⊢
  by_cases hf : f.toNat < 10
  · rw [if_pos hf] at hv
    split at hv
    · next x y hx hy =>
      obtain rfl := Option.some.inj hv
      simp only [if_neg (Nat.not_le.mpr hf), hx, hy, if_pos hd, intCompare_eq (by norm_num : 0 < 32)]
    · cases hv
  · rw [if_neg hf] at hv
    split at hv
    · next x y hx hy =>
      obtain rfl := Option.some.inj hv
      simp only [if_pos (Nat.not_lt.mp hf), hx, hy, if_pos hd, intCompare_eq (by norm_num : 0 < 64)]
      rfl
    · cases hv

/-- The gate of the Z6 members, as the model's arms write it. -/
theorem z6Gate_decide (c : Prop) [Decidable c] : z6Gate (decide c) = if c then ⟨some 1, 0, 0⟩ else freeGate := by
  by_cases h : c
  · rw [decide_eq_true h, if_pos h]; rfl
  · rw [decide_eq_false h, if_neg h]; rfl

/-- A tapered pattern as a signed integer is its two's complement (R102). -/
theorem zSigned_eq_toInt {z : ZFmt} (hz : 0 < z.n) (x : Word) : zSigned z x.toNat = (x.setWidth z.n).toInt := by
  rw [← intOfBits_signed hz, BitVec.toNat_setWidth]
  have hnar : 2 ^ (z.n - 1) = z.nar := rfl
  simp only [zSigned, intOfBits, Nat.mod_mod, Bool.true_and, decide_eq_true_eq, hnar]

/-- `CMPZ`: members 0-2 compare Z8 patterns, 3-5 those of Z6 (R141, R102). -/
theorem predFormHolds_cmpz (d a b : BitVec 6) (z : BitVec 3) (nw : Bool) (p : BitVec 3) :
    PredFormHolds ⟨.cmpz d a b z nw p, z6Gate (decide (3 ≤ z.toNat)), p, d, nw, fun th =>
      match srcReg th a, srcReg th b with
      | some x, some y =>
        let u : Int := if z.toNat < 3 then (x.val.setWidth 8).toInt else (x.val.setWidth 6).toInt
        let v : Int := if z.toNat < 3 then (y.val.setWidth 8).toInt else (y.val.setWidth 6).toInt
        some (if z.toNat % 3 = 0 then decide (u = v) else if z.toNat % 3 = 1 then decide (u < v) else decide (u ≤ v))
      | _, _ => none⟩ := by
  rw [z6Gate_decide]
  refine predFormHolds_of_lanes _ (fun _ => rfl) (fun _ _ _ => rfl) fun g s u th v hv hd => ?_
  dsimp only at hv ⊢
  split at hv
  · next x y hx hy =>
    obtain rfl := Option.some.inj hv
    simp only [hx, hy, if_pos hd]
    by_cases hz : z.toNat < 3
    · simp only [if_pos hz, if_neg (Nat.not_le.mpr hz), zSigned_eq_toInt (z := z8) (by decide)]
      rfl
    · simp only [if_neg hz, if_pos (Nat.not_lt.mp hz), zSigned_eq_toInt (z := z6) (by decide)]
      rfl
  · cases hv

/-- Every form of the table holds, each by the law of its shape. -/
theorem predForms_hold (d a b : BitVec 6) (nw : Bool) (p : BitVec 3) (f : BitVec 4) (z : BitVec 3) :
    ∀ x ∈ predForms d a b nw p f z, PredFormHolds x := by
  simp only [predForms, List.forall_mem_cons]
  exact ⟨predFormHolds_cmpi d a b f nw p, predFormHolds_cmpz d a b z nw p, predFormHolds_pop2 fun _ => rfl, predFormHolds_pop2 fun _ => rfl,
    predFormHolds_pop2 fun _ => rfl, predFormHolds_pop1 fun _ => rfl, predFormHolds_pmov d a nw p,
    predFormHolds_pset d a nw p, by simp⟩

end Sys2Proof.Machine

/-- Settles O4: every instruction of the table computes its form's truth value. -/
theorem predicateResults : Obligations.PredicateResults := Sys2Proof.Machine.predForms_hold

/-! Instructions that raise flags: where these do not trap, the flags and the result are written (R65, R97, R98, R129). -/

namespace Sys2Proof.Machine

open Sys2Proof

/-- The law of an instruction over lanes whose flags do not trap: its value is written over the thread with the flags set. -/
theorem flag_law {α : Type} (gate : Gate) (p : BitVec 3) (dbl : Bool) (dst : Thread → Bool) (val : Thread → Option (α × Word))
    (put : Nat → α → Thread → Thread) (W : Group → α → Thread → Thread → Prop) (lane : Group → State → Nat → Thread → Except Trap Thread)
    (hpure : ∀ g s t, lane g s = lane g t)
    (hlane : ∀ g s u th r, val th = some r → dst th = true → NoFlagTrap th dbl r.2 →
      lane g s u th = .ok (put g.latch r.1 { th with fsr := th.fsr ||| r.2 }))
    (hput : ∀ g v th, W g v th (advance g (put g.latch v th))) (s : State) (g : Group) (hi : Issues s g)
    (hgo : Lanes s g p fun th => LaneFree g gate th ∧ dst th = true ∧ ∃ r, val th = some r ∧ NoFlagTrap th dbl r.2) :
    GroupResult s (runThreads gate p false lane s) g fun _ => LaneAfter g p fun th th' =>
      ∃ r, val th = some r ∧ W g r.1 { th with fsr := th.fsr ||| r.2 } th' := by
  refine lane_law gate p false lane (fun th => dst th = true ∧ ∃ r, val th = some r ∧ NoFlagTrap th dbl r.2) _ s g hi
    (fun _ u th => by rw [hpure]) (fun u th => ?_) hgo
  rintro ⟨hd, r, hv, hfl⟩
  exact ⟨_, hlane g s u th r hv hd hfl, r, hv, hput g r.1 _⟩

/-- What O5, O6 and O7 ask of one form: in every issuing group whose lanes are free and whose flags do not trap, the form's value goes to
its latch and register, and its flags to `FSR`. -/
def FlagFormHolds (f : FlagForm) : Prop :=
  ∀ s g, Issues s g →
    Lanes s g f.pred (fun th => LaneFree g f.gate th ∧ dstReg th f.d f.nw = true ∧ ∃ r, f.val th = some r ∧ NoFlagTrap th f.dbl r.2) →
    ∃ t, exec f.instr s = .next t ∧
      GroupResult s t g fun _ => LaneAfter g f.pred fun th th' =>
        ∃ r, f.val th = some r ∧ WroteReg g f.d f.nw r.1 { th with fsr := th.fsr ||| r.2 } th'

/-- As `FlagFormHolds` for a pair result. -/
def FlagPairFormHolds (f : FlagPairForm) : Prop :=
  ∀ s g, Issues s g →
    Lanes s g f.pred (fun th => LaneFree g f.gate th ∧ dstPair th f.d f.nw = true ∧ ∃ r, f.val th = some r ∧ NoFlagTrap th f.dbl r.2) →
    ∃ t, exec f.instr s = .next t ∧
      GroupResult s t g fun _ => LaneAfter g f.pred fun th th' =>
        ∃ r, f.val th = some r ∧ WrotePair g f.d f.nw r.1 { th with fsr := th.fsr ||| r.2 } th'

/-- An instruction that writes its form's value and flags where these do not trap has that form. -/
theorem flagFormHolds_of_lanes {f : FlagForm} (lane : Group → State → Nat → Thread → Except Trap Thread)
    (hexec : ∀ s, exec f.instr s = .next (runThreads f.gate f.pred false lane s)) (hpure : ∀ g s t, lane g s = lane g t)
    (hlane : ∀ g s u th r, f.val th = some r → dstReg th f.d f.nw = true → NoFlagTrap th f.dbl r.2 →
      lane g s u th = .ok (putReg { th with fsr := th.fsr ||| r.2 } g.latch f.d f.nw r.1)) : FlagFormHolds f :=
  fun s g hi hgo => ⟨_, hexec s, flag_law f.gate f.pred f.dbl (dstReg · f.d f.nw) f.val (fun k v th => putReg th k f.d f.nw v)
    (fun g => WroteReg g f.d f.nw) lane hpure hlane (fun g v th => wroteReg_putReg g f.d f.nw v th) s g hi hgo⟩

/-- As `flagFormHolds_of_lanes` for a pair result. -/
theorem flagPairFormHolds_of_lanes {f : FlagPairForm} (lane : Group → State → Nat → Thread → Except Trap Thread)
    (hexec : ∀ s, exec f.instr s = .next (runThreads f.gate f.pred false lane s)) (hpure : ∀ g s t, lane g s = lane g t)
    (hlane : ∀ g s u th r, f.val th = some r → dstPair th f.d f.nw = true → NoFlagTrap th f.dbl r.2 →
      lane g s u th = .ok (putPair { th with fsr := th.fsr ||| r.2 } g.latch f.d f.nw r.1)) : FlagPairFormHolds f :=
  fun s g hi hgo => ⟨_, hexec s, flag_law f.gate f.pred f.dbl (dstPair · f.d f.nw) f.val (fun k v th => putPair th k f.d f.nw v)
    (fun g => WrotePair g f.d f.nw) lane hpure hlane (fun g v th => wrotePair_putPair g f.d f.nw v th) s g hi hgo⟩

/-- The value of a form of one register: it is legal. -/
theorem fOf1_eq_some {a : BitVec 6} {f : Thread → Val → DRes} {th : Thread} {r : Dexel × Word} (h : fOf1 a f th = some r) :
    ∃ x, srcReg th a = some x ∧ r = flagged (f th (valOf th x)) := by
  obtain ⟨x, hx, rfl⟩ := Option.map_eq_some_iff.mp h
  exact ⟨x, hx, rfl⟩

/-- The value of a form of two registers: both are legal. -/
theorem fOf2_eq_some {a b : BitVec 6} {f : Thread → Val → Val → DRes} {th : Thread} {r : Dexel × Word} (h : fOf2 a b f th = some r) :
    ∃ x y, srcReg th a = some x ∧ srcReg th b = some y ∧ r = flagged (f th (valOf th x) (valOf th y)) := by
  unfold fOf2 at h
  split at h
  · next x y hx hy => exact ⟨x, y, hx, hy, (Option.some.inj h).symm⟩
  · cases h

/-- The value of a form of three registers: all are legal. -/
theorem fOf3_eq_some {a b c : BitVec 6} {f : Thread → Val → Val → Val → DRes} {th : Thread} {r : Dexel × Word}
    (h : fOf3 a b c f th = some r) : ∃ x y z, srcReg th a = some x ∧ srcReg th b = some y ∧ srcReg th c = some z ∧
      r = flagged (f th (valOf th x) (valOf th y) (valOf th z)) := by
  unfold fOf3 at h
  split at h
  · next x y z hx hy hz => exact ⟨x, y, z, hx, hy, hz, (Option.some.inj h).symm⟩
  · cases h

/-- The value of a form of one pair: it is legal. -/
theorem dOf1_eq_some {a : BitVec 6} {f : Thread → Val → DRes} {th : Thread} {r : (Dexel × Dexel) × Word} (h : dOf1 a f th = some r) :
    ∃ x, srcPair th a = some x ∧ r = flaggedPair th (f th (valOfPair th x)) := by
  obtain ⟨x, hx, rfl⟩ := Option.map_eq_some_iff.mp h
  exact ⟨x, hx, rfl⟩

/-- The value of a form of two pairs: both are legal. -/
theorem dOf2_eq_some {a b : BitVec 6} {f : Thread → Val → Val → DRes} {th : Thread} {r : (Dexel × Dexel) × Word}
    (h : dOf2 a b f th = some r) : ∃ x y, srcPair th a = some x ∧ srcPair th b = some y ∧
      r = flaggedPair th (f th (valOfPair th x) (valOfPair th y)) := by
  unfold dOf2 at h
  split at h
  · next x y hx hy => exact ⟨x, y, hx, hy, (Option.some.inj h).symm⟩
  · cases h

/-- The value of a form of three pairs: all are legal. -/
theorem dOf3_eq_some {a b c : BitVec 6} {f : Thread → Val → Val → Val → DRes} {th : Thread} {r : (Dexel × Dexel) × Word}
    (h : dOf3 a b c f th = some r) : ∃ x y z, srcPair th a = some x ∧ srcPair th b = some y ∧ srcPair th c = some z ∧
      r = flaggedPair th (f th (valOfPair th x) (valOfPair th y) (valOfPair th z)) := by
  unfold dOf3 at h
  split at h
  · next x y z hx hy hz => exact ⟨x, y, z, hx, hy, hz, (Option.some.inj h).symm⟩
  · cases h

/-- `finish32_ok` in the form's words. -/
theorem finish32_flagged (th : Thread) (k : Nat) (d : BitVec 6) (nw : Bool) (r : DRes) (h : NoFlagTrap th false (flagged r).2) :
    finish32 th k d nw r = .ok (putReg { th with fsr := th.fsr ||| (flagged r).2 } k d nw (flagged r).1) := finish32_ok th k d nw r h

/-- `finish64_ok` in the form's words. -/
theorem finish64_flagged (th : Thread) (k : Nat) (d : BitVec 6) (nw : Bool) (r : DRes) (h : NoFlagTrap th true (flaggedPair th r).2) :
    finish64 th k d nw r = .ok (putPair { th with fsr := th.fsr ||| (flaggedPair th r).2 } k d nw (flaggedPair th r).1) := finish64_ok th k d nw r h

/-- A one-operand instruction on registers. -/
theorem flagFormHolds_fop1 {i : Instr} {p : BitVec 3} {d a : BitVec 6} {nw : Bool} {op : Thread → Val → DRes}
    (hexec : ∀ s, exec i s = .next (fop1 d a nw p op s)) : FlagFormHolds ⟨i, freeGate, p, d, nw, false, fOf1 a op⟩ := by
  refine flagFormHolds_of_lanes _ hexec (fun _ _ _ => rfl) fun g s u th r hv hd hfl => ?_
  obtain ⟨x, hx, rfl⟩ := fOf1_eq_some hv
  simp only [hx, if_pos hd]
  exact finish32_flagged th _ d nw _ hfl

/-- A two-operand instruction on registers. -/
theorem flagFormHolds_fop2 {i : Instr} {p : BitVec 3} {d a b : BitVec 6} {nw : Bool} {op : Thread → Val → Val → DRes}
    (hexec : ∀ s, exec i s = .next (fop2 d a b nw p op s)) : FlagFormHolds ⟨i, freeGate, p, d, nw, false, fOf2 a b op⟩ := by
  refine flagFormHolds_of_lanes _ hexec (fun _ _ _ => rfl) fun g s u th r hv hd hfl => ?_
  obtain ⟨x, y, hx, hy, rfl⟩ := fOf2_eq_some hv
  simp only [hx, hy, if_pos hd]
  exact finish32_flagged th _ d nw _ hfl

/-- A three-operand instruction on registers. -/
theorem flagFormHolds_fop3 {i : Instr} {q : Bool} {d a b c : BitVec 6} {nw : Bool} {op : Thread → Val → Val → Val → DRes}
    (hexec : ∀ s, exec i s = .next (fop3 d a b c nw q op s)) : FlagFormHolds ⟨i, freeGate, shortPred q, d, nw, false, fOf3 a b c op⟩ := by
  refine flagFormHolds_of_lanes _ hexec (fun _ _ _ => rfl) fun g s u th r hv hd hfl => ?_
  obtain ⟨x, y, z, hx, hy, hz, rfl⟩ := fOf3_eq_some hv
  simp only [hx, hy, hz, if_pos hd]
  exact finish32_flagged th _ d nw _ hfl

/-- A one-operand instruction on pairs. -/
theorem flagPairFormHolds_dop1 {i : Instr} {p : BitVec 3} {d a : BitVec 6} {nw : Bool} {op : Thread → Val → DRes}
    (hexec : ∀ s, exec i s = .next (dop1 d a nw p op s)) : FlagPairFormHolds ⟨i, freeGate, p, d, nw, true, dOf1 a op⟩ := by
  refine flagPairFormHolds_of_lanes _ hexec (fun _ _ _ => rfl) fun g s u th r hv hd hfl => ?_
  obtain ⟨x, hx, rfl⟩ := dOf1_eq_some hv
  simp only [hx, if_pos hd]
  exact finish64_flagged th _ d nw _ hfl

/-- A two-operand instruction on pairs. -/
theorem flagPairFormHolds_dop2 {i : Instr} {p : BitVec 3} {d a b : BitVec 6} {nw : Bool} {op : Thread → Val → Val → DRes}
    (hexec : ∀ s, exec i s = .next (dop2 d a b nw p op s)) : FlagPairFormHolds ⟨i, freeGate, p, d, nw, true, dOf2 a b op⟩ := by
  refine flagPairFormHolds_of_lanes _ hexec (fun _ _ _ => rfl) fun g s u th r hv hd hfl => ?_
  obtain ⟨x, y, hx, hy, rfl⟩ := dOf2_eq_some hv
  simp only [hx, hy, if_pos hd]
  exact finish64_flagged th _ d nw _ hfl

/-- A three-operand instruction on pairs. -/
theorem flagPairFormHolds_dop3 {i : Instr} {q : Bool} {d a b c : BitVec 6} {nw : Bool} {op : Thread → Val → Val → Val → DRes}
    (hexec : ∀ s, exec i s = .next (dop3 d a b c nw q op s)) : FlagPairFormHolds ⟨i, freeGate, shortPred q, d, nw, true, dOf3 a b c op⟩ := by
  refine flagPairFormHolds_of_lanes _ hexec (fun _ _ _ => rfl) fun g s u th r hv hd hfl => ?_
  obtain ⟨x, y, z, hx, hy, hz, rfl⟩ := dOf3_eq_some hv
  simp only [hx, hy, hz, if_pos hd]
  exact finish64_flagged th _ d nw _ hfl

/-- `FRND`: its operand and mode are legal (R126). -/
theorem flagFormHolds_frnd (d a : BitVec 6) (m : BitVec 2) (nw : Bool) (p : BitVec 3) :
    FlagFormHolds ⟨.frnd d a m nw p, freeGate, p, d, nw, false, fOfRnd a m⟩ := by
  refine flagFormHolds_of_lanes _ (fun _ => rfl) (fun _ _ _ => rfl) fun g s u th r hv hd hfl => ?_
  dsimp only [fOfRnd] at hv
  split at hv
  · next x rm hx hm =>
    obtain rfl := Option.some.inj hv
    simp only [hx, hm, if_pos hd]
    exact finish32_flagged th _ d nw _ hfl
  · cases hv

/-- `DRND`: its operand and mode are legal (R126). -/
theorem flagPairFormHolds_drnd (d a : BitVec 6) (m : BitVec 2) (nw : Bool) (p : BitVec 3) :
    FlagPairFormHolds ⟨.drnd d a m nw p, freeGate, p, d, nw, true, dOfRnd a m⟩ := by
  refine flagPairFormHolds_of_lanes _ (fun _ => rfl) (fun _ _ _ => rfl) fun g s u th r hv hd hfl => ?_
  dsimp only [dOfRnd] at hv
  split at hv
  · next x rm hx hm =>
    obtain rfl := Option.some.inj hv
    simp only [hx, hm, if_pos hd]
    exact finish64_flagged th _ d nw _ hfl
  · cases hv

/-- Every binary32 form holds, each by the law of its shape. -/
theorem binary32Forms_hold (d a b c : BitVec 6) (nw : Bool) (p : BitVec 3) (q : Bool) (m : BitVec 2) :
    ∀ f ∈ binary32Forms d a b c nw p q m, FlagFormHolds f := by
  simp only [binary32Forms, List.forall_mem_cons]
  exact ⟨flagFormHolds_fop2 fun _ => rfl, flagFormHolds_fop2 fun _ => rfl, flagFormHolds_fop2 fun _ => rfl, flagFormHolds_fop2 fun _ => rfl,
    flagFormHolds_fop1 fun _ => rfl, flagFormHolds_fop2 fun _ => rfl, flagFormHolds_fop2 fun _ => rfl, flagFormHolds_fop2 fun _ => rfl,
    flagFormHolds_fop2 fun _ => rfl, flagFormHolds_fop1 fun _ => rfl, flagFormHolds_fop1 fun _ => rfl, flagFormHolds_fop2 fun _ => rfl,
    flagFormHolds_frnd d a m nw p, flagFormHolds_fop1 fun _ => rfl, flagFormHolds_fop3 fun _ => rfl, flagFormHolds_fop3 fun _ => rfl,
    flagFormHolds_fop3 fun _ => rfl, flagFormHolds_fop2 fun _ => rfl, by simp⟩

/-- Every packed binary16 form holds: its operation is the element's, on both elements. -/
theorem binary16Forms_hold (d a b c : BitVec 6) (nw : Bool) (p : BitVec 3) (q : Bool) :
    ∀ f ∈ binary16Forms d a b c nw p q, FlagFormHolds f := by
  simp only [binary16Forms, List.forall_mem_cons]
  exact ⟨flagFormHolds_fop2 fun _ => rfl, flagFormHolds_fop2 fun _ => rfl, flagFormHolds_fop2 fun _ => rfl, flagFormHolds_fop2 fun _ => rfl,
    flagFormHolds_fop2 fun _ => rfl, flagFormHolds_fop1 fun _ => rfl, flagFormHolds_fop1 fun _ => rfl, flagFormHolds_fop3 fun _ => rfl, by simp⟩

/-- `ZPACK.z6`, under the gate of its feature (R137, R388). -/
theorem flagFormHolds_zpackZ6 (d a b : BitVec 6) (nw : Bool) (p : BitVec 3) :
    FlagFormHolds ⟨.zpackZ6 d a b nw p, z6Gate true, p, d, nw, false, fOf2 a b (zpack z6)⟩ := by
  refine flagFormHolds_of_lanes _ (fun _ => rfl) (fun _ _ _ => rfl) fun g s u th r hv hd hfl => ?_
  obtain ⟨x, y, hx, hy, rfl⟩ := fOf2_eq_some hv
  simp only [hx, hy, if_pos hd]
  exact finish32_flagged th _ d nw _ hfl

/-- `ZUNPK.z6`, under the gate of its feature (R137, R388). -/
theorem flagFormHolds_zunpkZ6 (d a : BitVec 6) (nw : Bool) (p : BitVec 3) :
    FlagFormHolds ⟨.zunpkZ6 d a nw p, z6Gate true, p, d, nw, false, fOf1 a (zunpack z6)⟩ := by
  refine flagFormHolds_of_lanes _ (fun _ => rfl) (fun _ _ _ => rfl) fun g s u th r hv hd hfl => ?_
  obtain ⟨x, hx, rfl⟩ := fOf1_eq_some hv
  simp only [hx, if_pos hd]
  exact finish32_flagged th _ d nw _ hfl

/-- Every form of the special functions and tapered helpers holds. -/
theorem specialForms_hold (d a b : BitVec 6) (nw : Bool) (p : BitVec 3) : ∀ f ∈ specialForms d a b nw p, FlagFormHolds f := by
  simp only [specialForms, List.forall_mem_cons]
  exact ⟨flagFormHolds_fop1 fun _ => rfl, flagFormHolds_fop1 fun _ => rfl, flagFormHolds_fop1 fun _ => rfl, flagFormHolds_fop1 fun _ => rfl,
    flagFormHolds_fop1 fun _ => rfl, flagFormHolds_fop1 fun _ => rfl, flagFormHolds_fop1 fun _ => rfl, flagFormHolds_fop2 fun _ => rfl,
    flagFormHolds_fop1 fun _ => rfl, flagFormHolds_zpackZ6 d a b nw p, flagFormHolds_zunpkZ6 d a nw p, flagFormHolds_fop2 fun _ => rfl, by simp⟩

/-- Every binary64 form holds, each by the law of its shape. -/
theorem doubleForms_hold (d a b c : BitVec 6) (nw : Bool) (p : BitVec 3) (q : Bool) (m : BitVec 2) :
    ∀ f ∈ doubleForms d a b c nw p q m, FlagPairFormHolds f := by
  simp only [doubleForms, List.forall_mem_cons]
  exact ⟨flagPairFormHolds_dop2 fun _ => rfl, flagPairFormHolds_dop2 fun _ => rfl, flagPairFormHolds_dop2 fun _ => rfl,
    flagPairFormHolds_dop2 fun _ => rfl, flagPairFormHolds_dop1 fun _ => rfl, flagPairFormHolds_dop2 fun _ => rfl,
    flagPairFormHolds_dop2 fun _ => rfl, flagPairFormHolds_dop2 fun _ => rfl, flagPairFormHolds_dop2 fun _ => rfl,
    flagPairFormHolds_dop1 fun _ => rfl, flagPairFormHolds_dop1 fun _ => rfl, flagPairFormHolds_dop2 fun _ => rfl,
    flagPairFormHolds_drnd d a m nw p, flagPairFormHolds_dop3 fun _ => rfl, flagPairFormHolds_dop3 fun _ => rfl, by simp⟩

end Sys2Proof.Machine

/-- Settles O5: every binary32 instruction of the table computes its form's value and flags. -/
theorem binary32Results : Obligations.Binary32Results := Sys2Proof.Machine.binary32Forms_hold

/-- Settles O6: every packed instruction of the table computes its form's value and flags. -/
theorem binary16Results : Obligations.Binary16Results := Sys2Proof.Machine.binary16Forms_hold

/-- Settles O7: every special function and tapered helper of the table computes its form's value and flags. -/
theorem specialFunctionResults : Obligations.SpecialFunctionResults := Sys2Proof.Machine.specialForms_hold

/-- Settles O8: every binary64 instruction of the table computes its form's value and flags. -/
theorem doubleResults : Obligations.DoubleResults := Sys2Proof.Machine.doubleForms_hold

/-! Conversions (R134, R135): one law for both widths of the result. -/

namespace Sys2Proof.Machine

open Sys2Proof

/-- Where a conversion's source is legal it is read at its width, and its codes differ (R46, R134). -/
theorem cvtOf_eq_some {a : BitVec 6} {src dst : BitVec 4} {m : BitVec 2} {th : Thread} {r : Val × Word} (h : cvtOf a src dst m th = some r) :
    ∃ v rm, (if src = 0 ∨ src = 8 ∨ src = 9 then (srcPair th a).map (valOfPair th) else (srcReg th a).map (valOf th)) = some v ∧
      modeSel th m = some rm ∧ ¬ (9 < src.toNat ∨ src = dst) ∧
      r = (⟨(convert (cvtFmt src.toNat) (cvtFmt dst.toNat) rm v.bits).bits, cvtTans th src.toNat dst.toNat v⟩,
        (convert (cvtFmt src.toNat) (cvtFmt dst.toNat) rm v.bits).flags) := by
  unfold cvtOf at h
  dsimp only at h
  split at h
  · next v rm hv hm =>
    split at h
    · cases h
    · next hlegal => exact ⟨v, rm, hv, hm, hlegal, (Option.some.inj h).symm⟩
  · cases h

/-- The codes whose values take a pair (R46). -/
theorem cvtWide_iff (code : BitVec 4) : cvtWide code.toNat = true ↔ code = 0 ∨ code = 8 ∨ code = 9 := by
  revert code
  decide

/-- A conversion is gated by the Z6 feature where one of its codes is that of Z6 (R135, R388). -/
theorem cvtGate_eq (src dst : BitVec 4) : cvtGate src.toNat dst.toNat = z6Gate (decide (src = 5 ∨ dst = 5)) := by
  revert src dst
  decide

/-- A conversion's end: its result in the register or pair of its code. -/
def putCvt (d : BitVec 6) (dst : BitVec 4) (nw : Bool) (k : Nat) (v : Val) (th : Thread) : Thread :=
  if dst = 0 ∨ dst = 8 ∨ dst = 9 then putPair th k d nw (pairOf th v) else putReg th k d nw (dexelOf v)

/-- What a conversion leaves of its thread: its result in a pair for the codes 0, 8 and 9, in a register for the others (R135). -/
def WroteCvt (d : BitVec 6) (dst : BitVec 4) (nw : Bool) (g : Group) (v : Val) (th th' : Thread) : Prop :=
  if dst = 0 ∨ dst = 8 ∨ dst = 9 then WrotePair g d nw (pairOf th v) th th' else WroteReg g d nw (dexelOf v) th th'

theorem wroteCvt_putCvt (g : Group) (d : BitVec 6) (dst : BitVec 4) (nw : Bool) (v : Val) (th : Thread) :
    WroteCvt d dst nw g v th (advance g (putCvt d dst nw g.latch v th)) := by
  unfold WroteCvt putCvt
  split
  · exact wrotePair_putPair g d nw _ th
  · exact wroteReg_putReg g d nw _ th

end Sys2Proof.Machine

/-- Settles O9: a legal conversion whose flags do not trap ends in `putCvt`, whatever the widths of its codes. -/
theorem conversionResults : Obligations.ConversionResults :=
  open Sys2Proof Sys2Proof.Machine in by
  intro d a src dst m nw p s g hi hgo
  rw [← cvtGate_eq] at hgo
  refine ⟨_, rfl, flag_law (cvtGate src.toNat dst.toNat) p (decide (src = 0 ∨ dst = 0))
    (fun th => if dst = 0 ∨ dst = 8 ∨ dst = 9 then dstPair th d nw else dstReg th d nw) (cvtOf a src dst m) (putCvt d dst nw)
    (WroteCvt d dst nw) _ (fun _ _ _ => rfl) (fun g s u th r hv hd hfl => ?_) (fun g v th => wroteCvt_putCvt g d dst nw v th) s g hi hgo⟩
  obtain ⟨v, rm, hsrc, hm, hlegal, rfl⟩ := cvtOf_eq_some hv
  simp only [cvtWide_iff, hsrc, hm, if_neg hlegal, ← Bool.decide_or]
  unfold putCvt
  split_ifs at hd ⊢
  · exact raising_ok th _ _ _ hfl
  · exact raising_ok th _ _ _ hfl

/-! Floating-point compares (R140, R141). -/

namespace Sys2Proof.Machine

open Sys2Proof

theorem fval_eq_nan_iff (f : IeeeFmt) (a : Nat) : fval f a = .nan ↔ isNaN f a = true := by
  unfold fval isNaN
  by_cases htop : expField f a = f.topExp
  · by_cases hfrac : fracField f a = 0 <;> simp [htop, hfrac]
  · simp only [if_neg htop]
    split <;> simp [htop]

theorem fcmp_eq_none_iff (x y : FVal) : fcmp x y = none ↔ x = .nan ∨ y = .nan := by
  cases x <;> cases y <;> simp [fcmp]

/-- Two patterns are unordered where one of them is a NaN (R140). -/
theorem unordered_iff (f : IeeeFmt) (a b : Nat) : fcmp (fval f a) (fval f b) = none ↔ isNaN f a = true ∨ isNaN f b = true := by
  rw [fcmp_eq_none_iff, fval_eq_nan_iff, fval_eq_nan_iff]

theorem isNaN_of_isSNaN {f : IeeeFmt} {a : Nat} (h : isSNaN f a = true) : isNaN f a = true := ((Bool.and_eq_true _ _).mp h).1

/-- NV of a compare: a signalling NaN, or any NaN with the codes 2 to 5 (R140). -/
theorem fpCompare_flags (fm : IeeeFmt) (f a b : Nat) : (fpCompare fm f a b).2 =
    if isSNaN fm a = true ∨ isSNaN fm b = true ∨ ((isNaN fm a = true ∨ isNaN fm b = true) ∧ 2 ≤ f ∧ f ≤ 5) then 1 else 0 := by
  have hquiet : isSNaN fm a = true ∨ isSNaN fm b = true → isNaN fm a = true ∨ isNaN fm b = true := Or.imp isNaN_of_isSNaN isNaN_of_isSNaN
  unfold fpCompare
  dsimp only
  by_cases hf : 2 ≤ f ∧ f ≤ 5
  · rw [if_pos hf, flagIf]
    refine if_congr ?_ rfl rfl
    rw [beq_iff_eq, unordered_iff]
    tauto
  · rw [if_neg hf, snanFlag, flagIf]
    refine if_congr ?_ rfl rfl
    simp only [List.any_cons, List.any_nil, Bool.or_false, Bool.or_eq_true]
    tauto

/-- The truth of a compare by its code and the order of the operands (R140). -/
theorem fpCompare_truth (fm : IeeeFmt) (f a b : Nat) (hf : f ≤ 13) : (fpCompare fm f a b).1 =
    (match fcmp (fval fm a) (fval fm b) with
     | none => decide (6 ≤ f ∧ f ≠ 12)
     | some o =>
       if f = 0 ∨ f = 6 then decide (o = .eq)
       else if f = 1 ∨ f = 7 then decide (o ≠ .eq)
       else if f = 2 ∨ f = 8 then decide (o = .lt)
       else if f = 3 ∨ f = 9 then decide (o ≠ .gt)
       else if f = 4 ∨ f = 10 then decide (o = .gt)
       else if f = 5 ∨ f = 11 then decide (o ≠ .lt)
       else decide (f = 12)) := by
  unfold fpCompare
  generalize fcmp (fval fm a) (fval fm b) = o
  cases o with
  | none => interval_cases f <;> rfl
  | some o => interval_cases f <;> cases o <;> rfl

/-- Two predicates written, the second beside the first (R141). -/
theorem wrotePreds_two (g : Group) {d : BitVec 6} (b0 b1 : Bool) (th : Thread) :
    WrotePreds g (fun n => if n = d.toNat then some b0 else if n = d.toNat + 1 then some b1 else none) th
      (advance g (writePred (putPred th g.latch d b0) (d.toNat + 1) b1)) := by
  obtain ⟨hpreds, hlatch, hlog, -⟩ := wrotePreds_putPred g d b0 th
  refine ⟨fun n hn => ?_, hlatch, fun h => ?_, rfl⟩
  · change readPred (writePred (putPred th g.latch d b0) (d.toNat + 1) b1) n = _
    rw [readPred_writePred _ _ _ _ hn]
    by_cases h1 : n = d.toNat + 1
    · rw [if_pos h1, if_neg (by omega), if_pos h1]
      rfl
    · rw [if_neg h1, if_neg h1]
      exact hpreds n hn
  · change Option.map _ (putPred th g.latch d b0).cocoon = none
    rw [show (putPred th g.latch d b0).cocoon = none from hlog h]
    rfl

/-- The member of `CMPH2` follows the code of R140 that R141 names. -/
theorem cmph2Fn_eq (h : BitVec 3) : cmph2Fn h.toNat = if h = 6 then 12 else if h = 7 then 13 else h.toNat := by
  revert h
  decide

theorem floatCompareResults : FloatCompareResults := by
  intro d a b f h nw p s g hi
  refine ⟨fun hgo => ⟨_, rfl, lane_law freeGate p false _ _ _ s g hi (fun _ _ _ => rfl) (fun u th => ?_) hgo⟩,
    fun hgo => ⟨_, rfl, lane_law freeGate p false _ _ _ s g hi (fun _ _ _ => rfl) (fun u th => ?_) hgo⟩,
    fun hgo => ⟨_, rfl, lane_law freeGate p false _ _ _ s g hi (fun _ _ _ => rfl) (fun u th => ?_) hgo⟩⟩
  · rintro ⟨hd, x, y, hx, hy, hfl⟩
    simp only [hx, hy, if_pos hd]
    exact ⟨_, raising_ok th _ _ _ hfl, x, y, rfl, rfl, wrotePreds_putPred g d _ _⟩
  · rintro ⟨hd, x, y, hx, hy, hfl⟩
    simp only [hx, hy, if_pos hd]
    exact ⟨_, raising_ok th _ _ _ hfl, x, y, rfl, rfl, wrotePreds_putPred g d _ _⟩
  · rintro ⟨hd, hnw, x, y, hx, hy, hfl⟩
    have hlegal : d.toNat ≤ 5 ∧ (!nw || decide (d = 0)) = true := by
      refine ⟨hd, ?_⟩
      cases nw with
      | false => rfl
      | true => exact decide_eq_true (hnw rfl)
    simp only [hx, hy, if_pos hlegal, cmph2Fn_eq]
    exact ⟨_, raising_ok th _ _ _ hfl, x, y, rfl, rfl, wrotePreds_two g _ _ _⟩

end Sys2Proof.Machine

/-- Settles O12: the lanes of the three compares, and the table of R140. -/
theorem floatComparisons : Obligations.FloatComparisons :=
  open Sys2Proof.Machine in
  ⟨floatCompareResults, fun fm f a b hf => ⟨fpCompare_truth fm f a b hf, fpCompare_flags fm f a b⟩⟩

/-! Packed 16-bit integers (R131, R132). -/

namespace Sys2Proof.Machine

open Sys2Proof

theorem half_low (x : Word) : half x 0 = halfOfWord x false := by
  change intOfBits 16 true (x.toNat / 2 ^ (16 * 0)) = (x.setWidth 16).toInt
  rw [← intOfBits_signed (by norm_num : 0 < 16), BitVec.toNat_setWidth]
  simp only [intOfBits, Nat.mul_zero, Nat.pow_zero, Nat.div_one, Nat.mod_mod]

theorem half_high (x : Word) : half x 1 = halfOfWord x true := by
  change intOfBits 16 true (x.toNat / 2 ^ (16 * 1)) = (x.extractLsb' 16 16).toInt
  rw [← intOfBits_signed (by norm_num : 0 < 16), BitVec.extractLsb'_toNat, Nat.shiftRight_eq_div_pow]
  simp only [intOfBits, Nat.mul_one, Nat.mod_mod]

/-- Two halves joined modulo 2^16 each (R131). -/
theorem joinInts_eq (lo hi : Int) : joinInts lo hi = halves lo hi := by
  refine BitVec.eq_of_toNat_eq ?_
  have hlo : intBits 16 lo = (BitVec.ofInt 16 lo).toNat := (BitVec.toNat_ofInt lo).symm
  have hhi : intBits 16 hi = (BitVec.ofInt 16 hi).toNat := (BitVec.toNat_ofInt hi).symm
  rw [joinInts, halves, hlo, hhi, BitVec.toNat_ofNat, BitVec.toNat_append, Nat.shiftLeft_eq,
    Nat.mul_comm (BitVec.toNat _), ← Nat.two_pow_add_eq_or_of_lt (BitVec.ofInt 16 lo).isLt]
  have := (BitVec.ofInt 16 lo).isLt
  have := (BitVec.ofInt 16 hi).isLt
  omega

theorem sat16_eq (v : Int) : sat16 v = clamp16 v := rfl

/-- A packed instruction whose operation on the halves is the form's (R131). -/
theorem formHolds_vop {i : Instr} {p : BitVec 3} {d a b : BitVec 6} {nw : Bool} {op rule : Int → Int → Int}
    (hexec : ∀ s, exec i s = .next (vop d a b nw p op s)) (hop : ∀ x y, op x y = rule x y) :
    FormHolds ⟨i, p, d, nw, intOf2 a b fun x y =>
      halves (rule (halfOfWord x false) (halfOfWord y false)) (rule (halfOfWord x true) (halfOfWord y true))⟩ := by
  refine formHolds_of_alu _ hexec fun k th v hv hd => ?_
  dsimp only at hv
  obtain ⟨x, y, hx, hy, rfl⟩ := intOf2_eq_some hv
  simp only [hx, hy, hop, if_pos hd, half_low, half_high, joinInts_eq]

theorem halfForms_hold (d a b : BitVec 6) (nw : Bool) (p : BitVec 3) : ∀ f ∈ halfForms d a b nw p, FormHolds f := by
  have hmax (x y : Int) : (if x < y then y else x) = if y ≤ x then x else y := by simp only [← Int.not_le, ite_not]
  have hmin (x y : Int) : (if y < x then y else x) = if x ≤ y then x else y := by simp only [← Int.not_le, ite_not]
  simp only [halfForms, List.forall_mem_cons]
  exact ⟨formHolds_vop (rule := fun x y => x + y) (fun _ => rfl) fun _ _ => rfl, formHolds_vop (rule := fun x y => x - y) (fun _ => rfl) fun _ _ => rfl,
    formHolds_vop (rule := fun x y => clamp16 (x + y)) (fun _ => rfl) fun _ _ => sat16_eq _,
    formHolds_vop (rule := fun x y => clamp16 (x - y)) (fun _ => rfl) fun _ _ => sat16_eq _,
    formHolds_vop (rule := fun x y => if y ≤ x then x else y) (fun _ => rfl) hmax,
    formHolds_vop (rule := fun x y => if x ≤ y then x else y) (fun _ => rfl) hmin, by simp⟩

/-- The decisions of a butterfly, the second above the first (R132). -/
theorem decisions_eq (c0 c1 : Prop) [Decidable c0] [Decidable c1] (surv : Word) :
    surv <<< 2 ||| BitVec.ofNat 32 ((decide c1).toNat * 2 + (decide c0).toNat) =
      surv <<< 2 ||| (if c1 then 2 else 0) ||| (if c0 then 1 else 0) := by
  rw [BitVec.or_assoc]
  by_cases h0 : c0 <;> by_cases h1 : c1 <;> simp [h0, h1]

theorem acsResult : AcsResult := by
  intro d a b nw p s g hi hgo
  refine ⟨_, rfl, lane_law freeGate p true _ (fun th => (srcReg th a).isSome = true ∧ (srcReg th b).isSome = true ∧ dstReg th d nw = true)
    _ s g hi (fun _ _ _ => rfl) (fun u th => ?_) hgo⟩
  rintro ⟨hx, hy, hd⟩
  obtain ⟨x, hx⟩ := Option.isSome_iff_exists.mp hx
  obtain ⟨y, hy⟩ := Option.isSome_iff_exists.mp hy
  simp only [hx, hy, if_pos hd, acsButterfly, half_low, half_high, joinInts_eq, sat16_eq, decisions_eq]
  exact ⟨_, rfl, x, y, rfl, rfl, wroteReg_putReg g d nw _ _⟩

end Sys2Proof.Machine

/-- Settles O10: the halves and their joining are the model's, and each operation is the form's. -/
theorem packedIntegerResults : Obligations.PackedIntegerResults := ⟨Sys2Proof.Machine.halfForms_hold, Sys2Proof.Machine.acsResult⟩

/-! Moves, uniform values and the tangent instructions (R143, R147, R149, R150). -/

namespace Sys2Proof.Machine

open Sys2Proof

/-- `MOV` passes a register whole (R143). -/
theorem formHolds_mov (d a : BitVec 6) (nw : Bool) (p : BitVec 3) : FormHolds ⟨.mov d a nw p, p, d, nw, fun th => srcReg th a⟩ := by
  refine formHolds_of_alu _ (fun _ => rfl) fun k th v hv hd => ?_
  simp only [show srcReg th a = some v from hv, if_pos hd]

/-- `LDK.w` has no source (R143). -/
theorem formHolds_ldkW (d a : BitVec 6) (nw : Bool) (p : BitVec 3) :
    FormHolds ⟨.ldkW d a nw p, p, d, nw, fun th => some ⟨uniform th a.toNat, []⟩⟩ := by
  refine formHolds_of_alu _ (fun _ => rfl) fun k th v hv hd => ?_
  obtain rfl := Option.some.inj hv
  exact if_pos hd

/-- `DCLASS` writes a register from a pair (R127). -/
theorem formHolds_dclass (d a : BitVec 6) (nw : Bool) (p : BitVec 3) : FormHolds ⟨.dclass d a nw p, p, d, nw, fun th =>
    (srcPair th a).map fun x => ⟨BitVec.ofNat 32 (fpClass b64 (valOfPair th x).bits), []⟩⟩ := by
  refine formHolds_of_alu _ (fun _ => rfl) fun k th v hv hd => ?_
  obtain ⟨x, hx, rfl⟩ := Option.map_eq_some_iff.mp hv
  simp only [hx, if_pos hd]

/-- A form that needs a declared slot has a value where its slot is declared and its source is legal. -/
theorem slotForm_eq_some {α β : Type} {c : Prop} [Decidable c] {x : Option α} {f : α → β} {v : β} (h : (if c then x.map f else none) = some v) :
    c ∧ ∃ y, x = some y ∧ v = f y := by
  split at h
  · next hc =>
    obtain ⟨y, hy, rfl⟩ := Option.map_eq_some_iff.mp h
    exact ⟨hc, y, hy, rfl⟩
  · cases h

/-- `TSEED` puts the unit tangent into a declared slot (R147). -/
theorem formHolds_tseed (d a : BitVec 6) (k : BitVec 3) (nw : Bool) (p : BitVec 3) : FormHolds ⟨.tseed d a false k nw p, p, d, nw, fun th =>
    if k.toNat < th.lc.tcount then
      (srcReg th a).map fun x => ⟨x.val, slotsOf th fun i => if i = k.toNat then (if th.lc.t16 then 0x3C00 else 0x3F800000) else 0⟩
    else none⟩ := by
  refine formHolds_of_alu _ (fun _ => rfl) fun l th v hv hd => ?_
  obtain ⟨hk, x, hx, rfl⟩ := slotForm_eq_some hv
  simp only [hx, if_neg (Nat.not_le.mpr hk), if_pos hd, Bool.false_eq_true, if_false]
  rfl

/-- `TGET` reads a declared slot (R147). -/
theorem formHolds_tget (d a : BitVec 6) (k : BitVec 3) (nw : Bool) (p : BitVec 3) : FormHolds ⟨.tget d a k nw p, p, d, nw, fun th =>
    if k.toNat < th.lc.tcount then
      (srcReg th a).map fun x => ⟨if th.lc.t16 then x.slot k.toNat &&& 0xFFFF else x.slot k.toNat, []⟩
    else none⟩ := by
  refine formHolds_of_alu _ (fun _ => rfl) fun l th v hv hd => ?_
  obtain ⟨hk, x, hx, rfl⟩ := slotForm_eq_some hv
  simp only [hx]
  exact if_pos ⟨hk, hd⟩

/-- `TSET` writes a declared slot of the old value of its destination (R147). -/
theorem formHolds_tset (d a : BitVec 6) (k : BitVec 3) (nw : Bool) (p : BitVec 3) : FormHolds ⟨.tset d a k nw p, p, d, nw, fun th =>
    if k.toNat < th.lc.tcount then
      (srcReg th a).map fun x => ⟨(readReg th d.toNat).val, slotsOf th fun i =>
        if i = k.toNat then (if th.lc.t16 then x.val &&& 0xFFFF else x.val) else (readReg th d.toNat).slot i⟩
    else none⟩ := by
  refine formHolds_of_alu _ (fun _ => rfl) fun l th v hv hd => ?_
  obtain ⟨hk, x, hx, rfl⟩ := slotForm_eq_some hv
  simp only [hx]
  exact if_pos ⟨hk, hd⟩

/-- `TMOV` joins the old primal of its destination and its source's slots (R147). -/
theorem formHolds_tmov (d a : BitVec 6) (nw : Bool) (p : BitVec 3) : FormHolds ⟨.tmov d a false nw p, p, d, nw, fun th =>
    (srcReg th a).map fun x => ⟨(readReg th d.toNat).val, x.tan⟩⟩ := by
  refine formHolds_of_alu _ (fun _ => rfl) fun l th v hv hd => ?_
  obtain ⟨x, hx, rfl⟩ := Option.map_eq_some_iff.mp hv
  simp only [hx, if_pos hd, Bool.false_eq_true, if_false]

/-- Every form of the table holds. -/
theorem moveForms_hold (d a : BitVec 6) (nw : Bool) (p : BitVec 3) (k : BitVec 3) : ∀ f ∈ moveForms d a nw p k, FormHolds f := by
  simp only [moveForms, List.forall_mem_cons]
  exact ⟨formHolds_mov d a nw p, formHolds_ldkW d a nw p, formHolds_dclass d a nw p, formHolds_tseed d a k nw p, formHolds_tget d a k nw p,
    formHolds_tset d a k nw p, formHolds_int2 (op := id) (rule := fun x => x) (fun _ => rfl) fun _ => rfl, formHolds_tmov d a nw p, by simp⟩

/-- `LDK.d` has no source, and reads an even word (R143, R45). -/
theorem pairFormHolds_ldkD (d a : BitVec 6) (nw : Bool) (p : BitVec 3) : PairFormHolds ⟨.ldkD d a nw p, p, d, nw, fun th =>
    if a.toNat % 2 = 0 then some (⟨uniform th a.toNat, []⟩, ⟨uniform th (a.toNat + 1), []⟩) else none⟩ := by
  refine pairFormHolds_of_alu _ (fun _ => rfl) fun k th v hv hd => ?_
  dsimp only at hv
  split at hv
  · next heven =>
    obtain rfl := Option.some.inj hv
    exact if_pos ((Bool.and_eq_true _ _).mpr ⟨hd, decide_eq_true heven⟩)
  · cases hv

/-- `TSEED` on a pair (R147, R74). -/
theorem pairFormHolds_tseed (d a : BitVec 6) (k : BitVec 3) (nw : Bool) (p : BitVec 3) : PairFormHolds ⟨.tseed d a true k nw p, p, d, nw, fun th =>
    if k.toNat < th.lc.tcount then
      (srcPair th a).map fun x => pairOf th ⟨(bitsOf x).toNat,
        (List.range th.lc.tcount).map fun i => if i = k.toNat then (if th.lc.t16 then 0x3F800000 else 0x3FF0000000000000) else 0⟩
    else none⟩ := by
  refine pairFormHolds_of_alu _ (fun _ => rfl) fun l th v hv hd => ?_
  obtain ⟨hk, x, hx, rfl⟩ := slotForm_eq_some hv
  simp only [hx, if_neg (Nat.not_le.mpr hk), if_pos hd, if_true]
  rfl

/-- `TMOV` on a pair: with nw set the destination is code 0, which has no second register (R147, R42). -/
theorem pairFormHolds_tmov (d a : BitVec 6) (nw : Bool) (p : BitVec 3) : PairFormHolds ⟨.tmov d a true nw p, p, d, nw, fun th =>
    (srcPair th a).map fun x => (⟨(readReg th d.toNat).val, x.1.tan⟩, ⟨if nw then 0 else (readReg th (d.toNat + 1)).val, x.2.tan⟩)⟩ := by
  refine pairFormHolds_of_alu _ (fun _ => rfl) fun l th v hv hd => ?_
  obtain ⟨x, hx, rfl⟩ := Option.map_eq_some_iff.mp hv
  simp only [hx, if_pos hd, if_true]

/-- `FOOT` needs the slots SX and SY (R149). -/
theorem pairFormHolds_foot (d a : BitVec 6) (nw : Bool) (p : BitVec 3) : PairFormHolds ⟨.foot d a nw p, p, d, nw, fun th =>
    match srcPair th a, declaredSlot th 1, declaredSlot th 2 with
    | some x, some kx, some ky =>
      let r := footprint (tanFmt th) (slotBits th x.1 kx) (slotBits th x.2 kx) (slotBits th x.1 ky) (slotBits th x.2 ky)
      some (⟨BitVec.ofNat 32 r.1, []⟩, ⟨BitVec.ofNat 32 r.2, []⟩)
    | _, _, _ => none⟩ := by
  refine pairFormHolds_of_alu _ (fun _ => rfl) fun l th v hv hd => ?_
  dsimp only at hv
  split at hv
  · next x kx ky hx hkx hky =>
    obtain rfl := Option.some.inj hv
    simp only [hx, show slotOf th 1 = some kx from hkx, show slotOf th 2 = some ky from hky, if_pos hd]
  · cases hv

/-- `MOTV` needs the slot TIME (R150). -/
theorem pairFormHolds_motv (d a : BitVec 6) (nw : Bool) (p : BitVec 3) : PairFormHolds ⟨.motv d a nw p, p, d, nw, fun th =>
    match srcPair th a, declaredSlot th 3 with
    | some x, some j =>
      let v (y : Dexel) : Dexel :=
        ⟨BitVec.ofNat 32 (if th.lc.t16 then (fpConvert b16 b32 .rne (slotBits th y j)).bits else slotBits th y j), []⟩
      some (v x.1, v x.2)
    | _, _ => none⟩ := by
  refine pairFormHolds_of_alu _ (fun _ => rfl) fun l th v hv hd => ?_
  dsimp only at hv
  split at hv
  · next x j hx hj =>
    obtain rfl := Option.some.inj hv
    simp only [hx, show slotOf th 3 = some j from hj, if_pos hd]
  · cases hv

/-- Every form of the table of pairs holds. -/
theorem movePairForms_hold (d a : BitVec 6) (nw : Bool) (p : BitVec 3) (k : BitVec 3) : ∀ f ∈ movePairForms d a nw p k, PairFormHolds f := by
  simp only [movePairForms, List.forall_mem_cons]
  exact ⟨pairFormHolds_ldkD d a nw p, pairFormHolds_tseed d a k nw p,
    pairFormHolds_wide2 (op := id) (rule := fun x => x) (fun _ => rfl) fun _ => rfl,
    pairFormHolds_tmov d a nw p, pairFormHolds_foot d a nw p, pairFormHolds_motv d a nw p, by simp⟩

end Sys2Proof.Machine

/-- Settles O11: every move and tangent instruction of the two tables computes its form's value. -/
theorem moveResults : Obligations.MoveResults := ⟨Sys2Proof.Machine.moveForms_hold, Sys2Proof.Machine.movePairForms_hold⟩

/-! Special registers (R57, R61-R68, R143-R145, R189): each table lists what the model reads, and each write is the model's. -/

namespace Sys2Proof.Machine

open Sys2Proof

/-- The model's special registers of 64 bits are those of R144 and R189. -/
theorem srWide_iff (b : BitVec 6) : srWide b.toNat = true ↔ b.toNat ∈ wideSpecials := by
  revert b
  decide

/-- `TLATV` gathers the four validity and the four width bits (R57). -/
theorem tlatvOf_eq (r : TrapRec) : tlatvOf r =
    let v (b : Bool) (k : Nat) : Nat := if b then 2 ^ k else 0
    BitVec.ofNat 32 (v r.lats.l0.valid 0 + v r.lats.l1.valid 1 + v r.lats.l2.valid 2 + v r.lats.l3.valid 3
      + v r.lats.l0.wide 4 + v r.lats.l1.wide 5 + v r.lats.l2.wide 6 + v r.lats.l3.wide 7) := by
  have hbit (b : Bool) (k : Nat) : b.toNat * 2 ^ k = if b then 2 ^ k else 0 := by cases b <;> simp
  simp only [tlatvOf, hbit]
  rfl

/-- A trap record's registers stand in the order of `readRec`, from the table's number on. -/
theorem mem_recordTable (n : Nat) (r : TrapRec) : ∀ e ∈ recordTable n r, ∃ i, i < 12 ∧ e = (n + i, readRec r i) := by
  have hlatv := tlatvOf_eq r
  dsimp only at hlatv
  simp only [recordTable, ← hlatv, List.forall_mem_cons]
  exact ⟨⟨0, by decide, rfl⟩, ⟨1, by decide, rfl⟩, ⟨2, by decide, rfl⟩, ⟨3, by decide, rfl⟩, ⟨4, by decide, rfl⟩, ⟨5, by decide, rfl⟩,
    ⟨6, by decide, rfl⟩, ⟨7, by decide, rfl⟩, ⟨8, by decide, rfl⟩, ⟨9, by decide, rfl⟩, ⟨10, by decide, rfl⟩, ⟨11, by decide, rfl⟩, by simp⟩

/-- The counter of depth k stands k places from the outermost loop, which stands last (R68). -/
theorem readLc_eq (th : Thread) (k : Nat) : readLc th k = loopCounter th k := by
  unfold readLc loopCounter
  by_cases hk : k < th.loops.length
  · rw [if_pos hk, List.getElem?_reverse hk, List.getD_eq_getElem?_getD, List.getElem?_eq_getElem (by omega)]
    rfl
  · rw [if_neg hk, List.getElem?_eq_none (by rw [List.length_reverse]; omega)]
    rfl

theorem tcntOf_eq (th : Thread) : tcntOf th = BitVec.ofNat 32 (th.lc.tcount + (if th.lc.t16 then 16 else 0) + 256 * th.lc.ndecl) := by
  unfold tcntOf
  congr 1
  cases th.lc.t16 <;> simp <;> omega

/-- The numbers of a trap record's registers in force are 26 to 37 (R144). -/
theorem readSr_record (s : State) (u : Nat) (th : Thread) {i : Nat} (hi : i < 12) :
    readSr s u th (26 + i) = some (readRec (recordInForce th) i) := by
  interval_cases i <;> rfl

/-- `SRD` reads what the table of R144 lists. -/
theorem readSr_of_mem (s : State) (u : Nat) (th : Thread) : ∀ e ∈ specialTable s u th, e.1 < 40 ∧ readSr s u th e.1 = some e.2 := by
  have hrecord : ∀ e ∈ recordTable 26 (recordInForce th), e.1 < 40 ∧ readSr s u th e.1 = some e.2 := by
    intro e he
    obtain ⟨i, hi, rfl⟩ := mem_recordTable _ _ e he
    exact ⟨by change 26 + i < 40; omega, readSr_record s u th hi⟩
  have hcount : readSr s u th 17 = some (w32 (BitVec.ofNat 32 (th.lc.tcount + (if th.lc.t16 then 16 else 0) + 256 * th.lc.ndecl))) := by
    rw [← tcntOf_eq]
    rfl
  have hcluster : readSr s u th 11 = some (w32 (BitVec.ofNat 32 (u / 32768 % 12))) := by
    change some (w32 (BitVec.ofNat 32 (u / 1024 / 32 % 12))) = _
    rw [Nat.div_div_eq_div_mul]
  have hdie : readSr s u th 12 = some (w32 (BitVec.ofNat 32 (u / 393216))) := by
    change some (w32 (BitVec.ofNat 32 (u / 1024 / 384))) = _
    rw [Nat.div_div_eq_div_mul]
  have hloop (k : Nat) (hk : k < 3) : readSr s u th (20 + k) = some (w32 (loopCounter th k)) := by
    rw [← readLc_eq]
    interval_cases k <;> rfl
  unfold specialTable
  dsimp only
  simp only [List.forall_mem_append, List.forall_mem_cons]
  exact ⟨⟨⟨by decide, rfl⟩, ⟨by decide, rfl⟩, ⟨by decide, rfl⟩, ⟨by decide, rfl⟩, ⟨by decide, rfl⟩, ⟨by decide, rfl⟩,
    ⟨by decide, rfl⟩, ⟨by decide, rfl⟩, ⟨by decide, rfl⟩, ⟨by decide, rfl⟩, ⟨by decide, rfl⟩, ⟨by decide, hcluster⟩,
    ⟨by decide, hdie⟩, ⟨by decide, rfl⟩, ⟨by decide, rfl⟩, ⟨by decide, rfl⟩, ⟨by decide, rfl⟩,
    ⟨by decide, hcount⟩, ⟨by decide, rfl⟩, ⟨by decide, rfl⟩, ⟨by decide, hloop 0 (by decide)⟩, ⟨by decide, hloop 1 (by decide)⟩,
    ⟨by decide, hloop 2 (by decide)⟩, ⟨by decide, rfl⟩, ⟨by decide, rfl⟩, ⟨by decide, rfl⟩, by simp⟩, hrecord⟩

/-- A number below 40 is read by `SRDP` as by `SRD`. -/
theorem readSrp_of_lt {s : State} {u : Nat} {th : Thread} {n : Nat} (hn : n < 40) : readSrp s u th n = readSr s u th n := by
  unfold readSrp
  rw [if_neg (by omega), if_neg (by omega), if_neg (by omega), if_neg (by omega), if_neg (by omega), if_neg (by omega)]

/-- `SRDP` reads what the tables of R144 and R189 list. -/
theorem readSrp_of_mem (s : State) (u : Nat) (th : Thread) :
    ∀ e ∈ specialTable s u th ++ privilegedTable th, readSrp s u th e.1 = some e.2 := by
  simp only [List.forall_mem_append, privilegedTable, List.forall_mem_cons]
  refine ⟨fun e he => ?_, ⟨⟨rfl, rfl, by simp⟩, fun e he => ?_⟩, rfl, rfl, rfl, by simp⟩
  · obtain ⟨hlt, hread⟩ := readSr_of_mem s u th e he
    rw [readSrp_of_lt hlt, hread]
  · obtain ⟨i, hi, rfl⟩ := mem_recordTable _ _ e he
    interval_cases i <;> rfl

/-- The end of a read: a register or pair by the special register's width (R62). -/
theorem putSr_ok (g : Group) (th : Thread) {d b : BitVec 6} {nw : Bool} (v : Dexel × Dexel)
    (hd : (if b.toNat ∈ wideSpecials then dstPair th d nw else dstReg th d nw) = true) :
    ∃ th1, putSr th g.latch d nw (srWide b.toNat) v = .ok th1 ∧
      if b.toNat ∈ wideSpecials then WrotePair g d nw v th (advance g th1) else WroteReg g d nw v.1 th (advance g th1) := by
  simp only [putSr, srWide_iff]
  split_ifs at hd ⊢
  · exact ⟨_, rfl, wrotePair_putPair g d nw v th⟩
  · exact ⟨_, rfl, wroteReg_putReg g d nw v.1 th⟩

/-- The law of a read of special registers that reads what a table lists. -/
theorem specialRead_law (gate : Gate) (p : BitVec 3) (d b : BitVec 6) (nw : Bool) (read : State → Nat → Thread → Nat → Option (Dexel × Dexel))
    (table : Nat → Thread → List (Nat × (Dexel × Dexel))) (s : State) (g : Group) (hi : Issues s g)
    (hpure : ∀ T, read (withThreads s T) = read s) (hread : ∀ u th, ∀ e ∈ table u th, read s u th e.1 = some e.2)
    (hgo : LanesAt s g p fun u th => LaneFree g gate th ∧ (getK (table u th) b.toNat).isSome = true ∧
      (if b.toNat ∈ wideSpecials then dstPair th d nw else dstReg th d nw) = true) :
    GroupResult s (runThreads gate p false (fun g s t th =>
        match read s t th b.toNat with
        | some x => putSr th g.latch d nw (srWide b.toNat) x
        | none => .error .operand) s) g fun u => LaneAfter g p fun th th' =>
      ∃ v, getK (table u th) b.toNat = some v ∧ if b.toNat ∈ wideSpecials then WrotePair g d nw v th th' else WroteReg g d nw v.1 th th' := by
  refine laneAt_law gate p false _ _ _ s g hi (fun T u th => by simp only [hpure]) (fun u th => ?_) hgo
  rintro ⟨hv, hd⟩
  obtain ⟨v, hv⟩ := Option.isSome_iff_exists.mp hv
  obtain ⟨th1, hput, hwrote⟩ := putSr_ok g th v hd
  simp only [hread u th _ (mem_of_getK _ _ _ hv)]
  exact ⟨th1, hput, v, hv, hwrote⟩

theorem specialRegisterReads : SpecialRegisterReads := by
  intro d b nw p s g hi
  simp only [List.forall_mem_cons]
  exact ⟨fun hgo => ⟨_, rfl, specialRead_law _ p d b nw readSr (specialTable s) s g hi (fun _ => rfl)
      (fun u th e he => (readSr_of_mem s u th e he).2) hgo⟩,
    fun hgo => ⟨_, rfl, specialRead_law _ p d b nw readSrp _ s g hi (fun _ => rfl) (readSrp_of_mem s) hgo⟩, by simp⟩

/-- A trap record's write is the table's (R57). -/
theorem recordWritten_eq (r : TrapRec) {k : Nat} (hk : k < 12) (x : Dexel × Dexel) : recordWritten r k x = writeRec r k x := by
  obtain hlow | rfl | hhigh : k < 7 ∨ k = 7 ∨ 7 < k := by omega
  · interval_cases k <;> rfl
  · change (if x.1.val.toNat < 256 then _ else none) = if x.1.val.toNat ≥ 256 then none else some (setTlatv r x.1.val)
    by_cases hv : x.1.val.toNat < 256
    · rw [if_pos hv, if_neg (by omega)]
      rfl
    · rw [if_neg hv, if_pos (by omega)]
  · interval_cases k <;> rfl

/-- A counter written changes the loop of its depth, where one is open (R68, R145). -/
theorem loopsWritten_eq (ls : List Loop) (k : Nat) (w : Word) : loopsWritten ls k w =
    if k < ls.length then ls.modify (ls.length - 1 - k) fun l => { l with lc := w } else ls := by
  refine List.ext_getElem (by unfold loopsWritten; split <;> simp) fun i h1 h2 => ?_
  have hi : i < ls.length := by simpa [loopsWritten] using h1
  have hback : ls.length - 1 - (ls.length - 1 - i) = i := by omega
  simp only [loopsWritten, List.getElem_reverse, List.getElem_map, List.getElem_zipIdx, List.length_map, List.length_zipIdx,
    List.length_reverse, hback]
  by_cases hk : k < ls.length
  · simp only [if_pos hk, List.getElem_modify]
    refine if_congr (by omega) rfl rfl
  · simp only [if_neg hk]
    exact if_neg (by omega)

theorem writeLc_eq (th : Thread) (k : Nat) (w : Word) : writeLc th k w = { th with loops := loopsWritten th.loops k w } := by
  rw [writeLc, loopsWritten_eq]
  split <;> rfl

/-- A record's write that the rules allow is the model's. -/
theorem writeRec_of_recordWritten {α : Type} {r : TrapRec} {k : Nat} {x : Dexel × Dexel} {f : TrapRec → α} {y : α} (hk : k < 12)
    (h : (recordWritten r k x).map f = some y) : ∃ r', writeRec r k x = some r' ∧ y = f r' := by
  obtain ⟨r', hr, rfl⟩ := Option.map_eq_some_iff.mp h
  exact ⟨r', by rw [← recordWritten_eq r hk, hr], rfl⟩

/-- A write of the record in force, at a level that has one (R61). -/
theorem writeSr_record {th : Thread} {n : Nat} {x : Dexel × Dexel} {r : TrapRec} (hn : 26 ≤ n ∧ n ≤ 37) (hlevel : th.level ≠ 0)
    (hr : writeRec (currentRec th) (n - 26) x = some r) : writeSr th n x = .ok (setCurrentRec th r) := by
  unfold writeSr
  dsimp only
  rw [if_neg (by omega), if_neg (by omega), if_neg (by omega), if_neg (by omega), if_neg (by omega), if_neg (by omega), if_neg (by omega),
    if_pos hn, if_neg hlevel, hr]

theorem writeSr_rec1 {th : Thread} {n : Nat} {x : Dexel × Dexel} {r : TrapRec} (hn : 26 ≤ n ∧ n ≤ 37) (hlevel : th.level = 1)
    (hr : writeRec th.rec1 (n - 26) x = some r) : writeSr th n x = .ok { th with rec1 := r } := by
  have hcur : currentRec th = th.rec1 := if_pos hlevel
  rw [writeSr_record hn (by omega) (by rw [hcur, hr]), setCurrentRec, if_pos hlevel]

theorem writeSr_rec2 {th : Thread} {n : Nat} {x : Dexel × Dexel} {r : TrapRec} (hn : 26 ≤ n ∧ n ≤ 37) (hlevel : th.level = 2)
    (hr : writeRec th.rec2 (n - 26) x = some r) : writeSr th n x = .ok { th with rec2 := r } := by
  have h1 : ¬ th.level = 1 := by omega
  have hcur : currentRec th = th.rec2 := (if_neg h1).trans (if_pos hlevel)
  rw [writeSr_record hn (by omega) (by rw [hcur, hr]), setCurrentRec, if_neg h1, if_pos hlevel]

/-- A write of a loop's counter (R145). -/
theorem writeSr_loop (th : Thread) {n : Nat} (x : Dexel × Dexel) (hn : n = 20 ∨ n = 21 ∨ n = 22) :
    writeSr th n x = .ok { th with loops := loopsWritten th.loops (n - 20) x.1.val } := by
  rw [← writeLc_eq]
  rcases hn with rfl | rfl | rfl <;> rfl

/-- What `SWR` writes where the rules allow it is what the model writes, whatever latch is dropped first (R61, R64, R65, R67). -/
theorem writeSr_of_specialWritten {th y : Thread} {n : Nat} {x : Dexel × Dexel} (h : specialWritten th n x = some y) (k : Nat) :
    writeSr (dropLatch th k) n x = .ok (dropLatch y k) := by
  unfold specialWritten at h
  dsimp only at h
  -- `FCR`
  obtain ⟨rfl, hy⟩ | ⟨-, h⟩ := ite_eq_iff.mp h
  · obtain ⟨hv, hy⟩ := Option.ite_none_right_eq_some.mp hy
    obtain rfl := Option.some.inj hy
    exact if_neg (by omega)
  -- `FSR`
  obtain ⟨rfl, hy⟩ | ⟨-, h⟩ := ite_eq_iff.mp h
  · obtain ⟨hv, hy⟩ := Option.ite_none_right_eq_some.mp hy
    obtain rfl := Option.some.inj hy
    exact if_neg (by omega)
  -- `SP`
  obtain ⟨rfl, hy⟩ | ⟨-, h⟩ := ite_eq_iff.mp h
  · obtain ⟨⟨haligned, hlimit⟩, hy⟩ := Option.ite_none_right_eq_some.mp hy
    obtain rfl := Option.some.inj hy
    exact (if_neg (not_not.mpr haligned)).trans (if_neg (Nat.not_lt.mpr hlimit))
  -- `SLIM`
  obtain ⟨rfl, hy⟩ | ⟨-, h⟩ := ite_eq_iff.mp h
  · obtain ⟨hlevel, hy⟩ := Option.ite_none_left_eq_some.mp hy
    obtain rfl := Option.some.inj hy
    exact if_neg hlevel
  -- the loop counters
  obtain ⟨hloop, hy⟩ | ⟨-, h⟩ := ite_eq_iff.mp h
  · obtain rfl := Option.some.inj hy
    exact writeSr_loop (dropLatch th k) x hloop
  -- `SURV`
  obtain ⟨rfl, hy⟩ | ⟨-, h⟩ := ite_eq_iff.mp h
  · obtain rfl := Option.some.inj hy
    rfl
  -- `THANDLER`
  obtain ⟨rfl, hy⟩ | ⟨-, h⟩ := ite_eq_iff.mp h
  · obtain rfl := Option.some.inj hy
    rfl
  -- the record of level 1
  obtain ⟨⟨hlow, hhigh, hlevel⟩, hy⟩ | ⟨-, h⟩ := ite_eq_iff.mp h
  · obtain ⟨r, hr, rfl⟩ := writeRec_of_recordWritten (by omega) hy
    exact writeSr_rec1 (th := dropLatch th k) ⟨hlow, hhigh⟩ hlevel hr
  -- the record of level 2
  obtain ⟨⟨hlow, hhigh, hlevel⟩, h⟩ := Option.ite_none_right_eq_some.mp h
  obtain ⟨r, hr, rfl⟩ := writeRec_of_recordWritten (by omega) h
  exact writeSr_rec2 (th := dropLatch th k) ⟨hlow, hhigh⟩ hlevel hr

/-- What `SWRP` writes where the rules allow it is what the model writes (R189). -/
theorem writeSrp_of_privilegedWritten {th y : Thread} {n : Nat} {x : Dexel × Dexel} (h : privilegedWritten th n x = some y) (k : Nat) :
    writeSrp (dropLatch th k) n x = .ok (dropLatch y k) := by
  unfold privilegedWritten at h
  unfold writeSrp
  split_ifs at h ⊢ with h40 hrec h54 h55
  · cases h; rfl
  · obtain ⟨r, hr, rfl⟩ := writeRec_of_recordWritten (by omega) h
    rw [show writeRec (dropLatch th k).rec1 (n - 42) x = some r from hr]
    rfl
  · cases h; rfl
  · cases h; rfl
  · exact writeSr_of_specialWritten h k

/-- The source of a write: a register or pair by the special register's width (R62). -/
theorem srcSr_eq (th : Thread) (a b : BitVec 6) : srcSr th a (srWide b.toNat) = specialSource th a b.toNat := by
  simp only [srcSr, srWide_iff, specialSource]

/-- The law of a write of special registers that writes what a table allows. -/
theorem specialWrite_law (gate : Gate) (p : BitVec 3) (a b : BitVec 6) (write : Thread → Nat → Dexel × Dexel → Except Trap Thread)
    (written : Thread → Nat → Dexel × Dexel → Option Thread) (s : State) (g : Group) (hi : Issues s g)
    (hwrite : ∀ {th y : Thread} {n : Nat} {x : Dexel × Dexel}, written th n x = some y → ∀ k, write (dropLatch th k) n x = .ok (dropLatch y k))
    (hgo : Lanes s g p fun th => LaneFree g gate th ∧ ∃ x, specialSource th a b.toNat = some x ∧ (written th b.toNat x).isSome = true) :
    GroupResult s (runThreads gate p true (fun g _ _ th =>
        match srcSr th a (srWide b.toNat) with
        | some x => write (dropLatch th g.latch) b.toNat x
        | none => .error .operand) s) g fun _ => LaneAfter g p fun th th' =>
      ∃ x y, specialSource th a b.toNat = some x ∧ written th b.toNat x = some y ∧ Skipped g y th' := by
  refine lane_law gate p true _ _ _ s g hi (fun _ _ _ => rfl) (fun u th => ?_) hgo
  rintro ⟨x, hx, hy⟩
  obtain ⟨y, hy⟩ := Option.isSome_iff_exists.mp hy
  simp only [srcSr_eq, hx]
  exact ⟨_, hwrite hy g.latch, x, y, rfl, hy, skipped_lane g y⟩

theorem specialRegisterWrites : SpecialRegisterWrites := by
  intro a b nw p s g hi
  simp only [List.forall_mem_cons]
  exact ⟨fun hgo => ⟨_, rfl, specialWrite_law _ p a b writeSr specialWritten s g hi writeSr_of_specialWritten hgo⟩,
    fun hgo => ⟨_, rfl, specialWrite_law _ p a b writeSrp privilegedWritten s g hi writeSrp_of_privilegedWritten hgo⟩, by simp⟩

end Sys2Proof.Machine

/-- Settles O13: what the tables list is what the model reads, and what they allow is what it writes. -/
theorem specialRegisterAccess : Obligations.SpecialRegisterAccess :=
  ⟨Sys2Proof.Machine.specialRegisterReads, Sys2Proof.Machine.specialRegisterWrites⟩

/-! Submission words (R392, R429): what the Hive's translation of a word leads to, and the record that the word names. -/

namespace Sys2Proof.Machine

open Sys2Proof

theorem Kept.checks {s t : State} (h : Kept s t) : t.checks = s.checks := by
  obtain ⟨-, _, _, _, _, _, _, _, _, _, _, _, _, rfl⟩ := h
  rfl

/-- A counter of the event area raised, where it can be reached (R373). -/
theorem countDropped_kept (s : State) (key a : Nat) :
    Kept s (if reachable s a 8 then (arrive s key 0 a (toBytes 8 (readNum s key a 8 + 1))).1 else s) := by
  split
  · exact arrive_kept _ _ _ _ _
  · exact Kept.refl s

/-- An event is a write at its home and a signal to the host (R373, R394). -/
theorem writeEvent_kept (s : State) (kind die asid code addr : Nat) :
    ∃ t m, Kept s t ∧ writeEvent s kind die asid code addr = { t with msix := m } := by
  have quiet {t : State} (h : Kept s t) : ∃ t' m, Kept s t' ∧ t = { t' with msix := m } := ⟨t, t.msix, h, rfl⟩
  unfold writeEvent
  generalize (bar0 s 0x70).toNat = buf
  generalize keyOf s 0 = key
  dsimp only
  split
  · exact quiet (Kept.refl s)
  · split
    · exact quiet (countDropped_kept s key (buf + 8))
    · have counted := arrive_kept s key 0 (buf + 4) (toBytes 4 (readNum s key (buf + 4) 4 + 1))
      split
      · exact quiet (counted.trans (countDropped_kept _ key (buf + 8)))
      · exact ⟨_, _, (counted.trans (arrive_kept _ _ _ _ _)).trans (arrive_kept _ _ _ _ _), rfl⟩

theorem writeEvent_checks (s : State) (kind die asid code addr : Nat) : (writeEvent s kind die asid code addr).checks = s.checks := by
  obtain ⟨t, m, h, e⟩ := writeEvent_kept s kind die asid code addr
  rw [e]
  exact h.checks

/-- A device fault raised leaves the checks of records that wait (R344). -/
theorem raiseFault_checks {s t : State} {die asid va : Nat} {p : Perm} {src unit : Nat} {who : Requester}
    (h : raiseFault s die asid va p src unit who = some t) : t.checks = s.checks := by
  unfold raiseFault at h
  dsimp only at h
  split at h
  · obtain rfl := Option.some.inj h
    exact (arrive_kept _ _ _ _ _).checks
  · split at h
    · exact absurd h nofun
    · obtain rfl := Option.some.inj h
      rw [writeEvent_checks]
      exact (arrive_kept _ _ _ _ _).checks

/-- The machine with a submission word taken out of the words that are due. -/
def wordTaken (s : State) (asid word : Nat) : State :=
  { s with subFired := s.subFired.filter fun x => x != (asid, word) && x != (asid, word + 64) }

/-- The Hive's translation of a submission word that is due. -/
def wordXlat (s : State) (asid word : Nat) : State × Xlat :=
  translate (wordTaken s asid word) (hiveUnits (word % 4)) asid (wordVa s asid word) .atomic

/-- The translation of a word changes nothing that its processing reads of the machine but the TLBs (R341). -/
theorem wordXlat_only (s : State) (asid word : Nat) : ∃ l w f, (wordXlat s asid word).1 = { s with tlb := l, power := w, subFired := f } := by
  obtain ⟨l, w, h⟩ := translate_only (wordTaken s asid word) (hiveUnits (word % 4)) asid (wordVa s asid word) .atomic
  exact ⟨l, w, _, h⟩

theorem leaveUnwatched_wordXlat (s : State) (asid word : Nat) :
    leaveUnwatched (wordXlat s asid word).1 asid word = writeEvent (wordXlat s asid word).1 1 (word % 4) asid 6 (wordVa s asid word) := by
  obtain ⟨l, w, f, h⟩ := wordXlat_only s asid word
  rw [h]
  rfl

theorem keyOf_wordXlat (s : State) (asid word a : Nat) : keyOf (wordXlat s asid word).1 a = keyOf s a := by
  obtain ⟨l, w, f, h⟩ := wordXlat_only s asid word
  rw [h]
  rfl

theorem span_wordXlat (s : State) (asid word : Nat) : (wordXlat s asid word).1.span = s.span := by
  obtain ⟨l, w, f, h⟩ := wordXlat_only s asid word
  rw [h]

/-- A word that is not due, or none of the 64, is left alone. -/
theorem execSubmissionWordFire_idle {s : State} {asid word : Nat}
    (h : 64 ≤ word ∨ ((asid, word) ∉ s.subFired ∧ (asid, word + 64) ∉ s.subFired)) : execSubmissionWordFire asid word s = .next s := by
  unfold execSubmissionWordFire
  dsimp only
  rw [if_pos (by simpa using h)]

/-- Whether a walk of the tables has come to a leaf (R342). -/
def WalkOut.leaf : WalkOut → Bool
  | .page .. => true
  | _ => false

section
variable {s : State} {asid word : Nat}

/-- What a word that is due comes to, by the answer of its translation (R392). -/
theorem word_due (hw : word < 64) (hdue : (asid, word) ∈ s.subFired ∨ (asid, word + 64) ∈ s.subFired) :
    ¬ (word ≥ 64 ∨ (!(s.subFired.contains (asid, word) || s.subFired.contains (asid, word + 64))) = true) := by
  simp only [ge_iff_le, Nat.not_le.mpr hw, false_or, Bool.not_eq_true', Bool.not_eq_false, Bool.or_eq_true, List.contains_iff_mem]
  exact hdue

variable (hw : word < 64) (hdue : (asid, word) ∈ s.subFired ∨ (asid, word + 64) ∈ s.subFired)
include hw hdue

/-- A word whose translation meets a fatal fault is left unwatched (R392). -/
theorem execSubmissionWordFire_fatal {c : Nat} (h : (wordXlat s asid word).2 = .fatal c) :
    execSubmissionWordFire asid word s = .next (leaveUnwatched (wordXlat s asid word).1 asid word) := by
  unfold execSubmissionWordFire
  unfold wordXlat wordTaken at h ⊢
  simp only [if_neg (word_due hw hdue), h]

/-- A word whose leaf forbids the access is left unwatched (R392). -/
theorem execSubmissionWordFire_forbidden (h : (wordXlat s asid word).2 = .fault) (hleaf : (walk s asid (wordVa s asid word)).leaf = true) :
    execSubmissionWordFire asid word s = .next (leaveUnwatched (wordXlat s asid word).1 asid word) := by
  unfold execSubmissionWordFire
  unfold wordXlat wordTaken at h ⊢
  cases hwalk : walk s asid (wordVa s asid word) with
  | page => simp only [if_neg (word_due hw hdue), h, hwalk]
  | missing => rw [hwalk] at hleaf; exact absurd hleaf nofun
  | access => rw [hwalk] at hleaf; exact absurd hleaf nofun

/-- A word without a leaf waits for the driver, or is due again where no fault record is free (R344, R392). -/
theorem execSubmissionWordFire_missing (h : (wordXlat s asid word).2 = .fault) (hleaf : (walk s asid (wordVa s asid word)).leaf = false) :
    execSubmissionWordFire asid word s = .next ((raiseFault (wordXlat s asid word).1 (word % 4) asid (wordVa s asid word) .atomic 7 0xFFFF
      (.hive 0 (asid * 128 + word + if (asid, word) ∈ s.subFired then 0 else 64))).getD s) := by
  unfold execSubmissionWordFire
  unfold wordXlat wordTaken at h ⊢
  cases hwalk : walk s asid (wordVa s asid word) with
  | page => rw [hwalk] at hleaf; exact absurd hleaf nofun
  | missing | access =>
    simp only [if_neg (word_due hw hdue), h, hwalk, List.contains_iff_mem]
    generalize raiseFault _ _ _ _ _ _ _ _ = o
    cases o <;> rfl

/-- A poisoned word is left unwatched (R392, R384). -/
theorem execSubmissionWordFire_poisoned {e : TlbEntry} (h : (wordXlat s asid word).2 = .ok e)
    (hp : poisoned (wordXlat s asid word).1 (paOf e (wordVa s asid word)) = true) :
    execSubmissionWordFire asid word s = .next (leaveUnwatched (wordXlat s asid word).1 asid word) := by
  unfold execSubmissionWordFire
  unfold wordXlat wordTaken at h hp ⊢
  simp only [if_neg (word_due hw hdue), h, if_pos hp]

end

/-- The record that a word names, found poor, is refused with an event (R324, R392). -/
theorem runCheck_refused {s r : State} {c : Check} {answered : Bool} {code : Nat}
    (h : checkRecord s c.die c.asid c.va (if c.succ then 1 else 4) answered = (r, .refused code)) :
    runCheck s c answered = writeEvent { r with checks := r.checks.filter (· != c) } 1 c.die c.asid code c.va := by
  unfold runCheck
  rw [h]
  rfl

theorem getNode_makeReady {s : State} {node : Nat} {n : Node} (h : getNode s node = some n) (die tick : Nat) :
    ∃ pooled, getNode (makeReady s node die tick) node = some { n with phase := 1, die := die, ready := tick, pooled := pooled } := by
  unfold makeReady
  exact ⟨_, by rw [getNode_modNode, if_pos rfl, h]; rfl⟩

/-- A record found good is a node under a fresh number, ready where it has no predecessor (R326, R392). -/
theorem settleCheck_accepted (s : State) {c : Check} (hsucc : c.succ = false) (n : Node) (pred : Nat) :
    (∃ pooled, getNode (settleCheck s c (.accepted n pred)) (s.seqno + 1) =
      some (if pred = 0 then { n with phase := 1, die := c.die, ready := c.at', pooled := pooled } else n)) ∧
      (settleCheck s c (.accepted n pred)).subWatch = s.subWatch := by
  have fresh : getNode (addNode s n).1 (s.seqno + 1) = some n := getK_putK_same _ _ _
  unfold settleCheck
  by_cases hp : pred = 0
  · simp only [hp, or_true, if_true]
    exact ⟨getNode_makeReady fresh _ _, modNode_subWatch _ _ _⟩
  · simp only [hsucc, hp, Bool.false_eq_true, or_self, if_false]
    exact ⟨⟨true, fresh⟩, rfl⟩

/-- The record that a word names, found good (R326, R392). -/
theorem runCheck_accepted {s r : State} {c : Check} {answered : Bool} {n : Node} {pred : Nat} (hsucc : c.succ = false)
    (h : checkRecord s c.die c.asid c.va (if c.succ then 1 else 4) answered = (r, .accepted n pred)) :
    (∃ pooled, getNode (runCheck s c answered) (r.seqno + 1) =
      some (if pred = 0 then { n with phase := 1, die := c.die, ready := c.at', pooled := pooled } else n)) ∧
      (runCheck s c answered).subWatch = r.subWatch := by
  unfold runCheck
  rw [h]
  exact settleCheck_accepted { r with checks := r.checks.filter (· != c) } hsucc n pred

/-- The record that a word names, not reached yet, waits for the driver (R429). -/
theorem runCheck_missing {s r : State} {c : Check} {answered : Bool} {va : Nat} {p : Perm}
    (h : checkRecord s c.die c.asid c.va (if c.succ then 1 else 4) answered = (r, .missing va p)) : c ∈ (runCheck s c answered).checks := by
  have waits : c ∈ (if r.checks.contains c then r.checks else r.checks ++ [c]) := by
    split
    · next hc => simpa using hc
    · simp
  unfold runCheck
  rw [h]
  dsimp only
  generalize hs : ({ r with checks := if r.checks.contains c then r.checks else r.checks ++ [c] } : State) = s2
  have hs2 : c ∈ s2.checks := by rw [← hs]; exact waits
  cases hf : raiseFault s2 c.die c.asid va p 7 0xFFFF (.hive 1 c.id) with
  | none => exact hs2
  | some t => rw [Option.getD_some, raiseFault_checks hf]; exact hs2

theorem getNode_armWord (s : State) (asid word pa n : Nat) : getNode (armWord s asid word pa) n = getNode s n := rfl

theorem armWord_subWatch (s : State) (asid word pa : Nat) :
    (armWord s asid word pa).subWatch = s.subWatch ++ [(asid, word, lineOf pa)] := rfl

theorem armWord_checks (s : State) (asid word pa : Nat) : (armWord s asid word pa).checks = s.checks := rfl

/-- A word that holds no record's address is armed again (R392). -/
theorem takeWord_zero {s : State} {asid word pa : Nat} (h : readNum s (keyOf s asid) pa 8 = 0) : takeWord s asid word pa = armWord s asid word pa := by
  unfold takeWord
  rw [if_pos h]

/-- A word that holds a record's address is zeroed, its record checked, and armed again (R392). -/
theorem takeWord_record {s m : State} {asid word pa : Nat} (h : readNum s (keyOf s asid) pa 8 ≠ 0)
    (hm : (arrive s (keyOf s asid) 0 pa (List.replicate 8 0)).1 = m) :
    takeWord s asid word pa =
      armWord (runCheck { m with seqno := m.seqno + 1 } ⟨m.seqno, word % 4, asid, readNum s (keyOf s asid) pa 8, s.span, false⟩ false) asid word pa := by
  have hspan : m.span = s.span := by rw [← hm]; exact (arrive_kept _ _ _ _ _).span
  have zeros : toBytes 8 0 = List.replicate 8 0 := by decide
  unfold takeWord
  dsimp only
  rw [if_neg h, zeros, hm, hspan]

section
variable {s : State} {asid word : Nat} (hw : word < 64) (hdue : (asid, word) ∈ s.subFired ∨ (asid, word + 64) ∈ s.subFired) {e : TlbEntry}
  (h : (wordXlat s asid word).2 = .ok e) (hp : poisoned (wordXlat s asid word).1 (paOf e (wordVa s asid word)) = false)
include hw hdue h hp

/-- A word that can be read is taken where it has fired, else armed (R392). -/
theorem execSubmissionWordFire_read : execSubmissionWordFire asid word s = .next (if (asid, word) ∈ s.subFired
    then takeWord (wordXlat s asid word).1 asid word (paOf e (wordVa s asid word))
    else armWord (wordXlat s asid word).1 asid word (paOf e (wordVa s asid word))) := by
  unfold execSubmissionWordFire
  unfold wordXlat wordTaken at h hp ⊢
  simp only [if_neg (word_due hw hdue), h, hp, List.contains_iff_mem, Bool.false_eq_true, if_false]

/-- A word that has not fired, or holds no record's address, is armed (R392). -/
theorem execSubmissionWordFire_arms
    (hv : (asid, word) ∉ s.subFired ∨ readNum (wordXlat s asid word).1 (keyOf s asid) (paOf e (wordVa s asid word)) 8 = 0) :
    execSubmissionWordFire asid word s = .next (armWord (wordXlat s asid word).1 asid word (paOf e (wordVa s asid word))) := by
  rw [execSubmissionWordFire_read hw hdue h hp]
  by_cases hfired : (asid, word) ∈ s.subFired
  · rw [if_pos hfired, takeWord_zero (by rw [keyOf_wordXlat]; exact hv.resolve_left (not_not_intro hfired))]
  · rw [if_neg hfired]

/-- A word that has fired and holds a record's address is zeroed, and its record checked (R392). -/
theorem execSubmissionWordFire_record (hfired : (asid, word) ∈ s.subFired)
    (hv : readNum (wordXlat s asid word).1 (keyOf s asid) (paOf e (wordVa s asid word)) 8 ≠ 0) {m : State}
    (hm : (arrive (wordXlat s asid word).1 (keyOf s asid) 0 (paOf e (wordVa s asid word)) (List.replicate 8 0)).1 = m) :
    execSubmissionWordFire asid word s = .next (armWord (runCheck { m with seqno := m.seqno + 1 }
      ⟨m.seqno, word % 4, asid, readNum (wordXlat s asid word).1 (keyOf s asid) (paOf e (wordVa s asid word)) 8, s.span, false⟩ false)
      asid word (paOf e (wordVa s asid word))) := by
  rw [← keyOf_wordXlat s asid word] at hv hm
  rw [execSubmissionWordFire_read hw hdue h hp, if_pos hfired, takeWord_record hv hm, keyOf_wordXlat, span_wordXlat]

end

end Sys2Proof.Machine

/-! The driver's answers to device faults (R345): the record is free, and its one requester learns the answer. -/

namespace Sys2Proof.Machine

open Sys2Proof

/-- The machine with a record freed and its page's translations forgotten (R345). -/
def recordFreed (s : State) (k : Nat) (f : FaultRec) : State :=
  { s with
    faults := delK s.faults k
    tlb := s.tlb.filter fun e => !(e.asid == f.asid && decide (e.va < f.page * 4096 + 4096) && decide (f.page * 4096 < e.va + e.size)) }

/-- The cause that the driver's answer declares fatal, if it does (R345). -/
def fatalOf (resp : Nat) : Option Nat := if resp = 1 then none else if resp = 3 then some 0x0A else some 0x09

theorem fatalOf_ne_one {resp : Nat} (h : resp ≠ 1) : fatalOf resp = some (if resp = 3 then 0x0A else 0x09) := by
  unfold fatalOf
  rw [if_neg h]
  split <;> rfl

/-- Without a pending record or an answer nothing happens (R345). -/
theorem execFaultResponse_idle {s : State} {die index : Nat}
    (h : getK s.faults (die * 1024 + index) = none ∨ respOf s die index = 0 ∨ 1024 ≤ index) : execFaultResponse die index s = .next s := by
  unfold execFaultResponse
  cases hf : getK s.faults (die * 1024 + index) with
  | none => rfl
  | some f =>
    rw [hf] at h
    exact congrArg _ (if_pos (h.resolve_left nofun))

/-- An answer frees the record and goes to each of its requesters in turn (R345). -/
theorem execFaultResponse_answers {s : State} {die index : Nat} {f : FaultRec} (hf : getK s.faults (die * 1024 + index) = some f)
    (hresp : respOf s die index ≠ 0) (hindex : index < 1024) : execFaultResponse die index s =
      .next (f.reqs.foldl (answerOne f.page (fatalOf (respOf s die index))) (recordFreed s (die * 1024 + index) f)) := by
  unfold execFaultResponse
  rw [hf]
  exact congrArg _ (if_neg (by omega))

theorem setHead_queueSet {s : State} {core cls : Nat} {e : QEntry} {q : List QEntry} (hq : getQueue s core cls = e :: q) (x : QEntry) :
    QueueSet s s (setHead s core cls x) core cls (x :: q) := by
  unfold setHead putQueue
  rw [hq]
  exact ⟨fun k => getK_putK _ _ _ _, rfl⟩

/-- An engine that waits at its head learns whether it may go on (R247, R279). -/
theorem answerEngine_queueSet {s : State} {core cls : Nat} {e : QEntry} {q : List QEntry} (hq : getQueue s core cls = e :: q) (hphase : e.phase = 2)
    (resp : Nat) : QueueSet s s (answerEngine s core cls (fatalOf resp)) core cls
      ({ e with phase := if resp = 1 then 1 else if resp = 3 then 4 else 3 } :: q) := by
  unfold answerEngine
  simp only [hq, hphase, if_true]
  by_cases h1 : resp = 1
  · subst h1
    exact setHead_queueSet hq _
  · rw [fatalOf_ne_one h1]
    by_cases h3 : resp = 3
    · subst h3
      exact setHead_queueSet hq _
    · simp only [h1, h3, if_false]
      exact setHead_queueSet hq _

/-- A thread that waited for its clause stands at its boundary again, with the answer where it is fatal (R182, R345). -/
theorem wakeFetch_stands {s : State} {u : Nat} {th : Thread} (hth : getThread s u = some th) (hstatus : th.status = .fetchWait)
    (hgroup : groupOf s u = none) (answer : Option (Nat × Nat)) (v : Nat) :
    getThread (wakeFetch s u answer) v = (getThread s v).map fun th => if v = u then
      { th with status := .ready, since := s.span, answers := th.answers ++ answer.toList } else th := by
  unfold wakeFetch
  rw [getThread_modThread]
  by_cases hv : v = u
  · subst hv
    simp [hth, hstatus, hgroup, standing]
  · simp [hv]

theorem wakeFetch_answered {s : State} {u : Nat} {th : Thread} (hth : getThread s u = some th) (hstatus : th.status = .fetchWait)
    (hgroup : groupOf s u = none) (page resp v : Nat) :
    getThread (wakeFetch s u ((fatalOf resp).map fun c => (page, c))) v = (getThread s v).map fun th => if v = u then
      { th with
        status := .ready, since := s.span
        answers := if resp = 1 then th.answers else th.answers ++ [(page, if resp = 3 then 0x0A else 0x09)] } else th := by
  rw [wakeFetch_stands hth hstatus hgroup]
  by_cases h1 : resp = 1
  · subst h1
    simp [fatalOf]
  · simp [fatalOf_ne_one h1, h1]

theorem modThread_eq (s : State) (u : Nat) (f : Thread → Thread) : modThread s u f = { s with threads := (modThread s u f).threads } := by
  unfold modThread
  split <;> rfl

/-- A node of the Hive learns a fatal answer, and nothing from another (R325-R327, R345). -/
theorem answerHive_node_none (s : State) {kind : Nat} (h2 : 2 ≤ kind) (h4 : kind ≤ 4) (node page : Nat) : answerHive s kind node page none = s := by
  have kinds : kind = 2 ∨ kind = 3 ∨ kind = 4 := by omega
  rcases kinds with rfl | rfl | rfl <;> rfl

theorem answerHive_node_some (s : State) {kind : Nat} (h2 : 2 ≤ kind) (h4 : kind ≤ 4) (node page c : Nat) :
    answerHive s kind node page (some c) = modNode s node fun n => { n with answer := c } := by
  have kinds : kind = 2 ∨ kind = 3 ∨ kind = 4 := by omega
  rcases kinds with rfl | rfl | rfl <;> rfl

theorem answerHive_nodeSet (s : State) {kind : Nat} (h2 : 2 ≤ kind) (h4 : kind ≤ 4) (node page resp : Nat) :
    NodeSet s (answerHive s kind node page (fatalOf resp)) node fun n =>
      { n with answer := if resp = 1 then n.answer else if resp = 3 then 0x0A else 0x09 } := by
  by_cases h1 : resp = 1
  · subst h1
    rw [show fatalOf 1 = none from rfl, answerHive_node_none s h2 h4]
    exact ⟨fun n => by simp, rfl⟩
  · rw [fatalOf_ne_one h1, answerHive_node_some s h2 h4]
    simp only [h1, if_false]
    exact ⟨fun n => getK_modNode _ _ _ _, modNode_eq _ _ _⟩

/-- A submission word that waited for the driver is due again, or left unwatched (R392, R345). -/
theorem answerHive_word (s : State) (item page resp : Nat) : answerHive s 0 item page (fatalOf resp) =
    if resp = 1 then { s with subFired := s.subFired ++ [(item / 128, item % 128)] }
    else writeEvent s 1 (item % 64 % 4) (item / 128) 6 (wordVa s (item / 128) (item % 64)) := by
  by_cases h1 : resp = 1
  · subst h1
    rfl
  · rw [fatalOf_ne_one h1, if_neg h1]
    rfl

/-- Without loads in flight a Cocoon rolled back is its lane at the faulted instruction (R212). -/
theorem getThread_rollCocoon {s : State} {u : Nat} {th : Thread} {c : Cocoon} (hth : getThread s u = some th) (hc : th.cocoon = some c)
    (hacc : ∀ a ∈ s.access, a.thread ≠ u) :
    getThread (rollCocoon s u) u = some (unwound th c s.span) ∧ (rollCocoon s u).span = s.span := by
  have hload : s.access.filter (fun a => a.thread == u && (a.kind == .load || a.kind == .atom)) = [] := by
    rw [List.filter_eq_nil_iff]
    intro a ha
    simp [hacc a ha]
  have hreturn : returnLoads s u = s := by
    unfold returnLoads
    rw [hload]
    rfl
  unfold rollCocoon
  simp only [hreturn, hth, hc]
  exact ⟨getThread_setThread_same _ _ _, rfl⟩

/-- A lane whose fault is fatal stands at the faulted instruction and traps there (R212, R183). -/
theorem getThread_failCocoon {s : State} {u : Nat} {th th' : Thread} {c : Cocoon} {code : Nat} {val : DWord} (hth : getThread s u = some th)
    (hc : th.cocoon = some c) (hacc : ∀ a ∈ s.access, a.thread ≠ u)
    (henter : enterLevel (unwound th c s.span) (trapInfoAt (c.group (threadCore u) u) (unwound th c s.span) code val) = some th') :
    getThread (failCocoon s u code val) u = some { th' with status := .ready, since := s.span } := by
  obtain ⟨hroll, hspan⟩ := getThread_rollCocoon hth hc hacc
  have hdrop : getThread (dropEmpty (rollCocoon s u)) u = some (unwound th c s.span) := hroll
  have hsince : (dropEmpty (rollCocoon s u)).span = s.span := hspan
  unfold failCocoon
  simp only [hth, Option.bind_some, hc, hdrop]
  have moved := (takeTrap_moved (dropEmpty (rollCocoon s u)) u _ _ _ henter).1.thread
  rw [moved, standing, hsince]

/-- A lane that ran ahead and whose replay is performed goes on as any other (R211). -/
theorem replayCocoon_done {s r : State} {u : Nat} {th : Thread} {c : Cocoon} (hth : getThread s u = some th) (hc : th.cocoon = some c)
    (hr : performMem (setThread s u { decDc th c.req.dc s.span with cocoon := none }) u { decDc th c.req.dc s.span with cocoon := none } c.req = .done r) :
    replayCocoon s u = stopAhead r u := by
  unfold replayCocoon
  simp only [hth, hc, hr]

/-- A lane that ran ahead stands at its access again and traps where the fault is fatal (R212). -/
theorem answerOne_cocoon_fatal {s : State} {u : Nat} {th : Thread} {c : Cocoon} (hth : getThread s u = some th) (hc : th.cocoon = some c)
    (page code : Nat) : answerOne page (some code) s (.cocoon u) = failCocoon s u code (BitVec.ofNat 64 c.va) := by
  unfold answerOne
  simp only [hth, Option.bind_some, hc, Option.map_some, Option.getD_some]

end Sys2Proof.Machine

/-! Core dumps (R382, R383): what the end of a node leaves of the halted cores, and the area that holds the dump. -/

namespace Sys2Proof.Machine

open Sys2Proof

/-- The cores that have halted and the dies whose dump is aborted. -/
def haltList (s : State) : List Nat × List Nat := (s.halted, s.dumpAborts)

theorem haltList_endCohort (s : State) (c : Nat) : haltList (endCohort s c) = haltList s := by
  unfold endCohort
  dsimp only
  generalize hs1 : (List.foldl noteBlocked _ _ : State) = s2
  obtain ⟨T, D, e⟩ := blocked_fold _ _
  rw [e] at hs1
  have hs2 : haltList s2 = haltList s := by rw [← hs1]; rfl
  split
  · exact hs2
  · unfold haltList
    rw [modCohort_halted, modCohort_dumpAborts]
    exact hs2

/-- The end of a node halts no core and aborts no dump (R382). -/
theorem haltList_endNode (s : State) (node code : Nat) : haltList (endNode s node code) = haltList s := by
  have cohorts (l : List Nat) (s : State) : haltList (l.foldl endCohort s) = haltList s := by
    induction l generalizing s with
    | nil => rfl
    | cons c l ih => rw [List.foldl_cons, ih, haltList_endCohort]
  have hfail : haltList (failNode s node code) = haltList s := by
    unfold failNode haltList
    rw [modNode_halted, modNode_dumpAborts]
  unfold endNode
  dsimp only
  rw [← hfail, ← cohorts _ (failNode s node code)]
  unfold haltList
  rw [modNode_halted, modNode_dumpAborts]

/-- Numbers put into a list that does not hold them. -/
theorem mem_foldl_insertNew (l h : List Nat) (c : Nat) : c ∈ l.foldl (fun h c => if h.contains c then h else h ++ [c]) h ↔ c ∈ h ∨ c ∈ l := by
  induction l generalizing h with
  | nil => simp
  | cons a l ih =>
    rw [List.foldl_cons, ih]
    by_cases ha : a ∈ h
    · rw [if_pos (List.contains_iff_mem.mpr ha), List.mem_cons]
      constructor
      · tauto
      · rintro (hc | rfl | hc)
        · exact .inl hc
        · exact .inl ha
        · exact .inr hc
    · rw [if_neg (by simpa using ha), List.mem_append, List.mem_singleton, List.mem_cons, or_assoc]

/-- The cores of a die (R9). -/
theorem mem_dieCores (die c : Nat) : c ∈ (List.range 384).map (die * 384 + ·) ↔ c / 384 = die := by
  simp only [List.mem_map, List.mem_range]
  constructor
  · rintro ⟨i, hi, rfl⟩
    omega
  · rintro rfl
    exact ⟨c % 384, Nat.mod_lt _ (by decide), by omega⟩

theorem length_toBytes (n v : Nat) : (toBytes n v).length = n := by
  induction n generalizing v with
  | zero => rfl
  | succ n ih => rw [toBytes, List.length_cons, ih]

theorem length_dumpHeader (d : Dump) : (dumpHeader d).length = 96 := by
  simp [dumpHeader, length_toBytes]

/-- A dump holds its header (R382). -/
theorem le_dumpBytes (s : State) (d : Dump) : 96 ≤ dumpBytes s d := by
  unfold dumpBytes
  dsimp only
  omega

section
variable {s : State} {die : Nat} {d : Dump}

/-- Without a dump due, or while one is aborted, nothing happens (R383). -/
theorem execCoreDump_idle (h : (∀ d ∈ s.dumps, d.die ≠ die) ∨ die ∈ s.dumpAborts) : execCoreDump die s = .next s := by
  unfold execCoreDump
  cases hd : s.dumps.find? fun d => d.die == die with
  | none => rfl
  | some d =>
    have hdie : d.die = die := by simpa using List.find?_some hd
    have habort : die ∈ s.dumpAborts := h.resolve_left fun h => h d (List.mem_of_find?_eq_some hd) hdie
    exact congrArg _ (if_pos (List.contains_iff_mem.mpr habort))

variable (hd : s.dumps.find? (fun d => d.die == die) = some d) (habort : die ∉ s.dumpAborts)
include hd habort

/-- Without an area a dump ends its node (R382, log 31). -/
theorem execCoreDump_arealess (hbase : dieReg s die 0x30 = 0) :
    execCoreDump die s = .next (endNode { s with dumps := s.dumps.filter (· != d) } (dumpNode s d) (0x200 + d.cause % 256)) := by
  unfold execCoreDump
  rw [hd]
  dsimp only
  rw [if_neg (by simpa using habort), if_pos hbase]

/-- A dump whose area cannot be written ends its node, and the die halts (R383). -/
theorem execCoreDump_bad (hbase : dieReg s die 0x30 ≠ 0) {o : Nat} (hbad : dumpBad s (dieReg s die 0x30) (dumpBytes s d) = some o) :
    ∃ h, (∀ c, c ∈ h ↔ c ∈ s.halted ∨ c / 384 = die) ∧
      execCoreDump die s = .next (writeEvent { endNode { s with dumps := s.dumps.filter (· != d) } (dumpNode s d) (0x200 + d.cause % 256) with
        halted := h, dumpAborts := s.dumpAborts ++ [die] } 6 die d.asid 0xDAB o) := by
  unfold execCoreDump
  rw [hd]
  dsimp only
  rw [if_neg (by simpa using habort), if_neg hbase, hbad]
  obtain ⟨hhalted, haborts⟩ := Prod.mk.inj (haltList_endNode { s with dumps := s.dumps.filter (· != d) } (dumpNode s d) (0x200 + d.cause % 256))
  dsimp only at hhalted haborts ⊢
  rw [hhalted, haborts]
  exact ⟨_, fun c => (mem_foldl_insertNew _ _ c).trans (or_congr_right (mem_dieCores die c)), rfl⟩

/-- A dump written in its area begins with its header, and its node ends (R382, log 50). -/
theorem execCoreDump_written (hbase : dieReg s die 0x30 ≠ 0) (hgood : dumpBad s (dieReg s die 0x30) (dumpBytes s d) = none) :
    ∃ bs c rest m, bs.length = dumpBytes s d ∧ bs = dumpHeader d ++ rest ∧
      (arrive { s with dumps := s.dumps.filter (· != d) } (keyOf s 0) 0 (dieReg s die 0x30) bs).1 = m ∧
      execCoreDump die s = .next (writeEvent (endNode { m with seqno := m.seqno + 2 } (dumpNode s d) (0x200 + d.cause % 256)) 5 die d.asid c 0) := by
  unfold execCoreDump
  rw [hd]
  dsimp only
  rw [if_neg (by simpa using habort), if_neg hbase, hgood]
  refine ⟨_, _, _, _, ?_, rfl, rfl, rfl⟩
  have := le_dumpBytes s d
  simp only [List.length_append, List.length_drop, List.length_map, List.length_range, length_dumpHeader]
  omega

end

end Sys2Proof.Machine

/-- Settles O44: a submission word goes as its translation answers, the driver's answer goes to the requester of the record, and a dump goes as
its area can be written. -/
theorem hiveEvents : Obligations.HiveEvents := by
  open Sys2Proof Sys2Proof.Machine in
  refine ⟨fun asid word s => ?_, fun die index s => ?_, fun die s => ?_⟩
  -- submission words (R392, R429)
  · intro go fired toArm die va tr mapped unwatched
    have unwatched_eq : leaveUnwatched (wordXlat s asid word).1 asid word = unwatched := leaveUnwatched_wordXlat s asid word
    refine ⟨execSubmissionWordFire_idle, fun hw hdue => ⟨fun c hc => ?_, fun hf => ⟨fun hm => ?_, fun hm r hr => ?_⟩, fun e he => ?_⟩⟩
    · rw [← unwatched_eq]
      exact execSubmissionWordFire_fatal hw hdue hc
    · rw [← unwatched_eq]
      exact execSubmissionWordFire_forbidden hw hdue hf hm
    · rw [← hr]
      exact execSubmissionWordFire_missing hw hdue hf hm
    · intro pa watched v
      refine ⟨fun hp => ?_, execSubmissionWordFire_arms hw hdue he, fun hp hfired hv => ?_⟩
      · rw [← unwatched_eq]
        exact execSubmissionWordFire_poisoned hw hdue he hp
      · intro m
        have hm : (arrive (wordXlat s asid word).1 (keyOf s asid) 0 (paOf e (wordVa s asid word)) (List.replicate 8 0)).1 = m := rfl
        clear_value m
        intro c r out hcheck
        have hcheck : checkRecord { m with seqno := m.seqno + 1 } c.die c.asid c.va (if c.succ then 1 else 4) false = (r, out) := hcheck
        have hgo : go = .next (armWord (runCheck { m with seqno := m.seqno + 1 } c false) asid word pa) :=
          execSubmissionWordFire_record hw hdue he hp hfired hv hm
        rw [hgo]
        refine ⟨fun code hout => ?_, fun n pred hout => ?_, fun a p hout => ?_⟩
        · subst hout
          rw [runCheck_refused (c := c) hcheck]
          rfl
        · subst hout
          obtain ⟨⟨pooled, hnode⟩, hwatch⟩ := runCheck_accepted (c := c) rfl hcheck
          exact ⟨_, pooled, rfl, (getNode_armWord _ _ _ _ _).trans hnode, by rw [armWord_subWatch, hwatch]⟩
        · subst hout
          have waits := runCheck_missing (c := c) hcheck
          rw [← armWord_checks _ asid word pa] at waits
          exact ⟨_, rfl, waits⟩
  -- the driver's answers (R345, R211, R212)
  · intro go resp fatal
    refine ⟨execFaultResponse_idle, fun f hf hresp hindex => ?_⟩
    intro freed
    have hgo : go = .next (f.reqs.foldl (answerOne f.page (fatalOf resp)) freed) := execFaultResponse_answers hf hresp hindex
    refine ⟨fun hr => ?_, fun core cls e q hr hq hphase => ?_, fun u th hr hth hstatus hgroup => ?_, fun kind node hr h2 h4 => ?_, fun item hr => ?_,
      fun u th c hr hth hc hacc => ⟨fun r h1 hmem => ?_, fun th' h1 henter => ?_⟩⟩
    all_goals rw [hgo, hr]
    · rfl
    · exact ⟨_, rfl, answerEngine_queueSet (s := freed) hq hphase resp⟩
    · exact ⟨_, rfl, modThread_eq _ _ _, wakeFetch_answered (s := freed) hth hstatus hgroup f.page resp⟩
    · exact ⟨_, rfl, answerHive_nodeSet freed h2 h4 node f.page resp⟩
    · rw [List.foldl_cons, List.foldl_nil, answerOne, answerHive_word]
      rfl
    · rw [h1]
      exact congrArg _ (replayCocoon_done (s := freed) hth hc hmem)
    · rw [fatalOf_ne_one h1, List.foldl_cons, List.foldl_nil, answerOne_cocoon_fatal (s := freed) hth hc f.page]
      exact ⟨_, rfl, getThread_failCocoon (s := freed) hth hc hacc henter⟩
  -- core dumps (R382, R383)
  · intro go
    refine ⟨execCoreDump_idle, fun d hd habort => ?_⟩
    intro base taken code
    refine ⟨execCoreDump_arealess hd habort, fun o hbase hbad => execCoreDump_bad hd habort hbase hbad, fun hbase hgood => ?_⟩
    obtain ⟨bs, c, rest, m, hlen, hbs, hm, hgo⟩ := execCoreDump_written hd habort hbase hgood
    refine ⟨bs, c, rest, hlen, hbs, ?_⟩
    rw [← hm] at hgo
    exact hgo

/-! The retirement of slots and cohorts (R194, R196, R238, R284). -/

namespace Sys2Proof.Machine

open Sys2Proof

/-- A map kept at some of its numbers. -/
theorem getK_filterKeys {α : Type} (p : Nat → Bool) (m : Map α) (k : Nat) :
    getK (m.filter fun e => p e.1) k = if p k then getK m k else none := by
  induction m with
  | nil => simp [getK]
  | cons e m ih =>
    obtain ⟨i, x⟩ := e
    by_cases hi : i = k
    · subst hi
      cases hp : p i <;> simp [hp, getK, ih]
    · cases hp : p i <;> simp [hp, getK, hi, ih]

/-- A node marked failed keeps an earlier failure (R190, R238). -/
theorem getK_failNode (s : State) (node code n : Nat) :
    getK (failNode s node code).nodes n = (getK s.nodes n).map fun y => if n = node then { y with failed := some (y.failed.getD code) } else y := by
  have kept (y : Node) : (if y.failed.isSome then y else { y with failed := some code }) = { y with failed := some (y.failed.getD code) } := by
    cases h : y.failed with
    | none => rfl
    | some c =>
      simp only [Option.isSome_some, if_true, Option.getD_some]
      rw [← h]
  unfold failNode
  rw [getK_modNode]
  simp only [kept]

theorem failNode_eq (s : State) (node code : Nat) : failNode s node code = { s with nodes := (failNode s node code).nodes } := modNode_eq _ _ _

theorem modCohort_eq (s : State) (c : Nat) (f : Cohort → Cohort) : modCohort s c f = { s with cohorts := (modCohort s c f).cohorts } := by
  unfold modCohort
  split <;> rfl

theorem getCohort_modCohort_map (s : State) (c m : Nat) (f : Cohort → Cohort) :
    getCohort (modCohort s c f) m = (getCohort s m).map fun y => if m = c then f y else y := by
  rw [getCohort_modCohort]
  by_cases h : m = c
  · simp [h]
  · simp [h]

/-- Without a write-back the rows of a slot are dropped, and nothing else changes (R198). -/
theorem dropRows_unspilled (s : State) (crews : List Nat) : ∃ r, dropRows s crews false = { s with rows := r } := by
  unfold dropRows
  generalize coresOf crews = cores
  induction cores generalizing s with
  | nil => exact ⟨s.rows, rfl⟩
  | cons core cores ih =>
    obtain ⟨r, h⟩ := ih { s with rows := putK s.rows core ((coreRows s core).filter fun r => !crews.contains (core * 16 + r.slot)) }
    exact ⟨r, h⟩

/-- The crews taken off their cores: none of their threads is left. -/
theorem getThread_dropCrews (s : State) (crews : List Nat) (u : Nat) :
    getThread (dropCrews s crews) u = if u / 64 ∈ crews then none else getThread s u := by
  refine (getK_filterKeys (fun u => !crews.contains (threadCrew u)) s.threads u).trans ?_
  by_cases h : u / 64 ∈ crews <;> simp [threadCrew, h, getThread]

theorem getCrew_dropCrews (s : State) (crews : List Nat) (k : Nat) : getCrew (dropCrews s crews) k = if k ∈ crews then none else getCrew s k := by
  refine (getK_filterKeys (fun k => !crews.contains k) s.crews k).trans ?_
  by_cases h : k ∈ crews <;> simp [h, getCrew]

/-- A slot whose crew is dropped and whose lease is gone is empty (R194). -/
theorem slotEmpty_of_dropped {s t : State} {crew : Nat} (hslots : t.slots = delK s.slots crew) (hcrews : t.crews = (dropCrews s [crew]).crews)
    (hthreads : t.threads = (dropCrews s [crew]).threads) : SlotEmpty t crew := by
  refine ⟨by rw [hslots, getK_delK_same], ?_, fun l hl => ?_⟩
  · rw [hcrews]
    exact (getCrew_dropCrews s [crew] crew).trans (if_pos (List.mem_singleton.mpr rfl))
  · unfold getThread
    rw [hthreads]
    exact (getThread_dropCrews s [crew] _).trans (if_pos (List.mem_singleton.mpr (by omega)))

/-- Whether an engine fault of a crew has been reported that no thread has taken (R238). -/
abbrev FaultLeft (s : State) (crew : Nat) : Prop :=
  (∃ x, getCrew s crew = some x ∧ x.faults ≠ []) ∨ ∃ v ∈ s.threads, v.1 / 64 = crew ∧ v.2.reports ≠ []

theorem faultLeft_iff (s : State) (crew : Nat) :
    ((getCrew s crew).any (fun x => !x.faults.isEmpty) || (crewThreads s crew).any fun e => !e.2.reports.isEmpty) = true ↔ FaultLeft s crew := by
  simp only [Bool.or_eq_true, Option.any_eq_true, List.any_eq_true, crewThreads, List.mem_filter, beq_iff_eq, threadCrew,
    Bool.not_eq_true', List.isEmpty_eq_false_iff, FaultLeft, and_assoc]

/-- A slot freed: empty, and its node failed where a fault was left (R194, R238). -/
theorem freeSlot_facts (s : State) (crew node : Nat) :
    SlotEmpty (freeSlot s crew node) crew ∧
    (∀ n, getK (freeSlot s crew node).nodes n = (getK s.nodes n).map fun y =>
      if n = node then { y with failed := if FaultLeft s crew then some (y.failed.getD 0x12) else y.failed } else y) ∧
    (freeSlot s crew node).cohorts = s.cohorts ∧ (freeSlot s crew node).girders = s.girders ∧ (freeSlot s crew node).scarabs = s.scarabs := by
  unfold freeSlot
  dsimp only
  generalize hs1 : (if ((getCrew s crew).any (fun x => !x.faults.isEmpty) || (crewThreads s crew).any fun e => !e.2.reports.isEmpty) = true
    then failNode s node 0x12 else s) = s1
  have e : s1 = { s with nodes := s1.nodes } := by
    rw [← hs1]
    split
    · exact failNode_eq _ _ _
    · rfl
  have hnodes : ∀ n, getK s1.nodes n = (getK s.nodes n).map fun y =>
      if n = node then { y with failed := if FaultLeft s crew then some (y.failed.getD 0x12) else y.failed } else y := by
    intro n
    rw [← hs1, if_congr (faultLeft_iff s crew) rfl rfl]
    by_cases hbad : FaultLeft s crew
    · simp only [hbad, if_true, getK_failNode]
    · simp [hbad]
  obtain ⟨r, hr⟩ := dropRows_unspilled s1 [crew]
  rw [hr, e]
  exact ⟨slotEmpty_of_dropped (s := s) rfl rfl rfl, hnodes, rfl, rfl, rfl⟩

/-- The slots of a cohort whose crews have ended, with nothing left to write back, pass to RETIRING (R194, R284). -/
theorem getSlot_noteCrewEnd {s : State} {c k : Nat} (hcohort : (getSlot s k).cohort = c) (hended : crewEnded s k = true)
    (hregions : ∀ y, getCohort s c = some y → y.regions = []) (m : Nat) :
    getSlot (noteCrewEnd s k) m = if m = k ∧ (getSlot s m).state = 2 then { getSlot s m with state := 3 } else getSlot s m := by
  have hover : crewOver s k = true := hended
  unfold getSlot at hcohort ⊢
  rw [getK_noteCrewEnd]
  cases hm : getK s.slots m with
  | none => simp
  | some e =>
    by_cases hk : m = k
    · subst hk
      rw [hm, Option.getD_some] at hcohort
      simp [hover, hcohort, eq_true hregions]
    · simp [hk]

theorem getSlot_foldl_noteCrewEnd {c : Nat} (l : List Nat) (s : State) (hcohort : ∀ k ∈ l, (getSlot s k).cohort = c ∧ crewEnded s k = true)
    (hregions : ∀ y, getCohort s c = some y → y.regions = []) :
    l.foldl noteCrewEnd s = { s with slots := (l.foldl noteCrewEnd s).slots } ∧
      ∀ m, getSlot (l.foldl noteCrewEnd s) m = if m ∈ l ∧ (getSlot s m).state = 2 then { getSlot s m with state := 3 } else getSlot s m := by
  induction l generalizing s with
  | nil => exact ⟨rfl, fun m => by simp⟩
  | cons k l ih =>
    obtain ⟨⟨hk, hended⟩, hl⟩ := List.forall_mem_cons.mp hcohort
    have hslot := getSlot_noteCrewEnd hk hended hregions
    have hone := noteCrewEnd_eq s k
    rw [List.foldl_cons]
    generalize noteCrewEnd s k = s1 at hslot hone ⊢
    have hnext : ∀ j ∈ l, (getSlot s1 j).cohort = c ∧ crewEnded s1 j = true := by
      intro j hj
      obtain ⟨hjc, hje⟩ := hl j hj
      refine ⟨?_, ?_⟩
      · rw [hslot]
        split <;> exact hjc
      · rw [hone]
        exact hje
    obtain ⟨heq, hslots⟩ := ih s1 hnext (by rw [hone]; exact hregions)
    refine ⟨?_, fun m => ?_⟩
    · refine heq.trans ?_
      generalize (l.foldl noteCrewEnd s1).slots = slots
      rw [hone]
    · rw [hslots, hslot]
      by_cases hm : m = k ∧ (getSlot s m).state = 2
      · obtain ⟨rfl, hstate⟩ := hm
        simp [hstate]
      · by_cases hstate : (getSlot s m).state = 2
        · have hmk : m ≠ k := fun h => hm ⟨h, hstate⟩
          simp [hmk]
        · simp [hstate]

/-- The sticky bits that a cohort's array and pipeline give its node (R242, R298, R327). -/
abbrev stickyOf (s : State) (c : Nat) : Nat :=
  (if ∃ g ∈ s.girders, g.2.owner = some c ∧ g.2.ovf = true then 1 else 0) + (if ∃ g ∈ s.girders, g.2.owner = some c ∧ g.2.unf = true then 2 else 0)
    + (if ∃ g ∈ s.scarabs, g.2.owner = some c ∧ g.2.tg = true then 8 else 0)

/-- A cohort that retires gives its node its sticky bits (R327). -/
theorem getK_retireCohort_nodes (s : State) (c : Nat) (x : Cohort) (n : Nat) :
    getK (retireCohort s c x).nodes n = (getK s.nodes n).map fun y =>
      if n = x.node then { y with sticky := y.sticky ||| stickyOf s c, retired := y.retired + 1 } else y := by
  unfold retireCohort
  dsimp only
  rw [getK_modNode]
  simp only [List.any_filter, List.any_eq_true, Bool.and_eq_true, beq_iff_eq]

/-- A cohort that retires is gone, its array and pipeline free (R196, R242, R298). -/
theorem retireCohort_frees (s : State) (c : Nat) (x : Cohort) :
    (retireCohort s c x).cohorts = delK s.cohorts c ∧ (∀ g ∈ (retireCohort s c x).girders, g.2.owner ≠ some c) ∧
      ∀ g ∈ (retireCohort s c x).scarabs, g.2.owner ≠ some c := by
  unfold retireCohort
  dsimp only
  refine ⟨rfl, fun g hg => ?_, fun g hg => ?_⟩
  · obtain ⟨g0, -, rfl⟩ := List.mem_map.mp hg
    split
    · exact nofun
    · next howner => exact howner
  · simpa using (List.mem_filter.mp hg).2

/-- The last slot of a cohort retires with it: its node learns what fault was left and the sticky bits (R238, R327). -/
theorem getK_retire_last_nodes (s : State) (crew node c : Nat) {x : Cohort} (hnode : x.node = node) (n : Nat) :
    getK (retireCohort (freeSlot s crew node) c x).nodes n = (getK s.nodes n).map fun y => if n = node then
      { y with
        failed := if FaultLeft s crew then some (y.failed.getD 0x12) else y.failed
        sticky := y.sticky ||| stickyOf s c, retired := y.retired + 1 } else y := by
  obtain ⟨-, hnodes, -, hgirders, hscarabs⟩ := freeSlot_facts s crew node
  have hsticky : stickyOf (freeSlot s crew node) c = stickyOf s c := by
    unfold stickyOf
    rw [hgirders, hscarabs]
  rw [getK_retireCohort_nodes, hnodes, Option.map_map, hsticky, hnode]
  congr 1
  funext y
  by_cases hn : n = node
  · simp only [Function.comp_apply, hn, if_true]
  · simp only [Function.comp_apply, hn, if_false]

theorem slotEmpty_retireCohort {s : State} {c : Nat} {x : Cohort} {crew : Nat} (h : SlotEmpty s crew) : SlotEmpty (retireCohort s c x) crew := by
  unfold retireCohort SlotEmpty getThread
  simp only [modNode_slots, modNode_crews, modNode_threads]
  exact h

section
variable {s r : State} {c : Nat} {x : Cohort}

/-- With the regions written back, the slots of a cohort whose threads are over pass to RETIRING (R284). -/
theorem retireRegions_written (hw : writeBackAll s (x.crews.headD 0 / 16) c (x.regions.map (·.1)) = (r, none))
    (hregions : ∀ y, getCohort r c = some y → y.regions = []) (hcrews : ∀ k ∈ x.crews, (getSlot r k).cohort = c ∧ crewEnded r k = true) :
    retireRegions s c x = { r with slots := (retireRegions s c x).slots } ∧ ∀ k, getSlot (retireRegions s c x) k =
      if k ∈ x.crews ∧ (getSlot r k).state = 2 then { getSlot r k with state := 3 } else getSlot r k := by
  have e : retireRegions s c x = x.crews.foldl noteCrewEnd r := by
    unfold retireRegions
    dsimp only
    rw [hw]
  rw [e]
  exact getSlot_foldl_noteCrewEnd x.crews r hcrews hregions

/-- A fault of the write-back that the driver has declared fatal fails the node, and the region is given up (R284). -/
theorem retireRegions_fatal {code : Nat} (hw : writeBackAll s (x.crews.headD 0 / 16) c (x.regions.map (·.1)) = (r, some (.fatal code))) :
    NodeSet r { retireRegions s c x with cohorts := r.cohorts } x.node (fun y => { y with failed := some (y.failed.getD code) }) ∧
      ∀ m, getCohort (retireRegions s c x) m = (getCohort r m).map fun y => if m = c then { y with regions := y.regions.drop 1 } else y := by
  have e : retireRegions s c x = modCohort (failNode r x.node code) c fun x => { x with regions := x.regions.drop 1 } := by
    unfold retireRegions
    dsimp only
    rw [hw]
  rw [e]
  refine ⟨⟨fun n => ?_, ?_⟩, fun m => ?_⟩
  · rw [modCohort_nodes]
    exact getK_failNode _ _ _ _
  · rw [modCohort_nodes, modCohort_eq]
    generalize (modCohort _ _ _).cohorts = cohorts
    rw [failNode_eq]
  · rw [getCohort_modCohort_map, failNode_eq]
    rfl

/-- A page of a region without a translation is offered to the driver (R284). -/
theorem retireRegions_missing {va : Nat} {p : Perm} (hw : writeBackAll s (x.crews.headD 0 / 16) c (x.regions.map (·.1)) = (r, some (.missing va p))) :
    retireRegions s c x = (raiseFault r (coreDie (x.crews.headD 0 / 16)) (((getNode s x.node).map (·.asid)).getD 0) va p 2
      (unitOf (x.crews.headD 0 / 16)) (.hive 5 c)).getD r := by
  unfold retireRegions
  dsimp only
  rw [hw]

end

section
variable {s : State} {core slot : Nat}

/-- A slot that is neither RESIDENT nor RETIRING is left alone (R194). -/
theorem execSlotRetire_idle (h2 : (getSlot s (core * 16 + slot)).state ≠ 2) (h3 : (getSlot s (core * 16 + slot)).state ≠ 3) :
    execSlotRetire core slot s = .next s := by
  unfold execSlotRetire
  dsimp only
  rw [if_neg h2, if_pos h3]

theorem execSlotRetire_resident_orphan (h : (getSlot s (core * 16 + slot)).state = 2)
    (hc : getCohort s (getSlot s (core * 16 + slot)).cohort = none) : execSlotRetire core slot s = .next s := by
  unfold execSlotRetire
  dsimp only
  rw [if_pos h, hc]

theorem execSlotRetire_resident {x : Cohort} (h : (getSlot s (core * 16 + slot)).state = 2)
    (hc : getCohort s (getSlot s (core * 16 + slot)).cohort = some x) :
    execSlotRetire core slot s = .next (if (∀ k ∈ x.crews, crewEnded s k = true ∧ crewQuiet s k = true) ∧
        ¬ ∃ f ∈ s.faults, .hive 5 (getSlot s (core * 16 + slot)).cohort ∈ f.2.reqs
      then retireRegions s (getSlot s (core * 16 + slot)).cohort x else s) := by
  unfold execSlotRetire
  dsimp only
  rw [if_pos h, hc]
  refine congrArg _ ?_
  have waits : (!x.crews.all (crewEnded s) || (!x.crews.all (crewQuiet s) ||
      s.faults.any fun f => f.2.reqs.contains (.hive 5 (getSlot s (core * 16 + slot)).cohort))) = true ↔
      ¬ ((∀ k ∈ x.crews, crewEnded s k = true ∧ crewQuiet s k = true) ∧
        ¬ ∃ f ∈ s.faults, .hive 5 (getSlot s (core * 16 + slot)).cohort ∈ f.2.reqs) := by
    simp only [Bool.or_eq_true, Bool.not_eq_true', ← Bool.not_eq_true, List.all_eq_true, List.any_eq_true, List.contains_iff_mem, forall_and,
      not_and_or, not_not, or_assoc]
  simp only [waits, ite_not]

theorem execSlotRetire_retiring_orphan (h : (getSlot s (core * 16 + slot)).state = 3)
    (hc : getCohort s (getSlot s (core * 16 + slot)).cohort = none) :
    execSlotRetire core slot s = .next (freeSlot s (core * 16 + slot) (getSlot s (core * 16 + slot)).node) := by
  unfold execSlotRetire
  dsimp only
  rw [if_neg (by rw [h]; decide), if_neg (not_not_intro h), hc]

/-- A RETIRING slot becomes FREE once its crew's engines and accesses are over, the last of its cohort only when the cohort's arrays
hold no row (R194, R267); the slot of a saved cohort at once (R214). -/
theorem execSlotRetire_retiring {x : Cohort} (h : (getSlot s (core * 16 + slot)).state = 3)
    (hc : getCohort s (getSlot s (core * 16 + slot)).cohort = some x) :
    execSlotRetire core slot s = .next (
      if x.state = 3 then { dropCrews s [core * 16 + slot] with slots := delK s.slots (core * 16 + slot) }
      else if !crewQuiet s (core * 16 + slot) then s
      else if otherSlots s (getSlot s (core * 16 + slot)).cohort (core * 16 + slot) then
        freeSlot s (core * 16 + slot) (getSlot s (core * 16 + slot)).node
      else if rowsLeft s (getSlot s (core * 16 + slot)).cohort then s
      else retireCohort (freeSlot s (core * 16 + slot) (getSlot s (core * 16 + slot)).node) (getSlot s (core * 16 + slot)).cohort x) := by
  unfold execSlotRetire
  dsimp only
  rw [if_neg (by rw [h]; decide), if_neg (not_not_intro h), hc]

theorem rowsLeft_false {s : State} {c : Nat} (h : ∀ g ∈ s.girders, g.2.owner = some c → g.2.drained = true) : rowsLeft s c = false := by
  simpa [rowsLeft] using h

theorem rowsLeft_iff (s : State) (c : Nat) : rowsLeft s c = true ↔ ∃ g ∈ s.girders, g.2.owner = some c ∧ g.2.drained = false := by
  simp [rowsLeft]

end

end Sys2Proof.Machine

/-! Taking a cohort off its core (R212, R214, R215): what the steps before the save leave of the Hive's records. -/

namespace Sys2Proof.Machine

open Sys2Proof

/-- The Hive's records as they were: each cohort's node and crews, each node's sticky bits, the slots and the arrays. -/
structure LedgerKept (s t : State) : Prop where
  cohorts : ∀ c, (getCohort t c).map (fun x => (x.node, x.crews)) = (getCohort s c).map fun x => (x.node, x.crews)
  nodes : ∀ n, (getNode t n).map (·.sticky) = (getNode s n).map (·.sticky)
  slots : t.slots = s.slots
  girders : t.girders = s.girders

theorem LedgerKept.refl (s : State) : LedgerKept s s := ⟨fun _ => rfl, fun _ => rfl, rfl, rfl⟩

theorem LedgerKept.trans {s t u : State} (h : LedgerKept s t) (h' : LedgerKept t u) : LedgerKept s u :=
  ⟨fun c => (h'.cohorts c).trans (h.cohorts c), fun n => (h'.nodes n).trans (h.nodes n), h'.slots.trans h.slots, h'.girders.trans h.girders⟩

/-- Machines that differ in nothing that the records hold. -/
theorem LedgerKept.of_eq {s t : State} (hcohorts : t.cohorts = s.cohorts) (hnodes : t.nodes = s.nodes) (hslots : t.slots = s.slots)
    (hgirders : t.girders = s.girders) : LedgerKept s t :=
  ⟨fun c => by unfold getCohort; rw [hcohorts], fun n => by unfold getNode; rw [hnodes], hslots, hgirders⟩

theorem LedgerKept.foldl {α : Type} {f : State → α → State} (h : ∀ s a, LedgerKept s (f s a)) (l : List α) (s : State) : LedgerKept s (l.foldl f s) := by
  induction l generalizing s with
  | nil => exact LedgerKept.refl s
  | cons a l ih => exact (h s a).trans (ih _)

/-- A fold that carries more than the machine. -/
theorem LedgerKept.foldl_fst {α β : Type} {f : State × β → α → State × β} (h : ∀ acc a, LedgerKept acc.1 (f acc a).1) (l : List α) (acc : State × β) :
    LedgerKept acc.1 (l.foldl f acc).1 := by
  induction l generalizing acc with
  | nil => exact LedgerKept.refl acc.1
  | cons a l ih => exact (h acc a).trans (ih _)

/-- A node changed but for its sticky bits. -/
theorem LedgerKept.modNode (s : State) (n : Nat) {f : Node → Node} (h : ∀ x, (f x).sticky = x.sticky) : LedgerKept s (modNode s n f) := by
  refine ⟨fun c => ?_, fun m => ?_, modNode_slots _ _ _, modNode_girders _ _ _⟩
  · unfold getCohort
    rw [modNode_cohorts]
  · rw [getNode_modNode]
    by_cases hm : m = n
    · rw [if_pos hm, hm]
      cases getNode s n <;> simp [h]
    · rw [if_neg hm]

/-- A cohort changed but for its node and crews. -/
theorem LedgerKept.modCohort (s : State) (c : Nat) {f : Cohort → Cohort} (h : ∀ x, ((f x).node, (f x).crews) = (x.node, x.crews)) :
    LedgerKept s (modCohort s c f) := by
  refine ⟨fun m => ?_, fun n => ?_, modCohort_slots _ _ _, modCohort_girders _ _ _⟩
  · rw [getCohort_modCohort]
    by_cases hm : m = c
    · rw [if_pos hm, hm]
      cases getCohort s c with
      | none => rfl
      | some x => exact congrArg some (h x)
    · rw [if_neg hm]
  · unfold getNode
    rw [modCohort_nodes]

theorem LedgerKept.modThread (s : State) (u : Nat) (f : Thread → Thread) : LedgerKept s (modThread s u f) :=
  .of_eq (modThread_cohorts _ _ _) (modThread_nodes _ _ _) (modThread_slots _ _ _) (modThread_girders _ _ _)

/-- What a change of a map's values leaves of them. -/
theorem getK_map_proj {α β : Type} {g : Nat × α → Nat × α} {proj : α → β} (hkey : ∀ e, (g e).1 = e.1) (hproj : ∀ e, proj (g e).2 = proj e.2)
    (m : Map α) (k : Nat) : (getK (m.map g) k).map proj = (getK m k).map proj := by
  induction m with
  | nil => rfl
  | cons e m ih =>
    rw [List.map_cons, show g e = (e.1, (g e).2) from Prod.ext (hkey e) rfl]
    unfold getK
    split
    · exact congrArg some (hproj e)
    · exact ih

/-- Flush-point bytes leave the sticky bits of a node (R166). -/
theorem keepBases_sticky (s : State) (key pa n m : Nat) : (getNode (keepBases s key pa n) m).map (·.sticky) = (getNode s m).map (·.sticky) := by
  refine getK_map_proj (fun e => ?_) (fun e => ?_) s.nodes m
  · dsimp only
    split <;> rfl
  · dsimp only
    split <;> rfl

theorem writePa_nodes (s : State) (key pa : Nat) (bs : List Byte) : (writePa s key pa bs).nodes = s.nodes := by
  unfold writePa rekeyLine
  dsimp only
  split
  · rfl
  · split <;> rfl

/-- A write that arrives touches no record of the Hive but flush-point bytes (R351). -/
theorem arriveLine_ledgerKept (s : State) (key stamp pa : Nat) (bs : List Byte) : LedgerKept s (arriveLine s key stamp pa bs).1 := by
  obtain ⟨-, _, _, _, _, nodes, _, _, _, _, _, _, _, hkept⟩ := arriveLine_kept s key stamp pa bs
  have hnodes : (arriveLine s key stamp pa bs).1.nodes = (keepBases (wakeHome s pa) key pa bs.length).nodes := writePa_nodes (keepBases (wakeHome s pa) key pa bs.length) key pa bs
  obtain ⟨pw, hwake⟩ := wakeHome_only s pa
  rw [hwake] at hnodes
  have hcohorts : (arriveLine s key stamp pa bs).1.cohorts = s.cohorts := by rw [hkept]
  refine ⟨fun c => by unfold getCohort; rw [hcohorts], fun m => ?_, by rw [hkept], by rw [hkept]⟩
  unfold getNode
  rw [hnodes]
  exact keepBases_sticky { s with power := pw } key pa bs.length m

theorem arrive_ledgerKept (s : State) (key stamp pa : Nat) (bs : List Byte) : LedgerKept s (arrive s key stamp pa bs).1 := by
  unfold arrive
  refine LedgerKept.foldl_fst (fun acc p => ?_) _ (s, 0)
  exact arriveLine_ledgerKept acc.1 key stamp p.1 p.2

theorem partsPut_ledgerKept (key : Nat) (l : List (Nat × Nat)) (bs : List Byte) (s : State) : LedgerKept s (partsPut s key l bs) := by
  induction l generalizing s bs with
  | nil => exact .refl s
  | cons p l ih => exact (arrive_ledgerKept _ _ _ _ _).trans (ih _ _)

/-- An observation record is bytes put in parts of memory, one part after another: what these keep, it keeps (R373-R375). -/
theorem writeObs_closed {R : State → State → Prop} (hrefl : ∀ s, R s s) (htrans : ∀ {s t u}, R s t → R t u → R s u)
    (hput : ∀ key l bs s, R s (partsPut s key l bs)) (s : State) (core asid kind : Nat) (place : List Nat) (pc : DWord) (data : Nat) :
    R s (writeObs s core asid kind place pc data) := by
  have dropped (s : State) (off key : Nat) : R s (match reached s (tlbUnits core) asid off 8 with
      | some hd => partsPut s key hd (toBytes 8 (partsNum s key hd + 1))
      | none => s) := by
    split
    · exact hput _ _ _ _
    · exact hrefl s
  unfold writeObs
  generalize ctxField s asid 24 8 = buf
  generalize keyOf s asid = key
  dsimp only
  split
  · exact hrefl s
  · split
    · split
      · exact dropped _ _ _
      · split
        · exact htrans (htrans (hput _ _ _ _) (hput _ _ _ _)) (hput _ _ _ _)
        · exact htrans (hput _ _ _ _) (dropped _ _ _)
    · exact hrefl s

theorem writeObs_ledgerKept (s : State) (core asid kind : Nat) (place : List Nat) (pc : DWord) (data : Nat) :
    LedgerKept s (writeObs s core asid kind place pc data) :=
  writeObs_closed .refl .trans partsPut_ledgerKept s core asid kind place pc data

/-- An access counted changes the reuse units and nothing else (R380). -/
theorem countReuse_eq (s : State) (die asid node line : Nat) : ∃ r, countReuse s die asid node line = { s with reuse := r } := by
  unfold countReuse
  dsimp only
  split
  · exact ⟨s.reuse, rfl⟩
  · split
    · exact ⟨_, rfl⟩
    · split <;> exact ⟨_, rfl⟩

theorem countL2_ledgerKept (s : State) (u die line : Nat) : LedgerKept s (countL2 s u die line) := by
  unfold countL2
  split
  · next th _ =>
    obtain ⟨r, h⟩ := countReuse_eq s die th.lc.asid (nodeAddr s th.lc.node) line
    rw [h]
    exact .of_eq rfl rfl rfl rfl
  · exact .refl s

theorem noteWrite_ledgerKept (s : State) (node j va n how : Nat) : LedgerKept s (noteWrite s node j va n how) := by
  unfold noteWrite
  refine LedgerKept.modNode s node fun x => ?_
  dsimp only
  split <;> rfl

theorem noteGwct_ledgerKept (s : State) (node g : Nat) : LedgerKept s (noteGwct s node g) := LedgerKept.modNode s node fun _ => rfl

/-- One element of a store that arrives, its copies patched and its access counted (R351, R380). -/
theorem arriveElem_ledgerKept (s : State) (key stamp pa : Nat) (bs : List Byte) (core g u die line node j va n : Nat) :
    LedgerKept s (noteWrite (countL2 (patchCopies (arrive s key stamp pa bs).1 core pa g bs) u die line) node j va n 0) := by
  have patched : LedgerKept s (patchCopies (arrive s key stamp pa bs).1 core pa g bs) :=
    (arrive_ledgerKept s key stamp pa bs).trans (.of_eq rfl rfl rfl rfl)
  exact (patched.trans (countL2_ledgerKept _ u die line)).trans (noteWrite_ledgerKept _ node j va n 0)

/-- The elements of a store that arrive (R86, R351). -/
theorem arriveElems_ledgerKept (s : State) (a : Access) (k : Nat) : LedgerKept s (arriveElems s a k) := by
  unfold arriveElems
  dsimp only
  generalize hr : List.foldl _ (s, 0, 0) (a.writes.take k) = r
  have elements : LedgerKept s r.1 := by
    rw [← hr]
    refine LedgerKept.foldl_fst (fun acc w => ?_) (a.writes.take k) (s, 0, 0)
    exact arriveElem_ledgerKept _ _ _ _ _ _ _ _ _ _ _ _ _ _
  refine LedgerKept.trans ?_ (noteGwct_ledgerKept _ _ _)
  exact elements.trans (.of_eq rfl rfl rfl rfl)

/-- The writes that an access waits for, brought home (R353). -/
theorem settleAfter_ledgerKept (s : State) (a : Access) : LedgerKept s (settleAfter s a) :=
  LedgerKept.foldl (fun s a => arriveElems_ledgerKept s a a.writes.length) _ s

theorem noteSample_ledgerKept (s : State) (a : Access) (queueing : Option (List Nat)) : LedgerKept s (noteSample s a queueing) := by
  unfold noteSample
  split
  · exact LedgerKept.trans (t := { s with seqno := s.seqno + 5 }) (.of_eq rfl rfl rfl rfl) (writeObs_ledgerKept _ _ _ _ _ _ _)
  · exact .refl s

/-- Data that return go to their thread (R160). -/
theorem returnAccess_ledgerKept (s : State) (a : Access) (queueing : Option (List Nat)) : LedgerKept s (returnAccess s a queueing) := by
  have landed := (LedgerKept.modThread s a.thread (landAccess a s.span)).trans (noteSample_ledgerKept _ a queueing)
  unfold returnAccess
  dsimp only
  split
  · exact landed.trans (.of_eq rfl rfl rfl rfl)
  · split
    · exact landed.trans (.of_eq rfl rfl rfl rfl)
    · exact landed.trans (.of_eq rfl rfl rfl rfl)
  · exact .refl s

/-- A thread's loads and atomics returned (R212). -/
theorem returnLoads_ledgerKept (s : State) (u : Nat) : LedgerKept s (returnLoads s u) := by
  refine LedgerKept.foldl (fun s id => ?_) _ s
  dsimp only
  split
  · next a _ =>
    have settled := settleAfter_ledgerKept s a
    split
    · exact settled.trans (returnAccess_ledgerKept _ _ _)
    · exact settled
  · exact .refl s

/-- A Cocoon rolled back (R212). -/
theorem rollCocoon_ledgerKept (s : State) (u : Nat) : LedgerKept s (rollCocoon s u) := by
  have returned := returnLoads_ledgerKept s u
  unfold rollCocoon
  dsimp only
  split
  · exact returned
  · split
    · exact returned
    · exact returned.trans (.of_eq rfl rfl rfl rfl)

/-- Replies that fall away are the threads' (R214). -/
theorem withdrawReply_ledgerKept (s : State) (e : QEntry) : LedgerKept s (withdrawReply s e) := by
  unfold withdrawReply
  split
  · exact .refl s
  · exact LedgerKept.foldl (fun s o => LedgerKept.modThread _ _ _) _ s

theorem withdrawReplies_ledgerKept (es : List QEntry) (s : State) : LedgerKept s (es.foldl withdrawReply s) :=
  .foldl withdrawReply_ledgerKept es s

/-- One queue's entries withdrawn (R214). -/
theorem withdrawClass_ledgerKept (s : State) (c core cls : Nat) (q es : List QEntry) (l : List (Nat × QEntry)) :
    LedgerKept s (modCohort (es.foldl withdrawReply (putQueue s core cls q)) c fun x => { x with withdrawn := x.withdrawn ++ l }) := by
  have queued : LedgerKept s (putQueue s core cls q) := .of_eq rfl rfl rfl rfl
  exact (queued.trans (withdrawReplies_ledgerKept es _)).trans (.modCohort _ c fun _ => rfl)

/-- What a cohort's engines still held is withdrawn: queues, counters and its own list (R214). -/
theorem withdrawAll_ledgerKept (s : State) (c : Nat) (cores : List Nat) : LedgerKept s (withdrawAll s c cores) := by
  refine LedgerKept.foldl (fun s core => ?_) cores s
  refine LedgerKept.trans (LedgerKept.trans ?_ (withdrawClass_ledgerKept _ c core 4 _ _ _))
    (LedgerKept.foldl (fun s cls => withdrawClass_ledgerKept s c core cls _ _ _) [0, 1, 2, 3, 5, 6] _)
  refine LedgerKept.trans ?_ (withdrawReplies_ledgerKept _ _)
  exact .of_eq rfl rfl rfl rfl

/-- A cohort that stands still: its Cocoons rolled back, its unbounded waits withdrawn (R214). -/
theorem quiesced_ledgerKept (s : State) (c : Nat) (x : Cohort) : LedgerKept s (quiesced s c x) := by
  unfold quiesced
  refine LedgerKept.trans (LedgerKept.foldl (fun s e => ?_) _ s) (withdrawAll_ledgerKept _ _ _)
  split
  · exact .refl s
  · exact ((rollCocoon_ledgerKept s e.1).trans (LedgerKept.modThread _ e.1 _)).trans (.of_eq rfl rfl rfl rfl)

end Sys2Proof.Machine

/-! The save of a cohort (R214, R215, R267). -/

namespace Sys2Proof.Machine

open Sys2Proof

/-- The entries thinned of some threads hold none of them (R199). -/
theorem thinSwarm_thins (s t : State) (p : Nat → Bool) (ht : t.swarm = thinSwarm s p) (core : Nat) :
    ∀ y ∈ coreSwarm t core, ∀ u ∈ y.members, p u = false := by
  intro y hy u hu
  unfold coreSwarm at hy
  rw [ht, thinSwarm, getK_map'] at hy
  cases hcore : getK s.swarm core with
  | none => rw [hcore] at hy; exact absurd hy (by simp)
  | some l =>
    rw [hcore] at hy
    obtain ⟨e, -, he⟩ := List.mem_filterMap.mp hy
    have left {v : Nat} (hv : v ∈ e.members.filter fun t => !p t) : p v = false := by simpa using (List.mem_filter.mp hv).2
    dsimp only at he
    split at he
    · exact absurd he nofun
    · next v vs hleft =>
      rw [← hleft] at he
      obtain rfl := Option.some.inj he
      split at hu
      · next hlength =>
        rw [List.filter_sublist.eq_of_length hlength] at left
        exact left hu
      · exact left hu

theorem startSave_threads (s : State) (c : Nat) : (startSave s c).threads = s.threads := modCohort_threads _ _ _

/-- A save that begins takes the cohort's threads out of the Swarm Table (R214, step 1). -/
theorem startSave_facts {s : State} {c : Nat} {x : Cohort} (hx : getCohort s c = some x) :
    OutOfSwarm (startSave s c) c ∧ (∀ m, getCohort (startSave s c) m = if m = c then some { x with state := 2 } else getCohort s m) ∧
      startSave s c = { s with cohorts := (startSave s c).cohorts, swarm := (startSave s c).swarm } := by
  refine ⟨fun core y hy u hu => ?_, fun m => ?_, ?_⟩
  · have out := thinSwarm_thins s (startSave s c) (ofCohort s c) rfl core y hy u hu
    unfold ofCohort getThread at out ⊢
    rw [startSave_threads]
    exact out
  · refine (getCohort_modCohort s c m _).trans ?_
    rw [hx]
    rfl
  · unfold startSave
    rw [modCohort_eq]

/-- An interval still open when its cohort is saved marks the cohort's node (R267). -/
theorem promoteOpen_marks {s : State} {c : Nat} {x : Cohort} {n : Node} (hopen : openInterval s c = true) (hx : getCohort s c = some x)
    (hn : getNode s x.node = some n) : ∃ m, getNode (promoteOpen s c) x.node = some m ∧ m.sticky.testBit 6 = true := by
  unfold promoteOpen
  rw [if_pos hopen, hx, getNode_modNode]
  refine ⟨{ n with sticky := n.sticky ||| 64 }, ?_, ?_⟩
  · rw [Option.map_some, Option.getD_some, if_pos rfl]
    exact congrArg _ hn
  · rw [Nat.testBit_or, show (64 : Nat).testBit 6 = true by decide, Bool.or_true]

theorem promoteOpen_rest (s : State) (c : Nat) : (promoteOpen s c).cohorts = s.cohorts ∧ (promoteOpen s c).slots = s.slots := by
  unfold promoteOpen
  split
  · exact ⟨modNode_cohorts _ _ _, modNode_slots _ _ _⟩
  · exact ⟨rfl, rfl⟩

theorem poisonLine_ledgerKept (s : State) (line : Nat) : LedgerKept s (poisonLine s line) := by
  unfold poisonLine
  split
  · exact .refl s
  · exact .of_eq rfl rfl rfl rfl

/-- Stack rows spilled are writes at their homes (R198). -/
theorem spillRow_ledgerKept (s : State) (core : Nat) (r : StackRow) : LedgerKept s (spillRow s core r) := by
  refine LedgerKept.foldl (fun s lane => ?_) _ s
  dsimp only
  split
  · exact .refl s
  · split
    · exact .refl s
    · split
      · refine LedgerKept.trans ?_ (poisonLine_ledgerKept _ _)
        exact arrive_ledgerKept _ _ _ _ _
      · exact arrive_ledgerKept _ _ _ _ _

theorem dropRows_ledgerKept (s : State) (crews : List Nat) (spill : Bool) : LedgerKept s (dropRows s crews spill) := by
  refine LedgerKept.foldl (fun s core => ?_) _ s
  dsimp only
  split
  · have spilled (l : List StackRow) := LedgerKept.foldl (fun s r => spillRow_ledgerKept s core r) l s
    exact (spilled _).trans (.of_eq rfl rfl rfl rfl)
  · exact .of_eq rfl rfl rfl rfl

/-- The machine as a save finds it: the cohort stands still, its intervals are promoted, its requests the Hive's, its rows written back. -/
def beforeSave (s : State) (c : Nat) (x : Cohort) : State :=
  dropRows (keepRequests (promoteOpen (quiesced s c x) c) c x.crews) x.crews true

/-- The cohort keeps its crews, the slots stand, and an open interval has marked the node. -/
theorem beforeSave_facts {s : State} {c : Nat} {x : Cohort} (hx : getCohort s c = some x) :
    (∃ y, getCohort (beforeSave s c x) c = some y ∧ y.crews = x.crews) ∧ (beforeSave s c x).slots = s.slots ∧
      ∀ n, openInterval s c = true → getNode s x.node = some n → ∃ m, getNode (beforeSave s c x) x.node = some m ∧ m.sticky.testBit 6 = true := by
  have quiet := quiesced_ledgerKept s c x
  obtain ⟨hcohorts, hslots⟩ := promoteOpen_rest (quiesced s c x) c
  have dropped := dropRows_ledgerKept (keepRequests (promoteOpen (quiesced s c x) c) c x.crews) x.crews true
  have hc : (getCohort (beforeSave s c x) c).map (fun y => (y.node, y.crews)) = some (x.node, x.crews) := by
    refine (dropped.cohorts c).trans ?_
    unfold getCohort keepRequests
    dsimp only
    rw [hcohorts]
    refine (quiet.cohorts c).trans ?_
    rw [hx]
    rfl
  refine ⟨?_, dropped.slots.trans (hslots.trans quiet.slots), fun n hopen hn => ?_⟩
  · obtain ⟨y, hy, e⟩ := Option.map_eq_some_iff.mp hc
    exact ⟨y, hy, (Prod.mk.inj e).2⟩
  · have hq : (getCohort (quiesced s c x) c).map (fun y => (y.node, y.crews)) = some (x.node, x.crews) := by
      rw [quiet.cohorts, hx]
      rfl
    obtain ⟨y, hy, e⟩ := Option.map_eq_some_iff.mp hq
    have hynode : y.node = x.node := (Prod.mk.inj e).1
    have hnode := quiet.nodes x.node
    rw [hn, Option.map_some] at hnode
    obtain ⟨n', hn', -⟩ := Option.map_eq_some_iff.mp hnode
    have hopen' : openInterval (quiesced s c x) c = true := by
      unfold openInterval
      rw [quiet.girders]
      exact hopen
    obtain ⟨m, hm, hbit⟩ := promoteOpen_marks hopen' hy (by rw [hynode]; exact hn')
    have hdrop := dropped.nodes x.node
    rw [show getNode (keepRequests (promoteOpen (quiesced s c x) c) c x.crews) x.node = some m by rw [← hm, hynode]; rfl, Option.map_some] at hdrop
    obtain ⟨m', hm', hsticky⟩ := Option.map_eq_some_iff.mp hdrop
    exact ⟨m', hm', by rw [hsticky]; exact hbit⟩

/-- A cohort that is saved: its state is in its image, its threads and crews are on no core, its slots retire (R214, R215). -/
structure Saved (r t : State) (c : Nat) (crews : List Nat) : Prop where
  cohort : ∃ y, getCohort t c = some y ∧ y.state = 3 ∧ y.crews = crews
  gone : ∀ k ∈ crews, getCrew t k = none ∧ ∀ l, l < 64 → getThread t (k * 64 + l) = none
  slots : ∀ k ∈ r.slots, k.2.cohort = c → (k.1, { k.2 with state := 3 }) ∈ t.slots
  nodes : ∀ n, (getNode t n).map (·.sticky) = (getNode r n).map (·.sticky)

/-- The bytes of the image leave it saved. -/
theorem Saved.of_kept {r s t : State} {c : Nat} {crews : List Nat} (h : Saved r s c crews) (hkept : Kept s t) (hledger : LedgerKept s t) :
    Saved r t c crews := by
  have hrest : t.cohorts = s.cohorts ∧ t.crews = s.crews := by
    obtain ⟨-, _, _, _, _, _, _, _, _, _, _, _, _, rfl⟩ := hkept
    exact ⟨rfl, rfl⟩
  refine ⟨?_, fun k hk => ⟨?_, fun l hl => ?_⟩, by rw [hledger.slots]; exact h.slots, fun n => (hledger.nodes n).trans (h.nodes n)⟩
  · unfold getCohort
    rw [hrest.1]
    exact h.cohort
  · unfold getCrew
    rw [hrest.2]
    exact (h.gone k hk).1
  · have hthread := hkept.threads (k * 64 + l)
    rw [(h.gone k hk).2 l hl] at hthread
    exact Option.map_eq_none_iff.mp hthread

theorem Saved.modNode {r s : State} {c : Nat} {crews : List Nat} (h : Saved r s c crews) (n : Nat) {f : Node → Node} (hf : ∀ x, (f x).sticky = x.sticky) :
    Saved r (modNode s n f) c crews := by
  refine ⟨?_, fun k hk => ?_, ?_, fun m => ((LedgerKept.modNode s n hf).nodes m).trans (h.nodes m)⟩
  · unfold getCohort
    rw [modNode_cohorts]
    exact h.cohort
  · unfold getCrew getThread
    rw [modNode_crews, modNode_threads]
    exact h.gone k hk
  · rw [modNode_slots]
    exact h.slots

/-- Free bytes of an image are writes at their homes (R215, log 8). -/
theorem writeFree_kept (s : State) (units : List (Nat × Nat)) (asid va n : Nat) :
    Kept s (writeFree s units asid va n) ∧ LedgerKept s (writeFree s units asid va n) := by
  unfold writeFree
  dsimp only
  constructor
  · refine Kept.trans (t := { s with seqno := s.seqno + 1 }) ⟨fun _ => rfl, _, _, _, _, _, _, _, _, _, _, _, _, rfl⟩ ?_
    refine kept_foldl _ (fun s p => ?_) _ _
    split
    · exact arrive_kept _ _ _ _ _
    · exact Kept.refl s
  · refine LedgerKept.trans (t := { s with seqno := s.seqno + 1 }) (.of_eq rfl rfl rfl rfl) ?_
    refine LedgerKept.foldl (fun s p => ?_) _ _
    split
    · exact arrive_ledgerKept _ _ _ _ _
    · exact LedgerKept.refl s

/-- A cohort whose crews are dropped and whose slots retire, its record in its image, is saved. -/
theorem saved_of_dropped {r s : State} {c : Nat} {y : Cohort} (hslots : s.slots = r.slots) (hnodes : s.nodes = r.nodes) (hy : getCohort s c = some y)
    (hstate : y.state = 3) (T : Map Thread) (D : List Deferral) (G : Map Girder) (P : Map Scarab) :
    Saved r { dropCrews { s with threads := T, deferrals := D } y.crews with
      girders := G, scarabs := P
      slots := (dropCrews { s with threads := T, deferrals := D } y.crews).slots.map fun e => if e.2.cohort = c then (e.1, { e.2 with state := 3 }) else e }
      c y.crews := by
  refine ⟨⟨y, hy, hstate, rfl⟩, fun k hk => ⟨?_, fun l hl => ?_⟩, fun k hk hc => ?_, fun n => ?_⟩
  · exact (getCrew_dropCrews { s with threads := T, deferrals := D } y.crews k).trans (if_pos hk)
  · refine (getThread_dropCrews { s with threads := T, deferrals := D } y.crews (k * 64 + l)).trans (if_pos ?_)
    rw [show (k * 64 + l) / 64 = k by omega]
    exact hk
  · rw [← hslots] at hk
    exact List.mem_map.mpr ⟨k, hk, if_pos hc⟩
  · show (getK s.nodes n).map _ = _
    rw [hnodes]
    rfl

/-- The save of a cohort, from the machine that it finds on (R214, R215). -/
theorem saveCohort_saved {s : State} {c : Nat} {x : Cohort} (hx : getCohort s c = some x) :
    Saved (beforeSave s c x) (saveCohort s c x) c x.crews := by
  obtain ⟨⟨y, hy, hcrews⟩, -, -⟩ := beforeSave_facts hx
  unfold saveCohort
  simp only [show dropRows (keepRequests (promoteOpen (quiesced s c x) c) c x.crews) x.crews true = beforeSave s c x from rfl]
  generalize beforeSave s c x = b at hy ⊢
  generalize hs2 : modCohort b c _ = s2
  have hslots : s2.slots = b.slots := by rw [← hs2, modCohort_slots]
  have hnodes : s2.nodes = b.nodes := by rw [← hs2, modCohort_nodes]
  obtain ⟨z, hz, hstate, hzcrews⟩ : ∃ z, getCohort s2 c = some z ∧ z.state = 3 ∧ z.crews = x.crews := by
    rw [← hs2, getCohort_modCohort, if_pos rfl, hy]
    exact ⟨_, rfl, rfl, hcrews⟩
  obtain ⟨T, D, hblocked⟩ := blocked_fold ((cohortThreads s2 c).map (·.1)) s2
  rw [List.foldl_map] at hblocked
  rw [hblocked, ← hzcrews]
  have dropped := saved_of_dropped hslots hnodes hz hstate T D
  split
  · exact dropped _ _
  · obtain ⟨hkept, hledger⟩ := writeFree_kept _ _ _ _ _
    exact ((dropped _ _).of_kept hkept hledger).modNode _ fun _ => rfl

/-- Until it is marked, and while an interval is open, a cohort stays as it is (R214, R267). -/
theorem execCohortSave_unmarked {s : State} {c : Nat} {x : Cohort} (hx : getCohort s c = some x) (h2 : x.state ≠ 2) (h5 : x.state ≠ 5) :
    execCohortSave c s = .next s := by
  unfold execCohortSave
  rw [hx]
  dsimp only
  rw [if_neg h5, if_pos h2]

theorem execCohortSave_asked {s : State} {c : Nat} {x : Cohort} (hx : getCohort s c = some x) (h5 : x.state = 5) :
    execCohortSave c s = .next (if openInterval s c then s else startSave s c) := by
  unfold execCohortSave
  rw [hx]
  dsimp only
  rw [if_pos h5]

/-- A cohort marked is saved once it stands still; before that, its clauses over, what waits without bound is withdrawn (R214). -/
theorem execCohortSave_marked {s : State} {c : Nat} {x : Cohort} (hx : getCohort s c = some x) (h2 : x.state = 2) :
    execCohortSave c s = .next (if saveReady s c x then saveCohort s c x
      else if clausesOver s c then withdrawAll s c (coresOf x.crews) else s) := by
  unfold execCohortSave
  rw [hx]
  dsimp only
  rw [if_neg (by rw [h2]; decide), if_neg (not_not_intro h2)]

end Sys2Proof.Machine

/-- Settles O46: a save is the cohort standing still, its rows spilled and its crews dropped; a slot retires by its state, its cohort and what is
left of the crew. -/
theorem saveEvents : Obligations.SaveEvents := by
  open Sys2Proof Sys2Proof.Machine in
  refine ⟨fun c s => ?_, fun core slot s => ?_⟩
  -- saves (R214, R267)
  · intro go
    refine ⟨fun hx => ?_, fun x hx => ⟨execCohortSave_unmarked hx, fun h5 hopen => ?_, fun h5 hopen => ?_, fun h2 hready => ⟨fun hover => ?_, fun hover => ?_⟩,
      fun h2 hready => ?_⟩⟩
    · change execCohortSave c s = _
      unfold execCohortSave
      rw [hx]
    · refine (execCohortSave_asked hx h5).trans ?_
      rw [if_pos hopen]
    · refine ⟨startSave s c, (execCohortSave_asked hx h5).trans ?_, ?_⟩
      · rw [if_neg (by rw [hopen]; decide)]
      · obtain ⟨hout, hcohorts, hrest⟩ := startSave_facts hx
        exact ⟨hout, hcohorts, hrest⟩
    · refine (execCohortSave_marked hx h2).trans ?_
      rw [if_neg (by rw [hready]; decide), if_neg (by rw [hover]; decide)]
    · refine (execCohortSave_marked hx h2).trans ?_
      rw [if_neg (by rw [hready]; decide), if_pos hover]
    · have hsaved := saveCohort_saved hx
      obtain ⟨-, hslots, hmarks⟩ := beforeSave_facts hx
      refine ⟨saveCohort s c x, (execCohortSave_marked hx h2).trans ?_, hsaved.cohort, hsaved.gone, ?_, fun n hopen hn => ?_⟩
      · rw [if_pos hready]
      · rw [← hslots]
        exact hsaved.slots
      · obtain ⟨m, hm, hbit⟩ := hmarks n hopen hn
        have hnode := hsaved.nodes x.node
        rw [hm, Option.map_some] at hnode
        obtain ⟨m', hm', hsticky⟩ := Option.map_eq_some_iff.mp hnode
        exact ⟨m', hm', by rw [hsticky]; exact hbit⟩
  -- slots that retire (R194, R196, R238, R284)
  · intro crew e go bad node flags
    refine ⟨execSlotRetire_idle, fun h2 => ⟨execSlotRetire_resident_orphan h2, fun x hx => ?_⟩, fun h3 => ⟨fun hx => ?_, fun x hx => ?_⟩⟩
    · intro done offered home
      have hgo : go = .next (if done ∧ ¬ offered then retireRegions s e.cohort x else s) := execSlotRetire_resident h2 hx
      refine ⟨fun h => ?_, fun hdone hoffered r => ⟨fun hw hregions hcrews => ?_, fun code hw => ?_, fun va p hw => ?_⟩⟩
      · rw [hgo, if_neg fun ⟨hdone, hoffered⟩ => h.elim (· hdone) hoffered]
      all_goals rw [hgo, if_pos ⟨hdone, hoffered⟩]
      · exact ⟨_, rfl, retireRegions_written hw hregions hcrews⟩
      · exact ⟨_, rfl, retireRegions_fatal hw⟩
      · rw [retireRegions_missing hw]
    · obtain ⟨hempty, hnodes, hcohorts, -, -⟩ := freeSlot_facts s crew e.node
      exact ⟨_, execSlotRetire_retiring_orphan h3 hx, hempty, hnodes, hcohorts⟩
    · intro quiet
      have hgo := execSlotRetire_retiring h3 hx
      obtain ⟨hempty, hnodes, hcohorts, hgirders, hscarabs⟩ := freeSlot_facts s crew e.node
      refine ⟨fun hs => ?_, fun hs hq => ?_, fun hs hq ho => ?_, fun hs hq ho => ⟨fun hrows => ?_, fun hrows hnode => ?_⟩⟩
      · rw [if_pos hs] at hgo
        exact ⟨_, hgo, slotEmpty_of_dropped (s := s) rfl rfl rfl, rfl, rfl⟩
      · rw [if_neg hs, if_pos ((Bool.not_eq_true' _).mpr (Bool.eq_false_iff.mpr hq))] at hgo
        exact hgo
      · rw [if_neg hs, if_neg (by simpa using hq), if_pos ho] at hgo
        exact ⟨_, hgo, hempty, hnodes, hcohorts⟩
      · rw [if_neg hs, if_neg (by simpa using hq), if_neg (by simpa using ho), if_pos ((rowsLeft_iff s e.cohort).mpr hrows)] at hgo
        exact hgo
      · rw [if_neg hs, if_neg (by simpa using hq), if_neg (by simpa using ho), if_neg (by rw [rowsLeft_false hrows]; decide)] at hgo
        obtain ⟨hgone, harray, hpipe⟩ := retireCohort_frees (freeSlot s crew e.node) e.cohort x
        refine ⟨_, hgo, slotEmpty_retireCohort hempty, getK_retire_last_nodes s crew e.node e.cohort hnode, ?_, fun c hc => ?_, harray, hpipe⟩
        · unfold getCohort
          rw [hgone, getK_delK_same]
        · unfold getCohort
          rw [hgone, getK_delK_ne _ hc, hcohorts]
